-- ==== Sys2Proof/Word.lean ====
section
/-! DEFINITION. The word and register-number types of the F7 and their plainest arithmetic (R2, R8, R9). -/

namespace Sys2Proof

/-- A 64-bit register value (R50). -/
abbrev Word := BitVec 64
/-- One byte of memory (R3). -/
abbrev Byte := BitVec 8
/-- A g register number, g0 to g63 (R42). -/
abbrev Reg := BitVec 6
/-- A predicate number, p0 to p7 (R42). -/
abbrev PReg := BitVec 3
/-- An event register number, e0 to e15 (R42). -/
abbrev EReg := BitVec 4
/-- A tile number, t0 to t63 (R42). -/
abbrev TReg := BitVec 6
/-- A ring number, q0 to q7 (R42). -/
abbrev QReg := BitVec 3
/-- A shape record number, h0 to h31 (R42). -/
abbrev HReg := BitVec 5
/-- A 48-bit immediate (R41). -/
abbrev Imm48 := BitVec 48

/-- zext(x, n) of R9 on numbers: the low n bits. -/
def zextN (x n : Nat) : Nat := x % 2 ^ n

/-- sext(x, n) of R9: the low n bits of x read as an n-bit two's-complement value. -/
def sextN (x n : Nat) : Int :=
  if x % 2 ^ n < 2 ^ (n - 1) then (x % 2 ^ n : Nat) else (x % 2 ^ n : Nat) - (2 ^ n : Nat)

/-- NAME[hi:lo] of R2 on numbers. -/
def bitsN (x hi lo : Nat) : Nat := x / 2 ^ lo % 2 ^ (hi + 1 - lo)

/-- clamp(x, lo, hi) of R9. -/
def clampI (x lo hi : Int) : Int := if x < lo then lo else if hi < x then hi else x

/-- The low n bits of an integer, two's complement (R8: assigning to a field of n bits). -/
def wrapN (x : Int) (n : Nat) : Nat := (x % (2 ^ n : Nat)).toNat

end Sys2Proof
end

