-- ==== Sys2Proof/Machine/SMap.lean ====
section
/-! DEFINITION. Sparse maps keyed by Nat, and byte memory in canonical form. An unlisted key reads as a default. -/

namespace Sys2Proof.Machine

/-- A sparse map: pairs of key and value, keys rising. -/
abbrev SMap (α : Type) := List (Nat × α)

/-- The value at k, or d where k is not listed. -/
def SMap.get {α : Type} (d : α) : SMap α → Nat → α
  | [], _ => d
  | (k', v) :: r, k => if k = k' then v else SMap.get d r k

/-- The map with v at k. -/
def SMap.set {α : Type} : SMap α → Nat → α → SMap α
  | [], k, v => [(k, v)]
  | (k', v') :: r, k, v =>
    if k < k' then (k, v) :: (k', v') :: r
    else if k = k' then (k, v) :: r
    else (k', v') :: SMap.set r k v

/-- The map without k. -/
def SMap.del {α : Type} (m : SMap α) (k : Nat) : SMap α := m.filter fun p => p.1 != k

/-- k is listed. -/
def SMap.has {α : Type} : SMap α → Nat → Bool
  | [], _ => false
  | (k', _) :: r, k => k == k' || SMap.has r k

/-- The value at k changed by f. -/
def SMap.upd {α : Type} (d : α) (m : SMap α) (k : Nat) (f : α → α) : SMap α := m.set k (f (m.get d k))

/-! ## Byte memory

Keys: byte PA of package p's memory stands at p · 2^40 + PA (R10, R182); byte OFF of a core's slice at
2^52 + key · 2^17 + OFF, key the core's number (R18). An unlisted byte reads 0: slices are zero at cold reset (R18);
for package memory the spec gives no contents (DESIGN CHOICE, log 3). -/

/-- Memory: cells with addresses strictly rising and no zero byte. -/
abbrev Memory := List Host.Cell

/-- What an unlisted address reads as (log 3). -/
def Memory.absent : Byte := 0

/-- The byte at a. -/
def Memory.read : Memory → Nat → Byte
  | [], _ => Memory.absent
  | (a', v) :: r, a => if a = a' then v else Memory.read r a

/-- The memory with byte v at a, in canonical form. -/
def Memory.write : Memory → Nat → Byte → Memory
  | [], a, v => if v = Memory.absent then [] else [(a, v)]
  | (a', v') :: r, a, v =>
    if a < a' then (if v = Memory.absent then (a', v') :: r else (a, v) :: (a', v') :: r)
    else if a = a' then (if v = Memory.absent then r else (a, v) :: r)
    else (a', v') :: Memory.write r a v

/-- Every address is above lo, addresses rise strictly, and no cell holds what an unlisted address reads as. -/
def Memory.wfFrom : Option Nat → Memory → Bool
  | _, [] => true
  | lo, (a, v) :: r => (match lo with | none => true | some l => decide (l < a)) && (v != Memory.absent) && Memory.wfFrom (some a) r

/-- The canonical form. -/
def Memory.wf (m : Memory) : Bool := Memory.wfFrom none m

/-- n bytes from a, lowest address first. -/
def Memory.readBytes (m : Memory) (a : Nat) : Nat → List Byte
  | 0 => []
  | n + 1 => m.read a :: Memory.readBytes m (a + 1) n

/-- Bytes written from a upward. -/
def Memory.writeBytes (m : Memory) (a : Nat) : List Byte → Memory
  | [] => m
  | b :: bs => Memory.writeBytes (m.write a b) (a + 1) bs

/-- The number whose little-endian bytes are given (R3). -/
def leNat : List Byte → Nat
  | [] => 0
  | b :: bs => b.toNat + 256 * leNat bs

/-- The n little-endian bytes of a number (R3). -/
def leBytes : Nat → Nat → List Byte
  | 0, _ => []
  | n + 1, x => BitVec.ofNat 8 x :: leBytes n (x / 256)

end Sys2Proof.Machine
end

