-- ==== Sys2Proof/Machine/Cipher.lean ====
section
/-! DEFINITION. The cipher of package memory: AES-XTS-256 over a 64-byte line, with the line's physical address as the tweak (R186). AES-256
is that of FIPS 197 and XTS that of IEEE 1619; a state is 16 bytes, column by column (PRESUMED: the order of the key's halves and of the tweak's
bytes, log 63). -/

namespace Sys2Proof.Machine.Cipher

/-- Bytes or-ed exclusively in pairs. -/
def xorBytes (a b : List Byte) : List Byte := List.zipWith (· ^^^ ·) a b
/-- A field element times x. -/
def xtime (a : Byte) : Byte := (a <<< 1) ^^^ (if a.msb then 0x1B else 0)
/-- The product of two field elements, over the bits of the second. -/
def gmul (a b : Byte) : Byte :=
  ((List.range 8).foldl (fun (p : Byte × Byte) i => (if b.getLsbD i then p.1 ^^^ p.2 else p.1, xtime p.2)) (0, a)).1
/-- The inverse of a field element, 0 for 0: its power 254. -/
def ginv (a : Byte) : Byte := (List.range 7).foldl (fun r i => if i = 6 then gmul r r else gmul (gmul r r) a) a
/-- SubBytes of a byte. -/
def sbox (a : Byte) : Byte :=
  let b := ginv a
  b ^^^ b.rotateLeft 1 ^^^ b.rotateLeft 2 ^^^ b.rotateLeft 3 ^^^ b.rotateLeft 4 ^^^ 0x63
/-- Its inverse. -/
def sboxInv (a : Byte) : Byte := ginv (a.rotateLeft 1 ^^^ a.rotateLeft 3 ^^^ a.rotateLeft 6 ^^^ 0x05)

/-- The round constant of a number. -/
def rcon (n : Nat) : Byte := (List.range (n - 1)).foldl (fun r _ => xtime r) 1
/-- The next word of the key schedule after those given. -/
def nextWord (ws : List (List Byte)) : List Byte :=
  let i := ws.length
  let t := ws.getD (i - 1) []
  let t := if i % 8 = 0 then xorBytes ((t.rotateLeft 1).map sbox) [rcon (i / 8), 0, 0, 0]
    else if i % 8 = 4 then t.map sbox else t
  xorBytes (ws.getD (i - 8) []) t
/-- The 15 round keys of a 32-byte key. -/
def roundKeys (key : List Byte) : List (List Byte) :=
  let w0 := (List.range 8).map fun i => (key.drop (4 * i)).take 4
  let ws := (List.range 52).foldl (fun ws _ => ws ++ [nextWord ws]) w0
  (List.range 15).map fun r => ((ws.drop (4 * r)).take 4).flatten

/-- ShiftRows by one place for each row's number, or back. -/
def shiftRows (back : Bool) (st : List Byte) : List Byte :=
  (List.range 16).map fun i => st.getD ((i + (if back then 12 else 4) * (i % 4)) % 16) 0
/-- Each column multiplied by the circulant matrix of a first row. -/
def mixColumns (m : List Byte) (st : List Byte) : List Byte :=
  (List.range 16).map fun i =>
    (List.range 4).foldl (fun a j => a ^^^ gmul (st.getD (i / 4 * 4 + j) 0) (m.getD ((j + 4 - i % 4) % 4) 0)) 0

/-- AES-256 encryption of a block. -/
def aesEnc (ks : List (List Byte)) (b : List Byte) : List Byte :=
  let st := (List.range 13).foldl
    (fun st r => xorBytes (mixColumns [2, 3, 1, 1] (shiftRows false (st.map sbox))) (ks.getD (r + 1) [])) (xorBytes b (ks.getD 0 []))
  xorBytes (shiftRows false (st.map sbox)) (ks.getD 14 [])
/-- AES-256 decryption of a block. -/
def aesDec (ks : List (List Byte)) (b : List Byte) : List Byte :=
  let st := (List.range 13).foldl
    (fun st r => mixColumns [14, 11, 13, 9] (xorBytes ((shiftRows true st).map sboxInv) (ks.getD (13 - r) []))) (xorBytes b (ks.getD 14 []))
  xorBytes ((shiftRows true st).map sboxInv) (ks.getD 0 [])

/-- A tweak times α: the 128-bit number shifted left by one, reduced. -/
def mulAlpha (t : List Byte) : List Byte :=
  let n := leNat t
  leBytes 16 ((2 * n % 2 ^ 128) ^^^ (if 2 ^ 127 ≤ n then 0x87 else 0))
/-- Whole blocks in XTS mode, from a tweak on, with a block function. -/
def xtsBlocks (f : List Byte → List Byte) : Nat → List Byte → List Byte → List Byte
  | 0, _, _ => []
  | n + 1, t, bs => xorBytes (f (xorBytes (bs.take 16) t)) t ++ xtsBlocks f n (mulAlpha t) (bs.drop 16)
/-- A 64-byte line in XTS mode at a physical address: key material of 64 bytes, the data key first. -/
def xtsLine (dec : Bool) (m : List Byte) (pa : Nat) (bs : List Byte) : List Byte :=
  let k := roundKeys (m.take 32)
  xtsBlocks (if dec then aesDec k else aesEnc k) 4 (aesEnc (roundKeys (m.drop 32)) (leBytes 16 pa)) bs

/-- What a line reads as under key material new_ whose bytes were stored as the plaintext bs under material old: deciphered under new_ from
what old made of it. Material that is no key of 64 bytes, a slot with none, leaves a line as it is (log 63). -/
def recrypt (old new_ : List Byte) (pa : Nat) (bs : List Byte) : List Byte :=
  let stored := if old.length = 64 then xtsLine false old pa bs else bs
  if new_.length = 64 then xtsLine true new_ pa stored else stored

end Sys2Proof.Machine.Cipher
end

