-- ==== Sys2Proof/Syntax.lean ====
section
/-! DEFINITION. The instructions and hardware steps of the F7: one constructor of Instr for each row of
spec/opcode_table.json. Instructions carry their decoded operands; hardware steps carry the message or the
place they act on. -/

namespace Sys2Proof

/-- A core's coordinates: package number, column 0-511, row 0-199 (R12, R14). -/
structure CoreId where
  pkg : Nat
  col : Nat
  row : Nat
deriving DecidableEq, Repr

/-- A strand context: its core and slot 0-7 (R16). -/
structure StrandId where
  core : CoreId
  slot : Nat
deriving DecidableEq, Repr

/-- The guard of an instruction word: p[PG] exclusive-or PN (R40). -/
structure Guard where
  neg : Bool
  p   : PReg
deriving DecidableEq, Repr

/-- Scope codes 0 to 4 (R22). -/
inductive Scope where
  | core | crew | reach | pkg | dom
deriving DecidableEq, Repr

/-- Access sizes (R48). -/
inductive Sz where
  | b | h | w | d
deriving DecidableEq, Repr

/-- Integer conditions (R66). -/
inductive Cond where
  | eq | ne | lt | le | gt | ge | lo | ls | hi | hs
deriving DecidableEq, Repr

/-- Float conditions of fcmp (R67). -/
inductive FCond where
  | eq | lt | le | un
deriving DecidableEq, Repr

/-- Float formats (R78). -/
inductive FFmt where
  | f32 | f16 | bf16 | f8a | f8b | f4
deriving DecidableEq, Repr

/-- Conversions of fcvt, destination first (R67). -/
inductive FConv where
  | f32s64 | s64f32 | f32f16 | f16f32 | f32bf16 | bf16f32 | f32n64 | n64f32
deriving DecidableEq, Repr

/-- Vector element types, codes 0 to 10 (R67). -/
inductive VTy where
  | f32 | f16 | bf16 | s32 | s16 | s8 | n32 | n16 | n8 | f8a | f8b
deriving DecidableEq, Repr

/-- Operators of vred and vscan (R139). -/
inductive VRedOp where
  | add | max | min | and | or | xor
deriving DecidableEq, Repr

/-- Conditions of vcmp (R142). -/
inductive VCond where
  | eq | ne | lt | le | gt | ge | un
deriving DecidableEq, Repr

/-- Functions of vsfu (R146). -/
inductive SFn where
  | exp2 | log2 | rcp | rsq | tanh | erf
deriving DecidableEq, Repr

/-- Operations of atom and red (R68). -/
inductive AtomOp where
  | swap | cas | add | and | or | xor | max | min | maxn | minn | fadd
deriving DecidableEq, Repr

/-- Kinds of events (R247). -/
inductive EvKind where
  | sync | xfer | gather | reduce
deriving DecidableEq, Repr

/-- Variants of mulh (R59). -/
inductive MulhKind where
  | s | n | sn
deriving DecidableEq, Repr

/-- Fields that decoord extracts (R116). -/
inductive CoordField where
  | col | row | pkg | off | relflag
deriving DecidableEq, Repr

/-- The three forms of pmov (R118). -/
inductive PmovForm where
  | pp (d a : PReg)
  | pg (d : PReg) (a : Reg)
  | gp (d : Reg) (a : PReg)
deriving DecidableEq, Repr

/-- An operand spec of formats V and T (R44). -/
inductive Spec where
  | tile   (t : TReg)
  | ring   (need : BitVec 7) (q : QReg)
  | scalar (g : Reg)
  | none
deriving DecidableEq, Repr

/-- The operands and mode bits of a format V word other than SEL (R132). -/
structure VOps where
  dst   : Spec
  a     : Spec
  b     : Spec
  c     : Spec
  shape : HReg
  rtz   : Bool := false
  ftz   : Bool := false
  sat   : Bool := false
  hi    : Bool := false
  advd  : Bool := false
  adva  : Bool := false
  advb  : Bool := false
  advc  : Bool := false
deriving DecidableEq, Repr

/-- The operands of a format T word and its ADV bits (R155). -/
structure TOps where
  dst  : Spec
  a    : Spec
  b    : Spec
  c    : Spec
  advd : Bool := false
  adva : Bool := false
  advb : Bool := false
  advc : Bool := false
deriving DecidableEq, Repr

/-- A plane operand: planes minus one and signedness (R46). -/
structure Plane where
  p1     : BitVec 3
  signed : Bool
deriving DecidableEq, Repr

/-- The formats of tread to packed floats (R61). -/
inductive ReadFmt where
  | f32 | bf16 | f16
deriving DecidableEq, Repr

/-- A format M address: base, scaled index, displacement (R48). -/
structure MAddr where
  base : Reg
  idx  : Reg
  disp : Imm48
deriving DecidableEq, Repr

/-- Directions of cp and cpx (R214). -/
inductive CpDir where
  | inn | out | outr
deriving DecidableEq, Repr

/-- Neighbour directions of nshed (R239). -/
inductive ShedDir where
  | pcol | mcol | prow | mrow
deriving DecidableEq, Repr

/-- The figures of nstat (R243). -/
inductive NstatKind where
  | bag | pool (n : BitVec 3) | spill | shed
deriving DecidableEq, Repr

/-- The forms of evput (R264). -/
inductive EvputForm where
  | both   (c d : TReg)
  | nocont (d : TReg)
  | nodest (c : TReg)
  | cp
  | clear
deriving DecidableEq, Repr

/-- What tstat copies (R209). -/
inductive TstatForm where
  | tile (t : TReg)
  | ring (q : QReg)
deriving DecidableEq, Repr

/-- The source of csrw, csrs and csrc (R340). -/
inductive CsrSrc where
  | reg (a : Reg)
  | imm (i : Imm48)
deriving DecidableEq, Repr

/-- Modes of tlbi (R339). -/
inductive TlbiMode where
  | page | ctx | all
deriving DecidableEq, Repr

/-- PLACE of sstart (R330). -/
inductive Place where
  | here  (ctx : BitVec 16)
  | named (pkg : BitVec 12) (col : BitVec 9) (row : BitVec 8)
  | crew | reach | pkg
deriving DecidableEq, Repr

/-- What sstart starts: an entry PC with a role and a deadline, or an image (R330). -/
inductive StartWhat where
  | entry (role : BitVec 2) (deadline : BitVec 12)
  | image
deriving DecidableEq, Repr

/-- The command of tmx (R174). -/
inductive TmxCmd where
  | zero (dt : TReg) (e : BitVec 11)
  | mma  (dt at_ bt : TReg) (pa pb : Plane) (ha hb : Bool)
  | acc  (dt at_ : TReg)
deriving DecidableEq, Repr

/-! ## Messages carried by hardware steps -/

/-- The identity of an event: context, scope, unit of that scope, name (R248). -/
structure EvId where
  ctx   : Nat
  scope : Scope
  unit  : Nat
  name  : BitVec 32
deriving DecidableEq, Repr

/-- Classes of hardware participants, in claim order (R258, R342). -/
inductive HwClass where
  | copy | timer | net | course | port
deriving DecidableEq, Repr

/-- An offer record: a strand's, or a hardware participant's at a core's interface (R254, R272). -/
inductive RecRef where
  | strand (t : StrandId)
  | hw     (core : CoreId) (cls : HwClass) (n : Nat)
deriving DecidableEq, Repr

/-- What an offer contributes: nothing, the bytes at a tile's BASE, or bytes a hardware participant holds (R265, R272). -/
inductive Contrib where
  | none
  | tile  (core : CoreId) (base : Nat)
  | bytes (bs : List Byte)
deriving DecidableEq, Repr

/-- An offer on its way to the home (R255). -/
structure OfferMsg where
  home    : Nat
  ev      : EvId
  who     : RecRef
  slot    : Nat
  rank    : Nat
  kind    : EvKind
  sole    : Bool
  contrib : Contrib
  dest    : Option (CoreId × Nat)
  poll    : Bool
  serial  : Nat := 0
deriving DecidableEq, Repr

/-- The refusal of an offer: its fault detail, the offer's serial number, and the home that refuses (R256). -/
structure RefusalMsg where
  detail : Nat
  serial : Nat
  home   : Nat
deriving DecidableEq, Repr

/-- A claim and what answers or follows it (R258). -/
structure ClaimMsg where
  home    : Nat
  ev      : EvId
  who     : RecRef
  defer   : Nat
  attempt : Nat
deriving DecidableEq, Repr

/-- A dissemination notice's round and its sender (R271, R283). -/
structure RoundMsg where
  n   : Nat
  src : StrandId
deriving DecidableEq, Repr

/-- Replies to a claim (R259). -/
inductive ClaimAnswer where
  | granted | busy | gone
deriving DecidableEq, Repr

/-- A completion notice (R194): park slot, detail (0 for success), value, PC of the parked instruction. -/
structure Notice where
  park   : Nat
  detail : Nat
  value  : Word
  fpc    : Word
deriving DecidableEq, Repr

/-- Where a memory request goes: a slice, or package memory with its key slot (R188, R203). -/
inductive MemTgt where
  | slice (core : CoreId) (off : Nat)
  | mem   (pkg pa key : Nat)
deriving DecidableEq, Repr

/-- What a memory request does (R289). -/
inductive ReqOp where
  | ld   (n : Nat)
  | st   (bs : List Byte)
  | atom (op : AtomOp) (n : Nat) (v expect : Word) (red : Bool)
deriving DecidableEq, Repr

/-- A memory request packet (R282, R289): sub, len and rsvd are the header fields that R289 checks. -/
structure MemReq where
  src   : CoreId
  slot  : Nat
  rtag  : Nat
  ctx   : Nat
  super : Bool
  tgt   : MemTgt
  op    : ReqOp
  va    : Word
  lexp  : BitVec 32
  fwd   : Bool
  sub   : Nat
  len   : Nat
  rsvd  : Nat
deriving DecidableEq, Repr

/-- REPLY statuses (R290). -/
inductive ReplyStatus where
  | ack | retry | nack | full | stale | reroute | other
deriving DecidableEq, Repr

/-- The home and frame a page moved to (R313). -/
structure Locator where
  home  : Nat
  frame : Nat
deriving DecidableEq, Repr

/-- A reply packet (R290): its sender, the cause of a refusal, an inner detail, data words, a locator; bulk: it carries a gett's data, on class 0
(R284). -/
structure ReplyMsg where
  src    : CoreId := ⟨0, 0, 0⟩
  dst    : CoreId
  rtag   : Nat
  status : ReplyStatus
  cause  : Nat := 0
  inner  : Nat := 0
  data   : List Word := []
  loc    : Option Locator := Option.none
  bulk   : Bool := false
deriving DecidableEq, Repr

/-- What a packet's header holds that its form does not give (R282, R289): a reserved opcode, a subtype that its opcode does not have, a LEN
that does not match, and the reserved bits. -/
structure Odd where
  opc  : Bool := false
  sub  : Bool := false
  len  : Bool := false
  rsvd : Nat := 0
deriving DecidableEq, Repr

/-- Fields every request packet between cores carries (R282): sender, its strand, tag and context, and what is malformed in it. -/
structure Hdr where
  target : CoreId
  src    : CoreId
  slot   : Nat
  rtag   : Nat
  ctx    : Nat
  odd    : Odd := {}
deriving DecidableEq, Repr

/-- An active message on its way (R292, R294); retry: the line and the tick since when RETRY has answered the read of its handler's slot (R188). -/
structure AmMsg where
  hdr   : Hdr
  hword : Word
  args  : List Word
  tag   : Byte
  addr  : Word
  retry : Option (Nat × Nat) := Option.none
deriving DecidableEq, Repr

/-- An append on its way (R301). -/
structure AppendMsg where
  hdr : Hdr
  off : Nat
  row : List Word
deriving DecidableEq, Repr

/-- One block of a csend (R304): area offset, area bytes, block number, mask, selected values. -/
structure CsendMsg where
  hdr   : Hdr
  off   : Nat
  total : Nat
  block : Nat
  mask  : BitVec 32
  vals  : List (BitVec 32)
deriving DecidableEq, Repr

/-- A putt or gett at its peer (R305). get: read the peer's tile; rel: releasing form; fmt, count and bytes of the local tile; landed: the peer
has accepted it and moves its bytes now (R196). -/
structure TileMsg where
  hdr   : Hdr
  get   : Bool
  rel   : Bool
  tile  : Nat
  fmt   : Nat
  count : Nat
  bytes : List Byte
  place : Nat
  landed : Bool
deriving DecidableEq, Repr

/-- Pairs pushed or shed to another core (R235, R243). -/
structure PairMsg where
  hdr   : Hdr
  pairs : List (Word × Word)
deriving DecidableEq, Repr

/-- A remote matrix command (R175). -/
structure TmxMsg where
  hdr : Hdr
  gid : BitVec 32
  cap : Word
  cmd : TmxCmd
deriving DecidableEq, Repr

/-- A course start sent to a peer (R309). -/
structure CourseMsg where
  hdr   : Hdr
  slot  : Nat
  bases : List Word
deriving DecidableEq, Repr

/-- A strand start on its way (R330, R332). image: the 128 words of R329; super0: made by the target's own slot 0 under PLACE 0;
moved: the slot of the strand that a smove moves; unit: the scope within which a descent moves, none once the target is fixed; last: the deadline
and the live mask of the most recent yield point of a strand that a smove moves (R104). -/
structure StartMsg where
  hdr      : Hdr
  unit     : Option Scope
  super0   : Bool
  moved    : Option Nat
  pc       : Word
  role     : Nat
  deadline : Nat
  image    : Option (List Word)
  last     : Option (BitVec 12 × BitVec 8) := Option.none
deriving DecidableEq, Repr

/-- A system-call request (R341): the eight words. -/
structure SyscallMsg where
  hdr   : Hdr
  die   : Nat
  words : List Word
deriving DecidableEq, Repr

/-- A system-call reply on its way to the strand's core (R342); src: the port, or the core that relays it. -/
structure SysReplyMsg where
  core   : CoreId
  gid    : BitVec 32
  handle : Word
  die    : Nat
  data   : List Byte
  src    : CoreId
deriving DecidableEq, Repr

/-- A control core's access (R375): a load or a store of 8 bytes at a physical address. -/
inductive CtlAccess where
  | load  (pa : Nat)
  | store (pa : Nat) (v : Word)
deriving DecidableEq, Repr

/-! ## Instructions and hardware steps -/

/-- Every row of spec/opcode_table.json. -/
inductive Instr where
  -- scalar and control (R59)
  | nop   (g : Guard)
  | add   (g : Guard) (d a b : Reg)
  | sub   (g : Guard) (d a b : Reg)
  | mul   (g : Guard) (d a b : Reg)
  | mulh  (g : Guard) (k : MulhKind) (d a b : Reg)
  | div   (g : Guard) (n : Bool) (d a b : Reg)
  | rem   (g : Guard) (n : Bool) (d a b : Reg)
  | and   (g : Guard) (d a b : Reg)
  | or    (g : Guard) (d a b : Reg)
  | xor   (g : Guard) (d a b : Reg)
  | andn  (g : Guard) (d a b : Reg)
  | shl   (g : Guard) (d a b : Reg)
  | shr   (g : Guard) (d a b : Reg)
  | sar   (g : Guard) (d a b : Reg)
  | rot   (g : Guard) (d a b : Reg)
  | clz   (g : Guard) (d a : Reg)
  | popc  (g : Guard) (d a : Reg)
  | min   (g : Guard) (n : Bool) (d a b : Reg)
  | max   (g : Guard) (n : Bool) (d a b : Reg)
  | sel   (g : Guard) (d a b : Reg) (p : PReg)
  | cmp   (g : Guard) (cc : Cond) (d : PReg) (a b : Reg)
  | cmpk  (g : Guard) (cc : Cond) (d : PReg) (a : Reg) (i : Imm48)
  | addk  (g : Guard) (d a : Reg) (i : Imm48)
  | movk  (g : Guard) (d : Reg) (i : Imm48)
  | movh  (g : Guard) (d a : Reg) (i : BitVec 16)
  | ext   (g : Guard) (sx : Bool) (d a : Reg) (lo w1 : BitVec 6)
  | ins   (g : Guard) (d a : Reg) (lo w1 : BitVec 6)
  | lea   (g : Guard) (d : Reg) (m : MAddr) (sz : Sz)
  | coord (g : Guard) (rel : Bool) (d a b : Reg)
  | decoord (g : Guard) (f : CoordField) (d a : Reg)
  | pand  (g : Guard) (d a b : PReg)
  | por   (g : Guard) (d a b : PReg)
  | pxor  (g : Guard) (d a b : PReg)
  | pnot  (g : Guard) (d a : PReg)
  | pmov  (g : Guard) (f : PmovForm)
  | br    (g : Guard) (off : Imm48)
  | call  (g : Guard) (l : Reg) (off : Imm48)
  | ret   (g : Guard) (a : Reg)
  | jr    (g : Guard) (a : Reg)
  | loop  (g : Guard) (a : Reg) (off : Imm48)
  | yield (g : Guard) (deadline : BitVec 12) (live : BitVec 8)
  | fadd  (g : Guard) (t : FFmt) (rtz : Bool) (d a b : Reg)
  | fsub  (g : Guard) (t : FFmt) (rtz : Bool) (d a b : Reg)
  | fmul  (g : Guard) (t : FFmt) (rtz : Bool) (d a b : Reg)
  | ffma  (g : Guard) (t : FFmt) (rtz : Bool) (d a b c : Reg)
  | fcmp  (g : Guard) (cc : FCond) (t : FFmt) (d : PReg) (a b : Reg)
  | fcvt  (g : Guard) (cv : FConv) (rtz : Bool) (d a : Reg)
  -- vector and special function (R60)
  | vseqOpen (g : Guard)
  | vseqLoop (g : Guard) (a : Reg)
  | vseqStop (g : Guard)
  | vadd  (g : Guard) (t : VTy) (o : VOps)
  | vsub  (g : Guard) (t : VTy) (o : VOps)
  | vmul  (g : Guard) (t : VTy) (o : VOps)
  | vfma  (g : Guard) (t : VTy) (o : VOps)
  | vmax  (g : Guard) (t : VTy) (o : VOps)
  | vmin  (g : Guard) (t : VTy) (o : VOps)
  | vabs  (g : Guard) (t : VTy) (o : VOps)
  | vneg  (g : Guard) (t : VTy) (o : VOps)
  | vcvt  (g : Guard) (t src : VTy) (o : VOps)
  | vred  (g : Guard) (op : VRedOp) (t : VTy) (o : VOps)
  | vscan (g : Guard) (op : VRedOp) (t : VTy) (o : VOps)
  | vclmul (g : Guard) (t : VTy) (o : VOps)
  | vcmp  (g : Guard) (cc : VCond) (t : VTy) (o : VOps)
  | vsel  (g : Guard) (t : VTy) (o : VOps)
  | vpopc (g : Guard) (t : VTy) (o : VOps)
  | vbcast (g : Guard) (t : VTy) (o : VOps)
  | viota (g : Guard) (t : VTy) (o : VOps)
  | vperm (g : Guard) (t : VTy) (o : VOps)
  | vzip  (g : Guard) (k : BitVec 4) (t : VTy) (o : VOps)
  | vunzip (g : Guard) (k : BitVec 4) (t : VTy) (o : VOps)
  | vsfu  (g : Guard) (f : SFn) (t : VTy) (o : VOps)
  | vcompact (g : Guard) (t : VTy) (o : VOps)
  | vexpand (g : Guard) (t : VTy) (o : VOps)
  | vdot  (g : Guard) (t : VTy) (o : VOps)
  | vamax (g : Guard) (t : VTy) (o : VOps)
  | vectorInstructionStart (c : CoreId)
  | replayStart (c : CoreId)
  | vectorCompletion (c : CoreId)
  -- tensor (R61)
  | tzero (g : Guard) (e : BitVec 11) (o : TOps)
  | tmma  (g : Guard) (pa pb : Plane) (ha hb : Bool) (o : TOps)
  | tacc  (g : Guard) (o : TOps)
  | tread (g : Guard) (f : ReadFmt) (o : TOps)
  | treadBlk (g : Guard) (pl : Plane) (o : TOps)
  | tquant (g : Guard) (f : FFmt) (pl : Plane) (kd : Bool) (o : TOps)
  | tdequant (g : Guard) (f : FFmt) (pl : Plane) (kd : Bool) (o : TOps)
  | tplane (g : Guard) (pl : Plane) (kd sat : Bool) (o : TOps)
  | tunplane (g : Guard) (pl : Plane) (kd sat : Bool) (o : TOps)
  | tcbdec (g : Guard) (pl : Plane) (kd : Bool) (o : TOps)
  | thad  (g : Guard) (inv kd : Bool) (o : TOps)
  | ttopk (g : Guard) (val : Bool) (km1 : BitVec 7) (o : TOps)
  | tcap  (g : Guard) (d : Reg) (first last : TReg) (rights : BitVec 3) (life : Imm48)
  | tmx   (g : Guard) (a cap : Reg) (cmd : TmxCmd)
  | matrixCommandStart (c : CoreId)
  | matrixCommandCompletion (c : CoreId)
  | tmxArrival (m : TmxMsg)
  | remoteCommandEntry (c : CoreId)
  -- memory and tile (R62)
  | ld    (g : Guard) (sx : Bool) (sz : Sz) (d : Reg) (m : MAddr)
  | st    (g : Guard) (sz : Sz) (v : Reg) (m : MAddr)
  | lds   (g : Guard) (sx : Bool) (sz : Sz) (sc : Scope) (acq : Bool) (d : Reg) (m : MAddr)
  | sts   (g : Guard) (sz : Sz) (sc : Scope) (rel : Bool) (v : Reg) (m : MAddr)
  | tdef  (g : Guard) (t : TReg) (a : Reg) (i : Imm48)
  | tfree (g : Guard) (t : TReg)
  | tstat (g : Guard) (d : Reg) (f : TstatForm)
  | tsetEmpty (g : Guard) (t : TReg)
  | tsetReady (g : Guard) (t : TReg)
  | rdef  (g : Guard) (q : QReg) (first : TReg) (size : BitVec 7)
  | qadvHead (g : Guard) (q : QReg) (k : Imm48)
  | qadvTail (g : Guard) (q : QReg) (k : Imm48)
  | cp    (g : Guard) (dir : CpDir) (sc : Scope) (t : TReg) (m : MAddr)
  | cpx   (g : Guard) (dir : CpDir) (sc : Scope) (t : TReg) (m : MAddr)
  | copyCommandStart (c : CoreId)
  | copyCommandCompletion (c : CoreId) (place : Nat)
  | atom  (g : Guard) (op : AtomOp) (sz : Sz) (sc : Scope) (ord : BitVec 2) (c : Bool) (d : Reg) (m : MAddr)
  | red   (g : Guard) (op : AtomOp) (sz : Sz) (sc : Scope) (rel c : Bool) (v : Reg) (m : MAddr)
  | fence (g : Guard) (sc : Scope) (mask : BitVec 5)
  | pref  (g : Guard) (sz : BitVec 3) (sc : Scope) (m : MAddr)
  | iflush (g : Guard) (l b : Reg) (disp : Imm48)
  | tlbprobe (g : Guard) (sz : BitVec 3) (d : Reg) (m : MAddr)
  | instructionLineFill (t : StrandId) (pc : Word)
  -- nets (R63)
  | rtab  (g : Guard) (a : Reg) (l : BitVec 5)
  | nalloc (g : Guard) (d a : Reg) (n : BitVec 3)
  | nfree (g : Guard) (a : Reg) (n : BitVec 3)
  | nget  (g : Guard) (d a : Reg) (i : BitVec 2)
  | nset  (g : Guard) (a : Reg) (i : BitVec 2) (b : Reg)
  | nlink (g : Guard) (a b : Reg)
  | nlinkJoin (g : Guard) (a b : Reg)
  | npush (g : Guard) (a b : Reg)
  | nnext (g : Guard)
  | bagPop (c : CoreId)
  | nshed (g : Guard) (d a : Reg) (dir : ShedDir)
  | npool (g : Guard) (keep : Bool) (n : BitVec 3) (a : Reg) (slots : Imm48)
  | nstat (g : Guard) (k : NstatKind) (d : Reg)
  | pairPush (m : PairMsg)
  | pairShed (m : PairMsg)
  -- events (R63)
  | evnew (g : Guard) (k : EvKind) (sc : Scope) (sole : Bool) (e : EReg) (n p x : Reg)
  | evdel (g : Guard) (e : EReg)
  | evput (g : Guard) (e : EReg) (f : EvputForm)
  | evbind (g : Guard) (e : EReg) (b l : Reg)
  | evunbind (g : Guard) (e : EReg) (b : Reg)
  | offer (g : Guard) (s0 s1 s2 s3 : Option EReg) (t d : Reg)
  | offerResult (r : RecRef)
  | evres (g : Guard) (e : EReg) (h r : Reg)
  | evresGet (g : Guard) (d : Reg) (e : EReg)
  | evcancel (g : Guard) (e : EReg)
  | evstat (g : Guard) (cfg : Bool) (d : Reg) (e : EReg)
  | evtimer (g : Guard) (abs per : Bool) (e : EReg) (n t : Reg)
  | offerArrival (m : OfferMsg)
  | settleWindowEnd (home : Nat) (ev : EvId) (window : Nat)
  | claim (m : ClaimMsg)
  | claimReply (m : ClaimMsg) (a : ClaimAnswer)
  | yieldMessage (home : Nat) (ev : EvId) (r : RecRef)
  | release (m : ClaimMsg) (onYield : Bool)
  | resolutionNotice (home : Nat) (ev : EvId) (r : RecRef)
  | eventCommit (home : Nat) (ev : EvId)
  | consistencyPhase2 (home : Nat) (ev : EvId)
  | withdrawal (home : Nat) (ev : EvId) (rank : Nat) (r : RecRef) (commit : Bool)
  | offerRefusal (r : RecRef) (ev : EvId) (m : RefusalMsg)
  | reservationLapse (r : RecRef) (ev : EvId) (tick : Nat)
  | offerDeadline (r : RecRef) (deadline : Nat)
  | completionNotice (t : StrandId) (n : Notice)
  | occurrenceData (home : Nat) (ev : EvId)
  | reduceNode (home : Nat) (ev : EvId) (rank : Nat)
  | disseminationNotice (t : StrandId) (ev : EvId) (round : RoundMsg) (par : Bool)
  | timerExpiry (crew : Nat) (ev : EvId)
  -- fabric (R63)
  | amsend (g : Guard) (a h v : Reg) (tag : Byte)
  | ambind (g : Guard) (ring : Bool) (a : Reg) (slot : BitVec 11)
  | amnext (g : Guard)
  | amArrival (m : AmMsg)
  | amDispatch (c : CoreId)
  | funbound (pkg : Nat) (m : AmMsg)
  | append (g : Guard) (d r : Reg) (n1 : BitVec 3) (rel : Bool) (b : Reg) (disp : Imm48)
  | appendArrival (m : AppendMsg)
  | csend (g : Guard) (k1 : BitVec 4) (o : VOps)
  | csendArrival (m : CsendMsg)
  | putt  (g : Guard) (rel : Bool) (t : TReg) (b : Reg) (peer : TReg)
  | gett  (g : Guard) (rel : Bool) (t : TReg) (b : Reg) (peer : TReg)
  | tileTransferArrival (m : TileMsg)
  | crsload (g : Guard) (c : Bool) (a : Reg) (count : Imm48)
  | crsgo (g : Guard) (c : Bool) (a : Reg)
  | crsstat (g : Guard) (c : Bool) (d : Reg)
  | courseOpStart (c : CoreId) (slot op : Nat)
  | courseOpCompletion (c : CoreId) (slot op : Nat)
  | courseStart (m : CourseMsg)
  | ldPacket (m : MemReq)
  | stPacket (m : MemReq)
  | atomPacket (m : MemReq)
  | reply (m : ReplyMsg)
  | retryResend (c : CoreId) (rtag : Nat)
  | ftime (c : CoreId) (rtag : Nat)
  | redirect (m : ReplyMsg)
  | flitRoute (pkg col row : Nat)
  | swenerFlitReceive (pkg port : Nat) (crcOk authOk : Bool)
  | portFailover (pkg port : Nat)
  | linkTraining (pkg port lanes : Nat)
  | trainingSummary (pkg port : Nat) (agree : Bool)
  -- system (R64)
  | migrate (g : Guard) (big : Bool) (d v n c : Reg)
  | migrationLineCopy (pkg frame : Nat)
  | wakerel (g : Guard) (d l : Reg)
  | wakeReleaseRequest (pkg frame : Nat)
  | wakeReleaseQuery (pkg frame oldPkg oldFrame : Nat)
  | wakeReleaseAnswer (pkg frame : Nat)
  | trap  (g : Guard) (u : Bool) (code : BitVec 16)
  | syscall (g : Guard) (d a : Reg) (num : BitVec 16) (e : EReg)
  | eret  (g : Guard) (slot : BitVec 3) (resume reflect : Bool)
  | upret (g : Guard)
  | csrr  (g : Guard) (d : Reg) (ctl : BitVec 16)
  | csrw  (g : Guard) (d : Reg) (ctl : BitVec 16) (v : CsrSrc)
  | csrs  (g : Guard) (d : Reg) (ctl : BitVec 16) (v : CsrSrc)
  | csrc  (g : Guard) (d : Reg) (ctl : BitVec 16) (v : CsrSrc)
  | crewleadWrite (crew : Nat) (v : BitVec 4)
  | tlbi  (g : Guard) (mode : TlbiMode) (wide : Bool) (a b : Reg)
  | replay (g : Guard) (d : Reg)
  | smove (g : Guard) (d a : Reg) (slot : BitVec 3) (image : Bool)
  | smoveHold (g : Guard) (d : Reg) (slot : BitVec 3)
  | smoveRelease (g : Guard) (d : Reg) (slot : BitVec 3)
  | sstart (g : Guard) (d a : Reg) (place : Place) (what : StartWhat)
  | placementDescent (at_ : CoreId) (m : StartMsg) (moves : Nat)
  | strandStartArrival (m : StartMsg)
  | sexit (g : Guard) (other : Option (BitVec 3))
  | halt  (g : Guard)
  | keyset (g : Guard) (d s m : Reg)
  | keyerase (g : Guard) (d s : Reg)
  | wdog  (g : Guard) (d : Reg) (resident handler : BitVec 12)
  | hostirq (g : Guard) (hart file : BitVec 3) (id : BitVec 11)
  | evkill (g : Guard) (d c : Reg) (sc : Scope)
  | trapDelivery (c : CoreId)
  | forwardingExpiry (c : CoreId) (gid : BitVec 32)
  | loadExchange (c : CoreId)
  | syscallRequest (m : SyscallMsg)
  | rsptail (pkg die : Nat) (tail : BitVec 32)
  | syscallReplyArrival (m : SysReplyMsg)
  | msg   (c : CoreId) (ws : List Word)
  | bringUpPhase (pkg : Nat)
  | timeLoad (pkg : Nat) (src : Option Nat) (roundTrip : Nat)
  | bootConfigurationWrite (pkg off : Nat) (v : Word)
  | frameMapWrite (pkg n : Nat) (second : Bool) (v : Word)
  | attestationRequest (pkg : Nat) (nonce : List Byte)
  | timeBeaconSend (pkg : Nat)
  | timeBeacon (pkg src : Nat) (time : Word)
  | strokeSend (pkg : Nat)
  | strokeWindow (pkg dir : Nat)
  | resetRequest (pkg src : Nat) (valid : Bool)
  | governorInterval (pkg : Nat)
  | illegalInstruction (detail arg : Nat)
  -- steps that only the world outside begins (R287, R346, R349 to R352, R370 to R377)
  | stop  (c : CoreId)
  | wake  (c : CoreId)
  | battenRead (c : CoreId) (region : Nat) (off : Nat)
  | battenWrite (c : CoreId) (region : Nat) (off : Nat) (v : Word)
  | reset (c : CoreId)
  | retire (c : CoreId)
  | sramSoftError (c : CoreId) (correctable : Bool)
  | tamper (pkg : Nat)
  | coldReset (pkg : Nat)
  | lock  (pkg : Nat)
  | measurementExtend (pkg i : Nat) (digest : BitVec 384)
  | pcieInboundRequest (pkg die : Nat) (addr : Word) (wr : Option (List Byte))
  | portReset (pkg port : Nat)
  | controlCoreAccess (pkg hart : Nat) (acc : CtlAccess)
deriving DecidableEq, Repr

end Sys2Proof
end

