-- ==== Sys2Proof/Machine/Flags.lean ====
section
/-! DEFINITION. Numbers: float formats, rounding and the STICKY flags they raise (R78 to R85), integer wrapping and
clamping (R86), mix64 (R95), the trees of R98 and R101, and the operations of atom and red (R68, R202). -/

namespace Sys2Proof

/-! ## STICKY bits (R56) -/

/-- NX. -/
def flNX : Nat := 0x1
/-- UF. -/
def flUF : Nat := 0x2
/-- OF. -/
def flOF : Nat := 0x4
/-- DZ. -/
def flDZ : Nat := 0x8
/-- NV. -/
def flNV : Nat := 0x10
/-- SAT. -/
def flSAT : Nat := 0x100
/-- QUNDER. -/
def flQUNDER : Nat := 0x200
/-- QNONFIN. -/
def flQNONFIN : Nat := 0x400
/-- VSAT. -/
def flVSAT : Nat := 0x800

/-! ## Float formats (R78) -/

/-- Exponent bits. -/
def FFmt.ebits : FFmt → Nat
  | .f32 => 8 | .f16 => 5 | .bf16 => 8 | .f8a => 4 | .f8b => 5 | .f4 => 2
/-- Fraction bits. -/
def FFmt.mbits : FFmt → Nat
  | .f32 => 23 | .f16 => 10 | .bf16 => 7 | .f8a => 3 | .f8b => 2 | .f4 => 1
/-- Bias. -/
def FFmt.bias : FFmt → Nat
  | .f32 => 127 | .f16 => 15 | .bf16 => 127 | .f8a => 7 | .f8b => 15 | .f4 => 1
/-- Width in bits. -/
def FFmt.width : FFmt → Nat
  | .f32 => 32 | .f16 => 16 | .bf16 => 16 | .f8a => 8 | .f8b => 8 | .f4 => 4
/-- The format has infinities. -/
def FFmt.hasInf : FFmt → Bool
  | .f8a | .f4 => false
  | _ => true
/-- The canonical quiet NaN (R79); f4 has none, and R83 gives +0. -/
def FFmt.canon : FFmt → Nat
  | .f32 => 0x7FC00000 | .f16 => 0x7E00 | .bf16 => 0x7FC0 | .f8a => 0x7F | .f8b => 0x7E | .f4 => 0
/-- The largest finite value as bits without sign. -/
def FFmt.maxBits : FFmt → Nat
  | .f32 => 0x7F7FFFFF | .f16 => 0x7BFF | .bf16 => 0x7F7F | .f8a => 0x7E | .f8b => 0x7B | .f4 => 7
/-- Infinity as bits without sign. -/
def FFmt.infBits (f : FFmt) : Nat := (2 ^ f.ebits - 1) * 2 ^ f.mbits

/-- The value of a float's bits: NaN (signalling or not), infinity, or (−1)^neg · m · 2^e. -/
inductive FV where
  | nan (sig : Bool)
  | inf (neg : Bool)
  | fin (neg : Bool) (m : Nat) (e : Int)
deriving DecidableEq, Repr

/-- The value of the low bits of x in format f (R78, R79). -/
def FFmt.value (f : FFmt) (x : Nat) : FV :=
  let neg := x / 2 ^ (f.width - 1) % 2 = 1
  let ex := x / 2 ^ f.mbits % 2 ^ f.ebits
  let fr := x % 2 ^ f.mbits
  if f.hasInf ∧ ex = 2 ^ f.ebits - 1 then
    if fr = 0 then .inf neg else .nan (fr < 2 ^ (f.mbits - 1))
  else if f = .f8a ∧ ex = 15 ∧ fr = 7 then .nan false
  else if ex = 0 then .fin neg fr (1 - (f.bias : Int) - f.mbits)
  else .fin neg (fr + 2 ^ f.mbits) ((ex : Int) - f.bias - f.mbits)

/-- A subnormal bit pattern. -/
def FFmt.isSub (f : FFmt) (x : Nat) : Bool := x / 2 ^ f.mbits % 2 ^ f.ebits == 0 && x % 2 ^ f.mbits != 0

/-- The value read under flush-to-zero: a subnormal input is a zero of its sign (R81). -/
def FFmt.input (f : FFmt) (ftz : Bool) (x : Nat) : FV :=
  if ftz && f.isSub x then .fin (x / 2 ^ (f.width - 1) % 2 == 1) 0 0 else f.value x

/-- The sign bit. -/
def FFmt.signed (f : FFmt) (neg : Bool) (x : Nat) : Nat := if neg then x + 2 ^ (f.width - 1) else x

/-- m · 2^k, or m div 2^(−k) and whether that lost bits, as (quotient, twice the remainder compared with the divisor,
inexact): the comparison is 0 below half, 1 half, 2 above half. -/
def scaleDown (m : Nat) (k : Int) : Nat × Nat × Bool :=
  if 0 ≤ k then (m * 2 ^ k.toNat, 0, false)
  else
    let d := 2 ^ (-k).toNat
    let r := m % d
    (m / d, if 2 * r < d then 0 else if 2 * r = d then 1 else 2, r ≠ 0)

/-- Rounding of m · 2^k to an integer: to nearest even, or toward zero (R80). -/
def roundNat (rtz : Bool) (m : Nat) (k : Int) : Nat × Bool :=
  let (q, h, ix) := scaleDown m k
  (if rtz then q else if h = 2 ∨ (h = 1 ∧ q % 2 = 1) then q + 1 else q, ix)

/-- a · 2^i > b · 2^j. -/
def scaledGt (a : Nat) (i : Int) (b : Nat) (j : Int) : Bool :=
  if j ≤ i then decide (a * 2 ^ (i - j).toNat > b) else decide (a > b * 2 ^ (j - i).toNat)

/-- The largest finite value as m, e. -/
def FFmt.maxFin (f : FFmt) : Nat × Int :=
  match f.value f.maxBits with
  | .fin _ m e => (m, e)
  | _ => (0, 0)

/-- Rounding of the exact (−1)^neg · m · 2^e to format f, with its flags (R80 to R83). -/
def FFmt.round (f : FFmt) (rtz ftz neg : Bool) (m : Nat) (e : Int) : Nat × Nat :=
  if m = 0 then (f.signed neg 0, 0)
  else
    let top : Int := (Nat.log2 m : Int) + e
    let emin : Int := 1 - f.bias
    let qn : Int := top - f.mbits
    let q : Int := if qn < emin - f.mbits then emin - f.mbits else qn
    let (mant, ix) := roundNat rtz m (e - q)
    let (mx, ex) := f.maxFin
    if scaledGt mant q mx ex then
      let big := if rtz || !f.hasInf then f.maxBits else f.infBits
      (f.signed neg big, flOF + flNX)
    else
      let tiny : Bool :=
        if emin ≤ top then false
        else let (mu, _) := roundNat rtz m (e - qn); !(scaledGt mu qn (2 ^ f.mbits) (emin - f.mbits)) && !(decide (mu = 2 ^ (f.mbits + 1) ∧ qn + 1 = emin - f.mbits))
      if mant < 2 ^ f.mbits then
        if ftz ∧ mant ≠ 0 then (f.signed neg 0, flUF + flNX)
        else (f.signed neg mant, (if ix then flNX else 0) + (if ix && tiny then flUF else 0))
      else
        let (mant', q') : Nat × Int := if mant = 2 ^ (f.mbits + 1) then (2 ^ f.mbits, q + 1) else (mant, q)
        let expf := (q' + f.mbits + f.bias).toNat
        (f.signed neg (expf * 2 ^ f.mbits + (mant' - 2 ^ f.mbits)), (if ix then flNX else 0) + (if ix && tiny then flUF else 0))

/-- The result of an invalid operation or of a NaN operand. -/
def FFmt.nanOut (f : FFmt) (nv : Bool) : Nat × Nat := (f.canon, if nv then flNV else 0)

/-- A value converted to format f, exact or rounded (R83). -/
def FFmt.ofValue (f : FFmt) (rtz ftz : Bool) : FV → Nat × Nat
  | .nan s => match f with
    | .f4 => (0, flNV)
    | _ => f.nanOut s
  | .inf neg => match f with
    | .f8a => (0x7F, flNV)
    | .f4 => (f.signed neg 7, flNV)
    | _ => (f.signed neg f.infBits, 0)
  | .fin neg m e => f.round rtz ftz neg m e

/-- A signalling NaN. -/
def FV.isSig : FV → Bool
  | .nan s => s
  | _ => false
/-- A NaN. -/
def FV.isNan : FV → Bool
  | .nan _ => true
  | _ => false

/-- The sign of a value. -/
def FV.neg : FV → Bool
  | .nan _ => false
  | .inf n => n
  | .fin n _ _ => n

/-- The value with its sign inverted. -/
def FV.negate : FV → FV
  | .nan s => .nan s
  | .inf n => .inf (!n)
  | .fin n m e => .fin (!n) m e

/-- m with its sign, scaled by 2^k. -/
def signedScale (neg : Bool) (m : Nat) (k : Nat) : Int := if neg then -((m * 2 ^ k : Nat) : Int) else ((m * 2 ^ k : Nat) : Int)

/-- The exact sum of two finite values as an integer times 2^e. -/
def finSum (n1 : Bool) (m1 : Nat) (e1 : Int) (n2 : Bool) (m2 : Nat) (e2 : Int) : Int × Int :=
  let e := if e1 ≤ e2 then e1 else e2
  (signedScale n1 m1 (e1 - e).toNat + signedScale n2 m2 (e2 - e).toNat, e)

/-- a + b rounded (R80, R82, R119). -/
def FFmt.addV (f : FFmt) (rtz ftz : Bool) (a b : FV) : Nat × Nat :=
  match a, b with
  | .nan s, y => f.nanOut (s || y.isSig)
  | x, .nan s => f.nanOut (x.isSig || s)
  | .inf n, .inf n' => if n = n' then (f.signed n f.infBits, 0) else f.nanOut true
  | .inf n, .fin _ _ _ => (f.signed n f.infBits, 0)
  | .fin _ _ _, .inf n => (f.signed n f.infBits, 0)
  | .fin n1 m1 e1, .fin n2 m2 e2 =>
    let (s, e) := finSum n1 m1 e1 n2 m2 e2
    if s = 0 then (f.signed (n1 && n2) 0, 0) else f.round rtz ftz (decide (s < 0)) s.natAbs e

/-- The exact product of two values: none for 0 × ∞. -/
def mulV : FV → FV → Option FV
  | .nan s, y => some (.nan (s || y.isSig))
  | x, .nan s => some (.nan (x.isSig || s))
  | .inf n, .inf n' => some (.inf (n != n'))
  | .inf n, .fin n' m _ => if m = 0 then none else some (.inf (n != n'))
  | .fin n m _, .inf n' => if m = 0 then none else some (.inf (n != n'))
  | .fin n1 m1 e1, .fin n2 m2 e2 => some (.fin (n1 != n2) (m1 * m2) (e1 + e2))

/-- a · b rounded. -/
def FFmt.mulR (f : FFmt) (rtz ftz : Bool) (a b : FV) : Nat × Nat :=
  match mulV a b with
  | none => f.nanOut true
  | some (.nan s) => f.nanOut s
  | some (.inf n) => (f.signed n f.infBits, 0)
  | some (.fin n m e) => f.round rtz ftz n m e

/-- a · b + c with one rounding; 0 × ∞ is invalid whatever c holds (R82). -/
def FFmt.fmaR (f : FFmt) (rtz ftz : Bool) (a b c : FV) : Nat × Nat :=
  match mulV a b with
  | none => f.nanOut true
  | some p => f.addV rtz ftz p c

/-- a < b for values that are no NaN. -/
def FV.lt : FV → FV → Bool
  | .nan _, _ => false
  | _, .nan _ => false
  | .inf n, .inf n' => n && !n'
  | .inf n, .fin _ _ _ => n
  | .fin _ _ _, .inf n => !n
  | .fin n1 m1 e1, .fin n2 m2 e2 => decide ((finSum n1 m1 e1 (!n2) m2 e2).1 < 0)
/-- a = b for values that are no NaN. -/
def FV.eq : FV → FV → Bool
  | .nan _, _ => false
  | _, .nan _ => false
  | .inf n, .inf n' => n == n'
  | .inf _, .fin _ _ _ => false
  | .fin _ _ _, .inf _ => false
  | .fin n1 m1 e1, .fin n2 m2 e2 => decide ((finSum n1 m1 e1 (!n2) m2 e2).1 = 0)
/-- Zero of either sign. -/
def FV.isZero : FV → Bool
  | .fin _ m _ => m == 0
  | _ => false

/-- Maximum or minimum of R85: the operand chosen and the flags. -/
def fMaxMin (max : Bool) (a b : FV) : FV × Nat :=
  let nv := if a.isSig || b.isSig then flNV else 0
  if a.isNan then (if b.isNan then .nan false else b, nv)
  else if b.isNan then (a, nv)
  else if a.isZero && b.isZero then
    (if max then (if a.neg then b else a) else (if a.neg then a else b), 0)
  else if max then (if FV.lt a b then b else a, 0) else (if FV.lt b a then b else a, 0)

/-- A finite value's nearest integer by the mode, and whether it was inexact. -/
def finInt (rtz neg : Bool) (m : Nat) (e : Int) : Int × Bool :=
  let (q, ix) := roundNat rtz m e
  (if neg then -(q : Int) else (q : Int), ix)

/-- Float to integer, clamped to lo..hi (R84). -/
def toIntV (rtz : Bool) (lo hi : Int) : FV → Int × Nat
  | .nan _ => (0, flNV)
  | .inf n => (if n then lo else hi, flNV)
  | .fin n m e =>
    let (x, ix) := finInt rtz n m e
    if x < lo then (lo, flNV) else if hi < x then (hi, flNV) else (x, if ix then flNX else 0)

/-- Integer to float (R84). -/
def FFmt.ofInt (f : FFmt) (rtz ftz : Bool) (x : Int) : Nat × Nat := f.round rtz ftz (decide (x < 0)) x.natAbs 0

/-! ## Integers (R8, R86) -/

/-- The least value of a signed or unsigned w-bit type. -/
def intMin (signed : Bool) (w : Nat) : Int := if signed then -(2 ^ (w - 1) : Nat) else 0
/-- The greatest value of a signed or unsigned w-bit type. -/
def intMax (signed : Bool) (w : Nat) : Int := if signed then (2 ^ (w - 1) : Nat) - 1 else (2 ^ w : Nat) - 1
/-- w bits read with a signedness. -/
def intVal (signed : Bool) (w x : Nat) : Int := if signed then sextN x w else (zextN x w : Nat)
/-- An exact result narrowed to w bits: wrapped, or clamped with VSAT (R86). -/
def intOut (sat signed : Bool) (w : Nat) (x : Int) : Nat × Nat :=
  if sat then
    let c := clampI x (intMin signed w) (intMax signed w)
    (wrapN c w, if c = x then 0 else flVSAT)
  else (wrapN x w, 0)

/-- Quotient rounded toward zero and remainder of R109, on integers. -/
def divRem (signed : Bool) (a b : Nat) : Int × Int :=
  let x := intVal signed 64 a
  let y := intVal signed 64 b
  if y = 0 then ((2 ^ 64 : Nat) - 1, x)
  else if signed ∧ x = -(2 ^ 63 : Nat) ∧ y = -1 then (-(2 ^ 63 : Nat), 0)
  else
    let q : Int := ((x.natAbs / y.natAbs : Nat) : Int)
    let q := if x * y < 0 then -q else q
    (q, x - y * q)

/-- Leading zeros of a 64-bit value (R110). -/
def clz64 (x : Nat) : Nat := if x = 0 then 64 else 63 - Nat.log2 x
/-- One bits among the low n bits. -/
def popN : Nat → Nat → Nat
  | 0, _ => 0
  | n + 1, x => x % 2 + popN n (x / 2)

/-- mix64 of R95. -/
def mix64 (x : Word) : Word :=
  let x := x ^^^ (x >>> 29)
  let x := x * 0xC3A56E19B47D2F8B#64
  let x := x ^^^ (x >>> 32)
  let x := x * 0x8F1D6C35E9A247D1#64
  x ^^^ (x >>> 29)

/-! ## Trees (R98) -/

/-- One level of pair_tree. -/
def pairLevel {α : Type} (op : α → α → α) : List α → List α
  | a :: b :: r => op a b :: pairLevel op r
  | l => l

/-- pair_tree over a list; fuel is the number of levels allowed. -/
def pairTree {α : Type} (op : α → α → α) : Nat → List α → Option α
  | _, [] => none
  | _, [a] => some a
  | 0, a :: _ => some a
  | n + 1, l => pairTree op n (pairLevel op l)

/-! ## Atomics (R68, R202) -/

/-- The new value of w = 8n bits. -/
def atomNew (op : AtomOp) (n old v expect : Nat) : Nat :=
  let w := 8 * n
  let o := zextN old w
  let x := zextN v w
  match op with
  | .swap => x
  | .cas => if o = zextN expect w then x else o
  | .add => (o + x) % 2 ^ w
  | .and => o &&& x
  | .or => o ||| x
  | .xor => o ^^^ x
  | .max => if sextN o w < sextN x w then x else o
  | .min => if sextN x w < sextN o w then x else o
  | .maxn => if o < x then x else o
  | .minn => if x < o then x else o
  | .fadd => (FFmt.addV .f32 false false (FFmt.value .f32 o) (FFmt.value .f32 x)).1

/-- The identity of a combining operation (R204). -/
def atomIdentity (op : AtomOp) (n : Nat) : Nat :=
  let w := 8 * n
  match op with
  | .and => 2 ^ w - 1
  | .max => 2 ^ (w - 1)
  | .min => 2 ^ (w - 1) - 1
  | .minn => 2 ^ w - 1
  | _ => 0

end Sys2Proof
end

