-- ==== Sys2Proof/Config.lean ====
section
/-! DEFINITION. What an implementation fixes, and the free values of the model: constants with no body, of
which nothing can be proved (notes/assumptions 1, 2, 8 to 16). -/

namespace Sys2Proof.Config

/-- FREE VALUE: which of several enabled agents moves next, and which of several messages in flight arrives
(R281, R284 fix no order). Applied to the counter State.freeN (log 1). -/
opaque freeChoice : Nat → Nat
/-- FREE VALUE: the ticks by which a package's TIME advances before a step (R195, R281: no exact latency) (log 2). -/
opaque freeTicks : Nat → Nat → BitVec 16
/-- FREE VALUE: the cycles by which a core's CYCLE advances (log 2). -/
opaque freeCycles : Nat → Nat → BitVec 16
/-- FREE VALUE: the victim of a replacement in a cache or a translation buffer (R187, R199) (log 10). -/
opaque freeVictim : Nat → Nat
/-- FREE VALUE: a g register outside the live groups after a move (R106) (log 11). -/
opaque freeReg : Nat → BitVec 64
/-- FREE VALUE: the 64-bit capability key of a core at its n-th draw (R171) (log 8). -/
opaque capKey : Nat → Nat → BitVec 64
/-- FREE VALUE: TAG, the keyed check of a capability: key, context id, minting core, bits [47:0] (R172) (log 8). -/
opaque capTag : BitVec 64 → Nat → Nat → BitVec 48 → BitVec 16
/-- FREE VALUE: which of the f32 values within the bound of R146 vsfu returns: function number and input bits (log 12). -/
opaque vsfuPick : Nat → BitVec 32 → Nat
/-- FREE VALUE: the key that a draw of the keel island gives for slot 0 (R186, R370) (log 8). -/
opaque slot0Key : Nat → BitVec 512
/-- FREE VALUE: a stepping number of the device (R57) (log 9). -/
opaque stepping : BitVec 8
/-- FREE VALUE: whether a physical outcome (a self-test, a signature check, a training) succeeds (R370, R287) (log 13). -/
opaque freeOutcome : Nat → Bool
/-- FREE VALUE: the measurement of a firmware image, by its register 0 to 3 (R373) (log 5). -/
opaque fuseDigest : Nat → BitVec 384
/-- FREE VALUE: a measurement register extended with a digest (R373) (log 5). -/
opaque extend : BitVec 384 → BitVec 384 → BitVec 384
/-- FREE VALUE: the signature of an attestation report (R374) (log 14). -/
opaque attestSig : List (BitVec 8) → List (BitVec 8)
/-- FREE VALUE: the IOMMU's translation of an inbound request, as its tables stand then: the counter State.freeN, the root port, whether the
request writes, and its address to leaf word, or a refusal (R377) (log 15). -/
opaque iommu : Nat → Nat → Bool → BitVec 64 → Option (BitVec 64)
/-- FREE VALUE: the interrupt file, 7 · hart + file, whose seteipnum_le an inbound write's address reaches, if it does (R377) (log 15). -/
opaque inboundMsi : Nat → BitVec 64 → Option Nat
/-- FREE VALUE: what a read of a root port's memory space returns (R375) (log 15). -/
opaque pcieRead : Nat → Nat → BitVec 64
/-- FREE VALUE: the measured package power in watts and junction temperature in degrees (R385) (log 16). -/
opaque power : Nat → Nat
/-- FREE VALUE: the highest junction temperature, in degrees Celsius (R385) (log 16). -/
opaque junction : Nat → Nat
/-- FREE VALUE: a 64-bit value the spec calls unspecified (log 11). -/
opaque freeWord : Nat → BitVec 64

/-- FREE VALUE: the word by which a fatal dump shows an entry of a section whose layout the spec does not give, by the section's number and what the
entry holds (R353) (log 26). -/
opaque dumpEntry : Nat → List Nat → BitVec 64
/-- FREE VALUE: the policy byte of a Swener port, by package and port: bits 0, 2 and 7 to 4 of R374 (R288) (log 25). -/
opaque portPolicy : Nat → Nat → BitVec 8
/-- FREE VALUE: the fabric domain to which boot firmware assigns a package (R15) (log 25). -/
opaque domainNo : Nat → Nat
/-- FREE VALUE: the PC at which the keel island starts the micro-kernel of a core (R370) (log 6). -/
opaque kernelPc : BitVec 64
/-- FREE VALUE: the micro-kernel's image as the keel island loads it into a core: instruction lines of context 0, by virtual line number, with
their 64 bytes (R370) (log 6). -/
opaque kernelLines : List (Nat × List (BitVec 8))
/-- FREE VALUE: the image of a ready strand, by its address, on the run queue of a core's micro-kernel, where it holds one (R336) (log 6). -/
opaque readyImage : Nat → Option (BitVec 64)

end Sys2Proof.Config
end

