-- ==== Sys2Proof/Machine/State.lean ====
section
/-! DEFINITION. The state of a system of F7 packages, as plain data, and the state after cold reset. Cores, crews and
packages are held sparsely: an unlisted one is at its reset value (log 1). -/

namespace Sys2Proof.Machine

/-- Reasons the machine stops with a fault. No meaning of this model raises one: every fault of the spec is taken as an
upcall, a trap, a machine check or a refusal of a message, all of them next states. -/
inductive Fault where
  /-- Never raised (safe): kept so that the type is inhabited for statements that rule it out. -/
  | none
deriving DecidableEq, Repr

/-- Reasons the machine refuses a step. -/
inductive Refusal where
  /-- Raised by Dispatch.lean for an instruction that has no meaning yet (safe): its mnemonic. -/
  | notModelled (mnemonic : String)
deriving DecidableEq, Repr

/-! ## Strands -/

/-- Where and since when a slice answers RETRY to an access performed at once: the number of its line, and a tick (R188). -/
abbrev Mark := Option (Nat × Nat)

/-- A strand context is free, ready to issue, waiting (in an offer, in a hold for a reply, in nnext or amnext), trapped
(R323), or taken by smove (R332). -/
inductive Mode where
  | free | ready | waiting | trapped | taken
deriving DecidableEq, Repr

/-- The answer that ends a hold: a status, and up to a few words (R21). -/
structure Answer where
  status : ReplyStatus := .ack
  cause  : Nat := 0
  inner  : Nat := 0
  data   : List Word := []
deriving DecidableEq, Repr

/-- What an issued instruction that holds its strand (R21) is doing: not begun, waiting for the answer to a request tag,
answered, or at a numbered point of its own with its data. -/
inductive Hold where
  | none
  | wait (rtag : Nat)
  | got  (a : Answer)
  | phase (k : Nat) (xs : List Nat)
deriving DecidableEq, Repr

/-- A fault, upcall or report: cause, detail, inner detail, ARG and the INFO words of R321, R322; fpc and rpc. -/
structure Report where
  slot   : Nat := 0
  cause  : Nat
  detail : Nat := 0
  inner  : Nat := 0
  arg    : Nat := 0
  fpc    : Word := 0
  rpc    : Word := 0
  info0  : Word := 0
  info1  : Word := 0
  info2  : Word := 0
  info3  : Word := 0
  strand : Nat := 0
  ctx    : Nat := 0
deriving DecidableEq, Repr

/-- Kinds of accesses that park (R191). -/
inductive AccKind where
  | ld (sx : Bool) | st | lds (sx acq : Bool) | sts (rel : Bool)
  | atom (op : AtomOp) (ord : BitVec 2) (c : Bool) | red (op : AtomOp) (rel c : Bool)
deriving DecidableEq, Repr

/-- A parked access (R191). -/
structure Park where
  kind   : AccKind
  addr   : Word
  sz     : Sz
  sc     : Scope
  data   : Word
  expect : Word
  dst    : Reg
  fpc    : Word
  inBuf  : Bool
deriving DecidableEq, Repr

/-- A binding made by evput (R264). -/
inductive Bind where
  | data (cont dest : Option TReg)
  | cp
deriving DecidableEq, Repr

/-- States of an offer record (R254). -/
inductive OfSt where
  | idle | opened | held | reserved | done (slot : Nat) | timedout | cancelled | noticed
deriving DecidableEq, Repr

/-- A home with an event and the deferral count it claims with (R258). -/
structure Claimant where
  home    : Nat
  ev      : EvId
  defer   : Nat
  attempt : Nat
deriving DecidableEq, Repr

/-- One named event of an offer: its result slot, event, home, rank and whether the home has yet to acknowledge a poll. -/
structure Named where
  slot   : Nat
  ev     : EvId
  home   : Nat
  rank   : Nat
  acked  : Bool
  bind   : Option Bind
deriving DecidableEq, Repr

/-- An offer record (R254): named events, deadline tick, the offer's own number, the four pending flags (refused: the detail, with 2^8 times the inner
detail of an FNACK), the holder, whether yield was sent during
this hold, the beneficiary, the reservation's expiry tick, the homes that wait, the result register of the offer or
syscall, and the round and rank map of a dissemination (R271). -/
structure OfferRec where
  st        : OfSt := .idle
  named     : List Named := []
  deadline  : Option Nat := Option.none
  serial    : Nat := 0
  poll      : Bool := false
  refused   : Option Nat := Option.none
  expired   : Bool := false
  cancelReq : Bool := false
  noticeReq : Bool := false
  holder    : Option Claimant := Option.none
  yielded   : Bool := false
  benef     : Option Claimant := Option.none
  until_    : Nat := 0
  waiters   : List Claimant := []
  contrib   : Contrib := .none
  resReg    : Reg := 0
  sys       : Bool := false
  round     : Option Nat := Option.none
  ranks     : List Nat := []
deriving DecidableEq, Repr

/-- A strand context (R50, R55): registers, BUDGET ([11:0] left, [23:16] live), the deadline and live mask of the most
recent yield or sstart (R104), the pending check of a transfer (R34), park slots, notices, evput bindings, offer record,
count of unacknowledged stores, the issued instruction that still holds the strand, a pending smove (true: move), the
dissemination notices kept for later rounds, the events whose next dissemination has odd OCC (R271), an upcall or trap that is being taken
while an access to its record waits (R314; its cause is 0 for the oldest notice), and the RETRY that its access in hand meets (R188). -/
structure Strand where
  mode    : Mode := .free
  g       : SMap Word := []
  p       : BitVec 8 := 0
  e       : SMap Word := []
  pc      : Word := 0
  role    : BitVec 2 := 0
  sticky  : Word := 0
  upvec   : Word := 0
  uprec   : Word := 0
  left    : BitVec 12 := 0
  live    : BitVec 8 := 0
  lastDl  : BitVec 12 := 0
  lastLive : BitVec 8 := 0
  scratch : Word := 0
  checkT  : Bool := false
  stalled : Bool := false
  atYield : Bool := false
  issued  : Option Instr := Option.none
  hold    : Hold := .none
  parks   : SMap Park := []
  notices : List Notice := []
  upcalls : List Report := []
  binds   : SMap Bind := []
  offer   : OfferRec := {}
  unacked : Nat := 0
  taker   : Option Bool := Option.none
  kept    : List (EvId × Nat × Bool) := []
  parity  : List EvId := []
  taking  : Option Report := Option.none
  retry   : Mark := Option.none
deriving DecidableEq, Repr

/-! ## Cores -/

/-- A deferred fault kept with a marked tile (R134, R158, R216, R322). -/
structure Deferred where
  cause  : Nat
  detail : Nat
  inner  : Nat
  arg    : Nat
  fpc    : Word
  info0  : Word
deriving DecidableEq, Repr

/-- An operand of an engine command as resolved at issue or replay (R129): a tile, a ring slot's tile, a scalar's value. -/
inductive Opnd where
  | none
  | tile (t : Nat)
  | ring (q t : Nat)
  | scalar (v : Word)
deriving DecidableEq, Repr

/-- A command of the vector sequencer or the matrix engine: the instruction, the issuing strand's slot and id, its PC,
the operands resolved at issue, the scalar values read at capture, the shape records read at issue, the RETRY that its far part or
its table read meets (R188), and the replay number. remote: the sender's strand global id for a matrix command received from another core. sent: a
csend has sent its packets (R304). -/
structure Cmd where
  instr  : Instr
  slot   : Nat
  sid    : Nat
  ctx    : Nat
  fpc    : Word
  dst    : List Opnd := []
  srcs   : List (List Opnd) := []
  scal   : List Word := []
  shapes : List (List Word) := []
  retry  : Mark := Option.none
  replay : Nat := 0
  remote : Option Nat := Option.none
  sent   : Bool := false
deriving DecidableEq, Repr

/-- A command of the copy engine (R214, R305): cp, cpx, putt or gett; its strand, PC, address, tile with the bytes of its data
area and of its scale part, the shape record read at issue, a cpx's header read at start, and the evput.cp events it carries.
started: it occupies a place, 0 or 1; retry: what its access in hand meets (R188); answer: a peer's. -/
structure CopyCmd where
  instr  : Instr
  slot   : Nat
  sid    : Nat
  ctx    : Nat
  super  : Bool
  fpc    : Word
  addr   : Word
  tile   : Nat
  data   : Nat
  scale  : Nat
  shape  : List Word
  offers : List Word
  started : Bool := false
  place  : Nat := 0
  retry  : Mark := Option.none
  hdr    : List Word := []
  answer : Option Answer := Option.none
deriving DecidableEq, Repr

/-- States of the vector sequencer (R133). -/
inductive SeqState where
  | idle
  | capturing (slot : Nat)
  | looping (slot : Nat) (left : Nat) (done : Nat)
deriving DecidableEq, Repr

/-- A cached translation (R187): context, page base, level, leaf word, and the lease's expiry tick. -/
structure TlbE where
  ctx   : Nat
  base  : Nat
  level : Nat
  leaf  : Word
  lease : Option Nat
deriving DecidableEq, Repr

/-- A line of the instruction cache: context, virtual line number, its 64 bytes, and the access rights it was filled
with (log 18). -/
structure ILine where
  ctx   : Nat
  line  : Nat
  bytes : List Byte
deriving DecidableEq, Repr

/-- A request the network interface keeps until its reply (R283, R290): the strand, the tag, the packet to resend, the
package and tick it was first sent at, and what its reply means. -/
inductive ReqUse where
  | strand
  | store (slot : Nat)
  | vector
  | copy (place : Nat)
  | course (slot op : Nat)
  | shed
  | none
deriving DecidableEq, Repr

/-- An outstanding request; seq: its number among those of its core, in the order in which they were first sent (R314). -/
structure Req where
  slot  : Nat
  use   : ReqUse
  pkt   : Instr
  dst   : CoreId
  line  : Nat
  since : Nat
  data  : List Nat := []
  seq   : Nat := 0
deriving DecidableEq, Repr

/-- A course slot (R306 to R310): the image's address, op count and context, the DEP of each op as loaded, the state (0 IDLE, 1
RUNNING, 2 DONE, 3 FAILED), a queued start's bases and starter, the failing op and its detail, the ops done, the ops started with
their records, the counters, the instances completed, the bases, the strand whose crsgo began the instance, its op count, the RETRY
that the access in hand of each op meets (R188), and the ops that an ended instance has started and not completed, with its bases. -/
structure Course where
  image   : Word := 0
  ctx     : Nat := 0
  loaded  : Bool := false
  deps0   : List Nat := []
  st      : Nat := 0
  queued  : Option (List Word × Option Nat) := Option.none
  failOp  : Nat := 0
  failDet : Nat := 0
  doneOps : List Nat := []
  started : SMap (List Word) := []
  deps    : SMap Nat := []
  insts   : Nat := 0
  bases   : List Word := []
  starter : Option Nat := Option.none
  ops     : Nat := 0
  retries : SMap Mark := []
  old     : SMap (List Word × List Word) := []
deriving DecidableEq, Repr

/-- A hardware offer record at a core's network interface (R272): class and number name it; contribution bytes or tile. -/
structure HwRec where
  cls : HwClass
  n   : Nat
  rec_ : OfferRec
  sid  : Nat
  outlet : Option (Nat × Nat) := Option.none
deriving DecidableEq, Repr

/-- A forwarding entry (R333). -/
structure Forward where
  old  : Nat
  new_ : Nat
  until_ : Nat
deriving DecidableEq, Repr

/-- A start waiting in the start queue (R330). -/
structure Queued where
  msg : StartMsg
deriving DecidableEq, Repr

/-- A core (R17): its strands, tile table, rings and reader counts; the trap registers, TDIS and the reports that wait; the context
it serves and that context's registers; CYCLE and the deadline ceilings; the vector sequencer and the engines' commands; the pair bag,
inbox and overflow ring; caches; courses, hardware offer records, outstanding requests and forwarding entries; the neighbours' load
figures; whether it is retired, halted or machine-checked (with the detail), the soft errors counted (R350), the last words a batten
READ returned and the words of trap records that a batten WRITE has still to store (R351), the RETRY that the access in hand of each of its hardware parts meets (R188; 0 the trap unit, 1 the dispatch of messages, 2 the
outlets, 3 the batten interface, 4 the pairs that come home), the number of the next request, and the capabilities minted: the key's generation, the context
and the word (R171). -/
structure Core where
  strands   : SMap Strand := []
  tiles     : SMap Word := []
  readers   : SMap Nat := []
  deferred  : SMap Deferred := []
  rings     : SMap Word := []
  trapvec   : Word := 0
  traprec   : Word := 0
  tdis      : Bool := false
  reports   : List Report := []
  ctx       : Nat := 0
  rulebase  : Word := 0
  shellbase : Word := 0
  handlertab : Word := 0
  spillbase : Word := 0
  evarea    : Word := 0
  cycle     : Word := 0
  wdogRes   : BitVec 12 := 4095
  wdogHnd   : BitVec 12 := 4095
  rr        : Nat := 0
  seq       : SeqState := .idle
  run       : List Cmd := []
  vbuf      : List Cmd := []
  vcur      : Option Cmd := Option.none
  vwait     : Option Answer := Option.none
  mq        : List Cmd := []
  mcur      : Option Cmd := Option.none
  remote    : List TmxMsg := []
  copies    : List CopyCmd := []
  bag       : List (Word × Word) := []
  spillHead : Nat := 0
  spillTail : Nat := 0
  popped    : Nat := 0
  rules     : SMap (List Word) := []
  inbox     : List AmMsg := []
  ovfHead   : Nat := 0
  ovfTail   : Nat := 0
  ovfAddr   : List Word := []
  starts    : List Queued := []
  icache    : List ILine := []
  itlb      : List TlbE := []
  dtlb      : List TlbE := []
  settling  : List (Nat × Nat) := []
  capGen    : Nat := 0
  courses   : SMap Course := []
  hwrecs    : List HwRec := []
  reqs      : SMap Req := []
  nextTag   : Nat := 0
  drops     : Nat := 0
  forwards  : List Forward := []
  loadFig   : SMap (Nat × Nat) := []
  retired   : Bool := false
  halted    : Bool := false
  mcheck    : Option Nat := Option.none
  softErrs  : Nat := 0
  battenOut : List Word := []
  battenIn  : List (Nat × Word) := []
  retries   : SMap Mark := []
  reqNo     : Nat := 0
  minted    : List (Nat × Nat × Word) := []
deriving DecidableEq, Repr

/-! ## Crews -/

/-- A line of the crew cache (R199): its 64 bytes, which of them are dirty (bit i for byte i), the cores of the crew that wrote it since it
was last cleaned, the key slot, the context and virtual address it was filled for, and the lease of the locator used, which its write-back
carries as LEXP (R316). -/
structure CLine where
  bytes   : List Byte
  mask    : BitVec 64
  writers : List Nat
  key     : Nat
  src     : Nat × Nat := (0, 0)
  lease   : Option Nat := Option.none
deriving DecidableEq, Repr

/-- A byte of the line is dirty. -/
def CLine.dirty (l : CLine) : Bool := l.mask != 0

/-- A combining entry (R204), keyed by context, location, operation and size (R365); va and lease: of the translation that it holds. -/
structure Comb where
  ctx   : Nat
  pkg   : Nat
  pa    : Nat
  key   : Nat
  op    : AtomOp
  sz    : Sz
  base  : Word
  part  : Word
  scope : Scope
  users : List (Nat × Nat × Scope)
  opener : Nat
  va    : Nat := 0
  lease : Option Nat := Option.none
deriving DecidableEq, Repr

/-- A fault-buffer entry (R192). -/
structure FbEntry where
  ctx   : Nat
  page  : Nat
  kind  : Nat
  map   : List (Nat × Nat)
  count : Nat
  told  : Bool
deriving DecidableEq, Repr

/-- A live offer of a rank at its home (R249, R255); serial: the offer's own number, which tells it from a later offer of its record. -/
structure LiveOffer where
  who     : RecRef
  slot    : Nat
  contrib : Contrib
  dest    : Option (CoreId × Nat)
  poll    : Bool
  serial  : Nat := 0
deriving DecidableEq, Repr

/-- STATE of an event record (R249). -/
inductive EvSt where
  | idle | settling | claiming | committing | cancelled
deriving DecidableEq, Repr

/-- An event record (R249), with the home's own progress: the settle window's and claim attempt's numbers, the records
already held, the record it waits on, and what an occurrence in progress has gathered; inArea, areaAt: its slot of its context's overflow area, that
slot's virtual address and the leaf of its page when the record moved there (R250, R380). -/
structure EvRec where
  ev      : EvId
  count   : Nat
  kind    : EvKind
  sole    : Bool
  size    : Nat
  op      : Nat
  fanin   : Nat
  src     : Nat
  map     : Word
  regions : List (Word × Word)
  settle  : Nat
  defer   : Nat := 0
  live    : SMap LiveOffer := []
  st      : EvSt := .idle
  missed  : Nat := 0
  occ     : Nat := 0
  window  : Nat := 0
  attempt : Nat := 0
  held    : List RecRef := []
  waitOn  : Option RecRef := Option.none
  cancelLater : Bool := false
  dying   : Bool := false
  occIn   : SMap LiveOffer := []
  parts   : SMap (List Byte) := []
  regIn   : List (Word × Word) := []
  inArea  : Option Nat := Option.none
  areaAt  : Option (Nat × Word) := Option.none
  used    : Nat := 0
deriving DecidableEq, Repr

/-- A timer (R273). -/
structure Timer where
  ev     : EvId
  core   : CoreId
  period : Option Nat
  expiry : Nat
  n      : Nat
deriving DecidableEq, Repr

/-- A crew (R12): cache, combining entries, L2 TLB, owner cache, fault buffer, cox records and timers, and what its cox has found of each context's
event overflow area since EVAREA was written: its address and its slots, where it can be used (R380). voided: the requests in flight, by
core and tag, whose answer is no longer to be kept in the cache (log 31). replays: the strands whose replay is under way, the first of which
runs (R338). attempts: no claim of a record that was freed has had a higher number (R391). -/
structure Crew where
  lines    : SMap CLine := []
  voided   : List (Nat × Nat) := []
  comb     : List Comb := []
  tlb      : List TlbE := []
  owner    : List TlbE := []
  fbuf     : List FbEntry := []
  dropped  : Bool := false
  lead     : BitVec 4 := 0
  waiting  : List FbEntry := []
  events   : List EvRec := []
  timers   : List Timer := []
  useClock : Nat := 0
  areas    : SMap (Option (Nat × Nat)) := []
  replays  : List StrandId := []
  attempts : Nat := 0
deriving DecidableEq, Repr

/-! ## Packages -/

/-- States of a Swener link's end (R287). -/
inductive LinkSt where
  | down | train | summary | active | failed
deriving DecidableEq, Repr

/-- A Swener port (R285 to R288): its state, training attempt, lanes and speed, the errors counted, the consecutive failed checks
and authentications, and the ticks of recent authentication failures. -/
structure Port where
  st       : LinkSt := .down
  attempt  : Nat := 0
  lanes    : Nat := 0
  speed    : Nat := 0
  crcErrs  : Nat := 0
  authErrs : Nat := 0
  crcRun   : Nat := 0
  authRun  : Nat := 0
  authAt   : List Nat := []
deriving DecidableEq, Repr

/-- A system-call port (R378). -/
structure SysPort where
  reqBase : Word := 0
  reqLog  : Word := 0
  reqHead : Word := 0
  reqTail : Word := 0
  rspBase : Word := 0
  rspLog  : Word := 0
  rspTail : Word := 0
  rspHead : Word := 0
  msi     : Word := 0
  msiId   : Word := 0
  rspBad  : Word := 0
deriving DecidableEq, Repr

/-- A migration record or wake (R311 to R317): old frame, page size, new home and frame, key, lines copied, whether the page has
cut over, context and address, the strand whose migrate waits, the tick at which it was armed, RELEASED, and KRES of the page's leaf (R185). -/
structure Wake where
  oldFrame : Nat
  big      : Bool
  newPkg   : Nat
  newFrame : Nat
  key      : Nat
  copied   : Nat
  cut      : Bool
  va       : Word
  ctx      : Nat
  asker    : Option StrandId
  armed    : Option Nat := Option.none
  released : Bool := false
  kres     : Bool := false
deriving DecidableEq, Repr

/-- A package: TIME and whether it is aligned; keys, frame map, fenced contexts, alarm log and level 3 hold; the boot block; the
bring-up phase, measurements, attestation report; Swener ports, system-call ports, pending interrupts of the IMSIC files; pending
message queues; wakes; the governor's clock and its counts; strokes and reset requests; each context's recorded registers; the flows of
the port switch; domain and port policy; the tick of the last slew and ticks still to be held back; a nonce being written; the tick
until which reset requests are ignored, what the last control-core load and the last inbound read returned, the failing images reported on
the board management interface (R370), the cause word of a machine check whose dump is still to be written (R353), and the reset key of the
package's domain, by the domain's number, once phase 5 has installed it (R383). -/
structure Pkg where
  time     : Word := 0
  aligned  : Bool := false
  keys     : SMap (List Byte) := []
  frameMap : SMap (Word × Word) := []
  fenced   : List Nat := []
  alarms   : List (Nat × Nat) := []
  held3    : Bool := false
  boot     : SMap Word := []
  locked   : Bool := false
  phase    : Nat := 0
  meas     : SMap (BitVec 384) := []
  attest   : Option (List Byte) := Option.none
  ccHeld   : Bool := true
  ports    : SMap Port := []
  sys      : SMap SysPort := []
  imsic    : List (Nat × Nat × Nat) := []
  pendMsgs : SMap (List (AmMsg × Nat)) := []
  wakes    : List Wake := []
  clock    : Nat := 1500
  govLow   : Nat := 0
  govHot   : Bool := false
  strokeMiss : SMap Nat := []
  strokeSeen : List Nat := []
  resetReqs : List (Nat × Nat) := []
  ctxInfo  : SMap (SMap Word) := []
  flows    : SMap (Nat × Nat) := []
  drops    : Nat := 0
  domain   : List Nat := []
  policy   : SMap Byte := []
  slewAt   : Nat := 0
  slewBack : Nat := 0
  nonce    : SMap Word := []
  govOver  : Nat := 0
  resetIgnore : Nat := 0
  ctlGot   : SMap (Option Word) := []
  pcieGot  : Option (List Byte) := Option.none
  bmc      : List Nat := []
  dumpWhy  : Option Nat := Option.none
  resetKey : Option Nat := Option.none
deriving DecidableEq, Repr

/-! ## The system -/

/-- Where a packet is (R281 to R286): at its target, or at a router of a package with the core or port it goes to and its
age, or on the link that ends at a port. -/
inductive Transit where
  | here
  | router (pkg col row : Nat) (dst : CoreId) (age : Nat)
  | link (pkg port : Nat) (dst : CoreId) (age : Nat)
deriving DecidableEq, Repr

/-- A hardware step that is to happen: its order channel (0 for none; steps of one channel happen in the order they
were entered), the package and tick before which it does not happen, where its packet is, and how its header departs from its form, for packets
whose form has no header of its own here (R289). -/
structure Pending where
  step  : Instr
  chan  : Nat := 0
  due   : Option (Nat × Nat) := Option.none
  route : Transit := .here
  odd   : Odd := {}
deriving DecidableEq, Repr

/-- The machine. seals holds, by line of package memory, the key material under which its bytes were last stored: mem holds their
plaintext under that (R186, log 63). agenda, turn, cur and freeN are the model's own: hardware steps to come, the strand that moves next
when an outside hand has chosen it, the strand whose instruction is executing, and the counter of free values (log 1). -/
structure State where
  mem    : Memory := []
  seals  : SMap (List Byte) := []
  cores  : SMap Core := []
  crews  : SMap Crew := []
  pkgs   : SMap Pkg := []
  agenda : List Pending := []
  turn   : Option StrandId := Option.none
  cur    : StrandId := ⟨⟨0, 0, 0⟩, 0⟩
  freeN  : Nat := 0
deriving DecidableEq, Repr

/-- Cold reset (R370): everything at its reset value, package 0 about to begin phase 1 of bring-up. -/
def State.reset : State := { agenda := [{ step := .bringUpPhase 0 }] }

end Sys2Proof.Machine
end

