-- ==== Sys2Proof/Machine/Base.lean ====
section
/-! DEFINITION. Coordinates and numbers of cores, crews and strands (R12 to R16), accessors of the state, the agenda,
free values, and PC arithmetic (R32, R33). -/

namespace Sys2Proof

/-! ## Coordinates -/

/-- A core's number: package, then row, then column; 2^40 more for a slice key. -/
def CoreId.key (c : CoreId) : Nat := (c.pkg * 200 + c.row) * 512 + c.col
/-- The core of a number. -/
def coreOfKey (k : Nat) : CoreId := ⟨k / 512 / 200, k % 512, k / 512 % 200⟩
/-- A crew's number in the system: package · 6,400 + crew (R12). -/
def CoreId.crewNo (c : CoreId) : Nat := c.pkg * 6400 + c.row / 4 * 128 + c.col / 4
/-- Crew-local index (R12). -/
def CoreId.local_ (c : CoreId) : Nat := c.row % 4 * 4 + c.col % 4
/-- Compute die (R12). -/
def CoreId.die (c : CoreId) : Nat := c.row / 100 * 4 + c.col / 128
/-- The I/O die whose system-call port serves a core: die 0 serves compute dies 0, 1, 4 and 5 (R378). -/
def ioDie (c : CoreId) : Nat := if c.die % 4 < 2 then 0 else 1
/-- The position from which an I/O die, its port switch and its system-call port, reaches the torus (PRESUMED, log 22). -/
def portCore (pkg die : Nat) : CoreId := ⟨pkg, if die = 0 then 0 else 511, 0⟩
/-- Reach (R12). -/
def CoreId.reach (c : CoreId) : Nat := c.row / 100 * 8 + c.col / 64
/-- The core of a crew with a crew-local index. -/
def crewCore (crew l : Nat) : CoreId :=
  ⟨crew / 6400, crew % 6400 % 128 * 4 + l % 4, crew % 6400 / 128 * 4 + l / 4⟩
/-- The package of a crew. -/
def crewPkg (crew : Nat) : Nat := crew / 6400
/-- The reach of a crew within its package. -/
def crewReach (crew : Nat) : Nat := (crewCore crew 0).reach
/-- Strand global id (R16). -/
def StrandId.gid (t : StrandId) : Nat := t.core.pkg * 2 ^ 20 + t.core.col * 2 ^ 11 + t.core.row * 8 + t.slot
/-- The strand of a global id (R16). -/
def strandOfGid (x : Nat) : StrandId := ⟨⟨bitsN x 31 20, bitsN x 19 11, bitsN x 10 3⟩, bitsN x 2 0⟩
/-- Package coordinates x, y, z (R14). -/
def pkgX (p : Nat) : Nat := p % 16
/-- y. -/
def pkgY (p : Nat) : Nat := p / 16 % 16
/-- z. -/
def pkgZ (p : Nat) : Nat := p / 256 % 16
/-- The package of coordinates. -/
def pkgOf (x y z : Nat) : Nat := z * 256 + y * 16 + x
/-- The unit of a scope that holds a core, as a number that is unique within the scope (R22, R23). -/
def CoreId.unit (c : CoreId) : Scope → Nat
  | .core => c.key
  | .crew => c.crewNo
  | .reach => c.pkg * 16 + c.reach
  | .pkg => c.pkg
  | .dom => 0

/-- Bytes of an access size (R48). -/
def Sz.bytes : Sz → Nat | .b => 1 | .h => 2 | .w => 4 | .d => 8
/-- log2 of the size. -/
def Sz.log : Sz → Nat | .b => 0 | .h => 1 | .w => 2 | .d => 3
/-- The scope's number (R22). -/
def Scope.num : Scope → Nat | .core => 0 | .crew => 1 | .reach => 2 | .pkg => 3 | .dom => 4
/-- The scope is core or crew: accesses stay in the crew cache (R200). -/
def Scope.inCrew (s : Scope) : Bool := s.num ≤ 1

/-! ## PC arithmetic -/

/-- next(pc) of R32. -/
def nextPc (pc : Word) : Word :=
  if pc.toNat % 8 < 4 then pc + 1 else (pc >>> 3 <<< 3) + 64
/-- slot_linear. -/
def slotLinear (pc : Word) : Int := (pc.toNat / 64 * 5 + pc.toNat % 8 : Nat)
/-- slot_pc. -/
def slotPc (l : Nat) : Word := BitVec.ofNat 64 (l / 5 * 64 + l % 5)
/-- The destination of a branch by offset, none outside the PC range (R33). -/
def branchTo (pc : Word) (off : Imm48) : Option Word :=
  let l := slotLinear pc + off.toInt
  if l < 0 ∨ (2 ^ 57 / 64 * 5 : Nat) ≤ l then none else some (slotPc l.toNat)
/-- PC form of R35. -/
def pcFormOk (pc : Word) : Bool := pc.toNat / 8 % 8 == 0 && pc.toNat % 8 ≤ 4

/-- The effective address of R48 with scale 2^k. -/
def ea48 (base idx : Word) (k : Nat) (disp : Imm48) : Word := base + (idx <<< k) + disp.signExtend 64

namespace Machine

/-! ## Accessors -/

/-- Reset value of an e register (R50). -/
def eReset : Word := 0xFFFFFFFFFFFFFFFF#64
/-- A core. -/
def State.core (s : State) (c : CoreId) : Core := s.cores.get {} c.key
/-- A core replaced. -/
def State.setCore (s : State) (c : CoreId) (x : Core) : State := { s with cores := s.cores.set c.key x }
/-- A core changed. -/
def State.modCore (s : State) (c : CoreId) (f : Core → Core) : State := s.setCore c (f (s.core c))
/-- A strand context of a core. -/
def Core.strand (c : Core) (slot : Nat) : Strand := c.strands.get {} slot
/-- A strand context replaced. -/
def Core.setStrand (c : Core) (slot : Nat) (x : Strand) : Core := { c with strands := c.strands.set slot x }
/-- A strand context changed. -/
def Core.modStrand (c : Core) (slot : Nat) (f : Strand → Strand) : Core := c.setStrand slot (f (c.strand slot))
/-- A strand context. -/
def State.strand (s : State) (t : StrandId) : Strand := (s.core t.core).strand t.slot
/-- A strand context replaced. -/
def State.setStrand (s : State) (t : StrandId) (x : Strand) : State := s.modCore t.core fun c => c.setStrand t.slot x
/-- A strand context changed. -/
def State.modStrand (s : State) (t : StrandId) (f : Strand → Strand) : State := s.setStrand t (f (s.strand t))
/-- A crew. -/
def State.crew (s : State) (n : Nat) : Crew := s.crews.get {} n
/-- A crew changed. -/
def State.modCrew (s : State) (n : Nat) (f : Crew → Crew) : State := { s with crews := s.crews.set n (f (s.crew n)) }
/-- A package. -/
def State.pkg (s : State) (n : Nat) : Pkg := s.pkgs.get {} n
/-- A package changed. -/
def State.modPkg (s : State) (n : Nat) (f : Pkg → Pkg) : State := { s with pkgs := s.pkgs.set n (f (s.pkg n)) }
/-- A package's reference time (R24). -/
def State.time (s : State) (n : Nat) : Nat := (s.pkg n).time.toNat

/-- The strand whose instruction is executing. -/
def State.me (s : State) : Strand := s.strand s.cur
/-- Its core. -/
def State.myCore (s : State) : Core := s.core s.cur.core
/-- That strand changed. -/
def State.modMe (s : State) (f : Strand → Strand) : State := s.modStrand s.cur f
/-- Its core changed. -/
def State.modMyCore (s : State) (f : Core → Core) : State := s.modCore s.cur.core f
/-- It is the supervisor strand (R318). -/
def State.super (s : State) : Bool := s.cur.slot == 0
/-- The context a strand runs in: 0 for slot 0, else the one its core serves (R318, R19). -/
def State.ctxOf (s : State) (t : StrandId) : Nat := if t.slot = 0 then 0 else (s.core t.core).ctx
/-- The executing strand's context. -/
def State.ctx (s : State) : Nat := s.ctxOf s.cur

/-- A g register; g0 reads zero (R50). -/
def Strand.rg (t : Strand) (r : Reg) : Word := if r = 0 then 0 else t.g.get 0 r.toNat
/-- A g register written; a write of g0 is discarded (R50). -/
def Strand.wg (t : Strand) (r : Reg) (v : Word) : Strand := if r = 0 then t else { t with g := t.g.set r.toNat v }
/-- A predicate; p0 reads 1 (R50). -/
def Strand.rp (t : Strand) (r : PReg) : Bool := r == 0 || t.p.getLsbD r.toNat
/-- A predicate written; a write of p0 is discarded (R50). -/
def Strand.wp (t : Strand) (r : PReg) (v : Bool) : Strand :=
  if r = 0 then t
  else { t with p := if v then t.p ||| BitVec.twoPow 8 r.toNat else t.p &&& ~~~(BitVec.twoPow 8 r.toNat) }
/-- An e register (R50). -/
def Strand.re (t : Strand) (r : EReg) : Word := t.e.get eReset r.toNat
/-- An e register written. -/
def Strand.we (t : Strand) (r : EReg) (v : Word) : Strand := { t with e := t.e.set r.toNat v }

/-- g of the executing strand. -/
def State.rg (s : State) (r : Reg) : Word := s.me.rg r
/-- g of the executing strand written. -/
def State.wg (s : State) (r : Reg) (v : Word) : State := s.modMe fun t => t.wg r v
/-- p of the executing strand. -/
def State.rp (s : State) (r : PReg) : Bool := s.me.rp r
/-- p of the executing strand written. -/
def State.wp (s : State) (r : PReg) (v : Bool) : State := s.modMe fun t => t.wp r v
/-- STICKY bits of the executing strand or-ed in (R103). -/
def State.flag (s : State) (fl : Nat) : State := s.modMe fun t => { t with sticky := t.sticky ||| BitVec.ofNat 64 fl }
/-- STICKY bits of a strand or-ed in. -/
def State.flagOf (s : State) (t : StrandId) (fl : Nat) : State :=
  s.modStrand t fun x => { x with sticky := x.sticky ||| BitVec.ofNat 64 fl }

/-! ## Free values and the agenda -/

/-- The counter of free values advanced. -/
def State.fresh (s : State) : State := { s with freeN := s.freeN + 1 }
/-- A hardware step entered at the end of the agenda. -/
def State.post (s : State) (p : Pending) : State := { s with agenda := s.agenda ++ [p] }
/-- A hardware step entered with no order and no delay. -/
def State.postStep (s : State) (i : Instr) : State := s.post { step := i }
/-- A hardware step entered once: not while an equal one is pending. -/
def State.postOnce (s : State) (i : Instr) : State := if s.agenda.any (fun p => p.step == i) then s else s.postStep i
/-- A hardware step at a tick of a package's counter. -/
def State.postAt (s : State) (pkg tick : Nat) (i : Instr) : State := s.post { step := i, due := some (pkg, tick) }
/-- Pending steps that satisfy f removed. -/
def State.cancel (s : State) (f : Instr → Bool) : State := { s with agenda := s.agenda.filter fun p => !f p.step }

/-! ## Boot configuration (R371) -/

/-- Reset values of the boot configuration block (EXTM1 and PKGNUM: log 4). -/
def bootReset (off : Nat) : Word :=
  if off = 0x18 then 0x10000007D0#64 else if off = 0x20 then BitVec.ofNat 64 (1000 * 2 ^ 32 + 4000) else 0
/-- A word of the block. -/
def Pkg.bootWord (p : Pkg) (off : Nat) : Nat := (p.boot.get (bootReset off) off).toNat
/-- Extents of the torus in x, y and z (R14). -/
def State.extent (s : State) (p : Nat) : Nat × Nat × Nat :=
  let w := (s.pkg p).bootWord 0
  (bitsN w 31 28 + 1, bitsN w 35 32 + 1, bitsN w 39 36 + 1)
/-- A package number lies within the extents that package own knows. -/
def State.pkgIn (s : State) (own p : Nat) : Bool :=
  let (x, y, z) := s.extent own
  decide (pkgX p < x) && decide (pkgY p < y) && decide (pkgZ p < z) && decide (p < 4096)
/-- Context table base (R371). -/
def Pkg.ctxTab (p : Pkg) : Nat := bitsN (p.bootWord 8) 39 22 * 2 ^ 22
/-- Shedding threshold T: 0 is read as 16 (R371). -/
def Pkg.shedT (p : Pkg) : Nat := let t := bitsN (p.bootWord 0x18) 43 32; if t = 0 then 16 else t
/-- Flow gap in ticks (R371). -/
def Pkg.flowGap (p : Pkg) : Nat := bitsN (p.bootWord 0x18) 23 0
/-- LOCK (R371). -/
def Pkg.isLocked (p : Pkg) : Bool := p.bootWord 0x38 % 2 == 1

/-! ## Links between packages (R285, R286) -/

/-- The direction, 0 to 5 for +x, −x, +y, −y, +z, −z, in which a packet leaves a package, and the neighbour there (R285). -/
def State.outDir (s : State) (pkg dst : Nat) : Nat × Nat :=
  let (ex, ey, ez) := s.extent pkg
  let way (n a b : Nat) : Option Bool :=
    if a = b then none else some (decide ((b + n - a) % n ≤ (a + n - b) % n))
  let hop (n a : Nat) (pos : Bool) : Nat := if pos then (a + 1) % n else (a + n - 1) % n
  match way ex (pkgX pkg) (pkgX dst), way ey (pkgY pkg) (pkgY dst), way ez (pkgZ pkg) (pkgZ dst) with
  | some p, _, _ => (if p then 0 else 1, pkgOf (hop ex (pkgX pkg) p) (pkgY pkg) (pkgZ pkg))
  | none, some p, _ => (if p then 2 else 3, pkgOf (pkgX pkg) (hop ey (pkgY pkg) p) (pkgZ pkg))
  | none, none, some p => (if p then 4 else 5, pkgOf (pkgX pkg) (pkgY pkg) (hop ez (pkgZ pkg) p))
  | none, none, none => (0, pkg)

/-- A port of a package. -/
def Pkg.port (p : Pkg) (n : Nat) : Port := p.ports.get {} n
/-- The number of port i of a direction: six to each. -/
def portNo (dir i : Nat) : Nat := 6 * dir + i
/-- The port at the far end of a link. -/
def farPort (port : Nat) : Nat := portNo (if port / 6 % 2 = 0 then port / 6 + 1 else port / 6 - 1) (port % 6)
/-- The package at the far end of a port. -/
def State.farPkg (s : State) (pkg port : Nat) : Nat :=
  let (ex, ey, ez) := s.extent pkg
  match port / 6 with
  | 0 => pkgOf ((pkgX pkg + 1) % ex) (pkgY pkg) (pkgZ pkg)
  | 1 => pkgOf ((pkgX pkg + ex - 1) % ex) (pkgY pkg) (pkgZ pkg)
  | 2 => pkgOf (pkgX pkg) ((pkgY pkg + 1) % ey) (pkgZ pkg)
  | 3 => pkgOf (pkgX pkg) ((pkgY pkg + ey - 1) % ey) (pkgZ pkg)
  | 4 => pkgOf (pkgX pkg) (pkgY pkg) ((pkgZ pkg + 1) % ez)
  | _ => pkgOf (pkgX pkg) (pkgY pkg) ((pkgZ pkg + ez - 1) % ez)
/-- A port changed. -/
def State.modPort (s : State) (pkg n : Nat) (f : Port → Port) : State :=
  s.modPkg pkg fun p => { p with ports := p.ports.set n (f (p.port n)) }
/-- The port switch that carries a direction: I/O die 0 has the ports of +x, +y and +z, I/O die 1 those of −x, −y and −z (R10). -/
def switchOf (pkg dir : Nat) : CoreId := portCore pkg (dir % 2)
/-- Every port of a direction has failed (R286). -/
def Pkg.dirFailed (p : Pkg) (dir : Nat) : Bool := (List.range 6).all fun i => (p.port (portNo dir i)).st == .failed
/-- No way leads from a package to another: on the way every port of a direction has failed (R286). fuel: hops. -/
def State.severedBy (s : State) : Nat → Nat → Nat → Bool
  | 0, _, _ => false
  | n + 1, a, b => a != b && ((s.pkg a).dirFailed (s.outDir a b).1 || s.severedBy n (s.outDir a b).2 b)
/-- No way leads from one package to another of the torus, whose ways have at most 24 hops (R14, R286). -/
def State.severed (s : State) (a b : Nat) : Bool := s.severedBy 24 a b
/-- A port of a direction works (R286, R287). -/
def Pkg.dirUp (p : Pkg) (dir : Nat) : Bool := (List.range 6).any fun i => (p.port (portNo dir i)).st == .active
/-- The way from a package to another has a hop at which no port works now. fuel: hops. -/
def State.blockedBy (s : State) : Nat → Nat → Nat → Bool
  | 0, _, _ => false
  | n + 1, a, b => a != b && (!(s.pkg a).dirUp (s.outDir a b).1 || s.blockedBy n (s.outDir a b).2 b)
/-- What is sent from a package to another waits for a port to work: none has ended the way for good (R286, R287). -/
def State.blocked (s : State) (a b : Nat) : Bool := !s.severed a b && s.blockedBy 24 a b

/-! ## Raw memory (R3, R10, R18) -/

/-- The key of package memory. -/
def memKey (pkg pa : Nat) : Nat := pkg * 2 ^ 40 + pa
/-- The key of slice memory. -/
def sliceKey (c : CoreId) (off : Nat) : Nat := 2 ^ 52 + c.key * 2 ^ 17 + off
/-- n bytes at a key as a number. -/
def State.readN (s : State) (k n : Nat) : Nat := leNat (s.mem.readBytes k n)
/-- n bytes of a number written at a key. -/
def State.writeN (s : State) (k n x : Nat) : State := { s with mem := s.mem.writeBytes k (leBytes n x) }
/-- Bytes written at a key. -/
def State.writeBs (s : State) (k : Nat) (bs : List Byte) : State := { s with mem := s.mem.writeBytes k bs }
/-- A line of package memory as key material m sees it, in memory and in the record of what its lines are stored under: bytes stored under
other material read as what decryption under m makes of them, and a line that nothing has been stored to reads as it stands (R186, log
63). ln: the line's number, with its package. -/
def reseal (m : List Byte) (q : Memory × SMap (List Byte)) (ln : Nat) : Memory × SMap (List Byte) :=
  let old := q.2.get m ln
  let mem := if old = m then q.1
    else
      let bs := Cipher.recrypt old m (64 * ln % 2 ^ 40) (q.1.readBytes (64 * ln) 64)
      q.1.writeBytes (64 * ln) ((List.range 64).map fun i => bs.getD i 0)
  (mem, q.2.set ln m)
/-- The lines of n bytes of package memory from a key on, as a key slot of their home sees them: what an access under the slot reads, and
what it leaves beside the bytes it stores (R186). -/
def State.under (s : State) (slot k n : Nat) : State :=
  let m := (s.pkg (k / 2 ^ 40)).keys.get [] slot
  let q := ((List.range ((k + n + 63) / 64 - k / 64)).map fun i => k / 64 + i).foldl (reseal m) (s.mem, s.seals)
  { s with mem := q.1, seals := q.2 }
/-- n bytes of a core's slice as a number. -/
def State.sread (s : State) (c : CoreId) (off n : Nat) : Nat := s.readN (sliceKey c off) n
/-- n bytes of a core's slice written. -/
def State.swrite (s : State) (c : CoreId) (off n x : Nat) : State := s.writeN (sliceKey c off) n x
/-- Slice cells of a core removed: the whole slice reads zero (R18). -/
def State.clearSlice (s : State) (c : CoreId) : State :=
  { s with mem := s.mem.filter fun p => decide (p.1 < sliceKey c 0) || decide (sliceKey c 0 + 131072 ≤ p.1) }

/-! ## Tile table (R51) and rings (R52) -/

/-- Tile states. -/
def tEmpty : Nat := 0
/-- FILLING. -/
def tFilling : Nat := 1
/-- READY. -/
def tReady : Nat := 2
/-- DRAINING. -/
def tDraining : Nat := 3

/-- A tile entry. -/
def Core.tile (c : Core) (t : Nat) : Word := c.tiles.get 0 t
/-- STATE. -/
def tileSt (w : Word) : Nat := bitsN w.toNat 63 62
/-- FMARK. -/
def tileMark (w : Word) : Bool := w.getLsbD 61
/-- SHAPE. -/
def tileShape (w : Word) : Nat := bitsN w.toNat 60 56
/-- FMT. -/
def tileFmt (w : Word) : Nat := bitsN w.toNat 55 51
/-- BASE. -/
def tileBase (w : Word) : Nat := bitsN w.toNat 50 34
/-- SCALES. -/
def tileScales (w : Word) : Nat := bitsN w.toNat 33 17
/-- An entry with STATE and FMARK replaced. -/
def tileWith (w : Word) (st : Nat) (mark : Bool) : Word :=
  (w &&& 0x1FFFFFFFFFFFFFFF#64) ||| BitVec.ofNat 64 (st * 2 ^ 62 + (if mark then 2 ^ 61 else 0))
/-- A tile's STATE and FMARK set; a clear mark discards what was kept with it (R322). -/
def Core.setTile (c : Core) (t st : Nat) (mark : Bool) : Core :=
  { c with tiles := c.tiles.set t (tileWith (c.tile t) st mark), deferred := if mark then c.deferred else c.deferred.del t }
/-- STATE set, FMARK kept. -/
def Core.tileTo (c : Core) (t st : Nat) : Core := c.setTile t st (tileMark (c.tile t))
/-- Reader count (R197). -/
def Core.readersOf (c : Core) (t : Nat) : Nat := c.readers.get 0 t
/-- Reader count changed. -/
def Core.addReader (c : Core) (t : Nat) : Core := { c with readers := c.readers.set t (c.readersOf t + 1) }
/-- Reader count lowered. -/
def Core.dropReader (c : Core) (t : Nat) : Core := { c with readers := c.readers.set t (c.readersOf t - 1) }
/-- A tile marked, with the fault kept for the strand that meets it (R134, R158, R216). DEDUCED: a tile that is marked already keeps the later
fault (log 59). -/
def Core.markTile (c : Core) (t st : Nat) (d : Deferred) : Core :=
  { c with tiles := c.tiles.set t (tileWith (c.tile t) st true), deferred := c.deferred.set t d }

/-- A ring register. -/
structure Ring where
  first  : Nat
  size   : Nat
  head   : Nat
  tail   : Nat
  filled : Nat
  free   : Nat
deriving DecidableEq, Repr

/-- The fields of a ring register. -/
def ringOf (w : Word) : Ring :=
  let x := w.toNat
  ⟨bitsN x 5 0, bitsN x 12 6, bitsN x 18 13, bitsN x 24 19, bitsN x 31 25, bitsN x 38 32⟩
/-- The register of a ring's fields. -/
def Ring.word (r : Ring) : Word :=
  BitVec.ofNat 64 (r.first + r.size * 2 ^ 6 + r.head * 2 ^ 13 + r.tail * 2 ^ 19 + r.filled * 2 ^ 25 + r.free * 2 ^ 32)
/-- A core's ring. -/
def Core.ring (c : Core) (q : Nat) : Ring := ringOf (c.rings.get 0 q)
/-- A core's ring replaced. -/
def Core.setRing (c : Core) (q : Nat) (r : Ring) : Core := { c with rings := c.rings.set q r.word }
/-- The tile at a ring's slot i positions past p. -/
def Ring.slotTile (r : Ring) (p i : Nat) : Nat := r.first + (p + i) % r.size

/-- The user strands of a core. -/
def Core.users (c : Core) : List (Nat × Strand) := c.strands.filter fun p => p.1 != 0 && p.2.mode != .free
/-- The core holds work of the context it serves (R53). -/
def Core.hasWork (c : Core) : Bool :=
  !c.users.isEmpty || !c.bag.isEmpty || !c.inbox.isEmpty || c.ovfHead != c.ovfTail || !c.starts.isEmpty || !c.remote.isEmpty
/-- The memory request that a packet carries. -/
def memReqOf : Instr → Option MemReq
  | .ldPacket m | .stPacket m | .atomPacket m => some m
  | _ => none
/-- The mark of the page of a request to package memory. -/
def Req.page (r : Req) : Option (Nat × Nat) :=
  match memReqOf r.pkt with
  | some m => match m.tgt with
    | .mem _ _ _ => some (r.data.getD 4 0, r.data.getD 5 0)
    | .slice _ _ => none
  | none => none
/-- The runs of lines of its peer's slice that a putt or gett moves, each by its first and last: those of the peer's tile when it was sent (R305). -/
def Req.peerLines (r : Req) : List (Nat × Nat) :=
  match r.use with
  | .copy _ => [(r.data.getD 8 0, r.data.getD 9 0), (r.data.getD 10 0, r.data.getD 11 0)]
  | _ => []
/-- A request touches a line: a csend's packet the two lines of its block, a putt or gett those of its peer's tile (R189, R304, R305). -/
def Req.touches (r : Req) (line : Nat) : Bool :=
  line != 0 && ((r.line != 0 && (r.line == line || (r.use == .vector && r.line + 1 == line)))
    || r.peerLines.any fun p => decide (p.1 ≤ line) && decide (line ≤ p.2))
/-- A request of a core to the given line is outstanding (R189). -/
def Core.busyLine (c : Core) (line : Nat) : Bool := c.reqs.any fun r => r.2.touches line
/-- The number of the line of a slice that an offset lies in (R189). -/
def sliceLine (t : CoreId) (off : Nat) : Nat := sliceKey t off / 64 + 1
/-- A request of a core to a line of one of the runs, each of n bytes from an offset, of another core's slice is outstanding (R189). -/
def Core.busyRuns (c : Core) (t : CoreId) (n : Nat) (offs : List Nat) : Bool :=
  !c.reqs.isEmpty && offs.any fun o => c.busyLine (sliceLine t o) || c.busyLine (sliceLine t (o + n - 1))
/-- The mark of a page that settles: its context and its number, a large page's apart. -/
def pageTag (big : Bool) (ctx va : Nat) : Nat × Nat := (ctx, if big then 2 ^ 41 + va / 2 ^ 21 else va / 2 ^ 16)
/-- Access to a settling page waits while an access to it sent earlier is unacknowledged (R314). -/
def Core.settles (k : Core) (tag : Nat × Nat) : Bool :=
  k.settling.contains tag && k.reqs.any fun r => r.2.page == some tag
/-- The core cannot take a message, slice access, push or command now (R350). -/
def Core.dead (c : Core) : Bool := c.mcheck.isSome

end Machine
end Sys2Proof
end

