-- ==== Sys2Proof/Machine/EvBase.lean ====
section
/-! DEFINITION. Event handles, homes and records, and what ends an offer record (R247 to R262). -/

namespace Sys2Proof.Machine

/-! ## Handles (R247) -/

/-- NAME. -/
def hName (h : Word) : BitVec 32 := h.extractLsb' 32 32
/-- SCOPE field. -/
def hScope (h : Word) : Nat := bitsN h.toNat 31 29
/-- KIND. -/
def hKind (h : Word) : EvKind :=
  match bitsN h.toNat 28 27 with
  | 0 => .sync | 1 => .xfer | 2 => .gather | _ => .reduce
/-- SOLE. -/
def hSole (h : Word) : Bool := h.getLsbD 26
/-- RANK. -/
def hRank (h : Word) : Nat := bitsN h.toNat 23 0
/-- SCOPE 0 to 4 and reserved bits zero. -/
def hOk (h : Word) : Bool := hScope h ≤ 4 && bitsN h.toNat 25 24 == 0
/-- The scope of a code (R22). -/
def scopeOfNum (n : Nat) : Scope :=
  match n with
  | 0 => .core | 1 => .crew | 2 => .reach | 3 => .pkg | _ => .dom
/-- KIND's number. -/
def kindNum : EvKind → Nat | .sync => 0 | .xfer => 1 | .gather => 2 | .reduce => 3
/-- The handle of its fields. -/
def mkHandle (name : BitVec 32) (sc : Scope) (k : EvKind) (sole : Bool) (rank : Nat) : Word :=
  BitVec.ofNat 64 (name.toNat * 2 ^ 32 + sc.num * 2 ^ 29 + kindNum k * 2 ^ 27 + (if sole then 2 ^ 26 else 0) + rank % 2 ^ 24)

/-- The packages of a package's fabric domain, ascending (R15, R248): those that its port policy lists since phase 5 of bring-up, or itself alone. -/
def State.domainOf (s : State) (p : Nat) : List Nat :=
  let l := (s.pkg p).domain
  if l.isEmpty ∨ 64 < l.length then [p] else l

/-- The identity of the event that a core's use of a handle names (R248): context, scope, the unit of that scope that holds the core, name.
A domain is named by its lowest package (R23). -/
def State.evIdOf (s : State) (ctx : Nat) (c : CoreId) (h : Word) : EvId :=
  let sc := scopeOfNum (hScope h)
  ⟨ctx, sc, if sc = .dom then (s.domainOf c.pkg).headD c.pkg else c.unit sc, hName h⟩

/-- The home crew of an event for a use by core c (R248). -/
def State.homeOf (s : State) (c : CoreId) (ev : EvId) : Nat :=
  let h := (mix64 (BitVec.ofNat 64 (ev.ctx * 2 ^ 32 + ev.name.toNat))).toNat
  match ev.scope with
  | .core | .crew => c.crewNo
  | .reach =>
    let i := h % 400
    c.pkg * 6400 + (c.reach / 8 * 25 + i / 16) * 128 + c.reach % 8 * 16 + i % 16
  | .pkg => c.pkg * 6400 + h % 6400
  | .dom =>
    let ps := s.domainOf c.pkg
    let i := h % (6400 * ps.length)
    ps.getD (i / 6400) c.pkg * 6400 + i % 6400

/-! ## Event records -/

/-- The record of an event at a home. -/
def State.evRec (s : State) (home : Nat) (ev : EvId) : Option EvRec := (s.crew home).events.find? fun r => r.ev == ev
/-- The record replaced. -/
def State.setEv (s : State) (home : Nat) (r : EvRec) : State :=
  s.modCrew home fun c => { c with events := c.events.map fun x => if x.ev = r.ev then r else x }
/-- The record changed. -/
def State.modEv (s : State) (home : Nat) (ev : EvId) (f : EvRec → EvRec) : State :=
  s.modCrew home fun c => { c with events := c.events.map fun x => if x.ev = ev then f x else x }
/-- A crew's records that satisfy f freed; what tells a claim or a settle window of one of them from those of a later record is kept (R391). -/
def Crew.freeRecs (c : Crew) (f : EvRec → Bool) : Crew :=
  { c with events := c.events.filter fun x => !f x,
           attempts := ((c.events.filter f).map fun x => max x.attempt x.window + 1).foldl max c.attempts }
/-- A record freed once it is dying, has no live offer and commits nothing (R277). -/
def State.reap (s : State) (home : Nat) (ev : EvId) : State :=
  s.modCrew home fun c => c.freeRecs fun x => x.ev == ev && x.dying && x.live.isEmpty && x.st != .committing

/-! ## Offer records -/

/-- The core of an offer record. -/
def recCore : RecRef → CoreId
  | .strand t => t.core
  | .hw c _ _ => c
/-- The order of hardware classes at a core (R258, R342). -/
def hwOrder : HwClass → Nat
  | .copy => 0 | .timer => 1 | .net => 2 | .course => 3 | .port => 4
/-- The claim order of records: ascending strand id, a core's hardware records after its slot 0 (R258). -/
def recKey : RecRef → Nat
  | .strand t => (t.gid * 8 + 0) * 2 ^ 40 + (if t.slot = 0 then 0 else 0)
  | .hw c cls n => (StrandId.gid ⟨c, 0⟩ * 8 + 1 + hwOrder cls) * 2 ^ 40 + n

/-- An offer record. -/
def State.offerRec (s : State) : RecRef → OfferRec
  | .strand t => (s.strand t).offer
  | .hw c cls n =>
    match (s.core c).hwrecs.find? fun r => r.cls == cls && r.n == n with
    | some r => r.rec_
    | none => {}
/-- An offer record replaced. -/
def State.setRec (s : State) (r : RecRef) (x : OfferRec) : State :=
  match r with
  | .strand t => s.modStrand t fun st => { st with offer := x }
  | .hw c cls n => s.modCore c fun k =>
    { k with hwrecs := k.hwrecs.map fun h => if h.cls = cls ∧ h.n = n then { h with rec_ := x } else h }
/-- An offer record changed. -/
def State.modRec (s : State) (r : RecRef) (f : OfferRec → OfferRec) : State := s.setRec r (f (s.offerRec r))

/-- An offer record changed by a message of a home; the record of a machine-checked core stays as it is (R350). -/
def State.modLive (s : State) (r : RecRef) (f : OfferRec → OfferRec) : State := if (s.core (recCore r)).dead then s else s.modRec r f

/-- The order channel of messages from a record to a home: they arrive in the order sent (R281; DEDUCED, log 19). -/
def chanUp (r : RecRef) (home : Nat) : Nat := 1 + 2 * (recKey r * 2 ^ 25 + home)
/-- The order channel of messages from a home to a record. -/
def chanDown (r : RecRef) (home : Nat) : Nat := 2 + 2 * (recKey r * 2 ^ 25 + home)

/-- An event message between a record's core and a home, or two cores: a class 3 packet that goes through the port switches where their packages
differ (R284, R285). -/
def State.sendEvt (s : State) (a b : CoreId) (step : Instr) (chan : Nat) : State :=
  s.post { step := step, chan := chan, route := if a.pkg = b.pkg then .here else .router a.pkg a.col a.row b 0 }
/-- The position of a crew's cox in the torus (PRESUMED, log 22). -/
def coxCore (crew : Nat) : CoreId := crewCore crew 0

/-- The resolution notices a record owes, sent (R260). -/
def State.notify (s : State) (r : RecRef) : State :=
  let x := s.offerRec r
  let s := x.waiters.foldl (fun s w => s.sendEvt (recCore r) (coxCore w.home) (.resolutionNotice w.home w.ev r) (chanUp r w.home)) s
  s.modRec r fun x => { x with waiters := [] }

/-- The record's offers withdrawn, but for the one at slot `keep` (R261, R262). commit: another event has occurred. -/
def State.withdraw (s : State) (r : RecRef) (keep : Option Nat) (commit : Bool) : State :=
  (s.offerRec r).named.foldl
    (fun s n => if some n.slot = keep then s
      else s.sendEvt (recCore r) (coxCore n.home) (.withdrawal n.home n.ev n.rank r commit) (chanUp r n.home)) s

/-- A hardware record that has ended is no longer held at its interface; an outlet's node learns how (R238). -/
def State.recEnded (s : State) (r : RecRef) : State := s.postOnce (.offerResult r)

/-- A record ends as TIMEDOUT, CANCELLED, NOTICED or refused: offers withdrawn, homes told, the result due (R260, R262). -/
def State.endRec (s : State) (r : RecRef) (st : OfSt) : State :=
  let s := s.withdraw r none false
  let s := s.modRec r fun x => { x with st := st, holder := none, benef := none, yielded := false }
  (s.notify r).recEnded r

/-- A deadline, a cancellation or a completion notice meets a record (R262); the record of a machine-checked core stays as it is (R350). -/
def State.meetRec (s : State) (r : RecRef) (st : OfSt) : State :=
  let x := s.offerRec r
  if (s.core (recCore r)).dead then s else
  match x.st with
  | .opened | .reserved => s.endRec r st
  | .held => s.modRec r fun x =>
    match st with
    | .timedout => { x with expired := true }
    | .cancelled => { x with cancelReq := true }
    | .noticed => { x with noticeReq := true }
    | _ => x
  | _ => s

/-- The end of an event meets a record whose offer names the event still (R262, R276). -/
def State.meetNamed (s : State) (r : RecRef) (ev : EvId) (st : OfSt) : State :=
  if (s.offerRec r).named.any fun n => n.ev == ev then s.meetRec r st else s

/-- A refusal meets a record (R256): at once when OPEN or RESERVED, kept when HELD, discarded otherwise. The refused
record is shown as CANCELLED with the detail kept. -/
def State.refuseRec (s : State) (r : RecRef) (detail : Nat) : State :=
  let x := s.offerRec r
  if (s.core (recCore r)).dead then s else
  match x.st with
  | .opened | .reserved => (s.modRec r fun x => { x with refused := some detail }).endRec r .cancelled
  | .held => s.modRec r fun x => { x with refused := some detail }
  | _ => s

/-- A home put among those that wait on a record. -/
def addWaiter (l : List Claimant) (e : Claimant) : List Claimant :=
  (l.filter fun w => !(w.home == e.home && w.ev == e.ev)) ++ [e]

/-- The home that waits on a record once it has released it: the holder, when it released on a yield which this record sent (R391). -/
def OfferRec.yielder (x : OfferRec) (onYield : Bool) : List Claimant := if onYield && x.yielded then x.holder.toList else []

/-- A HELD record is released by its holder (R260), in that rule's order of precedence; the beneficiary gets the
reservation when the release answers a yield, of this record or of another of the hold (log 20). A holder that yielded waits on the record (R259, R391), and learns of this change too. -/
def State.releaseRec (s : State) (r : RecRef) (onYield : Bool) : State :=
  let x := s.offerRec r
  let s := s.modRec r fun x => { x with waiters := (x.yielder onYield).foldl addWaiter x.waiters }
  match x.refused with
  | some _ => s.endRec r .cancelled
  | none =>
    if x.cancelReq then s.endRec r .cancelled
    else if x.noticeReq then s.endRec r .noticed
    else if x.expired then s.endRec r .timedout
    else match onYield, x.benef with
      | true, some b =>
        let p := (recCore r).pkg
        let t := s.time p + 2048
        let s := s.modRec r fun x => { x with st := .reserved, holder := none, yielded := false, until_ := t }
        (s.notify r).postAt p t (.reservationLapse r b.ev t)
      | _, _ => (s.modRec r fun x => { x with st := .opened, holder := none, benef := none, yielded := false }).notify r

/-! ## Claims and holds of a home (R258, R391) -/

/-- LIVE holds an offer for every rank (R257). -/
def EvRec.full (r : EvRec) : Bool := r.live.length == r.count

/-- A record put into ascending claim order. -/
def insRec (x : RecRef) : List RecRef → List RecRef
  | [] => [x]
  | y :: l => if recKey x < recKey y then x :: y :: l else y :: insRec x l
/-- The records of the live offers in claim order (R258). -/
def EvRec.order (r : EvRec) : List RecRef := r.live.foldl (fun l p => insRec p.2.who l) []
/-- The record that a claiming home has claimed, or claims next. -/
def EvRec.nextClaim (r : EvRec) : Option RecRef := r.order.find? fun x => !r.held.contains x

/-- A claiming home gives up: every record to which it has sent a claim not answered busy or gone is released, in descending
order, each release behind the claim; replies of the attempt will be discarded (R258, R260, R391). pend: the last claim is
unanswered. -/
def State.dropHolds (s : State) (home : Nat) (ev : EvId) (pend onYield : Bool) : State :=
  match s.evRec home ev with
  | none => s
  | some r =>
    let held := if pend && r.waitOn.isNone && r.st == .claiming then
      (match r.nextClaim with | some x => r.held ++ [x] | none => r.held) else r.held
    let s := held.reverse.foldl (fun s x =>
      s.sendEvt (coxCore home) (recCore x) (.release ⟨home, ev, x, r.defer, r.attempt⟩ onYield) (chanDown x home)) s
    s.setEv home { r with held := [], attempt := r.attempt + 1, waitOn := none }

/-- An event cancelled at its home (R276): at once, or after the commit in progress; every live offer meets R262, and so do
the offers that disseminate it (R271). An offer of a machine-checked core, whose record answers nothing, is live no longer (R350, log 55). -/
def State.cancelEv (s : State) (home : Nat) (ev : EvId) : State :=
  match s.evRec home ev with
  | none => s
  | some r =>
    if r.st = .committing then s.setEv home { r with cancelLater := true }
    else
      let s := s.dropHolds home ev true false
      let s := s.modEv home ev fun r => { r with st := .cancelled, window := r.window + 1,
                                                 live := r.live.filter fun p => !(s.core (recCore p.2.who)).dead }
      let s := r.live.foldl (fun s p => s.meetNamed p.2.who ev .cancelled) s
      let diss := s.cores.flatMap fun c => (c.2.strands.filter fun t =>
        t.2.offer.round.isSome && t.2.offer.named.any fun n => n.ev == ev).map fun t => (⟨coreOfKey c.1, t.1⟩ : StrandId)
      diss.foldl (fun s t => s.meetRec (.strand t) .cancelled) s

/-- An event deleted (R277): cancelled, and freed once no offer record refers to it. -/
def State.deleteEv (s : State) (home : Nat) (ev : EvId) : State :=
  let s := s.modEv home ev fun r => { r with dying := true }
  (s.cancelEv home ev).reap home ev

/-- A hardware participant of a core offers an event: its record stands at the core's interface (R272). n tells the records
of one class apart. -/
def State.hwOffer (s : State) (c : CoreId) (cls : HwClass) (n ctx : Nat) (h : Word) (rank : Nat) (contrib : Contrib) (sid : Nat)
    (outlet : Option (Nat × Nat)) : State :=
  let ev := s.evIdOf ctx c h
  let home := s.homeOf c ev
  let r : RecRef := .hw c cls n
  let x : OfferRec := { st := .opened, named := [⟨0, ev, home, rank, false, none⟩], contrib := contrib, serial := s.freeN }
  let s := s.fresh.modCore c fun k => { k with hwrecs := k.hwrecs ++ [⟨cls, n, x, sid, outlet⟩] }
  s.sendEvt c (coxCore home) (.offerArrival ⟨home, ev, r, 0, rank, hKind h, hSole h, contrib, none, false, x.serial⟩) (chanUp r home)

/-- A number for a new hardware record of a class at a core. -/
def Core.newHw (k : Core) (cls : HwClass) : Nat := ((k.hwrecs.filter fun h => h.cls == cls).map fun h => h.n + 1).foldl max 0

/-- A crew lies in the unit of a scope that holds a core (R23). -/
def State.crewInUnit (s : State) (c : CoreId) (sc : Scope) (crew : Nat) : Bool :=
  match sc with
  | .core | .crew => crew == c.crewNo
  | .reach => crewPkg crew == c.pkg && crewReach crew == c.reach
  | .pkg => crewPkg crew == c.pkg
  | .dom => (s.domainOf c.pkg).contains (crewPkg crew)

/-- A core lies in the unit of a scope that holds core c. -/
def State.coreInUnit (s : State) (c : CoreId) (sc : Scope) (d : CoreId) : Bool :=
  match sc with
  | .core => d == c
  | _ => s.crewInUnit c sc d.crewNo

/-- A record of the context in the unit that is not freed yet, an offer referring to it or a commit being in progress (R348). -/
def State.dyingIn (s : State) (c : CoreId) (sc : Scope) (ctx : Nat) : Bool :=
  s.crews.any fun p => s.crewInUnit c sc p.1 && p.2.events.any fun r => r.ev.ctx == ctx && r.dying

/-- The effect of evkill in the unit of a scope (R348): the context's events cancelled and freed, the offers of its strands and of its hardware
participants cancelled, whichever context their core serves by now, its timers stopped, its disseminations cancelled. The second value is the number of records freed. -/
def State.killCtx (s : State) (c : CoreId) (sc : Scope) (ctx : Nat) : State × Nat :=
  if ctx = 0 then (s, 0) else
  let crews := (s.crews.map Prod.fst).filter (s.crewInUnit c sc)
  let evs : List (Nat × EvId) :=
    crews.flatMap fun h => ((s.crew h).events.filter fun r => r.ev.ctx == ctx).map fun r => (h, r.ev)
  let s := crews.foldl (fun s h => s.modCrew h fun k => { k with timers := k.timers.filter fun t => t.ev.ctx != ctx }) s
  let s := evs.foldl (fun s p => s.deleteEv p.1 p.2) s
  let cores := ((s.cores.map fun p => coreOfKey p.1).filter fun d => s.coreInUnit c sc d)
  let s := cores.foldl (fun s d =>
    let s := if (s.core d).ctx = ctx then (s.core d).users.foldl (fun s u => s.meetRec (.strand ⟨d, u.1⟩) .cancelled) s else s
    ((s.core d).hwrecs.filter fun h => h.rec_.named.any fun n => n.ev.ctx == ctx).foldl (fun s h => s.meetRec (.hw d h.cls h.n) .cancelled) s) s
  (s, evs.length)

end Sys2Proof.Machine
end

