-- ==== Sys2Proof/Machine/Access.lean ====
section
/-! DEFINITION. Translation (R178 to R187), slice addresses (R188), the crew cache (R199, R200), combining (R204), and
accesses performed at once. -/

namespace Sys2Proof.Machine

/-- Memory detail codes (R190). -/
def dMFORM : Nat := 0x60
/-- MUNMAP. -/
def dMUNMAP : Nat := 0x61
/-- MPERM. -/
def dMPERM : Nat := 0x62
/-- MALIGN. -/
def dMALIGN : Nat := 0x63
/-- MSLICE. -/
def dMSLICE : Nat := 0x64
/-- MTABLE. -/
def dMTABLE : Nat := 0x65
/-- MKERNEL. -/
def dMKERNEL : Nat := 0x66
/-- MKEY. -/
def dMKEY : Nat := 0x67

/-- No code of the spec: an access waits at the interface (R189, R314, R315). -/
def dWait : Nat := 0x101
/-- No code of the spec: with the number of a line added, the slice that has the line answers RETRY (R188, R290). -/
def dRetry : Nat := 2 ^ 20
/-- A code says that an access has not been performed yet. -/
def isWait (d : Nat) : Bool := d == dWait || decide (dRetry ≤ d)

/-- MFORM of R178. -/
def mformOk (a : Word) : Bool :=
  if a.getLsbD 63 then bitsN a.toNat 32 17 == 0 else bitsN a.toNat 62 57 == 0

/-! ## The walk -/

/-- Page offset bits of a leaf at a level (R179). -/
def pageBits (lvl : Nat) : Nat :=
  match lvl with
  | 2 => 35 | 3 => 30 | 4 => 21 | _ => 16
/-- The index of a level in a virtual address (R179). -/
def walkIndex (lvl va : Nat) : Nat :=
  match lvl with
  | 1 => bitsN va 56 45 | 2 => bitsN va 44 35 | 3 => bitsN va 34 30 | 4 => bitsN va 29 21 | _ => bitsN va 20 16
/-- log2 of the size of a table of a level (R179). -/
def tableBits (lvl : Nat) : Nat :=
  match lvl with
  | 1 => 15 | 2 => 13 | 3 => 8 | 4 => 12 | _ => 8

/-- A 64-bit word of package memory read by physical address under key slot 0 (R186): none when that slot is empty. -/
def State.pread8 (s : State) (pkg pa : Nat) : Option Nat :=
  if (s.pkg pkg).keys.has 0 then some ((s.under 0 (memKey pkg pa) 8).readN (memKey pkg pa) 8) else none

/-- What an access performed at once meets on its way from a package to another: FLINK, or a wait for a port (R286, R287). -/
def State.way (s : State) (a b : Nat) : Option Nat :=
  if s.severed a b then some 0x94 else if s.blocked a b then some dWait else none

/-- The walk of R183 from a table of the first listed level; way: what its reads meet on their way to a package. -/
def State.walkFrom (s : State) (way : Nat → Option Nat) : List Nat → Nat → Nat → Nat → Except Nat (Word × Nat)
  | [], _, _, _ => .error dMTABLE
  | l :: rest, pkg, addr, va =>
    match way pkg, s.pread8 pkg (addr + 8 * walkIndex l va) with
    | some d, _ => .error d
    | none, none => .error dMKEY
    | none, some e =>
      let kind := bitsN e 2 1
      if e % 2 = 0 then .error dMUNMAP
      else if 2 ≤ kind then .error dMTABLE
      else if kind = 1 then
        if l = 1 ∨ bitsN e 63 56 ≠ 0 ∨ bitsN e 55 32 % 2 ^ (pageBits l - 16) ≠ 0 then .error dMTABLE
        else .ok (BitVec.ofNat 64 e, l)
      else if bitsN e 19 3 ≠ 0 ∨ (bitsN e 63 32 * 2 ^ 8) % 2 ^ tableBits (l + 1) ≠ 0 then .error dMTABLE
      else s.walkFrom way rest (bitsN e 31 20) (bitsN e 63 32 * 2 ^ 8) va

/-- The walk of R183 in a context, through the context table of a package (R180). -/
def State.walkBy (s : State) (way : Nat → Option Nat) (pkg ctx va : Nat) : Except Nat (Word × Nat) :=
  match s.pread8 pkg ((s.pkg pkg).ctxTab + 64 * ctx) with
  | none => .error dMKEY
  | some ce =>
    if ce % 2 = 0 then .error dMUNMAP
    else if bitsN ce 19 1 ≠ 0 then .error dMTABLE
    else s.walkFrom way [1, 2, 3, 4, 5] (bitsN ce 31 20) (bitsN ce 63 32 * 2 ^ 8) va
/-- That walk with every table within reach. -/
def State.walk (s : State) (pkg ctx va : Nat) : Except Nat (Word × Nat) := s.walkBy (fun _ => none) pkg ctx va

/-! ## Leaves (R182) -/

/-- FRAME. -/
def leafFrame (l : Word) : Nat := bitsN l.toNat 55 32
/-- HOME. -/
def leafHome (l : Word) : Nat := bitsN l.toNat 31 20
/-- KEY. -/
def leafKey (l : Word) : Nat := bitsN l.toNat 19 8
/-- KRES. -/
def leafKres (l : Word) : Bool := l.getLsbD 6
/-- U. -/
def leafU (l : Word) : Bool := l.getLsbD 5
/-- X. -/
def leafX (l : Word) : Bool := l.getLsbD 4
/-- W. -/
def leafW (l : Word) : Bool := l.getLsbD 3

/-- What an access needs of a leaf (R184). -/
inductive Need where
  | r | w | x
deriving DecidableEq, Repr

/-- A location of package memory: home, physical address, key, the leaf and level that gave it, and the context, address and lease of its
translation. -/
structure Xlat where
  pkg   : Nat
  pa    : Nat
  key   : Nat
  leaf  : Word
  level : Nat
  ctx   : Nat := 0
  va    : Nat := 0
  lease : Option Nat := none
deriving DecidableEq, Repr

/-- The location of a virtual address under a leaf of a level. -/
def xlatOf (e : TlbE) (va : Nat) : Xlat :=
  ⟨leafHome e.leaf, leafFrame e.leaf * 2 ^ 16 + va % 2 ^ pageBits e.level, leafKey e.leaf, e.leaf, e.level, e.ctx, va, e.lease⟩

/-- A frame of a package is kernel-reserved by its stack controllers' map, in force once the block is locked (R185, R372). -/
def Pkg.frameReserved (p : Pkg) (frame : Nat) : Bool :=
  p.isLocked && p.frameMap.any fun r => decide (r.2.1.toNat ≤ frame ∧ frame < r.2.1.toNat + r.2.2.toNat)

/-- The rights and state checks of a location, in the order of R198: MPERM, MKERNEL, MKEY. -/
def State.checkLoc (s : State) (super : Bool) (need : Need) (x : Xlat) : Option Nat :=
  if (!super && !leafU x.leaf) || (need == .w && !leafW x.leaf) || (need == .x && !leafX x.leaf) then some dMPERM
  else if leafKres x.leaf || (s.pkg x.pkg).frameReserved (x.pa / 2 ^ 16) then some dMKERNEL
  else if !(s.pkg x.pkg).keys.has x.key then some dMKEY
  else none

/-! ## Translation caches (R187) -/

/-- The entry that translates an address at a time. -/
def tlbFind (l : List TlbE) (ctx va now : Nat) : Option TlbE :=
  l.find? fun e => e.ctx == ctx && e.base == va / 2 ^ pageBits e.level
    && (match e.lease with | none => true | some t => decide (now < t))

/-- An entry put in front of a structure of a capacity; when it is full, a free victim leaves (log 10). -/
def tlbPush (cap n : Nat) (e : TlbE) (l : List TlbE) : List TlbE :=
  let l := l.filter fun x => !(x.ctx == e.ctx && x.level == e.level && x.base == e.base)
  e :: (if l.length < cap then l else l.eraseIdx (Config.freeVictim n % l.length))

/-- A core TLB filled. -/
def State.fillCore (s : State) (c : CoreId) (fetch : Bool) (e : TlbE) : State :=
  let s' := s.modCore c fun k =>
    if fetch then { k with itlb := tlbPush 32 s.freeN e k.itlb } else { k with dtlb := tlbPush 64 s.freeN e k.dtlb }
  s'.fresh

/-- The L2 TLB of a crew filled, and the owner cache for a leaf whose HOME is another package (R187). -/
def State.fillCrew (s : State) (crew : Nat) (e : TlbE) : State :=
  let s' := s.modCrew crew fun k =>
    { k with tlb := tlbPush 2048 s.freeN e k.tlb,
             owner := if leafHome e.leaf = crewPkg crew then k.owner else tlbPush 256 s.freeN e k.owner }
  s'.fresh

/-- A translation for a core: its TLB, the L2 TLB, the owner cache, then the walk (R187). -/
def State.translate (s : State) (c : CoreId) (ctx : Nat) (fetch : Bool) (va : Nat) : State × Except Nat TlbE :=
  let now := s.time c.pkg
  let k := s.core c
  match tlbFind (if fetch then k.itlb else k.dtlb) ctx va now with
  | some e => (s, .ok e)
  | none =>
    let w := s.crew c.crewNo
    match tlbFind w.tlb ctx va now with
    | some e => (s.fillCore c fetch e, .ok e)
    | none =>
      match tlbFind w.owner ctx va now with
      | some e => ((s.fillCrew c.crewNo e).fillCore c fetch e, .ok e)
      | none =>
        match s.walkBy (s.way c.pkg) c.pkg ctx va with
        | .error d => (s, .error d)
        | .ok (leaf, lvl) =>
          let e : TlbE := ⟨ctx, va / 2 ^ pageBits lvl, lvl, leaf, if leafHome leaf = c.pkg then none else some (now + 2 ^ 20)⟩
          ((s.fillCrew c.crewNo e).fillCore c fetch e, .ok e)

/-! ## Alarms (R349) -/

/-- Alarm of level 1: an entry in the alarm log. -/
def State.alarm1 (s : State) (pkg what : Nat) : State := s.modPkg pkg fun p => { p with alarms := p.alarms ++ [(1, what)] }

/-- Alarm of level 2: the context is fenced in the package, its events end, and every micro-kernel that serves it gets a
batten report. -/
def State.alarm2 (s : State) (pkg ctx : Nat) : State :=
  let s := s.modPkg pkg fun p =>
    { p with alarms := p.alarms ++ [(1, ctx), (2, ctx)], fenced := if p.fenced.contains ctx then p.fenced else p.fenced ++ [ctx] }
  let s := (s.killCtx ⟨pkg, 0, 0⟩ .pkg ctx).1
  let cs := (s.cores.map fun p => coreOfKey p.1).filter fun c => c.pkg == pkg && ctx != 0 && (s.core c).ctx == ctx
  cs.foldl (fun s c => s.postStep (.msg c [2, BitVec.ofNat 64 ctx])) s

/-- A port without a signal: DOWN, but a FAILED one stays so until the keel island resets it (R287). -/
def Port.noSignal (q : Port) : Port := if q.st = .failed then q else { q with st := .down }
/-- The links of a package dropped, at both ends (R287). -/
def State.linksDown (s : State) (pkg : Nat) : State :=
  let s := s.modPkg pkg fun p => { p with ports := p.ports.map fun q => (q.1, q.2.noSignal) }
  (List.range 36).foldl (fun s n => s.modPort (s.farPkg pkg n) (farPort n) Port.noSignal) s

/-- Alarm of level 3: keys zeroised, every core halted, links dropped, which leaves their far ends without a signal (R287), the package held
until an authenticated reset, and the fatal dump written (R349, R353). -/
def State.alarm3 (s : State) (pkg : Nat) : State :=
  let s := s.modPkg pkg fun p => { p with alarms := p.alarms ++ [(1, 3), (3, 3)], keys := [], held3 := true }
  let s := s.linksDown pkg
  { s with cores := s.cores.map fun p => if (coreOfKey p.1).pkg = pkg then (p.1, { p.2 with halted := true }) else p }

/-- A location for an access, with every check of R198 up to MKEY; MKERNEL raises the alarm (R185). -/
def State.locate (s : State) (c : CoreId) (ctx : Nat) (super fetch : Bool) (need : Need) (va : Nat) : State × Except Nat Xlat :=
  match s.translate c ctx fetch va with
  | (s, .error d) => (s, .error d)
  | (s, .ok e) =>
    let x := xlatOf e va
    match s.checkLoc super need x with
    | none => (s, .ok x)
    | some d => (if d = dMKERNEL then s.alarm2 c.pkg ctx else s, .error d)

/-! ## Slice addresses (R115, R188) -/

/-- A signed field of a relative address. -/
def relCoord (own field bits modulus : Nat) : Nat := ((own : Int) + sextN field bits).emod modulus |>.toNat

/-- The core and offset a slice address names for an access by core c; none when it names no core (R188). -/
def State.sliceOf (s : State) (c : CoreId) (a : Word) : Option (CoreId × Nat) :=
  let x := a.toNat
  let off := bitsN x 16 0
  if a.getLsbD 62 then
    let (ex, ey, ez) := s.extent c.pkg
    let p := pkgOf (relCoord (pkgX c.pkg) (bitsN x 53 50) 4 ex) (relCoord (pkgY c.pkg) (bitsN x 57 54) 4 ey)
      (relCoord (pkgZ c.pkg) (bitsN x 61 58) 4 ez)
    some (⟨p, relCoord c.col (bitsN x 49 41) 9 512, relCoord c.row (bitsN x 40 33) 8 200⟩, off)
  else
    let t : CoreId := ⟨bitsN x 61 50, bitsN x 49 41, bitsN x 40 33⟩
    if t.row < 200 ∧ s.pkgIn c.pkg t.pkg then some (t, off) else none

/-- A requester may use a core's slice (R19, R188). -/
def State.sliceAllowed (s : State) (super : Bool) (ctx : Nat) (t : CoreId) : Bool :=
  !(s.core t).retired && (super || ((s.core t).ctx == ctx && ctx != 0))

/-! ## The crew cache (R199, R200) -/

/-- A line's number in the cache: home package and line address. -/
def lineNo (pkg pa : Nat) : Nat := pkg * 2 ^ 34 + pa / 64
/-- The memory key of a line. -/
def lineKey (ln : Nat) : Nat := memKey (ln / 2 ^ 34) (ln % 2 ^ 34 * 64)

/-- Bytes of a list replaced from an offset. -/
def putBytes (l : List Byte) (off : Nat) (bs : List Byte) : List Byte := l.take off ++ bs ++ l.drop (off + bs.length)

/-- The migration record or wake entry of the frame that holds a physical address (R312, R313). -/
def State.wakeAt (s : State) (pkg pa : Nat) : Option Wake :=
  (s.pkg pkg).wakes.find? fun w => decide (w.oldFrame ≤ pa / 2 ^ 16) && decide (pa / 2 ^ 16 < w.oldFrame + (if w.big then 32 else 1))

/-- The place at which an access that reaches a home is performed: the new home once the frame is a wake, and during the copy for a line
that is already copied; a frame there that is itself a wake leads on (R312 to R314). fuel: wakes in a row. -/
def State.wakeWalk (s : State) : Nat → Nat → Nat → Nat × Nat
  | 0, pkg, pa => (pkg, pa)
  | n + 1, pkg, pa =>
    match s.wakeAt pkg pa with
    | some w =>
      if w.cut || decide ((pa - w.oldFrame * 2 ^ 16) / 64 < w.copied) then
        s.wakeWalk n w.newPkg (w.newFrame * 2 ^ 16 + (pa - w.oldFrame * 2 ^ 16))
      else (pkg, pa)
    | none => (pkg, pa)
/-- That place for up to 16 wakes in a row (log 32). -/
def State.wakeKey (s : State) (pkg pa : Nat) : Nat × Nat := s.wakeWalk 16 pkg pa

/-- What is on the way from a package to the place at which an access to a home is performed: FLINK, or a wait for a port, on the way to the
home or from there to where a wake leads (R286, R287, R313). -/
def State.wayTo (s : State) (own pkg pa : Nat) : Option Nat :=
  match s.way own pkg with
  | some d => some d
  | none => s.way pkg (s.wakeKey pkg pa).1

/-- The memory key at which a byte of a home is performed. -/
def State.homeKey (s : State) (pkg pa : Nat) : Nat := let (p, a) := s.wakeKey pkg pa; memKey p a

/-- Bits off to off + n − 1 of a dirty mask. -/
def maskOf (off n : Nat) : BitVec 64 := BitVec.ofNat 64 ((2 ^ n - 1) * 2 ^ off)
/-- A line's bytes: own where the mask is set, those of its home elsewhere. -/
def mergeLine (mask : BitVec 64) (own home : List Byte) : List Byte :=
  (List.range 64).map fun i => if mask.getLsbD i then own.getD i 0 else home.getD i 0

/-- A tick has passed, as a home judges LEXP (R316). -/
def leaseLate (now lexp : Nat) : Bool :=
  let late := (now % 2 ^ 32 + 2 ^ 32 - lexp % 2 ^ 32) % 2 ^ 32
  decide (1 ≤ late) && decide (late ≤ 2 ^ 31)

/-- The location at which what a crew holds under a lease is sent to its home: the one it holds, or where a new walk leads after the lease has
lapsed; none where that walk fails (R316, log 31). -/
def State.anew (s : State) (crew : Nat) (x : Xlat) : Option Xlat :=
  if (match x.lease with | some t => leaseLate (s.time x.pkg) t | none => false) then
    match s.walk (crewPkg crew) x.ctx x.va with
    | .ok (leaf, lvl) => some (xlatOf ⟨x.ctx, 0, lvl, leaf, none⟩ x.va)
    | .error _ => none
  else some x

/-- The location that a line of the cache was filled for. -/
def CLine.loc (l : CLine) (ln : Nat) : Xlat := ⟨ln / 2 ^ 34, ln % 2 ^ 34 * 64, l.key, 0, 5, l.src.1, l.src.2, l.lease⟩

/-- Where a line's write-back goes, with the key slot (R316). -/
def State.backTo (s : State) (crew ln : Nat) (l : CLine) : Option (Nat × Nat) :=
  (s.anew crew (l.loc ln)).map fun x => (s.homeKey x.pkg (x.pa / 64 * 64), x.key)

/-- A home takes no write-back: no way leads there, or its key slot is empty (R186, R286, log 63). -/
def State.refuses (s : State) (from_ k slot : Nat) : Bool :=
  s.severed from_ (k / 2 ^ 40) || !(s.pkg (k / 2 ^ 40)).keys.has slot

/-- What a crew has to send to a location's home waits: no port on its way works now (R182, R287, log 32). -/
def State.awaits (s : State) (crew : Nat) (x : Xlat) : Bool :=
  match s.anew crew x with
  | some y => (s.wayTo (crewPkg crew) y.pkg y.pa).any isWait
  | none => false
/-- A line whose write-back waits for a port. -/
def State.stuckLine (s : State) (crew : Nat) (p : Nat × CLine) : Bool := p.2.dirty && s.awaits crew (p.2.loc p.1)

/-- A dirty line's dirty bytes written to its home; a write-back that is refused is lost (R199, log 63), and one that waits for a port leaves the
line dirty (R287, log 32). -/
def State.writeBack (s : State) (crew ln : Nat) : State :=
  match (s.crew crew).lines.find? fun p => p.1 == ln with
  | some (_, l) =>
    if s.stuckLine crew (ln, l) then s
    else if l.dirty then
      let s := match s.backTo crew ln l with
        | some (k, slot) =>
          if s.refuses (crewPkg crew) k slot then s
          else
            let s := s.under slot k 64
            s.writeBs k (mergeLine l.mask l.bytes (s.mem.readBytes k 64))
        | none => s
      s.modCrew crew fun k => { k with lines := k.lines.set ln { l with mask := 0, writers := [] } }
    else s
  | none => s

/-- The requests of a crew in flight, of those that satisfy f, whose answer would stay in its cache: fills, and write-through stores with a copy
kept. -/
def State.keepers (s : State) (crew : Nat) (f : Req → Bool) : List (Nat × Nat) :=
  s.cores.flatMap fun k =>
    if (coreOfKey k.1).crewNo = crew then (k.2.reqs.filter fun r => r.2.data.getD 0 0 != 0 && f r.2).map fun r => (k.1, r.1) else []
/-- Their answers are not to be kept any more: the cache has given up or refreshed those lines since (R199, R355, log 31). -/
def State.voidReqs (s : State) (crew : Nat) (f : Req → Bool) : State :=
  match (s.keepers crew f).filter fun x => !(s.crew crew).voided.contains x with
  | [] => s
  | l => s.modCrew crew fun k => { k with voided := k.voided ++ l }
/-- The place in memory of a line of the cache, wherever wakes lead. -/
def State.lineHome (s : State) (ln : Nat) : Nat := s.homeKey (ln / 2 ^ 34) (ln % 2 ^ 34 * 64)
/-- The same for the requests to the lines that satisfy f. -/
def State.voidFills (s : State) (crew : Nat) (f : Nat → Bool) : State :=
  s.voidReqs crew fun r => f (lineNo (r.data.getD 1 0) (r.data.getD 2 0))
/-- The same for the requests to a line, whichever locator they go by. -/
def State.voidLine (s : State) (crew ln : Nat) : State := s.voidFills crew fun n => s.lineHome n == s.lineHome ln

/-- A line dropped from a cache. -/
def State.dropLine (s : State) (crew ln : Nat) : State :=
  (s.voidLine crew ln).modCrew crew fun k => { k with lines := k.lines.del ln }
/-- A line dropped that has nothing to be written back any more. -/
def State.dropCleaned (s : State) (crew ln : Nat) : State :=
  if (s.crew crew).lines.any fun p => p.1 == ln && p.2.dirty then s else s.dropLine crew ln

/-! ### Redirects (R314) -/

/-- A leaf with another home and frame. -/
def leafMove (l : Word) (pkg frame : Nat) : Word :=
  BitVec.ofNat 64 (bitsN l.toNat 63 56 * 2 ^ 56 + frame % 2 ^ 24 * 2 ^ 32 + pkg % 2 ^ 12 * 2 ^ 20 + bitsN l.toNat 19 0)

/-- The entries of a page given a new locator and a fresh lease. -/
def tlbMove (ctx va own pkg frame now : Nat) (l : List TlbE) : List TlbE :=
  l.map fun e => if e.ctx = ctx ∧ e.base = va / 2 ^ pageBits e.level then
    { e with leaf := leafMove e.leaf pkg frame, lease := if pkg = own then none else some (now + 2 ^ 20) } else e

/-- A redirect taken by a crew: its locator replaced in the L2 TLB and the owner cache (which keeps no leaf of the own package, R187), and its
lines of the old frame written back and dropped; one whose write-back waits for a port stays. -/
def State.crewRedirect (s : State) (crew ctx va : Nat) (big : Bool) (old : Nat × Nat) (pkg frame : Nat) : State :=
  let own := crewPkg crew
  let now := s.time own
  let first := lineNo old.1 (old.2 * 2 ^ 16)
  let n := if big then 32768 else 1024
  let within (ln : Nat) : Bool := decide (first ≤ ln) && decide (ln < first + n)
  let s := ((s.crew crew).lines.filter fun p => within p.1).foldl (fun s p => (s.writeBack crew p.1).dropCleaned crew p.1) s
  (s.voidFills crew within).modCrew crew fun k =>
    { k with tlb := tlbMove ctx va own pkg frame now k.tlb,
             owner := (tlbMove ctx va own pkg frame now k.owner).filter fun e => leafHome e.leaf != own }

/-- A line cleaned. A write-back that meets a wake at its home is relayed to the new home, whose redirect the crew takes (R199, R313, R314). -/
def State.cleanLine (s : State) (crew ln : Nat) : State :=
  match (s.crew crew).lines.find? fun p => p.1 == ln with
  | some (_, l) =>
    match (if l.dirty then s.anew crew (l.loc ln) else none).bind fun x => (s.wakeAt x.pkg x.pa).map fun w => (x, w) with
    | some (x, w) =>
      if w.cut then (s.writeBack crew ln).crewRedirect crew x.ctx x.va w.big (x.pkg, w.oldFrame) w.newPkg w.newFrame
      else s.writeBack crew ln
    | none => s.writeBack crew ln
  | none => s

/-- A line cleaned and dropped; it stays while its write-back waits for a port. -/
def State.evictLine (s : State) (crew ln : Nat) : State := (s.cleanLine crew ln).dropCleaned crew ln

/-- The lines of a cache, other than a location's own, that hold the same line of memory under another locator (R199). -/
def State.aliases (s : State) (crew : Nat) (x : Xlat) : List Nat :=
  let h := s.homeKey x.pkg (x.pa / 64 * 64)
  ((s.crew crew).lines.filter fun p => p.1 != lineNo x.pkg x.pa && (s.backTo crew p.1 p.2).any fun k => k.1 == h).map Prod.fst
/-- They are cleaned and dropped: the cache works on one copy of a line of memory (R199, R360). -/
def State.soleLine (s : State) (crew : Nat) (x : Xlat) : State := (s.aliases crew x).foldl (fun s ln => s.evictLine crew ln) s
/-- A location's line cleaned and dropped under every locator. -/
def State.evictAt (s : State) (crew : Nat) (x : Xlat) : State := (s.soleLine crew x).evictLine crew (lineNo x.pkg x.pa)

/-- A line that can leave a full cache: a free one of those whose write-back does not wait for a port (log 10). -/
def State.victim (s : State) (crew : Nat) : Option Nat :=
  match ((s.crew crew).lines.filter fun p => !s.stuckLine crew p).map Prod.fst with
  | [] => none
  | l => some (l.getD (Config.freeVictim s.freeN % l.length) 0)

/-- A line present: fetched from its home when absent; a full cache evicts a free victim first (R199, log 10). -/
def State.fillLine (s : State) (crew : Nat) (x : Xlat) : State :=
  let s := s.soleLine crew x
  let ln := lineNo x.pkg x.pa
  let k := s.crew crew
  if k.lines.has ln then s
  else
    let s := if k.lines.length < 4096 then s
      else match s.victim crew with
        | some v => (s.evictLine crew v).fresh
        | none => s
    let at_ := s.homeKey x.pkg (x.pa / 64 * 64)
    let bs := (s.under x.key at_ 64).mem.readBytes at_ 64
    s.modCrew crew fun k => { k with lines := k.lines.set ln ⟨bs, 0, [], x.key, (x.ctx, x.va / 64 * 64), x.lease⟩ }

/-- n bytes of a present line. -/
def State.lineRead (s : State) (crew pkg pa n : Nat) : Nat :=
  match (s.crew crew).lines.find? fun p => p.1 == lineNo pkg pa with
  | some (_, l) => leNat ((l.bytes.drop (pa % 64)).take n)
  | none => 0
/-- n bytes of a present line written; dirty by a core of the crew. -/
def State.lineWrite (s : State) (crew pkg pa n x : Nat) (who : Nat) : State :=
  s.modCrew crew fun k =>
    match k.lines.find? fun p => p.1 == lineNo pkg pa with
    | some (ln, l) =>
      let ws := if l.writers.contains who then l.writers else l.writers ++ [who]
      let l' := { l with bytes := putBytes l.bytes (pa % 64) (leBytes n x), mask := l.mask ||| maskOf (pa % 64) n, writers := ws }
      { k with lines := k.lines.set ln l' }
    | none => k

/-! ## Redirects of a core (R314) -/

/-- An access of a core to a page is outstanding. -/
def Core.asksPage (k : Core) (tag : Nat × Nat) : Bool := k.reqs.any fun r => r.2.page == some tag

/-- A redirect taken by a core: its locator replaced as its crew does, and in the data TLB, and the page marked settling where an access to it is
outstanding. -/
def State.redirectTo (s : State) (c : CoreId) (ctx va : Nat) (big : Bool) (old : Nat × Nat) (pkg frame : Nat) : State :=
  let now := s.time c.pkg
  let tag := pageTag big ctx va
  (s.crewRedirect c.crewNo ctx va big old pkg frame).modCore c fun k =>
    { k with dtlb := tlbMove ctx va c.pkg pkg frame now k.dtlb,
             settling := if k.settling.contains tag || !k.asksPage tag then k.settling else k.settling ++ [tag] }

/-- A core's access that meets a wake at its home and is performed at once: the relay and the redirect come about in the same step, and again
at a frame that is itself a wake (R313, R314). fuel: wakes in a row. -/
def State.chaseBy (s : State) (c : CoreId) (ctx va : Nat) (x : Xlat) : Nat → State × Xlat
  | 0 => (s, x)
  | n + 1 =>
    match s.wakeAt x.pkg x.pa with
    | some w =>
      if w.cut then
        let s := s.redirectTo c ctx va w.big (x.pkg, w.oldFrame) w.newPkg w.newFrame
        let now := s.time c.pkg
        s.chaseBy c ctx va
          { x with pkg := w.newPkg, pa := w.newFrame * 2 ^ 16 + (x.pa - w.oldFrame * 2 ^ 16), leaf := leafMove x.leaf w.newPkg w.newFrame,
                   lease := if w.newPkg = c.pkg then none else some (now + 2 ^ 20) } n
      else (s, x)
    | none => (s, x)
/-- The same for up to 16 wakes in a row (log 32). -/
def State.chase (s : State) (c : CoreId) (ctx va : Nat) (x : Xlat) : State × Xlat := s.chaseBy c ctx va x 16

/-! ## Combining (R204) -/

/-- A machine check at a core: it stops, and its crew's lead core gets a report (R350); one that the keel island cannot contain, a free outcome,
makes it write a dump (R353, log 26). -/
def State.machineCheck (s : State) (c : CoreId) (detail : Nat) : State :=
  let s := s.modCore c fun k => { k with mcheck := some detail }
  let s := if Config.freeOutcome s.freeN then s else s.modPkg c.pkg fun p => { p with dumpWhy := some (17 + 2 ^ 8 * detail) }
  let s := s.fresh
  let lead := crewCore c.crewNo (s.crew c.crewNo).lead.toNat
  let rep : Report := { slot := 0, cause := 17, detail := detail, strand := StrandId.gid ⟨c, 0⟩, info2 := BitVec.ofNat 64 c.key }
  if lead = c then s
  else (s.modCore lead fun k => { k with reports := k.reports ++ [rep] }).postOnce (.trapDelivery lead)

/-- The location that a combining entry holds. -/
def Comb.loc (e : Comb) : Xlat := ⟨e.pkg, e.pa, e.key, 0, 5, e.ctx, e.va, e.lease⟩

/-- A context is fenced in a package: the package refuses its packets (R349). -/
def State.fencedAt (s : State) (pkg ctx : Nat) : Bool := (s.pkg pkg).fenced.contains ctx
/-- A package refuses an access to its memory by a core of package own that is performed at once. DEDUCED: a supervisor's accesses to the memory of
its own package are no packets to it (R349, log 58). -/
def State.fencedFor (s : State) (own pkg ctx : Nat) : Bool := (ctx != 0 || own != pkg) && s.fencedAt pkg ctx

/-- The place of a combining entry in memory. -/
def State.combHome (s : State) (crew : Nat) (e : Comb) : Nat :=
  let x := (s.anew crew e.loc).getD e.loc
  s.homeKey x.pkg x.pa
/-- A crew still has to send something to a location's line of memory, and it waits for a port: a write-back, or the flush of an entry there. -/
def State.stuckAt (s : State) (crew : Nat) (x : Xlat) : Bool :=
  let h := s.homeKey x.pkg (x.pa / 64 * 64)
  ((s.crew crew).lines.any fun p => s.stuckLine crew p && (s.backTo crew p.1 p.2).any fun k => k.1 == h)
    || (s.crew crew).comb.any fun e => s.combHome crew e / 64 * 64 == h && s.awaits crew e.loc

/-- An access of a core performed at once reaches its home and, by its redirects, the place of the page now: the context fenced there is FTARGET
(R349), no way FLINK (R286), a frame there that is kernel-reserved MKERNEL with its alarm (R185), a key slot without a key there MKEY (R186); it
waits for a port, and for what its crew still has to send to the line. An error is a detail code. -/
def State.arrive (s : State) (c : CoreId) (ctx va : Nat) (x : Xlat) : State × Except Nat Xlat :=
  if s.fencedFor c.pkg x.pkg ctx then (s, .error 0x93)
  else
    let (s, x) := s.chase c ctx va x
    let (p, a) := s.wakeKey x.pkg x.pa
    match s.wayTo c.pkg x.pkg x.pa with
    | some d => (s, .error d)
    | none =>
      if s.fencedFor c.pkg x.pkg ctx || s.fencedFor c.pkg p ctx then (s, .error 0x93)
      else if s.stuckAt c.crewNo x then (s, .error dWait)
      else if (s.pkg p).frameReserved (a / 2 ^ 16) then (s.alarm2 p ctx, .error dMKERNEL)
      else if !(s.pkg p).keys.has x.key then (s, .error dMKEY)
      else (s, .ok x)

/-- A combining entry flushed: its partial performed as one operation, in the crew cache or at the home by its widest scope; lost with a
machine check at its opener where the home refuses it or no way leads there (R204). The entry's location is walked anew after its lease (R316),
and a wake there redirects the opener (R313); while its way waits for a port the entry stays (log 32). DEDUCED: where that walk fails, the home's
refusal is for good (log 31). -/
def State.flushComb (s : State) (crew : Nat) (e : Comb) : State :=
  let u := s.modCrew crew fun k => { k with comb := k.comb.filter fun x => x != e }
  let n := e.sz.bytes
  let c := coreOfKey e.opener
  match s.anew crew e.loc with
  | none => u.machineCheck c 0xB4
  | some x =>
    match u.arrive c e.ctx e.va x with
    | (u, .error d) => if isWait d then s else u.machineCheck c 0xB4
    | (u, .ok x) =>
      if e.scope.inCrew then
        let u := u.fillLine crew x
        u.lineWrite crew x.pkg x.pa n (atomNew e.op n (u.lineRead crew x.pkg x.pa n) e.part.toNat 0) c.local_
      else
        let u := u.evictAt crew x
        let k := u.homeKey x.pkg x.pa
        let u := u.under x.key k n
        u.writeN k n (atomNew e.op n (u.readN k n) e.part.toNat 0)

/-- Combining entries that satisfy f flushed, oldest first. -/
def State.flushCombs (s : State) (crew : Nat) (f : Comb → Bool) : State :=
  ((s.crew crew).comb.filter f).foldl (fun s e => s.flushComb crew e) s

/-- Entries at a location flushed before a non-.c access of the crew reaches it (R204). -/
def State.flushAt (s : State) (crew pkg pa n : Nat) : State :=
  let h := s.homeKey pkg pa
  s.flushCombs crew fun e => let k := s.combHome crew e; decide (k < h + n) && decide (h < k + e.sz.bytes)

/-- A load performed: in the crew cache for plain accesses and scopes core and crew, otherwise at the home after the
cache's copy has been cleaned and invalidated (R199, R200). -/
def State.memLoad (s : State) (crew : Nat) (wide : Bool) (x : Xlat) (n : Nat) : State × Nat :=
  let s := s.flushAt crew x.pkg x.pa n
  if wide then
    let s := s.evictAt crew x
    let k := s.homeKey x.pkg x.pa
    (s, (s.under x.key k n).readN k n)
  else
    let s := s.fillLine crew x
    (s, s.lineRead crew x.pkg x.pa n)

/-- Bytes that a store has written at the home put into a present line, but for those that are dirty. -/
def State.linePatch (s : State) (crew pkg pa n v : Nat) : State :=
  s.modCrew crew fun k =>
    match k.lines.find? fun p => p.1 == lineNo pkg pa with
    | some (ln, l) => { k with lines := k.lines.set ln { l with bytes := mergeLine l.mask l.bytes (putBytes l.bytes (pa % 64) (leBytes n v)) } }
    | none => k

/-- A store performed: in the crew cache, or at the home after a dirty copy of the line has been cleaned, with a clean copy
kept (R199, R200). -/
def State.memStore (s : State) (crew : Nat) (who : Nat) (wide : Bool) (x : Xlat) (n v : Nat) : State :=
  let s := s.flushAt crew x.pkg x.pa n
  if wide then
    let s := ((s.soleLine crew x).cleanLine crew (lineNo x.pkg x.pa)).voidLine crew (lineNo x.pkg x.pa)
    let k := s.homeKey x.pkg x.pa
    let s := (s.under x.key k n).writeN k n v
    (s.fillLine crew x).linePatch crew x.pkg x.pa n v
  else
    let s := s.fillLine crew x
    s.lineWrite crew x.pkg x.pa n v who

/-- An atomic performed at its home (R203): the old value. -/
def State.memAtom (s : State) (crew : Nat) (who : Nat) (wide : Bool) (x : Xlat) (op : AtomOp) (n v expect : Nat) : State × Nat :=
  let s := s.flushAt crew x.pkg x.pa n
  if wide then
    let s := s.evictAt crew x
    let k := s.homeKey x.pkg x.pa
    let s := s.under x.key k n
    let old := s.readN k n
    (s.writeN k n (atomNew op n old v expect), old)
  else
    let s := s.fillLine crew x
    let old := s.lineRead crew x.pkg x.pa n
    (s.lineWrite crew x.pkg x.pa n (atomNew op n old v expect) who, old)

/-- The wider of two scopes. -/
def scopeMax (a b : Scope) : Scope := if a.num ≤ b.num then b else a

/-- The base value with which a combining entry opens: the home's, or the crew cache's at scope core or crew (R204). -/
def State.combBase (s : State) (crew : Nat) (sc : Scope) (x : Xlat) (n : Nat) : State × Nat :=
  if sc.inCrew then
    let s := s.fillLine crew x
    (s, s.lineRead crew x.pkg x.pa n)
  else
    let s := s.evictAt crew x
    let k := s.homeKey x.pkg x.pa
    (s, (s.under x.key k n).readN k n)

/-- The combining entry of a key (R365). -/
def State.combFind (s : State) (crew ctx : Nat) (x : Xlat) (op : AtomOp) (sz : Sz) : Option Comb :=
  (s.crew crew).comb.find? fun e =>
    e.ctx == ctx && s.combHome crew e == s.homeKey x.pkg x.pa && e.op == op && e.sz == sz

/-- The entries at a location flushed before a .c operation of another operation or size there (R204). -/
def State.flushOthers (s : State) (crew ctx : Nat) (x : Xlat) (op : AtomOp) (sz : Sz) : State :=
  let h := s.homeKey x.pkg x.pa
  s.flushCombs crew fun e =>
    let k := s.combHome crew e
    e.ctx == ctx && decide (k < h + sz.bytes) && decide (h < k + e.sz.bytes) && !(k == h && e.op == op && e.sz == sz)

/-- A .c operation combined (R204): the old value it returns. base: the home's value already fetched, if any. -/
def State.memComb (s : State) (c : CoreId) (slot ctx : Nat) (sc : Scope) (x : Xlat) (op : AtomOp) (sz : Sz) (v : Nat)
    (base : Option Nat) : State × Nat :=
  let crew := c.crewNo
  let n := sz.bytes
  let s := s.flushOthers crew ctx x op sz
  match s.combFind crew ctx x op sz with
  | some e =>
    let e' := { e with part := BitVec.ofNat 64 (atomNew op n e.part.toNat v 0), scope := scopeMax e.scope sc,
                       users := if e.users.any (fun u => u == (c.key, slot, sc)) then e.users else e.users ++ [(c.key, slot, sc)] }
    (s.modCrew crew fun k => { k with comb := k.comb.map fun y => if y = e then e' else y }, atomNew op n e.base.toNat e.part.toNat 0)
  | none =>
    let s := if (s.crew crew).comb.length < 64 then s
      else match (s.crew crew).comb.find? fun e => !s.awaits crew e.loc with | some e => s.flushComb crew e | none => s
    let (s, b) := match base with
      | some b => (s, b)
      | none => s.combBase crew sc x n
    let e : Comb := ⟨ctx, x.pkg, x.pa, x.key, op, sz, BitVec.ofNat 64 b,
      BitVec.ofNat 64 (atomNew op n (atomIdentity op n) v 0), sc, [(c.key, slot, sc)], c.key, x.va, x.lease⟩
    (s.modCrew crew fun k => { k with comb := k.comb ++ [e] }, b)

/-- Every line of the cache that a core wrote is cleaned (R205). -/
def State.cleanWrittenBy (s : State) (crew who : Nat) : State :=
  ((s.crew crew).lines.filter fun p => p.2.dirty && p.2.writers.contains who).foldl (fun s p => s.cleanLine crew p.1) s
/-- A line that a core wrote has to be cleaned, and its write-back waits for a port. -/
def State.stuckWrites (s : State) (c : CoreId) : Bool :=
  (s.crew c.crewNo).lines.any fun p => p.2.writers.contains c.local_ && s.stuckLine c.crewNo p
/-- A combining entry that satisfies f has to be flushed, and its way waits for a port. -/
def State.stuckCombs (s : State) (crew : Nat) (f : Comb → Bool) : Bool := (s.crew crew).comb.any fun e => f e && s.awaits crew e.loc
/-- Every clean line of the cache is invalidated, and the clean bytes of the others are what their homes hold (R205); no answer in flight is
kept (log 31). -/
def State.dropClean (s : State) (crew : Nat) : State :=
  let s := s.voidFills crew fun _ => true
  s.modCrew crew fun k =>
    { k with lines := (k.lines.filter fun p => p.2.dirty).map fun p =>
        match s.backTo crew p.1 p.2 with
        | some (h, slot) => (p.1, { p.2 with bytes := mergeLine p.2.mask p.2.bytes ((s.under slot h 64).mem.readBytes h 64) })
        | none => p }

/-! ## Accesses by hardware, performed at once (log 32) -/

/-- A requester of accesses performed at once: the core at whose interface they are made, and what the access in hand has met so far (R188). -/
structure Asker where
  core : CoreId
  mark : Mark := none
deriving DecidableEq, Repr

/-- A strand as a requester. -/
def State.asker (s : State) (t : StrandId) : Asker := ⟨t.core, (s.strand t).retry⟩
/-- A hardware part of a core as a requester. -/
def State.partOf (s : State) (c : CoreId) (n : Nat) : Asker := ⟨c, (s.core c).retries.get none n⟩
/-- What is known of an access after an answer: since when a line answers RETRY, nothing after another answer. -/
def markAfter (m : Mark) (now d : Nat) : Mark :=
  if d < dRetry then none
  else match m with
    | some (l, t) => if l = d - dRetry then some (l, t) else some (d - dRetry, now)
    | none => some (d - dRetry, now)
/-- A strand's access has met a code. -/
def State.waited (s : State) (t : StrandId) (d : Nat) : State :=
  s.modStrand t fun x => { x with retry := markAfter x.retry (s.time t.core.pkg) d }
/-- The access of a hardware part has met a code; 0 for none. -/
def State.partMet (s : State) (c : CoreId) (n d : Nat) : State :=
  s.modCore c fun k => { k with retries := k.retries.set n (markAfter (k.retries.get none n) (s.time c.pkg) d) }
/-- RETRY has come from a line of a slice for 10,000 ticks (R188). -/
def State.retryOver (s : State) (q : Asker) (ln : Nat) : Bool :=
  match q.mark with
  | some (l, t) => l == ln && decide (t + 10000 ≤ s.time q.core.pkg)
  | none => false

/-- The slice and offset of n bytes at a slice address for a requester; an error is a detail code: a refusal that goes on for 10,000 ticks is
MSLICE (R188), a fenced context FTARGET (R349), no way FLINK (R286). -/
def State.sliceAt (s : State) (q : Asker) (ctx : Nat) (super : Bool) (a : Word) (n : Nat) : Except Nat (CoreId × Nat) :=
  match s.sliceOf q.core a with
  | some (t, off) =>
    if !s.sliceAllowed super ctx t || decide (131072 < off + n) then .error dMSLICE
    else if t = q.core then .ok (t, off)
    else if s.severed q.core.pkg t.pkg then .error 0x94
    else if s.fencedAt t.pkg ctx then .error 0x93
    else if (s.core t).dead then (if s.retryOver q (sliceLine t off) then .error dMSLICE else .error (dRetry + sliceLine t off))
    else .ok (t, off)
  | none => .error dMSLICE

/-- The location of a virtual address for a core, after every check, a redirect and the way there; an error is a detail code. -/
def State.memAt (s : State) (c : CoreId) (ctx : Nat) (super fetch : Bool) (need : Need) (a : Word) : State × Except Nat Xlat :=
  match s.locate c ctx super fetch need a.toNat with
  | (s, .error d) => (s, .error d)
  | (s, .ok x) => s.arrive c ctx a.toNat x

/-- n bytes at an address of a context read for a core, at package scope or by a plain access through the crew cache (R199); an error is a
detail code. -/
def State.readAt (s : State) (q : Asker) (ctx : Nat) (super wide : Bool) (a : Word) (n : Nat) : State × Except Nat Nat :=
  if !mformOk a then (s, .error dMFORM)
  else if a.getLsbD 63 then
    match s.sliceAt q ctx super a n with
    | .ok (t, off) => (s, .ok (s.sread t off n))
    | .error d => (s, .error d)
  else
    match s.memAt q.core ctx super false .r a with
    | (s, .error d) => (s, .error d)
    | (s, .ok x) => let (s, v) := s.memLoad q.core.crewNo wide x n; (s, .ok v)

/-- The line of memory of the number of a line, wherever wakes lead; a line of a slice is itself (R314, R315). -/
def State.homeLine (s : State) (line : Nat) : Nat :=
  if 0 < line ∧ line ≤ 2 ^ 46 then s.homeKey ((line - 1) / 2 ^ 34) ((line - 1) % 2 ^ 34 * 64) / 64 + 1 else line
/-- A request of a core to the line of package memory of a location is outstanding, under whichever locator (R315). -/
def State.busyMem (s : State) (c : CoreId) (x : Xlat) : Bool :=
  (s.core c).reqs.any fun r => r.2.line != 0 && s.homeLine r.2.line == s.homeKey x.pkg x.pa / 64 + 1

/-- An access of a core to an address waits at the interface: an access to its line is outstanding, its page settles, or no port on its way
works now (R189, R287, R314, R315). -/
def State.waitsAt (s : State) (c : CoreId) (ctx : Nat) (a : Word) : Bool :=
  let k := s.core c
  if a.getLsbD 63 then match s.sliceOf c a with
    | some (t, off) => t != c && (k.busyLine (sliceLine t off) || s.blocked c.pkg t.pkg)
    | none => false
  else match (s.translate c ctx false a.toNat).2 with
    | .ok e => let x := xlatOf e a.toNat
      s.busyMem c x || k.settles (pageTag (x.level == 4) ctx a.toNat) || s.blocked c.pkg x.pkg
    | .error d => isWait d

/-- n bytes at an address of a context read for a core at package scope; an error is a detail code. -/
def State.readVa (s : State) (q : Asker) (ctx : Nat) (super : Bool) (a : Word) (n : Nat) : State × Except Nat Nat :=
  if s.waitsAt q.core ctx a then (s, .error dWait) else s.readAt q ctx super true a n
/-- n bytes at an address of a context read for a core by a plain access, through the crew cache (R199). -/
def State.readPlain (s : State) (q : Asker) (ctx : Nat) (super : Bool) (a : Word) (n : Nat) : State × Except Nat Nat :=
  if s.waitsAt q.core ctx a then (s, .error dWait) else s.readAt q ctx super false a n

/-- n bytes at an address of a context written for a core at package scope, whatever is outstanding; an error is a detail code. -/
def State.writeNow (s : State) (q : Asker) (ctx : Nat) (super : Bool) (a : Word) (n v : Nat) : State × Option Nat :=
  if !mformOk a then (s, some dMFORM)
  else if a.getLsbD 63 then
    match s.sliceAt q ctx super a n with
    | .ok (t, off) => (s.swrite t off n v, none)
    | .error d => (s, some d)
  else
    match s.memAt q.core ctx super false .w a with
    | (s, .error d) => (s, some d)
    | (s, .ok x) => (s.memStore q.core.crewNo q.core.local_ true x n v, none)
/-- n bytes at an address of a context written for a core at package scope; an error is a detail code. -/
def State.writeVa (s : State) (q : Asker) (ctx : Nat) (super : Bool) (a : Word) (n v : Nat) : State × Option Nat :=
  if s.waitsAt q.core ctx a then (s, some dWait) else s.writeNow q ctx super a n v

/-- Words read in turn from an address upward, 8 bytes each. -/
def State.readWords (s : State) (q : Asker) (ctx : Nat) (super : Bool) (a : Word) : Nat → State × Except Nat (List Word)
  | 0 => (s, .ok [])
  | n + 1 =>
    match s.readVa q ctx super a 8 with
    | (s, .error d) => (s, .error d)
    | (s, .ok v) =>
      match s.readWords q ctx super (a + 8) n with
      | (s, .error d) => (s, .error d)
      | (s, .ok r) => (s, .ok (BitVec.ofNat 64 v :: r))

/-- Words written in turn from an address upward; the first failure ends the run. -/
def State.writeWords (s : State) (q : Asker) (ctx : Nat) (super : Bool) (a : Word) : List Word → State × Option Nat
  | [] => (s, none)
  | w :: r =>
    match s.writeVa q ctx super a 8 w.toNat with
    | (s, some d) => (s, some d)
    | (s, none) => s.writeWords q ctx super (a + 8) r
end Sys2Proof.Machine
end

