-- ==== Sys2Proof/Machine/Ops.lean ====
section
/-! DEFINITION. What issuing an instruction does around its meaning (R32, R40, R69, R104), taking a fault: trap records,
TRAPVEC, upcalls and notices (R318 to R328), yield points (R335), and requests over the network (R282, R283). -/

namespace Sys2Proof.Machine

/-- What a step answers. -/
abbrev Out := Host.Outcome State Fault Refusal

/-! ## Causes (R320) -/

/-- The cause number of a detail code (R320); 0x61 of a parked access (cause 7) and fetch faults (cause 2) are named
where they are raised. -/
def causeOf (detail : Nat) : Nat :=
  if detail ≤ 0x07 then 1
  else if detail ≤ 0x12 then 2
  else if detail ≤ 0x46 then 3
  else if detail ≤ 0x56 then 4
  else if detail = dMTABLE ∨ detail = dMKERNEL ∨ detail = dMKEY then 6
  else if detail ≤ 0x6E then 5
  else if detail = 0x77 ∨ detail = 0x88 ∨ detail = 0x95 then 11
  else if detail ≤ 0x7B then 8
  else if detail ≤ 0x8C then 9
  else if detail ≤ 0x99 then 10
  else if detail ≤ 0xA3 then 15
  else 17

/-- Causes delivered to a user strand as upcalls (R320). -/
def upcallCause (cause : Nat) : Bool := [3, 4, 5, 7, 8, 9, 10, 12].contains cause

/-- CAUSEW of a report (R321). -/
def Report.causew (r : Report) : Word :=
  BitVec.ofNat 64 (r.ctx % 2 ^ 16 * 2 ^ 48 + r.inner % 256 * 2 ^ 32 + r.arg % 256 * 2 ^ 24 + r.detail % 256 * 2 ^ 8 + r.cause % 256)

/-- A fault of a detail code, precise at the instruction at a PC. -/
def faultAt (pc : Word) (detail : Nat) : Report := { cause := causeOf detail, detail := detail, fpc := pc, rpc := pc }
/-- A fault precise at the executing strand's instruction. -/
def State.fault (s : State) (detail : Nat) : Report := faultAt s.me.pc detail
/-- An illegal-instruction fault with its ARG (R71). -/
def State.illegal (s : State) (detail arg : Nat) : Report := { s.fault detail with arg := arg }
/-- A fault of an access: a memory code's address in INFO0, 0 with a code of another kind (R322). -/
def State.faultA (s : State) (detail : Nat) (a : Word) : Report :=
  { s.fault detail with info0 := if 0x60 ≤ detail ∧ detail ≤ 0x6E then a else 0 }

/-! ## Traps to the micro-kernel (R322, R323) -/

/-- The words of a trap record but for KPC (R322). -/
def Report.words (r : Report) : List Word :=
  [r.rpc, r.fpc, r.causew, r.info0, r.info1, r.info2, BitVec.ofNat 64 (r.strand % 2 ^ 32), r.info3, 0, 0, 0, 0, 0, 0, 0]

/-- The address of a record. -/
def Core.record (c : Core) (slot : Nat) : Word := c.traprec + BitVec.ofNat 64 (128 * slot)

/-- A report delivered to slot 0: its record and record 0's KPC written, TDIS set, PC at TRAPVEC, a checked transfer
(R323). A write that faults is a machine check 0xB1 (R322); an error is a code of isWait, and nothing is done yet. q: the core's trap unit as a
requester. -/
def State.enterTrap (s : State) (q : Asker) (c : CoreId) (r : Report) (kpc : Word) : Except Nat State :=
  let k := s.core c
  let bad (s : State) (d : Nat) : Except Nat State := if isWait d then .error d else .ok (s.machineCheck c 0xB1)
  match s.writeWords q 0 true (k.record r.slot) (r.words ++ [if r.slot = 0 then kpc else 0]) with
  | (s, some d) => bad s d
  | (s, none) =>
    match s.writeVa q 0 true (k.record 0 + 0x78) 8 kpc.toNat with
    | (s, some d) => bad s d
    | (s, none) =>
      let s := s.modCore c fun k => { k with tdis := true }
      .ok (s.modStrand ⟨c, 0⟩ fun t => { t with pc := k.trapvec, checkT := true, mode := .ready, stalled := false, retry := none })

/-- An upcall or trap of a strand that is taken at the strand's turn, since an access to its record has met a code of isWait. -/
def State.takeLater (s : State) (t : StrandId) (r : Report) (d : Nat) : State :=
  (s.waited t d).modStrand t fun x => { x with taking := some r, mode := .ready }

/-- A fault of slot 0 itself: at once, or a machine check 0xB1 while TDIS is set (R319). KPC is the RPC of the fault. -/
def State.superFault (s : State) (c : CoreId) (r : Report) : State :=
  if (s.core c).tdis then s.machineCheck c 0xB1
  else match s.enterTrap (s.asker ⟨c, 0⟩) c r r.rpc with
    | .ok s => s
    | .error d => s.takeLater ⟨c, 0⟩ r d

/-- A report left for slot 0 of a core, to be delivered when TDIS is clear (R323). -/
def State.report (s : State) (c : CoreId) (r : Report) : State :=
  (s.modCore c fun k => { k with reports := k.reports ++ [r] }).postOnce (.trapDelivery c)

/-- A user strand's fault that goes to the micro-kernel: TRAPPED, and a report (R323). -/
def State.trapUser (s : State) (t : StrandId) (r : Report) : State :=
  (s.modStrand t fun x => { x with mode := .trapped, retry := none }).report t.core r

/-! ## Upcalls (R325 to R328) -/

/-- A report turned into one of cause UPCALL (R320, R326). -/
def Report.asUpcall (r : Report) (detail inner : Nat) : Report := { r with cause := 15, detail := detail, inner := inner, arg := 0 }

/-- The address of a strand's save record (R325). -/
def Strand.recAddr (t : Strand) : Word := t.uprec &&& ~~~(0x3F#64)

/-- INUSE of a strand's save record; an error is a detail code, or a code of isWait. -/
def State.inUse (s : State) (t : StrandId) : State × Except Nat Bool :=
  match s.readVa (s.asker t) (s.ctxOf t) false ((s.strand t).recAddr + 0x38) 8 with
  | (s, .ok v) => (s, .ok (v % 2 == 1))
  | (s, .error d) => (s, .error d)

/-- An upcall to a user strand (R326). -/
def State.upcall (s : State) (t : StrandId) (r : Report) : State :=
  let st := s.strand t
  if st.upvec = 0 then s.trapUser t (r.asUpcall 0xA2 0)
  else match s.inUse t with
    | (s', .error d) => if isWait d then s.takeLater t r d else s'.trapUser t (r.asUpcall 0xA1 r.cause)
    | (s', .ok true) => s'.trapUser t (r.asUpcall 0xA0 0)
    | (s', .ok false) =>
      match s'.writeWords (s.asker t) (s.ctxOf t) false st.recAddr
          [r.rpc, r.fpc, r.causew, r.info0, r.info1, st.rg 62, st.rg 63, 1] with
      | (s'', some d) => if isWait d then s.takeLater t r d else s''.trapUser t (r.asUpcall 0xA1 r.cause)
      | (s, none) =>
        s.modStrand t fun x => { (x.wg 62 st.recAddr).wg 63 r.causew with pc := st.upvec, checkT := true, mode := .ready, retry := none }

/-- A fault of S closes S's capture (R133). DEDUCED: the trap instruction (cause 13) counts as such a fault (log 64). -/
def State.seqFault (s : State) (t : StrandId) (detail : Nat) : State :=
  if detail ≠ 0x46 ∧ (s.core t.core).seq = .capturing t.slot then s.modCore t.core fun k => { k with seq := .idle, run := [] }
  else s

/-- TAKING AN EXCEPTION: a fault of a strand goes to the micro-kernel or as an upcall, by the table of R320; every fault
of slot 0 goes to the micro-kernel. A notice (cause 12) is no fault and leaves a capture open (R133). -/
def State.raise (s : State) (t : StrandId) (r : Report) (up : Bool) : State :=
  let s := if r.cause = 12 then s else s.seqFault t r.detail
  let s := s.modStrand t fun x => { x with issued := none, hold := .none, stalled := false, checkT := false, atYield := false, retry := none }
  let r := { r with slot := t.slot, strand := t.gid, ctx := s.ctxOf t }
  if t.slot = 0 then s.superFault t.core r
  else if up then s.upcall t r
  else s.trapUser t r

/-- A fault of the executing strand, delivered by its cause (R320). -/
def State.raiseMe (s : State) (r : Report) : State := s.raise s.cur r (upcallCause r.cause)

/-- A notice as a report with RPC given (R325, R326). -/
def noticeReport (n : Notice) (rpc : Word) : Report :=
  { cause := 12, detail := n.detail, arg := n.park, fpc := n.fpc, rpc := rpc, info0 := n.value }

/-- The oldest queued notice delivered as an upcall when INUSE is 0, RPC at the strand's PC (R328). -/
def State.deliverNotice (s : State) (t : StrandId) : State :=
  match (s.strand t).notices with
  | [] => s
  | n :: rest =>
    match s.inUse t with
    | (s', .ok true) => s'
    | (s', r) =>
      if match r with | .error d => isWait d | .ok _ => false then
        s.takeLater t { cause := 0 } (match r with | .error d => d | .ok _ => 0)
      else
      let s := s'.modStrand t fun x => { x with notices := rest }
      s.raise t (noticeReport n (s.strand t).pc) true

/-! ## BUDGET and yield points (R104, R335) -/

/-- The ceiling for a strand's role (R344). -/
def Core.ceiling (c : Core) (role : BitVec 2) : BitVec 12 := if role = 0 then c.wdogRes else c.wdogHnd

/-- BUDGET reloaded at a yield point (R104); slot 0 has none (R318). -/
def State.reload (s : State) (t : StrandId) (dl : BitVec 12) (live : BitVec 8) : State :=
  if t.slot = 0 then s
  else
    let c := (s.core t.core).ceiling (s.strand t).role
    s.modStrand t fun x => { x with left := if c < dl then c else dl, live := live }

/-- BUDGET[11:0] lowered by one when an instruction issues (R104). DEDUCED: it stays 0 where a yield point that faults before its reload counts at
0 (log 39). -/
def State.charge (s : State) : State :=
  if s.cur.slot = 0 ∨ s.me.issued ≠ none then s
  else s.modMe fun t => { t with left := if t.left = 0 then 0 else t.left - 1 }

/-- The PC moved to the next slot; the instruction has completed (R32). -/
def State.advance (s : State) : State :=
  s.modMe fun t => { t with pc := nextPc t.pc, issued := none, hold := .none, stalled := false, checkT := false, atYield := false, retry := none }

/-- The end of a yield point, the strand at the PC where it goes on: a pending smove takes the strand, otherwise a queued
notice is delivered (R335). -/
def State.yieldEnd (s : State) (t : StrandId) : State :=
  match (s.strand t).taker with
  | some _ => s.modStrand t fun x => { x with mode := .taken, checkT := false }
  | none => (s.modStrand t fun x => { x with atYield := true }).deliverNotice t

/-! ## Issue -/

/-- What the effect of an instruction comes to. -/
inductive Res where
  /-- It completes; the PC moves to the next slot. -/
  | ok (s : State)
  /-- It transfers control; check: the transfer is one that R34 lists. -/
  | jump (s : State) (pc : Word) (check : Bool)
  /-- Its operand condition is unmet or its engine's queue is full: it has not issued (R21). -/
  | stall
  /-- It has issued and holds its strand (R21). -/
  | hold (s : State)
  /-- It faults, precise at itself or with the RPC in the report. -/
  | fault (s : State) (r : Report)
  /-- It has placed the strand itself: ended, halted, entered a handler. -/
  | placed (s : State)

/-- The guard holds (R40). -/
def Strand.guard (t : Strand) (g : Guard) : Bool := t.rp g.p != g.neg

/-- A turn of a strand whose upcall or trap waited: it is taken, or waits on. -/
def State.takeOn (s : State) (t : StrandId) (r : Report) : State :=
  let s := s.modStrand t fun x => { x with taking := none }
  if r.cause = 0 then s.deliverNotice t else if t.slot = 0 then s.superFault t.core r else s.upcall t r

/-- The outcome of an effect put into the state; s0 is the state before the instruction. One that meets an access which waits at the interface
or meets RETRY has issued and has done nothing yet: it begins anew at its next turn (R188, R189, R315). -/
def finish (i : Instr) (s0 : State) (yp : Bool) : Res → State
  | .ok s => s.advance
  | .jump s pc check =>
    s.modMe fun t => { t with pc := pc, checkT := check, issued := none, hold := .none, stalled := false, atYield := false, retry := none }
  | .stall => s0.modMe fun t => { t with stalled := true }
  | .hold s => s.modMe fun t => { t with issued := some i, stalled := false, checkT := false, atYield := false }
  | .fault s r =>
    if isWait r.detail then
      ((if yp then s0 else s0.charge).waited s0.cur r.detail).modMe fun t =>
        { t with issued := some i, stalled := false, checkT := false, atYield := false }
    else (if yp then s.charge else s).raiseMe r
  | .placed s => s

/-- ISSUING AN INSTRUCTION: check 10 of R69 whatever the guard, BUDGET (R104), the guard (R40), then the effect. -/
def issue (i : Instr) (g : Guard) (sup yp : Bool) (body : State → Res) (s : State) : Out :=
  if sup && s.cur.slot != 0 then .next (s.charge.raiseMe (s.illegal 6 0))
  else if !s.me.guard g then .next s.charge.advance
  else .next (finish i s yp (body (if yp then s else s.charge)))

/-- A user and supervisor instruction that is no yield point. -/
def issueU (i : Instr) (g : Guard) (body : State → Res) (s : State) : Out := issue i g false false body s
/-- A supervisor-only instruction (R64). -/
def issueS (i : Instr) (g : Guard) (body : State → Res) (s : State) : Out := issue i g true false body s
/-- A yield point. -/
def issueY (i : Instr) (g : Guard) (body : State → Res) (s : State) : Out := issue i g false true body s

/-! ## Requests (R282, R283) -/

/-- A packet sent from one core toward another: it starts at the sender's router (R281). -/
def State.send (s : State) (src dst : CoreId) (i : Instr) : State :=
  s.post { step := i, route := if src = dst then .here else .router src.pkg src.col src.row dst 0 }

/-- A reply of a core to a request's sender (R290). -/
def State.answer (s : State) (h : Hdr) (st : ReplyStatus) (cause inner : Nat) (data : List Word) : State :=
  s.send h.target h.src (.reply { src := h.target, dst := h.src, rtag := h.rtag, status := st, cause := cause, inner := inner, data := data })

/-- The cause with which a malformed packet is refused (R289). DESIGN CHOICE: of several faults of one packet the one with the lowest number is
named (log 58). -/
def oddCause (o : Odd) : Option Nat :=
  if o.opc then some 1 else if o.sub then some 2 else if o.len then some 3 else if o.rsvd ≠ 0 then some 4 else none

/-- A packet that is malformed is dropped, counted and refused (R289), with the data that go back to its sender; otherwise what its form does. -/
def State.wellMade (s : State) (h : Hdr) (data : List Word) (k : Out) : Out :=
  match oddCause h.odd with
  | some c => .next ((s.modCore h.target fun k => { k with drops := k.drops + 1 }).answer h .nack c 0 data)
  | none => k
/-- A packet at a core's interface: RETRY of a machine-checked core (R350), else what R289 and its form say. -/
def State.receive (s : State) (h : Hdr) (data : List Word) (k : Out) : Out :=
  if (s.core h.target).dead then .next (s.answer h .retry 0 0 data) else s.wellMade h data k

/-- A packet of a fenced context is refused (R349). -/
def State.fencedHdr (s : State) (h : Hdr) : Bool := (s.pkg h.target.pkg).fenced.contains h.ctx

/-- The core position of the stack controller that holds a physical address: the first core of the stack's reach
(R182; PRESUMED, log 22). -/
def memCore (pkg pa : Nat) : CoreId := ⟨pkg, bitsN pa 38 36 * 64, bitsN pa 39 39 * 100⟩

/-- The tag after a tag that no outstanding request has: tags are 16 bits wide (R282, R283). -/
def tagAfter (reqs : SMap Req) (tag : Nat) : Nat :=
  (((List.range (reqs.length + 1)).map fun i => (tag + 1 + i) % 2 ^ 16).find? fun t => !reqs.has t).getD 0

/-- A request entered at a core's network interface under a tag that no other has, and sent (R283). -/
def State.request (s : State) (c : CoreId) (slot : Nat) (use : ReqUse) (dst : CoreId) (line : Nat) (data : List Nat)
    (mk : Nat → Instr) : State × Nat :=
  let tag := (s.core c).nextTag
  let r : Req := ⟨slot, use, mk tag, dst, line, s.time c.pkg, data, (s.core c).reqNo⟩
  let s := s.modCore c fun k => { k with nextTag := tagAfter (k.reqs.set tag r) tag, reqs := k.reqs.set tag r, reqNo := k.reqNo + 1 }
  (s.send c dst (mk tag), tag)

/-- The executing strand sends a request and waits for its answer. -/
def State.ask (s : State) (dst : CoreId) (line : Nat) (mk : Nat → Instr) : Res :=
  let (s, tag) := s.request s.cur.core s.cur.slot .strand dst line [] mk
  .hold (s.modMe fun t => { t with hold := .wait tag, mode := .waiting })

/-- Hold at a numbered point with data: the strand looks again at its next turn. -/
def State.at_ (s : State) (k : Nat) (xs : List Nat) : Res := .hold (s.modMe fun t => { t with hold := .phase k xs })

end Sys2Proof.Machine
end

