-- ==== Sys2Proof/Machine/Strand.lean ====
section
/-! DEFINITION. Starting, ending and moving strands: images (R329), starts (R330), ends (R331), context changes
(R18, R53), and what a move leaves behind (R332, R333). -/

namespace Sys2Proof.Machine

/-! ## Images (R329) -/

/-- A field of an image word. -/
def fieldOf (w : Word) (hi lo : Nat) : Nat := bitsN w.toNat hi lo

/-- BIND of an e register (R329). -/
def bindWord : Option Bind → Word
  | none => 0
  | some .cp => BitVec.ofNat 64 (2 ^ 18 + 2 ^ 19)
  | some (.data c d) => BitVec.ofNat 64
      ((c.getD 0).toNat + (d.getD 0).toNat * 2 ^ 8 + (if c = none then 2 ^ 16 else 0) + (if d = none then 2 ^ 17 else 0) + 2 ^ 19)

/-- The binding of a BIND word; none where a reserved bit is set. -/
def bindOf (w : Word) : Option (Option Bind) :=
  let x := w.toNat
  if bitsN x 7 6 ≠ 0 ∨ bitsN x 15 14 ≠ 0 ∨ bitsN x 63 20 ≠ 0 then none
  else if !w.getLsbD 19 then some none
  else if w.getLsbD 18 then some (some .cp)
  else some (some (.data (if w.getLsbD 16 then none else some (BitVec.ofNat 6 x))
    (if w.getLsbD 17 then none else some (BitVec.ofNat 6 (x / 2 ^ 8)))))

/-- A notice's four words (R329). -/
def noticeWords (n : Notice) : List Word := [BitVec.ofNat 64 (n.park % 256 + n.detail % 256 * 256), n.value, n.fpc, 0]

/-- Word i of the image of a strand of a context; g registers outside the live groups are free values (R106, log 11). -/
def imageWord (t : Strand) (ctx free i : Nat) : Word :=
  if i = 0 then t.pc
  else if i = 1 then BitVec.ofNat 64
    (ctx * 2 ^ 48 + t.live.toNat * 2 ^ 32 + t.left.toNat * 2 ^ 8 + t.notices.length % 16 * 2 ^ 4 + t.role.toNat)
  else if i = 2 then t.sticky
  else if i = 3 then t.upvec
  else if i = 4 then t.uprec
  else if i = 5 then BitVec.ofNat 64 (t.p.toNat / 2 * 2)
  else if i < 8 then 0
  else if i < 24 then t.e.get eReset (i - 8)
  else if i < 88 then
    let r := i - 24
    if r = 0 then 0 else if t.live.getLsbD (r / 8) then t.g.get 0 r else Config.freeReg (free + r)
  else if i < 104 then bindWord (if t.binds.has (i - 88) then some (t.binds.get .cp (i - 88)) else none)
  else if i < 120 then ((t.notices.flatMap noticeWords).getD (i - 104) 0)
  else 0

/-- The image of a strand. -/
def imageOf (t : Strand) (ctx free : Nat) : List Word := (List.range 128).map (imageWord t ctx free)

/-- The notices of an image. -/
def imageNotices (ws : List Word) : Nat → Nat → List Notice
  | 0, _ => []
  | n + 1, k =>
    let w := ws.getD (104 + 4 * k) 0
    ⟨fieldOf w 7 0, fieldOf w 15 8, ws.getD (105 + 4 * k) 0, ws.getD (106 + 4 * k) 0⟩ :: imageNotices ws n (k + 1)

/-- The bindings of an image from e register k on; none where one fails. -/
def imageBinds (ws : List Word) : Nat → Nat → Option (SMap Bind)
  | 0, _ => some []
  | n + 1, k =>
    match bindOf (ws.getD (88 + k) 0), imageBinds ws n (k + 1) with
    | some (some b), some r => some ((k, b) :: r)
    | some none, some r => some r
    | _, _ => none

/-- A run of image words as a sparse map. -/
def imageMap (ws : List Word) (off n : Nat) : SMap Word := (List.range n).map fun i => (i, ws.getD (off + i) 0)

/-- The strand of an image in a context; none where R329 refuses it. DEDUCED: the image has no field for a deadline of its most recent yield; one
started from an image in memory has that of its BUDGET, the value that sstart set (R104, log 45). -/
def strandOfImage (ws : List Word) (ctx : Nat) : Option Strand :=
  let w := ws.getD 1 0
  let p := ws.getD 5 0
  if fieldOf w 47 40 ≠ 0 ∨ fieldOf w 31 20 ≠ 0 ∨ fieldOf w 3 2 ≠ 0 ∨ 4 < fieldOf w 7 4 ∨ fieldOf w 1 0 = 3
      ∨ fieldOf p 63 8 ≠ 0 ∨ fieldOf p 0 0 ≠ 0 ∨ ws.getD 6 0 ≠ 0 ∨ ws.getD 7 0 ≠ 0 ∨ fieldOf w 63 48 ≠ ctx then none
  else match imageBinds ws 16 0 with
    | none => none
    | some bs =>
      let left := BitVec.ofNat 12 (fieldOf w 19 8)
      let live := BitVec.ofNat 8 (fieldOf w 39 32)
      some { mode := .ready, pc := ws.getD 0 0, role := BitVec.ofNat 2 (fieldOf w 1 0), sticky := ws.getD 2 0 &&& 0xF1F#64,
             upvec := ws.getD 3 0, uprec := ws.getD 4 0 &&& ~~~(0x3F#64), p := BitVec.ofNat 8 p.toNat,
             left := left, live := live, lastDl := left, lastLive := live,
             e := imageMap ws 8 16, g := (imageMap ws 24 64).filter fun q => q.1 != 0, binds := bs,
             notices := imageNotices ws (fieldOf w 7 4) 0 }

/-! ## Contexts (R18, R53, R226) -/

/-- A request of an engine, or of pairs, that its core no longer knows: its answer goes nowhere (R53, log 23). -/
def Req.orphan (r : Req) : Req :=
  { r with use := match r.use with | .vector | .copy _ | .course _ _ | .shed => .none | u => u }

/-- A core begins to serve a context: slice, tiles and rings at reset, remaining work of the old context dropped with
every engine command of it, whose requests are answered to nobody and whose courses' offers are nobody's (log 23), translation buffers, instruction and rule caches cleared, a new
capability key, and the context's registers loaded with the values recorded for it. -/
def State.serve (s : State) (c : CoreId) (ctx : Nat) : State :=
  let info : SMap Word := (s.pkg c.pkg).ctxInfo.get [] ctx
  let s := s.clearSlice c
  s.modCore c fun k =>
    { k with ctx := ctx, tiles := [], readers := [], deferred := [], rings := [], bag := [], inbox := [], ovfHead := 0,
             ovfTail := 0, ovfAddr := [], remote := [], starts := [], rules := [], icache := [], itlb := [], dtlb := [], capGen := k.capGen + 1,
             spillHead := 0, spillTail := 0, retries := k.retries.filter fun p => p.1 == 0 || p.1 == 3,
             hwrecs := k.hwrecs.map fun h => if h.cls = .course then { h with outlet := none } else h, seq := .idle, run := [], vbuf := [], vcur := none, vwait := none, mq := [],
             mcur := none, copies := [], courses := [], reqs := k.reqs.map fun r => (r.1, r.2.orphan),
             rulebase := info.get 0 0x0200, shellbase := info.get 0 0x0201,
             handlertab := info.get 0 0x0202, spillbase := info.get 0 0x0203, evarea := info.get 0 0x0204 }

/-! ## Starts (R330) -/

/-- A strand that starts at an entry PC. -/
def freshStrand (m : StartMsg) (ceil : BitVec 12) : Strand :=
  let dl := BitVec.ofNat 12 m.deadline
  { mode := .ready, pc := m.pc, checkT := true, role := BitVec.ofNat 2 m.role, left := if ceil < dl then ceil else dl,
    live := 0xFF, lastDl := dl, lastLive := 0xFF }

/-- The lowest free slot of 1 to 7. -/
def Core.freeSlot (c : Core) : Option Nat := [1, 2, 3, 4, 5, 6, 7].find? fun i => (c.strand i).mode == .free

/-- An id in a course's instances, running or queued, replaced: the strand that has begun them has another one now, or none (R309). -/
def Course.renamed (x : Course) (old : Nat) (new_ : Option Nat) : Course :=
  let out (o : Option Nat) : Option Nat := if o = some old then new_ else o
  { x with starter := out x.starter, queued := x.queued.map fun q => (q.1, out q.2) }

/-- An id that names no strand. -/
def noSid : Nat := 2 ^ 32
/-- A strand has another id, or has ended: the courses it has begun and the outlets it has wired, at any core, know it by that (R238, R309). -/
def State.renamed (s : State) (old : Nat) (new_ : Option Nat) : State :=
  { s with cores := s.cores.map fun k => (k.1, { k.2 with
      courses := k.2.courses.map fun c => (c.1, c.2.renamed old new_),
      hwrecs := k.2.hwrecs.map fun h => if h.cls == .net && h.sid == old then { h with sid := new_.getD noSid } else h }) }

/-- The strand of an image that a start's message carries: a moved strand keeps the deadline and the live mask of its most recent yield (R104). -/
def startedStrand (m : StartMsg) (t : Strand) : Strand :=
  match m.last with
  | some (d, l) => { t with lastDl := d, lastLive := l }
  | none => t

/-- A start placed in a slot; one from an image drops the clean lines of the crew's cache first (R333). -/
def State.startIn (s : State) (c : CoreId) (slot : Nat) (m : StartMsg) : State :=
  let now := s.time c.pkg
  let s := s.modCore c fun k => { k with forwards := k.forwards.filter fun f => f.old != StrandId.gid ⟨c, slot⟩ || decide (now < f.until_) }
  match m.image with
  | none => s.setStrand ⟨c, slot⟩ (freshStrand m ((s.core c).ceiling (BitVec.ofNat 2 m.role)))
  | some ws =>
    match strandOfImage ws m.hdr.ctx with
    | some t =>
      let s := match m.moved with | some k => s.renamed (StrandId.gid ⟨m.hdr.src, k⟩) (some (StrandId.gid ⟨c, slot⟩)) | none => s
      (s.dropClean c.crewNo).setStrand ⟨c, slot⟩ (startedStrand m t)
    | none => s

/-- A slot is free: the head of the start queue takes it (R330, R331). -/
def State.takeQueued (s : State) (c : CoreId) (slot : Nat) : State :=
  match (s.core c).starts with
  | [] => s
  | q :: r => (s.modCore c fun k => { k with starts := r }).startIn c slot q.msg

/-- The outcome of a start at its target: 0 started, 1 queued, 2 refused, with the id or the reason (R330). A move is
never queued (R332). -/
def State.placeStart (s : State) (c : CoreId) (m : StartMsg) : State × Nat × Nat :=
  let k := s.core c
  let ctx := m.hdr.ctx
  let other := k.ctx ≠ 0 ∧ k.ctx ≠ ctx
  if k.retired ∨ ¬ (s.pkgIn c.pkg c.pkg) ∨ 200 ≤ c.row then (s, 2, 1)
  else if other ∧ (¬ k.users.isEmpty ∨ (k.hasWork ∧ ¬ m.super0)) then (s, 2, if m.moved.isSome then 1 else 3)
  else
    let s := if k.ctx = ctx then s else s.serve c ctx
    let k := s.core c
    if m.image.any fun ws => (strandOfImage ws ctx).isNone then (s, 2, 4)
    else match k.freeSlot with
      | some slot => (s.startIn c slot m, 0, StrandId.gid ⟨c, slot⟩)
      | none =>
        if m.moved.isNone ∧ k.starts.length < 16 then
          (s.modCore c fun k => { k with starts := k.starts ++ [⟨m⟩] }, 1, StrandId.gid ⟨c, 0⟩)
        else (s, 2, 2)

/-! ## Ends (R331) -/

/-- A strand's .c entries flushed (R204). -/
def State.flushOwn (s : State) (t : StrandId) : State :=
  s.flushCombs t.core.crewNo fun e => e.users.any fun u => u.1 == t.core.key && u.2.1 == t.slot

/-- A slot that no strand has: engine commands of ended strands carry it, so that their STICKY bits go nowhere. -/
def noSlot : Nat := 8

/-- A command's slot cleared. -/
def disownCmd (slot : Nat) (c : Cmd) : Cmd := if c.slot = slot then { c with slot := noSlot } else c

/-- A request without its strand: pairs that it carries still come back to the core (R235, R243). -/
def Req.disowned (r : Req) : Req :=
  { r with slot := noSlot, use := match r.use, r.pkt with
      | .strand, .pairPush _ | .strand, .pairShed _ => .shed
      | .strand, _ | .store _, _ => .none
      | u, _ => u }

/-- The engine commands and requests of a slot left to complete without their strand (R156, R331). -/
def Core.disown (k : Core) (slot : Nat) : Core :=
  { k with
    run := k.run.map (disownCmd slot), vbuf := k.vbuf.map (disownCmd slot), vcur := k.vcur.map (disownCmd slot),
    mq := k.mq.map (disownCmd slot), mcur := k.mcur.map (disownCmd slot),
    copies := k.copies.map fun x => if x.slot = slot then { x with slot := noSlot } else x,
    reqs := k.reqs.map fun r => if r.2.slot = slot then (r.1, r.2.disowned) else r,
    hwrecs := k.hwrecs.map fun h => match h.cls, h.outlet with
      | .net, some (x, o) => if x = slot then { h with outlet := some (noSlot, o) } else h
      | _, _ => h,
    seq := match k.seq with
      | .capturing x => if x = slot then .idle else k.seq
      | .looping x _ _ => if x = slot then .idle else k.seq
      | .idle => .idle }

/-- Parked accesses taken out of the crew's fault buffer: their MAP bits and COUNT; an entry at COUNT 0 is freed (R331). -/
def State.unpark (s : State) (t : StrandId) : State :=
  let ctx := s.ctxOf t
  (s.strand t).parks.foldl (fun s p =>
    if p.2.inBuf then
      s.modCrew t.core.crewNo fun k =>
        { k with fbuf := (k.fbuf.map fun e =>
            if e.ctx = ctx ∧ e.page = bitsN p.2.addr.toNat 56 16 then
              { e with map := e.map.filter fun x => x != (t.core.local_, t.slot), count := e.count - 1 }
            else e).filter fun e => e.count != 0 }
    else s) s

/-- A strand's record is HELD by a home: an end or a move waits (R331). -/
def State.heldRec (s : State) (t : StrandId) : Bool := (s.strand t).offer.st == .held

/-- The strand that an id names now: a forwarding entry at a core leads to where its strand has moved, and one there on to the next (R333). fuel:
moves. -/
def State.strandBy (s : State) : Nat → CoreId → Nat → StrandId
  | 0, _, gid => strandOfGid gid
  | n + 1, c, gid =>
    match (s.core c).forwards.find? fun f => f.old == gid && decide (s.time c.pkg < f.until_) with
    | some f => s.strandBy n (strandOfGid f.new_).core f.new_
    | none => strandOfGid gid
/-- The same for up to 64 moves (log 45). -/
def State.strandNow (s : State) (c : CoreId) (gid : Nat) : StrandId := s.strandBy 64 c gid

/-- THE END OF A STRAND (R331), once its record is not HELD: its slot is free, no notice on its way reaches
another strand there, and the head of the start queue takes it. -/
def State.endStrand (s : State) (t : StrandId) : State :=
  let s := s.meetRec (.strand t) .cancelled
  let s := s.flushOwn t
  let s := ((s.unpark t).renamed t.gid none).modCore t.core fun k => k.disown t.slot
  let s := (s.cancel fun i => match i with | .completionNotice x _ => x == t | _ => false).setStrand t {}
  s.takeQueued t.core t.slot

/-- The start of a move's packet or image (R332): the message that carries a strand to its target. -/
def State.moveMsg (s : State) (t : StrandId) (dst : CoreId) (rtag : Nat) : StartMsg :=
  let x := s.strand t
  { hdr := ⟨dst, t.core, 0, rtag, (s.core t.core).ctx, {}⟩, unit := none, super0 := false, moved := some t.slot, pc := 0,
    role := 0, deadline := 0, image := some (imageOf x (s.core t.core).ctx s.freeN), last := some (x.lastDl, x.lastLive) }

/-- A strand's old slot freed after its move; a forwarding entry is kept for 2^20 ticks (R332, R333). -/
def State.leave (s : State) (t : StrandId) (newGid : Nat) : State :=
  let until_ := s.time t.core.pkg + 2 ^ 20
  let s := s.modCore t.core fun k => { k with forwards := k.forwards ++ [⟨t.gid, newGid, until_⟩] }
  let s := s.postAt t.core.pkg until_ (.forwardingExpiry t.core (BitVec.ofNat 32 t.gid))
  let s := (s.modCore t.core fun k => k.disown t.slot).setStrand t {}
  s.takeQueued t.core t.slot

end Sys2Proof.Machine
end

