-- ==== Sys2Proof/Machine/Dump.lean ====
section
/-! DEFINITION. The fatal dump (R353). -/

namespace Sys2Proof.Machine

/-- The cores of a package by ascending column and row. -/
def coresOf (pkg : Nat) : List CoreId := (List.range 512).flatMap fun x => (List.range 200).map fun y => ⟨pkg, x, y⟩

/-- A core answers READ: it is stopped and not retired (R351, R352). -/
def Core.answersRead (k : Core) : Bool := (k.halted || k.dead) && !k.retired
/-- n words of a core that does not answer READ: zeros with bit 63 of the first set. -/
def noAnswer (n : Nat) : List Word := 0x8000000000000000#64 :: List.replicate (n - 1) 0
/-- The words of every core in turn, n of each, those of a core that does not answer READ as R353 says. -/
def State.dumpCores (s : State) (pkg n : Nat) (f : CoreId → List Word) : List Word :=
  (coresOf pkg).flatMap fun c => if (s.core c).answersRead then f c else noAnswer n

/-- Section 1: every strand context in the image layout. -/
def State.dumpStrands (s : State) (pkg : Nat) : List Word :=
  s.dumpCores pkg 1024 fun c => (List.range 8).flatMap fun i => imageOf (s.strand ⟨c, i⟩) (s.ctxOf ⟨c, i⟩) s.freeN

/-- Section 2: the trap records; one that cannot be read is zeros with bit 63 of its first word set. -/
def State.dumpRecords (s : State) (pkg : Nat) : List Word :=
  s.dumpCores pkg 128 fun c => (List.range 8).flatMap fun i =>
    let ws := (List.range 16).filterMap fun j =>
      match (s.readAt ⟨c, none⟩ 0 true true ((s.core c).record i + BitVec.ofNat 64 (8 * j)) 8).2 with
      | .ok v => some (BitVec.ofNat 64 v)
      | .error _ => none
    if ws.length = 16 then ws else noAnswer 16

/-- Section 3: tile tables and ring registers. -/
def State.dumpTiles (s : State) (pkg : Nat) : List Word :=
  s.dumpCores pkg 72 fun c => (List.range 64).map (s.core c).tile ++ (List.range 8).map fun q => (s.core c).rings.get 0 q

/-- CREWFAULT (R55). -/
def Crew.faultWord (w : Crew) : Word := BitVec.ofNat 64 ((if w.dropped then 1 else 0) + w.fbuf.length * 2 ^ 8)

/-- The crews of a package. -/
def crewsOf (pkg : Nat) : List Nat := (List.range 6400).map fun i => pkg * 6400 + i
/-- LinkSt's number. -/
def linkNum : LinkSt → Nat
  | .down => 0 | .train => 1 | .summary => 2 | .active => 3 | .failed => 4

/-- Section 6: for each crew CREWFAULT and its fault buffer (R192, R353). -/
def State.dumpFaults (s : State) (pkg : Nat) : List Word :=
  (crewsOf pkg).flatMap fun n => let k := s.crew n
    k.faultWord :: k.fbuf.map fun e => Config.dumpEntry 6 ([n, e.ctx, e.page, e.kind, e.count] ++ e.map.flatMap fun x => [x.1, x.2])
/-- Section 7: the wakes of the package (R313, R317, R353). -/
def State.dumpWakes (s : State) (pkg : Nat) : List Word :=
  (s.pkg pkg).wakes.map fun w => Config.dumpEntry 7 [w.oldFrame, w.newPkg, w.newFrame, w.key, w.copied, if w.cut then 1 else 0, if w.released then 1 else 0]
/-- Section 8: the state, the attempt and the error counts of each port (R287, R353). -/
def State.dumpPorts (s : State) (pkg : Nat) : List Word :=
  (List.range 36).map fun n => let p := (s.pkg pkg).port n
    Config.dumpEntry 8 [n, linkNum p.st, p.attempt, p.lanes, p.speed, p.crcErrs, p.authErrs]
/-- Section 9: the alarm log (R349, R353). -/
def State.dumpAlarms (s : State) (pkg : Nat) : List Word := (s.pkg pkg).alarms.map fun a => Config.dumpEntry 9 [a.1, a.2]

/-- Entry counts of sections 4 and 5. -/
def State.dumpCounts (s : State) (pkg : Nat) : List Nat :=
  let crews := (s.crews.filter fun k => crewPkg k.1 == pkg).map Prod.snd
  let cores := (s.cores.filter fun k => (coreOfKey k.1).pkg == pkg).map Prod.snd
  let sum (l : List Nat) : Nat := l.foldl (· + ·) 0
  [sum (crews.map fun k => k.events.length) + sum (cores.map fun k => k.strands.length + k.hwrecs.length),
   sum (cores.map fun k => k.itlb.length + k.dtlb.length) + sum (crews.map fun k => k.tlb.length + k.owner.length)]

/-- The dump of a package: header, directory and sections 1 to 9. The entries of sections 4 to 9, whose layout the spec does not give, are one word
each: free values, of what the entry holds in sections 6 to 9 (log 26). -/
def State.dumpWords (s : State) (pkg why : Nat) : List Word :=
  let known := [s.dumpStrands pkg, s.dumpRecords pkg, s.dumpTiles pkg]
  let free := ((s.dumpCounts pkg).zipIdx).map fun n => (List.range n.1).map fun i => Config.freeWord (s.freeN + 2 ^ 32 * n.2 + i)
  let secs := known ++ free ++ [s.dumpFaults pkg, s.dumpWakes pkg, s.dumpPorts pkg, s.dumpAlarms pkg]
  let counts := [819200, 819200, 102400] ++ (secs.drop 3).map List.length
  let offs := (List.range 9).map fun i => 64 + 9 * 16 + 8 * ((secs.take i).map List.length).foldl (· + ·) 0
  let dir := (List.range 9).flatMap fun i =>
    [BitVec.ofNat 64 (counts.getD i 0 % 2 ^ 32 * 2 ^ 32 + (i + 1)), BitVec.ofNat 64 (offs.getD i 0)]
  [0x4858464D00000001#64, BitVec.ofNat 64 (pkg * 2 ^ 32 + 9), (s.pkg pkg).time, BitVec.ofNat 64 why, 0, 0, 0, 0] ++ dir ++ secs.flatten

/-- FATAL_DUMP (R353): the dump written under key slot 0 (R186) to the region that the boot block reserves, as much of it as the region
holds. -/
def State.fatalDump (s : State) (pkg why : Nat) : State :=
  let w := (s.pkg pkg).bootWord 0x10
  let len := bitsN w 63 40 * 65536
  if len = 0 then s
  else
    let k := memKey pkg (bitsN w 39 16 * 65536)
    let bs := ((s.dumpWords pkg why).take (len / 8)).flatMap fun x => leBytes 8 x.toNat
    (s.under 0 k bs.length).writeBs k bs

/-- The dumps of machine checks that the keel island cannot contain (R353): WHY is the check's cause word. -/
def State.keelDumps (s : State) : State :=
  (s.pkgs.filterMap fun p => p.2.dumpWhy.map fun w => (p.1, w)).foldl
    (fun s d => (s.fatalDump d.1 d.2).modPkg d.1 fun p => { p with dumpWhy := none }) s

/-- A frame lies in the region of a package's dump, which stays readable over PCI Express (R353). -/
def Pkg.inDump (p : Pkg) (pa : Nat) : Bool :=
  let w := p.bootWord 0x10
  decide (bitsN w 39 16 * 65536 ≤ pa) && decide (pa < (bitsN w 39 16 + bitsN w 63 40) * 65536)

end Sys2Proof.Machine
end

