-- ==== Sys2Proof/Machine/Scalar.lean ====
section
/-! DEFINITION. Meanings of the scalar and control instructions, OPs 0x01 to 0x2F (R102 to R123, R410). -/

namespace Sys2Proof.Machine

/-- A result written to g[d]; the instruction completes. -/
def State.put (s : State) (d : Reg) (v : Word) : Res := .ok (s.wg d v)
/-- A predicate written; the instruction completes. -/
def State.putp (s : State) (d : PReg) (v : Bool) : Res := .ok (s.wp d v)
/-- A register as a signed integer. -/
def si (w : Word) : Int := w.toInt
/-- An integer modulo 2^64. -/
def ofI (x : Int) : Word := BitVec.ofInt 64 x

/-- nop (R123). -/
def execNop (g : Guard) (s : State) : Out := issueU (.nop g) g (fun s => .ok s) s
/-- add (R108). -/
def execAdd (g : Guard) (d a b : Reg) (s : State) : Out := issueU (.add g d a b) g (fun s => s.put d (s.rg a + s.rg b)) s
/-- sub (R108). -/
def execSub (g : Guard) (d a b : Reg) (s : State) : Out := issueU (.sub g d a b) g (fun s => s.put d (s.rg a - s.rg b)) s
/-- mul (R108). -/
def execMul (g : Guard) (d a b : Reg) (s : State) : Out := issueU (.mul g d a b) g (fun s => s.put d (s.rg a * s.rg b)) s
/-- The upper half of a product (R108). -/
def mulhVal (k : MulhKind) (a b : Word) : Word :=
  match k with
  | .s => ofI (si a * si b / 2 ^ 64)
  | .n => ofI ((a.toNat : Int) * (b.toNat : Int) / 2 ^ 64)
  | .sn => ofI (si a * (b.toNat : Int) / 2 ^ 64)
/-- mulh, mulh.n, mulh.sn (R108). -/
def execMulh (g : Guard) (k : MulhKind) (d a b : Reg) (s : State) : Out :=
  issueU (.mulh g k d a b) g (fun s => s.put d (mulhVal k (s.rg a) (s.rg b))) s
/-- div (R109). -/
def execDiv (g : Guard) (n : Bool) (d a b : Reg) (s : State) : Out :=
  issueU (.div g n d a b) g (fun s => s.put d (ofI (divRem (!n) (s.rg a).toNat (s.rg b).toNat).1)) s
/-- rem (R109). -/
def execRem (g : Guard) (n : Bool) (d a b : Reg) (s : State) : Out :=
  issueU (.rem g n d a b) g (fun s => s.put d (ofI (divRem (!n) (s.rg a).toNat (s.rg b).toNat).2)) s
/-- and (R108). -/
def execAnd (g : Guard) (d a b : Reg) (s : State) : Out := issueU (.and g d a b) g (fun s => s.put d (s.rg a &&& s.rg b)) s
/-- or (R108). -/
def execOr (g : Guard) (d a b : Reg) (s : State) : Out := issueU (.or g d a b) g (fun s => s.put d (s.rg a ||| s.rg b)) s
/-- xor (R108). -/
def execXor (g : Guard) (d a b : Reg) (s : State) : Out := issueU (.xor g d a b) g (fun s => s.put d (s.rg a ^^^ s.rg b)) s
/-- andn (R108). -/
def execAndn (g : Guard) (d a b : Reg) (s : State) : Out :=
  issueU (.andn g d a b) g (fun s => s.put d (s.rg a &&& ~~~(s.rg b))) s
/-- shl (R108). -/
def execShl (g : Guard) (d a b : Reg) (s : State) : Out :=
  issueU (.shl g d a b) g (fun s => s.put d (s.rg a <<< ((s.rg b).toNat % 64))) s
/-- shr (R108). -/
def execShr (g : Guard) (d a b : Reg) (s : State) : Out :=
  issueU (.shr g d a b) g (fun s => s.put d (s.rg a >>> ((s.rg b).toNat % 64))) s
/-- sar (R108). -/
def execSar (g : Guard) (d a b : Reg) (s : State) : Out :=
  issueU (.sar g d a b) g (fun s => s.put d ((s.rg a).sshiftRight ((s.rg b).toNat % 64))) s
/-- rot: rotate left (R108). -/
def execRot (g : Guard) (d a b : Reg) (s : State) : Out :=
  issueU (.rot g d a b) g (fun s => s.put d ((s.rg a).rotateLeft ((s.rg b).toNat % 64))) s
/-- clz (R110). -/
def execClz (g : Guard) (d a : Reg) (s : State) : Out :=
  issueU (.clz g d a) g (fun s => s.put d (BitVec.ofNat 64 (clz64 (s.rg a).toNat))) s
/-- popc (R110). -/
def execPopc (g : Guard) (d a : Reg) (s : State) : Out :=
  issueU (.popc g d a) g (fun s => s.put d (BitVec.ofNat 64 (popN 64 (s.rg a).toNat))) s
/-- The lesser operand (R108). -/
def minVal (n : Bool) (a b : Word) : Word := if (if n then a.toNat ≤ b.toNat else si a ≤ si b) then a else b
/-- The greater operand (R108). -/
def maxVal (n : Bool) (a b : Word) : Word := if (if n then b.toNat ≤ a.toNat else si b ≤ si a) then a else b
/-- min, min.n (R108). -/
def execMin (g : Guard) (n : Bool) (d a b : Reg) (s : State) : Out :=
  issueU (.min g n d a b) g (fun s => s.put d (minVal n (s.rg a) (s.rg b))) s
/-- max, max.n (R108). -/
def execMax (g : Guard) (n : Bool) (d a b : Reg) (s : State) : Out :=
  issueU (.max g n d a b) g (fun s => s.put d (maxVal n (s.rg a) (s.rg b))) s
/-- sel (R111). -/
def execSel (g : Guard) (d a b : Reg) (p : PReg) (s : State) : Out :=
  issueU (.sel g d a b p) g (fun s => s.put d (if s.rp p then s.rg a else s.rg b)) s
/-- A condition of R66. -/
def condHolds (cc : Cond) (a b : Word) : Bool :=
  match cc with
  | .eq => a == b
  | .ne => a != b
  | .lt => decide (si a < si b)
  | .le => decide (si a ≤ si b)
  | .gt => decide (si b < si a)
  | .ge => decide (si b ≤ si a)
  | .lo => decide (a.toNat < b.toNat)
  | .ls => decide (a.toNat ≤ b.toNat)
  | .hi => decide (b.toNat < a.toNat)
  | .hs => decide (b.toNat ≤ a.toNat)
/-- cmp (R117). -/
def execCmp (g : Guard) (cc : Cond) (d : PReg) (a b : Reg) (s : State) : Out :=
  issueU (.cmp g cc d a b) g (fun s => s.putp d (condHolds cc (s.rg a) (s.rg b))) s
/-- cmpk (R410). -/
def execCmpk (g : Guard) (cc : Cond) (d : PReg) (a : Reg) (i : Imm48) (s : State) : Out :=
  issueU (.cmpk g cc d a i) g (fun s => s.putp d (condHolds cc (s.rg a) (i.signExtend 64))) s
/-- addk (R112). -/
def execAddk (g : Guard) (d a : Reg) (i : Imm48) (s : State) : Out :=
  issueU (.addk g d a i) g (fun s => s.put d (s.rg a + i.signExtend 64)) s
/-- movk (R112). -/
def execMovk (g : Guard) (d : Reg) (i : Imm48) (s : State) : Out :=
  issueU (.movk g d i) g (fun s => s.put d (i.setWidth 64)) s
/-- movh (R112). -/
def execMovh (g : Guard) (d a : Reg) (i : BitVec 16) (s : State) : Out :=
  issueU (.movh g d a i) g (fun s => s.put d (i ++ (s.rg a).setWidth 48)) s
/-- A field extracted, zero- or sign-extended (R113). -/
def extVal (sx : Bool) (a : Word) (lo w : Nat) : Word :=
  let x := a.toNat / 2 ^ lo
  if sx then ofI (sextN x w) else BitVec.ofNat 64 (zextN x w)
/-- ext, ext.sx (R113). -/
def execExt (g : Guard) (sx : Bool) (d a : Reg) (lo w1 : BitVec 6) (s : State) : Out :=
  issueU (.ext g sx d a lo w1) g (fun s => s.put d (extVal sx (s.rg a) lo.toNat (w1.toNat + 1))) s
/-- A field inserted (R113). -/
def insVal (d a : Word) (lo w : Nat) : Word :=
  let m : Word := BitVec.ofNat 64 (2 ^ w - 1) <<< lo
  (d &&& ~~~m) ||| ((a <<< lo) &&& m)
/-- ins (R113). -/
def execIns (g : Guard) (d a : Reg) (lo w1 : BitVec 6) (s : State) : Out :=
  issueU (.ins g d a lo w1) g (fun s => s.put d (insVal (s.rg d) (s.rg a) lo.toNat (w1.toNat + 1))) s
/-- The effective address of a format M instruction with scale 2^k (R48). -/
def State.ea (s : State) (m : MAddr) (k : Nat) : Word := ea48 (s.rg m.base) (s.rg m.idx) k m.disp
/-- lea (R114). -/
def execLea (g : Guard) (d : Reg) (m : MAddr) (sz : Sz) (s : State) : Out :=
  issueU (.lea g d m sz) g (fun s => s.put d (s.ea m sz.log)) s
/-- The slice address of coord (R115). -/
def coordVal (rel : Bool) (a b : Word) : Word :=
  BitVec.ofNat 64 (2 ^ 63 + (if rel then 2 ^ 62 else 0) + bitsN a.toNat 43 32 * 2 ^ 50 + bitsN a.toNat 8 0 * 2 ^ 41
    + bitsN a.toNat 23 16 * 2 ^ 33 + bitsN b.toNat 16 0)
/-- coord, coord.rel (R115). -/
def execCoord (g : Guard) (rel : Bool) (d a b : Reg) (s : State) : Out :=
  issueU (.coord g rel d a b) g (fun s => s.put d (coordVal rel (s.rg a) (s.rg b))) s
/-- A field of a slice address (R116). -/
def decoordVal (f : CoordField) (a : Word) : Word :=
  let x := a.toNat
  match f with
  | .col => if a.getLsbD 62 then ofI (sextN (bitsN x 49 41) 9) else BitVec.ofNat 64 (bitsN x 49 41)
  | .row => if a.getLsbD 62 then ofI (sextN (bitsN x 40 33) 8) else BitVec.ofNat 64 (bitsN x 40 33)
  | .pkg => BitVec.ofNat 64 (bitsN x 61 50)
  | .off => BitVec.ofNat 64 (bitsN x 16 0)
  | .relflag => if a.getLsbD 62 then 1 else 0
/-- decoord (R116). -/
def execDecoord (g : Guard) (f : CoordField) (d a : Reg) (s : State) : Out :=
  issueU (.decoord g f d a) g (fun s => s.put d (decoordVal f (s.rg a))) s
/-- pand (R118). -/
def execPand (g : Guard) (d a b : PReg) (s : State) : Out := issueU (.pand g d a b) g (fun s => s.putp d (s.rp a && s.rp b)) s
/-- por (R118). -/
def execPor (g : Guard) (d a b : PReg) (s : State) : Out := issueU (.por g d a b) g (fun s => s.putp d (s.rp a || s.rp b)) s
/-- pxor (R118). -/
def execPxor (g : Guard) (d a b : PReg) (s : State) : Out := issueU (.pxor g d a b) g (fun s => s.putp d (s.rp a != s.rp b)) s
/-- pnot (R118). -/
def execPnot (g : Guard) (d a : PReg) (s : State) : Out := issueU (.pnot g d a) g (fun s => s.putp d (!s.rp a)) s
/-- pmov, pmov.pg, pmov.gp (R118). -/
def execPmov (g : Guard) (f : PmovForm) (s : State) : Out :=
  issueU (.pmov g f) g (fun s => match f with
    | .pp d a => s.putp d (s.rp a)
    | .pg d a => s.putp d (s.rg a != 0)
    | .gp d a => s.put d (if s.rp a then 1 else 0)) s
/-- A taken branch by offset from the instruction's own PC, or the PC-alignment fault of R33, with no effect. -/
def State.branch (s s' : State) (off : Imm48) : Res :=
  match branchTo s.me.pc off with
  | some pc => .jump s' pc true
  | none => .fault s (s.fault 0x12)
/-- br (R122). -/
def execBr (g : Guard) (off : Imm48) (s : State) : Out := issueU (.br g off) g (fun s => s.branch s off) s
/-- call (R122). -/
def execCall (g : Guard) (l : Reg) (off : Imm48) (s : State) : Out :=
  issueU (.call g l off) g (fun s => s.branch (s.wg l (nextPc s.me.pc)) off) s
/-- ret (R122). -/
def execRet (g : Guard) (a : Reg) (s : State) : Out := issueU (.ret g a) g (fun s => .jump s (s.rg a) true) s
/-- jr (R122). -/
def execJr (g : Guard) (a : Reg) (s : State) : Out := issueU (.jr g a) g (fun s => .jump s (s.rg a) true) s
/-- loop (R122). -/
def execLoop (g : Guard) (a : Reg) (off : Imm48) (s : State) : Out :=
  issueU (.loop g a off) g (fun s =>
    let v := s.rg a - 1
    if v = 0 then .ok (s.wg a v) else s.branch (s.wg a v) off) s
/-- yield: BUDGET reloaded with its own deadline and live mask, then the end of the yield point (R107, R335). -/
def execYield (g : Guard) (deadline : BitVec 12) (live : BitVec 8) (s : State) : Out :=
  issueY (.yield g deadline live) g (fun s =>
    let s := (s.reload s.cur deadline live).modMe fun t => { t with lastDl := deadline, lastLive := live }
    .placed (s.advance.yieldEnd s.cur)) s

/-! ## Floating point (R119 to R121) -/

/-- A float operand: the low bits of a register. -/
def fval (t : FFmt) (w : Word) : FV := t.value (w.toNat % 2 ^ t.width)
/-- A float result with its flags. -/
def State.putf (s : State) (d : Reg) (r : Nat × Nat) : Res := .ok ((s.flag r.2).wg d (BitVec.ofNat 64 r.1))
/-- fadd (R119). -/
def execFadd (g : Guard) (t : FFmt) (rtz : Bool) (d a b : Reg) (s : State) : Out :=
  issueU (.fadd g t rtz d a b) g (fun s => s.putf d (t.addV rtz false (fval t (s.rg a)) (fval t (s.rg b)))) s
/-- fsub (R119). -/
def execFsub (g : Guard) (t : FFmt) (rtz : Bool) (d a b : Reg) (s : State) : Out :=
  issueU (.fsub g t rtz d a b) g (fun s => s.putf d (t.addV rtz false (fval t (s.rg a)) (fval t (s.rg b)).negate)) s
/-- fmul (R119). -/
def execFmul (g : Guard) (t : FFmt) (rtz : Bool) (d a b : Reg) (s : State) : Out :=
  issueU (.fmul g t rtz d a b) g (fun s => s.putf d (t.mulR rtz false (fval t (s.rg a)) (fval t (s.rg b)))) s
/-- ffma (R119). -/
def execFfma (g : Guard) (t : FFmt) (rtz : Bool) (d a b c : Reg) (s : State) : Out :=
  issueU (.ffma g t rtz d a b c) g
    (fun s => s.putf d (t.fmaR rtz false (fval t (s.rg a)) (fval t (s.rg b)) (fval t (s.rg c)))) s
/-- A float comparison and its flags (R85, R120). -/
def fcmpVal (cc : FCond) (a b : FV) : Bool × Nat :=
  let un := a.isNan || b.isNan
  let sig := a.isSig || b.isSig
  match cc with
  | .eq => (FV.eq a b, if sig then flNV else 0)
  | .un => (un, if sig then flNV else 0)
  | .lt => (FV.lt a b, if un then flNV else 0)
  | .le => (FV.lt a b || FV.eq a b, if un then flNV else 0)
/-- fcmp (R120). -/
def execFcmp (g : Guard) (cc : FCond) (t : FFmt) (d : PReg) (a b : Reg) (s : State) : Out :=
  issueU (.fcmp g cc t d a b) g (fun s =>
    let (r, fl) := fcmpVal cc (fval t (s.rg a)) (fval t (s.rg b))
    .ok ((s.flag fl).wp d r)) s
/-- A conversion of R121: the result and its flags. -/
def fcvtVal (cv : FConv) (rtz : Bool) (a : Word) : Word × Nat :=
  let ofF (r : Nat × Nat) : Word × Nat := (BitVec.ofNat 64 r.1, r.2)
  let ofInt (r : Int × Nat) : Word × Nat := (ofI r.1, r.2)
  match cv with
  | .f32s64 => ofF (FFmt.ofInt .f32 rtz false (si a))
  | .s64f32 => ofInt (toIntV rtz (intMin true 64) (intMax true 64) (fval .f32 a))
  | .f32f16 => ofF (FFmt.ofValue .f32 rtz false (fval .f16 a))
  | .f16f32 => ofF (FFmt.ofValue .f16 rtz false (fval .f32 a))
  | .f32bf16 => ofF (FFmt.ofValue .f32 rtz false (fval .bf16 a))
  | .bf16f32 => ofF (FFmt.ofValue .bf16 rtz false (fval .f32 a))
  | .f32n64 => ofF (FFmt.ofInt .f32 rtz false (a.toNat : Int))
  | .n64f32 => ofInt (toIntV rtz (intMin false 64) (intMax false 64) (fval .f32 a))
/-- fcvt (R121). -/
def execFcvt (g : Guard) (cv : FConv) (rtz : Bool) (d a : Reg) (s : State) : Out :=
  issueU (.fcvt g cv rtz d a) g (fun s =>
    let (v, fl) := fcvtVal cv rtz (s.rg a)
    .ok ((s.flag fl).wg d v)) s

end Sys2Proof.Machine
end

