-- ==== Sys2Proof/Machine/Memory.lean ====
section
/-! DEFINITION. Meanings of the scalar memory instructions, OPs 0x70 to 0x73 and 0x7C to 0x81, and of the fill of an
instruction line (R178 to R208): where an access goes, how it is performed, and how it parks. -/

namespace Sys2Proof.Machine

/-! ## Kinds of accesses -/

/-- What the access needs of a leaf (R184). -/
def AccKind.need : AccKind → Need
  | .ld _ | .lds _ _ => .r
  | .st | .sts _ | .atom _ _ _ | .red _ _ _ => .w
/-- KIND bits of a fault-buffer entry (R192): read 1, write 2, atomic 4. -/
def AccKind.bits : AccKind → Nat
  | .ld _ | .lds _ _ => 1
  | .st | .sts _ => 2
  | .atom _ _ _ | .red _ _ _ => 4
/-- .rel or .ar (R201). -/
def AccKind.rel : AccKind → Bool
  | .sts r | .red _ r _ => r
  | .atom _ o _ => o.getLsbD 1
  | .ld _ | .st | .lds _ _ => false
/-- Performed at the home and not in the crew cache (R200, R203). -/
def Park.wide (a : Park) : Bool :=
  match a.kind with
  | .ld _ | .st => false
  | _ => !a.sc.inCrew
/-- The access combines (R204). -/
def AccKind.comb : AccKind → Option AtomOp
  | .atom op _ true | .red op _ true => some op
  | _ => none
/-- The number of an operation (R68). -/
def atomNum : AtomOp → Nat
  | .swap => 0 | .cas => 1 | .add => 2 | .and => 3 | .or => 4 | .xor => 5 | .max => 6 | .min => 7 | .maxn => 8 | .minn => 9 | .fadd => 10

/-- The value a load of n bytes gives (R198). -/
def loadVal (sx : Bool) (n v : Nat) : Word := if sx then BitVec.ofInt 64 (sextN v (8 * n)) else BitVec.ofNat 64 (zextN v (8 * n))

/-- What an access returns for the value at its location: the loaded value or the old value; stores and reds nothing. -/
def AccKind.result (k : AccKind) (n old : Nat) : Option Word :=
  match k with
  | .ld sx | .lds sx _ => some (loadVal sx n old)
  | .atom _ _ _ => some (BitVec.ofNat 64 (zextN old (8 * n)))
  | .st | .sts _ | .red _ _ _ => none

/-- What an access leaves at its location, none where it stores nothing. -/
def Park.newVal (a : Park) (old : Nat) : Option Nat :=
  let n := a.sz.bytes
  match a.kind with
  | .ld _ | .lds _ _ => none
  | .st | .sts _ => some (zextN a.data.toNat (8 * n))
  | .atom op _ _ | .red op _ _ => some (atomNew op n old a.data.toNat a.expect.toNat)

/-! ## Where an access goes -/

/-- A location: a byte of a slice, or of package memory. -/
inductive Loc where
  | slice (t : CoreId) (off : Nat)
  | mem   (x : Xlat)

/-- The location of an address of MFORM's form, with the checks of R198 in order; an error is a detail code. -/
def State.resolve (s : State) (c : CoreId) (ctx : Nat) (super : Bool) (need : Need) (a : Word) : State × Except Nat Loc :=
  if a.getLsbD 63 then
    match s.sliceOf c a with
    | some (t, off) => if s.sliceAllowed super ctx t then (s, .ok (.slice t off)) else (s, .error dMSLICE)
    | none => (s, .error dMSLICE)
  else
    match s.locate c ctx super false need a.toNat with
    | (s, .error d) => (s, .error d)
    | (s, .ok x) => (s, .ok (.mem x))

/-! ## Leases and settling (R314, R316) -/

/-- LEXP of a request (R316): the lease of the locator it used, or its issue tick plus 2^20 for the own package. -/
def State.lexp (s : State) (c : CoreId) (ctx va : Nat) : BitVec 32 :=
  let now := s.time c.pkg
  match tlbFind (s.core c).dtlb ctx va now with
  | some e => BitVec.ofNat 32 (e.lease.getD (now + 2 ^ 20))
  | none => BitVec.ofNat 32 (now + 2 ^ 20)

/-! ## Performing -/

/-- An access performed at its location: the state and the result. base: a combining entry's base already fetched. -/
def State.perform (s : State) (c : CoreId) (slot ctx : Nat) (a : Park) (loc : Loc) (base : Option Nat) : State × Option Word :=
  let n := a.sz.bytes
  match loc with
  | .slice t off =>
    let old := s.sread t off n
    ((match a.newVal old with | some v => s.swrite t off n v | none => s), a.kind.result n old)
  | .mem x =>
    match a.kind with
    | .ld _ | .lds _ _ => let (s, v) := s.memLoad c.crewNo a.wide x n; (s, a.kind.result n v)
    | .st | .sts _ => (s.memStore c.crewNo c.local_ a.wide x n (zextN a.data.toNat (8 * n)), none)
    | .atom op _ cb | .red op _ cb =>
      let (s, old) :=
        if cb then s.memComb c slot ctx a.sc x op a.sz a.data.toNat base
        else s.memAtom c.crewNo c.local_ a.wide x op n a.data.toNat a.expect.toNat
      (s, a.kind.result n old)

/-! ## Requests to a home beyond the core or the package -/

/-- The line of a location, for the rules of one access to a line at a time (R189, R315). -/
def Loc.line : Loc → Nat
  | .slice t off => sliceKey t off / 64 + 1
  | .mem x => memKey x.pkg x.pa / 64 + 1
/-- The core position that a location's packets go to. -/
def Loc.dst : Loc → CoreId
  | .slice t _ => t
  | .mem x => memCore x.pkg x.pa
/-- The target of a location's packets. -/
def Loc.tgt : Loc → MemTgt
  | .slice t off => .slice t off
  | .mem x => .mem x.pkg x.pa x.key

/-- What a request leaves in the crew's cache when it is answered (R199, R200): nothing, the line it fetches, or a copy that it wrote through. -/
inductive Keeps where
  | nothing | line | copy
deriving DecidableEq, Repr
/-- Its number in what the interface keeps. -/
def Keeps.num : Keeps → Nat | .nothing => 0 | .line => 1 | .copy => 3

/-- What the interface keeps with a memory request: what the answer leaves in the cache, package, address, key, the page's mark,
the PC and the size. -/
def reqData (keeps : Keeps) (ctx : Nat) (loc : Loc) (va pc : Word) (n : Nat) : List Nat :=
  match loc with
  | .slice _ _ => [0, 0, 0, 0, 0, 0, pc.toNat, n]
  | .mem x =>
    let tag := pageTag (x.level == 4) ctx va.toNat
    [keeps.num, x.pkg, x.pa, x.key, tag.1, tag.2, pc.toNat, n]

/-- The packet of a request (R289). -/
def reqPacket (src : CoreId) (slot ctx : Nat) (super : Bool) (tgt : MemTgt) (op : ReqOp) (va : Word) (lexp : BitVec 32)
    (strong : Bool) (n tag : Nat) : Instr :=
  let size := Nat.log2 (min n 8)
  let m (sub len : Nat) : MemReq := ⟨src, slot, tag, ctx, super, tgt, op, va, lexp, false, sub, len, 0⟩
  match op with
  | .ld _ => .ldPacket (m size 2)
  | .st _ => .stPacket (m (size + if strong then 8 else 0) 3)
  | .atom o _ _ _ _ => .atomPacket (m (atomNum o) (if o = .cas then 4 else 3))

/-- The operation an access asks of a home. -/
def Park.reqOp (a : Park) : ReqOp :=
  let n := a.sz.bytes
  match a.kind with
  | .ld _ | .lds _ _ => .ld n
  | .st | .sts _ => .st (leBytes n a.data.toNat)
  | .atom op _ _ => .atom op n a.data a.expect false
  | .red op _ _ => .atom op n a.data 0 true

/-- The executing strand sends a request to a location. posted: it goes on, with one more unacknowledged store (R189);
otherwise it waits for the answer. -/
def State.sendReq (s : State) (a : Park) (loc : Loc) (op : ReqOp) (keeps : Keeps) (posted : Bool) : Res :=
  let t := s.cur
  let fill := keeps == .line
  let n := match op with | .ld n => n | _ => a.sz.bytes
  let va := if fill then a.addr &&& ~~~(0x3F#64) else a.addr
  let tgt := match loc with
    | .mem x => if fill then .mem x.pkg (x.pa / 64 * 64) x.key else loc.tgt
    | _ => loc.tgt
  let mk := reqPacket t.core t.slot s.ctx s.super tgt op va (s.lexp t.core s.ctx a.addr.toNat) a.wide n
  let (s', tag) := s.request t.core t.slot (if posted then .store t.slot else .strand) loc.dst loc.line
    (reqData keeps s.ctx loc a.addr s.me.pc n) mk
  if posted then .ok (s'.modMe fun x => { x with unacked := x.unacked + 1 })
  else .hold (s'.modMe fun x => { x with hold := .wait tag, mode := .waiting })

/-! ## Parking (R191 to R193, R337) -/

/-- A fault-buffer entry's report (R322, R337). -/
def FbEntry.report (e : FbEntry) (lead : CoreId) : Report :=
  let map := e.map.foldl (fun x p => x ||| 2 ^ (8 * p.1 + p.2)) 0
  { slot := 0, cause := 16, info0 := BitVec.ofNat 64 (e.page * 2 ^ 16), strand := StrandId.gid ⟨lead, 0⟩,
    info1 := BitVec.ofNat 64 (e.ctx % 2 ^ 16 + e.kind * 2 ^ 16 + e.count * 2 ^ 32),
    info2 := BitVec.ofNat 64 map, info3 := BitVec.ofNat 64 (map / 2 ^ 64) }

/-- A filled entry reported to the lead core, or kept while the lead is retired (R13, R337). -/
def State.reportEntry (s : State) (crew : Nat) (e : FbEntry) : State :=
  let lead := crewCore crew (s.crew crew).lead.toNat
  if (s.core lead).retired then s.modCrew crew fun k => { k with waiting := k.waiting ++ [e] }
  else s.report lead (e.report lead)

/-- A parked access recorded in the crew's fault buffer: coalesced, or in a free entry, or not at all with DROPPED set. The
flag says whether it is recorded. -/
def State.recordPark (s : State) (t : StrandId) (ctx : Nat) (a : Park) : State × Bool :=
  let crew := t.core.crewNo
  let page := bitsN a.addr.toNat 56 16
  let who := (t.core.local_, t.slot)
  let k := s.crew crew
  if k.fbuf.any fun e => e.ctx == ctx && e.page == page then
    (s.modCrew crew fun k => { k with fbuf := k.fbuf.map fun e =>
      if e.ctx = ctx ∧ e.page = page then
        { e with kind := e.kind ||| a.kind.bits, count := e.count + 1, map := if e.map.contains who then e.map else e.map ++ [who] }
      else e }, true)
  else if k.fbuf.length < 8 then
    let e : FbEntry := ⟨ctx, page, a.kind.bits, [who], 1, true⟩
    ((s.modCrew crew fun k => { k with fbuf := k.fbuf ++ [e] }).reportEntry crew e, true)
  else (s.modCrew crew fun k => { k with dropped := true }, false)

/-- The lowest free park slot. -/
def Strand.freePark (t : Strand) : Option Nat := [0, 1, 2, 3].find? fun i => !t.parks.has i

/-- The executing strand's access parks: a park slot, the fault buffer, and the upcall with RPC at the next instruction; or
MPARK when the four slots are full (R191). -/
def State.parkMe (s : State) (a : Park) : Res :=
  match s.me.freePark with
  | none => .fault s (s.faultA 0x68 a.addr)
  | some i =>
    let (s, rec_) := s.recordPark s.cur s.ctx a
    let s := s.modMe fun t => { t with parks := t.parks.set i { a with inBuf := rec_ } }
    .fault s { s.faultA dMUNMAP a.addr with cause := 7, arg := i, rpc := nextPc s.me.pc }

/-! ## Scalar accesses -/

/-- A result written to the destination; the instruction completes. -/
def State.accDone (s : State) (a : Park) (v : Option Word) : Res :=
  match v with
  | some v => .ok (s.wg a.dst v)
  | none => .ok s

/-- An access of a core to a location waits at the interface: one to its line is outstanding (R189, R315), or its page settles (R314). -/
def State.waitsFor (s : State) (c : CoreId) (loc : Loc) (ctx va : Nat) : Bool :=
  match loc with
  | .slice t _ => t != c && (s.core c).busyLine loc.line
  | .mem x => s.busyMem c x || (s.core c).settles (pageTag (x.level == 4) ctx va)

/-- The location of an access that hardware performs at once for a core, and the way there. A slice of a machine-checked core answers RETRY
(R350), for at most 10,000 ticks (R188); an access that waits at the interface or for a port is dWait (R189, R287, R314, R315). -/
def State.locFor (s : State) (q : Asker) (ctx : Nat) (super : Bool) (need : Need) (a : Word) : State × Except Nat Loc :=
  let c := q.core
  if !mformOk a then (s, .error dMFORM)
  else match s.resolve c ctx super need a with
    | (s, .error d) => (s, .error d)
    | (s, .ok loc) =>
      if s.waitsFor c loc ctx a.toNat || s.blocked c.pkg loc.dst.pkg then (s, .error dWait)
      else match loc with
        | .slice t off =>
          if t ≠ c ∧ s.severed c.pkg t.pkg then (s, .error 0x94)
          else if t ≠ c ∧ s.fencedAt t.pkg ctx then (s, .error 0x93)
          else if t ≠ c ∧ (s.core t).dead then
            (s, .error (if s.retryOver q (sliceLine t off) then dMSLICE else dRetry + sliceLine t off))
          else (s, .ok (.slice t off))
        | .mem x =>
          match s.arrive c ctx a.toNat x with
          | (s, .error d) => (s, .error d)
          | (s, .ok x) => (s, .ok (.mem x))

/-- An access that has passed its checks goes to its location. A location beyond the core or the package is reached by
packets, one to a line at a time; a plain access there works on the crew cache's line, which a packet fetches. A store at a wider scope
writes through, and the cache keeps a clean copy (R200). Entries that the access is to find at its location are flushed first (R204). It waits while its
crew still has to send something to its line and no port works (R287). -/
def State.accTo (s : State) (a : Park) (loc : Loc) (base : Option Nat) : Res :=
  let c := s.cur.core
  let here (s : State) (loc : Loc) : Res :=
    let (s, v) := s.perform c s.cur.slot s.ctx a loc base
    s.accDone a v
  let posted := match a.kind with | .st | .sts _ | .red _ _ _ => true | _ => false
  match loc with
  | .slice t _ =>
    if t = c then here s loc
    else if s.waitsFor c loc s.ctx a.addr.toNat then s.at_ 0 []
    else s.sendReq a loc a.reqOp .nothing posted
  | .mem x =>
    let crew := c.crewNo
    let ln := lineNo x.pkg x.pa
    let hit (s : State) : Bool := match a.kind.comb with
      | some op => (s.combFind crew s.ctx x op a.sz).isSome || (!a.wide && (s.crew crew).lines.has ln)
      | none => !a.wide && (s.crew crew).lines.has ln
    if s.waitsFor c loc s.ctx a.addr.toNat then s.at_ 0 []
    else if x.pkg = c.pkg then
      if hit s then here s loc
      else match s.arrive c s.ctx a.addr.toNat x with
        | (s', .error d) => if isWait d then s.at_ 0 [] else .fault s' (s'.faultA d a.addr)
        | (s, .ok x) => here s (.mem x)
    else
      let s := s.soleLine crew x
      match a.kind.comb with
      | some op =>
        let s := s.flushOthers crew s.ctx x op a.sz
        if hit s || base.isSome then here s loc
        else if s.stuckAt crew x then s.at_ 0 []
        else if a.wide then (s.evictLine crew ln).sendReq a loc (.ld a.sz.bytes) .nothing false
        else s.sendReq a loc (.ld 64) .line false
      | none =>
        let s := s.flushAt crew x.pkg x.pa a.sz.bytes
        if hit s then here s loc
        else if s.stuckAt crew x then s.at_ 0 []
        else if a.wide then
          match a.kind with
          | .sts _ => (s.cleanLine crew ln).sendReq a loc a.reqOp .copy posted
          | _ => (s.evictLine crew ln).sendReq a loc a.reqOp .nothing posted
        else s.sendReq a loc (.ld 64) .line false

/-- An access after MFORM and MALIGN: translated, parked, or sent on its way; .rel waits for the strand's earlier accesses
and cleans what they wrote (R201). -/
def State.accGo (s : State) (a : Park) (base : Option Nat) : Res :=
  match s.resolve s.cur.core s.ctx s.super a.kind.need a.addr with
  | (s, .error d) => if d = dMUNMAP ∧ !s.super then s.parkMe a else .fault s (s.faultA d a.addr)
  | (s, .ok loc) =>
    if a.kind.rel ∧ (s.me.unacked ≠ 0 ∨ (a.wide ∧ s.stuckWrites s.cur.core)) then s.at_ 1 []
    else
      let s := if a.kind.rel && a.wide then s.cleanWrittenBy s.cur.core.crewNo s.cur.core.local_ else s
      s.accTo a loc base

/-- The fault of a refused request: FNACK with R289's cause in INNER, or the detail that the refusal names. -/
def State.nackFault (s : State) (r : Answer) : Report :=
  if r.cause ≤ 4 then { s.fault 0x90 with inner := r.cause } else { s.fault (r.cause % 256) with inner := r.inner }

/-- A scalar access (R198, R202). -/
def State.access (s : State) (a : Park) : Res :=
  let n := a.sz.bytes
  if !mformOk a.addr then .fault s (s.faultA dMFORM a.addr)
  else if a.addr.toNat % n ≠ 0 then .fault s (s.faultA dMALIGN a.addr)
  else match s.me.hold with
    | .wait _ => .hold s
    | .got r =>
      match r.status with
      | .ack =>
        let line := r.data.length == 8
        let v := if line then leNat (((r.data.flatMap fun w => leBytes 8 w.toNat).drop (a.addr.toNat % 64)).take n) else (r.data.headD 0).toNat
        match a.kind with
        | .ld _ | .lds _ _ => s.accDone a (a.kind.result n v)
        | .atom _ _ false => if line then s.accGo a none else s.accDone a (a.kind.result n v)
        | _ => s.accGo a (if line then none else some v)
      | .nack => .fault s { s.nackFault r with info0 := a.addr }
      | _ => .fault s { s.fault (if a.addr.getLsbD 63 then dMSLICE else 0x91) with info0 := a.addr }
    | _ => s.accGo a none

/-- The access of an instruction. -/
def State.acc (s : State) (k : AccKind) (sz : Sz) (sc : Scope) (addr data expect : Word) (dst : Reg) : Park :=
  ⟨k, addr, sz, sc, data, expect, dst, s.me.pc, false⟩

/-- ld, ld.sx (R198, R199). -/
def execLd (g : Guard) (sx : Bool) (sz : Sz) (d : Reg) (m : MAddr) (s : State) : Out :=
  issueU (.ld g sx sz d m) g (fun s => s.access (s.acc (.ld sx) sz .core (s.ea m sz.log) 0 0 d)) s
/-- st (R198, R199). -/
def execSt (g : Guard) (sz : Sz) (v : Reg) (m : MAddr) (s : State) : Out :=
  issueU (.st g sz v m) g (fun s => s.access (s.acc .st sz .core (s.ea m sz.log) (s.rg v) 0 0)) s
/-- lds (R198, R200). -/
def execLds (g : Guard) (sx : Bool) (sz : Sz) (sc : Scope) (acq : Bool) (d : Reg) (m : MAddr) (s : State) : Out :=
  issueU (.lds g sx sz sc acq d m) g (fun s => s.access (s.acc (.lds sx acq) sz sc (s.ea m sz.log) 0 0 d)) s
/-- sts (R198, R200). -/
def execSts (g : Guard) (sz : Sz) (sc : Scope) (rel : Bool) (v : Reg) (m : MAddr) (s : State) : Out :=
  issueU (.sts g sz sc rel v m) g (fun s => s.access (s.acc (.sts rel) sz sc (s.ea m sz.log) (s.rg v) 0 0)) s
/-- atom: the index field names the operand, and the destination holds cas's expected value (R202, R203). -/
def execAtom (g : Guard) (op : AtomOp) (sz : Sz) (sc : Scope) (ord : BitVec 2) (c : Bool) (d : Reg) (m : MAddr) (s : State) : Out :=
  issueU (.atom g op sz sc ord c d m) g
    (fun s => s.access (s.acc (.atom op ord c) sz sc (s.rg m.base + m.disp.signExtend 64) (s.rg m.idx) (s.rg d) d)) s
/-- red (R202, R203). -/
def execRed (g : Guard) (op : AtomOp) (sz : Sz) (sc : Scope) (rel c : Bool) (v : Reg) (m : MAddr) (s : State) : Out :=
  issueU (.red g op sz sc rel c v m) g (fun s => s.access (s.acc (.red op rel c) sz sc (s.ea m sz.log) (s.rg v) 0 0)) s

/-! ## Fences (R205) -/

/-- The named paths of the executing strand have performed everything issued before. -/
def State.pathsDone (s : State) (mask : BitVec 5) : Bool :=
  let k := s.myCore
  let me := s.cur.slot
  let mine (c : Cmd) : Bool := c.slot == me
  let loop := match k.seq with | .looping x _ _ => x == me | _ => false
  (!mask.getLsbD 0 || s.me.unacked == 0)
    && (!mask.getLsbD 1 || !(k.vbuf.any mine || k.vcur.any mine || loop))
    && (!mask.getLsbD 2 || !(k.mq.any mine || k.mcur.any mine))
    && (!mask.getLsbD 3 || !(k.copies.any fun c => c.slot == me))

/-- A combining entry that a fence or a move of a strand flushes at a scope: at a wide scope every one it has combined
into, otherwise one it has combined into at that scope or a narrower one (R204, R205). -/
def fenceComb (t : StrandId) (sc : Scope) (e : Comb) : Bool :=
  e.users.any fun u => u.1 == t.core.key && u.2.1 == t.slot && (!sc.inCrew || decide (u.2.2.num ≤ sc.num))
/-- Those entries flushed. -/
def State.fenceCombs (s : State) (t : StrandId) (sc : Scope) : State := s.flushCombs t.core.crewNo (fenceComb t sc)

/-- What a fence at a scope does to the crew cache (R205). -/
def State.fenceCache (s : State) (t : StrandId) (sc : Scope) (strandPath : Bool) : State :=
  let s := if strandPath || !sc.inCrew then s.fenceCombs t sc else s
  if sc.inCrew then s else (s.cleanWrittenBy t.core.crewNo t.core.local_).dropClean t.core.crewNo

/-- Something that a fence of a strand at a scope has to send waits for a port. -/
def State.fenceStuck (s : State) (t : StrandId) (sc : Scope) (strandPath : Bool) : Bool :=
  ((strandPath || !sc.inCrew) && s.stuckCombs t.core.crewNo (fenceComb t sc)) || (!sc.inCrew && s.stuckWrites t.core)

/-- fence (R205). -/
def execFence (g : Guard) (sc : Scope) (mask : BitVec 5) (s : State) : Out :=
  issueU (.fence g sc mask) g (fun s =>
    if s.pathsDone mask && !s.fenceStuck s.cur sc (mask.getLsbD 0) then .ok (s.fenceCache s.cur sc (mask.getLsbD 0))
    else s.at_ 0 []) s

/-! ## Prefetch, instruction lines and probes (R206 to R208) -/

/-- A translation with its checks and no alarm: tlbprobe and pref make no access. -/
def State.probe (s : State) (need : Need) (a : Word) : State × Except Nat Xlat :=
  if !mformOk a then (s, .error dMFORM)
  else match s.translate s.cur.core s.ctx false a.toNat with
    | (s, .error d) => (s, .error d)
    | (s, .ok e) =>
      match s.checkLoc s.super need (xlatOf e a.toNat) with
      | some d => (s, .error d)
      | none => (s, .ok (xlatOf e a.toNat))

/-- pref (R206). -/
def execPref (g : Guard) (sz : BitVec 3) (sc : Scope) (m : MAddr) (s : State) : Out :=
  issueU (.pref g sz sc m) g (fun s =>
    let a := s.ea m sz.toNat
    if a.getLsbD 63 then .ok s
    else match s.probe .r a with
      | (s, .error _) => .ok s
      | (s, .ok x) =>
        let c := s.cur.core
        if s.waitsAt c s.ctx a then .ok s
        else match s.arrive c s.ctx a.toNat x with
          | (s', .ok x) => .ok (s'.fillLine c.crewNo x)
          | (_, .error _) => .ok s) s

/-- iflush (R207). -/
def execIflush (g : Guard) (l b : Reg) (disp : Imm48) (s : State) : Out :=
  issueU (.iflush g l b disp) g (fun s =>
    let n := (s.rg l).toNat
    let a := (s.rg b + disp.signExtend 64).toNat
    .ok (s.modMyCore fun k =>
      { k with icache := if 2 ^ 24 ≤ n then [] else
          k.icache.filter fun x => !(decide (0 < n) && decide (64 * x.line < a + n) && decide (a < 64 * x.line + 64)) })) s

/-- The page-size code of a level (R208). -/
def sizeCode (lvl : Nat) : Nat := match lvl with | 5 => 0 | 4 => 1 | 3 => 2 | _ => 3

/-- What tlbprobe writes for a virtual address (R208). -/
def probeVal (r : Except Nat Xlat) : Word :=
  match r with
  | .ok x => BitVec.ofNat 64 (bitsN x.leaf.toNat 55 0 + sizeCode x.level * 2 ^ 56)
  | .error d => BitVec.ofNat 64 (2 ^ 63 + d)

/-- tlbprobe (R208). -/
def execTlbprobe (g : Guard) (sz : BitVec 3) (d : Reg) (m : MAddr) (s : State) : Out :=
  issueU (.tlbprobe g sz d m) g (fun s =>
    let a := s.ea m sz.toNat
    if a.getLsbD 63 then
      let good := mformOk a && match s.sliceOf s.cur.core a with
        | some (t, _) => s.sliceAllowed s.super s.ctx t
        | none => false
      .ok (s.wg d (BitVec.ofNat 64 (2 ^ 62 + if good then 1 else 0)))
    else
      let (s, r) := s.probe .r a
      match r with
      | .error e => if isWait e then .fault s (s.fault e) else .ok (s.wg d (probeVal r))
      | .ok _ => .ok (s.wg d (probeVal r))) s

end Sys2Proof.Machine
end

