-- ==== Sys2Proof/Machine/Net.lean ====
section
/-! DEFINITION. Meanings of the net instructions, OPs 0x90 to 0x9A: nodes, rule tables, linking, pairs and bags, pools,
outlets (R220 to R246, R392, R394). An nlink and its accesses are one step (R230). -/

namespace Sys2Proof.Machine

/-! ## Accesses (R224) -/

/-- A net access: a detail code, or a value; the state either way. -/
abbrev NetM (α : Type) := ExceptT Nat (StateM State) α

/-- A net operation run: the state and its outcome. -/
def State.net {α : Type} (s : State) (m : NetM α) : State × Except Nat α :=
  let (r, s) := StateT.run (ExceptT.run m) s
  (s, r)

/-- A word read at its home. -/
def nRead (a : Word) : NetM Word := fun s =>
  match s.readVa (s.asker s.cur) s.ctx s.super a 8 with
  | (s, .ok v) => (Except.ok (BitVec.ofNat 64 v), s)
  | (s, .error d) => (Except.error d, s)

/-- A word written for a requester at its home, the crew cache's copy cleaned and invalidated; an error is a detail code. -/
def State.nwrite (s : State) (q : Asker) (ctx : Nat) (super : Bool) (a v : Word) : State × Option Nat :=
  let c := q.core
  if a.getLsbD 63 || !mformOk a || s.waitsAt c ctx a then s.writeVa q ctx super a 8 v.toNat
  else match s.memAt c ctx super false .w a with
    | (s, .error d) => (s, some d)
    | (s, .ok x) =>
      let s := (s.flushAt c.crewNo x.pkg x.pa 8).evictAt c.crewNo x
      let k := s.homeKey x.pkg x.pa
      ((s.under x.key k 8).writeN k 8 v.toNat, none)

/-- A word written. -/
def nWrite (a v : Word) : NetM Unit := fun s =>
  match s.nwrite (s.asker s.cur) s.ctx s.super a v with
  | (s, none) => (Except.ok (), s)
  | (s, some d) => (Except.error d, s)

/-- A word's address lies within reach for a write; nothing is written (R241). -/
def nReach (a : Word) : NetM Unit := fun s =>
  if a.getLsbD 63 || !mformOk a then (match s.readVa (s.asker s.cur) s.ctx s.super a 8 with
    | (s, .ok _) => (Except.ok (), s)
    | (s, .error d) => (Except.error d, s))
  else match s.memAt s.cur.core s.ctx s.super false .w a with
    | (s, .ok _) => (Except.ok (), s)
    | (s, .error d) => (Except.error d, s)

/-- A fault of a net operation. -/
def nFail {α : Type} (d : Nat) : NetM α := fun s => (Except.error d, s)

/-! ## Names and port words (R221, R222) -/

/-- A node address (R222). -/
def nodeOk (a : Word) : Bool := a.toNat % 32 == 0 && (!a.getLsbD 63 || !a.getLsbD 62)
/-- A port name (R222). -/
def portOk (a : Word) : Bool := bitsN a.toNat 4 2 == 0 && a.toNat % 4 != 3 && (!a.getLsbD 63 || !a.getLsbD 62)
/-- Port index. -/
def portIdx (x : Word) : Nat := x.toNat % 4
/-- The node of a port name. -/
def portNode (x : Word) : Word := x &&& ~~~(0x1F#64)
/-- Where a port's word stands. -/
def portAddr (x : Word) : Word := portNode x + BitVec.ofNat 64 (8 * (portIdx x + 1))
/-- TAG. -/
def portTag (w : Word) : Nat := bitsN w.toNat 4 2
/-- The name, cell or outlet that a port word names. -/
def portName (w : Word) : Word := w &&& ~~~(0x1C#64)
/-- LINK(x). -/
def wLink (x : Word) : Word := x + 4
/-- REDIRECT(x). -/
def wRedirect (x : Word) : Word := x + 8
/-- NTAG of R221. -/
def tagBad (w : Word) : Bool := decide (5 ≤ portTag w) || portIdx w == 3 || ((portTag w == 3 || portTag w == 4) && portIdx w != 0)
/-- TYPE of a header. -/
def nodeType (h : Word) : Nat := bitsN h.toNat 63 52

/-! ## Linking (R229 to R232) -/

/-- What an nlink comes to: complete with the pairs of nodes to push and the outlets wired at principal ports; not yet, its
far end unpublished; waiting for its retired port to be cleared; or a join not yet, with the words its two ports held. -/
inductive LinkOut where
  | done (pairs : List (Word × Word)) (outlets : List (Word × Word))
  | retry (far : Word)
  | clear
  | rejoin (f g : Word)
deriving DecidableEq, Repr

/-- The pair of nodes of two principal ports (R235). -/
def principal (a b : Word) : List (Word × Word) := if portIdx a = 0 ∧ portIdx b = 0 then [(portNode a, portNode b)] else []

/-- A port word read; NTAG for a reserved tag or index (R221). -/
def nPort (x : Word) : NetM Word := do
  let w ← nRead (portAddr x)
  if tagBad w then nFail 0x7A else pure w

/-- The port that hops lead to from x; none where the owner of one of the nlink's own ports is completing the join. A fourth hop is NCHAIN
(R230, R231). -/
def followHops (own : List Word) : Nat → Word → NetM (Option Word)
  | 0, _ => nFail 0x72
  | n + 1, x => do
    let w ← nPort x
    if portTag w = 2 then
      if own.contains (portName w) then pure none else followHops own n (portName w)
    else pure (some x)

/-- Steps 2 and 3 of R230: t published at f, the far end of the retired port p. -/
def publish (p f t : Word) : NetM LinkOut := do
  let w ← nPort f
  if w = wLink p then
    nWrite (portAddr f) (wLink t)
    nWrite (portAddr t) (wLink f)
    pure (.done (principal t f) [])
  else if portTag w = 2 then
    if portName w = p ∨ portName w = f ∨ p.toNat < f.toNat then pure .clear
    else do
      match ← followHops [p, f] 4 (portName w) with
      | none => pure .clear
      | some x =>
        nWrite (portAddr x) (wLink t)
        nWrite (portAddr t) (wLink x)
        nWrite (portAddr f) 0
        pure (.done (principal t x) [])
  else pure (.retry f)

/-- The check of a retiring port's word: NTAG, or NSTATE for EMPTY and REDIRECT (R229). -/
def retireCheck (w : Word) : NetM Unit :=
  if tagBad w then nFail 0x7A else if portTag w = 0 ∨ portTag w = 2 then nFail 0x71 else pure ()

/-- A FREE or OUTLET end given a value: the cell, or the outlet's PORT (R223). -/
def writeEnd (w v : Word) : NetM Unit := nWrite (if portTag w = 3 then portName w else portName w + 8) v

/-- The outlet that a principal port is wired to (R238). -/
def outletOf (w t : Word) : List (Word × Word) := if portTag w = 4 ∧ portIdx t = 0 then [(portName w, portNode t)] else []

/-- nlink p, t, plain (R229). -/
def nlinkPlain (p t : Word) : NetM LinkOut := do
  nReach (portAddr p)
  nReach (portAddr t)
  let w ← nRead (portAddr p)
  retireCheck w
  if portTag w = 1 then
    nReach (portAddr (portName w))
    nWrite (portAddr p) (wRedirect t)
    publish p (portName w) t
  else
    writeEnd w (wLink t)
    nWrite (portAddr t) w
    nWrite (portAddr p) (wRedirect t)
    pure (.done [] (outletOf w t))

/-- One end of a join: the word that names the end beyond the retired port p whose word was w, and the retired port of a peer to clear; none
while that end is not yet published. other: the join's other port. A join completes for every peer it meets, since its two REDIRECT words
name each other and no peer follows them (R230; DEDUCED, log 34). -/
def joinEnd (p w other : Word) : NetM (Option (Word × Option Word)) := do
  if portTag w ≠ 1 then pure (some (w, none))
  else
    let f := portName w
    let v ← nPort f
    if v = wLink p then pure (some (w, none))
    else if portTag v = 2 ∧ !([p, f, other].contains (portName v)) then
      match ← followHops [p, f, other] 4 (portName v) with
      | some x => pure (some (wLink x, some f))
      | none => pure none
    else pure none

/-- A word put at the end that another word names: a port, a cell or an outlet's PORT. -/
def putEnd (at_ v : Word) : NetM Unit := if portTag at_ = 1 then nWrite (portAddr (portName at_)) v else writeEnd at_ v

/-- Retired ports of peers cleared. -/
def clearPorts : List Word → NetM Unit
  | [] => pure ()
  | x :: r => do
    nWrite (portAddr x) 0
    clearPorts r

/-- Steps 2 and 3 of a join of the retired ports p and q, whose words were f and g: each end gets the other's word (R229, R230). -/
def joinEnds (p q f g : Word) : NetM LinkOut := do
  let x ← joinEnd p f q
  let y ← joinEnd q g p
  match x, y with
  | some (f', cf), some (g', cg) =>
    putEnd f' g'
    putEnd g' f'
    clearPorts (cf.toList ++ cg.toList)
    if portTag f' = 1 ∧ portTag g' = 1 then pure (.done (principal (portName f') (portName g')) [])
    else pure (.done [] (if portTag f' = 1 then outletOf g' (portName f') else if portTag g' = 1 then outletOf f' (portName g') else []))
  | _, _ => pure (.rejoin f g)

/-- nlink.join p, q (R229, R230): step 1 at p and at q, then the two wires become one. The two ends of one wire joined leave no wire. -/
def nlinkJoin (p q : Word) : NetM LinkOut := do
  nReach (portAddr p)
  nReach (portAddr q)
  let f ← nRead (portAddr p)
  let g ← nRead (portAddr q)
  retireCheck f
  retireCheck g
  nWrite (portAddr p) (wRedirect q)
  nWrite (portAddr q) (wRedirect p)
  if f = wLink q ∧ g = wLink p then pure (.done [] []) else joinEnds p q f g

/-! ## Bags (R233 to R235) -/

/-- Entries in a core's spill area. -/
def Core.spillCount (k : Core) : Nat := k.spillTail - k.spillHead
/-- The address of a spill entry of a core (R233). -/
def State.spillAddr (s : State) (c : CoreId) (i : Nat) : Word :=
  (s.core c).spillbase + BitVec.ofNat 64 (8192 * (c.pkg * 102400 + c.row * 512 + c.col) + 16 * (i % 512))

/-- What a spill access that does not end comes to: it waits at the interface, or NSPILL (R233). -/
def spillCode (d : Nat) : Nat := if isWait d then d else 0x76

/-- Pairs written to a core's spill area by a requester there, oldest first, or a code of spillCode. -/
def State.spillOut (s : State) (q : Asker) (ctx : Nat) : List (Word × Word) → State × Option Nat
  | [] => (s, none)
  | p :: r =>
    let c := q.core
    match s.writeWords q ctx (ctx == 0) (s.spillAddr c (s.core c).spillTail) [p.1, p.2] with
    | (s, some d) => (s, some (spillCode d))
    | (s, none) => (s.modCore c fun k => { k with spillTail := k.spillTail + 1 }).spillOut q ctx r

/-- The newest n pairs moved back to the bottom of the hardware part, or a code of spillCode. -/
def State.spillIn (s : State) (q : Asker) (ctx : Nat) : Nat → State × Option Nat
  | 0 => (s, none)
  | n + 1 =>
    let c := q.core
    match s.readWords q ctx (ctx == 0) (s.spillAddr c ((s.core c).spillTail - 1)) 2 with
    | (s, .error d) => (s, some (spillCode d))
    | (s, .ok ws) =>
      (s.modCore c fun k => { k with bag := k.bag ++ [(ws.getD 0 0, ws.getD 1 0)], spillTail := k.spillTail - 1 }).spillIn q ctx n

/-- A strand that waits in nnext on an empty bag. -/
def Strand.waitsNet (t : Strand) : Bool := t.mode == .waiting && match t.hold with | .phase 30 _ => true | _ => false

/-- A pair has been placed: a strand that waits on the bag takes it (R392). -/
def State.bagPlaced (s : State) (c : CoreId) : State :=
  if (s.core c).users.any fun u => u.2.waitsNet then s.postOnce (.bagPop c) else s

/-- Pairs on their way to a neighbour. -/
def Core.shedding (k : Core) : Nat :=
  k.reqs.foldl (fun n r => match r.2.use, r.2.pkt with | .none, _ => n | _, .pairShed m => n + m.pairs.length | _, _ => n) 0
/-- The room left in the hardware part. DEDUCED: pairs on their way to a neighbour count as in the bag until it has answered, since it may take
none of them (log 34). -/
def Core.bagRoom (k : Core) : Nat := min (512 - k.bag.length) (1024 - (k.bag.length + k.spillCount + k.shedding))

/-- A local push (R233, R234), or a code of spillCode; one that waits has done nothing. DEDUCED: where fewer than 64 entries of the spill area are
free, so many pairs move there (log 34). -/
def State.pushLocal (s : State) (q : Asker) (ctx : Nat) (p : Word × Word) : State × Option Nat :=
  let c := q.core
  let k := s.core c
  let place (s : State) : State := (s.modCore c fun k => { k with bag := p :: k.bag }).bagPlaced c
  if 0 < k.bagRoom then (place s, none)
  else if 1024 ≤ k.bag.length + k.spillCount + k.shedding ∨ 512 ≤ k.spillCount then (s, some 0x76)
  else
    let n := min 64 (512 - k.spillCount)
    match s.spillOut q ctx (k.bag.drop (k.bag.length - n)).reverse with
    | (s', some d) => if isWait d then (s, some d) else (s'.modCore c fun x => { x with spillTail := k.spillTail }, some d)
    | (s, none) => (place (s.modCore c fun k => { k with bag := k.bag.take (k.bag.length - n) }), none)

/-- A core takes a pair from another core (R234, R235). -/
def State.takesPair (s : State) (c : CoreId) (ctx : Nat) : Bool :=
  let k := s.core c
  !k.retired && k.ctx == ctx && decide (0 < k.bagRoom)

/-- The core whose bag a pair goes to: the owner of the node with the lower address (R235). -/
def State.pairOwner (s : State) (p : Word × Word) : CoreId :=
  let a := if p.1.toNat ≤ p.2.toNat then p.1 else p.2
  if a.getLsbD 63 then match s.sliceOf s.cur.core a with
    | some (t, _) => t
    | none => s.cur.core
  else s.cur.core

/-- A push made inside nnext (R235): at the owner, or on the own bag where the owner refuses; or a code of spillCode. -/
def State.pushPair (s : State) (p : Word × Word) : State × Option Nat :=
  let c := s.pairOwner p
  if c ≠ s.cur.core ∧ s.blocked s.cur.core.pkg c.pkg then (s, some dWait)
  else if c ≠ s.cur.core ∧ s.takesPair c s.ctx ∧ !(s.core c).dead ∧ !s.fencedAt c.pkg s.ctx ∧ !s.severed s.cur.core.pkg c.pkg then
    ((s.modCore c fun k => { k with bag := p :: k.bag }).bagPlaced c, none)
  else s.pushLocal (s.asker s.cur) s.ctx p

/-- Pairs as the numbers of a hold. -/
def pairNats (l : List (Word × Word)) : List Nat := l.flatMap fun p => [p.1.toNat, p.2.toNat]
/-- The pairs of a hold's numbers. -/
def natPairs : List Nat → List (Word × Word)
  | a :: b :: r => (BitVec.ofNat 64 a, BitVec.ofNat 64 b) :: natPairs r
  | _ => []

/-- The NSPILL fault of a pair. -/
def State.spillFault (s : State) (p : Word × Word) : Report := { s.fault 0x76 with info0 := p.1, info1 := p.2 }

/-- A pair leaves the deque: the top, or the bottom at every 256th pop; none where it is empty; or a code of spillCode. A pop that finds the
hardware part empty first moves the newest 64 pairs, or fewer, back to it (R233, R234). -/
def State.popPair (s : State) (q : Asker) (ctx : Nat) : State × Except Nat (Option (Word × Word)) :=
  let c := q.core
  let k := s.core c
  if k.bag.isEmpty && k.spillCount == 0 then (s, .ok none)
  else
    let bottom := (k.popped + 1) % 256 == 0
    let s := s.modCore c fun k => { k with popped := k.popped + 1 }
    match (if k.bag.isEmpty then s.spillIn q ctx (min 64 k.spillCount) else (s, none)) with
    | (s, some d) => (s, .error d)
    | (s, none) =>
      let k := s.core c
      if bottom && k.spillCount != 0 then
        match s.readWords q ctx (ctx == 0) (s.spillAddr c k.spillHead) 2 with
        | (s, .error d) => (s, .error (spillCode d))
        | (s, .ok ws) => (s.modCore c fun k => { k with spillHead := k.spillHead + 1 }, .ok (some (ws.getD 0 0, ws.getD 1 0)))
      else match k.bag with
        | [] => (s, .ok none)
        | p :: r =>
          if bottom then (s.modCore c fun x => { x with bag := k.bag.dropLast }, .ok (some (k.bag.getLastD p)))
          else (s.modCore c fun x => { x with bag := r }, .ok (some p))

/-! ## Outlets (R238) -/

/-- The NOUTLET upcall left for a strand's next instruction. -/
def State.noutlet (s : State) (t : StrandId) : State :=
  s.modStrand t fun x => { x with upcalls := x.upcalls ++ [faultAt x.pc 0x78] }

/-- An outlet's offer under a handle that names no event, its SCOPE or a reserved bit being wrong: refused with EVHANDLE (R238, R256; DEDUCED, log
34). -/
def State.hwRefused (s : State) (c : CoreId) (n ctx : Nat) (h : Word) (sid : Nat) (outlet : Option (Nat × Nat)) : State :=
  let ev := s.evIdOf ctx c h
  let x : OfferRec := { st := .opened, named := [⟨0, ev, s.homeOf c ev, hRank h, false, none⟩], serial := s.freeN }
  let s := s.fresh.modCore c fun k => { k with hwrecs := k.hwrecs ++ [⟨.net, n, x, sid, outlet⟩] }
  s.postStep (.offerRefusal (.hw c .net n) ev ⟨0x80, x.serial, s.homeOf c ev⟩)

/-- A principal port has been wired to an outlet: the node's bytes are offered as they stand then, or OSTATE becomes FAILED; the net unit judges
the event by the handle's KIND alone (R238, R394). -/
def outletWire (o node : Word) : NetM Unit := do
  let h ← nRead o
  let st ← nRead (o + 0x10)
  if st.toNat % 4 = 0 ∧ (hKind h = .sync ∨ hKind h = .xfer) then
    let w0 ← nRead node
    let w1 ← nRead (node + 8)
    let w2 ← nRead (node + 16)
    let w3 ← nRead (node + 24)
    nWrite (o + 0x10) 1
    fun s =>
      let c := s.cur.core
      let bs := [w0, w1, w2, w3].flatMap fun w => leBytes 8 w.toNat
      let n := (s.core c).newHw .net
      (Except.ok (), if hOk h then s.hwOffer c .net n s.ctx h (hRank h) (.bytes bs) s.cur.gid (some (s.cur.slot, o.toNat))
        else s.hwRefused c n s.ctx h s.cur.gid (some (s.cur.slot, o.toNat)))
  else
    nWrite (o + 0x10) 2
    fun s => (Except.ok (), s.noutlet s.cur)

/-- The outlets of an nlink or rule served in turn. -/
def outletsWire : List (Word × Word) → NetM Unit
  | [] => pure ()
  | p :: r => do
    outletWire p.1 p.2
    outletsWire r

/-- OSTATE of an outlet whose offer was refused becomes FAILED (R238); an error is a code of isWait that the write meets. ctx: the context of the
offer. -/
def State.outletFailed (s : State) (c : CoreId) (ctx o : Nat) (refused : Option Nat) : Except Nat State :=
  match refused with
  | none => .ok s
  | some _ =>
    match s.nwrite (s.partOf c 2) ctx (ctx == 0) (BitVec.ofNat 64 (o + 0x10)) 2 with
    | (s, none) => .ok (s.partMet c 2 0)
    | (s, some d) => if isWait d then .error d else .ok (s.partMet c 2 0)
/-- An outlet's offer has ended; a refusal raises NOUTLET at the wiring strand, by the id that it has now, while it lives (R238). -/
def State.outletEnded (s : State) (sid : Nat) (refused : Option Nat) : State :=
  if refused.isNone ∨ sid = noSid then s else s.noutlet (strandOfGid sid)

/-! ## Pools (R237, R240) -/

/-- Slice offset of a pool's header. -/
def poolOff (n : Nat) : Nat := 0x1F800 + 64 * n
/-- A pool is defined. -/
def State.poolDefined (s : State) (c : CoreId) (n : Nat) : Bool := s.sread c (poolOff n + 0x10) 4 != 0
/-- Slots a pool can supply. -/
def State.poolAvail (s : State) (c : CoreId) (n : Nat) : Nat :=
  if s.poolDefined c n then
    s.sread c (poolOff n + 0x10) 4 - s.sread c (poolOff n + 0x14) 4 + s.sread c (poolOff n + 0x18) 4
  else 0
/-- A header word written, by the net unit. -/
def poolSet (c : CoreId) (n off len v : Nat) : NetM Unit := fun s => (Except.ok (), s.swrite c (poolOff n + off) len v)

/-- nalloc (R240): the node's address. -/
def nallocM (n : Nat) (hdr : Word) : NetM Word := do
  let s ← get
  let c := s.cur.core
  let head := s.sread c (poolOff n + 8) 8
  let carved := s.sread c (poolOff n + 0x14) 4
  let slots := s.sread c (poolOff n + 0x10) 4
  let listed := s.sread c (poolOff n + 0x18) 4
  if slots = 0 then nFail 0x75
  else
    let clear (a : Word) : NetM Word := do
      nWrite a hdr
      nWrite (a + 8) 0
      nWrite (a + 16) 0
      nWrite (a + 24) 0
      pure a
    if head ≠ 0 then do
      let a : Word := BitVec.ofNat 64 head
      let next ← nRead a
      let a ← clear a
      poolSet c n 8 8 next.toNat
      poolSet c n 0x18 8 ((listed + 2 ^ 32 - 1) % 2 ^ 32)
      pure a
    else if carved < slots then do
      let a ← clear (BitVec.ofNat 64 (s.sread c (poolOff n) 8 + 32 * carved))
      poolSet c n 0x14 4 (carved + 1)
      pure a
    else nFail 0x74

/-- nfree (R240). -/
def nfreeM (n : Nat) (a : Word) : NetM Unit := do
  let s ← get
  let c := s.cur.core
  if s.sread c (poolOff n + 0x10) 4 = 0 then nFail 0x75
  else do
    nWrite a (BitVec.ofNat 64 (s.sread c (poolOff n + 8) 8))
    poolSet c n 8 8 a.toNat
    poolSet c n 0x18 8 ((s.sread c (poolOff n + 0x18) 4 + 1) % 2 ^ 32)

/-! ## Instructions -/

/-- Release semantics at domain scope: the strand's stores are acknowledged and the core's lines cleaned (R224). -/
def State.netRelease (s : State) : Option State :=
  if s.me.unacked ≠ 0 || s.stuckWrites s.cur.core then none else some (s.cleanWrittenBy s.cur.core.crewNo s.cur.core.local_)

/-- rtab (R226, R244). -/
def execRtab (g : Guard) (a : Reg) (l : BitVec 5) (s : State) : Out :=
  issueU (.rtab g a l) g (fun s =>
    let v := s.rg a
    if v.toNat % 64 ≠ 0 then .fault s (s.fault 0x7B)
    else .ok (s.modMyCore fun k => { k with rulebase := v ||| l.setWidth 64, rules := [] })) s

/-- nalloc (R240). -/
def execNalloc (g : Guard) (d a : Reg) (n : BitVec 3) (s : State) : Out :=
  issueU (.nalloc g d a n) g (fun s =>
    match s.net (nallocM n.toNat (s.rg a)) with
    | (s', .ok x) => .ok (s'.wg d x)
    | (s', .error dt) => .fault s' (s.fault dt)) s

/-- nfree (R240). -/
def execNfree (g : Guard) (a : Reg) (n : BitVec 3) (s : State) : Out :=
  issueU (.nfree g a n) g (fun s =>
    if !nodeOk (s.rg a) then .fault s (s.fault 0x70)
    else match s.netRelease with
      | none => s.at_ 0 []
      | some s1 =>
        match s1.net (nfreeM n.toNat (s.rg a)) with
        | (s', .ok _) => .ok s'
        | (s', .error dt) => .fault s' (s.faultA dt (s.rg a))) s

/-- nget (R240): no redirect is followed. -/
def execNget (g : Guard) (d a : Reg) (i : BitVec 2) (s : State) : Out :=
  issueU (.nget g d a i) g (fun s =>
    let x := s.rg a + BitVec.ofNat 64 (8 * i.toNat)
    if !nodeOk (s.rg a) then .fault s (s.fault 0x70)
    else match s.net (nRead x) with
      | (s', .ok v) => .ok (s'.wg d v)
      | (s', .error dt) => .fault s' (s.faultA dt x)) s

/-- nset (R240). -/
def execNset (g : Guard) (a : Reg) (i : BitVec 2) (b : Reg) (s : State) : Out :=
  issueU (.nset g a i b) g (fun s =>
    let x := s.rg a + BitVec.ofNat 64 (8 * i.toNat)
    if !nodeOk (s.rg a) then .fault s (s.fault 0x70)
    else match s.net (nWrite x (s.rg b)) with
      | (s', .ok _) => .ok s'
      | (s', .error dt) => .fault s' (s.faultA dt x)) s

/-- A push of one pair by an instruction on the own bag: placed, NSPILL, or held while a spill access waits. -/
def State.pushOwn (s : State) (p : Word × Word) : Res :=
  match s.pushLocal (s.asker s.cur) s.ctx p with
  | (s', none) => .ok s'
  | (s', some d) => if isWait d then (s.waited s.cur d).at_ 14 (pairNats [p]) else .fault s' (s.spillFault p)

/-- A push of one pair by an instruction: at once on the own bag, or by a packet to the owner, on which the strand waits. -/
def State.pushBy (s : State) (p : Word × Word) : Res :=
  let c := s.pairOwner p
  if c = s.cur.core then s.pushOwn p
  else
    s.ask c 0 fun tag => .pairPush ⟨⟨c, s.cur.core, s.cur.slot, tag, s.ctx, {}⟩, [p]⟩

/-- A packet was refused as malformed (R289). -/
def Answer.malformed (a : Answer) : Bool := a.status == .nack && decide (a.cause ≤ 4)

/-- The answer to a push: a refused pair goes to the top of the pusher's own bag (R235); FNACK for a malformed packet, with the pair of an nlink,
whose wiring stands, on the own bag (R289; DEDUCED, log 34). -/
def State.pushAnswer (s : State) (a : Answer) (p : Word × Word) (wired : Bool) : Res :=
  if a.status = .ack then .ok s
  else if a.malformed then
    if !wired then .fault s (s.nackFault a)
    else match s.pushLocal (s.asker s.cur) s.ctx p with
      | (s', none) => .fault s' (s.nackFault a)
      | (s', some d) => if isWait d then .hold (s.waited s.cur d) else .fault s' (s.nackFault a)
  else s.pushOwn p

/-- The pair that a pushed node pair of an nlink makes, for its answer: kept with the request as the packet's own. -/
def npushPair (ws : List Word) : Word × Word := (ws.getD 0 0, ws.getD 1 0)

/-- An nlink and the outlets that it wires, in one. -/
def linked (m : NetM LinkOut) : NetM LinkOut := do
  match ← m with
  | .done pairs outlets =>
    outletsWire outlets
    pure (.done pairs [])
  | r => pure r

/-- An nlink's outcome put into effect (R229 to R235, R238). -/
def State.linkOut (s0 s : State) (p t : Word) (r : Except Nat LinkOut) : Res :=
  match r with
  | .error d => .fault s (s0.faultA d p)
  | .ok (.retry f) => s.at_ 11 [p.toNat, f.toNat, t.toNat]
  | .ok .clear => s.at_ 12 [p.toNat]
  | .ok (.rejoin f g) => s.at_ 13 [p.toNat, t.toNat, f.toNat, g.toNat]
  | .ok (.done [] _) => .ok s
  | .ok (.done (x :: _) _) => s.pushBy x

/-- The checks of nlink's port names (R222, R241). -/
def linkNamesOk (p t : Word) : Bool := portOk p && portOk t && p != t

/-- An nlink, plain or join, at its first turn or at a later one. -/
def State.nlinkRun (s : State) (join : Bool) (p t : Word) : Res :=
  match s.me.hold with
  | .got a => s.pushAnswer a (npushPair a.data) true
  | .wait _ => .hold s
  | .phase 14 [a, b] => s.pushOwn (BitVec.ofNat 64 a, BitVec.ofNat 64 b)
  | .phase 11 [p, f, t] =>
    let (s', r) := s.net (linked (publish (BitVec.ofNat 64 p) (BitVec.ofNat 64 f) (BitVec.ofNat 64 t)))
    s.linkOut s' (BitVec.ofNat 64 p) (BitVec.ofNat 64 t) r
  | .phase 13 [p, q, f, g] =>
    let (s', r) := s.net (linked (joinEnds (BitVec.ofNat 64 p) (BitVec.ofNat 64 q) (BitVec.ofNat 64 f) (BitVec.ofNat 64 g)))
    s.linkOut s' (BitVec.ofNat 64 p) (BitVec.ofNat 64 q) r
  | .phase 12 [p] =>
    let (s', r) := s.net (nRead (portAddr (BitVec.ofNat 64 p)))
    match r with
    | .error d => .fault s' (s.faultA d (BitVec.ofNat 64 p))
    | .ok w => if w = 0 then .ok s' else s'.at_ 12 [p]
  | _ =>
    if !linkNamesOk p t then .fault s (s.fault 0x70)
    else match s.netRelease with
      | none => s.at_ 0 []
      | some s1 =>
        let (s', r) := s1.net (linked (if join then nlinkJoin p t else nlinkPlain p t))
        s.linkOut s' p t r

/-- nlink (R229 to R232, R241). -/
def execNlink (g : Guard) (a b : Reg) (s : State) : Out :=
  issueU (.nlink g a b) g (fun s => s.nlinkRun false (s.rg a) (s.rg b)) s
/-- nlink.join (R229 to R232, R241). -/
def execNlinkJoin (g : Guard) (a b : Reg) (s : State) : Out :=
  issueU (.nlinkJoin g a b) g (fun s => s.nlinkRun true (s.rg a) (s.rg b)) s

/-- npush (R235, R241). -/
def execNpush (g : Guard) (a b : Reg) (s : State) : Out :=
  issueU (.npush g a b) g (fun s =>
    let p := (s.rg a, s.rg b)
    match s.me.hold with
    | .got r => s.pushAnswer r p false
    | .wait _ => .hold s
    | .phase 14 _ => s.pushOwn p
    | _ =>
      if !nodeOk p.1 || !nodeOk p.2 then .fault s (s.fault 0x70)
      else match s.netRelease with
        | none => s.at_ 0 []
        | some s => s.pushBy p) s

/-! ## Rules (R225 to R228) -/

/-- A rule table entry. -/
structure Rule where
  hword : Nat
  kind  : Nat
  erab  : Bool
  hpc   : Word
deriving DecidableEq, Repr

/-- An entry's fields; an error is NRULE for an entry not in use, NRTAB for a malformed one (R225, R226). -/
def ruleOf (w0 w1 : Word) : Except Nat (Nat × Nat × Rule) :=
  let x := w0.toNat
  let kind := bitsN x 31 30
  if !w0.getLsbD 24 then .error 0x73
  else if bitsN x 29 26 ≠ 0 ∨ (w0.getLsbD 25 ∧ kind ≠ 2) ∨ bitsN x 23 12 < bitsN x 11 0 ∨ (kind ≠ 0 ∧ w1 ≠ 0) then .error 0x7B
  else .ok (bitsN x 11 0, bitsN x 23 12, ⟨bitsN x 63 32, kind, w0.getLsbD 25, w1⟩)

/-- The probes of a lookup; fuel: the entries left. -/
def probeRules (base : Word) (l a b : Nat) : Nat → Nat → NetM (List Word)
  | 0, _ => nFail 0x73
  | n + 1, i => do
    let at_ := base + BitVec.ofNat 64 (16 * i)
    let w0 ← nRead at_
    let w1 ← nRead (at_ + 8)
    match ruleOf w0 w1 with
    | .error d => nFail d
    | .ok (x, y, _) => if x = a ∧ y = b then pure [w0, w1] else probeRules base l a b n ((i + 1) % 2 ^ l)

/-- A lookup through the rule cache, least recently used leaving (R226). -/
def lookupRule (a b : Nat) : NetM (List Word) := do
  let s ← get
  let k := s.myCore
  let key := a * 4096 + b
  let keep (ws : List Word) : NetM (List Word) := fun s =>
    (Except.ok ws, s.modMyCore fun k => { k with rules := ((key, ws) :: k.rules.filter fun r => r.1 != key).take 64 })
  match k.rules.find? fun r => r.1 == key with
  | some (_, ws) => keep ws
  | none =>
    let l := k.rulebase.toNat % 32
    let ws ← probeRules (k.rulebase &&& ~~~(0x3F#64)) l a b (2 ^ l) ((mix64 (BitVec.ofNat 64 key)).toNat % 2 ^ l)
    keep ws

/-- What applying a built-in rule gives: the pairs pushed. -/
abbrev RuleOut := List (Word × Word)

/-- One nlink inside a built-in rule, with the outlets that it wires: its pairs; a wait of the protocol there stops the rule (R230, R238). -/
def ruleLink (join : Bool) (p t : Word) : NetM RuleOut := do
  match ← linked (if join then nlinkJoin p t else nlinkPlain p t) with
  | .done a _ => pure a
  | .retry _ | .clear | .rejoin _ _ => nFail 0x100

/-- Port i of a node. -/
def portOf (a : Word) (i : Nat) : Word := a + BitVec.ofNat 64 i

/-- The requirement check's view of an auxiliary port: EMPTY or not; NTAG for a reserved tag. DESIGN CHOICE: a word with TAG 0 and other bits set is
not EMPTY here, where the whole word is compared, and EMPTY to the check of a retiring port, which looks at its tag (log 34). -/
def auxWord (a : Word) (i : Nat) : NetM Word := do
  let w ← nRead (portAddr (portOf a i))
  if tagBad w then nFail 0x7A else pure w

/-- ANN (R228). -/
def ruleAnn (a b : Word) : NetM RuleOut := do
  let a1 ← auxWord a 1
  let a2 ← auxWord a 2
  let b1 ← auxWord b 1
  let b2 ← auxWord b 2
  if (a1 == 0) != (b1 == 0) || (a2 == 0) != (b2 == 0) then nFail 0x79
  else do
    let x ← if a1 = 0 then pure [] else ruleLink true (portOf a 1) (portOf b 1)
    let y ← if a2 = 0 then pure [] else ruleLink true (portOf a 2) (portOf b 2)
    nfreeM 0 a
    nfreeM 0 b
    pure (x ++ y)

/-- ERA (R228): e the eraser, x the other node, h the eraser's header. DEDUCED: where both hold, NARITY is reported before NPOOL (log 34). -/
def ruleEra (e x h : Word) : NetM RuleOut := do
  let e1 ← auxWord e 1
  let e2 ← auxWord e 2
  let x1 ← auxWord x 1
  let x2 ← auxWord x 2
  if e1 ≠ 0 ∨ e2 ≠ 0 then nFail 0x79
  else
    let s ← get
    if x1 ≠ 0 ∧ x2 ≠ 0 ∧ s.poolAvail s.cur.core 0 < 1 then nFail 0x74
    else if x1 = 0 ∧ x2 = 0 then do
      nfreeM 0 x
      nfreeM 0 e
      pure []
    else do
      let l1 ← if x1 = 0 then pure [] else ruleLink false (portOf x 1) e
      let l2 ← if x2 = 0 then pure []
        else if x1 = 0 then ruleLink false (portOf x 2) e
        else do
          let z ← nallocM 0 h
          ruleLink false (portOf x 2) z
      nfreeM 0 x
      pure (l1 ++ l2)

/-- COMM (R228). DEDUCED: where both hold, NARITY (or NTAG) is reported before NPOOL (log 34). -/
def ruleComm (a b ha hb : Word) : NetM RuleOut := do
  let a1 ← auxWord a 1
  let a2 ← auxWord a 2
  let b1 ← auxWord b 1
  let b2 ← auxWord b 2
  if a1 = 0 ∨ a2 = 0 ∨ b1 = 0 ∨ b2 = 0 then nFail 0x79
  else
    let s ← get
    if s.poolAvail s.cur.core 0 < 4 then nFail 0x74
    else do
      let nb1 ← nallocM 0 hb
      let nb2 ← nallocM 0 hb
      let na1 ← nallocM 0 ha
      let na2 ← nallocM 0 ha
      let wire (x y : Word) : NetM Unit := do
        nWrite (portAddr x) (wLink y)
        nWrite (portAddr y) (wLink x)
      wire (portOf nb1 1) (portOf na1 1)
      wire (portOf nb1 2) (portOf na2 1)
      wire (portOf nb2 1) (portOf na1 2)
      wire (portOf nb2 2) (portOf na2 2)
      let l1 ← ruleLink false (portOf a 1) nb1
      let l2 ← ruleLink false (portOf a 2) nb2
      let l3 ← ruleLink false (portOf b 1) na1
      let l4 ← ruleLink false (portOf b 2) na2
      nfreeM 0 a
      nfreeM 0 b
      pure (l1 ++ l2 ++ l3 ++ l4)

/-- The release of a built-in rule's nlinks and nfrees: the strand's stores are acknowledged, else the rule waits, and the core's lines
cleaned (R224). -/
def nRelease : NetM Unit := fun s =>
  match s.netRelease with
  | some s => (Except.ok (), s)
  | none => (Except.error 0x100, s)

/-- A pair looked up and, for a built-in kind, rewritten: the canonical pair with its headers and entry, and what the rule gave. -/
def netPair (p : Word × Word) : NetM ((Word × Word × Word × Word) × Rule × Option RuleOut) := do
  let h0 ← nRead p.1
  let h1 ← nRead p.2
  let swap := nodeType h1 < nodeType h0 ∨ (nodeType h0 = nodeType h1 ∧ p.2.toNat < p.1.toNat)
  let (a, b, ha, hb) := if swap then (p.2, p.1, h1, h0) else (p.1, p.2, h0, h1)
  let ws ← lookupRule (nodeType ha) (nodeType hb)
  match ruleOf (ws.getD 0 0) (ws.getD 1 0) with
  | .error d => nFail d
  | .ok (_, _, r) =>
    if r.kind = 0 then pure ((a, b, ha, hb), r, none)
    else
      let s ← get
      if !s.poolDefined s.cur.core 0 then nFail 0x75
      else do
        nRelease
        let out ← match r.kind with
          | 1 => ruleAnn a b
          | 2 => if r.erab then ruleEra b a hb else ruleEra a b ha
          | _ => ruleComm a b ha hb
        pure ((a, b, ha, hb), r, some out)

/-- A yield point inside nnext or amnext (R242, R297, R335): BUDGET, a pending move, then a notice, both with the PC after the
instruction (R106); none where the strand goes on. -/
def State.yieldHere (s : State) : State × Option Res :=
  let s := s.reload s.cur s.me.lastDl s.me.lastLive
  if s.me.taker.isSome then (s, some (.placed (s.advance.modMe fun t => { t with mode := .taken })))
  else if s.me.notices.isEmpty then (s, none)
  else match s.inUse s.cur with
    | (s, .ok true) => (s, none)
    | (s, .ok false) => (s, some (.placed (s.advance.deliverNotice s.cur)))
    | (s, .error d) => (s, some (if isWait d then .fault s (s.fault d) else .placed (s.advance.deliverNotice s.cur)))

/-- The pairs of a built-in rule pushed in turn, after which the loop goes on: fails are those in no bag. Where more than one push of a rule fails,
the strand gets an NSPILL for each other pair at its next instruction (DEDUCED, log 34). -/
def State.pushAll (s : State) (n : Nat) (fails : List (Word × Word)) : List (Word × Word) → Res
  | [] => match fails with
    | [] => s.at_ 32 [n + 1]
    | x :: r => .fault (s.modMe fun t => { t with upcalls := t.upcalls ++ r.map s.spillFault }) (s.spillFault x)
  | p :: rest =>
    match s.pushPair p with
    | (s', none) => s'.pushAll n fails rest
    | (s', some d) => if isWait d then (s.waited s.cur d).at_ 33 (n :: fails.length :: pairNats (fails ++ p :: rest)) else s'.pushAll n (fails ++ [p]) rest

/-- A pair in hand: a handler is entered, or a built-in rule applied; n built-ins so far. A fault records the pair (R242). -/
def State.netStep (s : State) (p : Word × Word) (n : Nat) : Res :=
  let (s', r) := s.net (netPair p)
  match r with
  | .error 0x100 => s.at_ 31 [p.1.toNat, p.2.toNat, n]
  | .error d => .fault s' { s.fault d with info0 := p.1, info1 := p.2 }
  | .ok ((a, b, ha, hb), ru, none) =>
    .jump ((((((s'.wg 1 a).wg 2 b).wg 3 ha).wg 4 hb).wg 5 (BitVec.ofNat 64 ru.hword))) ru.hpc true
  | .ok (_, _, some out) => s'.pushAll n [] out

/-- The loop of nnext goes on: a pair is popped, or the strand waits on an empty bag. -/
def State.netLoop (s : State) (n : Nat) : Res :=
  match s.popPair (s.asker s.cur) s.ctx with
  | (s', .error d) => .fault s' (s.fault d)
  | (s', .ok none) => .hold (s'.modMe fun t => { t with mode := .waiting, hold := .phase 30 [n] })
  | (s', .ok (some p)) => s'.netStep p n

/-- A fault after a yield point has reloaded BUDGET lowers it no further: the instruction is no other instruction of R104. -/
def Res.reloaded : Res → Res
  | .fault s r => if isWait r.detail then .fault s r else .placed (s.raiseMe r)
  | r => r

/-- nnext (R242): one pair a turn. -/
def execNnext (g : Guard) (s : State) : Out :=
  issueY (.nnext g) g (fun s =>
    match s.me.hold with
    | .phase 31 [a, b, n] => s.netStep (BitVec.ofNat 64 a, BitVec.ofNat 64 b) n
    | .phase 33 (n :: f :: l) => s.pushAll n ((natPairs l).take f) ((natPairs l).drop f)
    | .phase 32 [n] =>
      if n % 16 = 0 then
        match s.yieldHere with
        | (_, some r) => r
        | (s, none) => (s.netLoop n).reloaded
      else s.netLoop n
    | .phase 30 _ => .hold s
    | _ =>
      if s.me.role ≠ 1 then .fault s (s.fault 0x77)
      else if s.myCore.rulebase.toNat % 32 < 4 ∨ 20 < s.myCore.rulebase.toNat % 32 then .fault s (s.fault 0x7B)
      else match s.yieldHere with
        | (_, some r) => r
        | (s, none) => (s.netLoop 0).reloaded) s

/-- BAG_POP (R392): the waiting strand in the lowest slot takes the first pair placed; nothing of a machine-checked core moves (R350). -/
def execBagPop (c : CoreId) (s : State) : Out :=
  let k := s.core c
  match (k.users.filter fun u => u.2.waitsNet).head?, k.bag.getLast? with
  | some (slot, t), some p =>
    if k.dead then .next s else
    let n := match t.hold with | .phase 30 [n] => n | _ => 0
    let s := s.modCore c fun k => { k with bag := k.bag.dropLast, popped := k.popped + 1 }
    let s := s.modStrand ⟨c, slot⟩ fun t => { t with mode := .ready, hold := .phase 31 [p.1.toNat, p.2.toNat, n] }
    .next (s.bagPlaced c)
  | _, _ => .next s

/-! ## Shedding and pools (R237, R243) -/

/-- The neighbour of a core in a direction (R12). -/
def neighbour (c : CoreId) (d : ShedDir) : CoreId :=
  match d with
  | .pcol => { c with col := (c.col + 1) % 512 }
  | .mcol => { c with col := (c.col + 511) % 512 }
  | .prow => { c with row := (c.row + 1) % 200 }
  | .mrow => { c with row := (c.row + 199) % 200 }

/-- Up to n pairs taken from the bottom of the deque, spill area first; an error is a code of isWait that a spill access meets. DEDUCED: a spill access that faults ends
the taking, and what has been taken is shed (log 34). -/
def State.takeBottom (s : State) (q : Asker) (ctx : Nat) : Nat → Except Nat (State × List (Word × Word))
  | 0 => .ok (s, [])
  | n + 1 =>
    let c := q.core
    let k := s.core c
    if k.spillCount ≠ 0 then
      match s.readWords q ctx (ctx == 0) (s.spillAddr c k.spillHead) 2 with
      | (s, .error d) => if isWait d then .error d else .ok (s, [])
      | (s, .ok ws) =>
        ((s.modCore c fun k => { k with spillHead := k.spillHead + 1 }).takeBottom q ctx n).map fun r =>
          (r.1, (ws.getD 0 0, ws.getD 1 0) :: r.2)
    else match k.bag.getLast? with
      | none => .ok (s, [])
      | some p => ((s.modCore c fun k => { k with bag := k.bag.dropLast }).takeBottom q ctx n).map fun r => (r.1, p :: r.2)

/-- Pairs of a flat list of words. -/
def pairsOf : List Word → List (Word × Word)
  | a :: b :: r => (a, b) :: pairsOf r
  | _ => []

/-- A pair returned to the bottom of the deque: into the spill area while it holds any or the hardware part is full; from a full spill area the
newest moves up first. DEDUCED: a pair whose spill access faults stays in the hardware part (log 34). An error is a code of isWait. -/
def State.putOne (s : State) (q : Asker) (ctx : Nat) (p : Word × Word) : Except Nat State :=
  let c := q.core
  match (if 512 ≤ (s.core c).spillCount then s.spillIn q ctx 1 else (s, none)) with
  | (u, m) =>
    if m.any isWait then .error (m.getD 0)
    else
      let k := u.core c
      if (k.spillCount = 0 ∧ k.bag.length < 512) ∨ 512 ≤ k.spillCount then .ok (u.modCore c fun k => { k with bag := k.bag ++ [p] })
      else
        let u := if k.spillHead = 0 then u.modCore c fun k => { k with spillHead := 512, spillTail := k.spillTail + 512 } else u
        match u.writeWords q ctx (ctx == 0) (u.spillAddr c ((u.core c).spillHead - 1)) [p.1, p.2] with
        | (u, none) => .ok (u.modCore c fun k => { k with spillHead := k.spillHead - 1 })
        | (u, some d) => if isWait d then .error d else .ok (u.modCore c fun k => { k with bag := k.bag ++ [p] })
/-- Pairs returned to the bottom of the deque, given bottom first. -/
def State.putBottom (s : State) (q : Asker) (ctx : Nat) : List (Word × Word) → Except Nat State
  | [] => .ok s
  | p :: r => match s.putBottom q ctx r with
    | .error d => .error d
    | .ok s => s.putOne q ctx p

/-- Pairs that a neighbour did not take come back, and a strand that waits on the bag takes one (R243, R392); an error is a code of isWait, and
nothing is done yet. -/
def State.takeBack (s : State) (q : Asker) (ctx : Nat) (l : List (Word × Word)) : Except Nat State :=
  if l.isEmpty then .ok s else match s.putBottom q ctx l with
    | .ok s => .ok (s.bagPlaced q.core)
    | .error d => .error d

/-- A neighbour takes no pair: it is retired, serves another context or is full (R243). -/
def State.takesNone (s : State) (c : CoreId) (ctx : Nat) : Bool :=
  let k := s.core c
  k.retired || k.ctx != ctx || decide (k.bagRoom = 0)

/-- nshed (R243): the pairs travel to the neighbour; those it does not take return to the bottom. -/
def execNshed (g : Guard) (d a : Reg) (dir : ShedDir) (s : State) : Out :=
  issueU (.nshed g d a dir) g (fun s =>
    let c := s.cur.core
    match s.me.hold with
    | .wait _ => .hold s
    | .got r =>
      let moved := r.data.headD 0
      let back := pairsOf r.data.tail
      match s.takeBack (s.asker s.cur) s.ctx back with
      | .error e => .hold (s.waited s.cur e)
      | .ok s' => if r.malformed then .fault s' (s.nackFault r) else .ok (s'.wg d moved)
    | _ =>
      let t := neighbour c dir
      let n := min 512 (s.rg a).toNat
      if s.takesNone t s.ctx || n == 0 then .ok (s.wg d 0)
      else
        match s.takeBottom (s.asker s.cur) s.ctx n with
        | .error d => .fault s (s.fault d)
        | .ok (s, ps) =>
        if ps.isEmpty then .ok (s.wg d 0)
        else s.ask t 0 fun tag => .pairShed ⟨⟨t, c, s.cur.slot, tag, s.ctx, {}⟩, ps⟩) s

/-- npool, npool.keep (R240). -/
def execNpool (g : Guard) (keep : Bool) (n : BitVec 3) (a : Reg) (slots : Imm48) (s : State) : Out :=
  issueU (.npool g keep n a slots) g (fun s =>
    let c := s.cur.core
    let v := s.rg a
    let o := poolOff n.toNat
    if v = 0 ∨ v.toNat % 32 ≠ 0 then .fault s (s.fault 0x75)
    else
      let s := (s.swrite c o 8 v.toNat).swrite c (o + 0x10) 8 (slots.toNat % 2 ^ 32)
      .ok (if keep then s else (s.swrite c (o + 8) 8 0).swrite c (o + 0x18) 8 0)) s

/-- A user strand counts in the load figure: ready, stalled, or within an instruction that is no wait (R243). -/
def Strand.runnable (t : Strand) : Bool := t.mode == .ready || (t.mode == .waiting && match t.hold with | .wait _ => true | _ => false)

/-- The load figure of a core (R243). -/
def Core.load (k : Core) : Nat := k.bag.length + k.spillCount + (k.users.filter fun u => u.2.runnable).length

/-- nstat (R243). -/
def execNstat (g : Guard) (kind : NstatKind) (d : Reg) (s : State) : Out :=
  issueU (.nstat g kind d) g (fun s =>
    let k := s.myCore
    .ok (s.wg d (BitVec.ofNat 64 (match kind with
      | .bag => k.bag.length + k.spillCount
      | .pool n => s.poolAvail s.cur.core n.toNat
      | .spill => k.spillCount
      | .shed => k.load)))) s

/-- Pairs pushed on a core's own bag in turn, where there is room; an error is a code of isWait. -/
def State.pushBack (s : State) (q : Asker) (ctx : Nat) : List (Word × Word) → Except Nat State
  | [] => .ok s
  | p :: r => match s.pushLocal q ctx p with
    | (s', none) => s'.pushBack q ctx r
    | (s', some d) => if isWait d then .error d else s'.pushBack q ctx r
/-- The pairs of a push or a shed whose strand has ended come back to its core's bag: those of a shed to the bottom, one that its owner refused to
the top (R235, R243); those of a context that the core no longer serves are dropped (R53). An error is a code of isWait, and nothing is done yet. -/
def State.pairsHome (s : State) (c : CoreId) (pkt : Instr) (a : Answer) : Except Nat State :=
  match pkt with
  | .pairShed m => if (s.core c).ctx = m.hdr.ctx then s.takeBack (s.partOf c 4) m.hdr.ctx (pairsOf a.data.tail) else .ok s
  | .pairPush m => if (s.core c).ctx = m.hdr.ctx ∧ a.status ≠ .ack then s.pushBack (s.partOf c 4) m.hdr.ctx m.pairs else .ok s
  | _ => .ok s

/-- PAIR_PUSH at its target (R235); a refusal returns the pair to the pusher. -/
def execPairPush (m : PairMsg) (s : State) : Out :=
  let c := m.hdr.target
  let data := m.pairs.flatMap fun p => [p.1, p.2]
  s.receive m.hdr data <|
  if s.fencedHdr m.hdr || !s.takesPair c m.hdr.ctx then .next (s.answer m.hdr .nack 0x93 0 data)
  else
    let s := (s.modCore c fun k => { k with bag := m.pairs ++ k.bag }).bagPlaced c
    .next (s.answer m.hdr .ack 0 0 data)

/-- PAIR_SHED at its target (R243): as many as the hardware part has room for, in bottom-first order; the reply counts them
and returns the rest. -/
def execPairShed (m : PairMsg) (s : State) : Out :=
  let c := m.hdr.target
  let k := s.core c
  let none_ := k.retired || k.ctx != m.hdr.ctx
  let all := 0 :: m.pairs.flatMap fun p => [p.1, p.2]
  s.receive m.hdr all <|
  if s.fencedHdr m.hdr then .next (s.answer m.hdr .nack 0x93 0 all)
  else
  let room := if none_ then 0 else k.bagRoom
  let take := m.pairs.take room
  let rest := (m.pairs.drop room).flatMap fun p => [p.1, p.2]
  let s := (s.modCore c fun k => { k with bag := take.reverse ++ k.bag }).bagPlaced c
  .next (s.answer m.hdr .ack 0 0 (BitVec.ofNat 64 take.length :: rest))

end Sys2Proof.Machine
end

