-- ==== Sys2Proof/Machine/Operands.lean ====
section
/-! DEFINITION. Operands of engine commands: element types, shape records and places (R124 to R127), the resolution of
operand specs, their conditions, what issue takes and what completion gives back (R129 to R131, R154, R197). -/

namespace Sys2Proof

/-! ## Vector element types (R67) -/

/-- The float format of a type. -/
def VTy.fmt : VTy → Option FFmt
  | .f32 => some .f32 | .f16 => some .f16 | .bf16 => some .bf16 | .f8a => some .f8a | .f8b => some .f8b
  | _ => none
/-- Width in bits. -/
def VTy.width : VTy → Nat
  | .f32 | .s32 | .n32 => 32
  | .f16 | .bf16 | .s16 | .n16 => 16
  | .s8 | .n8 | .f8a | .f8b => 8
/-- Width in bytes. -/
def VTy.bytes (t : VTy) : Nat := t.width / 8
/-- Elements per pass (R128). -/
def VTy.lanes (t : VTy) : Nat := 256 / t.width

namespace Machine

/-- Program space ends here (R18). -/
def progEnd : Nat := 0x1E000

/-! ## Shape records (R124, R127) -/

/-- A shape record's fields. -/
structure Shape where
  fmt     : Nat
  rank    : Nat
  ext     : Nat × Nat × Nat × Nat
  str     : Nat × Nat × Nat
  split   : Bool
  splitAt : Nat
  dcol    : Int
  drow    : Int
  far     : Nat
deriving DecidableEq, Repr

/-- The eight words of record hN of a core. -/
def State.shapeWords (s : State) (c : CoreId) (h : Nat) : List Word :=
  (List.range 8).map fun i => BitVec.ofNat 64 (s.sread c (0x1F000 + 64 * h + 8 * i) 8)

/-- Extents of used dimensions, 1 elsewhere; strides of used dimensions, 0 elsewhere. -/
def useDim (rank k d v : Nat) : Nat := if k < rank then v else d

/-- The shape of a record's words; none where R127 refuses it. -/
def shapeOf (ws : List Word) : Option Shape :=
  let w (i : Nat) : Nat := (ws.getD i 0).toNat
  let rank := bitsN (w 0) 6 5 + 1
  let e0 := bitsN (w 1) 15 0
  let e1 := useDim rank 1 1 (bitsN (w 1) 31 16)
  let e2 := useDim rank 2 1 (bitsN (w 1) 47 32)
  let e3 := useDim rank 3 1 (bitsN (w 1) 63 48)
  let sh : Shape :=
    { fmt := bitsN (w 0) 4 0, rank := rank, ext := (e0, e1, e2, e3),
      str := (useDim rank 1 0 (bitsN (w 2) 19 0), useDim rank 2 0 (bitsN (w 2) 39 20), useDim rank 3 0 (bitsN (w 2) 59 40)),
      split := bitsN (w 0) 7 7 == 1, splitAt := bitsN (w 3) 15 0, dcol := sextN (bitsN (w 3) 24 16) 9,
      drow := sextN (bitsN (w 3) 32 25) 8, far := bitsN (w 4) 16 0 }
  let outer := match rank with | 1 => e0 | 2 => e1 | 3 => e2 | _ => e3
  if bitsN (w 0) 63 8 ≠ 0 ∨ bitsN (w 2) 63 60 ≠ 0 ∨ bitsN (w 3) 63 33 ≠ 0 ∨ bitsN (w 4) 63 17 ≠ 0
      ∨ w 5 ≠ 0 ∨ w 6 ≠ 0 ∨ w 7 ≠ 0 then none
  else if e0 = 0 ∨ e1 = 0 ∨ e2 = 0 ∨ e3 = 0 ∨ 2 ^ 20 < e0 * e1 * e2 * e3 then none
  else if sh.split ∧ (sh.splitAt = 0 ∨ outer ≤ sh.splitAt ∨ (sh.dcol = 0 ∧ sh.drow = 0)) then none
  else some sh

/-- The element count. -/
def Shape.count (h : Shape) : Nat := h.ext.1 * h.ext.2.1 * h.ext.2.2.1 * h.ext.2.2.2
/-- Elements per row along dimension 0. -/
def Shape.row (h : Shape) : Nat := h.ext.1
/-- The number of rows. -/
def Shape.rows (h : Shape) : Nat := h.ext.2.1 * h.ext.2.2.1 * h.ext.2.2.2

/-- The place of element m of a tile at a base (R125): in the far slice or the own one, and its offset. -/
def Shape.place (h : Shape) (base m size : Nat) : Bool × Nat :=
  let (e0, e1, e2, _) := h.ext
  let i0 := m % e0
  let i1 := m / e0 % e1
  let i2 := m / e0 / e1 % e2
  let i3 := m / e0 / e1 / e2
  let (s1, s2, s3) := h.str
  let off := i0 + i1 * s1 + i2 * s2 + i3 * s3
  let (top, st) := match h.rank with | 1 => (i0, 1) | 2 => (i1, s1) | 3 => (i2, s2) | _ => (i3, s3)
  if h.split ∧ h.splitAt ≤ top then (true, h.far + (off - h.splitAt * st) * size) else (false, base + off * size)

/-- The far offsets of a shape's elements of a size (R125). -/
def Shape.farOffs (h : Shape) (size : Nat) : List Nat :=
  if h.split then (List.range h.count).filterMap fun m => let (far, off) := h.place 0 m size; if far then some off else none else []

/-- The far core of a split shape for a core (R125). -/
def Shape.farCore (h : Shape) (c : CoreId) : CoreId :=
  ⟨c.pkg, (((c.col : Int) + h.dcol).emod 512).toNat, (((c.row : Int) + h.drow).emod 200).toNat⟩

/-- How an operand's elements lie: by the shape, or dense with a count (R126); k tiles in turn; element bytes. -/
structure Lay where
  dense : Option Nat
  size  : Nat
  k     : Nat := 1
deriving DecidableEq, Repr

/-- Elements of an operand. -/
def Lay.count (l : Lay) (h : Shape) : Nat := l.dense.getD h.count

/-- The place of element m under a layout. -/
def Lay.place (l : Lay) (h : Shape) (base m : Nat) : Bool × Nat :=
  match l.dense with
  | some _ => (false, base + m * l.size)
  | none => h.place base m l.size

/-- The lowest element whose bytes leave program space (R127). -/
def Lay.badPlace (l : Lay) (h : Shape) (base : Nat) : Option Nat :=
  (List.range (l.count h)).find? fun m => decide (progEnd < (l.place h base m).2 + l.size)

/-! ## Specs -/

/-- An operand to be resolved: its spec, ADV bit, and the number of tiles it names. -/
structure POp where
  spec : Spec
  adv  : Bool
  k    : Nat := 1
deriving DecidableEq, Repr

/-- State that a destination tile must have (R129, R130, R154). -/
inductive DstCond where
  | empty | ready | either
deriving DecidableEq, Repr

/-- The tile an operand names. -/
def opTile : Opnd → Option Nat
  | .tile t => some t
  | .ring _ t => some t
  | _ => none
/-- The tiles a list of operands names. -/
def opTiles (l : List Opnd) : List Nat := l.filterMap opTile

/-- The operands of a spec as a source, a scalar with its value given; none for a ring with SIZE 0. -/
def Core.srcOps (c : Core) (v : Word) (p : POp) : Option (List Opnd) :=
  match p.spec with
  | .none => some []
  | .scalar _ => some [.scalar v]
  | .tile t => some ((List.range p.k).map fun i => .tile (t.toNat + i))
  | .ring _ q =>
    let r := c.ring q.toNat
    if r.size = 0 then none else some ((List.range p.k).map fun i => .ring q.toNat (r.slotTile r.head i))

/-- The operands of a spec as a destination, none for a ring with SIZE 0. -/
def Core.dstOps (c : Core) (p : POp) : Option (List Opnd) :=
  match p.spec with
  | .tile t => some ((List.range p.k).map fun i => .tile (t.toNat + i))
  | .ring _ q =>
    let r := c.ring q.toNat
    if r.size = 0 then none else some ((List.range p.k).map fun i => .ring q.toNat (r.slotTile r.tail i))
  | _ => some []

/-- A source's condition (R129, R145). -/
def Core.srcReady (c : Core) (p : POp) (l : List Opnd) : Bool :=
  (opTiles l).all (fun t => tileSt (c.tile t) == tReady)
    && match p.spec with
       | .ring need q =>
         decide (max need.toNat (max (if p.adv then 1 else 0) (if p.k = 1 then 0 else p.k)) ≤ (c.ring q.toNat).filled)
       | _ => true

/-- The register value of a scalar spec, 0 for another kind. -/
def State.scalarOf (s : State) (sp : Spec) : Word :=
  match sp with
  | .scalar g => s.rg g
  | _ => 0

/-- A destination's condition: READY where a source names the same tile (R130). -/
def Core.dstReady (c : Core) (cond : DstCond) (p : POp) (l : List Opnd) (srcs : List Nat) : Bool :=
  (opTiles l).all (fun t =>
    let st := tileSt (c.tile t)
    if srcs.contains t then st == tReady
    else match cond with
      | .empty => st == tEmpty
      | .ready => st == tReady
      | .either => st == tEmpty || st == tReady)
    && match p.spec with
       | .ring need q => decide (max need.toNat p.k ≤ (c.ring q.toNat).free)
       | _ => true

/-- Tile states and counts taken at issue (R129, R130, R197). -/
def Core.take (c : Core) (dstP : POp) (dst : List Opnd) (srcs : List Opnd) : Core :=
  let ds := opTiles dst
  let c := ds.foldl (fun c t => c.tileTo t tFilling) c
  let c := match dstP.spec with
    | .ring _ q =>
      let r := c.ring q.toNat
      c.setRing q.toNat { r with tail := (r.tail + dstP.k) % r.size, free := r.free - dstP.k }
    | _ => c
  (opTiles srcs).foldl (fun c t => if ds.contains t then c else c.addReader t) c

/-- A source ring releases its HEAD slot, unless FILLED is already 0 (R131). -/
def Core.release (c : Core) (q : Nat) : Core :=
  let r := c.ring q
  if r.filled = 0 ∨ r.size = 0 then c
  else (c.tileTo (r.slotTile r.head 0) tEmpty).setRing q
    { r with head := (r.head + 1) % r.size, filled := r.filled - 1, free := r.free + 1 }

/-- n releases in turn. -/
def Core.releaseN (c : Core) (q : Nat) : Nat → Core
  | 0 => c
  | n + 1 => (c.release q).releaseN q n

/-- Readers given back at the end of a command. -/
def Core.untake (c : Core) (dst srcs : List Opnd) : Core :=
  let ds := opTiles dst
  (opTiles srcs).foldl (fun c t => if ds.contains t then c else c.dropReader t) c

/-- Completion: destinations READY, rings with ADV advanced, destination first (R131). -/
def Core.complete (c : Core) (dstP : POp) (srcP : List POp) (dst srcs : List Opnd) : Core :=
  let c := c.untake dst srcs
  let c := (opTiles dst).foldl (fun c t => c.tileTo t tReady) c
  let c := match dstP.spec with
    | .ring _ q => if dstP.adv then let r := c.ring q.toNat; c.setRing q.toNat { r with filled := r.filled + dstP.k } else c
    | _ => c
  srcP.foldl (fun c p => match p.spec with
    | .ring _ q => if p.adv then c.releaseN q.toNat p.k else c
    | _ => c) c

/-- Failure after issue: destinations EMPTY and marked (R134, R158). -/
def Core.fail (c : Core) (dst srcs : List Opnd) (d : Deferred) : Core :=
  let c := c.untake dst srcs
  (opTiles dst).foldl (fun c t => c.markTile t tEmpty d) c

/-- The fault of a marked tile: what was kept with it, or the mark code of the class (R197, R322). -/
def State.markFault (s : State) (t detail : Nat) : Report :=
  match s.myCore.deferred.find? fun p => p.1 == t with
  | some (_, d) =>
    { s.fault detail with cause := d.cause, detail := d.detail % 256, inner := d.inner, arg := d.arg, fpc := d.fpc, info0 := d.info0 }
  | none => s.fault detail

/-- The first marked tile of a list. -/
def Core.marked (c : Core) (l : List Nat) : Option Nat := l.find? fun t => tileMark (c.tile t)

/-- A command's STICKY bits go to the strand that issued it, unless that strand has ended (R56, R156). -/
def State.cmdFlags (s : State) (c : CoreId) (slot fl : Nat) : State :=
  if slot = noSlot then s else s.flagOf ⟨c, slot⟩ fl

/-- Elements of an operand in ascending order: read from the slice, or a scalar's low bits for every element. -/
def State.elems (s : State) (c : CoreId) (h : Shape) (l : Lay) : Opnd → List Nat
  | .scalar v => List.replicate (l.count h) (v.toNat % 2 ^ (8 * l.size))
  | o =>
    let base := match opTile o with | some t => tileBase ((s.core c).tile t) | none => 0
    (List.range (l.count h)).map fun m =>
      let (far, off) := l.place h base m
      s.sread (if far then h.farCore c else c) off l.size

/-- Elements written in ascending order (R125). -/
def State.putElems (s : State) (c : CoreId) (h : Shape) (l : Lay) (o : Opnd) (vs : List Nat) : State :=
  let base := match opTile o with | some t => tileBase ((s.core c).tile t) | none => 0
  (vs.zipIdx).foldl (fun s p =>
    let (far, off) := l.place h base p.2
    s.swrite (if far then h.farCore c else c) off l.size p.1) s

end Machine
end Sys2Proof
end

