-- ==== Sys2Proof/Machine/Tensor.lean ====
section
/-! DEFINITION. Meanings of the tensor instructions, OPs 0x60 to 0x6C, and the steps of the matrix engine (R149 to R177).
A command reads and writes its bytes in its completion step (log 24). -/

namespace Sys2Proof.Machine

/-- What a tensor command computes. -/
inductive TKind where
  | zero (e : BitVec 11)
  | mma (pa pb : Plane) (ha hb : Bool)
  | acc
  | read (f : FFmt)
  | readBlk (pl : Plane)
  | quant (f : FFmt) (pl : Plane) (kd : Bool)
  | dequant (f : FFmt) (pl : Plane) (kd : Bool)
  | plane (pl : Plane) (kd sat : Bool)
  | unplane (pl : Plane) (kd sat : Bool)
  | cbdec (pl : Plane) (kd : Bool)
  | had (inv kd : Bool)
  | topk (val : Bool) (k : Nat)
deriving DecidableEq, Repr

/-- The float format of a tread. -/
def readFmt : ReadFmt → FFmt | .f32 => .f32 | .bf16 => .bf16 | .f16 => .f16

/-- A tensor command's kind and operands. -/
def tenOf : Instr → Option (TKind × TOps)
  | .tzero _ e o => some (.zero e, o)
  | .tmma _ pa pb ha hb o => some (.mma pa pb ha hb, o)
  | .tacc _ o => some (.acc, o)
  | .tread _ f o => some (.read (readFmt f), o)
  | .treadBlk _ pl o => some (.readBlk pl, o)
  | .tquant _ f pl kd o => some (.quant f pl kd, o)
  | .tdequant _ f pl kd o => some (.dequant f pl kd, o)
  | .tplane _ pl kd sat o => some (.plane pl kd sat, o)
  | .tunplane _ pl kd sat o => some (.unplane pl kd sat, o)
  | .tcbdec _ pl kd o => some (.cbdec pl kd, o)
  | .thad _ inv kd o => some (.had inv kd, o)
  | .ttopk _ val km1 o => some (.topk val (km1.toNat + 1), o)
  | _ => none

/-! ## Roles (R149 to R152, R159) -/

/-- What a tile operand must be. -/
inductive Role where
  | acc
  | plane (kd : Bool) (pl : Plane)
  | cb2 (kd : Bool)
  | packed (ok : Nat → Bool)

/-- FMT of a float format (R73). -/
def fmtCode : FFmt → Nat | .f32 => 6 | .f16 => 7 | .bf16 => 8 | .f8a => 9 | .f8b => 10 | .f4 => 11
/-- The float format of an FMT. -/
def fmtOfCode : Nat → Option FFmt
  | 6 => some .f32 | 7 => some .f16 | 8 => some .bf16 | 9 => some .f8a | 10 => some .f8b | 11 => some .f4 | _ => none
/-- FMT of a plane type (R73). -/
def planeFmt (p : Plane) : Nat := (if p.signed then 24 else 16) + p.p1.toNat
/-- Bits per element of a packed FMT (R73). -/
def fmtBits : Nat → Nat
  | 0 => 8 | 1 => 16 | 2 => 32 | 3 => 8 | 4 => 16 | 5 => 32 | 6 => 32 | 7 => 16 | 8 => 16 | 9 => 8 | 10 => 8 | 11 => 4
  | 12 => 8 | 13 => 64 | _ => 0
/-- A packed integer FMT is signed. -/
def fmtSigned (f : Nat) : Bool := f ≤ 2
/-- Packed integers. -/
def isPInt (f : Nat) : Bool := f ≤ 5

/-- The roles of dst, srcA and srcB. -/
def TKind.roles : TKind → Role × Role × Role
  | .zero _ => (.acc, .acc, .acc)
  | .mma pa pb _ _ => (.acc, .plane false pa, .plane true pb)
  | .acc => (.acc, .acc, .acc)
  | .read f => (.packed (· == fmtCode f), .acc, .acc)
  | .readBlk pl => (.plane false pl, .acc, .acc)
  | .quant f pl kd => (.plane kd pl, .packed (· == fmtCode f), .acc)
  | .dequant f pl kd => (.packed (· == fmtCode f), .plane kd pl, .acc)
  | .plane pl kd _ => (.plane kd pl, .packed isPInt, .acc)
  | .unplane pl kd _ => (.packed isPInt, .plane kd pl, .acc)
  | .cbdec pl kd => (.plane kd pl, .cb2 kd, .acc)
  | .had _ _ => (.packed (· == 6), .packed (· == 6), .acc)
  | .topk _ _ => (.packed (· == 5), .packed (fun f => f == 6 || f == 7 || f == 8 || f == 2), .acc)

/-- A tile as the engine sees it: its entry's fields and the extents and stride of its record. -/
structure TV where
  base : Nat
  sc   : Nat
  fmt  : Nat
  e0   : Nat
  e1   : Nat
  s1   : Nat
deriving DecidableEq, Repr

/-- The view of a tile with a record's words; none where R149 refuses the record. -/
def tvOf (w : Word) (ws : List Word) : Option TV :=
  match shapeOf ws with
  | none => none
  | some h => if h.rank = 2 ∧ !h.split then some ⟨tileBase w, tileScales w, tileFmt w, h.ext.1, h.ext.2.1, h.str.1⟩ else none

/-- Reduction extent. -/
def TV.k (v : TV) (kd : Bool) : Nat := if kd then v.e1 else v.e0
/-- Outer extent. -/
def TV.o (v : TV) (kd : Bool) : Nat := if kd then v.e0 else v.e1
/-- Blocks per outer index. -/
def TV.nb (v : TV) (kd : Bool) : Nat := v.k kd / 32

/-- The shape rule of a role (R150 to R152). -/
def Role.shapeOk (r : Role) (v : TV) : Bool :=
  match r with
  | .acc => v.e0 == 16 && v.e1 == 16
  | .plane kd _ => v.k kd % 32 == 0
  | .cb2 kd => v.k kd % 32 == 0
  | .packed _ => v.fmt != 11 || (v.s1 == v.e0 && v.e0 % 2 == 0)

/-- The format rule of a role (R159). -/
def Role.fmtOk (r : Role) (v : TV) : Bool :=
  match r with
  | .acc => v.fmt == 13
  | .plane _ pl => v.fmt == planeFmt pl
  | .cb2 _ => v.fmt == 14
  | .packed ok => ok v.fmt

/-- One past the last byte of the data area, and of the scale array or exponent word (R150 to R152). -/
def Role.ends (r : Role) (v : TV) : Nat × Nat :=
  match r with
  | .acc => (v.base + 2048, v.sc + 8)
  | .plane kd pl => (v.base + 4 * (pl.p1.toNat + 1) * v.nb kd * v.o kd, v.sc + v.o kd * v.nb kd)
  | .cb2 kd => (v.base + v.o kd * (v.k kd / 4), v.sc + v.o kd * v.nb kd)
  | .packed _ =>
    if v.fmt = 11 then (v.base + v.e0 * v.e1 / 2, 0)
    else (v.base + ((v.e0 - 1) + (v.e1 - 1) * v.s1 + 1) * (fmtBits v.fmt / 8), 0)

/-- The extent rules between operands (R161, R163 to R170). -/
def TKind.extOk (k : TKind) (d a b : Option TV) : Bool :=
  let same (x y : Option TV) : Bool := match x, y with
    | some x, some y => x.e0 == y.e0 && x.e1 == y.e1
    | _, _ => false
  match k with
  | .zero _ | .acc => true
  | .mma _ _ _ _ => match a, b with
    | some a, some b => a.e1 == 16 && b.e0 == 16 && a.e0 == b.e1 && decide (a.e0 ≤ 2048)
    | _, _ => false
  | .read _ => match d with | some d => d.e0 == 16 && d.e1 == 16 | none => false
  | .readBlk _ => match d with | some d => d.e0 == 32 && d.e1 == 16 | none => false
  | .quant _ _ _ | .dequant _ _ _ | .plane _ _ _ | .unplane _ _ _ | .cbdec _ _ => same d a
  | .had _ kd => same d a && (match a with | some a => a.k kd % 32 == 0 | none => false)
  | .topk _ kk => match d, a with
    | some d, some a => d.e1 == a.e1 && d.e0 == 2 * kk
    | _, _ => false

/-- The destination's condition (R154). -/
def TKind.cond : TKind → DstCond
  | .mma _ _ _ _ | .acc => .ready
  | .zero _ => .either
  | _ => .empty

/-- What resolving a tensor command comes to. -/
inductive TPlan where
  | bad (detail : Nat) (mark : Option Nat)
  | ok (ready : Bool) (shapes : List (List Word)) (dst a b c : List Opnd)

/-- The words of the record that an operand's tile names. -/
def State.opShape (s : State) (c : CoreId) (l : List Opnd) : List Word :=
  match opTiles l with
  | t :: _ => s.shapeWords c (tileShape ((s.core c).tile t))
  | [] => []

/-- The view of an operand's tile with its record. -/
def State.opView (s : State) (c : CoreId) (l : List Opnd) (ws : List Word) : Option TV :=
  match opTiles l with
  | t :: _ => tvOf ((s.core c).tile t) ws
  | [] => none

/-- The operand conditions of R154; an operand that a ring of SIZE 0 names has none. -/
def Core.tensorReady (core : Core) (k : TKind) (o : TOps) : Bool :=
  let pd : POp := ⟨o.dst, o.advd, 1⟩
  let pa : POp := ⟨o.a, o.adva, 1⟩
  let pb : POp := ⟨o.b, o.advb, 1⟩
  let pc : POp := ⟨o.c, o.advc, 1⟩
  match core.dstOps pd, core.srcOps 0 pa, core.srcOps 0 pb, core.srcOps 0 pc with
  | some d, some a, some b, some cc =>
    core.dstReady k.cond pd d (opTiles (a ++ b ++ cc)) && core.srcReady pa a && core.srcReady pb b && core.srcReady pc cc
  | _, _, _, _ => true

/-- The checks of R157 after R69, in order, then the operand conditions. -/
def State.tPlan (s : State) (c : CoreId) (k : TKind) (o : TOps) (va vb vc : Word) : TPlan :=
  let core := s.core c
  let pd : POp := ⟨o.dst, o.advd, 1⟩
  let pa : POp := ⟨o.a, o.adva, 1⟩
  let pb : POp := ⟨o.b, o.advb, 1⟩
  let pc : POp := ⟨o.c, o.advc, 1⟩
  match core.dstOps pd, core.srcOps va pa, core.srcOps vb pb, core.srcOps vc pc with
  | some d, some a, some b, some cc =>
    let wd := s.opShape c d
    let wa := s.opShape c a
    let wb := s.opShape c b
    let vd := s.opView c d wd
    let va' := s.opView c a wa
    let vb' := s.opView c b wb
    let (rd, ra, rb) := k.roles
    let ops : List (List Opnd × Option TV × Role) := [(d, vd, rd), (a, va', ra), (b, vb', rb)]
    let ops := ops.filter fun p => !(opTiles p.1).isEmpty
    let shapeBad := ops.any (fun p => match p.2.1 with | some v => !p.2.2.shapeOk v | none => true) || !k.extOk vd va' vb'
    let fmtBad := ops.any (fun p => match p.2.1 with | some v => v.fmt == 15 || !p.2.2.fmtOk v | none => false)
      || (match k with | .cbdec pl _ => pl != ⟨4, true⟩ | _ => false)
    let rangeBad := ops.any fun p => match p.2.1 with
      | some v => let (x, y) := p.2.2.ends v; decide (progEnd < x) || decide (progEnd < y)
      | none => false
    if shapeBad then .bad 0x50 none
    else if fmtBad then .bad 0x51 none
    else match core.marked (opTiles (d ++ a ++ b ++ cc)) with
      | some t => .bad 0x53 (some t)
      | none =>
        if rangeBad then .bad 0x52 none
        else .ok (core.tensorReady k o) [wd, wa, wb] d a b cc
  | _, _, _, _ => .bad 0x54 none

/-! ## Issue -/

/-- A tensor command issues into the two-entry queue (R154, R156). SHELLBASE is read at issue (R168). DEDUCED: a full queue stalls it before
its own checks are made (R21, log 64). -/
def State.tIssue (s : State) (i : Instr) (k : TKind) (o : TOps) : Res :=
  let c := s.myCore
  if 2 ≤ c.mq.length then .stall
  else
    let va := s.scalarOf o.a
    let vb := s.scalarOf o.b
    let vc := s.scalarOf o.c
    match s.tPlan s.cur.core k o va vb vc with
    | .bad d mark => .fault s (match mark with | some t => s.markFault t 0x53 | none => s.fault d)
    | .ok false _ _ _ _ _ => .stall
    | .ok true shapes d a b cc =>
      let cmd : Cmd := { instr := i, slot := s.cur.slot, sid := s.cur.gid, ctx := s.ctx, fpc := s.me.pc, dst := d,
                         srcs := [a, b, cc], scal := [va, vb, vc, c.shellbase], shapes := shapes }
      .ok (s.modMyCore fun c => { c.take ⟨o.dst, o.advd, 1⟩ d (a ++ b ++ cc) with mq := c.mq ++ [cmd] })

/-- The meaning of a tensor command. -/
def execTen (i : Instr) (g : Guard) (s : State) : Out :=
  issueU i g (fun s => match tenOf i with
    | some (k, o) => s.tIssue i k o
    | none => .ok s) s

/-- tzero (R160). -/
def execTzero (g : Guard) (e : BitVec 11) (o : TOps) (s : State) : Out := execTen (.tzero g e o) g s
/-- tmma (R161). -/
def execTmma (g : Guard) (pa pb : Plane) (ha hb : Bool) (o : TOps) (s : State) : Out := execTen (.tmma g pa pb ha hb o) g s
/-- tacc (R162). -/
def execTacc (g : Guard) (o : TOps) (s : State) : Out := execTen (.tacc g o) g s
/-- tread.F (R163). -/
def execTread (g : Guard) (f : ReadFmt) (o : TOps) (s : State) : Out := execTen (.tread g f o) g s
/-- tread.blk (R164). -/
def execTreadBlk (g : Guard) (pl : Plane) (o : TOps) (s : State) : Out := execTen (.treadBlk g pl o) g s
/-- tquant (R165). -/
def execTquant (g : Guard) (f : FFmt) (pl : Plane) (kd : Bool) (o : TOps) (s : State) : Out := execTen (.tquant g f pl kd o) g s
/-- tdequant (R165). -/
def execTdequant (g : Guard) (f : FFmt) (pl : Plane) (kd : Bool) (o : TOps) (s : State) : Out :=
  execTen (.tdequant g f pl kd o) g s
/-- tplane (R166). -/
def execTplane (g : Guard) (pl : Plane) (kd sat : Bool) (o : TOps) (s : State) : Out := execTen (.tplane g pl kd sat o) g s
/-- tunplane (R166). -/
def execTunplane (g : Guard) (pl : Plane) (kd sat : Bool) (o : TOps) (s : State) : Out := execTen (.tunplane g pl kd sat o) g s
/-- tcbdec (R167). -/
def execTcbdec (g : Guard) (pl : Plane) (kd : Bool) (o : TOps) (s : State) : Out := execTen (.tcbdec g pl kd o) g s
/-- thad (R169). -/
def execThad (g : Guard) (inv kd : Bool) (o : TOps) (s : State) : Out := execTen (.thad g inv kd o) g s
/-- ttopk (R170). -/
def execTtopk (g : Guard) (val : Bool) (km1 : BitVec 7) (o : TOps) (s : State) : Out := execTen (.ttopk g val km1 o) g s

/-! ## Reading and writing tiles -/

/-- A write: offset, bytes, value. -/
abbrev TW := Nat × Nat × Nat

/-- An accumulator element's word. -/
def State.accWord (s : State) (c : CoreId) (v : TV) (i j : Nat) : Nat := s.sread c (v.base + (16 * i + j) * 8) 8
/-- ACC of a word. -/
def accVal (w : Nat) : Int := sextN w 56
/-- NF. -/
def accNf (w : Nat) : Bool := bitsN w 56 56 == 1
/-- SATM. -/
def accSatm (w : Nat) : Bool := bitsN w 57 57 == 1
/-- A word of its fields (R77). -/
def accPack (a : Int) (nf satm : Bool) : Nat := wrapN a 56 + (if nf then 2 ^ 56 else 0) + (if satm then 2 ^ 57 else 0)
/-- The exponent of an accumulator tile. -/
def State.accExp (s : State) (c : CoreId) (v : TV) : Int := sextN (s.sread c v.sc 2) 16
/-- A plane integer of a tile: outer index o, reduction position r (R75, R150). -/
def State.planeElem (s : State) (c : CoreId) (v : TV) (pl : Plane) (kd : Bool) (o r : Nat) : Int :=
  let p := pl.p1.toNat + 1
  let a := v.base + (o * v.nb kd + r / 32) * p * 4
  let bits := (List.range p).foldl (fun x j => x + s.sread c (a + 4 * j) 4 / 2 ^ (r % 32) % 2 * 2 ^ j) 0
  intVal pl.signed p bits
/-- A scale code. -/
def State.scaleOf (s : State) (c : CoreId) (v : TV) (kd : Bool) (o kb : Nat) : Nat := s.sread c (v.sc + o * v.nb kd + kb) 1
/-- The plane words of a block of 32 integers (R76). -/
def blockWrites (v : TV) (pl : Plane) (kd : Bool) (o kb : Nat) (q : List Int) : List TW :=
  let p := pl.p1.toNat + 1
  (List.range p).map fun j =>
    (v.base + ((o * v.nb kd + kb) * p + j) * 4, 4,
      (q.zipIdx).foldl (fun x e => x + wrapN e.1 p / 2 ^ j % 2 * 2 ^ e.2) 0)
/-- A scale byte's write. -/
def scaleWrite (v : TV) (kd : Bool) (o kb code : Nat) : TW := (v.sc + o * v.nb kd + kb, 1, code)
/-- The place of packed element (i1, i0) for FMT of at least a byte. -/
def TV.off (v : TV) (i1 i0 : Nat) : Nat := v.base + (i1 * v.s1 + i0) * (fmtBits v.fmt / 8)
/-- A packed element (R74, R152). -/
def State.packElem (s : State) (c : CoreId) (v : TV) (i1 i0 : Nat) : Nat :=
  if v.fmt = 11 then let m := i1 * v.e0 + i0; s.sread c (v.base + m / 2) 1 / 16 ^ (m % 2) % 16
  else s.sread c (v.off i1 i0) (fmtBits v.fmt / 8)
/-- Packed elements' writes, in ascending order; f4 is put together two to a byte. -/
def packWrites (v : TV) (f : Nat → Nat → Nat) : List TW :=
  if v.fmt = 11 then
    (List.range (v.e0 * v.e1 / 2)).map fun b =>
      (v.base + b, 1, f (2 * b / v.e0) (2 * b % v.e0) + 16 * f ((2 * b + 1) / v.e0) ((2 * b + 1) % v.e0))
  else (List.range v.e1).flatMap fun i1 => (List.range v.e0).map fun i0 => (v.off i1 i0, fmtBits v.fmt / 8, f i1 i0)
/-- Indices (i1, i0) of outer o and reduction position r. -/
def idx (kd : Bool) (o r : Nat) : Nat × Nat := if kd then (r, o) else (o, r)

/-! ## Block arithmetic -/

/-- Shift by d, floor when to the right (R8, R91). -/
def shiftI (x d : Int) : Int := if 0 ≤ d then x * 2 ^ d.toNat else x.fdiv (2 ^ (-d).toNat)

/-- The clamp of an accumulator add (R91): the value and whether it saturated. -/
def accClamp (x : Int) : Int × Bool := let c := clampI x (-(2 ^ 55)) (2 ^ 55 - 1); (c, c != x)

/-- The quantisation limits of R89: qmin, qmax, qref. -/
def planeLim (p : Plane) : Int × Int × Nat :=
  let n := p.p1.toNat + 1
  if !p.signed then (0, 2 ^ n - 1, 2 ^ n - 1)
  else if n = 1 then (-1, 0, 1)
  else (-(2 ^ (n - 1)), 2 ^ (n - 1) - 1, 2 ^ (n - 1) - 1)

/-- The least d with qref · 2^d ≥ m, from a starting guess. -/
def leastD (qref m : Nat) : Nat → Int → Int
  | 0, d => d
  | n + 1, d => if scaledGt m 0 qref d then leastD qref m n (d + 1) else d

/-- R89 on a block of exact values: code, elements, flags. -/
def quantBlock (pl : Plane) (xs : List FV) : Nat × List Int × Nat :=
  let (qmin, qmax, qref) := planeLim pl
  if xs.any fun x => match x with | .fin _ _ _ => false | _ => true then (255, xs.map fun _ => 0, flQNONFIN)
  else
    let amax : Nat × Int := xs.foldl (fun m x => match x with
      | .fin _ a e => if scaledGt a e m.1 m.2 then (a, e) else m
      | _ => m) (0, 0)
    if amax.1 = 0 then (0, xs.map fun _ => 0, 0)
    else
      let d := leastD qref amax.1 12 ((Nat.log2 amax.1 : Int) - (Nat.log2 qref : Int) - 2)
      let c : Int := 127 + d + amax.2
      let code : Nat := if c < 0 then 0 else if 254 < c then 254 else c.toNat
      let capped : Bool := decide (254 < c)
      let one (x : FV) : Int × Nat := match x with
        | .fin n m e =>
          let (v, ix) := finInt false n m (e - ((code : Int) - 127))
          let q := clampI v qmin qmax
          (q, (if ix ∨ q ≠ v then flNX else 0) ||| (if q ≠ v ∧ capped then flOF else 0))
        | _ => (0, 0)
      let rs := xs.map one
      (code, rs.map Prod.fst, rs.foldl (fun f r => f ||| r.2) (if c < 0 then flQUNDER else 0))

/-- R90 on an element. -/
def dequantElem (f : FFmt) (code : Nat) (q : Int) : Nat × Nat :=
  if code = 255 then (f.canon, flNV) else f.round false false (decide (q < 0)) q.natAbs ((code : Int) - 127)

/-- A cb2 code decoded with its base vector's word (R93): eight half-unit values and flags. -/
def cbDecode (code w : Nat) : List Int × Nat :=
  let neg := (List.range 7).foldl (fun n l => n + bitsN code (l + 1) (l + 1)) 0
  let lane (l : Nat) : Int × Nat :=
    let sg := if l < 7 then bitsN code (l + 1) (l + 1) else neg % 2
    let m : Int := (bitsN w (4 * l + 3) (4 * l) + code % 2 : Nat)
    let v := if sg = 1 then -m else m
    if 15 < v then (15, flNX) else (v, 0)
  let r := (List.range 8).map lane
  (r.map Prod.fst, r.foldl (fun f x => f ||| x.2) 0)

/-- The keyed sign is −1 (R96). -/
def keyedNeg (seed : Word) (b k : Nat) : Bool := (mix64 (seed ^^^ BitVec.ofNat 64 (b % 2 ^ 32 * 2 ^ 32 + k))).getLsbD 63

/-- One stage of the transform with stride h (R97), on f32 bits with flags. -/
def hadStage (h : Nat) (v : List (Nat × Nat)) : List (Nat × Nat) :=
  (List.range 32).map fun j =>
    let lo := if j / h % 2 = 0 then j else j - h
    let a := v.getD lo (0, 0)
    let z := v.getD (lo + h) (0, 0)
    let x := FFmt.value .f32 a.1
    let y := FFmt.value .f32 z.1
    let (r, f) := FFmt.addV .f32 false false x (if j = lo then y else y.negate)
    (r, a.2 ||| z.2 ||| f)

/-- A sign flip of f32 bits; a NaN stays what it is. -/
def hadSign (neg : Bool) (x : Nat) : Nat :=
  if neg && !(FFmt.value .f32 x).isNan then (if x < 2 ^ 31 then x + 2 ^ 31 else x - 2 ^ 31) else x

/-- R97 on a block of 32 f32 values. DEDUCED: thad.inv takes its five stages in the order h = 1, 2, 4, 8, 16 of thad.fwd (log 64). -/
def hadBlock (inv : Bool) (seed : Word) (b : Nat) (x : List Nat) : List (Nat × Nat) :=
  let sg (v : List (Nat × Nat)) : List (Nat × Nat) := v.zipIdx.map fun e => (hadSign (keyedNeg seed b e.2) e.1.1, e.1.2)
  let st (v : List (Nat × Nat)) : List (Nat × Nat) := [1, 2, 4, 8, 16].foldl (fun v h => hadStage h v) v
  let mulc (v : List (Nat × Nat)) : List (Nat × Nat) := v.map fun e =>
    let (r, f) := FFmt.mulR .f32 false false (FFmt.value .f32 e.1) (FFmt.value .f32 0x3E3504F3)
    (r, e.2 ||| f)
  let v := x.map fun e => (e, 0)
  if inv then sg (mulc (st v)) else mulc (st (sg v))

/-- The rank of a ttopk element is strictly greater (R170). -/
def topBetter (val : Bool) (fmt : Nat) (x y : Nat) : Bool :=
  match fmtOfCode fmt with
  | some f =>
    let ab (v : FV) : FV := if val then v else match v with
      | .fin _ m e => .fin false m e
      | .inf _ => .inf false
      | .nan s => .nan s
    let a := ab (f.value x)
    let b := ab (f.value y)
    if b.isNan then !a.isNan else FV.lt b a
  | none =>
    let a := sextN x 32
    let b := sextN y 32
    if val then decide (b < a) else decide (b.natAbs < a.natAbs)

/-- An element put into a list of descending rank, after those of equal rank. -/
def topIns (val : Bool) (fmt : Nat) (x : Nat × Nat) : List (Nat × Nat) → List (Nat × Nat)
  | [] => [x]
  | y :: r => if topBetter val fmt x.1 y.1 then x :: y :: r else y :: topIns val fmt x r

/-! ## Commands -/

/-- The distinct base vectors of a cb2 tile's codes, each read once from the shell table: words by number, or the memory
fault and its address (R168). -/
def State.shellRead (s : State) (q : Asker) (ctx : Nat) (base : Word) : List Nat → SMap Nat → State × Except (Nat × Word) (SMap Nat)
  | [], m => (s, .ok m)
  | n :: r, m =>
    let a := base + BitVec.ofNat 64 (4 * n)
    match s.readPlain q ctx (ctx == 0) a 4 with
    | (s, .error d) => (s, .error (d, a))
    | (s, .ok w) => s.shellRead q ctx base r (m.set n w)

/-- One accumulator element of tmma: word and flags (R91, R161). -/
def State.mmaElem (s : State) (c : CoreId) (pa pb : Plane) (ha hb : Bool) (d a b : TV) (i j : Nat) : Nat × Nat :=
  let e := s.accExp c d
  let w := s.accWord c d i j
  let half : Int := (if ha then 1 else 0) + (if hb then 1 else 0)
  let r := (List.range (a.nb false)).foldl (fun (x : Int × Bool × Bool × Nat) kb =>
    let sa := s.scaleOf c a false i kb
    let sb := s.scaleOf c b true j kb
    if sa = 255 ∨ sb = 255 then (x.1, true, x.2.2.1, x.2.2.2 ||| flNV)
    else
      let p := (List.range 32).foldl (fun (p : Int) k =>
        p + s.planeElem c a pa false i (32 * kb + k) * s.planeElem c b pb true j (32 * kb + k)) 0
      let sh : Int := ((sa : Int) - 127) + ((sb : Int) - 127) - e - half
      let (v, sat) := accClamp (x.1 + shiftI p sh)
      (v, x.2.1, x.2.2.1 || sat, x.2.2.2 ||| (if sat then flSAT else 0)))
    (accVal w, accNf w, accSatm w, 0)
  (accPack r.1 r.2.1 r.2.2.1, r.2.2.2)

/-- The elements (i, j) of 16 × 16. -/
def grid16 : List (Nat × Nat) := (List.range 16).flatMap fun i => (List.range 16).map fun j => (i, j)

/-- An accumulator element as an exact value (R92). -/
def accFv (w : Nat) (e : Int) : FV := if accNf w then .nan false else .fin (decide (accVal w < 0)) (accVal w).natAbs e

/-- The writes and flags of a block-wise conversion of every block of a plane tile. -/
def overBlocks (v : TV) (kd : Bool) (f : Nat → Nat → List TW × Nat) : List TW × Nat :=
  let l := (List.range (v.o kd)).flatMap fun o => (List.range (v.nb kd)).map fun kb => f o kb
  (l.flatMap Prod.fst, l.foldl (fun x r => x ||| r.2) 0)

/-- The writes and flags of a command, its bytes read before any is written (R153); or TSHELL's memory fault. scal:
scalar operands and SHELLBASE. -/
def State.tCompute (s : State) (c : CoreId) (k : TKind) (d a b : TV) (hasA hasB : Bool) (scal : List Word) (ctx : Nat) :
    State × Except (Nat × Word) (List TW × Nat) :=
  match k with
  | .zero e =>
    let x : Int := if hasA then sextN ((scal.getD 0 0).toNat) 11 else e.toInt
    (s, .ok ((grid16.map fun p => (d.base + (16 * p.1 + p.2) * 8, 8, 0)) ++ [(d.sc, 8, wrapN x 16)], 0))
  | .mma pa pb ha hb =>
    let l := grid16.map fun p => (p, s.mmaElem c pa pb ha hb d a b p.1 p.2)
    (s, .ok (l.map fun q => (d.base + (16 * q.1.1 + q.1.2) * 8, 8, q.2.1), l.foldl (fun f q => f ||| q.2.2) 0))
  | .acc =>
    let sh := s.accExp c a - s.accExp c d
    let l := grid16.map fun p =>
      let x := s.accWord c a p.1 p.2
      let y := s.accWord c d p.1 p.2
      let (v, sat) := accClamp (accVal y + shiftI (accVal x) sh)
      ((d.base + (16 * p.1 + p.2) * 8, 8, accPack v (accNf x || accNf y) (accSatm y || sat)), if sat then flSAT else 0)
    (s, .ok (l.map Prod.fst, l.foldl (fun f q => f ||| q.2) 0))
  | .read f =>
    let e := s.accExp c a
    let l := grid16.map fun p => (p, match accFv (s.accWord c a p.1 p.2) e with
      | .nan _ => (f.canon, flNV)
      | v => f.ofValue false false v)
    (s, .ok (l.map fun q => (d.off q.1.1 q.1.2, fmtBits d.fmt / 8, q.2.1), l.foldl (fun f q => f ||| q.2.2) 0))
  | .readBlk pl =>
    let ea := s.accExp c a
    let eb := s.accExp c b
    (s, .ok (overBlocks d false fun i kb =>
      let xs := (List.range 32).map fun j =>
        if j < 16 then accFv (s.accWord c a i j) ea
        else if hasB then accFv (s.accWord c b i (j - 16)) eb else .fin false 0 0
      let (code, q, fl) := quantBlock pl xs
      (blockWrites d pl false i kb q ++ [scaleWrite d false i kb code], fl)))
  | .quant f pl kd =>
    (s, .ok (overBlocks d kd fun o kb =>
      let xs := (List.range 32).map fun k => let (i1, i0) := idx kd o (32 * kb + k); f.value (s.packElem c a i1 i0)
      let (code, q, fl) := quantBlock pl xs
      (blockWrites d pl kd o kb q ++ [scaleWrite d kd o kb code], fl)))
  | .dequant f pl kd =>
    let el (i1 i0 : Nat) : Nat × Nat :=
      let o := if kd then i0 else i1
      let r := if kd then i1 else i0
      dequantElem f (s.scaleOf c a kd o (r / 32)) (s.planeElem c a pl kd o r)
    let fl := (List.range d.e1).foldl (fun x i1 => (List.range d.e0).foldl (fun x i0 => x ||| (el i1 i0).2) x) 0
    (s, .ok (packWrites d (fun i1 i0 => (el i1 i0).1), fl))
  | .plane pl kd sat =>
    let n := pl.p1.toNat + 1
    let (qmin, qmax, _) := planeLim pl
    (s, .ok (overBlocks d kd fun o kb =>
      let rs := (List.range 32).map fun k =>
        let (i1, i0) := idx kd o (32 * kb + k)
        let v := intVal (fmtSigned a.fmt) (fmtBits a.fmt) (s.packElem c a i1 i0)
        if sat then let q := clampI v qmin qmax; (q, if q = v then 0 else flVSAT) else (intVal pl.signed n (wrapN v n), 0)
      (blockWrites d pl kd o kb (rs.map Prod.fst) ++ [scaleWrite d kd o kb 127], rs.foldl (fun f r => f ||| r.2) 0)))
  | .unplane pl kd sat =>
    let w := fmtBits d.fmt
    let el (i1 i0 : Nat) : Nat × Nat :=
      let v := s.planeElem c a pl kd (if kd then i0 else i1) (if kd then i1 else i0)
      intOut sat (fmtSigned d.fmt) w v
    let fl := (List.range d.e1).foldl (fun x i1 => (List.range d.e0).foldl (fun x i0 => x ||| (el i1 i0).2) x) 0
    (s, .ok (packWrites d (fun i1 i0 => (el i1 i0).1), fl))
  | .cbdec pl kd =>
    let kk := a.k kd
    let code (o cc : Nat) : Nat := s.sread c (a.base + (o * (kk / 8) + cc) * 2) 2
    let ns := ((List.range (a.o kd)).flatMap fun o => (List.range (kk / 8)).map fun cc => code o cc / 256).eraseDups
    match s.shellRead ⟨c, ((s.core c).mcur.map Cmd.retry).getD none⟩ ctx (scal.getD 3 0) ns [] with
    | (s, .error e) => (s, .error e)
    | (s, .ok tab) =>
      (s, .ok (overBlocks d kd fun o kb =>
        let rs := (List.range 4).map fun q => let x := code o (4 * kb + q); cbDecode x (tab.get 0 (x / 256))
        (blockWrites d pl kd o kb (rs.flatMap Prod.fst) ++ [scaleWrite d kd o kb (s.scaleOf c a kd o kb)],
          rs.foldl (fun f r => f ||| r.2) 0)))
  | .had inv kd =>
    let seed := scal.getD 1 0
    let b0 := (scal.getD 2 0).toNat
    let nb := a.k kd / 32
    let l := (List.range (a.o kd)).flatMap fun o => (List.range nb).map fun kb =>
      hadBlock inv seed ((b0 + kb) % 2 ^ 32)
        ((List.range 32).map fun k => let (i1, i0) := idx kd o (32 * kb + k); s.packElem c a i1 i0)
    let el (i1 i0 : Nat) : Nat :=
      let (o, r) := idx kd i1 i0
      ((l.getD (o * nb + r / 32) []).getD (r % 32) (0, 0)).1
    (s, .ok (packWrites d el, l.foldl (fun f y => y.foldl (fun f e => f ||| e.2) f) 0))
  | .topk val kk =>
    let rows := (List.range a.e1).map fun i1 =>
      ((List.range a.e0).map fun i0 => (s.packElem c a i1 i0, i0)).foldl (fun l x => topIns val a.fmt x l) []
    (s, .ok (rows.zipIdx.flatMap fun r => (List.range kk).flatMap fun j =>
      let (v, i) := r.1.getD j (0, 0xFFFFFFFF)
      [(d.off r.2 (2 * j), 4, i), (d.off r.2 (2 * j + 1), 4, v)], 0))

/-- MATRIX_COMMAND_START: the head of the queue starts on the idle engine (R156). -/
def execMatrixCommandStart (c : CoreId) (s : State) : Out :=
  let core := s.core c
  match core.mq with
  | cmd :: rest =>
    if core.mcur.isSome || core.mcheck.isSome then .next s
    else .next (s.modCore c fun k => { k with mcur := some cmd, mq := rest })
  | [] => .next s

/-- MATRIX_COMMAND_COMPLETION (R154): results written, destinations READY, STICKY bits or-ed in, rings advanced; or a failed
shell-table read marks the destination, kept as TSHELL with the memory code in INNER (R158, R322). -/
def execMatrixCommandCompletion (c : CoreId) (s : State) : Out :=
  let core := s.core c
  match core.mcur with
  | none => .next s
  | some cmd =>
    if core.mcheck.isSome then .next s
    else match tenOf cmd.instr with
    | none => .next (s.modCore c fun k => { k with mcur := none })
    | some (k, o) =>
      let a := cmd.srcs.getD 0 []
      let b := cmd.srcs.getD 1 []
      let cc := cmd.srcs.getD 2 []
      let z : TV := ⟨0, 0, 0, 0, 0, 0⟩
      let vd := (s.opView c cmd.dst (cmd.shapes.getD 0 [])).getD z
      let va := (s.opView c a (cmd.shapes.getD 1 [])).getD z
      let vb := (s.opView c b (cmd.shapes.getD 2 [])).getD z
      match s.tCompute c k vd va vb (!a.isEmpty) (!b.isEmpty) cmd.scal cmd.ctx with
      | (s', .error (d, addr)) =>
        if isWait d then .next (s.modCore c fun k => { k with mcur := some { cmd with retry := markAfter cmd.retry (s.time c.pkg) d } }) else
        .next (s'.modCore c fun core =>
          { core.fail cmd.dst (a ++ b ++ cc) ⟨4, 0x56, d, 0, cmd.fpc, addr⟩ with mcur := none })
      | (s, .ok (ws, fl)) =>
        let s := ws.foldl (fun s w => s.swrite c w.1 w.2.1 w.2.2) s
        let s := s.modCore c fun core =>
          { core.complete ⟨o.dst, o.advd, 1⟩ [⟨o.a, o.adva, 1⟩, ⟨o.b, o.advb, 1⟩, ⟨o.c, o.advc, 1⟩] cmd.dst (a ++ b ++ cc) with
            mcur := none }
        .next (s.cmdFlags c cmd.slot fl)

/-! ## Capabilities and remote commands (R171 to R176) -/

/-- TAG of a capability's bits at a core for a context. -/
def State.capTagOf (s : State) (c : CoreId) (ctx : Nat) (low : BitVec 48) : BitVec 16 :=
  Config.capTag (Config.capKey c.key (s.core c).capGen) ctx c.key low

/-- A capability was minted at a core for a context before its key was drawn anew, and not since (R171). -/
def Core.capOld (k : Core) (ctx : Nat) (cap : Word) : Bool :=
  (k.minted.any fun m => m.1 != k.capGen && m.2.1 == ctx && m.2.2 == cap) && !k.minted.contains (k.capGen, ctx, cap)
/-- A capability passes its target's tag check: its tag is the one under the present key, and it is none that was minted under an earlier key, which
fails whatever the two tags are (R171, log 8). -/
def State.capGood (s : State) (c : CoreId) (ctx : Nat) (cap : Word) : Bool :=
  s.capTagOf c ctx (cap.extractLsb' 0 48) == cap.extractLsb' 48 16 && !(s.core c).capOld ctx cap

/-- tcap (R173). -/
def execTcap (g : Guard) (d : Reg) (first last : TReg) (rights : BitVec 3) (life : Imm48) (s : State) : Out :=
  issueU (.tcap g d first last rights life) g (fun s =>
    let expiry : BitVec 33 := BitVec.ofNat 33 (s.time s.cur.core.pkg + life.toNat)
    let low : BitVec 48 := (first ++ last ++ rights ++ expiry).setWidth 48
    let cap : Word := s.capTagOf s.cur.core s.ctx low ++ low
    .ok ((s.modMyCore fun k => { k with minted := (k.capGen, s.ctx, cap) :: k.minted.filter fun m => m != (k.capGen, s.ctx, cap) }).wg d cap)) s

/-- The tensor instruction of a remote command, its operands tiles. -/
def tmxInstr : TmxCmd → Instr
  | .zero d e => .tzero ⟨false, 0⟩ e ⟨.tile d, .none, .none, .none, false, false, false, false⟩
  | .mma d a b pa pb ha hb => .tmma ⟨false, 0⟩ pa pb ha hb ⟨.tile d, .tile a, .tile b, .none, false, false, false, false⟩
  | .acc d a => .tacc ⟨false, 0⟩ ⟨.tile d, .tile a, .none, .none, false, false, false, false⟩

/-- The tiles a remote command names. -/
def tmxTiles : TmxCmd → List TReg
  | .zero d _ => [d]
  | .mma d a b _ _ _ _ => [d, a, b]
  | .acc d a => [d, a]

/-- The rights bit a remote command needs (R172). -/
def tmxRight : TmxCmd → Nat
  | .zero _ _ => 35
  | .mma _ _ _ _ _ _ _ => 34
  | .acc _ _ => 33

/-- tmx: the command goes to the target and the strand waits; a failure is TREMOTE with its number in INNER (R174, R175). DESIGN CHOICE: a
refusal on the way (a link that fails) is none of R175's failures and leaves INNER 0, and bits [32:17] of a slice address, which R178 wants zero and to
which R174 gives no fate, are not looked at (log 64). -/
def execTmx (g : Guard) (a cap : Reg) (cmd : TmxCmd) (s : State) : Out :=
  issueU (.tmx g a cap cmd) g (fun s =>
    let addr := s.rg a
    match s.me.hold with
    | .got r => match r.status with
      | .ack => .ok s
      | .nack => .fault s { s.fault 0x55 with inner := r.inner }
      | _ => .fault s { s.fault 0x55 with inner := 7 }
    | .wait _ => .hold s
    | _ =>
      if !addr.getLsbD 63 then .fault s (s.illegal 5 74)
      else match s.sliceOf s.cur.core addr with
        | some (t, _) =>
          let c := s.cur.core
          s.ask t 0 fun tag => .tmxArrival ⟨⟨t, c, s.cur.slot, tag, s.ctx, {}⟩, BitVec.ofNat 32 s.cur.gid, s.rg cap, cmd⟩
        | none => .fault s { s.fault 0x55 with inner := 1 }) s

/-- A capability is live at a time (R172). -/
def capLive (cap : Word) (t : Nat) : Bool :=
  let d := (bitsN cap.toNat 32 0 + 2 ^ 33 - t % 2 ^ 33) % 2 ^ 33
  decide (1 ≤ d) && decide (d < 2 ^ 32)

/-- TMX arrives at its target: the checks of R175 in order, then the remote command buffer. -/
def execTmxArrival (m : TmxMsg) (s : State) : Out :=
  let c := m.hdr.target
  let k := s.core c
  let cap := m.cap.toNat
  let fail (n : Nat) : Out := .next (s.answer m.hdr .nack 0 n [])
  if k.retired then fail 1
  else s.receive m.hdr [] <|
  if s.fencedHdr m.hdr then .next (s.answer m.hdr .nack 0x93 0 [])
  else if k.ctx ≠ m.hdr.ctx then fail 2
  else if !s.capGood c m.hdr.ctx m.cap then fail 3
  else if !capLive m.cap (s.time c.pkg) then fail 4
  else if (tmxTiles m.cmd).any (fun t => decide (t.toNat < bitsN cap 47 42) || decide (bitsN cap 41 36 < t.toNat)) then fail 5
  else if !m.cap.getLsbD (tmxRight m.cmd) then fail 6
  else if 4 ≤ k.remote.length then .next (s.answer m.hdr .retry 0 0 [])
  else .next ((s.modCore c fun k => { k with remote := k.remote ++ [m] }).answer m.hdr .ack 0 0 [])

/-- REMOTE_COMMAND_ENTRY: the head of the remote buffer enters the matrix queue when the queue has room and its operand
conditions hold; a check that fails then ends it with its destination marked, kept under the check's own detail (R176, R158, R322; DEDUCED: with
INNER 0, log 64). -/
def execRemoteCommandEntry (c : CoreId) (s : State) : Out :=
  let k := s.core c
  match k.remote with
  | [] => .next s
  | m :: rest =>
    if 2 ≤ k.mq.length ∨ k.mcheck.isSome then .next s
    else match tenOf (tmxInstr m.cmd) with
      | none => .next s
      | some (kind, o) =>
        if !k.tensorReady kind o then .next s
        else match s.tPlan c kind o 0 0 0 with
        | .bad detail _ =>
          let d : Deferred := ⟨4, detail, 0, 0, m.gid.setWidth 64, 0⟩
          .next (s.modCore c fun k =>
            { (match tmxTiles m.cmd with | t :: _ => k.markTile t.toNat tEmpty d | [] => k) with remote := rest })
        | .ok false _ _ _ _ _ => .next s
        | .ok true shapes d a b cc =>
          let cmd : Cmd := { instr := (tmxInstr m.cmd), slot := noSlot, sid := m.gid.toNat, ctx := m.hdr.ctx,
                             fpc := m.gid.setWidth 64, dst := d, srcs := [a, b, cc], scal := [0, 0, 0, 0], shapes := shapes,
                             remote := some m.gid.toNat }
          .next (s.modCore c fun k =>
            { k.take ⟨o.dst, false, 1⟩ d (a ++ b ++ cc) with remote := rest, mq := k.mq ++ [cmd] })

end Sys2Proof.Machine
end

