-- ==== Sys2Proof/Machine/Tile.lean ====
section
/-! DEFINITION. Meanings of the tile and ring instructions, OPs 0x74 to 0x7B, and of the copy engine, with putt and gett
(R209 to R219, R305, R412). A copy command reads and writes its bytes in its completion step (log 24). -/

namespace Sys2Proof.Machine

/-! ## Tile table (R209 to R211) -/

/-- A tile may be emptied or redefined: EMPTY or READY, with no reader (R196, R197). -/
def Core.tileFree (c : Core) (t : Nat) : Bool :=
  c.readersOf t == 0 && (tileSt (c.tile t) == tEmpty || tileSt (c.tile t) == tReady)

/-- A tile's entry replaced, its mark clear. -/
def Core.defTile (c : Core) (t : Nat) (w : Word) : Core := { c with tiles := c.tiles.set t w, deferred := c.deferred.del t }

/-- The entry of a descriptor (R210). -/
def tdefEntry (d : Nat) : Word :=
  BitVec.ofNat 64 (bitsN d 27 27 * 2 ^ 63 + bitsN d 21 17 * 2 ^ 56 + bitsN d 26 22 * 2 ^ 51 + bitsN d 16 0 * 2 ^ 34 + bitsN d 44 28 * 2 ^ 17)

/-- tdef (R210). -/
def execTdef (g : Guard) (t : TReg) (a : Reg) (i : Imm48) (s : State) : Out :=
  issueU (.tdef g t a i) g (fun s =>
    let d := (i ||| (s.rg a).setWidth 48).toNat
    if bitsN d 47 45 ≠ 0 ∨ bitsN d 26 22 = 15 then .fault s (s.fault 0x69)
    else if !s.myCore.tileFree t.toNat then .stall
    else .ok (s.modMyCore fun c => c.defTile t.toNat (tdefEntry d))) s

/-- tfree (R211). -/
def execTfree (g : Guard) (t : TReg) (s : State) : Out :=
  issueU (.tfree g t) g (fun s =>
    if s.myCore.tileFree t.toNat then .ok (s.modMyCore fun c => c.defTile t.toNat 0) else .stall) s

/-- tstat, tstat.ring (R211). -/
def execTstat (g : Guard) (d : Reg) (f : TstatForm) (s : State) : Out :=
  issueU (.tstat g d f) g (fun s => .ok (s.wg d (match f with
    | .tile t => s.myCore.tile t.toNat
    | .ring q => s.myCore.rings.get 0 q.toNat))) s

/-- tset.empty (R211). -/
def execTsetEmpty (g : Guard) (t : TReg) (s : State) : Out :=
  issueU (.tsetEmpty g t) g (fun s =>
    if s.myCore.tileFree t.toNat then .ok (s.modMyCore fun c => c.setTile t.toNat tEmpty false) else .stall) s

/-- tset.ready (R211); the strand's earlier stores into its own slice have been performed. -/
def execTsetReady (g : Guard) (t : TReg) (s : State) : Out :=
  issueU (.tsetReady g t) g (fun s =>
    if tileSt (s.myCore.tile t.toNat) = tEmpty then .ok (s.modMyCore fun c => c.setTile t.toNat tReady false) else .stall) s

/-! ## Rings (R212, R213) -/

/-- rdef (R212). -/
def execRdef (g : Guard) (q : QReg) (first : TReg) (size : BitVec 7) (s : State) : Out :=
  issueU (.rdef g q first size) g (fun s =>
    let r := s.myCore.ring q.toNat
    if r.filled + r.free = r.size then .ok (s.modMyCore fun c => c.setRing q.toNat ⟨first.toNat, size.toNat, 0, 0, 0, size.toNat⟩)
    else .stall) s

/-- qadv.head (R213). -/
def execQadvHead (g : Guard) (q : QReg) (k : Imm48) (s : State) : Out :=
  issueU (.qadvHead g q k) g (fun s =>
    let r := s.myCore.ring q.toNat
    let n := k.toNat
    let ts := (List.range n).map (r.slotTile r.head)
    if r.size = 0 ∨ r.filled < n then .fault s (s.fault 0x6D)
    else if ts.any fun t => s.myCore.readersOf t != 0 then .stall
    else .ok (s.modMyCore fun c => (ts.foldl (fun c t => c.tileTo t tEmpty) c).setRing q.toNat
      { r with head := (r.head + n) % r.size, filled := r.filled - n, free := r.free + n })) s

/-- qadv.tail (R213). -/
def execQadvTail (g : Guard) (q : QReg) (k : Imm48) (s : State) : Out :=
  issueU (.qadvTail g q k) g (fun s =>
    let r := s.myCore.ring q.toNat
    if r.size = 0 ∨ r.size - r.filled - r.free < k.toNat then .fault s (s.fault 0x6D)
    else .ok (s.modMyCore fun c => c.setRing q.toNat { r with filled := r.filled + k.toNat })) s

/-! ## Bytes of a tile (R214) -/

/-- FMT is a plane format or cb2. -/
def isPlane (f : Nat) : Bool := f == 14 || decide (16 ≤ f)
/-- Bytes of a block of 32: 4 for each plane, 8 for cb2. -/
def blockBytes (f : Nat) : Nat := if f = 14 then 8 else 4 * (f % 8 + 1)

/-- The dense bytes of a tile: data area, and scale array or exponent word; none where its shape record is malformed. -/
def tileBytes (w : Word) (ws : List Word) : Option (Nat × Nat) :=
  let f := tileFmt w
  if f = 13 then some (2048, 8)
  else match shapeOf ws with
    | none => none
    | some h =>
      if isPlane f then
        if h.rank = 2 ∧ !h.split ∧ (h.ext.1 % 32 = 0 ∨ h.ext.2.1 % 32 = 0) then some (h.count / 32 * blockBytes f, h.count / 32) else none
      else some ((h.count * fmtBits f + 7) / 8, 0)

/-- What a copy command does to its tile. -/
inductive CopyMode where
  | inn | out | outr
deriving DecidableEq, Repr

/-- The mode, the scope and the kind of a copy command: 0 cp, 1 cpx, 2 putt or gett. -/
def copyOf : Instr → Option (CopyMode × Scope × Nat)
  | .cp _ d sc _ _ => some (match d with | .inn => .inn | .out => .out | .outr => .outr, sc, 0)
  | .cpx _ d sc _ _ => some (match d with | .inn => .inn | .out => .out | .outr => .outr, sc, 1)
  | .putt _ rel _ _ _ => some (if rel then .outr else .out, .pkg, 2)
  | .gett _ _ _ _ _ => some (.inn, .pkg, 2)
  | _ => none

/-- The place of f4 element m of a tile at a base (R74, R125): in the far slice or the own one, its byte and which half of it. -/
def Shape.nibble (h : Shape) (base m : Nat) : Bool × Nat × Nat :=
  let (far, x) := h.place 0 m 1
  let n := if far then x - h.far else x
  (far, (if far then h.far else base) + n / 2, n % 2)

/-- A packed tile has a byte outside program space where cpx places its elements (R125, R412). -/
def cpxRangeBad (w : Word) (ws : List Word) : Bool :=
  match shapeOf ws with
  | some h =>
    if tileFmt w = 11 then (List.range h.count).any fun m => decide (progEnd ≤ (h.nibble (tileBase w) m).2.1)
    else (Lay.badPlace ⟨none, fmtBits (tileFmt w) / 8, 1⟩ h (tileBase w)).isSome
  | none => false

/-- A copy command considered for issue: checks 5 to 8 of R412, then the operand condition, then the tile's transition (R196)
and a queue entry. It takes the evput.cp bindings when it is a cp or cpx (R264). -/
def State.copyIssue (s : State) (i : Instr) (mode : CopyMode) (kind : Nat) (t : Nat) (addr : Word) : Res :=
  let c := s.myCore
  let w := c.tile t
  let ws := s.shapeWords s.cur.core (tileShape w)
  let (d, sb) := (tileBytes w ws).getD (0, 0)
  let packed := !isPlane (tileFmt w) && tileFmt w != 13
  if tileFmt w = 15 then .fault s (s.fault 0x69)
  else if tileMark w then .fault s (s.markFault t 0x6C)
  else if (if kind = 1 ∧ packed then cpxRangeBad w ws else decide (progEnd < tileBase w + d))
      || (sb != 0 && decide (progEnd < tileScales w + sb)) then .fault s (s.fault 0x6B)
  else if kind = 0 ∧ addr.getLsbD 63 ∧ 0x20000 < bitsN addr.toNat 16 0 + d + sb then .fault s (s.faultA dMSLICE addr)
  else if 2 ≤ (c.copies.filter fun x => !x.started).length ∨ tileSt w ≠ (if mode = .inn then tEmpty else tReady) then .stall
  else
    let cps := (s.me.binds.filter fun b => b.2 == .cp).map Prod.fst
    let take := kind ≠ 2
    let cmd : CopyCmd :=
      { instr := i, slot := s.cur.slot, sid := s.cur.gid, ctx := s.ctx, super := s.super, fpc := s.me.pc, addr := addr, tile := t,
        data := d, scale := sb, shape := ws, offers := if take then cps.map fun e => s.me.e.get eReset e else [] }
    let s := if take then s.modMe fun x => { x with binds := x.binds.filter fun b => b.2 != .cp } else s
    .ok (s.modMyCore fun c =>
      let c := match mode with
        | .inn => c.tileTo t tFilling
        | .out => c.addReader t
        | .outr => c.tileTo t tDraining
      { c with copies := c.copies ++ [cmd] })

/-- The address of cp and cpx: unscaled (R214). -/
def State.cpEa (s : State) (m : MAddr) : Word := ea48 (s.rg m.base) (s.rg m.idx) 0 m.disp

/-- cp (R214, R412). -/
def execCp (g : Guard) (dir : CpDir) (sc : Scope) (t : TReg) (m : MAddr) (s : State) : Out :=
  issueU (.cp g dir sc t m) g (fun s =>
    let a := s.cpEa m
    if !mformOk a then .fault s (s.faultA dMFORM a)
    else if a.toNat % 8 ≠ 0 then .fault s (s.faultA dMALIGN a)
    else s.copyIssue (.cp g dir sc t m) (match dir with | .inn => .inn | .out => .out | .outr => .outr) 0 t.toNat a) s

/-- cpx (R218, R412). -/
def execCpx (g : Guard) (dir : CpDir) (sc : Scope) (t : TReg) (m : MAddr) (s : State) : Out :=
  issueU (.cpx g dir sc t m) g (fun s =>
    let a := s.cpEa m
    if !mformOk a then .fault s (s.faultA dMFORM a)
    else if a.toNat % 64 ≠ 0 then .fault s (s.faultA dMALIGN a)
    else s.copyIssue (.cpx g dir sc t m) (match dir with | .inn => .inn | .out => .out | .outr => .outr) 1 t.toNat a) s

/-- putt and gett at issue (R305, R412). -/
def State.peerIssue (s : State) (i : Instr) (mode : CopyMode) (t : TReg) (a : Word) : Res :=
  if !mformOk a then .fault s (s.faultA dMFORM a)
  else if !a.getLsbD 63 then .fault s (s.faultA dMSLICE a)
  else s.copyIssue i mode 2 t.toNat a

/-- putt, putt.rel (R305). -/
def execPutt (g : Guard) (rel : Bool) (t : TReg) (b : Reg) (peer : TReg) (s : State) : Out :=
  issueU (.putt g rel t b peer) g (fun s => s.peerIssue (.putt g rel t b peer) (if rel then .outr else .out) t (s.rg b)) s

/-- gett, gett.rel (R305). -/
def execGett (g : Guard) (rel : Bool) (t : TReg) (b : Reg) (peer : TReg) (s : State) : Out :=
  issueU (.gett g rel t b peer) g (fun s => s.peerIssue (.gett g rel t b peer) .inn t (s.rg b)) s

/-! ## Accesses of the copy engine (R214, R215) -/

/-- n bytes at an address read by a copy command at a scope, n at most 8. -/
def State.copyRead1 (s : State) (cmd : CopyCmd) (c : CoreId) (sc : Scope) (a : Word) (n : Nat) : State × Except (Nat × Word) Nat :=
  match s.locFor ⟨c, cmd.retry⟩ cmd.ctx cmd.super .r a with
  | (s, .error d) => (s, .error (d, a))
  | (s, .ok (.slice t off)) => (s, .ok (s.sread t off n))
  | (s, .ok (.mem x)) => let (s, v) := s.memLoad c.crewNo (!sc.inCrew) x n; (s, .ok v)

/-- n bytes at an address written by a copy command at a scope, n at most 8. -/
def State.copyWrite1 (s : State) (cmd : CopyCmd) (c : CoreId) (sc : Scope) (a : Word) (n v : Nat) : State × Except (Nat × Word) Unit :=
  match s.locFor ⟨c, cmd.retry⟩ cmd.ctx cmd.super .w a with
  | (s, .error d) => (s, .error (d, a))
  | (s, .ok (.slice t off)) => (s.swrite t off n v, .ok ())
  | (s, .ok (.mem x)) => (s.memStore c.crewNo c.local_ (!sc.inCrew) x n v, .ok ())

/-- A place of a copy's memory end: an address and its bytes, none of them past the aligned 8-byte word of the address. -/
abbrev Spot := Word × Nat

/-- The spots of n bytes from an address, one for each aligned word that they lie in (R214). -/
def spotsOf (a : Word) (n : Nat) : List Spot :=
  let h := min n (8 - a.toNat % 8)
  (if h = 0 then [] else [(a, h)])
    ++ (List.range ((n - h + 7) / 8)).map fun i => (a + BitVec.ofNat 64 (h + 8 * i), min 8 (n - h - 8 * i))

/-- Bytes cut into runs of the sizes of a list, each as a number. -/
def cutBytes : List Nat → List Byte → List Nat
  | [], _ => []
  | n :: r, bs => leNat (bs.take n) :: cutBytes r (bs.drop n)
/-- The bytes of values at spots. -/
def spotBytes (l : List Spot) (vs : List Nat) : List Byte := (l.zip vs).flatMap fun p => leBytes p.1.2 p.2
/-- Spots with the values that a run of bytes has there. -/
def spotVals (l : List Spot) (bs : List Byte) : List (Spot × Nat) := l.zip (cutBytes (l.map Prod.snd) bs)

/-- Spots read in turn. -/
def State.copyRead (s : State) (cmd : CopyCmd) (c : CoreId) (sc : Scope) : List Spot → State × Except (Nat × Word) (List Nat)
  | [] => (s, .ok [])
  | p :: r =>
    match s.copyRead1 cmd c sc p.1 p.2 with
    | (s, .error e) => (s, .error e)
    | (s, .ok v) =>
      match s.copyRead cmd c sc r with
      | (s, .error e) => (s, .error e)
      | (s, .ok l) => (s, .ok (v :: l))

/-- Every spot translated for writing: the first failure (R215). -/
def State.copyCheck (s : State) (cmd : CopyCmd) (c : CoreId) : List Spot → State × Option (Nat × Word)
  | [] => (s, none)
  | p :: r =>
    match s.locFor ⟨c, cmd.retry⟩ cmd.ctx cmd.super .w p.1 with
    | (s, .error d) => (s, some (d, p.1))
    | (s, .ok _) => s.copyCheck cmd c r

/-- Every spot translated for writing, and once more where the redirects that the first pass has taken may make another wait (R215, R314). -/
def State.copyAims (s : State) (cmd : CopyCmd) (c : CoreId) (l : List Spot) : State × Option (Nat × Word) :=
  match s.copyCheck cmd c l with
  | (s, some e) => (s, some e)
  | (s, none) => s.copyCheck cmd c l

/-- Values written at spots in turn; the first that cannot be written ends the run. -/
def State.copyPut (s : State) (cmd : CopyCmd) (c : CoreId) (sc : Scope) : List (Spot × Nat) → State × Except (Nat × Word) Unit
  | [] => (s, .ok ())
  | p :: r =>
    match s.copyWrite1 cmd c sc p.1.1 p.1.2 p.2 with
    | (s, .error e) => (s, .error e)
    | (s, .ok _) => s.copyPut cmd c sc r

/-- Values written at spots in turn, after every one has been translated. -/
def State.copyWrite (s : State) (cmd : CopyCmd) (c : CoreId) (sc : Scope) (l : List (Spot × Nat)) : State × Except (Nat × Word) Unit :=
  match s.copyAims cmd c (l.map Prod.fst) with
  | (s, some e) => (s, .error e)
  | (s, none) => s.copyPut cmd c sc l

/-- The dense bytes of a tile of an FMT as an engine moves them: an accumulator's reserved bits are read as zero and written zero (R77). -/
def tileClean (f : Nat) (bs : List Byte) : List Byte :=
  if f = 13 then bs.zipIdx.map fun p => if 2050 ≤ p.2 then 0 else if p.2 < 2048 ∧ p.2 % 8 = 7 then p.1 &&& 3 else p.1 else bs

/-- The dense bytes of a core's tile of an entry: n in its data area, m in its scale part (R214). -/
def State.tileOut (s : State) (c : CoreId) (w : Word) (n m : Nat) : List Byte :=
  tileClean (tileFmt w) (s.mem.readBytes (sliceKey c (tileBase w)) n ++ s.mem.readBytes (sliceKey c (tileScales w)) m)
/-- Dense bytes put into a core's tile of an entry, the first n in its data area and then m in its scale part (R214). -/
def State.tileIn (s : State) (c : CoreId) (w : Word) (n m : Nat) (bs : List Byte) : State :=
  let bs := tileClean (tileFmt w) bs
  (s.writeBs (sliceKey c (tileBase w)) (bs.take n)).writeBs (sliceKey c (tileScales w)) ((bs.drop n).take m)

/-! ## Ends of a copy command (R196, R216, R272) -/

/-- A copy command leaves the engine. -/
def Core.dropCopy (k : Core) (cmd : CopyCmd) : Core := { k with copies := k.copies.filter fun x => x != cmd }

/-- A copy command completes: its tile's state, and the offers of its evput.cp events. -/
def State.copyDone (s : State) (c : CoreId) (cmd : CopyCmd) (mode : CopyMode) : State :=
  let s := s.modCore c fun k =>
    (match mode with
      | .inn => k.tileTo cmd.tile tReady
      | .out => k.dropReader cmd.tile
      | .outr => k.tileTo cmd.tile tEmpty).dropCopy cmd
  cmd.offers.foldl (fun s h =>
    if hOk h then s.hwOffer c .copy ((s.core c).newHw .copy) cmd.ctx h (hRank h) .none cmd.sid none else s) s

/-- A copy command fails after issue: nothing of its destination is written, and its tile is marked with MCOPY (R216). -/
def State.copyFail (s : State) (c : CoreId) (cmd : CopyCmd) (mode : CopyMode) (inner : Nat) (a : Word) : State :=
  let d : Deferred := ⟨5, 0x6E, inner, 0, cmd.fpc, a⟩
  s.modCore c fun k =>
    (match mode with
      | .inn => k.markTile cmd.tile tEmpty d
      | .out => (k.dropReader cmd.tile).markTile cmd.tile tReady d
      | .outr => k.markTile cmd.tile tReady d).dropCopy cmd

/-! ## Tensor headers (R217, R218) -/

/-- A tensor header. -/
structure THdr where
  base  : Word
  soff  : Nat
  fmt   : Nat
  kd    : Bool
  ext   : List Nat
  str   : List Nat
deriving DecidableEq, Repr

/-- The header of eight words; none where a reserved field is set, an extent is 0, or a plane or cb2 tensor has not two dimensions: those are MSHAPE, and
are looked at before an FMT of 15. DESIGN CHOICE: the spec gives no code to a RANKM1 other than 1 of such a tensor, and no order (log 53). -/
def thdrOf (ws : List Word) : Option THdr :=
  let w (i : Nat) : Nat := (ws.getD i 0).toNat
  let rank := bitsN (w 5) 55 53 + 1
  let e (i : Nat) : Nat := if rank ≤ i then 1 else if i < 4 then bitsN (w 3) (16 * i + 15) (16 * i) else bitsN (w 4) (16 * i - 49) (16 * i - 64)
  let st (i : Nat) : Nat := if rank ≤ i then 0 else match i with
    | 1 => bitsN (w 5) 23 0 | 2 => bitsN (w 5) 47 24 | 3 => bitsN (w 6) 23 0 | 4 => bitsN (w 6) 47 24
    | 5 => bitsN (w 7) 23 0 | 6 => bitsN (w 7) 47 24 | 7 => bitsN (w 2) 63 40 | _ => 1
  let h : THdr := ⟨ws.getD 0 0, bitsN (w 2) 39 0, bitsN (w 5) 52 48, bitsN (w 5) 56 56 == 1, (List.range 8).map e, (List.range 8).map st⟩
  if bitsN (w 5) 63 57 ≠ 0 ∨ bitsN (w 6) 63 48 ≠ 0 ∨ bitsN (w 7) 63 48 ≠ 0 ∨ h.ext.any (· == 0) ∨ (isPlane h.fmt ∧ rank ≠ 2) then none
  else some h

/-- The element count. -/
def THdr.count (h : THdr) : Nat := h.ext.foldl (· * ·) 1
/-- The element offset of element m of the ascending linear order. -/
def THdr.off (h : THdr) (m : Nat) : Nat :=
  ((h.ext.zip h.str).foldl (fun (p : Nat × Nat) es => (p.1 + p.2 % es.1 * es.2, p.2 / es.1)) (0, m)).1
/-- Reduction and outer extents. -/
def THdr.k (h : THdr) : Nat := if h.kd then h.ext.getD 1 1 else h.ext.getD 0 1
/-- The outer extent. -/
def THdr.o (h : THdr) : Nat := if h.kd then h.ext.getD 0 1 else h.ext.getD 1 1
/-- Blocks (o, kb) in ascending order. -/
def blocksOf (o nb : Nat) : List (Nat × Nat) := (List.range o).flatMap fun x => (List.range nb).map fun kb => (x, kb)
/-- The block number of (o, kb). -/
def THdr.unit (h : THdr) (b : Nat × Nat) : Nat := b.2 + b.1 * h.str.getD 1 0

/-- The data bytes of a header's tensor, as pieces of offset from BASE and length: an element each, or a block each. -/
def THdr.pieces (h : THdr) : List (Nat × Nat) :=
  if isPlane h.fmt then (blocksOf h.o (h.k / 32)).map fun b => (h.unit b * blockBytes h.fmt, blockBytes h.fmt)
  else if h.fmt = 11 then (List.range h.count).map fun m => (h.off m / 2, 1)
  else (List.range h.count).map fun m => (h.off m * (fmtBits h.fmt / 8), fmtBits h.fmt / 8)
/-- The scale bytes of a header's tensor. DEDUCED: the exponent word of an s56 tensor stands where the scale array of another does, 8 bytes at
BASE + SCALEOFF; with SCALEOFF 0 there is none, and E is 0 (log 53). -/
def THdr.scales (h : THdr) : List (Nat × Nat) :=
  if h.soff = 0 then []
  else if isPlane h.fmt then (blocksOf h.o (h.k / 32)).map fun b => (h.soff + h.unit b, 1)
  else if h.fmt = 13 then [(h.soff, 8)]
  else []

/-- The checks of R218 against a tile of an FMT and shape record, and R219's pairs of formats: a detail code. KD: no tile holds one, and a tile
has that of an operand role whose reduction extent is a multiple of 32 (R150), so the header's KD is checked by that. DEDUCED: FMT 15 in the
header is reported first, then a count or extent that differs, then a pair of formats that R219 does not list (log 53). DESIGN CHOICE: a plane header
whose extent along KD is no multiple of 32, which R218 does not check where it faces a packed tile, is MSHAPE too (log 53). -/
def cpxCheck (h : THdr) (tf : Nat) (ws : List Word) (inn : Bool) : Option Nat :=
  let (src, dst) := if inn then (h.fmt, tf) else (tf, h.fmt)
  let pl (f : Nat) : Bool := decide (16 ≤ f)
  let fl (f : Nat) : Bool := decide (6 ≤ f) && decide (f ≤ 11)
  let pair := src == dst || (fl src && fl dst) || (fl src && pl dst) || (pl src && fl dst) || (isPInt src && pl dst) || (pl src && isPInt dst)
  let shapeBad := if isPlane tf then
      match shapeOf ws with
      | some sh => !(sh.rank == 2 && !sh.split && sh.ext.1 == h.ext.getD 0 1 && sh.ext.2.1 == h.ext.getD 1 1
          && (h.ext.drop 2).all (· == 1) && h.k % 32 == 0)
      | none => true
    else if tf = 13 then h.count != 256
    else match shapeOf ws with
      | some sh => sh.count != h.count || (isPlane h.fmt && h.k % 32 != 0)
      | none => true
  if h.fmt = 15 then some 0x69
  else if shapeBad then some 0x6A
  else if !pair then some 0x69
  else none

/-- A piece's bytes past the slice that BASE names (R215). -/
def THdr.leaves (h : THdr) : Bool :=
  h.base.getLsbD 63 && (h.pieces ++ h.scales).any fun p => decide (0x20000 < bitsN h.base.toNat 16 0 + p.1 + p.2)

/-! ## Conversion (R219) -/

/-- A tensor's contents on the way: elements as bits, or blocks of plane bits with their scale codes; the exponent word. -/
inductive Content where
  | elems  (xs : List Nat) (ew : Nat)
  | blocks (bs : List (Nat × Nat))

/-- Plane words of a block of 32 integers as one number (R76). -/
def packBlock (p : Nat) (q : List Int) : Nat :=
  (List.range p).foldl (fun x j => x + 2 ^ (32 * j) * (q.zipIdx.foldl (fun y e => y + wrapN e.1 p / 2 ^ j % 2 * 2 ^ e.2) 0)) 0
/-- Element r of a block. -/
def blockElem (pl : Plane) (b r : Nat) : Int :=
  let p := pl.p1.toNat + 1
  intVal pl.signed p ((List.range p).foldl (fun x j => x + b / 2 ^ (32 * j + r) % 2 * 2 ^ j) 0)
/-- The plane type of an FMT. -/
def planeOfFmt (f : Nat) : Plane := ⟨BitVec.ofNat 3 f, decide (24 ≤ f)⟩

/-- Contents of a format as an engine moves them: an accumulator's reserved bits are zero (R77). -/
def Content.clean (f : Nat) : Content → Content
  | .elems xs ew => if f = 13 then .elems (xs.map fun x => x % 2 ^ 58) (ew % 2 ^ 16) else .elems xs ew
  | .blocks bs => .blocks bs

/-- Contents converted from one format to another, with flags. e0, kd, o, nb: the inner extent and the blocks of the plane side. -/
def convert (src dst e0 : Nat) (kd : Bool) (o nb : Nat) (c : Content) : Content × Nat :=
  if src = dst then (c.clean src, 0)
  else match c with
  | .elems xs ew =>
    if 16 ≤ dst then
      let pl := planeOfFmt dst
      let rs := (blocksOf o nb).map fun b =>
        let el := (List.range 32).map fun r => let (i1, i0) := idx kd b.1 (32 * b.2 + r); xs.getD (i1 * e0 + i0) 0
        match fmtOfCode src with
        | some f => let (code, q, fl) := quantBlock pl (el.map f.value); ((packBlock (pl.p1.toNat + 1) q, code), fl)
        | none => ((packBlock (pl.p1.toNat + 1) (el.map fun x => intVal (fmtSigned src) (fmtBits src) x), 127), 0)
      (.blocks (rs.map Prod.fst), rs.foldl (fun f r => f ||| r.2) 0)
    else match fmtOfCode src, fmtOfCode dst with
      | some f, some g => let (ys, fl) := (xs.map fun x => g.ofValue false false (f.value x)).foldr (fun r p => (r.1 :: p.1, p.2 ||| r.2)) ([], 0)
                          (.elems ys ew, fl)
      | _, _ => (.elems xs ew, 0)
  | .blocks bs =>
    let pl := planeOfFmt src
    let n := o * nb * 32
    let rs := (List.range n).map fun m =>
      let i1 := m / e0
      let i0 := m % e0
      let (x, r) := if kd then (i0, i1) else (i1, i0)
      let (b, code) := bs.getD (x * nb + r / 32) (0, 127)
      let v := blockElem pl b (r % 32)
      match fmtOfCode dst with
      | some f => dequantElem f code v
      | none => intOut false (fmtSigned dst) (fmtBits dst) v
    let (ys, fl) := rs.foldr (fun r p => (r.1 :: p.1, p.2 ||| r.2)) ([], 0)
    (.elems ys 0, fl)

/-- The spots of pieces of a header's tensor. -/
def THdr.spots (h : THdr) (l : List (Nat × Nat)) : List Spot := l.flatMap fun p => spotsOf (h.base + BitVec.ofNat 64 p.1) p.2

/-- Pieces of a header's tensor read, each as a number. -/
def State.cpxPieces (s : State) (cmd : CopyCmd) (c : CoreId) (sc : Scope) (h : THdr) (l : List (Nat × Nat)) :
    State × Except (Nat × Word) (List Nat) :=
  match s.copyRead cmd c sc (h.spots l) with
  | (s, .error e) => (s, .error e)
  | (s, .ok vs) => (s, .ok (cutBytes (l.map Prod.snd) (spotBytes (h.spots l) vs)))

/-- The contents of a header's tensor read from memory. A plane tensor without a scale array has free scale codes (log 11).
DEDUCED: the exponent word of an s56 tensor is 8 bytes at BASE plus SCALEOFF, and 0 where SCALEOFF is 0 (log 53). -/
def State.cpxLoad (s : State) (cmd : CopyCmd) (c : CoreId) (sc : Scope) (h : THdr) : State × Except (Nat × Word) Content :=
  match s.cpxPieces cmd c sc h h.pieces with
  | (s, .error e) => (s, .error e)
  | (s, .ok vs) =>
    match s.cpxPieces cmd c sc h h.scales with
    | (s, .error e) => (s, .error e)
    | (s, .ok ss) =>
      if isPlane h.fmt then
        let bs := vs.zipIdx.map fun v => (v.1, if h.soff = 0 then (Config.freeWord (s.freeN + v.2)).toNat % 256 else ss.getD v.2 0)
        (if h.soff = 0 then s.fresh else s, .ok (.blocks bs))
      else if h.fmt = 11 then (s, .ok (.elems (vs.zipIdx.map fun v => v.1 / 16 ^ (h.off v.2 % 2) % 16) 0))
      else (s, .ok (.elems vs (ss.getD 0 0)))

/-- Nibbles of one byte put together in order: f4 elements of a header's tensor. -/
def State.cpxNibbles (s : State) (cmd : CopyCmd) (c : CoreId) (sc : Scope) (h : THdr) : List (Nat × Nat) → State × Except (Nat × Word) Unit
  | [] => (s, .ok ())
  | (x, m) :: r =>
    let a := h.base + BitVec.ofNat 64 (h.off m / 2)
    let odd := h.off m % 2
    match s.copyRead1 cmd c sc a 1 with
    | (s, .error e) => (s, .error e)
    | (s, .ok old) =>
      let v := if odd = 1 then old % 16 + 16 * (x % 16) else old / 16 * 16 + x % 16
      match s.copyWrite1 cmd c sc a 1 v with
      | (s, .error e) => (s, .error e)
      | (s, .ok _) => s.cpxNibbles cmd c sc h r

/-- Values of pieces of a header's tensor, spot by spot. -/
def THdr.writes (h : THdr) (l : List (Nat × Nat)) (vs : List Nat) : List (Spot × Nat) :=
  spotVals (h.spots l) ((l.zip vs).flatMap fun p => leBytes p.1.2 p.2)

/-- Contents written to a header's tensor in memory. -/
def State.cpxStore (s : State) (cmd : CopyCmd) (c : CoreId) (sc : Scope) (h : THdr) (ct : Content) : State × Except (Nat × Word) Unit :=
  match ct with
  | .elems xs ew =>
    if h.fmt = 11 then
      match s.copyAims cmd c (h.pieces.map fun p => (h.base + BitVec.ofNat 64 p.1, 1)) with
      | (s, some e) => (s, .error e)
      | (s, none) => s.cpxNibbles cmd c sc h xs.zipIdx
    else s.copyWrite cmd c sc (h.writes h.pieces xs ++ h.writes h.scales [ew])
  | .blocks bs => s.copyWrite cmd c sc (h.writes h.pieces (bs.map Prod.fst) ++ h.writes h.scales (bs.map Prod.snd))

/-- The contents of a tile (R125, R150, R151). -/
def State.tileLoad (s : State) (c : CoreId) (w : Word) (ws : List Word) : Content :=
  let f := tileFmt w
  let b := tileBase w
  if isPlane f then
    let n := match shapeOf ws with | some h => h.count / 32 | none => 0
    .blocks ((List.range n).map fun i => (s.sread c (b + i * blockBytes f) (blockBytes f), s.sread c (tileScales w + i) 1))
  else if f = 13 then .elems ((List.range 256).map fun m => s.sread c (b + 8 * m) 8) (s.sread c (tileScales w) 8)
  else match shapeOf ws with
    | some h =>
      if f = 11 then .elems ((List.range h.count).map fun m =>
        let (far, off, half) := h.nibble b m
        s.sread (if far then h.farCore c else c) off 1 / 16 ^ half % 16) 0
      else .elems ((List.range h.count).map fun m =>
        let (far, off) := h.place b m (fmtBits f / 8)
        s.sread (if far then h.farCore c else c) off (fmtBits f / 8)) 0
    | none => .elems [] 0

/-- Contents put into a tile (R125, R150, R151). -/
def State.tileStore (s : State) (c : CoreId) (w : Word) (ws : List Word) (ct : Content) : State :=
  let f := tileFmt w
  let b := tileBase w
  match ct with
  | .blocks bs => bs.zipIdx.foldl (fun s q =>
      (s.swrite c (b + q.2 * blockBytes f) (blockBytes f) q.1.1).swrite c (tileScales w + q.2) 1 q.1.2) s
  | .elems xs ew =>
    if f = 13 then (xs.zipIdx.foldl (fun s q => s.swrite c (b + 8 * q.2) 8 q.1) s).swrite c (tileScales w) 8 ew
    else match shapeOf ws with
      | some h => xs.zipIdx.foldl (fun s q =>
          if f = 11 then
            let (far, off, half) := h.nibble b q.2
            let t := if far then h.farCore c else c
            let old := s.sread t off 1
            s.swrite t off 1 (if half = 1 then old % 16 + 16 * q.1 else old / 16 * 16 + q.1)
          else
            let (far, off) := h.place b q.2 (fmtBits f / 8)
            s.swrite (if far then h.farCore c else c) off (fmtBits f / 8) q.1) s
      | none => s

/-- The far core of a packed tile's shape refuses a cpx: MSLICE, or RETRY for its first line there; or an access of the core to a line there is
outstanding (R125, R188, R189). -/
def State.cpxFar (s : State) (cmd : CopyCmd) (c : CoreId) (w : Word) : Option Nat :=
  match shapeOf cmd.shape with
  | some h =>
    if h.split && !isPlane (tileFmt w) && tileFmt w != 13 then
      let f := h.farCore c
      let (n, offs) := if tileFmt w = 11 then (1, (h.farOffs 1).map fun x => h.far + (x - h.far) / 2)
        else (fmtBits (tileFmt w) / 8, h.farOffs (fmtBits (tileFmt w) / 8))
      let ln := sliceLine f (offs.headD h.far)
      if !s.sliceAllowed cmd.super cmd.ctx f then some dMSLICE
      else if (s.core f).dead then some (if s.retryOver ⟨c, cmd.retry⟩ ln then dMSLICE else dRetry + ln)
      else if (s.core c).busyRuns f n offs then some dWait else none
    else none
  | none => none

/-! ## The engine's steps -/

/-- Commands and course ops that the copy engine runs (R215, R309). -/
def Core.copyBusy (k : Core) : Nat :=
  (k.copies.filter CopyCmd.started).length + (k.courses.foldl (fun n x => n + x.2.started.length + x.2.old.length) 0)

/-- The packet of a putt or gett to its peer (R305). -/
def State.peerPacket (s : State) (c : CoreId) (cmd : CopyCmd) (peer : CoreId) (tag : Nat) : Instr :=
  let w := (s.core c).tile cmd.tile
  let count := match shapeOf cmd.shape with | some h => h.count | none => 0
  let bytes := s.tileOut c w cmd.data cmd.scale
  let hdr : Hdr := ⟨peer, c, cmd.slot, tag, cmd.ctx, {}⟩
  match cmd.instr with
  | .putt _ rel _ _ pt => .tileTransferArrival ⟨hdr, false, rel, pt.toNat, tileFmt w, count, bytes, cmd.place, false⟩
  | .gett _ rel _ _ pt => .tileTransferArrival ⟨hdr, true, rel, pt.toNat, tileFmt w, count, [], cmd.place, false⟩
  | i => i

/-- A cpx's header read, as eight 8-byte words, and checked (R218): the words, or a detail code and an address. -/
def State.cpxHead (s : State) (c : CoreId) (cmd : CopyCmd) (mode : CopyMode) (sc : Scope) : State × Except (Nat × Word) (List Word) :=
  match s.copyRead cmd c sc (spotsOf cmd.addr 64) with
  | (s, .error e) => (s, .error e)
  | (s, .ok vs) =>
    let hw := vs.map (BitVec.ofNat 64)
    match thdrOf hw with
    | none => (s, .error (0x6A, 0))
    | some h =>
      match cpxCheck h (tileFmt ((s.core c).tile cmd.tile)) cmd.shape (mode == .inn) with
      | some d => (s, .error (d, 0))
      | none => if h.leaves then (s, .error (dMSLICE, h.base)) else (s, .ok hw)

/-- A command of a core's copy engine replaced. -/
def Core.setCopy (k : Core) (cmd new_ : CopyCmd) : Core := { k with copies := k.copies.map fun x => if x = cmd then new_ else x }

/-- The runs of lines of a peer's tile, none where its shape is malformed: its data area, and its scale part or the data area again. -/
def State.tileLines (s : State) (t : CoreId) (i : Nat) : List Nat :=
  let w := (s.core t).tile i
  match tileBytes w (s.shapeWords t (tileShape w)) with
  | none => [0, 0, 0, 0]
  | some (d, sb) =>
    let run (base n : Nat) : List Nat := if n = 0 then [0, 0] else [sliceLine t base, sliceLine t (base + n - 1)]
    run (tileBase w) d ++ run (tileScales w) sb
/-- An access of a core to one of the lines of a peer's tile is outstanding (R189). -/
def Core.busyPeer (k : Core) (ls : List Nat) : Bool :=
  let within (n : Nat) : Bool := (decide (ls.getD 0 0 ≤ n) && decide (n ≤ ls.getD 1 0)) || (decide (ls.getD 2 0 ≤ n) && decide (n ≤ ls.getD 3 0))
  k.reqs.any fun r => r.2.line != 0 && (within r.2.line || (r.2.use == .vector && within (r.2.line + 1)))
/-- The peer's tile that a putt or gett names. -/
def peerTile : Instr → Nat
  | .putt _ _ _ _ pt | .gett _ _ _ _ pt => pt.toNat
  | _ => 0

/-- COPY_COMMAND_START (R215): while fewer than two commands and course ops run (R309), the oldest queued command takes a free place; a putt
or gett asks its peer once no access of the core to that tile's lines is outstanding (R189, R361), and a cpx's header is read and checked (R218), the
command starting when that read has its answer. A malformed shape record ends the command (R412). -/
def execCopyCommandStart (c : CoreId) (s : State) : Out :=
  let k := s.core c
  match (if k.copyBusy < 2 then k.copies.find? (fun x => !x.started) else none), [0, 1].find? (fun p => !(k.copies.any fun x => x.started && x.place == p)) with
  | some cmd, some place =>
    if k.dead then .next s
    else match copyOf cmd.instr with
      | none => .next (s.modCore c fun k => k.dropCopy cmd)
      | some (mode, sc, kind) =>
        let cmd' := { cmd with started := true, place := place, retry := none }
        if tileFmt (k.tile cmd.tile) ≠ 13 ∧ (tileBytes (k.tile cmd.tile) cmd.shape).isNone then .next (s.copyFail c cmd mode 0x6A 0)
        else match kind with
        | 0 => .next (s.modCore c fun k => k.setCopy cmd cmd')
        | 1 =>
          match s.cpxHead c cmd mode sc with
          | (s', .ok hw) => .next (s'.modCore c fun k => k.setCopy cmd { cmd' with hdr := hw })
          | (s', .error (d, a)) =>
            if isWait d then .next (s.modCore c fun k => k.setCopy cmd { cmd with retry := markAfter cmd.retry (s.time c.pkg) d })
            else .next (s'.copyFail c cmd mode d a)
        | _ =>
          match s.sliceOf c cmd.addr with
          | none => .next (s.copyFail c cmd mode 0x93 0)
          | some (t, _) =>
            let ls := if t = c then [0, 0, 0, 0] else s.tileLines t (peerTile cmd.instr)
            if k.busyPeer ls then .next s
            else .next ((s.modCore c fun k => k.setCopy cmd cmd').request c cmd.slot (.copy place) t 0 ([0, 0, 0, 0, 0, 0, 0, 0] ++ ls)
              fun tag => s.peerPacket c cmd' t tag).1
  | _, _ => .next s

/-- The outcome of a copy command's memory end: done, failed, or waiting at the interface or for RETRY to end (R188, R215). -/
def State.copyOutcome (s0 s : State) (c : CoreId) (cmd : CopyCmd) (mode : CopyMode) (r : Except (Nat × Word) Unit) : State :=
  match r with
  | .ok _ => s.copyDone c cmd mode
  | .error (d, a) =>
    if isWait d then s0.modCore c fun k => k.setCopy cmd { cmd with retry := markAfter cmd.retry (s0.time c.pkg) d }
    else s.copyFail c cmd mode d a

/-- A cp's bytes moved (R214). -/
def State.cpMove (s : State) (c : CoreId) (cmd : CopyCmd) (mode : CopyMode) (sc : Scope) : State × Except (Nat × Word) Unit :=
  let w := (s.core c).tile cmd.tile
  let spots := spotsOf cmd.addr (cmd.data + cmd.scale)
  if mode = .inn then
    match s.copyRead cmd c sc spots with
    | (s, .error e) => (s, .error e)
    | (s, .ok vs) =>
      (s.tileIn c w cmd.data cmd.scale (spotBytes spots vs), .ok ())
  else s.copyWrite cmd c sc (spotVals spots (s.tileOut c w cmd.data cmd.scale))

/-- A cpx's elements moved and converted (R218, R219). -/
def State.cpxMove (s : State) (c : CoreId) (cmd : CopyCmd) (mode : CopyMode) (sc : Scope) : State × Except (Nat × Word) Unit :=
  let w := (s.core c).tile cmd.tile
  match thdrOf cmd.hdr, s.cpxFar cmd c w with
  | none, _ => (s, .error (0x6A, 0))
  | some _, some d => (s, .error (d, 0))
  | some h, none =>
    let tf := tileFmt w
    let e0 := h.ext.getD 0 1
    if mode = .inn then
      match s.cpxLoad cmd c sc h with
      | (s, .error e) => (s, .error e)
      | (s, .ok ct) =>
        let (ct, fl) := convert h.fmt tf e0 h.kd h.o (h.k / 32) ct
        ((s.tileStore c w cmd.shape ct).cmdFlags c cmd.slot fl, .ok ())
    else
      let (ct, fl) := convert tf h.fmt e0 h.kd h.o (h.k / 32) (s.tileLoad c w cmd.shape)
      match s.cpxStore cmd c sc h ct with
      | (s, .error e) => (s, .error e)
      | (s, .ok _) => (s.cmdFlags c cmd.slot fl, .ok ())

/-- The end of a putt or gett by its peer's answer (R305): the inner code of a failure is FNACK, FTIME or FTARGET. -/
def State.peerMove (s : State) (c : CoreId) (cmd : CopyCmd) (mode : CopyMode) (a : Answer) : State :=
  match a.status with
  | .ack =>
    let w := (s.core c).tile cmd.tile
    let bs := a.data.flatMap fun x => leBytes 8 x.toNat
    (if mode = .inn then s.tileIn c w cmd.data cmd.scale bs else s).copyDone c cmd mode
  | .nack => s.copyFail c cmd mode (if a.cause ≤ 4 then 0x90 else a.cause) 0
  | _ => s.copyFail c cmd mode 0x91 0

/-- COPY_COMMAND_COMPLETION (R214 to R216, R218, R219): the bytes moved, the tile's state, and the events of evput.cp; or a failure. -/
def execCopyCommandCompletion (c : CoreId) (place : Nat) (s : State) : Out :=
  let k := s.core c
  match k.copies.find? fun x => x.started && x.place == place with
  | none => .next s
  | some cmd =>
    if k.dead then .next s
    else match copyOf cmd.instr with
      | none => .next (s.modCore c fun k => k.dropCopy cmd)
      | some (mode, sc, kind) =>
        match kind with
        | 0 => let (s', r) := s.cpMove c cmd mode sc; .next (State.copyOutcome s s' c cmd mode r)
        | 1 => let (s', r) := s.cpxMove c cmd mode sc; .next (State.copyOutcome s s' c cmd mode r)
        | _ => match cmd.answer with
          | none => .next s
          | some a => .next (s.peerMove c cmd mode a)

end Sys2Proof.Machine
end

