-- ==== Sys2Proof/Machine/Fabric.lean ====
section
/-! DEFINITION. Meanings of the fabric instructions, OPs 0xB0 to 0xB9, of migrate and wakerel, and of the steps of packets,
routers, Swener ports, courses and wakes (R281 to R317, R388, R389). -/

namespace Sys2Proof.Machine

/-! ## Active messages (R292 to R298) -/

/-- A core by number, and the next of its row that is not retired (R352); fuel: columns. -/
def State.remap (s : State) : Nat → CoreId → CoreId
  | 0, c => c
  | n + 1, c => if (s.core c).retired then s.remap n { c with col := (c.col + 1) % 512 } else c

/-- The target core of an amsend (R294). -/
def State.amTarget (s : State) (a : Word) : State × Except Nat CoreId :=
  if !mformOk a then (s, .error dMFORM)
  else if a.getLsbD 63 then
    match s.sliceOf s.cur.core a with
    | some (t, _) => (s, .ok t)
    | none => (s, .error 0x93)
  else
    match s.locate s.cur.core s.ctx s.super false .r a.toNat with
    | (s, .error d) => (s, .error d)
    | (s, .ok x) =>
      let h := (mix64 (BitVec.ofNat 64 (s.ctx * 2 ^ 48 + bitsN a.toNat 56 16))).toNat
      (s, .ok (s.remap 512 ⟨x.pkg, h % 512, h / 512 % 200⟩))

/-- amsend (R294). -/
def execAmsend (g : Guard) (a h v : Reg) (tag : Byte) (s : State) : Out :=
  issueU (.amsend g a h v tag) g (fun s =>
    match s.me.hold with
    | .wait _ => .hold s
    | .got r =>
      match r.status with
      | .ack => .ok s
      | .nack => .fault s (s.nackFault r)
      | _ => .fault s (s.fault 0x91)
    | _ =>
      match s.amTarget (s.rg a) with
      | (s, .error d) => .fault s (s.faultA d (s.rg a))
      | (s, .ok t) =>
        let args := (List.range 6).map fun i => s.rg (v + BitVec.ofNat 6 i)
        s.ask t 0 fun rt => .amArrival ⟨⟨t, s.cur.core, s.cur.slot, rt, s.ctx, {}⟩, s.rg h, args, tag, s.rg a, none⟩) s

/-- The 64 bytes of a message as words (R292). -/
def amWords (m : AmMsg) : List Word :=
  let sender := StrandId.gid ⟨m.hdr.src, m.hdr.slot⟩
  m.hword :: (List.range 6).map (fun i => m.args.getD i 0) ++ [BitVec.ofNat 64 (sender % 2 ^ 32 * 2 ^ 32 + m.hdr.ctx % 2 ^ 16 * 2 ^ 16 + m.tag.toNat)]

/-- A handler word has a bit set where R292 gives zero. -/
def hwordBad (h : Word) : Bool := if h.getLsbD 0 then bitsN h.toNat 63 12 != 0 else bitsN h.toNat 5 1 != 0

/-! ## Receive rings (R299, R300) -/

/-- A record placed in the ring of a descriptor at a slice offset: none for a malformed descriptor (FRING); the position count, or
none where it does not fit. -/
def State.ringPlace (s : State) (c : CoreId) (off : Nat) (rec_ : List Word) : Option (State × Option Nat) :=
  let w0 := s.sread c off 8
  let base := bitsN w0 16 0
  let size := bitsN w0 33 17
  if bitsN w0 63 34 ≠ 0 ∨ size = 0 ∨ size % 64 ≠ 0 ∨ base % 64 ≠ 0 ∨ progEnd < base + size then none
  else
    let tail := s.sread c (off + 8) 4
    let head := s.sread c (off + 0x10) 4
    let pos := tail % size
    let l := 8 * rec_.length
    let free := size - (tail + 2 ^ 32 - head) % 2 ^ 32
    let wraps := size < pos + l
    let need := if wraps then size - pos + l else l
    if free < need then some (s, none)
    else
      let s := if wraps then s.swrite c (base + pos) 8 (2 * 2 ^ 16 + (size - pos - 8)) else s
      let pos := if wraps then 0 else pos
      let s := s.writeBs (sliceKey c (base + pos)) (rec_.flatMap fun w => leBytes 8 w.toNat)
      let tail := (tail + need) % 2 ^ 32
      some (s.swrite c (off + 8) 8 tail, some ((tail + 2 ^ 32 - l) % 2 ^ 32))

/-- A record header (R300). -/
def recHead (tag sender kind len : Nat) : Word := BitVec.ofNat 64 (tag * 2 ^ 56 + sender % 2 ^ 32 * 2 ^ 24 + kind * 2 ^ 16 + len)

/-! ## Arrival and dispatch (R293, R295, R296) -/

/-- Where a message goes: its handler's address, a ring's descriptor, an unbound slot, a refusal with cause and inner detail, or nowhere yet: the
read of its slot waits at the interface (R189, R314). -/
inductive AmRoute where
  | run (pc : Word)
  | ring (off : Nat)
  | unbound
  | refused (cause inner : Nat)
  | waits (code : Nat)

/-- The route of a message at its target, with one read of the handler table for the slot form (R293); q: the requester of that read. -/
def State.amRoute (s : State) (q : Asker) (m : AmMsg) : State × AmRoute :=
  if !m.hword.getLsbD 0 then (s, .run m.hword)
  else
    let c := m.hdr.target
    match s.readVa q m.hdr.ctx (m.hdr.ctx == 0) ((s.core c).handlertab + BitVec.ofNat 64 (8 * bitsN m.hword.toNat 11 1)) 8 with
    | (s, .error d) => if isWait d then (s, .waits d) else (s, .refused 0x93 d)
    | (s, .ok e) =>
      if bitsN e 5 2 ≠ 0 then (s, .refused 4 0)
      else if e % 2 = 0 then (s, .unbound)
      else if bitsN e 1 1 = 1 then (s, .ring (bitsN e 16 6 * 64))
      else (s, .run (BitVec.ofNat 64 (e / 64 * 64)))

/-- A strand waits in amnext. -/
def Strand.waitsAm (t : Strand) : Bool := t.mode == .waiting && t.hold == .phase 40 []

/-- The lowest slot of a free message strand. -/
def Core.freeMsgStrand (k : Core) : Option Nat := (k.users.find? fun u => u.2.role == 2 && u.2.waitsAm).map Prod.fst

/-- A message strand enters a handler (R296). -/
def State.amEnter (s : State) (c : CoreId) (slot : Nat) (m : AmMsg) (pc : Word) : State :=
  let ws := (amWords m)
  s.modStrand ⟨c, slot⟩ fun t =>
    let t := (List.range 7).foldl (fun (t : Strand) i => t.wg (BitVec.ofNat 6 (i + 1)) (ws.getD (i + 1) 0)) t
    { t.wg 8 m.addr with pc := pc, checkT := true, mode := .ready, hold := .none, issued := none, stalled := false }

/-- Messages in the overflow ring. -/
def Core.ovfCount (k : Core) : Nat := k.ovfTail - k.ovfHead
/-- The slice offset of an overflow record (R18). -/
def ovfOff (i : Nat) : Nat := 0x1E000 + 64 * (i % 64)

/-- A message put into the inbox, or else the overflow ring; none when both are full (R295). -/
def State.amQueue (s : State) (m : AmMsg) : Option State :=
  let c := m.hdr.target
  let k := s.core c
  let m := { m with retry := none }
  if k.inbox.length < 16 then some (s.modCore c fun k => { k with inbox := k.inbox ++ [m] })
  else if k.ovfCount < 64 then
    let s := s.writeBs (sliceKey c (ovfOff k.ovfTail)) ((amWords m).flatMap fun w => leBytes 8 w.toNat)
    some (s.modCore c fun k => { k with ovfTail := k.ovfTail + 1, ovfAddr := k.ovfAddr ++ [m.addr] })
  else none

/-- A message taken by its target: none while its slot is unbound; else placed and accepted, or refused (R295); it arrives anew where the read of
its slot waits, and keeps what that read has met. -/
def State.amTake (s : State) (m : AmMsg) : Option State :=
  let c := m.hdr.target
  match s.amRoute ⟨c, m.retry⟩ m with
  | (_, .unbound) => none
  | (_, .waits d) => some (s.postStep (.amArrival { m with retry := markAfter m.retry (s.time c.pkg) d }))
  | (s, .refused cause inner) => some (s.answer m.hdr .nack cause inner [])
  | (s, .ring off) =>
    match s.ringPlace c off (recHead m.tag.toNat (StrandId.gid ⟨m.hdr.src, m.hdr.slot⟩) 1 64 :: (amWords m)) with
    | none => some (s.answer m.hdr .nack 0x96 0 [])
    | some (s, some _) => some (s.answer m.hdr .ack 0 0 [])
    | some (s, none) =>
      let s := s.swrite c (off + 0x18) 4 ((s.sread c (off + 0x18) 4 + 1) % 2 ^ 32)
      some (s.answer m.hdr .retry 0 0 [])
  | (s, .run pc) =>
    let k := s.core c
    match (if k.inbox.isEmpty then k.freeMsgStrand else none) with
    | some slot => some ((s.amEnter c slot m pc).answer m.hdr .ack 0 0 [])
    | none =>
      match s.amQueue m with
      | some s => some ((if (s.core c).freeMsgStrand.isSome then s.postOnce (.amDispatch c) else s).answer m.hdr .ack 0 0 [])
      | none => some (s.answer m.hdr .retry 0 0 [])

/-- A context's pending queue of a package. -/
def State.pending (s : State) (pkg ctx : Nat) : List (AmMsg × Nat) := (s.pkg pkg).pendMsgs.get [] ctx
/-- The queue replaced. -/
def State.setPending (s : State) (pkg ctx : Nat) (l : List (AmMsg × Nat)) : State :=
  s.modPkg pkg fun p => { p with pendMsgs := p.pendMsgs.set ctx l }

/-- A message refused whatever its slot holds: its context is fenced or not the one that its target serves, the target is retired or names no
core, its handler word is malformed (R292, R349). -/
def State.amRefused (s : State) (m : AmMsg) : Option Nat :=
  let c := m.hdr.target
  let k := s.core c
  if s.fencedHdr m.hdr || k.retired || decide (200 ≤ c.row) || k.ctx != m.hdr.ctx then some 0x93
  else if hwordBad m.hword then some 4 else none

/-- A message put into its context's pending queue, for at most 10,000 ticks; none where the queue is full (R293). -/
def State.amPend (s : State) (m : AmMsg) : Option State :=
  let pkg := m.hdr.target.pkg
  let q := s.pending pkg m.hdr.ctx
  let now := s.time pkg
  let m := { m with retry := none }
  if 16 ≤ q.length then none
  else some ((s.setPending pkg m.hdr.ctx (q ++ [(m, now)])).postAt pkg (now + 10000) (.funbound pkg m))

/-- AM_ARRIVAL (R292, R293, R295, R350, R349). -/
def execAmArrival (m : AmMsg) (s : State) : Out :=
  s.receive m.hdr [] <|
  match s.amRefused m with
  | some d => .next (s.answer m.hdr .nack d 0 [])
  | none => match s.amTake m with
    | some s => .next s
    | none => .next ((s.amPend m).getD (s.answer m.hdr .retry 0 0 []))

/-- FUNBOUND (R293). -/
def execFunbound (pkg : Nat) (m : AmMsg) (s : State) : Out :=
  let q := s.pending pkg m.hdr.ctx
  if q.any fun x => x.1 == m then
    .next ((s.setPending pkg m.hdr.ctx (q.filter fun x => x.1 != m)).answer m.hdr .nack 0x92 0 [])
  else .next s

/-- The pending queue of a context examined again, in order (R293): a message whose target serves another context by now is refused, and one of a
machine-checked core gets RETRY (R53, R350). -/
def State.rebind (s : State) (pkg ctx : Nat) : State :=
  (s.pending pkg ctx).foldl (fun s x =>
    let r := if (s.core x.1.hdr.target).dead then some (s.answer x.1.hdr .retry 0 0 [])
      else match s.amRefused x.1 with
        | some d => some (s.answer x.1.hdr .nack d 0 [])
        | none => s.amTake x.1
    match r with
    | some s => s.setPending pkg ctx ((s.pending pkg ctx).filter fun y => y.1 != x.1)
    | none => s) s

/-- The oldest placed message of a core: the inbox first, then the overflow ring (R295). -/
def State.amOldest (s : State) (c : CoreId) : Option (AmMsg × State) :=
  let k := s.core c
  match k.inbox with
  | m :: r => some (m, s.modCore c fun k => { k with inbox := r })
  | [] =>
    if k.ovfCount = 0 then none
    else
      let w (i : Nat) : Word := BitVec.ofNat 64 (s.sread c (ovfOff k.ovfHead + 8 * i) 8)
      let last := (w 7).toNat
      let snd := strandOfGid (last / 2 ^ 32)
      some (⟨⟨c, snd.core, snd.slot, 2 ^ 17, bitsN last 31 16, {}⟩, w 0, (List.range 6).map fun i => w (i + 1), BitVec.ofNat 8 last,
          k.ovfAddr.headD 0, none⟩,
        s.modCore c fun k => { k with ovfHead := k.ovfHead + 1, ovfAddr := k.ovfAddr.tail })

/-- AM_DISPATCH (R296): the oldest placed message enters its handler on a free message strand; a slot that has been bound anew
since is read again (R298). One whose slot is unbound by then waits in the pending queue as an arriving one does, its sender having its answer
(R293); while the queue is full it stays where it is. -/
def execAmDispatch (c : CoreId) (s : State) : Out :=
  let k := s.core c
  let s0 := s
  match k.freeMsgStrand, s.amOldest c with
  | some slot, some (m, s') =>
    if k.dead then .next s
    else
      let again (s : State) : State := if (s.core c).inbox.isEmpty && (s.core c).ovfCount == 0 then s else s.postOnce (.amDispatch c)
      let m := { m with hdr := { m.hdr with target := c, rtag := 2 ^ 17 } }
      let s := s.partMet c 1 0
      match s'.amRoute (s'.partOf c 1) m with
      | (_, .waits d) => .next ((s0.partMet c 1 d).postOnce (.amDispatch c))
      | (s', .run pc) => .next (s'.amEnter c slot m pc)
      | (s', .refused _ _) => .next (again s')
      | (s', .unbound) =>
        match s'.amPend m with
        | some s' => .next (again s')
        | none => .next (s.postAt c.pkg (s.time c.pkg + 64) (.amDispatch c))
      | (s', .ring off) =>
        match s'.ringPlace c off (recHead m.tag.toNat (StrandId.gid ⟨m.hdr.src, m.hdr.slot⟩) 1 64 :: (amWords m)) with
        | some (s', some _) => .next (again s')
        | some (_, none) => .next s
        | none => .next (again s')
  | _, _ => .next s

/-- amnext (R297). -/
def execAmnext (g : Guard) (s : State) : Out :=
  issueY (.amnext g) g (fun s =>
    match s.me.hold with
    | .phase 40 _ => .hold s
    | _ =>
      if s.me.role ≠ 2 then .fault s (s.fault 0x95)
      else match s.yieldHere with
        | (_, some r) => r
        | (s, none) =>
          let s := s.modMe fun t => { t with mode := .waiting, hold := .phase 40 [] }
          .hold (s.postOnce (.amDispatch s.cur.core))) s

/-- ambind (R298). -/
def execAmbind (g : Guard) (ring : Bool) (a : Reg) (slot : BitVec 11) (s : State) : Out :=
  issueU (.ambind g ring a slot) g (fun s =>
    let v := s.rg a
    let c := s.cur.core
    let at_ := s.myCore.handlertab + BitVec.ofNat 64 (8 * slot.toNat)
    if v.toNat % 64 ≠ 0 then .fault s (s.illegal 5 68)
    else
      let e := if v = 0 then 0 else v.toNat + (if ring then 2 else 0) + 1
      match s.writeVa (s.asker s.cur) s.ctx s.super at_ 8 e with
      | (s, some d) => .fault s (s.faultA d at_)
      | (s, none) => .ok (s.rebind c.pkg s.ctx)) s

/-! ## append (R301, R302) -/

/-- append, append.rel (R301). -/
def execAppend (g : Guard) (d r : Reg) (n1 : BitVec 3) (rel : Bool) (b : Reg) (disp : Imm48) (s : State) : Out :=
  issueU (.append g d r n1 rel b disp) g (fun s =>
    let a := s.rg b + disp.signExtend 64
    match s.me.hold with
    | .wait _ => .hold s
    | .got x =>
      match x.status with
      | .ack => .ok (s.wg d (x.data.headD 0))
      | .full => .ok (s.wg d (BitVec.ofNat 64 (2 ^ 63 + 1)))
      | .nack => .fault s { s.nackFault x with info0 := a }
      | _ => .fault s (s.faultA dMSLICE a)
    | _ =>
      if !mformOk a then .fault s (s.faultA dMFORM a)
      else if !a.getLsbD 63 then .fault s (s.faultA dMSLICE a)
      else if a.toNat % 64 ≠ 0 then .fault s (s.faultA dMALIGN a)
      else match s.sliceOf s.cur.core a with
        | none => .fault s (s.faultA dMSLICE a)
        | some (t, off) =>
          let line := if t = s.cur.core then 0 else (Loc.slice t off).line
          if (rel ∧ (s.me.unacked ≠ 0 ∨ s.stuckWrites s.cur.core)) ∨ s.myCore.busyLine line then s.at_ 1 []
          else
            let s := if rel then s.cleanWrittenBy s.cur.core.crewNo s.cur.core.local_ else s
            let row := (List.range (n1.toNat + 1)).map fun i => s.rg (r + BitVec.ofNat 6 i)
            s.ask t line fun tag => .appendArrival ⟨⟨t, s.cur.core, s.cur.slot, tag, s.ctx, {}⟩, off, row⟩) s

/-- APPEND_ARRIVAL (R301, R302): the record placed, or FULL. -/
def execAppendArrival (m : AppendMsg) (s : State) : Out :=
  let c := m.hdr.target
  s.receive m.hdr [] <|
  if c ≠ m.hdr.src ∧ s.fencedHdr m.hdr then .next (s.answer m.hdr .nack 0x93 0 [])
  else if !s.sliceAllowed (m.hdr.slot == 0) m.hdr.ctx c then .next (s.answer m.hdr .nack dMSLICE 0 [])
  else match s.ringPlace c m.off (recHead 0 (StrandId.gid ⟨m.hdr.src, m.hdr.slot⟩) 0 (8 * m.row.length) :: m.row) with
    | none => .next (s.answer m.hdr .nack 0x96 0 [])
    | some (s, some n) => .next (s.answer m.hdr .ack 0 0 [BitVec.ofNat 64 n])
    | some (s, none) =>
      let s := s.swrite c (m.off + 0x1C) 4 ((s.sread c (m.off + 0x1C) 4 + 1) % 2 ^ 32)
      .next (s.answer m.hdr .full 0 0 [])

/-- CSEND_ARRIVAL (R304): the selected values added where the sender may access the slice (R19); flags are discarded. -/
def execCsendArrival (m : CsendMsg) (s : State) : Out :=
  let c := m.hdr.target
  s.receive m.hdr [] <|
  if s.fencedHdr m.hdr || !s.sliceAllowed (m.hdr.slot == 0) m.hdr.ctx c then .next (s.answer m.hdr .nack 0x93 0 [])
  else if m.off % 128 ≠ 0 ∨ progEnd < m.off + m.total then .next (s.answer m.hdr .nack 4 0 [])
  else
    let picked := (List.range 32).filter fun i => m.mask.getLsbD i
    let s := (picked.zip m.vals).foldl (fun s p =>
      let at_ := m.off + 4 * (32 * m.block + p.1)
      let (r, _) := FFmt.addV .f32 false false (FFmt.value .f32 (s.sread c at_ 4)) (FFmt.value .f32 p.2.toNat)
      s.swrite c at_ 4 r) s
    .next (s.answer m.hdr .ack 0 0 [])

/-- Words of a run of bytes. -/
def wordsOf (bs : List Byte) : List Word := (List.range ((bs.length + 7) / 8)).map fun i => BitVec.ofNat 64 (leNat ((bs.drop (8 * i)).take 8))

/-- The peer's part of a putt or gett that it has accepted comes again as it lands. -/
def State.tileLands (s : State) (m : TileMsg) : State := s.postStep (.tileTransferArrival { m with landed := true })

/-- A putt that its peer has accepted fails there: its tile is EMPTY and marked (R196). DEDUCED: the fault kept is MCOPY with the code that the putt's
own core gets, FNACK or the cause, and no instruction of the peer's is to blame (log 24). -/
def State.puttFailed (s : State) (m : TileMsg) (cause : Nat) : State :=
  let c := m.hdr.target
  let inner := if cause ≤ 4 then 0x90 else cause
  (s.modCore c fun k => k.markTile m.tile tEmpty ⟨5, 0x6E, inner, 0, 0, 0⟩).answer m.hdr .nack cause 0 []

/-- A putt or gett that its peer has accepted: the last byte is written or read, the tile has its state, and the sender its answer (R196, R305). A
gett.rel ends its read when no other reader of the tile is left. -/
def State.tileLand (s : State) (m : TileMsg) (w : Word) (d sb : Nat) : State :=
  let c := m.hdr.target
  if m.get then
    if tileSt w ≠ tReady then s.answer m.hdr .nack 4 0 []
    else if m.rel ∧ 1 < (s.core c).readersOf m.tile then s.postAt c.pkg (s.time c.pkg + 64) (.tileTransferArrival m)
    else
      let bs := s.tileOut c w d sb
      let s := s.modCore c fun k => if m.rel then (k.dropReader m.tile).tileTo m.tile tEmpty else k.dropReader m.tile
      s.send c m.hdr.src (.reply { src := c, dst := m.hdr.src, rtag := m.hdr.rtag, status := .ack, data := wordsOf bs, bulk := true })
  else if tileSt w ≠ tFilling then s.answer m.hdr .nack 4 0 []
  else ((s.tileIn c w d sb m.bytes).modCore c fun k => k.tileTo m.tile tReady).answer m.hdr .ack 0 0 []

/-- TILE_TRANSFER_ARRIVAL (R305, R196): the peer of a putt or gett answers RETRY or NACK, or accepts it, its tile FILLING or read from then on; what
it has accepted lands in a later step. -/
def execTileTransferArrival (m : TileMsg) (s : State) : Out :=
  let c := m.hdr.target
  let k := s.core c
  let w := k.tile m.tile
  let ws := s.shapeWords c (tileShape w)
  let bad (cause : Nat) : Out := .next (if m.landed && !m.get && tileSt w == tFilling then s.puttFailed m cause
    else (if m.landed && m.get then s.modCore c fun k => k.dropReader m.tile else s).answer m.hdr .nack cause 0 [])
  s.receive m.hdr [] <|
  if s.fencedHdr m.hdr || k.retired || k.ctx != m.hdr.ctx then bad 0x93
  else match tileBytes w ws with
    | none => bad 4
    | some (d, sb) =>
      let count := match shapeOf ws with | some h => h.count | none => 0
      if tileFmt w ≠ m.fmt ∨ count ≠ m.count then bad 4
      else if m.landed then .next (s.tileLand m w d sb)
      else if tileSt w ≠ (if m.get then tReady else tEmpty) ∨ ((!m.get || m.rel) && k.readersOf m.tile != 0) then
        .next (s.answer m.hdr .retry 0 0 [])
      else .next ((s.modCore c fun k => if m.get then k.addReader m.tile else k.tileTo m.tile tFilling).tileLands m)

/-! ## Courses (R306 to R310, R388, R389) -/

/-- An op record's fields. -/
structure Op where
  kind : Nat
  next : List Nat
  dep  : Nat
  src  : Word
  dst  : Word
  len  : Word
deriving DecidableEq, Repr

/-- An address field of a record is well formed. -/
def opAddrOk (w : Word) : Bool := bitsN w.toNat 60 48 == 0
/-- An address of bases. -/
def opAddr (bases : List Word) (w : Word) : Word := bases.getD (bitsN w.toNat 63 61) 0 + BitVec.ofNat 64 (bitsN w.toNat 47 0)

/-- The record of four words in a course of n ops; none where R306 refuses it. -/
def opOf (n : Nat) (ws : List Word) : Option Op :=
  let w := (ws.getD 0 0).toNat
  let src := ws.getD 1 0
  let dst := ws.getD 2 0
  let len := ws.getD 3 0
  let kind := bitsN w 63 60
  let next := (if bitsN w 49 49 = 1 then [bitsN w 59 50] else []) ++ (if bitsN w 38 38 = 1 then [bitsN w 48 39] else [])
  let o : Op := ⟨kind, next, bitsN w 37 27, src, dst, len⟩
  let l := len.toNat
  if 3 < kind ∨ bitsN w 26 0 ≠ 0 ∨ 1024 < o.dep ∨ next.any (fun x => decide (n ≤ x)) then none
  else
    let good := match kind with
      | 1 => opAddrOk src && opAddrOk dst && l % 8 == 0 && decide (8 ≤ l) && decide (l ≤ 2 ^ 24)
      | 2 => dst == 0 && l == 0
      | 3 => opAddrOk src && dst == 0 && decide (l ≤ 1)
      | _ => opAddrOk src && dst == 0 && l == 0
    if good then some o else none

/-- A course slot of a core. -/
def Core.course (k : Core) (n : Nat) : Course := k.courses.get {} n
/-- A course slot changed. -/
def Core.modCourse (k : Core) (n : Nat) (f : Course → Course) : Core := { k with courses := k.courses.set n (f (k.course n)) }
/-- A course slot of a core changed. -/
def State.modCourse (s : State) (c : CoreId) (n : Nat) (f : Course → Course) : State := s.modCore c fun k => k.modCourse n f

/-- n words from an address by plain reads, in a context. -/
def State.plainWords (s : State) (q : Asker) (ctx : Nat) (a : Word) : Nat → State × Except Nat (List Word)
  | 0 => (s, .ok [])
  | n + 1 =>
    match s.readPlain q ctx (ctx == 0) a 8 with
    | (s, .error d) => (s, .error d)
    | (s, .ok v) =>
      match s.plainWords q ctx (a + 8) n with
      | (s, .error d) => (s, .error d)
      | (s, .ok r) => (s, .ok (BitVec.ofNat 64 v :: r))

/-- The records of an image checked in turn: their DEPs, or a detail code. -/
def State.crsRead (s : State) (q : Asker) (ctx : Nat) (a : Word) (count : Nat) : Nat → State × Except Nat (List Nat)
  | 0 => (s, .ok [])
  | n + 1 =>
    match s.plainWords q ctx (a + BitVec.ofNat 64 (32 * (count - (n + 1)))) 4 with
    | (s, .error d) => (s, .error d)
    | (s, .ok ws) =>
      match opOf count ws with
      | none => (s, .error 0x97)
      | some o =>
        match s.crsRead q ctx a count n with
        | (s, .error d) => (s, .error d)
        | (s, .ok r) => (s, .ok (o.dep :: r))

/-- An instance runs, or a start waits (R307, R308). -/
def Course.busy (x : Course) : Bool := x.st == 1 || x.queued.isSome

/-- crsload (R307). -/
def execCrsload (g : Guard) (c : Bool) (a : Reg) (count : Imm48) (s : State) : Out :=
  issueU (.crsload g c a count) g (fun s =>
    let n := if c then 1 else 0
    let img := s.rg a
    if (s.myCore.course n).busy ∨ img.toNat % 64 ≠ 0 then .fault s (s.fault 0x97)
    else match s.crsRead (s.asker s.cur) s.ctx img count.toNat count.toNat with
      | (s, .error d) => .fault s (s.faultA d img)
      | (s, .ok deps) =>
        if !deps.contains 0 then .fault s (s.fault 0x97)
        else .ok (s.modCourse s.cur.core n fun x => { x with image := img, ctx := s.ctx, loaded := true, deps0 := deps })) s

/-- An instance begins (R308); ops that a failed one has started complete beside it (R309). -/
def Course.begin_ (x : Course) (bases : List Word) (starter : Option Nat) : Course :=
  { x with st := 1, bases := bases, starter := starter, ops := x.deps0.length, doneOps := [], started := [],
           old := x.started.foldl (fun l p => l.set p.1 (x.bases, p.2)) x.old, deps := x.deps0.zipIdx.map fun d => (d.2, d.1) }

/-- The outcome of a start of a slot: begun or queued, or a detail code (R308). -/
def Course.start (x : Course) (bases : List Word) (starter : Option Nat) : Except Nat Course :=
  if !x.loaded then .error 0x97
  else if x.busy then
    (if x.queued.isSome then .error 0x98 else .ok { x with queued := some (bases, starter) })
  else .ok (x.begin_ bases starter)

/-- crsgo (R308, R389): the base table is read once every earlier access of the strand is performed. -/
def execCrsgo (g : Guard) (c : Bool) (a : Reg) (s : State) : Out :=
  issueU (.crsgo g c a) g (fun s =>
    let n := if c then 1 else 0
    let x := s.myCore.course n
    let t := s.rg a
    let go (s : State) (bases : List Word) : Res :=
      match x.start bases (some s.cur.gid) with
      | .error d => .fault s (s.fault d)
      | .ok x => .ok (s.modCourse s.cur.core n fun _ => x)
    if a ≠ 0 ∧ t.toNat % 64 ≠ 0 then .fault s (s.faultA dMALIGN t)
    else match x.start [] none with
      | .error d => .fault s (s.fault d)
      | .ok _ =>
        if a = 0 then go s x.bases
        else if s.me.unacked ≠ 0 then s.at_ 0 []
        else match s.plainWords (s.asker s.cur) s.ctx t 8 with
          | (s, .error d) => .fault s (s.faultA d t)
          | (s, .ok ws) => go s ws) s

/-- crsstat's word (R310). -/
def Course.word (x : Course) : Word :=
  let left := x.ops - x.doneOps.length
  BitVec.ofNat 64 (x.st * 2 ^ 62 + (if x.queued.isSome then 2 ^ 61 else 0) + x.failOp % 2 ^ 10 * 2 ^ 51 + x.failDet % 2 ^ 8 * 2 ^ 43
    + left % 2 ^ 11 * 2 ^ 32 + x.insts % 2 ^ 32)

/-- crsstat (R310). -/
def execCrsstat (g : Guard) (c : Bool) (d : Reg) (s : State) : Out :=
  issueU (.crsstat g c d) g (fun s => .ok (s.wg d (s.myCore.course (if c then 1 else 0)).word)) s

/-- The instance has ended with no op left to complete: a queued start begins (R308). -/
def State.crsSettle (s : State) (c : CoreId) (n : Nat) : State :=
  let x := (s.core c).course n
  if x.st = 1 ∨ !x.started.isEmpty then s
  else match x.queued with
    | some (bases, starter) => s.modCourse c n fun x => { (x.begin_ bases starter) with queued := none }
    | none => s

/-- An op of an instance that has ended is over (R309). -/
def State.crsOldEnd (s : State) (c : CoreId) (n op : Nat) : State :=
  s.modCourse c n fun x => { x with old := x.old.del op, retries := x.retries.del op }

/-- An op fails: the instance is FAILED, and the strand whose crsgo began it, by the id that it has now, takes an upcall while it runs (R309). -/
def State.crsFail (s : State) (c : CoreId) (n op detail : Nat) : State :=
  let x := (s.core c).course n
  let s := s.modCourse c n fun x =>
    { x with started := x.started.del op, retries := x.retries.del op, st := if x.st = 1 then 3 else x.st,
             failOp := if x.st = 1 then op else x.failOp, failDet := if x.st = 1 then detail else x.failDet }
  let s := if x.st = 1 then
      match x.starter with
      | some gid =>
        let t := strandOfGid gid
        if (s.strand t).mode = .free then s
        else s.modStrand t fun y => { y with upcalls := y.upcalls ++ [{ cause := 10, detail := detail, fpc := y.pc, rpc := y.pc }] }
      | none => s
    else s
  s.crsSettle c n

/-- An op completes: its successors' counters fall; the last one makes the instance DONE (R309). -/
def State.crsDone (s : State) (c : CoreId) (n op : Nat) : State :=
  let x := (s.core c).course n
  match opOf x.deps0.length (x.started.get [] op) with
  | none => s.crsFail c n op 0x97
  | some o =>
    let x := { x with started := x.started.del op, retries := x.retries.del op, doneOps := x.doneOps ++ [op] }
    let x := o.next.foldl (fun (x : Course) y => { x with deps := x.deps.upd 0 y fun d => d - 1 }) x
    let x := if x.st = 1 ∧ x.doneOps.length = x.deps0.length then { x with st := 2, insts := (x.insts + 1) % 2 ^ 32 } else x
    (s.modCourse c n fun _ => x).crsSettle c n

/-- An op is runnable: its counter is 0, and it has not started (R309). -/
def Course.runnable (x : Course) (op : Nat) : Bool :=
  x.st == 1 && decide (op < x.deps0.length) && x.deps.get 1 op == 0 && !x.started.has op && !x.doneOps.contains op

/-- The lowest runnable op. -/
def Course.nextOp (x : Course) : Option Nat := (List.range x.deps0.length).find? x.runnable

/-- What the access in hand of an op has met (R188). -/
def State.crsMet (s : State) (c : CoreId) (n op d : Nat) : State :=
  s.modCourse c n fun x => { x with retries := x.retries.set op (markAfter (x.retries.get none op) (s.time c.pkg) d) }

/-- COURSE_OP_START (R309): a runnable op takes a free place of the copy engine; its record is read again (R307). -/
def execCourseOpStart (c : CoreId) (slot op : Nat) (s : State) : Out :=
  let k := s.core c
  let x := k.course slot
  if k.dead || !x.runnable op || decide (2 ≤ k.copyBusy) then .next s
  else match s.plainWords ⟨c, x.retries.get none op⟩ x.ctx (x.image + BitVec.ofNat 64 (32 * op)) 4 with
    | (s', .error d) => .next (if isWait d then s.crsMet c slot op d else s'.crsFail c slot op d)
    | (s, .ok ws) =>
      let s := s.modCourse c slot fun x => { x with started := x.started.set op ws, retries := x.retries.del op }
      match opOf x.deps0.length ws with
      | none => .next (s.crsFail c slot op 0x97)
      | some o =>
        match o.kind with
        | 0 => .next (s.crsDone c slot op)
        | 1 => .next (s.postStep (.courseOpCompletion c slot op))
        | 2 =>
          if !hOk o.src ∨ hKind o.src ≠ .sync then .next (s.crsFail c slot op (if hOk o.src then 0x8B else 0x80))
          else .next (s.hwOffer c .course ((s.core c).newHw .course) x.ctx o.src (hRank o.src) .none 0 (some (slot, op)))
        | _ =>
          let a := opAddr x.bases o.src
          match (if a.getLsbD 63 then s.sliceOf c a else none) with
          | none => .next (s.crsFail c slot op 0x93)
          | some (t, _) =>
            .next (s.request c noSlot (.course slot op) t 0 [] fun tag =>
              .courseStart ⟨⟨t, c, noSlot, tag, x.ctx, {}⟩, o.len.toNat % 2, x.bases⟩).1

/-- The bytes of a COPY op moved in the manner of a cp at package scope (R309, R388). DEDUCED: an address that is not a multiple of 8 is MALIGN, as
it is of a cp (R214, log 54). -/
def State.crsCopy (s : State) (c : CoreId) (slot op ctx : Nat) (bases : List Word) (o : Op) : State × Except (Nat × Word) Unit :=
  let cmd : CopyCmd :=
    { instr := .courseOpCompletion c slot op, slot := noSlot, sid := 0, ctx := ctx, super := ctx == 0, fpc := 0,
      addr := 0, tile := 0, data := 0, scale := 0, shape := [], offers := [], retry := ((s.core c).course slot).retries.get none op }
  let src := opAddr bases o.src
  let dst := opAddr bases o.dst
  let n := o.len.toNat % 2 ^ 32
  if src.toNat % 8 ≠ 0 then (s, .error (dMALIGN, src))
  else if dst.toNat % 8 ≠ 0 then (s, .error (dMALIGN, dst))
  else match s.copyRead cmd c .pkg (spotsOf src n) with
    | (s, .error e) => (s, .error e)
    | (s, .ok vs) => s.copyWrite cmd c .pkg ((spotsOf dst n).zip vs)

/-- COURSE_OP_COMPLETION of a COPY (R309, R388), of the instance that runs or of one that has failed; it comes again where an access waits at the
interface, or meets RETRY for less than 10,000 ticks (R188). -/
def execCourseOpCompletion (c : CoreId) (slot op : Nat) (s : State) : Out :=
  let k := s.core c
  let x := k.course slot
  let (bases, ws) := x.old.get (x.bases, x.started.get [] op) op
  if k.dead || !(x.old.has op || x.started.has op) then .next s
  else match opOf 1024 ws with
    | none => .next (if x.old.has op then s.crsOldEnd c slot op else s.crsFail c slot op 0x97)
    | some o =>
      if o.kind ≠ 1 then .next s
      else match s.crsCopy c slot op x.ctx bases o with
        | (s', .ok _) => .next (if x.old.has op then s'.crsOldEnd c slot op else s'.crsDone c slot op)
        | (s', .error (d, _)) =>
          if isWait d then
            .next ((s.crsMet c slot op d).postAt c.pkg (s.time c.pkg + 64) (.courseOpCompletion c slot op))
          else .next (if x.old.has op then s'.crsOldEnd c slot op else s'.crsFail c slot op d)

/-- An OFFER op's record has ended (R309): a cancellation is FCOURSE. -/
def State.courseOfferEnded (s : State) (c : CoreId) (slot op : Nat) (ok : Bool) (refused : Option Nat) : State :=
  if ((s.core c).course slot).old.has op then s.crsOldEnd c slot op
  else if !((s.core c).course slot).started.has op then s
  else if ok then s.crsDone c slot op
  else s.crsFail c slot op (refused.getD 0x97 % 2 ^ 8)

/-- COURSE_START (R308, R309): a peer's START begins the slot's course, queues it or is refused. -/
def execCourseStart (m : CourseMsg) (s : State) : Out :=
  let c := m.hdr.target
  let k := s.core c
  s.receive m.hdr [] <|
  if s.fencedHdr m.hdr || k.retired || k.ctx != m.hdr.ctx then .next (s.answer m.hdr .nack 0x93 0 [])
  else match (k.course m.slot).start m.bases none with
    | .error d => .next (s.answer m.hdr .nack d 0 [])
    | .ok x => .next ((s.modCourse c m.slot fun _ => x).answer m.hdr .ack 0 0 [])

/-! ## Memory packets (R289, R290, R312, R313, R316) -/

/-- A request's fault by R289: cause 2, 3 or 4. -/
def reqBad (m : MemReq) : Option Nat :=
  let (subOk, len) := match m.op with
    | .ld _ => (decide (m.sub < 4), 2)
    | .st _ => (decide (m.sub < 4) || (decide (8 ≤ m.sub) && decide (m.sub < 12)), 3)
    | .atom op _ _ _ _ => (decide (m.sub < 11), if op = .cas then 4 else 3)
  if !subOk then some 2 else if m.len ≠ len then some 3 else if m.rsvd ≠ 0 then some 4 else none

/-- The core position that a request has reached. -/
def reqDst (m : MemReq) : CoreId :=
  match m.tgt with
  | .slice t _ => t
  | .mem pkg pa _ => memCore pkg pa

/-- A reply to a request. -/
def State.memReply (s : State) (m : MemReq) (st : ReplyStatus) (cause : Nat) (data : List Word) : State :=
  s.send (reqDst m) m.src (.reply { src := (reqDst m), dst := m.src, rtag := m.rtag, status := st, cause := cause, data := data })

/-- The data of n bytes at a key, as words. -/
def State.dataAt (s : State) (k n : Nat) : List Word := wordsOf (s.mem.readBytes k n)

/-- Bytes that a request covers. -/
def opBytes : ReqOp → Nat
  | .ld n => n
  | .st bs => bs.length
  | .atom _ n _ _ _ => n

/-- A request performed on the bytes at a key, those of package memory under a key slot: the state and the reply's data (R186, R203). -/
def State.memDo (s : State) (slot : Option Nat) (k : Nat) (op : ReqOp) : State × List Word :=
  let u := match slot with | some x => s.under x k (opBytes op) | none => s
  match op with
  | .ld n => (s, u.dataAt k n)
  | .st bs => (u.writeBs k bs, [])
  | .atom op n v e red =>
    let old := u.readN k n
    (u.writeN k n (atomNew op n old v.toNat e.toNat), if red then [] else [BitVec.ofNat 64 old])

/-- A frame at its new home that a wake of another frame relays to (R313). -/
def State.newHomeOf (s : State) (pkg pa : Nat) : Option Wake :=
  (s.pkgs.flatMap fun p => p.2.wakes).find? fun w =>
    w.cut && w.newPkg == pkg && decide (w.newFrame ≤ pa / 2 ^ 16) && decide (pa / 2 ^ 16 < w.newFrame + (if w.big then 32 else 1))

/-- The same request with another key slot, frame and FWD. -/
def reqRelay (m : MemReq) (pkg pa key : Nat) : MemReq := { m with tgt := .mem pkg pa key, fwd := true }

/-- A request reaches its home: dropped and counted when malformed, refused, found STALE, relayed by a wake, or performed and
answered; mk: the packet of its kind. -/
def State.memArrive (s : State) (m : MemReq) (mk : MemReq → Instr) : State :=
  match reqBad m with
  | some cause =>
    let s := match m.tgt with
      | .slice t _ => s.modCore t fun k => { k with drops := k.drops + 1 }
      | .mem pkg _ _ => s.modPkg pkg fun p => { p with drops := p.drops + 1 }
    s.memReply m .nack cause []
  | none =>
    match m.tgt with
    | .slice t off =>
      if (s.core t).dead then s.memReply m .retry 0 []
      else if s.fencedAt t.pkg m.ctx then s.memReply m .nack 0x93 []
      else if !s.sliceAllowed m.super m.ctx t || decide (131072 < off + opBytes m.op) then s.memReply m .nack dMSLICE []
      else let (s, d) := s.memDo none (sliceKey t off) m.op; s.memReply m .ack 0 d
    | .mem pkg pa key =>
      if leaseLate (s.time pkg) m.lexp.toNat then s.memReply m .stale 0 []
      else if s.fencedAt pkg m.ctx then s.memReply m .nack 0x93 []
      else
        let moved := s.wakeAt pkg pa
        let copied := match moved with
          | some w => w.cut || decide ((pa - w.oldFrame * 2 ^ 16) / 64 < w.copied)
          | none => false
        match moved, copied, m.fwd with
        | some w, true, false =>
          let m' := reqRelay m w.newPkg (w.newFrame * 2 ^ 16 + (pa - w.oldFrame * 2 ^ 16)) w.key
          s.send (reqDst m) (reqDst m') (mk m')
        | some w, true, true =>
          if w.cut then
            s.send (reqDst m) m.src (.reply { src := (reqDst m), dst := m.src, rtag := m.rtag, status := .reroute, loc := some ⟨w.newPkg, w.newFrame⟩ })
          else let (s, d) := s.memDo (some key) (s.homeKey pkg pa) m.op; s.memReply m .ack 0 d
        | _, _, _ =>
          if (s.pkg pkg).frameReserved (pa / 2 ^ 16) then (s.alarm2 pkg m.ctx).memReply m .nack dMKERNEL []
          else if !(s.pkg pkg).keys.has key then s.memReply m .nack dMKEY []
          else
            let (s, d) := s.memDo (some key) (s.homeKey pkg pa) m.op
            match (if m.fwd then s.newHomeOf pkg pa else none) with
            | some w => s.send (reqDst m) m.src (.redirect
                { src := (reqDst m), dst := m.src, rtag := m.rtag, status := .ack, data := d, loc := some ⟨w.newPkg, w.newFrame⟩ })
            | none => s.memReply m .ack 0 d

/-- LD_PACKET (R289). -/
def execLdPacket (m : MemReq) (s : State) : Out := .next (s.memArrive m .ldPacket)
/-- ST_PACKET (R289). -/
def execStPacket (m : MemReq) (s : State) : Out := .next (s.memArrive m .stPacket)
/-- ATOM_PACKET (R203, R289). -/
def execAtomPacket (m : MemReq) (s : State) : Out := .next (s.memArrive m .atomPacket)

/-! ## Replies (R290, R314, R316) -/

/-- A request leaves the interface; a page settles no longer when no access to it is outstanding (R314). -/
def Core.dropReq (k : Core) (tag : Nat) : Core :=
  let k := { k with reqs := k.reqs.del tag }
  { k with settling := k.settling.filter fun t => k.reqs.any fun r => r.2.page == some t }

/-- A line put into a crew's cache as it came from its home. -/
def State.putLine (s : State) (crew : Nat) (x : Xlat) (ws : List Word) : State :=
  let s := (s.soleLine crew x).fillLine crew x
  let l : CLine := ⟨ws.flatMap fun w => leBytes 8 w.toNat, 0, [], x.key, (x.ctx, x.va / 64 * 64), x.lease⟩
  s.modCrew crew fun k => { k with lines := k.lines.set (lineNo x.pkg x.pa) l }

/-- The line of a location that a cache holds, under its own locator or another (R199). -/
def State.heldLine (s : State) (crew : Nat) (x : Xlat) : Option CLine :=
  match (s.crew crew).lines.find? fun p => p.1 == lineNo x.pkg x.pa with
  | some (_, l) => some l
  | none => match s.aliases crew x with
    | [] => none
    | n :: _ => ((s.crew crew).lines.find? fun p => p.1 == n).map Prod.snd

/-- The answer to a request of a core may no longer stay in its crew's cache (log 31). -/
def State.isVoid (s : State) (c : CoreId) (tag : Nat) : Bool := (s.crew c.crewNo).voided.contains (c.key, tag)
/-- A request is no longer in flight: nothing is remembered of it. -/
def State.unvoid (s : State) (c : CoreId) (tag : Nat) : State :=
  if s.isVoid c tag then s.modCrew c.crewNo fun k => { k with voided := k.voided.filter fun x => x != (c.key, tag) } else s

/-- The location at which a request of a core was performed. -/
def Req.loc (r : Req) (c : CoreId) (pkg pa : Nat) : Xlat :=
  match memReqOf r.pkt with
  | some q => ⟨pkg, pa, r.data.getD 3 0, 0, 5, q.ctx, q.va.toNat, if pkg = c.pkg then none else some q.lexp.toNat⟩
  | none => ⟨pkg, pa, r.data.getD 3 0, 0, 5, 0, 0, none⟩

/-- The data an acknowledged request gives: the words of a line that the cache holds, else the line that it fetched, which stays in the crew's cache unless the
cache has given that line up meanwhile (no other answer under way for the line stays either then: it may be older); or the reply's own (R199,
R360, log 31). -/
def State.reqGot (s : State) (c : CoreId) (tag : Nat) (r : Req) (pkg pa : Nat) (m : ReplyMsg) : State × List Word :=
  if r.data.getD 0 0 = 1 ∧ m.status = .ack then
    match s.heldLine c.crewNo (r.loc c pkg pa) with
    | some l => (s, wordsOf l.bytes)
    | none =>
      if s.isVoid c tag then (s.voidLine c.crewNo (lineNo pkg pa), m.data)
      else (s.putLine c.crewNo (r.loc c pkg pa) m.data, m.data)
  else (s, m.data)

/-- The upcall or report of a posted access that was refused or timed out, left for the strand's next instruction (R189, R290). -/
def State.postedFault (s : State) (t : StrandId) (r : Req) (a : Answer) : State :=
  let slice := r.data.getD 1 0 == 0 && r.data.getD 2 0 == 0
  let d := if a.status = .nack then (if a.cause ≤ 4 then 0x90 else a.cause) else if slice then dMSLICE else 0x91
  let rep : Report :=
    { cause := causeOf d, detail := d, inner := if a.cause ≤ 4 then a.cause else a.inner, fpc := BitVec.ofNat 64 (r.data.getD 6 0), rpc := 0 }
  s.modStrand t fun x => { x with upcalls := x.upcalls ++ [rep] }

/-- A home has performed an access at a wider scope. After a store whose copy stays, a copy that the crew's cache holds takes its bytes, and an
absent line is fetched where its home is within reach; any other copy of the line is written back and dropped, as is what else is in flight for
it (R199, R200, log 31). -/
def State.wideDone (s : State) (c : CoreId) (tag : Nat) (r : Req) (pkg pa : Nat) : State :=
  match memReqOf r.pkt with
  | some ⟨_, _, _, _, _, .mem _ _ _, op, _, _, _, _, _, _⟩ =>
    if r.data.getD 0 0 = 1 then s
    else match op, decide (r.data.getD 0 0 = 3) && !s.isVoid c tag with
      | .st bs, true =>
        let s := s.soleLine c.crewNo (r.loc c pkg pa)
        (if (s.crew c.crewNo).lines.has (lineNo pkg pa) then s.linePatch c.crewNo pkg pa bs.length (leNat bs)
         else if (s.wayTo c.pkg pkg pa).isSome then s
         else s.fillLine c.crewNo (r.loc c pkg pa)).voidLine c.crewNo (lineNo pkg pa)
      | _, _ => s.evictAt c.crewNo (r.loc c pkg pa)
  | _ => s

/-- The words with which a refused packet of pairs goes back to its sender, whose pairs they are (R235, R243). -/
def pktPairs : Instr → List Word
  | .pairPush m => m.pairs.flatMap fun p => [p.1, p.2]
  | .pairShed m => 0 :: m.pairs.flatMap fun p => [p.1, p.2]
  | _ => []

/-- A request ends with an answer: its strand goes on, its store is acknowledged, its engine or course learns it (R290). Pairs that did not
arrive, whatever turned them away, are the sender's; those of a context that the core no longer serves are dropped (R53). While pairs that come
home wait for their spill area the answer comes again. -/
def State.reqEnd (s : State) (c : CoreId) (tag : Nat) (r : Req) (a : Answer) : State :=
  let a := if a.data.isEmpty then { a with data := pktPairs r.pkt } else a
  let s0 := s
  let s := (s.unvoid c tag).modCore c fun k => k.dropReq tag
  match r.use with
  | .strand => s.modStrand ⟨c, r.slot⟩ fun t =>
      if t.hold = .wait tag then { t with hold := .got a, mode := if t.mode = .waiting then .ready else t.mode } else t
  | .store slot =>
    let s := s.modStrand ⟨c, slot⟩ fun t => { t with unacked := t.unacked - 1 }
    if a.status = .ack then s else s.postedFault ⟨c, slot⟩ r a
  | .vector => if a.status = .ack then s else s.modCore c fun k => { k with vwait := some (k.vwait.getD a) }
  | .copy place => s.modCore c fun k => { k with copies := k.copies.map fun x =>
      if x.started && x.place == place then { x with answer := some a } else x }
  | .course slot op =>
    if ((s.core c).course slot).old.has op then s.crsOldEnd c slot op
    else if !((s.core c).course slot).started.has op then s
    else match a.status with
      | .ack => s.crsDone c slot op
      | .nack => s.crsFail c slot op (if a.cause ≤ 4 then 0x90 else a.cause)
      | _ => s.crsFail c slot op 0x91
  | .shed => match s.pairsHome c r.pkt a with
    | .ok s => s.partMet c 4 0
    | .error d => (s0.partMet c 4 d).postAt c.pkg (s.time c.pkg + 64) (if a.status = .retry then .ftime c tag
        else .reply { src := c, dst := c, rtag := tag, status := a.status, cause := a.cause, inner := a.inner, data := a.data })
  | .none => s

/-- A packet with another memory request. -/
def withMemReq (i : Instr) (m : MemReq) : Instr :=
  match i with
  | .ldPacket _ => .ldPacket m
  | .stPacket _ => .stPacket m
  | .atomPacket _ => .atomPacket m
  | i => i

/-- A request to a settling page waits while one that was sent earlier to the page is outstanding (R314). -/
def Core.holdsBack (k : Core) (r : Req) : Bool :=
  match r.page with
  | some p => k.settling.contains p && k.reqs.any fun x => x.2.page == some p && decide (x.2.seq < r.seq)
  | none => false
/-- A request sent again as it stands, or, where R314 has it wait, when it is tried again. -/
def State.resend (s : State) (c : CoreId) (tag : Nat) (r : Req) : State :=
  if (s.core c).holdsBack r then s.postAt c.pkg (s.time c.pkg + 64) (.retryResend c tag) else s.send c r.dst r.pkt

/-- Translations of a page dropped at a core and its crew. -/
def State.dropPage (s : State) (c : CoreId) (ctx va : Nat) : State :=
  let keep (e : TlbE) : Bool := !(e.ctx == ctx && e.base == va / 2 ^ pageBits e.level)
  let s := s.modCore c fun k => { k with dtlb := k.dtlb.filter keep, itlb := k.itlb.filter keep }
  s.modCrew c.crewNo fun k => { k with tlb := k.tlb.filter keep, owner := k.owner.filter keep }

/-- A request with a stale or rerouted locator is sent again (R314, R316): a waiting strand's instruction starts over, a posted
access walks and goes to the new locator, or ends with the walk's fault. -/
def State.reqAgain (s : State) (c : CoreId) (tag : Nat) (r : Req) : State :=
  match r.use, memReqOf r.pkt with
  | .strand, _ =>
    let s := (s.unvoid c tag).modCore c fun k => k.dropReq tag
    s.modStrand ⟨c, r.slot⟩ fun t =>
      if t.hold = .wait tag then { t with hold := .none, mode := if t.mode = .waiting then .ready else t.mode } else t
  | _, some m =>
    match s.locate c m.ctx m.super false .w m.va.toNat with
    | (s, .error d) => s.reqEnd c tag r { status := .nack, cause := d }
    | (s, .ok x) =>
      let m' := { m with tgt := .mem x.pkg x.pa x.key, lexp := s.lexp c m.ctx m.va.toNat, fwd := false }
      let data := ((r.data.set 1 x.pkg).set 2 x.pa).set 3 x.key
      let r' := { r with pkt := withMemReq r.pkt m', dst := memCore x.pkg x.pa, line := (Loc.mem x).line, data := data }
      (s.modCore c fun k => { k with reqs := k.reqs.set tag r' }).resend c tag r'
  | _, none => s.reqEnd c tag r { status := .nack, cause := 2 }

/-- The redirect of a locator taken for a request's page (R314). -/
def State.reqRedirect (s : State) (c : CoreId) (r : Req) (loc : Locator) : State :=
  match memReqOf r.pkt with
  | some m =>
    let big := decide (2 ^ 41 ≤ r.data.getD 5 0)
    let pa := r.data.getD 2 0
    let old := if big then pa / 2 ^ 21 * 32 else pa / 2 ^ 16
    s.redirectTo c m.ctx m.va.toNat big (r.data.getD 1 0, old) loc.home loc.frame
  | none => s

/-- The location of a request's page under a new locator. -/
def reqMoved (r : Req) (loc : Locator) : Nat × Nat :=
  let pa := r.data.getD 2 0
  (loc.home, loc.frame * 2 ^ 16 + pa % (if 2 ^ 41 ≤ r.data.getD 5 0 then 2 ^ 21 else 2 ^ 16))

/-- A reply or redirect in its effect: completion at the package and address where the request was performed. -/
def State.reqAnswered (s : State) (c : CoreId) (tag : Nat) (r : Req) (pkg pa : Nat) (m : ReplyMsg) : State :=
  let (s, data) := s.reqGot c tag r pkg pa m
  let s := if m.status = .ack then s.wideDone c tag r pkg pa else s
  s.reqEnd c tag r ⟨m.status, m.cause, m.inner, data⟩

/-- REPLY reaches a request's sender (R290). A request that is no longer known is passed over; the state of a machine-checked core stays (R350). -/
def execReply (m : ReplyMsg) (s : State) : Out :=
  let c := m.dst
  let now := s.time c.pkg
  match (if (s.core c).dead then none else (s.core c).reqs.find? fun r => r.1 == m.rtag) with
  | none => .next s
  | some (tag, r) =>
    match m.status with
    | .retry =>
      if now + 64 ≤ r.since + 10000 then .next (s.postAt c.pkg (now + 64) (.retryResend c tag))
      else .next (s.postAt c.pkg (r.since + 10000) (.ftime c tag))
    | .stale =>
      match memReqOf r.pkt with
      | some q => .next ((s.dropPage c q.ctx q.va.toNat).reqAgain c tag r)
      | none => .next (s.reqEnd c tag r { status := .nack, cause := 2 })
    | .reroute =>
      match m.loc with
      | some l => .next ((s.reqRedirect c r l).reqAgain c tag r)
      | none => .next (s.reqEnd c tag r { status := .nack, cause := 2 })
    | .other => .next (s.reqEnd c tag r { status := .nack, cause := 2 })
    | .ack | .nack | .full => .next (s.reqAnswered c tag r (r.data.getD 1 0) (r.data.getD 2 0) m)

/-- REDIRECT (R314): the locator replaced, the page settling, and the request completed by the reply it carries. -/
def execRedirect (m : ReplyMsg) (s : State) : Out :=
  let c := m.dst
  match (if (s.core c).dead then none else (s.core c).reqs.find? fun r => r.1 == m.rtag) with
  | none => .next s
  | some (tag, r) =>
    match m.loc with
    | none => .next (s.reqAnswered c tag r (r.data.getD 1 0) (r.data.getD 2 0) m)
    | some l =>
      let s := s.reqRedirect c r l
      let (p, a) := reqMoved r l
      .next (s.reqAnswered c tag r p a m)

/-- RETRY_RESEND (R290). -/
def execRetryResend (c : CoreId) (rtag : Nat) (s : State) : Out :=
  match (s.core c).reqs.find? fun r => r.1 == rtag with
  | some (tag, r) => .next (s.resend c tag r)
  | none => .next s

/-- FTIME (R290): a request refused with RETRY for 10,000 ticks fails; the state of a machine-checked core stays (R350). -/
def execFtime (c : CoreId) (rtag : Nat) (s : State) : Out :=
  match (if (s.core c).dead then none else (s.core c).reqs.find? fun r => r.1 == rtag) with
  | some (tag, r) => .next (s.reqEnd c tag r { status := .retry })
  | none => .next s

/-! ## Routing (R281 to R286) -/

/-- What routing needs of a packet: sender, slot, opcode, tag, class (R282 to R284, R289). -/
structure PktInfo where
  src  : CoreId
  slot : Nat
  opc  : Nat
  tag  : Nat
  cls  : Nat
deriving DecidableEq, Repr

/-- The slot of a record's strand; 0 for a record at a network interface. -/
def recSlot : RecRef → Nat
  | .strand t => t.slot
  | .hw _ _ _ => 0

/-- The header fields of a packet. -/
def pktInfo : Instr → PktInfo
  | .ldPacket m => ⟨m.src, m.slot, 0, m.rtag, 1⟩
  | .stPacket m => ⟨m.src, m.slot, 1, m.rtag, 1⟩
  | .atomPacket m => ⟨m.src, m.slot, 2, m.rtag, 1⟩
  | .amArrival m => ⟨m.hdr.src, m.hdr.slot, 3, m.hdr.rtag, 1⟩
  | .appendArrival m => ⟨m.hdr.src, m.hdr.slot, 4, m.hdr.rtag, 1⟩
  | .csendArrival m => ⟨m.hdr.src, m.hdr.slot, 5, m.hdr.rtag, 0⟩
  | .redirect m => ⟨m.src, 0, 8, m.rtag, 2⟩
  | .reply m => ⟨m.src, 0, 9, m.rtag, if m.bulk then 0 else 2⟩
  | .tmxArrival m => ⟨m.hdr.src, m.hdr.slot, 10, m.hdr.rtag, 1⟩
  | .tileTransferArrival m => ⟨m.hdr.src, m.hdr.slot, 10, m.hdr.rtag, if m.get then 1 else 0⟩
  | .pairPush m => ⟨m.hdr.src, m.hdr.slot, 10, m.hdr.rtag, 1⟩
  | .pairShed m => ⟨m.hdr.src, m.hdr.slot, 10, m.hdr.rtag, 1⟩
  | .courseStart m => ⟨m.hdr.src, m.hdr.slot, 10, m.hdr.rtag, 3⟩
  | .strandStartArrival m => ⟨m.hdr.src, m.hdr.slot, 10, m.hdr.rtag, 3⟩
  | .placementDescent _ m _ => ⟨m.hdr.src, m.hdr.slot, 10, m.hdr.rtag, 3⟩
  | .syscallReplyArrival m => ⟨m.src, 0, 6, m.gid.toNat, 3⟩
  | .syscallRequest m => ⟨m.hdr.src, m.hdr.slot, 6, m.hdr.rtag, 3⟩
  | .offerArrival m => ⟨recCore m.who, recSlot m.who, 6, 0, 3⟩
  | .claim m => ⟨coxCore m.home, 0, 6, 0, 3⟩
  | .claimReply m _ => ⟨recCore m.who, recSlot m.who, 6, 0, 3⟩
  | .yieldMessage _ _ r => ⟨recCore r, recSlot r, 6, 0, 3⟩
  | .release m _ => ⟨coxCore m.home, 0, 6, 0, 3⟩
  | .resolutionNotice _ _ r => ⟨recCore r, recSlot r, 6, 0, 3⟩
  | .withdrawal _ _ _ r _ => ⟨recCore r, recSlot r, 6, 0, 3⟩
  | .offerRefusal _ _ m => ⟨coxCore m.home, 0, 6, 0, 3⟩
  | .disseminationNotice _ _ round _ => ⟨round.src.core, round.src.slot, 6, 0, 3⟩
  | .migrationLineCopy pkg frame => ⟨memCore pkg (frame * 2 ^ 16), 0, 7, 2 ^ 17, 0⟩
  | .wakeReleaseQuery _ _ pkg frame => ⟨memCore pkg (frame * 2 ^ 16), 0, 7, 2 ^ 17, 1⟩
  | .wakeReleaseAnswer pkg frame => ⟨memCore pkg (frame * 2 ^ 16), 0, 7, 2 ^ 17, 1⟩
  | _ => ⟨⟨0, 0, 0⟩, 0, 6, 0, 3⟩

/-- The key of a flit (R283); a request of no strand has SSLOT 0. -/
def pktKey (i : Instr) (dst : CoreId) : Nat :=
  let p := pktInfo i
  ((((StrandId.gid ⟨p.src, p.slot % 8⟩ * 2 ^ 12 + dst.pkg) * 2 ^ 9 + dst.col) * 2 ^ 8 + dst.row) * 2 ^ 4 + p.opc) * 2 ^ 16 + p.tag % 2 ^ 16

/-- A flit at a router: its place in the agenda, its step, its destination and its age. -/
structure Flit where
  at_ : Nat
  step : Instr
  dst : CoreId
  age : Nat
deriving DecidableEq, Repr

/-- Flit a ranks above flit b (R283). DEDUCED: event messages, to which the spec gives no tag, differ in it by the order in which they were sent
(log 58). -/
def Flit.above (a b : Flit) : Bool :=
  let ga := a.age == 4095
  let gb := b.age == 4095
  let ka := pktKey a.step a.dst
  let kb := pktKey b.step b.dst
  let ca := (pktInfo a.step).cls == 3
  let cb := (pktInfo b.step).cls == 3
  if ga != gb then ga
  else if !ga && ca != cb then ca
  else if !ga && a.age != b.age then decide (b.age < a.age)
  else decide (ka < kb) || (ka == kb && decide (a.at_ < b.at_))

/-- A flit put into rank order. -/
def flitIns (x : Flit) : List Flit → List Flit
  | [] => [x]
  | y :: l => if x.above y then x :: y :: l else y :: flitIns x l

/-- The routers that the four links of a router lead to. -/
def linksOf (col row : Nat) : List (Nat × Nat) := [((col + 1) % 512, row), ((col + 511) % 512, row), (col, (row + 1) % 200), (col, (row + 199) % 200)]
/-- The shorter way round a ring. -/
def ringDist (n a b : Nat) : Nat := min ((a + n - b) % n) ((b + n - a) % n)
/-- Hops from a router to a destination. -/
def hopsTo (p : Nat × Nat) (d : CoreId) : Nat := ringDist 512 p.1 d.col + ringDist 200 p.2 d.row
/-- The link of a list that leads closest. -/
def closest (d : CoreId) : List (Nat × Nat) → Option (Nat × Nat)
  | [] => none
  | p :: l => match closest d l with
    | some q => if hopsTo q d < hopsTo p d then some q else some p
    | none => some p

/-- A packet's place changed. -/
def State.moveFlit (s : State) (i : Nat) (r : Transit) : State :=
  { s with agenda := s.agenda.zipIdx.map fun p => if p.2 = i then { p.1 with route := r } else p.1 }

/-- The refusal with a cause of a packet that has no way on, at the port switch of a package's direction (R286): a NACK to a request's sender, a refused offer, a claim answered gone;
another packet stays until there is a way (DEDUCED, log 58). -/
def State.refusePkt (s : State) (pkg dir : Nat) (i : Instr) (cause : Nat) : Option State :=
  let p := pktInfo i
  match i with
  | .offerArrival m => some (s.postStep (.offerRefusal m.who m.ev ⟨cause, m.serial, m.home⟩))
  | .claim m => some (s.post { step := .claimReply m .gone, chan := chanUp m.who m.home })
  | .reply _ | .redirect _ | .syscallReplyArrival _ => none
  | _ => if p.opc = 6 ∧ p.tag = 0 then none
    else some (s.send (switchOf pkg dir) p.src (.reply { src := switchOf pkg dir, dst := p.src, rtag := p.tag, status := .nack, cause := cause }))

/-- The flow of a packet: its source and destination packages and its class (R285). -/
def flowOf (i : Instr) (dst : CoreId) : Nat := ((pktInfo i).src.pkg * 4096 + dst.pkg) * 4 + (pktInfo i).cls

/-- The first packet on a link toward a port of a package: its place in the agenda, the packet and its destination; a link keeps its packets in
the order in which they were put on it, which is their number (R285). -/
def State.firstOn (s : State) (pkg port : Nat) : Option (Nat × Pending × CoreId) :=
  (s.agenda.zipIdx.foldl (fun (best : Option (Nat × Nat × Pending × CoreId)) q => match q.1.route with
    | .link k n dst a =>
      if k = pkg ∧ n = port then match best with
        | some (b, _) => if a < b then some (a, q.2, q.1, dst) else best
        | none => some (a, q.2, q.1, dst)
      else best
    | _ => best) none).map Prod.snd

/-- The number of the next packet put on a link toward a port. -/
def State.linkSeq (s : State) (pkg port : Nat) : Nat :=
  (s.agenda.map fun q => match q.route with | .link k n _ a => if k = pkg ∧ n = port then a + 1 else 0 | _ => 0).foldl max 0

/-- A packet at a package's port switch goes out toward another package (R285, R286): on the port its flow last used while that works, and the
flow gap has not passed or a packet of the flow is on the link, else on a free choice of the direction's working ports; refused with FLINK when
every port of the direction has FAILED; none where it stays: no port works now, or its flow waits for its port's failover. -/
def State.goOut (s : State) (pkg i : Nat) (step : Instr) (dst : CoreId) : Option State :=
  let (dir, nb) := s.outDir pkg dst.pkg
  let p := s.pkg pkg
  let ports := (List.range 6).map (portNo dir)
  let up := ports.filter fun n => (p.port n).st == .active
  let flow := flowOf step dst
  let now := s.time pkg
  let onLink (n : Nat) : Bool := s.agenda.any fun q => match q.route with
    | .link k m d _ => k == nb && m == farPort n && flowOf q.step d == flow
    | _ => false
  let take (s : State) (n : Nat) : State :=
    (s.moveFlit i (.link nb (farPort n) dst (s.linkSeq nb (farPort n)))).modPkg pkg fun p => { p with flows := p.flows.set flow (n, now) }
  let free (s : State) : Option State := match up with
    | [] => none
    | u :: us => some (take s ((u :: us).getD (Config.freeChoice s.freeN % (us.length + 1)) u)).fresh
  if ports.all fun n => (p.port n).st == .failed then
    (s.refusePkt pkg dir step 0x94).map fun t => { t with agenda := t.agenda.eraseIdx i }
  else match p.flows.find? fun f => f.1 == flow with
    | some (_, n, t) =>
      if n / 6 = dir ∧ ((p.port n).st = .failed ∨ now ≤ t + p.flowGap ∨ onLink n) then (if up.contains n then some (take s n) else none)
      else free s
    | none => free s

/-- Where a packet goes in a package's torus: its destination, or the port switch of the way to its destination's package (R182, R285). -/
def State.goalOf (s : State) (pkg : Nat) (dst : CoreId) : CoreId :=
  if dst.pkg = pkg then dst else switchOf pkg (s.outDir pkg dst.pkg).1

/-- FLIT_ROUTE (R281, R283): the flits at a router in rank order; each is delivered, or takes the free link that leads closest, its age one more
when that is not its preferred one; at its port switch the first that can leaves the package. A flit that finds no free link stays. -/
def execFlitRoute (pkg col row : Nat) (s : State) : Out :=
  let here := s.agenda.zipIdx.filterMap fun p => match p.1.route with
    | .router k x y dst age => if k = pkg ∧ x = col ∧ y = row then some (⟨p.2, p.1.step, dst, age⟩ : Flit) else none
    | _ => none
  let order := here.foldl (fun l x => flitIns x l) []
  let there (f : Flit) : Bool := (s.goalOf pkg f.dst).col == col && (s.goalOf pkg f.dst).row == row
  let (t, _) := order.foldl (fun (p : State × List (Nat × Nat)) f =>
    let goal := s.goalOf pkg f.dst
    if there f then (if f.dst.pkg = pkg then p.1.moveFlit f.at_ .here else p.1, p.2)
    else match closest goal p.2 with
      | none => p
      | some q =>
        let age := if closest goal (linksOf col row) = some q then f.age else min 4095 (f.age + 1)
        (p.1.moveFlit f.at_ (.router pkg q.1 q.2 f.dst age), p.2.filter fun x => x != q)) (s, linksOf col row)
  .next (((order.filter fun f => f.dst.pkg != pkg && there f).findSome? fun f => t.goOut pkg f.at_ f.step f.dst).getD t)

/-- A port fails: so does the far end of its link, and each end's packets wait one flow gap (R286, R288). -/
def State.failPort (s : State) (pkg port : Nat) : State :=
  let far := s.farPkg pkg port
  let fp := farPort port
  let s := (s.modPort pkg port fun p => { p with st := .failed }).modPort far fp fun p => { p with st := .failed }
  let s := s.postAt pkg (s.time pkg + (s.pkg pkg).flowGap) (.portFailover pkg port)
  s.postAt far (s.time far + (s.pkg far).flowGap) (.portFailover far fp)

/-- A training attempt fails: the next attempt, or FAILED after the fourth (R287). -/
def State.retrain (s : State) (pkg port : Nat) : State :=
  let n := ((s.pkg pkg).port port).attempt + 1
  if 4 ≤ n then (s.modPort pkg port fun p => { p with attempt := n }).failPort pkg port
  else s.modPort pkg port fun p => { p with st := .train, attempt := n }

/-- Both ends of a link train at the next attempt's speed (R287). -/
def State.retrainLink (s : State) (pkg port : Nat) : State :=
  let s := s.retrain pkg port
  if ((s.pkg pkg).port port).st = .failed then s else s.retrain (s.farPkg pkg port) (farPort port)

/-- A chassis-leaving port: its far end lies outside the package's domain (R15). -/
def State.leaving (s : State) (pkg port : Nat) : Bool := !(s.domainOf pkg).contains (s.farPkg pkg port)
/-- A port carries a class under authentication: every class of a chassis-leaving port, and inside the domain those that its policy names
(R288, R374). -/
def State.authentic (s : State) (pkg port cls : Nat) : Bool :=
  s.leaving pkg port || bitsN ((s.pkg pkg).policy.get 0 port).toNat (4 + cls) (4 + cls) == 1

/-- SWENER_FLIT_RECEIVE (R286, R288): the next flit on a link fails its check, or its authentication where its class has one, and is resent; or it
enters the package at the port switch of its port, and goes out again there toward another package (R285). -/
def execSwenerFlitReceive (pkg port : Nat) (crcOk authOk : Bool) (s : State) : Out :=
  let p := (s.pkg pkg).port port
  let now := s.time pkg
  match s.firstOn pkg port with
  | none => .next s
  | some (i, q, dst) =>
    let auth := s.authentic pkg port (pktInfo q.step).cls
    if p.st ≠ .active then .next s
    else if !crcOk then
      let s := s.modPort pkg port fun p => { p with crcErrs := p.crcErrs + 1, crcRun := p.crcRun + 1 }
      if 64 ≤ p.crcRun + 1 then .next ((s.modPort pkg port fun p => { p with crcRun := 0 }).retrainLink pkg port) else .next s
    else if auth && !authOk then
      let times := now :: p.authAt.filter fun t => decide (now < t + 1000000)
      let s := (s.modPort pkg port fun p =>
        { p with authErrs := p.authErrs + 1, authRun := p.authRun + 1, authAt := times }).alarm1 pkg 0
      if 16 ≤ p.authRun + 1 ∨ 64 ≤ times.length then .next ((s.failPort pkg port).alarm3 pkg |>.fatalDump pkg 3) else .next s
    else
      let s' := s.modPort pkg port fun p => { p with crcRun := 0, authRun := if auth then 0 else p.authRun }
      if dst.pkg = pkg then
        let w := switchOf pkg (port / 6)
        .next (s'.moveFlit i (.router pkg w.col w.row dst 0))
      else .next ((s'.goOut pkg i q.step dst).getD s)

/-- The numbers of the packets on a link toward a port, in their order. -/
def State.onLink (s : State) (pkg port : Nat) : List Nat :=
  (s.agenda.filterMap fun q => match q.route with | .link k n _ a => if k = pkg ∧ n = port then some a else none | _ => none).foldl
    (fun l a => l.filter (fun b => decide (b < a)) ++ a :: l.filter fun b => decide (a < b)) []

/-- The packets of a failed port's link, by their numbers, go out on another port of the direction, in their order (R286); one that has no way stays,
and those of its flow behind it. -/
def State.resendOn (s : State) (pkg far fp : Nat) (stuck : List Nat) : List Nat → State
  | [] => s
  | a :: l =>
    match s.agenda.zipIdx.findSome? fun q => match q.1.route with
      | .link k n dst b => if k = far ∧ n = fp ∧ b = a then some (q.2, q.1.step, dst) else none
      | _ => none with
    | none => s.resendOn pkg far fp stuck l
    | some (i, step, dst) =>
      if stuck.contains (flowOf step dst) then s.resendOn pkg far fp stuck l
      else match s.goOut pkg i step dst with
        | some s => s.resendOn pkg far fp stuck l
        | none => s.resendOn pkg far fp (flowOf step dst :: stuck) l

/-- PORT_FAILOVER (R286): one flow gap after a port has failed, its flits that have not been acknowledged go out on another port of the
same direction, in their order; FLINK when all have failed; while none works and some has not failed, or a packet has stayed, it comes again. -/
def execPortFailover (pkg port : Nat) (s : State) : Out :=
  let p := s.pkg pkg
  if (p.port port).st = .active then .next s
  else
    let ports := (List.range 6).map (portNo (port / 6))
    if !(ports.any fun n => (p.port n).st == .active) && ports.any (fun n => (p.port n).st != .failed) then
      .next (s.postAt pkg (s.time pkg + p.flowGap) (.portFailover pkg port))
    else
      let far := s.farPkg pkg port
      let fp := farPort port
      let s := s.modPkg pkg fun p => { p with flows := p.flows.filter fun f => f.2.1 != port }
      let s := s.resendOn pkg far fp [] (s.onLink far fp)
      .next (if (s.onLink far fp).isEmpty then s else s.postAt pkg (s.time pkg + p.flowGap) (.portFailover pkg port))

/-- The speed of a training attempt in Gb/s (R287). -/
def trainSpeed (n : Nat) : Nat := match n with | 0 => 224 | 1 => 112 | _ => 56

/-- LINK_TRAINING (R287): an attempt locks four lanes or two, and the link goes to SUMMARY; with fewer it fails. -/
def execLinkTraining (pkg port lanes : Nat) (s : State) : Out :=
  let p := (s.pkg pkg).port port
  if (s.pkg pkg).held3 ∨ (p.st ≠ .down ∧ p.st ≠ .train) then .next s
  else
    let n := if p.st = .down then 0 else p.attempt
    let s := s.modPort pkg port fun p => { p with st := .train, attempt := n, speed := trainSpeed n }
    if 2 ≤ lanes then
      .next (s.modPort pkg port fun p => { p with st := .summary, lanes := if 4 ≤ lanes then 4 else 2 })
    else .next (s.retrain pkg port)

/-- TRAINING_SUMMARY (R287): the two ends of an attempt exchange their summaries, lanes and speed; both ends are ACTIVE where these agree and both
checks pass, and train again at the next attempt's speed otherwise. An end whose far end has given the attempt up trains again; one whose far end
has no summary yet waits. -/
def execTrainingSummary (pkg port : Nat) (checks : Bool) (s : State) : Out :=
  let far := s.farPkg pkg port
  let fp := farPort port
  let p := (s.pkg pkg).port port
  let q := (s.pkg far).port fp
  let up (p : Port) : Port := { p with st := .active, crcRun := 0, authRun := 0, authAt := [] }
  if p.st ≠ .summary then .next s
  else if q.st = .summary ∧ q.attempt = p.attempt then
    if checks ∧ q.lanes = p.lanes ∧ q.speed = p.speed then .next ((s.modPort pkg port up).modPort far fp up)
    else .next (s.retrainLink pkg port)
  else if q.st = .failed ∨ p.attempt < q.attempt then .next (s.retrain pkg port)
  else .next s

/-- PORT_RESET (R287): the keel island takes a FAILED port back to DOWN. -/
def execPortReset (pkg port : Nat) (s : State) : Out :=
  if ((s.pkg pkg).port port).st = .failed then .next (s.modPort pkg port fun _ => {}) else .next s

/-! ## Migration (R311 to R313, R317) -/

/-- MIG of a leaf (R182). -/
def leafMig (l : Word) : Bool := l.getLsbD 7

/-- migrate (R311): the strand waits until cutover or failure. -/
def execMigrate (g : Guard) (big : Bool) (d v n c : Reg) (s : State) : Out :=
  issueS (.migrate g big d v n c) g (fun s =>
    let loc := (s.rg n).toNat
    let ctx := (s.rg c).toNat
    let va := (s.rg v).toNat
    let pkg := s.cur.core.pkg
    match s.me.hold with
    | .phase 50 [st] => .ok (s.wg d (BitVec.ofNat 64 st))
    | .phase 51 _ => .hold s
    | _ =>
      if bitsN loc 63 56 ≠ 0 ∨ bitsN loc 19 0 ≠ 0 ∨ 2 ^ 16 ≤ ctx ∨ (big ∧ bitsN loc 55 32 % 32 ≠ 0) then .fault s (s.fault 0x99)
      else match s.walk pkg ctx va with
        | .error _ => .ok (s.wg d 1)
        | .ok (leaf, lvl) =>
          let home := leafHome leaf
          let frame := leafFrame leaf
          if lvl ≠ (if big then 4 else 5) ∨ !leafMig leaf then .ok (s.wg d 1)
          else if (s.wakeAt home (frame * 2 ^ 16)).isSome ∨ 256 ≤ (s.pkg home).wakes.length then .ok (s.wg d 2)
          else if !(s.pkg (bitsN loc 31 20)).keys.has (leafKey leaf) then .ok (s.wg d 3)
          else
            let w : Wake := { oldFrame := frame, big := big, newPkg := bitsN loc 31 20, newFrame := bitsN loc 55 32, key := leafKey leaf,
                              copied := 0, cut := false, va := BitVec.ofNat 64 va, ctx := ctx, asker := some s.cur, kres := leafKres leaf }
            let s := s.modPkg home fun p => { p with wakes := p.wakes ++ [w] }
            let s := s.modMe fun t => { t with mode := .waiting, hold := .phase 51 [home, frame] }
            .hold (s.postStep (.migrationLineCopy home frame))) s

/-- The wake of a frame changed. -/
def State.modWake (s : State) (pkg frame : Nat) (f : Wake → Wake) : State :=
  s.modPkg pkg fun p => { p with wakes := p.wakes.map fun w => if w.oldFrame = frame then f w else w }

/-- The strand that waits in migrate gets its status. -/
def State.migrateDone (s : State) (w : Wake) (st : Nat) : State :=
  match w.asker with
  | some t => s.modStrand t fun x => match x.hold with
    | .phase 51 _ => { x with mode := if x.mode = .waiting then .ready else x.mode, hold := .phase 50 [st] }
    | _ => x
  | none => s

/-- Lines of a page. -/
def Wake.lines (w : Wake) : Nat := if w.big then 32768 else 1024

/-- A home takes part in a line copy: its key slot holds the key, and no alarm of level 3 holds it. -/
def State.copyReady (s : State) (w : Wake) (p : Nat) : Bool := (s.pkg p).keys.has w.key && !(s.pkg p).held3
/-- Both homes of a record can take part, and a way leads between them. -/
def State.copyWay (s : State) (pkg : Nat) (w : Wake) : Bool :=
  s.copyReady w pkg && s.copyReady w w.newPkg && !s.severed pkg w.newPkg && !s.severed w.newPkg pkg

/-- A migration fails: every copied line goes back in descending order, or, where that fails too, the issuing core takes machine check 0xB3
(DESIGN CHOICE, log 58); migrate returns 4 (R312). -/
def State.migrateFail (s : State) (pkg : Nat) (w : Wake) : State :=
  let s := if s.copyWay pkg w || w.copied == 0 then
      (List.range w.copied).reverse.foldl (fun s l =>
        let old := memKey pkg (w.oldFrame * 2 ^ 16 + 64 * l)
        let new_ := memKey w.newPkg (w.newFrame * 2 ^ 16 + 64 * l)
        (s.under w.key old 64).writeBs old ((s.under w.key new_ 64).mem.readBytes new_ 64)) s
    else match w.asker with
      | some t => s.machineCheck t.core 0xB3
      | none => s
  let s := s.modPkg pkg fun p => { p with wakes := p.wakes.filter fun x => x.oldFrame != w.oldFrame }
  s.migrateDone w 4

/-- A package in which a line of a migrating page lies in a kernel-reserved frame, by the leaf or by a stack controller's map (R185). -/
def State.copyReserved (s : State) (pkg : Nat) (w : Wake) : Option Nat :=
  let i := w.copied / 1024
  if w.kres || (s.pkg pkg).frameReserved (w.oldFrame + i) then some pkg
  else if (s.pkg w.newPkg).frameReserved (w.newFrame + i) then some w.newPkg else none

/-- The interface that takes a packet whose form has no header of its own here: EVT, MIG, REPLY and REDIRECT (R289). -/
def State.pktAt (s : State) : Instr → Option CoreId
  | .offerArrival m => some (coxCore m.home)
  | .claimReply m _ => some (coxCore m.home)
  | .yieldMessage home _ _ | .resolutionNotice home _ _ | .withdrawal home _ _ _ _ => some (coxCore home)
  | .claim m | .release m _ => some (recCore m.who)
  | .offerRefusal r _ _ => some (recCore r)
  | .disseminationNotice t _ _ _ => some t.core
  | .syscallReplyArrival m => some m.core
  | .reply m | .redirect m => some m.dst
  | .migrationLineCopy pkg frame => ((s.pkg pkg).wakes.find? fun w => w.oldFrame == frame && !w.cut).map fun w =>
      memCore w.newPkg (w.newFrame * 2 ^ 16 + 64 * w.copied)
  | .wakeReleaseQuery pkg frame _ _ => some (memCore pkg (frame * 2 ^ 16))
  | .wakeReleaseAnswer pkg frame => some (memCore pkg (frame * 2 ^ 16))
  | _ => none

/-- A malformed packet's sender, where its form alone does not tell (R289). -/
def State.pktFrom (s : State) (i : Instr) : CoreId :=
  match i with
  | .wakeReleaseAnswer pkg frame => match (s.pkg pkg).wakes.find? fun w => w.oldFrame == frame with
    | some w => memCore w.newPkg (w.newFrame * 2 ^ 16)
    | none => (pktInfo i).src
  | i => (pktInfo i).src

/-- A packet that is malformed, dropped and counted at the interface that takes it, and refused (R289): an offer ends with FNACK and a claim answered
gone (DEDUCED, log 58), a line copy fails (R312), another packet's sender gets the NACK. The interface of a machine-checked core takes nothing
(R350). -/
def State.dropOdd (s : State) (at_ : CoreId) (i : Instr) (cause : Nat) : State :=
  if (s.core at_).dead then s
  else
    let s := s.modCore at_ fun k => { k with drops := k.drops + 1 }
    let tag := (pktInfo i).tag
    match i with
    | .offerArrival m => s.sendEvt at_ (recCore m.who) (.offerRefusal m.who m.ev ⟨0x90 + 2 ^ 8 * cause, m.serial, m.home⟩) (chanDown m.who m.home)
    | .claim m => s.sendEvt at_ (coxCore m.home) (.claimReply m .gone) (chanUp m.who m.home)
    | .migrationLineCopy pkg frame => match (s.pkg pkg).wakes.find? fun w => w.oldFrame == frame && !w.cut with
      | some w => s.migrateFail pkg w
      | none => s
    | i => s.send at_ (s.pktFrom i) (.reply
        { src := at_, dst := s.pktFrom i, rtag := if tag = 0 ∨ (pktInfo i).opc = 9 ∨ (pktInfo i).opc = 8 then 2 ^ 17 else tag, status := .nack, cause := cause })

/-- MIGRATION_LINE_COPY (R312, R313): the next line is copied and marked; the last makes the record a wake and ends migrate. A
line copy fails where its key slot is empty at either home, no way leads between them, or a frame is kernel-reserved, which raises the alarm of an
engine's access there (R185; DEDUCED, log 58). One that finds no working port comes again. -/
def execMigrationLineCopy (pkg frame : Nat) (s : State) : Out :=
  match (s.pkg pkg).wakes.find? fun w => w.oldFrame == frame && !w.cut with
  | none => .next s
  | some w =>
    let frozen := match w.asker with | some t => (s.core t.core).dead | none => false
    if frozen then .next s
    else if !s.copyWay pkg w then .next (s.migrateFail pkg w)
    else match s.copyReserved pkg w with
      | some p => .next ((s.migrateFail pkg w).alarm2 p (match w.asker with | some t => s.ctxOf t | none => 0))
      | none =>
        if s.blocked pkg w.newPkg || s.blocked w.newPkg pkg then .next (s.postAt pkg (s.time pkg + 64) (.migrationLineCopy pkg frame))
        else
          let old := memKey pkg (w.oldFrame * 2 ^ 16 + 64 * w.copied)
          let new_ := memKey w.newPkg (w.newFrame * 2 ^ 16 + 64 * w.copied)
          let s := (s.under w.key new_ 64).writeBs new_ ((s.under w.key old 64).mem.readBytes old 64)
          let n := w.copied + 1
          if n < w.lines then .next ((s.modWake pkg frame fun w => { w with copied := n }).postStep (.migrationLineCopy pkg frame))
          else .next ((s.modWake pkg frame fun w => { w with copied := n, cut := true, asker := none }).migrateDone w 0)

/-- wakerel (R317); with the wake, its releasing ends. -/
def execWakerel (g : Guard) (d l : Reg) (s : State) : Out :=
  issueS (.wakerel g d l) g (fun s =>
    let x := (s.rg l).toNat
    let pkg := bitsN x 31 20
    let frame := bitsN x 55 32
    if bitsN x 63 56 ≠ 0 ∨ bitsN x 19 0 ≠ 0 then .fault s (s.fault 0x99)
    else match (s.pkg pkg).wakes.find? fun w => w.oldFrame == frame && w.cut with
      | none => .ok (s.wg d 2)
      | some w =>
        if w.released then
          let s := s.cancel fun i => match i with
            | .wakeReleaseRequest q f => q == pkg && f == frame
            | .wakeReleaseQuery _ _ q f => q == pkg && f == frame
            | .wakeReleaseAnswer q f => q == pkg && f == frame
            | _ => false
          .ok ((s.modPkg pkg fun p => { p with wakes := p.wakes.filter fun y => y.oldFrame != frame }).wg d 0)
        else if w.armed.isSome then .ok (s.wg d 1)
        else
          let now := s.time pkg
          let s := s.modWake pkg frame fun w => { w with armed := some now }
          let s := s.postAt pkg (now + 2 ^ 20 + 64000) (.wakeReleaseRequest pkg frame)
          .ok (s.wg d 1)) s

/-- WAKE_RELEASE_REQUEST (R317): the old home asks the new home, and asks again every 64,000 ticks. -/
def execWakeReleaseRequest (pkg frame : Nat) (s : State) : Out :=
  match (s.pkg pkg).wakes.find? fun w => w.oldFrame == frame && w.armed.isSome && !w.released with
  | none => .next s
  | some w =>
    let s := s.postStep (.wakeReleaseQuery w.newPkg w.newFrame pkg frame)
    .next (s.postAt pkg (s.time pkg + 64000) (.wakeReleaseRequest pkg frame))

/-- A request that a wake has relayed to a frame, or to one of the 32 of a 2 MiB page, is on its way (R313, R317). -/
def State.relaysOpen (s : State) (pkg frame : Nat) (big : Bool) : Bool :=
  s.agenda.any fun p => match memReqOf p.step with
    | some m => m.fwd && (match m.tgt with
      | .mem k pa _ => k == pkg && decide (frame ≤ pa / 2 ^ 16) && decide (pa / 2 ^ 16 < frame + (if big then 32 else 1))
      | .slice _ _ => false)
    | none => false

/-- WAKE_RELEASE_QUERY (R317): the new home answers release when no relayed request of the wake is open, and not yet otherwise. -/
def execWakeReleaseQuery (pkg frame oldPkg oldFrame : Nat) (s : State) : Out :=
  let big := (s.pkg oldPkg).wakes.any fun w => w.oldFrame == oldFrame && w.big
  if s.relaysOpen pkg frame big then .next s else .next (s.postStep (.wakeReleaseAnswer oldPkg oldFrame))

/-- WAKE_RELEASE_ANSWER (R317). -/
def execWakeReleaseAnswer (pkg frame : Nat) (s : State) : Out :=
  .next (s.modWake pkg frame fun w => if w.cut ∧ w.armed.isSome then { w with released := true } else w)

/-! ## Instruction lines (R28 to R31, R72, R367) -/

/-- The even parity of a line's bytes 0 to 62 against byte 63 (R29). -/
def parityOk (bs : List Byte) : Bool := bs.foldl (fun a b => a ^^^ b) 0 == (0 : Byte)

/-- A line put into an instruction cache of 256 lines; a full one loses a free victim (log 10). -/
def State.icFill (s : State) (c : CoreId) (l : ILine) : State :=
  let ls := (s.core c).icache
  if ls.length < 256 then s.modCore c fun k => { k with icache := l :: k.icache }
  else (s.modCore c fun k => { k with icache := l :: k.icache.eraseIdx (Config.freeVictim s.freeN % 256) }).fresh

/-- The 64 bytes of a line of a slice or of package memory, read whole through the crew cache; again: the second fetch, at the home
where the crew's copy is clean (R30). -/
def State.lineBytes (s : State) (c : CoreId) (ctx : Nat) (super : Bool) (a : Word) (again : Bool) : State × Except Nat (List Byte) :=
  if bitsN a.toNat 63 57 ≠ 0 then (s, .error dMFORM)
  else match s.memAt c ctx super true .x a with
    | (s, .error d) => (s, .error d)
    | (s, .ok x) =>
      let ln := lineNo x.pkg x.pa
      let s := if again then
          match (s.crew c.crewNo).lines.find? fun p => p.1 == ln with
          | some (_, l) => if l.dirty then s else s.dropLine c.crewNo ln
          | none => s
        else s
      let s := s.flushAt c.crewNo x.pkg x.pa 64
      let s := s.fillLine c.crewNo x
      (s, .ok (match (s.crew c.crewNo).lines.find? fun p => p.1 == ln with | some (_, l) => l.bytes | none => []))

/-- INSTRUCTION_LINE_FILL (R30, R367): the line of a strand's PC is read and checked, read again after a failed check, and kept; a
second failure is machine check 0xB0. A fetch fault goes to the micro-kernel (R190); one whose way waits for a port comes again (R287). -/
def execInstructionLineFill (t : StrandId) (pc : Word) (s : State) : Out :=
  let c := t.core
  let ctx := s.ctxOf t
  let super := t.slot == 0
  let line := pc.toNat / 64
  let a : Word := BitVec.ofNat 64 (line * 64)
  let s0 := s
  let fault (s : State) (d : Nat) : Out :=
    if isWait d then .next s0 else .next (s.raise t { (faultAt pc d) with cause := 2, info0 := a } false)
  if (s.core c).icache.any (fun l => l.ctx == ctx && l.line == line) || s.waitsAt c ctx a then .next s
  else match s.lineBytes c ctx super a false with
    | (s, .error d) => fault s d
    | (s, .ok bs) =>
      if parityOk bs then .next (s.icFill c ⟨ctx, line, bs⟩)
      else match s.lineBytes c ctx super a true with
        | (s, .error d) => fault s d
        | (s, .ok bs) => if parityOk bs then .next (s.icFill c ⟨ctx, line, bs⟩) else .next (s.machineCheck c 0xB0)

end Sys2Proof.Machine
end

