-- ==== Sys2Proof/Machine/Event.lean ====
section
/-! DEFINITION. Meanings of the event instructions, OPs 0xA0 to 0xA9, and of the steps of event homes, offer records and
timers (R247 to R280, R390, R391). -/

namespace Sys2Proof.Machine

/-! ## Records at homes (R249 to R253) -/

/-- The fault of a handle at use: its SCOPE and reserved bits (R247). -/
def State.handleFault (s : State) (h : Word) : Option Report := if hOk h then none else some (s.fault 0x80)

/-- The event overflow area of a context as a core knows it: the core's own EVAREA when it serves the context, otherwise what
is recorded for the context (R55, R250). -/
def State.evArea (s : State) (c : CoreId) (ctx : Nat) : Word :=
  let info : SMap Word := (s.pkg c.pkg).ctxInfo.get [] ctx
  if (s.core c).ctx = ctx then (s.core c).evarea else info.get 0 0x0204

/-- The address and the slot count of a usable area: EVAREA well formed, every page mapped with V = 1, W = 1 and KRES = 0 by a walk at the home
(R250, R380). -/
def State.areaSlots (s : State) (home : Nat) (c : CoreId) (ctx : Nat) : Option (Nat × Nat) :=
  let w := s.evArea c ctx
  let log := bitsN w.toNat 4 0
  if w = 0 ∨ 20 < log ∨ bitsN w.toNat 11 5 ≠ 0 then none
  else
    let base := bitsN w.toNat 63 12 * 4096
    let last := base + 256 * 2 ^ log - 1
    let good := (List.range (last / 65536 - base / 65536 + 1)).all fun i =>
      match s.walk (crewPkg home) ctx ((base / 65536 + i) * 65536) with
      | .ok (l, _) => leafW l && !leafKres l
      | .error _ => false
    if good then some (base, 2 ^ log) else none

/-- The cox of a crew walks a context's area at the first evnew after EVAREA is written, and keeps what it finds (R380). -/
def State.walkArea (s : State) (home : Nat) (c : CoreId) (ctx : Nat) : State :=
  if (s.crew home).areas.has ctx then s
  else s.modCrew home fun k => { k with areas := k.areas.set ctx (s.areaSlots home c ctx) }
/-- The address and the slot count of a context's usable area as a cox has found it. -/
def State.areaKnown (s : State) (home ctx : Nat) : Option (Nat × Nat) := (s.crew home).areas.get none ctx

/-- The page of a record's slot in its context's area has been unmapped, remapped, migrated or unpinned since the record moved there: the record is
lost (R380). -/
def State.areaLost (s : State) (home : Nat) (r : EvRec) : Bool :=
  match r.areaAt with
  | none => false
  | some (va, leaf) =>
    match s.walk (crewPkg home) r.ev.ctx va with
    | .ok (l, _) => leafFrame l != leafFrame leaf || leafHome l != leafHome leaf || !leafW l || leafKres l
        || (s.wakeAt (leafHome l) (leafFrame l * 65536)).any Wake.cut
    | .error _ => true
/-- A record at its home that can be used: it is not to be freed (R277, R348) and is not lost (R380). -/
def State.usable (s : State) (home : Nat) (ev : EvId) : Option EvRec :=
  (s.evRec home ev).filter fun r => !r.dying && !s.areaLost home r

/-- Slots of a context's area in use, across all coxes. -/
def State.areaUsed (s : State) (ctx : Nat) : List Nat :=
  s.crews.flatMap fun k => k.2.events.filterMap fun r => if r.ev.ctx = ctx then r.inArea else none

/-- The lowest free slot of a context's usable area. -/
def State.areaFree (s : State) (home ctx : Nat) : Option Nat :=
  match s.areaKnown home ctx with
  | none => none
  | some (_, n) =>
    let used := s.areaUsed ctx
    (List.range (used.length + 1)).find? fun i => decide (i < n) && !used.contains i

/-- Of the records in places and the one that needs a place, the one that moves into its context's area: the least recently used of those
whose context has a usable area with a free slot (R250). -/
def State.moverOf (s : State) (home : Nat) (rs : List EvRec) : Option EvRec :=
  match rs.filter fun x => (s.areaFree home x.ev.ctx).isSome with
  | [] => none
  | x :: l => some (l.foldl (fun v y => if y.used < v.used then y else v) x)

/-- A record moved into its context's area. -/
def State.toArea (s : State) (home : Nat) (v : EvRec) : State :=
  match s.areaKnown home v.ev.ctx, s.areaFree home v.ev.ctx with
  | some (base, _), some i =>
    let va := base + 256 * i
    let leaf := match s.walk (crewPkg home) v.ev.ctx va with | .ok (l, _) => l | .error _ => 0
    s.modEv home v.ev fun y => { y with inArea := some i, areaAt := some (va, leaf) }
  | _, _ => s

/-- A use of a record: the clock of least recent use; one that lies in the area comes back to a place, for which another record moves out
(R250). -/
def State.touch (s : State) (home : Nat) (ev : EvId) : State :=
  let s := s.modCrew home fun k =>
    { k with useClock := k.useClock + 1, events := k.events.map fun r => if r.ev = ev then { r with used := k.useClock + 1 } else r }
  if (s.crew home).events.any fun r => r.ev == ev && r.inArea.isSome then
    let u := s.modEv home ev fun r => { r with inArea := none, areaAt := none }
    let placed := (u.crew home).events.filter fun x => x.inArea.isNone
    if placed.length ≤ 256 then u
    else match u.moverOf home placed with
      | some v => u.toArea home v
      | none => s
  else s

/-- A record entered at its home: in a place, or after the least recently used record whose context has room has moved into
its area; an error is EVAREA or EVFULL (R250). Its claims and settle windows are told from those of a freed record (R391). -/
def State.enterRec (s : State) (home : Nat) (r : EvRec) : Except Nat State :=
  let k := s.crew home
  let r := { r with used := k.useClock + 1, attempt := k.attempts, window := k.attempts }
  let placed := k.events.filter fun x => x.inArea.isNone
  let s' : State := s.modCrew home fun k => { k with events := k.events ++ [r], useClock := k.useClock + 1 }
  if placed.length < 256 then .ok s'
  else match s.moverOf home (placed ++ [r]) with
    | none => .error (if (s.areaKnown home r.ev.ctx).isNone then 0x84 else 0x85)
    | some v => .ok (s'.toArea home v)

/-- Nothing of a dissemination is left of an event whose record is made anew: its notices, kept or on their way, and its occurrences'
parity (R271). -/
def State.forgetEv (s : State) (ev : EvId) : State :=
  { s with
    cores := s.cores.map fun k => (k.1, { k.2 with strands := k.2.strands.map fun t =>
      (t.1, { t.2 with kept := t.2.kept.filter fun x => x.1 != ev, parity := t.2.parity.filter fun x => x != ev }) }),
    agenda := s.agenda.filter fun p => match p.step with | .disseminationNotice _ x _ _ => x != ev | _ => true }

/-- A blank record of an identity and its configuration. -/
def mkRec (ev : EvId) (k : EvKind) (sole : Bool) (count size op fanin src : Nat) (map : Word) (settle : Nat) : EvRec :=
  { ev := ev, count := count, kind := k, sole := sole, size := size, op := op, fanin := fanin, src := src, map := map,
    regions := [], settle := settle }

/-- EVPARAM of evnew (R252, R253). -/
def evParamBad (k : EvKind) (sole : Bool) (d x : Word) : Bool :=
  let n := d.toNat
  let count := bitsN n 23 0
  let size := bitsN n 36 24
  bitsN n 63 54 != 0 || count == 0 || size % 4 != 0 || decide (4096 < size) || ((k == .sync) != (size == 0))
    || (k == .gather && decide (65536 < count * size)) || (k == .xfer && decide (count ≤ bitsN x.toNat 23 0))
    || (k != .reduce && bitsN n 41 37 != 0) || (sole && bitsN n 53 42 != 0)
    || (k == .sync && sole && decide (64 < count) && x.toNat % 4 != 0)

/-- evnew (R251 to R253); while a record of the same identity waits to be freed (R277), evnew waits (log 55). DEDUCED: gc of a sole SYNC event that
turns out to have 64 participants or fewer is an unused field, which traps as R43 says (log 40). -/
def execEvnew (g : Guard) (k : EvKind) (sc : Scope) (sole : Bool) (e : EReg) (n p x : Reg) (s : State) : Out :=
  issueU (.evnew g k sc sole e n p x) g (fun s =>
    let name : BitVec 32 := (s.rg n).setWidth 32
    let d := s.rg p
    let xv := s.rg x
    let c := s.cur.core
    let h := mkHandle name sc k sole 0
    let ev := s.evIdOf s.ctx c h
    let home := s.homeOf c ev
    if k = .sync ∧ sole ∧ bitsN d.toNat 23 0 ≤ 64 ∧ x ≠ 0 then .fault s (s.illegal 4 56)
    else if evParamBad k sole d xv then .fault s (s.fault 0x83)
    else if s.fencedAt (crewPkg home) s.ctx then .fault s (s.fault 0x93)
    else if (s.evRec home ev).any EvRec.dying then s.at_ 0 []
    else if (s.usable home ev).isSome then .fault s (s.fault 0x82)
    else
      let s := (s.walkArea home c s.ctx).modCrew home fun k => k.freeRecs fun r => r.ev == ev
      let w := d.toNat
      let big := k == .sync && sole && decide (64 < bitsN w 23 0)
      let r := mkRec ev k sole (bitsN w 23 0) (bitsN w 36 24) (bitsN w 39 37) (bitsN w 41 40)
        (if k = .xfer then bitsN xv.toNat 23 0 else 0) (if big then xv else 0) (bitsN w 53 42)
      match s.enterRec home r with
      | .error dt => .fault s (s.fault dt)
      | .ok s => .ok ((if big then s.forgetEv ev else s).modMe fun t => t.we e h)) s

/-- The record that a handle names, with the checks of a use: EVHANDLE, a context fenced at the home (R349), EVNONE, also once the record is to
be freed (R277, R348), and a KIND or SOLE that differs (R247, R278). -/
def State.useHandle (s : State) (h : Word) : Except Report (Nat × EvRec) :=
  if !hOk h then .error (s.fault 0x80)
  else
    let ev := s.evIdOf s.ctx s.cur.core h
    let home := s.homeOf s.cur.core ev
    if s.fencedAt (crewPkg home) s.ctx then .error (s.fault 0x93) else
    match s.usable home ev with
    | none => .error (s.fault 0x81)
    | some r => if r.kind = hKind h ∧ r.sole = hSole h then .ok (home, r) else .error (s.fault 0x80)

/-- evdel (R277): the event cancelled, its timer stopped, its record freed when nothing refers to it. -/
def execEvdel (g : Guard) (e : EReg) (s : State) : Out :=
  issueU (.evdel g e) g (fun s =>
    match s.useHandle (s.me.re e) with
    | .error r => .fault s r
    | .ok (home, r) =>
      let s := (s.touch home r.ev).modCrew home fun k => { k with timers := k.timers.filter fun t => t.ev != r.ev }
      .ok (s.deleteEv home r.ev)) s

/-- evput (R264): a binding for an e register, of local effect. -/
def execEvput (g : Guard) (e : EReg) (f : EvputForm) (s : State) : Out :=
  issueU (.evput g e f) g (fun s =>
    let h := s.me.re e
    if !hOk h then .fault s (s.fault 0x80)
    else
      let bind (b : Option Bind) : Res := .ok (s.modMe fun t =>
        { t with binds := match b with | some b => t.binds.set e.toNat b | none => t.binds.del e.toNat })
      match f with
      | .both c d => bind (some (.data (some c) (some d)))
      | .nocont d => bind (some (.data none (some d)))
      | .nodest c => bind (some (.data (some c) none))
      | .cp => if hKind h = .sync then bind (some .cp) else .fault s (s.fault 0x8B)
      | .clear => bind none) s

/-- evbind (R267). -/
def execEvbind (g : Guard) (e : EReg) (b l : Reg) (s : State) : Out :=
  issueU (.evbind g e b l) g (fun s =>
    match s.useHandle (s.me.re e) with
    | .error r => .fault s r
    | .ok (home, r) =>
      let base := s.rg b
      let len := (s.rg l).toNat
      if base.getLsbD 63 || !mformOk base || base.toNat % 64 != 0 || len % 64 != 0 || len == 0 || decide (2 ^ 40 < len) then
        .fault s (s.fault 0x83)
      else if 4 ≤ r.regions.length then .fault s (s.fault 0x8C)
      else .ok ((s.touch home r.ev).modEv home r.ev fun r => { r with regions := r.regions ++ [(base, BitVec.ofNat 64 len)] })) s

/-- evunbind (R267): a base that no region has leaves the record as it is. DEDUCED: where several regions have the base, all of them go (log 55). -/
def execEvunbind (g : Guard) (e : EReg) (b : Reg) (s : State) : Out :=
  issueU (.evunbind g e b) g (fun s =>
    match s.useHandle (s.me.re e) with
    | .error r => .fault s r
    | .ok (home, r) =>
      .ok ((s.touch home r.ev).modEv home r.ev fun z => { z with regions := z.regions.filter fun x => x.1 != s.rg b })) s

/-- evres (R274): the handle with a rank; the register's binding ends (R264). -/
def execEvres (g : Guard) (e : EReg) (h r : Reg) (s : State) : Out :=
  issueU (.evres g e h r) g (fun s =>
    let v := (s.rg h).extractLsb' 24 40 ++ (s.rg r).extractLsb' 0 24
    .ok (s.modMe fun t => { t.we e v with binds := t.binds.del e.toNat })) s

/-- evres.get (R274). -/
def execEvresGet (g : Guard) (d : Reg) (e : EReg) (s : State) : Out :=
  issueU (.evresGet g d e) g (fun s => .ok (s.wg d (s.me.re e))) s

/-- evcancel (R276). -/
def execEvcancel (g : Guard) (e : EReg) (s : State) : Out :=
  issueU (.evcancel g e) g (fun s =>
    match s.useHandle (s.me.re e) with
    | .error r => .fault s r
    | .ok (home, r) => .ok ((s.touch home r.ev).cancelEv home r.ev)) s

/-- STATE's number (R275). -/
def evStNum : EvSt → Nat
  | .idle => 0 | .settling => 1 | .claiming => 2 | .committing => 3 | .cancelled => 4

/-- The status word of a record (R275). -/
def EvRec.status (r : EvRec) : Word :=
  BitVec.ofNat 64 (r.occ % 2 ^ 16 * 2 ^ 48 + r.missed % 256 * 2 ^ 40 + evStNum r.st * 2 ^ 36 + r.defer % 256 * 2 ^ 24 + r.live.length % 2 ^ 24)

/-- The configuration word of a record: the descriptor of R252 in [53:0] and the count of regions in [57:55] (R275). -/
def EvRec.config (r : EvRec) : Word :=
  BitVec.ofNat 64 (r.regions.length * 2 ^ 55 + r.settle * 2 ^ 42 + r.fanin * 2 ^ 40 + r.op * 2 ^ 37 + r.size * 2 ^ 24 + r.count)

/-- evstat, evstat.cfg (R275): a missing event gives all ones. -/
def execEvstat (g : Guard) (cfg : Bool) (d : Reg) (e : EReg) (s : State) : Out :=
  issueU (.evstat g cfg d e) g (fun s =>
    match s.useHandle (s.me.re e) with
    | .ok (home, r) => .ok ((s.touch home r.ev).wg d (if cfg then r.config else r.status))
    | .error r => if r.detail = 0x81 then .ok (s.wg d 0xFFFFFFFFFFFFFFFF#64) else .fault s r) s

/-! ## Offers (R254 to R256) -/

/-- The used slots of an offer with their e registers. -/
def usedSlots (s0 s1 s2 s3 : Option EReg) : List (Nat × EReg) :=
  [(0, s0), (1, s1), (2, s2), (3, s3)].filterMap fun p => p.2.map fun e => (p.1, e)

/-- A data binding of an e register. -/
def Strand.bindOf (t : Strand) (e : EReg) : Option Bind :=
  if t.binds.has e.toNat then match t.binds.get .cp e.toNat with
    | .cp => none
    | b => some b
  else none
/-- The contribution tile of a binding. -/
def bindCont : Option Bind → Option Nat
  | some (.data (some c) _) => some c.toNat
  | _ => none
/-- The destination tile of a binding. -/
def bindDest : Option Bind → Option Nat
  | some (.data _ (some d)) => some d.toNat
  | _ => none
/-- The tiles of a binding. -/
def bindTiles (b : Option Bind) : List Nat := (bindCont b).toList ++ (bindDest b).toList

/-- Check 4 of R255 for one used slot of KIND other than SYNC: a binding, a destination no other used slot names, and a
contribution for GATHER and REDUCE. -/
def bindBad (k : EvKind) (b : Option Bind) (others : List Nat) : Bool :=
  k != .sync && (b.isNone || (match bindDest b with | some d => others.contains d | none => false)
    || ((k == .gather || k == .reduce) && (bindCont b).isNone))

/-- Check 5 of R255 for the bound tiles. -/
def State.tileBad (s : State) (ts : List Nat) : Option Report :=
  let c := s.myCore
  ts.findSome? fun t =>
    if tileMark (c.tile t) then some (s.markFault t 0x89)
    else if progEnd ≤ tileBase (c.tile t) then some (s.fault 0x89) else none

/-- The checks of an offer in order (R255): the first that fails. -/
def State.offerFault (s : State) (used : List (Nat × EReg)) (time : Word) : Option Report :=
  let t := s.me
  let hs := used.map fun p => (p.1, t.re p.2, t.bindOf p.2)
  if t.role ≠ 0 then some (s.fault 0x88)
  else if hs.any (fun p => !hOk p.2.1) then some (s.fault 0x80)
  else if hs.any (fun p => hSole p.2.1) && (used.length != 1 || time != 0xFFFFFFFFFFFFFFFF#64) then some (s.fault 0x87)
  else if hs.any (fun p => bindBad (hKind p.2.1) p.2.2 ((hs.filter fun q => q.1 != p.1).flatMap fun q => bindTiles q.2.2)) then
    some (s.fault 0x8A)
  else s.tileBad (hs.flatMap fun p => bindTiles p.2.2)

/-- The operand condition of an offer: contributions READY and destinations EMPTY (R255). -/
def Core.offerReady (c : Core) (bs : List (Option Bind)) : Bool :=
  bs.all fun b => (match bindCont b with | some t => tileSt (c.tile t) == tReady | none => true)
    && (match bindDest b with | some t => tileSt (c.tile t) == tEmpty | none => true)

/-- The offer made: tiles taken, the record OPEN with its deadline, the messages sent in ascending slot (R255, R256). -/
def State.openOffer (s : State) (used : List (Nat × EReg)) (time : Word) (d : Reg) (sys : Bool) : State :=
  let t := s.cur
  let c := t.core
  let st := s.me
  let k := s.myCore
  let named : List Named := used.map fun p =>
    let h := st.re p.2
    let ev := s.evIdOf s.ctx c h
    ⟨p.1, ev, s.homeOf c ev, hRank h, false, st.bindOf p.2⟩
  let now := s.time c.pkg
  let dl : Option Nat := if time = 0 ∨ time = 0xFFFFFFFFFFFFFFFF#64 then none else some ((now + time.toNat) % 2 ^ 64)
  let x : OfferRec := { st := .opened, named := named, deadline := dl, poll := decide (time = 0), resReg := d, sys := sys, serial := s.freeN }
  let s := s.fresh.modMyCore fun k => named.foldl (fun k n =>
    let k := match bindCont n.bind with | some t => k.addReader t | none => k
    match bindDest n.bind with | some t => k.tileTo t tFilling | none => k) k
  let s := s.modMe fun st => { st with offer := x, mode := .waiting, hold := .phase 0 [] }
  let s := match dl with
    | some tick => s.postAt c.pkg tick (.offerDeadline (.strand t) tick)
    | none => s
  used.foldl (fun s p =>
    let h := st.re p.2
    let ev := s.evIdOf s.ctx c h
    let home := s.homeOf c ev
    let b := st.bindOf p.2
    let cont := match bindCont b with | some t => Contrib.tile c (tileBase (k.tile t)) | none => .none
    let dest := (bindDest b).map fun t => (c, tileBase (k.tile t))
    s.sendEvt c (coxCore home) (.offerArrival ⟨home, ev, .strand t, p.1, hRank h, hKind h, hSole h, cont, dest, decide (time = 0), x.serial⟩)
      (chanUp (.strand t) home)) s

/-- What meets an offer at its yield point (R328, R332, R335): a pending hold takes the strand in its offer; a pending move, or a notice that
can be delivered, ends the offer with 6 before it is sent, and the strand goes on after it (R106). -/
def State.offerYield (s : State) (d : Reg) (sent : State → State) : Res :=
  match s.me.taker with
  | some true => .placed ((s.wg d 6).advance.modMe fun x => { x with mode := .taken })
  | some false => .hold ((sent s).modMe fun x => { x with mode := .taken, taker := none })
  | none =>
    if s.me.notices.isEmpty then .hold (sent s)
    else match s.inUse s.cur with
      | (s, .ok true) => .hold (sent s)
      | (s, .ok false) => .placed (((s.wg d 6).advance).deliverNotice s.cur)
      | (s, .error e) => if isWait e then .fault s (s.fault e) else .placed (((s.wg d 6).advance).deliverNotice s.cur)

/-- offer (R255, R256). -/
def execOffer (g : Guard) (s0 s1 s2 s3 : Option EReg) (t d : Reg) (s : State) : Out :=
  issueY (.offer g s0 s1 s2 s3 t d) g (fun s =>
    if s.me.offer.st ≠ .idle then .hold s
    else
      let used := usedSlots s0 s1 s2 s3
      match s.offerFault used (s.rg t) with
      | some r => .fault s r
      | none =>
        if !s.myCore.offerReady (used.map fun p => s.me.bindOf p.2) then .stall
        else
          (s.reload s.cur s.me.lastDl s.me.lastLive).offerYield d fun s => s.openOffer used (s.rg t) d false) s

/-- The result of an ended record (R254). -/
def resultOf : OfSt → Option Nat
  | .done k => some k
  | .timedout => some 4
  | .cancelled => some 5
  | .noticed => some 6
  | _ => none

/-- The tiles of a strand's ended offer given back, and its record IDLE (R255). -/
def State.giveBack (s : State) (t : StrandId) : State :=
  let x := (s.strand t).offer
  let s := s.modCore t.core fun k => x.named.foldl (fun k n =>
    let k := match bindCont n.bind with | some t => k.dropReader t | none => k
    match bindDest n.bind with
    | some t => if x.st = .done n.slot then k else k.tileTo t tEmpty
    | none => k) k
  s.modStrand t fun y => { y with offer := {} }

/-- A strand's offer has ended: tiles given back, the result written or the refusal raised; then a pending move, or the notice
of a NOTICED offer (R255, R256, R328, R390). A syscall raises no fault after its request (R341). -/
def State.strandResult (s : State) (t : StrandId) : State :=
  let st := s.strand t
  let x := st.offer
  match resultOf x.st with
  | none => s
  | some res =>
    if st.mode = .taken then s.postStep (.offerResult (.strand t))
    else
      let s := (s.giveBack t).modStrand t fun y => { y with mode := .ready }
      match x.refused with
      | some d =>
        if x.sys then s.modStrand t fun y => { y.wg x.resReg 5 with pc := nextPc y.pc, issued := none, hold := .none }
        else s.raise t { faultAt st.pc (d % 2 ^ 8) with inner := d / 2 ^ 8 } (upcallCause (causeOf (d % 2 ^ 8)))
      | none =>
        let s := s.modStrand t fun y =>
          { y.wg x.resReg (BitVec.ofNat 64 res) with pc := nextPc y.pc, issued := none, hold := .none }
        if st.taker.isSome then s.modStrand t fun y => { y with mode := .taken, checkT := false }
        else if x.st = .noticed then s.deliverNotice t
        else s

/-- A hardware participant's record has ended: it leaves the interface, and its unit goes on (R238, R272, R309). -/
def State.hwResult (s : State) (c : CoreId) (cls : HwClass) (n : Nat) : State :=
  match (s.core c).hwrecs.find? fun h => h.cls == cls && h.n == n with
  | none => s
  | some h =>
    match resultOf h.rec_.st with
    | none => s
    | some res =>
      let drop (s : State) : State := s.modCore c fun k => { k with hwrecs := k.hwrecs.filter fun x => !(x.cls == cls && x.n == n) }
      match cls, h.outlet with
      | .net, some (_, o) =>
        match s.outletFailed c ((h.rec_.named.map fun x => x.ev.ctx).headD 0) o h.rec_.refused with
        | .error d => (s.partMet c 2 d).postOnce (.offerResult (.hw c cls n))
        | .ok s => (drop s).outletEnded h.sid h.rec_.refused
      | .course, some (slot, op) => (drop s).courseOfferEnded c slot op (decide (res ≤ 3)) h.rec_.refused
      | _, _ => drop s

/-- OFFER_RESULT (R255); a machine-checked core's state stays as it is (R350). -/
def execOfferResult (r : RecRef) (s : State) : Out :=
  if (s.core (recCore r)).dead then .next s else
  match r with
  | .strand t => .next (s.strandResult t)
  | .hw c cls n => .next (s.hwResult c cls n)

/-! ## Homes: enabling, claims, commit (R256 to R261, R391) -/

/-- A polling record whose named homes have all answered behaves as at expiry (R256). -/
def State.pollDone (s : State) (r : RecRef) (ev : EvId) (serial : Nat) : State :=
  let x := s.offerRec r
  if x.poll && x.serial == serial then
    let s := s.modRec r fun x => { x with named := x.named.map fun n => if n.ev = ev then { n with acked := true } else n }
    if (s.offerRec r).named.all Named.acked then s.meetRec r .timedout else s
  else s

/-- A claiming attempt has ended without commit: its polling offers are answered (R256). -/
def State.pollsDone (s : State) (home : Nat) (ev : EvId) : State :=
  match s.evRec home ev with
  | some r => (r.live.filter fun p => p.2.poll).foldl (fun s p => s.pollDone p.2.who ev p.2.serial) s
  | none => s

/-- The next claim of a claiming home, or the beginning of the commit when every record is held (R258). -/
def State.claimNext (s : State) (home : Nat) (ev : EvId) : State :=
  match s.evRec home ev with
  | none => s
  | some r =>
    match r.nextClaim with
    | some x => s.sendEvt (coxCore home) (recCore x) (.claim ⟨home, ev, x, r.defer, r.attempt⟩) (chanDown x home)
    | none => (s.setEv home { r with st := .committing, regIn := r.regions }).postStep (.eventCommit home ev)

/-- An idle home with an offer for every rank becomes enabled: a sole event commits at once (R270), one that a polling offer enables makes its
claims at once (R256), otherwise the settle window begins (R257). -/
def State.enable (s : State) (home : Nat) (ev : EvId) (poll : Bool) : State :=
  match s.evRec home ev with
  | none => s
  | some r =>
    if r.st ≠ .idle ∨ !r.full then s
    else if r.sole then (s.setEv home { r with st := .committing, regIn := r.regions }).postStep (.eventCommit home ev)
    else if poll then
      (s.setEv home { r with st := .claiming, attempt := r.attempt + 1, waitOn := none }).claimNext home ev
    else
      let w := r.window + 1
      (s.setEv home { r with st := .settling, window := w }).postAt (crewPkg home) (s.time (crewPkg home) + r.settle)
        (.settleWindowEnd home ev w)

/-- A home that has not an offer for every rank any more returns to IDLE where it was enabled: its window is void and its holds are released (R257,
R391); a polling offer that waited for the end of an occurrence in progress is acknowledged (R256). -/
def State.disable (s : State) (home : Nat) (ev : EvId) : State :=
  match s.evRec home ev with
  | none => s
  | some r =>
    match r.st with
    | .settling => s.setEv home { r with st := .idle, window := r.window + 1 }
    | .claiming =>
      let s := s.dropHolds home ev true false
      (s.modEv home ev fun r => { r with st := .idle }).pollsDone home ev
    | _ => s.pollsDone home ev

/-- A refusal on its way to a record (R256). -/
def State.refuse (s : State) (home : Nat) (r : RecRef) (ev : EvId) (d serial : Nat) : State :=
  s.sendEvt (coxCore home) (recCore r) (.offerRefusal r ev ⟨d, serial, home⟩) (chanDown r home)

/-- The bytes of a bound tile pass offset 0x1_DFFF (R255). -/
def passes (base n : Nat) : Bool := decide (progEnd < base + n)

/-- An outlet's 32 bytes contributed to an XFER event of another SIZE (R238). -/
def EvRec.outletSize (r : EvRec) (who : RecRef) : Bool :=
  r.kind == .xfer && r.size != 32 && match who with | .hw _ .net _ => true | _ => false

/-- A home refuses an offer: the detail (R238, R256). -/
def EvRec.refusal (r : EvRec) (m : OfferMsg) : Option Nat :=
  if r.count ≤ m.rank ∨ r.live.has m.rank ∨ r.live.any (fun p => p.2.who == m.who) then some 0x86
  else if r.kind ≠ m.kind ∨ r.sole ≠ m.sole then some 0x80
  else if (r.kind = .xfer ∧ m.rank = r.src ∧ m.contrib = .none) ∨ r.outletSize m.who then some 0x8A
  else
    let contBad := match m.contrib with | .tile _ b => r.kind != .sync && passes b r.size | _ => false
    let destBad := match m.dest with
      | some (_, b) => r.kind != .sync && passes b (if r.kind = .gather then r.count * r.size else r.size)
      | none => false
    if contBad || destBad then some 0x89 else none

/-! ## Dissemination (R271) -/

/-- ⌈log2 n⌉. -/
def clog2 (n : Nat) : Nat := if n ≤ 1 then 0 else Nat.log2 (n - 1) + 1

/-- The lines of an event's regions by the walk of the context in a crew's package: runs of a home, a first physical address and a count, each
within a page of 64 KiB. -/
def State.regionRuns (s : State) (crew ctx : Nat) (regs : List (Word × Word)) : List (Nat × Nat × Nat) :=
  regs.flatMap fun r =>
    let b := r.1.toNat
    let e := b + r.2.toNat
    (List.range ((e - 1) / 65536 - b / 65536 + 1)).filterMap fun i =>
      let p := b / 65536 + i
      match s.walk (crewPkg crew) ctx (p * 65536) with
      | .ok (l, lvl) =>
        let lo := max b (p * 65536)
        let hi := min e ((p + 1) * 65536)
        let x := xlatOf ⟨ctx, 0, lvl, l, none⟩ lo
        some (x.pkg, x.pa, (hi - lo) / 64)
      | .error _ => none
/-- A line of memory, by its key wherever wakes lead, lies in a run: frames begin at multiples of 64 KiB, so that a wake keeps a line's place in its
page. -/
def State.inRuns (s : State) (rs : List (Nat × Nat × Nat)) (k : Nat) : Bool :=
  rs.any fun r =>
    let off := k % 65536
    let first := r.2.1 % 65536
    decide (first ≤ off) && decide (off < first + 64 * r.2.2) && s.homeKey r.1 (r.2.1 / 65536 * 65536 + off) == k
/-- A line of a context at a virtual address lies in a region, whatever locator it has been reached by. -/
def inRegions (ctx : Nat) (regs : List (Word × Word)) (src : Nat × Nat) : Bool :=
  src.1 == ctx && regs.any fun r => decide (r.1.toNat < src.2 + 64) && decide (src.2 < r.1.toNat + r.2.toNat)
/-- The lines of an event's regions that a crew's cache holds, whichever context and locator they were filled by. -/
def State.regionLines (s : State) (crew ctx : Nat) (regs : List (Word × Word)) : List (Nat × CLine) :=
  let rs := s.regionRuns crew ctx regs
  (s.crew crew).lines.filter fun p =>
    s.inRuns rs (((s.backTo crew p.1 p.2).map Prod.fst).getD (s.lineHome p.1)) || inRegions ctx regs p.2.src
/-- What is on its way from a home for a line of an event's regions stays in no cache (R357). -/
def State.voidRegions (s : State) (crew ctx : Nat) (regs : List (Word × Word)) : State :=
  let rs := s.regionRuns crew ctx regs
  s.voidReqs crew fun r => s.inRuns rs (s.lineHome (lineNo (r.data.getD 1 0) (r.data.getD 2 0))) || match memReqOf r.pkt with
    | some m => inRegions ctx regs (m.ctx, m.va.toNat / 64 * 64)
    | none => false

/-- Phase 1 of R269 for a participant: its crew's dirty lines of the bound regions are cleaned, and its .c entries are
flushed (R365). -/
def State.phase1 (s : State) (ctx : Nat) (regs : List (Word × Word)) (r : RecRef) : State :=
  let crew := (recCore r).crewNo
  let s := (s.regionLines crew ctx regs).foldl (fun s p => s.cleanLine crew p.1) s
  match r with
  | .strand t => s.flushOwn t
  | .hw _ _ _ => s
/-- Something of phase 1 waits for a port: a line of the bound regions, or a .c entry of the participant (R287). -/
def State.phaseStuck (s : State) (ctx : Nat) (regs : List (Word × Word)) (r : RecRef) : Bool :=
  let crew := (recCore r).crewNo
  (s.regionLines crew ctx regs).any (s.stuckLine crew) || match r with
    | .strand t => s.stuckCombs crew fun e => e.users.any fun u => u.1 == t.core.key && u.2.1 == t.slot
    | .hw _ _ _ => false

/-- Phase 2 of R269 for a participant: its crew's lines of the bound regions are invalidated; a line that is dirty again is
cleaned first, and what is on its way from a home for one stays in no cache (R357, R368). -/
def State.phase2 (s : State) (ctx : Nat) (regs : List (Word × Word)) (r : RecRef) : State :=
  let crew := (recCore r).crewNo
  let s := s.voidRegions crew ctx regs
  (s.regionLines crew ctx regs).foldl (fun s p => s.evictLine crew p.1) s

/-- A participant's stores are all acknowledged. -/
def State.acked (s : State) (r : RecRef) : Bool :=
  match r with
  | .strand t => (s.strand t).unacked == 0
  | .hw _ _ _ => true

/-- The rank map of an event, read by a participant's interface: COUNT strand global ids of 4 bytes. -/
def State.readRanks (s : State) (q : Asker) (ctx : Nat) (a : Word) : Nat → State × Except Nat (List Nat)
  | 0 => (s, .ok [])
  | n + 1 =>
    match s.readVa q ctx false a 4 with
    | (s, .error d) => (s, .error d)
    | (s, .ok v) =>
      match s.readRanks q ctx (a + 4) n with
      | (s, .error d) => (s, .error d)
      | (s, .ok r) => (s, .ok (v :: r))

/-- A strand global id names a strand of a context. -/
def State.gidOk (s : State) (own ctx x : Nat) : Bool :=
  let t := strandOfGid x
  s.pkgIn own t.core.pkg && decide (t.core.row < 200) && t.slot != 0 && (s.core t.core).ctx == ctx && (s.strand t).mode != .free

/-- The round-k notice of a participant, to rank (r + 2^k) mod N. -/
def State.sendRound (s : State) (t : StrandId) (ev : EvId) (k : Nat) : State :=
  let x := (s.strand t).offer
  let n := x.ranks.length
  let rank := (x.named.map Named.rank).headD 0
  let dst := strandOfGid (x.ranks.getD ((rank + 2 ^ k) % n) 0)
  let par := (s.strand t).parity.contains ev
  s.sendEvt t.core dst.core (.disseminationNotice dst ev ⟨k, t⟩ par) (chanUp (.strand t) (dst.gid))

/-- A participant that has received its round's notice goes on: the next round, or phase 2 and the occurrence after round K − 1 (R271), where what it
has received counts anew while a write-back of that phase waits for a port (R287). fuel: rounds. -/
def State.rounds (s : State) (t : StrandId) (ev : EvId) (regs : List (Word × Word)) : Nat → State
  | 0 => s
  | fuel + 1 =>
    let st := s.strand t
    let par := st.parity.contains ev
    match st.offer.round with
    | none => s
    | some k =>
      if st.offer.st = .opened ∧ (s.core t.core).mcheck = none ∧ st.offer.named.any (fun n => n.ev == ev) ∧ st.kept.contains (ev, k, par) then
        let s := s.modStrand t fun y => { y with kept := y.kept.erase (ev, k, par) }
        if clog2 st.offer.ranks.length ≤ k + 1 ∧ s.phaseStuck ev.ctx regs (.strand t) then
          s.postAt t.core.pkg (s.time t.core.pkg + 64) (.disseminationNotice t ev ⟨k, t⟩ par)
        else if k + 1 < clog2 st.offer.ranks.length then
          let s := s.modStrand t fun y => { y with offer := { y.offer with round := some (k + 1) } }
          (s.sendRound t ev (k + 1)).rounds t ev regs fuel
        else
          let s := s.modStrand t fun y =>
            { y with offer := { y.offer with st := .done ((st.offer.named.map Named.slot).headD 0), round := none },
                     parity := if par then y.parity.erase ev else ev :: y.parity }
          let s := s.phase2 ev.ctx regs (.strand t)
          let s := s.modCore t.core fun k => (st.offer.named.filterMap fun n => bindDest n.bind).foldl (fun k d => k.tileTo d tReady) k
          (s.notify (.strand t)).postOnce (.offerResult (.strand t))
      else s

/-- An offer of a sole SYNC event of more than 64 participants begins its dissemination (R271). DEDUCED: an offer made again after a NOTICED one
begins at round 0, with its own notices sent again and those it has taken in gone (log 55). -/
def State.disseminate (s : State) (m : OfferMsg) (r : EvRec) : State :=
  match m.who with
  | .hw _ _ _ => s.refuse m.home m.who m.ev 0x86 m.serial
  | .strand t =>
    if r.count ≤ m.rank then s.refuse m.home m.who m.ev 0x86 m.serial
    else if (s.strand t).offer.st ≠ .opened ∨ (s.strand t).offer.serial ≠ m.serial ∨ (s.core t.core).dead then s
    else if !s.acked m.who then s.postStep (.offerArrival m)
    else match s.readRanks (s.asker t) m.ev.ctx r.map r.count with
      | (s', .error d) => if isWait d then (s.waited t d).postStep (.offerArrival m) else s'.refuse m.home m.who m.ev d m.serial
      | (s, .ok ranks) =>
        if ranks.any fun x => !s.gidOk t.core.pkg m.ev.ctx x then s.refuse m.home m.who m.ev 0x86 m.serial
        else if s.phaseStuck m.ev.ctx r.regions m.who then s.postAt t.core.pkg (s.time t.core.pkg + 64) (.offerArrival m)
        else
          let s := s.phase1 m.ev.ctx r.regions m.who
          let s := s.modStrand t fun y => { y with offer := { y.offer with round := some 0, ranks := ranks } }
          (s.sendRound t m.ev 0).rounds t m.ev r.regions (clog2 r.count)

/-- DISSEMINATION_NOTICE (R271): kept until its round comes; a forwarding entry relays it to a strand that has moved (R333), and a
machine-checked core's state stays as it is (R350). -/
def execDisseminationNotice (t : StrandId) (ev : EvId) (round : RoundMsg) (par : Bool) (s : State) : Out :=
  if (s.core t.core).dead then .next s else
  match (s.core t.core).forwards.find? fun f => f.old == t.gid with
  | some f =>
    let d := strandOfGid f.new_
    .next (if s.time t.core.pkg < f.until_ then
      s.sendEvt t.core d.core (.disseminationNotice d ev ⟨round.n, t⟩ par) (chanUp (.strand t) d.gid) else s)
  | none =>
  if (s.strand t).mode = .free then .next s else
  let s := s.modStrand t fun y => { y with kept := y.kept ++ [(ev, round.n, par)] }
  let regs := match s.evRec (s.homeOf t.core ev) ev with | some r => r.regions | none => []
  .next (s.rounds t ev regs (clog2 (s.strand t).offer.ranks.length + 1))

/-! ## The steps of R256 to R262 -/

/-- OFFER_ARRIVAL (R256, R257): refused, also for a context fenced at the home (R349) and for an event that is to be freed (R277), or live;
the home may become enabled. -/
def execOfferArrival (m : OfferMsg) (s : State) : Out :=
  if s.fencedAt (crewPkg m.home) m.ev.ctx then .next (s.refuse m.home m.who m.ev 0x93 m.serial) else
  match s.usable m.home m.ev with
  | none => .next (s.refuse m.home m.who m.ev 0x81 m.serial)
  | some r =>
    let s := s.touch m.home m.ev
    if r.st = .cancelled then .next (s.meetNamed m.who m.ev .cancelled)
    else if r.sole ∧ r.kind = .sync ∧ 64 < r.count then
      (if m.kind = .sync ∧ m.sole then .next (s.disseminate m r) else .next (s.refuse m.home m.who m.ev 0x80 m.serial))
    else match r.refusal m with
      | some d => .next (s.refuse m.home m.who m.ev d m.serial)
      | none =>
        let s := s.modEv m.home m.ev fun r => { r with live := r.live.set m.rank ⟨m.who, m.slot, m.contrib, m.dest, m.poll, m.serial⟩ }
        let s := s.enable m.home m.ev m.poll
        let full := match s.evRec m.home m.ev with | some r => r.full | none => false
        .next (if m.poll && !full then s.pollDone m.who m.ev m.serial else s)

/-- SETTLE_WINDOW_END (R257, R258). -/
def execSettleWindowEnd (home : Nat) (ev : EvId) (window : Nat) (s : State) : Out :=
  match s.evRec home ev with
  | some r =>
    if r.st = .settling ∧ r.window = window then
      .next (((s.setEv home { r with st := .claiming, attempt := r.attempt + 1, waitOn := none }).claimNext home ev).touch home ev)
    else .next s
  | none => .next s

/-- E outranks F (R259). -/
def outranks (e f : Claimant) : Bool :=
  decide (f.defer < e.defer) || (e.defer == f.defer && decide (e.ev.name.toNat < f.ev.name.toNat))

/-- CLAIM reaches a record (R259). A record of a machine-checked core answers gone (R350), and so does one whose offer no
longer names the event. -/
def execClaim (m : ClaimMsg) (s : State) : Out :=
  let r := m.who
  let x := s.offerRec r
  let e : Claimant := ⟨m.home, m.ev, m.defer, m.attempt⟩
  let answer (s : State) (a : ClaimAnswer) : Out := .next (s.sendEvt (recCore r) (coxCore m.home) (.claimReply m a) (chanUp r m.home))
  let held (x : OfferRec) : OfferRec := { x with st := .held, holder := some e, benef := none, yielded := false }
  if (s.core (recCore r)).dead || !(x.named.any fun n => n.ev == m.ev) then answer s .gone
  else match x.st with
    | .opened => answer (s.setRec r (held x)) .granted
    | .reserved =>
      match x.benef with
      | some b =>
        if b.home = m.home ∧ b.ev = m.ev then answer ((s.setRec r (held x)).notify r) .granted
        else answer (s.setRec r { x with waiters := addWaiter x.waiters e }) .busy
      | none => answer (s.setRec r (held x)) .granted
    | .held =>
      let x' := { x with waiters := addWaiter x.waiters e }
      match x.holder with
      | some f =>
        if outranks e f then
          let better := match x.benef with | none => true | some b => outranks e b
          let s := s.setRec r { x' with benef := if better then some e else x.benef, yielded := true }
          let s := if x.yielded then s else s.sendEvt (recCore r) (coxCore f.home) (.yieldMessage f.home f.ev r) (chanUp r f.home)
          answer s .busy
        else answer (s.setRec r x') .busy
      | none => answer (s.setRec r x') .busy
    | _ => answer s .gone

/-- CLAIM_REPLY (R258): a reply of an attempt that has ended is discarded (R391). -/
def execClaimReply (m : ClaimMsg) (a : ClaimAnswer) (s : State) : Out :=
  match s.evRec m.home m.ev with
  | none => .next s
  | some r =>
    if r.st ≠ .claiming ∨ r.attempt ≠ m.attempt then .next s
    else
    let used (s : State) : Out := .next (s.touch m.home m.ev)
    match a with
      | .granted => used ((s.setEv m.home { r with held := r.held ++ [m.who] }).claimNext m.home m.ev)
      | .busy =>
        let s := s.dropHolds m.home m.ev false false
        let s := s.modEv m.home m.ev fun r => { r with waitOn := some m.who }
        used (s.pollsDone m.home m.ev)
      | .gone =>
        let s := s.dropHolds m.home m.ev false false
        let s := s.modEv m.home m.ev fun r => { r with st := .idle }
        used (s.pollsDone m.home m.ev)

/-- YIELD reaches a home that has not begun to commit: it releases its holds and waits on the record (R259, R391). -/
def execYieldMessage (home : Nat) (ev : EvId) (r : RecRef) (s : State) : Out :=
  match s.evRec home ev with
  | some x =>
    if x.st = .claiming ∧ x.waitOn = none ∧ x.held.contains r then
      let s := s.dropHolds home ev true true
      .next (((s.modEv home ev fun x => { x with waitOn := some r }).pollsDone home ev).touch home ev)
    else .next s
  | none => .next s

/-- RELEASE reaches a record (R260): ignored unless that attempt holds it (R391), and by a machine-checked core (R350). -/
def execRelease (m : ClaimMsg) (onYield : Bool) (s : State) : Out :=
  let x := s.offerRec m.who
  if (s.core (recCore m.who)).dead then .next s else
  match x.holder with
  | some h =>
    if x.st = .held ∧ h.home = m.home ∧ h.ev = m.ev ∧ h.attempt = m.attempt then .next (s.releaseRec m.who onYield) else .next s
  | none => .next s

/-- RESOLUTION_NOTICE (R258): a home that waits on the record claims again while it is enabled. -/
def execResolutionNotice (home : Nat) (ev : EvId) (r : RecRef) (s : State) : Out :=
  match s.evRec home ev with
  | some x =>
    if x.st = .claiming ∧ x.waitOn = some r then
      (if x.full then .next (((s.setEv home { x with waitOn := none, attempt := x.attempt + 1 }).claimNext home ev).touch home ev)
       else .next (s.disable home ev))
    else .next s
  | none => .next s

/-- A live offer's record still is that offer: OPEN for a sole event, HELD by this home otherwise. -/
def State.commits (s : State) (home : Nat) (r : EvRec) (o : LiveOffer) : Bool :=
  let x := s.offerRec o.who
  x.serial == o.serial && x.named.any (fun n => n.ev == r.ev && n.slot == o.slot) &&
    match x.st with
    | .opened => r.sole
    | .held => match x.holder with | some h => h.home == home && h.ev == r.ev | none => false
    | _ => false

/-- EVENT_COMMIT (R261, R269): every record becomes DONE, whatever has met it while it was held being discarded (R256, R262), and withdraws its
other offers; DEFER is 0 and OCC one more; phase 1
of the consistency work begins. A sole event whose record has ended meanwhile is enabled no longer. -/
def execEventCommit (home : Nat) (ev : EvId) (s : State) : Out :=
  match s.evRec home ev with
  | none => .next s
  | some r =>
    if r.st ≠ .committing then .next s
    else if !r.full || !(r.live.all fun p => s.commits home r p.2) then .next (s.setEv home { r with st := .idle })
    else
      let s := s.setEv home { r with live := [], occIn := r.live, held := [], waitOn := none, defer := 0, occ := r.occ + 1, parts := [] }
      let s := r.live.foldl (fun s p =>
        let w := p.2.who
        let s := s.modLive w fun x =>
          { x with st := .done p.2.slot, holder := none, benef := none, yielded := false, refused := none, expired := false, cancelReq := false,
                   noticeReq := false }
        (s.withdraw w (some p.2.slot) true).notify w) s
      let s := r.live.foldl (fun s p => s.phase1 ev.ctx r.regIn p.2.who) s
      .next ((s.postStep (.consistencyPhase2 home ev)).touch home ev)

/-- The children of a rank in the reduction tree (R101). -/
def treeKids (f n x : Nat) : List Nat := ((List.range f).map fun i => f * x + 1 + i).filter fun y => decide (y < n)
/-- Fan-in of a record (R252). -/
def EvRec.fan (r : EvRec) : Nat := 2 ^ (r.fanin + 1)

/-- A live offer is a course op's (R309). -/
def LiveOffer.ofCourse (o : LiveOffer) : Bool := match o.who with | .hw _ .course _ => true | _ => false

/-- CONSISTENCY_PHASE_2 (R268, R269): once every participant's stores are acknowledged and nothing of phase 1 waits for a port any more, what has had
to wait there is cleaned and flushed, and its crew's lines of the bound regions are dropped; then the data moves. Where a course op takes part, a participant's crew keeps no clean line: what it reads next is what the course has
copied (R388). -/
def execConsistencyPhase2 (home : Nat) (ev : EvId) (s : State) : Out :=
  match s.evRec home ev with
  | none => .next s
  | some r =>
    if r.st ≠ .committing then .next s
    else if r.occIn.any fun p => !s.acked p.2.who then .next (s.postStep (.consistencyPhase2 home ev))
    else if r.occIn.any fun p => s.phaseStuck ev.ctx r.regIn p.2.who then
      .next (s.postAt (crewPkg home) (s.time (crewPkg home) + 64) (.consistencyPhase2 home ev))
    else
      let s := r.occIn.foldl (fun s p => s.phase1 ev.ctx r.regIn p.2.who) s
      let s := r.occIn.foldl (fun s p => s.phase2 ev.ctx r.regIn p.2.who) s
      let s := if r.occIn.any fun p => p.2.ofCourse then r.occIn.foldl (fun s p => s.dropClean (recCore p.2.who).crewNo) s else s
      let s := s.touch home ev
      if r.kind = .reduce then
        .next (((List.range r.count).filter fun x => (treeKids r.fan r.count x).isEmpty).foldl
          (fun s x => s.postStep (.reduceNode home ev x)) s)
      else .next (s.postStep (.occurrenceData home ev))

/-- The SIZE bytes of a contribution (R265). -/
def State.contribBytes (s : State) (c : Contrib) (n : Nat) : List Byte :=
  match c with
  | .tile core base => s.mem.readBytes (sliceKey core base) n
  | .bytes bs => bs.take n ++ List.replicate (n - bs.length) 0
  | .none => List.replicate n 0

/-- The contribution of a rank. -/
def State.rankBytes (s : State) (r : EvRec) (x : Nat) : List Byte :=
  match r.occIn.find? fun p => p.1 == x with
  | some p => s.contribBytes p.2.contrib r.size
  | none => []

/-- One combination of R100 on elements as bits. -/
def reduceOp (op a b : Nat) : Nat :=
  match op with
  | 0 => (FFmt.addV .f32 false false (FFmt.value .f32 a) (FFmt.value .f32 b)).1
  | 1 => (FFmt.addV .bf16 false false (FFmt.value .bf16 a) (FFmt.value .bf16 b)).1
  | 2 => (a + b) % 2 ^ 32
  | 3 => if sextN a 32 < sextN b 32 then b else a
  | 4 => if sextN b 32 < sextN a 32 then b else a
  | 5 => a &&& b
  | 6 => a ||| b
  | _ => a ^^^ b

/-- Bytes combined elementwise; fuel: elements. -/
def combine (op : Nat) : Nat → List Byte → List Byte → List Byte
  | 0, _, _ => []
  | n + 1, a, b =>
    let w := if op = 1 then 2 else 4
    leBytes w (reduceOp op (leNat (a.take w)) (leNat (b.take w))) ++ combine op n (a.drop w) (b.drop w)

/-- REDUCE_NODE (R266): a rank's node, once its children's results are there; the root's result is the event's. -/
def execReduceNode (home : Nat) (ev : EvId) (rank : Nat) (s : State) : Out :=
  match s.evRec home ev with
  | none => .next s
  | some r =>
    let kids := treeKids r.fan r.count rank
    if r.st ≠ .committing ∨ r.parts.has rank ∨ kids.any (fun y => !r.parts.has y) then .next s
    else
      let n := r.size / (if r.op = 1 then 2 else 4)
      let v := kids.foldl (fun a y => combine r.op n a (r.parts.get [] y)) (s.rankBytes r rank)
      let s := (s.modEv home ev fun r => { r with parts := r.parts.set rank v }).touch home ev
      if rank = 0 then .next (s.postStep (.occurrenceData home ev))
      else
        let p := (rank - 1) / r.fan
        let ready := (treeKids r.fan r.count p).all fun y => y == rank || r.parts.has y
        .next (if ready then s.postStep (.reduceNode home ev p) else s)

/-- OCCURRENCE_DATA (R265): the bytes written at every destination, destination tiles READY, strands resumed; the home is free
for its next occurrence, or meets the cancellation that came meanwhile (R276). A machine-checked core's state stays as it is (R350). -/
def execOccurrenceData (home : Nat) (ev : EvId) (s : State) : Out :=
  match s.evRec home ev with
  | none => .next s
  | some r =>
    if r.st ≠ .committing then .next s
    else
      let bytes : List Byte := match r.kind with
        | .sync => []
        | .xfer => s.rankBytes r r.src
        | .gather => (List.range r.count).flatMap fun x => s.rankBytes r x
        | .reduce => r.parts.get [] 0
      let s := r.occIn.foldl (fun s p => match p.2.dest with
        | some (c, base) => if r.kind = .sync ∨ (s.core c).dead then s else s.writeBs (sliceKey c base) bytes
        | none => s) s
      let s := r.occIn.foldl (fun s p => match p.2.who with
        | .strand t =>
          let x := (s.strand t).offer
          if (s.core t.core).dead then s else
          s.modCore t.core fun k => (x.named.filter fun n => n.slot == p.2.slot).foldl (fun k n =>
            match bindDest n.bind with | some d => k.tileTo d tReady | none => k) k
        | .hw _ _ _ => s) s
      let s := r.occIn.foldl (fun s p => s.postOnce (.offerResult p.2.who)) s
      let s := s.modEv home ev fun r => { r with st := .idle, occIn := [], parts := [], regIn := [], cancelLater := false }
      let s := if r.cancelLater then s.cancelEv home ev else s.enable home ev (r.live.any fun p => p.2.poll)
      .next ((s.touch home ev).reap home ev)

/-- WITHDRAWAL (R257, R261): the rank is live no longer; a home that was enabled adds one to DEFER when another event's commit
took the rank, and returns to IDLE. -/
def execWithdrawal (home : Nat) (ev : EvId) (rank : Nat) (r : RecRef) (commit : Bool) (s : State) : Out :=
  match s.evRec home ev with
  | none => .next s
  | some x =>
    match x.live.find? fun p => p.1 == rank && p.2.who == r with
    | none => .next (s.reap home ev)
    | some _ =>
      let s := (s.touch home ev).disable home ev
      let s := s.modEv home ev fun y =>
        { y with live := y.live.del rank, defer := if commit && x.full then min 255 (y.defer + 1) else y.defer }
      .next (s.reap home ev)

/-- OFFER_REFUSAL reaches a record (R256); one of an offer that has ended is discarded. -/
def execOfferRefusal (r : RecRef) (ev : EvId) (m : RefusalMsg) (s : State) : Out :=
  if (s.offerRec r).serial == m.serial && (s.offerRec r).named.any fun n => n.ev == ev then .next (s.refuseRec r m.detail) else .next s

/-- RESERVATION_LAPSE (R259): a reservation that lapses returns the record to OPEN, with notices. -/
def execReservationLapse (r : RecRef) (ev : EvId) (tick : Nat) (s : State) : Out :=
  let x := s.offerRec r
  if (s.core (recCore r)).dead then .next s else
  match x.benef with
  | some b =>
    if x.st = .reserved ∧ x.until_ = tick ∧ b.ev = ev then
      .next ((s.setRec r { x with st := .opened, benef := none }).notify r)
    else .next s
  | none => .next s

/-- OFFER_DEADLINE (R262). -/
def execOfferDeadline (r : RecRef) (deadline : Nat) (s : State) : Out :=
  if (s.offerRec r).deadline = some deadline then .next (s.meetRec r .timedout) else .next s

/-- The order channel of a strand's completion notices: as they were posted (R194). -/
def noticeChan (t : StrandId) : Nat := chanDown (.strand t) (2 ^ 25 - 1)

/-- COMPLETION_NOTICE (R194, R262, R328): queued at its strand; an offer of a strand that could take the upcall ends NOTICED. A
forwarding entry relays a notice to a strand that has moved (R333). -/
def execCompletionNotice (t : StrandId) (n : Notice) (s : State) : Out :=
  if (s.core t.core).dead then .next s
  else if (s.strand t).mode = .free then
    match (s.core t.core).forwards.find? fun f => f.old == t.gid && decide (s.time t.core.pkg < f.until_) with
    | some f => .next (s.postStep (.completionNotice (strandOfGid f.new_) n))
    | none => .next s
  else
    let s0 := s
    let s := s.modStrand t fun x => { x with notices := x.notices ++ [n] }
    let x := s.strand t
    let inNext := x.waitsNet || x.waitsAm
    if !inNext && (x.offer.st == .idle || x.mode == .taken) then .next s
    else
      let act (s : State) : Out :=
        if inNext then .next ((s.modStrand t fun x => { x with pc := nextPc x.pc, mode := .ready, issued := none, hold := .none }).deliverNotice t)
        else .next (s.meetRec (.strand t) .noticed)
      match s.inUse t with
      | (s, .ok true) => .next s
      | (s, .ok false) => act s
      | (s, .error d) => 
        if isWait d then
          let s := s0.waited t d
          .next { s with agenda := { step := .completionNotice t n, chan := noticeChan t } :: s.agenda }
        else act s

/-! ## Timers (R273) -/

/-- A number that no timer of a core and no record of one has. -/
def State.newTimer (s : State) (c : CoreId) : Nat :=
  ((s.crew c.crewNo).timers.map fun t => t.n + 1).foldl max ((s.core c).newHw .timer)

/-- evtimer (R273). -/
def execEvtimer (g : Guard) (abs per : Bool) (e : EReg) (n t : Reg) (s : State) : Out :=
  issueU (.evtimer g abs per e n t) g (fun s =>
    let c := s.cur.core
    let name : BitVec 32 := (s.rg n).setWidth 32
    let h := mkHandle name .core .sync false 1
    let ev := s.evIdOf s.ctx c h
    let home := c.crewNo
    if per ∧ s.rg t = 0 then .fault s (s.illegal 5 62)
    else if (s.evRec home ev).any EvRec.dying then s.at_ 0 []
    else if (s.usable home ev).isSome then .fault s (s.fault 0x82)
    else if 64 ≤ (s.crew home).timers.length then .fault s (s.fault 0x85)
    else
      let s := (s.walkArea home c s.ctx).modCrew home fun k => k.freeRecs fun r => r.ev == ev
      match s.enterRec home (mkRec ev .sync false 2 0 0 0 0 0 0) with
      | .error d => .fault s (s.fault d)
      | .ok s =>
        let due := if abs then (s.rg t).toNat else (s.time c.pkg + (s.rg t).toNat) % 2 ^ 64
        let tm : Timer := ⟨ev, c, if per then some (s.rg t).toNat else none, due, s.newTimer c⟩
        let s := s.modCrew home fun k => { k with timers := k.timers ++ [tm] }
        let s := s.postAt c.pkg due (.timerExpiry home ev)
        .ok (s.modMe fun x => x.we e h)) s

/-- TIMER_EXPIRY (R273): the timer offers as rank 0, or counts a miss while its previous offer is live; a periodic one is armed
again. An offer that has ended and whose record stands at the interface still is another record than the new one. -/
def execTimerExpiry (crew : Nat) (ev : EvId) (s : State) : Out :=
  match (s.crew crew).timers.find? fun t => t.ev == ev with
  | none => .next s
  | some t =>
    if s.time t.core.pkg < t.expiry then .next s
    else
      let dead := (s.core t.core).dead
      let live := match (s.offerRec (.hw t.core .timer t.n)).st with | .opened | .held | .reserved => true | _ => false
      let n := if (s.core t.core).hwrecs.any fun h => h.cls == .timer && h.n == t.n then s.newTimer t.core else t.n
      let s := if dead then s else if live then (s.modEv crew ev fun r => { r with missed := min 255 (r.missed + 1) }).touch crew ev
        else (s.modCrew crew fun k => { k with timers := k.timers.map fun x => if x.ev = ev then { x with n := n } else x }).hwOffer t.core .timer n ev.ctx (mkHandle ev.name .core .sync false 0) 0 .none 0 none
      match t.period with
      | none => .next (s.modCrew crew fun k => { k with timers := k.timers.filter fun x => x.ev != ev })
      | some p =>
        let due := t.expiry + p
        let s := s.modCrew crew fun k => { k with timers := k.timers.map fun x => if x.ev = ev then { x with expiry := due } else x }
        .next (s.postAt t.core.pkg due (.timerExpiry crew ev))

end Sys2Proof.Machine
end

