-- ==== Sys2Proof/Machine/System.lean ====
section
/-! DEFINITION. Meanings of the system instructions, OPs 0xC0 to 0xCE, and of the steps of traps, moves, the batten network and the
system-call ports (R318 to R354, R378, R379). -/

namespace Sys2Proof.Machine

/-! ## Traps and returns (R323 to R327, R346) -/

/-- trap (R346): cause 13, as an upcall with U in a user strand, otherwise to the micro-kernel. -/
def execTrap (g : Guard) (u : Bool) (code : BitVec 16) (s : State) : Out :=
  issueU (.trap g u code) g (fun s =>
    let pc := s.me.pc
    .placed (s.raise s.cur { cause := 13, fpc := pc, rpc := nextPc pc, info0 := code.setWidth 64 } u)) s

/-- The report that a trap record's words hold (R321, R322). -/
def reportOf (ws : List Word) : Report :=
  let w := (ws.getD 2 0).toNat
  { cause := bitsN w 7 0, detail := bitsN w 15 8, inner := bitsN w 39 32, arg := bitsN w 31 24, ctx := bitsN w 63 48,
    rpc := ws.getD 0 0, fpc := ws.getD 1 0, info0 := ws.getD 3 0, info1 := ws.getD 4 0 }

/-- What eret does to a trapped slot: resumed at RPC, reflected as an upcall, or left; an error is the fault of reading its record. -/
def State.eretSlot (s : State) (slot : Nat) (resume reflect : Bool) : Except (State × Nat) State :=
  let c := s.cur.core
  let t : StrandId := ⟨c, slot⟩
  if (s.strand t).mode ≠ .trapped ∨ (!resume ∧ !reflect) then .ok s
  else match s.readWords (s.asker s.cur) 0 true (s.myCore.record slot) 5 with
    | (s, .error d) => .error (s, d)
    | (s, .ok ws) =>
      let r := { reportOf ws with slot := slot, strand := t.gid }
      if resume then .ok (s.modStrand t fun x => { x with mode := .ready, pc := r.rpc, checkT := false, hold := .none, issued := none })
      else .ok (s.upcall t r)

/-- Reports that wait become deliverable (R323). -/
def State.tellReports (s : State) (c : CoreId) : State := if (s.core c).reports.isEmpty then s else s.postOnce (.trapDelivery c)

/-- eret (R324). DEDUCED: TDIS clear, a check of the state, is ILL_OPERAND with ARG 0 after check 10 and under a true guard (R70; logs 38 and 40). -/
def execEret (g : Guard) (slot : BitVec 3) (resume reflect : Bool) (s : State) : Out :=
  issueS (.eret g slot resume reflect) g (fun s =>
    let c := s.cur.core
    if !s.myCore.tdis then .fault s (s.illegal 5 0)
    else match s.eretSlot slot.toNat resume reflect with
      | .error (s, d) => .fault s (s.faultA d (s.myCore.record slot.toNat))
      | .ok s =>
        match s.readVa (s.asker s.cur) 0 true (s.myCore.record 0 + 0x78) 8 with
        | (s, .error d) => .fault s (s.faultA d (s.myCore.record 0 + 0x78))
        | (s, .ok kpc) => .jump ((s.modMyCore fun k => { k with tdis := false }).tellReports c) (BitVec.ofNat 64 kpc) false) s

/-- upret (R327). -/
def execUpret (g : Guard) (s : State) : Out :=
  issueU (.upret g) g (fun s =>
    let c := s.cur.core
    let a := s.me.recAddr
    match s.readWords (s.asker s.cur) s.ctx s.super a 8 with
    | (s, .error d) => .fault s (s.faultA d a)
    | (s, .ok ws) =>
      if (ws.getD 7 0).toNat % 2 = 0 then .fault s (s.fault 0xA3)
      else match s.writeVa (s.asker s.cur) s.ctx s.super (a + 0x38) 8 0 with
        | (s, some d) => .fault s (s.faultA d a)
        | (s, none) => .jump ((s.wg 62 (ws.getD 5 0)).wg 63 (ws.getD 6 0)) (ws.getD 0 0) false) s

/-- The place of a report in the order of R323: user slots ascending, crew reports, batten reports. -/
def Report.place (r : Report) : Nat := if r.slot ≠ 0 then r.slot else if r.cause = 18 then 9 else 8

/-- The report that is delivered next. -/
def nextReport : List Report → Option Report
  | [] => none
  | r :: l => match nextReport l with
    | some q => if q.place < r.place then some q else some r
    | none => some r

/-- TRAP_DELIVERY (R323): while TDIS is clear and slot 0 stands between two instructions. -/
def execTrapDelivery (c : CoreId) (s : State) : Out :=
  let k := s.core c
  let t := k.strand 0
  match nextReport k.reports with
  | none => .next s
  | some r =>
    if k.tdis || k.dead || k.halted || k.retired || (s.pkg c.pkg).held3 then .next s
    else if t.issued.isSome || t.taking.isSome || t.mode != .ready then .next (s.postOnce (.trapDelivery c))
    else match (s.modCore c fun k => { k with reports := k.reports.erase r }).enterTrap (s.partOf c 0) c r t.pc with
      | .ok s => .next (s.partMet c 0 0)
      | .error d => .next ((s.partMet c 0 d).postOnce (.trapDelivery c))

/-! ## Control registers (R54 to R58, R340) -/

/-- DEVID (R57): the stepping is 1 or more. -/
def devid : Word := BitVec.ofNat 64 (0x4858 * 2 ^ 48 + 0x7102 * 2 ^ 32 + max 1 Config.stepping.toNat * 2 ^ 24)

/-- A control register's value for the executing strand; none where R55 lists no such register. -/
def State.csr (s : State) (ctl : Nat) : Option Word :=
  let t := s.me
  let k := s.myCore
  let w := s.crew s.cur.core.crewNo
  match ctl with
  | 0x0000 => some (BitVec.ofNat 64 s.cur.gid)
  | 0x0001 => some (BitVec.ofNat 64 s.ctx)
  | 0x0002 => some (t.role.setWidth 64)
  | 0x0003 => some t.sticky
  | 0x0004 => some t.upvec
  | 0x0005 => some t.uprec
  | 0x0006 => some (if s.super then 0 else BitVec.ofNat 64 (t.left.toNat + t.live.toNat * 2 ^ 16))
  | 0x0100 => some (s.pkg s.cur.core.pkg).time
  | 0x0101 => some k.cycle
  | 0x0102 => some devid
  | 0x0200 => some k.rulebase
  | 0x0201 => some k.shellbase
  | 0x0202 => some k.handlertab
  | 0x0203 => some k.spillbase
  | 0x0204 => some k.evarea
  | 0x8000 => some k.trapvec
  | 0x8001 => some k.traprec
  | 0x8002 => some t.scratch
  | 0x8100 => some (w.lead.setWidth 64)
  | 0x8101 => some w.faultWord
  | _ => none

/-- The writable bits of a register for a mode; none where the register is read-only there (R55, R56). DESIGN CHOICE: the reserved code 3 written to
ROLE is stored (log 45). -/
def csrMask (super : Bool) (ctl : Nat) : Option Word :=
  match ctl with
  | 0x0003 => some 0xF1F
  | 0x0004 => some (BitVec.allOnes 64)
  | 0x0005 => some (~~~(0x3F#64))
  | 0x0201 => some (~~~(0x3FF#64))
  | 0x0002 => if super then some 3 else none
  | 0x0202 | 0x0203 | 0x0204 | 0x8000 | 0x8002 => if super then some (BitVec.allOnes 64) else none
  | 0x8001 => if super then some (~~~(0x3F#64)) else none
  | 0x8100 => if super then some 0xF else none
  | 0x8101 => if super then some 1 else none
  | _ => none

/-- A register set to a value whose writable bits have been merged; a write of CREWLEAD is told to the crew (R337). -/
def State.csrSet (s : State) (ctl : Nat) (v : Word) : State :=
  let crew := s.cur.core.crewNo
  match ctl with
  | 0x0002 => s.modMe fun t => { t with role := v.setWidth 2 }
  | 0x0003 => s.modMe fun t => { t with sticky := v }
  | 0x0004 => s.modMe fun t => { t with upvec := v }
  | 0x0005 => s.modMe fun t => { t with uprec := v }
  | 0x0201 => s.modMyCore fun k => { k with shellbase := v }
  | 0x0202 => s.modMyCore fun k => { k with handlertab := v }
  | 0x0203 => s.modMyCore fun k => { k with spillbase := v }
  | 0x0204 =>
    let s := s.modMyCore fun k => { k with evarea := v }
    { s with crews := s.crews.map fun w => (w.1, { w.2 with areas := w.2.areas.del s.myCore.ctx }) }
  | 0x8000 => s.modMyCore fun k => { k with trapvec := v }
  | 0x8001 => s.modMyCore fun k => { k with traprec := v }
  | 0x8002 => s.modMe fun t => { t with scratch := v }
  | 0x8100 => (s.modCrew crew fun w => { w with lead := v.setWidth 4 }).postStep (.crewleadWrite crew (v.setWidth 4))
  | 0x8101 => s.modCrew crew fun w => { w with dropped := v.getLsbD 0 }
  | _ => s

/-- Check 11 of R69. -/
def State.ctlBad (s : State) (ctl : Nat) (wr : Bool) : Bool :=
  (s.csr ctl).isNone || (decide (0x8000 ≤ ctl) && !s.super) || (wr && (csrMask s.super ctl).isNone)

/-- A control-register instruction: check 11 whatever the guard (R70), then its effect. -/
def issueCtl (i : Instr) (g : Guard) (ctl : BitVec 16) (wr : Bool) (body : State → Res) (s : State) : Out :=
  if s.ctlBad ctl.toNat wr then .next (s.charge.raiseMe (s.illegal 7 0)) else issueU i g body s

/-- The source of a write (R340). -/
def State.csrSrc (s : State) : CsrSrc → Word
  | .reg a => s.rg a
  | .imm i => i.setWidth 64

/-- A register read and written: f gives the new value of the writable bits from the old value and the source. -/
def State.csrRmw (s : State) (d : Reg) (ctl : Nat) (v : CsrSrc) (f : Word → Word → Word) : Res :=
  let old := (s.csr ctl).getD 0
  let m := (csrMask s.super ctl).getD 0
  let x := f old (s.csrSrc v)
  .ok ((s.csrSet ctl ((old &&& ~~~m) ||| (x &&& m))).wg d old)

/-- csrr (R340). -/
def execCsrr (g : Guard) (d : Reg) (ctl : BitVec 16) (s : State) : Out :=
  issueCtl (.csrr g d ctl) g ctl false (fun s => .ok (s.wg d ((s.csr ctl.toNat).getD 0))) s
/-- csrw (R340). -/
def execCsrw (g : Guard) (d : Reg) (ctl : BitVec 16) (v : CsrSrc) (s : State) : Out :=
  issueCtl (.csrw g d ctl v) g ctl true (fun s => s.csrRmw d ctl.toNat v fun _ x => x) s
/-- csrs (R340). -/
def execCsrs (g : Guard) (d : Reg) (ctl : BitVec 16) (v : CsrSrc) (s : State) : Out :=
  issueCtl (.csrs g d ctl v) g ctl true (fun s => s.csrRmw d ctl.toNat v fun old x => old ||| x) s
/-- csrc (R340). -/
def execCsrc (g : Guard) (d : Reg) (ctl : BitVec 16) (v : CsrSrc) (s : State) : Out :=
  issueCtl (.csrc g d ctl v) g ctl true (fun s => s.csrRmw d ctl.toNat v fun old x => old &&& ~~~x) s

/-- CREWLEAD_WRITE (R13, R337): the reports that waited for a lead become deliverable at the one the register names. -/
def execCrewleadWrite (crew : Nat) (v : BitVec 4) (s : State) : Out :=
  let w := s.crew crew
  let lead := crewCore crew v.toNat
  if w.lead ≠ v ∨ (s.core lead).retired then .next s
  else .next (w.waiting.foldl (fun s e => s.report lead (e.report lead)) (s.modCrew crew fun w => { w with waiting := [] }))

/-! ## Translations (R339) -/

/-- The entry matches a tlbi. -/
def tlbiHits (mode : TlbiMode) (va ctx : Nat) (e : TlbE) : Bool :=
  match mode with
  | .page => e.ctx == ctx && e.base == bitsN va 56 0 / 2 ^ pageBits e.level
  | .ctx => e.ctx == ctx
  | .all => true

/-- tlbi (R339): walks are atomic here, so none is in flight. -/
def execTlbi (g : Guard) (mode : TlbiMode) (wide : Bool) (a b : Reg) (s : State) : Out :=
  issueS (.tlbi g mode wide a b) g (fun s =>
    let c := s.cur.core
    let keep (e : TlbE) : Bool := !tlbiHits mode (s.rg a).toNat (bitsN (s.rg b).toNat 15 0) e
    let inUnit (crew : Nat) : Bool := if wide then crewPkg crew == c.pkg else crew == c.crewNo
    .ok { s with
      crews := s.crews.map fun w => if inUnit w.1 then (w.1, { w.2 with tlb := w.2.tlb.filter keep, owner := w.2.owner.filter keep }) else w,
      cores := s.cores.map fun k => if inUnit (coreOfKey k.1).crewNo then
        (k.1, { k.2 with itlb := k.2.itlb.filter keep, dtlb := k.2.dtlb.filter keep }) else k }) s

/-! ## Replay (R194, R338) -/

/-- A completion notice posted to a strand. -/
def State.postNotice (s : State) (t : StrandId) (n : Notice) : State := s.post { step := .completionNotice t n, chan := noticeChan t }

/-- A parked access leaves its park slot. -/
def State.unparkSlot (s : State) (t : StrandId) (i : Nat) : State := s.modStrand t fun x => { x with parks := x.parks.del i }

/-- One parked access performed again (R194): the state, and 0 completed, 1 parked again, 2 ended by another fault. An error says that it has to
wait: for its strand's earlier stores and what its core wrote where it carries .rel (R201), at the interface, or while RETRY answers it for less than
10,000 ticks (R188). -/
def State.replayOne (s : State) (m : Mark) (t : StrandId) (i : Nat) (a : Park) : Except Nat (State × Nat) :=
  let ctx := s.ctxOf t
  let ended (s : State) (d : Nat) (v : Word) : State := (s.unparkSlot t i).postNotice t ⟨i, d, v, a.fpc⟩
  if a.kind.rel && ((s.strand t).unacked != 0 || (a.wide && s.stuckWrites t.core)) then .error dWait
  else match s.locFor ⟨t.core, m⟩ ctx false a.kind.need a.addr with
  | (s, .error d) =>
    if isWait d then .error d
    else if d = dMUNMAP then
      let (s, rec_) := s.recordPark t ctx a
      .ok (s.modStrand t fun x => { x with parks := x.parks.set i { a with inBuf := rec_ } }, 1)
    else .ok (ended s d 0, 2)
  | (s, .ok loc) =>
    let s := if a.kind.rel && a.wide then s.cleanWrittenBy t.core.crewNo t.core.local_ else s
    let (s, v) := s.perform t.core t.slot ctx a loc none
    .ok (ended s 0 (v.getD 0), 0)

/-- A crew's parked accesses in ascending strand global id and park slot: each as 4 times the id, and the slot. -/
def State.parkedOf (s : State) (crew : Nat) : List Nat :=
  (List.range 4).flatMap fun x => (List.range 4).flatMap fun y => (List.range 8).flatMap fun i =>
    let t : StrandId := ⟨crewCore crew (4 * y + x), i⟩
    (s.strand t).parks.map fun p => 4 * t.gid + p.1

/-- A replay in hand, with what the access in hand has met (the line and the tick of its RETRY) and its three counts: the accesses left are
performed in turn, and the strand looks again where one has to wait. -/
def State.replayAll (s : State) (d : Reg) (m : Mark) (n0 n1 n2 : Nat) : List Nat → Res
  | [] =>
    let s := s.modCrew s.cur.core.crewNo fun w => { w with replays := w.replays.filter fun x => x != s.cur }
    .ok (s.wg d (BitVec.ofNat 64 (n0 % 2 ^ 16 + n1 % 2 ^ 16 * 2 ^ 16 + n2 % 2 ^ 16 * 2 ^ 32)))
  | q :: r =>
    let t := strandOfGid (q / 4)
    match (s.strand t).parks.find? fun p => p.1 == q % 4 with
    | none => s.replayAll d none n0 n1 n2 r
    | some (i, a) =>
      if (s.core t.core).dead then s.replayAll d none n0 n1 n2 r
      else match s.replayOne m t i a with
      | .error e =>
        let (ln, tick) := (markAfter m (s.time t.core.pkg) e).getD (0, 0)
        s.at_ 1 (ln :: tick :: n0 :: n1 :: n2 :: q :: r)
      | .ok (s, k) =>
        s.replayAll d none (n0 + if k = 0 then 1 else 0) (n1 + if k = 1 then 1 else 0) (n2 + if k = 2 then 1 else 0) r

/-- A strand is within a replay: it has issued one, on a core that has not stopped for good. -/
def State.inReplay (s : State) (t : StrandId) : Bool :=
  !(s.core t.core).dead && !(s.core t.core).retired && match (s.strand t).issued with | some (.replay _ _) => true | _ => false

/-- replay (R338): the fault buffer cleared with its undelivered reports, and the crew's parked accesses performed again. It waits for one of the
crew that began earlier. -/
def execReplay (g : Guard) (d : Reg) (s : State) : Out :=
  issueS (.replay g d) g (fun s =>
    let crew := s.cur.core.crewNo
    match s.me.hold with
    | .phase 1 (ln :: tick :: n0 :: n1 :: n2 :: l) => s.replayAll d (if ln = 0 then none else some (ln, tick)) n0 n1 n2 l
    | _ =>
      let before := (s.crew crew).replays.filter fun t => t != s.cur && s.inReplay t
      let mine := (s.crew crew).replays.contains s.cur
      let ahead := if mine then ((s.crew crew).replays.takeWhile fun t => t != s.cur).any s.inReplay else !before.isEmpty
      let s := if mine then s else s.modCrew crew fun w => { w with replays := before ++ [s.cur] }
      if ahead then s.at_ 2 []
      else
        let ps := s.parkedOf crew
        let s := s.modCrew crew fun w => { w with fbuf := [], dropped := false, waiting := [] }
        let s : State := { s with cores := s.cores.map fun k => if (coreOfKey k.1).crewNo = crew then
          (k.1, { k.2 with reports := k.2.reports.filter fun r => r.cause != 16 }) else k }
        s.replayAll d none 0 0 0 ps) s

/-! ## Moves (R332 to R335) -/

/-- A strand waits in an offer. -/
def Strand.inOffer (t : Strand) : Bool := t.mode == .waiting && t.offer.st != .idle

/-- A strand stands where smove takes it at once: at a yield point, in amnext or nnext, or stalled at issue (R332). -/
def Strand.takeable (t : Strand) : Bool := (t.mode == .ready && (t.stalled || t.atYield)) || t.waitsAm || t.waitsNet

/-- A smove asks for a strand (R332, R334): taken at once where it stands so, one that waits in amnext or nnext with the PC of the instruction
after it (R106); in an offer, a move treats it as though a notice had arrived and a hold leaves its record; elsewhere the strand's next yield
point takes it. -/
def State.askStrand (s : State) (t : StrandId) (move : Bool) : State :=
  let x := s.strand t
  if x.mode = .taken then
    (if move && x.issued.isSome then (s.modStrand t fun x => { x with mode := .waiting, taker := some true }).meetRec (.strand t) .noticed
     else s)
  else if x.takeable then s.modStrand t fun x =>
    { x with pc := if x.mode = .waiting then nextPc x.pc else x.pc, mode := .taken, checkT := false, taker := none, hold := .none, issued := none }
  else if x.inOffer then
    (if move then (s.modStrand t fun x => { x with taker := some true }).meetRec (.strand t) .noticed
     else s.modStrand t fun x => { x with mode := .taken, checkT := false, taker := none })
  else s.modStrand t fun x => { x with taker := some move }

/-- A taken strand ready again, or in its offer again. -/
def State.letGo (s : State) (t : StrandId) : State :=
  s.modStrand t fun x => { x with mode := if x.issued.isSome then .waiting else .ready, taker := none }

/-- A strand is held by smove.hold, and no smove.release has let it go (R332). -/
def Strand.kept_ (x : Strand) : Bool := x.mode == .taken && x.taker == some false
/-- A strand whose move comes to nothing: one that smove.hold keeps stays as it was, another is let go (R332). -/
def State.letBack (s : State) (t : StrandId) (held : Bool) : State :=
  if held then s.modStrand t fun x => { x with mode := .taken, taker := some false } else s.letGo t

/-- A strand that no smove waits for any more. -/
def State.untake (s : State) (t : StrandId) : State :=
  if (s.strand t).taker.isSome then s.modStrand t fun x => { x with taker := none } else s

/-- The core a smove's target address names (R332). -/
def State.moveTarget (s : State) (a : Word) : Option CoreId :=
  if a.getLsbD 63 && mformOk a then (s.sliceOf s.cur.core a).map Prod.fst else none

/-- The status of a smove once its strand is taken or trapped: the first failure in the order of R332, or 0. -/
def State.moveStatus (s : State) (t : StrandId) (dst : Option CoreId) (image : Bool) : Nat :=
  let x := s.strand t
  let k := s.core t.core
  let owns := match k.seq with | .capturing i | .looping i _ _ => i == t.slot | .idle => false
  let busy := if owns || !x.parks.isEmpty || x.mode == .trapped then 4 else 0
  if image then busy
  else match dst with
    | none => 3
    | some d =>
      let kd := s.core d
      if kd.freeSlot.isNone then 2
      else if d = t.core ∨ kd.retired ∨ !s.pkgIn t.core.pkg d.pkg ∨ 200 ≤ d.row ∨ (kd.ctx ≠ 0 ∧ kd.ctx ≠ k.ctx ∧ kd.hasWork) then 3
      else busy

/-- A strand has engine commands to complete, stores to be acknowledged or notices on their way, which go with its image (R328, R332). -/
def State.strandBusy (s : State) (t : StrandId) : Bool :=
  let k := s.core t.core
  let mine (c : Cmd) : Bool := c.slot == t.slot
  k.vbuf.any mine || k.vcur.any mine || k.mq.any mine || k.mcur.any mine || k.copies.any (fun c => c.slot == t.slot)
    || (s.strand t).unacked != 0 || s.agenda.any fun p => match p.step with | .completionNotice x _ => x == t | _ => false

/-- What a strand keeps beside its image goes with it: upcalls not yet taken and dissemination notices; notices on their way are
addressed anew (R332, R333). -/
def State.moved (s : State) (t : StrandId) (gid : Nat) : State :=
  let x := s.strand t
  let n := strandOfGid gid
  let s := s.modStrand n fun y => { y with upcalls := y.upcalls ++ x.upcalls, kept := y.kept ++ x.kept, parity := y.parity ++ x.parity }
  let s : State := { s with agenda := s.agenda.map fun p => match p.step with
    | .completionNotice t' v => if t' = t then { p with step := .completionNotice n v, chan := noticeChan n } else p
    | _ => p }
  s.leave t gid

/-- A strand's old slot freed after its image was written to memory. -/
def State.toImage (s : State) (t : StrandId) : State :=
  let s := (s.renamed t.gid none).modCore t.core fun k => k.disown t.slot
  (s.setStrand t {}).takeQueued t.core t.slot

/-- Something that a move of a strand has to send waits for a port: its .c entries, or what its core wrote (R204, R333). -/
def State.moveStuck (s : State) (t : StrandId) : Bool :=
  s.stuckWrites t.core || s.stuckCombs t.core.crewNo (fenceComb t .dom)

/-- A taken strand that may move: its engine commands and stores are done, its entries are flushed and its core's lines cleaned, then
its image is written or sent (R332, R333). -/
def State.moveOut (s : State) (t : StrandId) (a : Word) (d : Reg) (image : Bool) (dst : Option CoreId) (held : Bool) : Res :=
  let c := t.core
  let s := if held then s.letBack t true else s
  if s.strandBusy t || s.moveStuck t then s.at_ 60 [if held then 1 else 0]
  else
    let s := (s.flushOwn t).cleanWrittenBy c.crewNo c.local_
    let ws := imageOf (s.strand t) (s.core c).ctx s.freeN
    if image then
      if !mformOk a then .fault (s.letBack t held) (s.faultA dMFORM a)
      else if a.toNat % 64 ≠ 0 then .fault (s.letBack t held) (s.faultA dMALIGN a)
      else match s.writeWords (s.asker s.cur) 0 true a ws with
        | (s, some e) => .fault (s.letBack t held) (s.faultA e a)
        | (s, none) => .ok ((s.toImage t).fresh.wg d 0)
    else match dst with
      | some x => s.fresh.ask x 0 fun tag => .strandStartArrival (s.moveMsg t x tag)
      | none => .ok ((s.letBack t held).wg d 3)

/-- smove (R332); a strand that smove.hold keeps and that does not move is kept on. -/
def execSmove (g : Guard) (d a : Reg) (slot : BitVec 3) (image : Bool) (s : State) : Out :=
  issueS (.smove g d a slot image) g (fun s =>
    let t : StrandId := ⟨s.cur.core, slot.toNat⟩
    match s.me.hold with
    | .wait _ => .hold s
    | .got r =>
      let kind := (r.data.getD 0 0).toNat
      let v := (r.data.getD 1 0).toNat
      let held := (s.strand t).kept_
      if r.malformed then .fault (s.letBack t held) (s.nackFault r)
      else if r.status = .ack ∧ kind = 0 then .ok ((s.moved t v).wg d 0)
      else .ok ((s.letBack t held).wg d (if r.status = .ack ∧ v = 2 then 2 else 3))
    | h =>
      let x := s.strand t
      let held := match h with | .phase _ [n] => n == 1 | _ => x.kept_
      let dst := s.moveTarget (s.rg a)
      if x.mode = .free then .ok (s.wg d 1)
      else if x.mode = .trapped ∨ (x.takeable ∧ s.moveStatus t dst image ≠ 0) then
        .ok ((s.untake t).wg d (BitVec.ofNat 64 (s.moveStatus t dst image)))
      else
        let s := s.askStrand t true
        if (s.strand t).mode = .taken ∧ (s.strand t).issued.isNone then
          let st := s.moveStatus t dst image
          if st ≠ 0 then .ok ((s.letBack t held).wg d (BitVec.ofNat 64 st)) else s.moveOut t (s.rg a) d image dst held
        else s.at_ 60 [if held then 1 else 0]) s

/-- smove.hold (R332). -/
def execSmoveHold (g : Guard) (d : Reg) (slot : BitVec 3) (s : State) : Out :=
  issueS (.smoveHold g d slot) g (fun s =>
    let t : StrandId := ⟨s.cur.core, slot.toNat⟩
    let x := s.strand t
    let first := s.me.hold == .none
    if x.mode = .free then .ok (s.wg d 1)
    else if x.mode = .trapped then .ok ((s.untake t).wg d 4)
    else if first ∧ x.mode = .taken then .ok (s.wg d 4)
    else
      let s := s.askStrand t false
      if (s.strand t).mode = .taken then .ok ((s.modStrand t fun x => { x with taker := some false }).wg d 0) else s.at_ 62 []) s

/-- smove.release (R332): a strand held in an offer is in it again, and a queued notice meets its record (R328). -/
def execSmoveRelease (g : Guard) (d : Reg) (slot : BitVec 3) (s : State) : Out :=
  issueS (.smoveRelease g d slot) g (fun s =>
    let t : StrandId := ⟨s.cur.core, slot.toNat⟩
    if (s.strand t).mode ≠ .taken then .ok (s.wg d 1)
    else
      let s := (s.letGo t).wg d 0
      let x := s.strand t
      if !x.inOffer || x.notices.isEmpty then .ok s
      else match s.inUse t with
        | (s, .ok true) => .ok s
        | (s, .ok false) => .ok (s.meetRec (.strand t) .noticed)
        | (s, .error e) => if isWait e then .fault s (s.fault e) else .ok (s.meetRec (.strand t) .noticed)) s

/-! ## Starts and ends (R330, R331) -/

/-- sstart's result (R330). -/
def startResult (kind v : Nat) : Word :=
  BitVec.ofNat 64 (kind % 4 * 2 ^ 62 + (if kind = 2 then v % 256 * 2 ^ 32 else v % 2 ^ 32))

/-- sstart (R330). -/
def execSstart (g : Guard) (d a : Reg) (place : Place) (what : StartWhat) (s : State) : Out :=
  issueS (.sstart g d a place what) g (fun s =>
    let c := s.cur.core
    match s.me.hold with
    | .wait _ => .hold s
    | .got r =>
      match r.status with
      | .ack => .ok (s.wg d (startResult (r.data.getD 0 0).toNat (r.data.getD 1 0).toNat))
      | .nack => .fault s (s.nackFault r)
      | _ => .fault s (s.fault 0x91)
    | _ =>
      let own := s.myCore.ctx
      let (dst, unit, ctx) : CoreId × Option Scope × Nat := match place with
        | .here x => (c, none, if x = 0 then own else x.toNat)
        | .named p x y => (⟨p.toNat, x.toNat, y.toNat⟩, none, own)
        | .crew => (c, some .crew, own)
        | .reach => (c, some .reach, own)
        | .pkg => (c, some .pkg, own)
      let here := match place with | .here _ => true | _ => false
      let go (s : State) (pc : Word) (role deadline : Nat) (image : Option (List Word)) : Res :=
        if !s.pkgIn c.pkg dst.pkg || decide (200 ≤ dst.row) then .ok (s.wg d (startResult 2 1))
        else s.ask dst 0 fun tag =>
          let m : StartMsg := { hdr := ⟨dst, c, s.cur.slot, tag, ctx, {}⟩, unit := unit, super0 := here, moved := none, pc := pc, role := role,
                                deadline := deadline, image := image }
          if unit.isSome then .placementDescent c m 0 else .strandStartArrival m
      match what with
      | .entry role deadline => go s (s.rg a) role.toNat deadline.toNat none
      | .image =>
        let at_ := s.rg a
        if mformOk at_ && at_.toNat % 64 ≠ 0 then .fault s (s.faultA dMALIGN at_)
        else match s.readWords (s.asker s.cur) 0 true at_ 128 with
          | (s, .error e) => .fault s (s.faultA e at_)
          | (s, .ok ws) => go s 0 0 0 (some ws)) s

/-- The neighbours of a core by ascending column, then row. -/
def neighbours (c : CoreId) : List CoreId :=
  let l := [neighbour c .pcol, neighbour c .mcol, neighbour c .prow, neighbour c .mrow]
  let less (a b : CoreId) : Bool := decide (a.col < b.col) || (a.col == b.col && decide (a.row < b.row))
  l.foldl (fun acc x => (acc.filter fun y => less y x) ++ [x] ++ acc.filter fun y => !less y x) []

/-- The neighbour to which a start moves: the least figure below the core's own (R330). -/
def State.descend (s : State) (c : CoreId) (sc : Scope) : Option CoreId :=
  let k := s.core c
  let fig (d : CoreId) : Option Nat := if k.loadFig.has d.key then some (k.loadFig.get (0, 0) d.key).1 else none
  let ok := (neighbours c).filter fun d => s.coreInUnit c sc d && (match fig d with | some f => decide (f < k.load) | none => false)
  match ok with
  | [] => none
  | d :: l => some (l.foldl (fun b x => if (fig x).getD 0 < (fig b).getD 0 then x else b) d)

/-- PLACEMENT_DESCENT (R330): RETRY of a machine-checked core (R350); otherwise the start moves on, or the core it has reached is its target. -/
def execPlacementDescent (at_ : CoreId) (m : StartMsg) (moves : Nat) (s : State) : Out :=
  s.receive { m.hdr with target := at_ } [] <|
  let stop : Out := .next (s.postStep (.strandStartArrival { m with hdr := { m.hdr with target := at_ }, unit := none }))
  match m.unit with
  | none => stop
  | some sc =>
    if 64 ≤ moves then stop
    else match s.descend at_ sc with
      | none => stop
      | some d => .next (s.send at_ d (.placementDescent d m (moves + 1)))

/-- STRAND_START_ARRIVAL (R330, R332). -/
def execStrandStartArrival (m : StartMsg) (s : State) : Out :=
  let c := m.hdr.target
  s.receive m.hdr [] <|
  if s.fencedHdr m.hdr then .next (s.answer m.hdr .nack 0x93 0 [])
  else
    let (s, kind, v) := s.placeStart c m
    .next (s.answer m.hdr .ack 0 0 [BitVec.ofNat 64 kind, BitVec.ofNat 64 v])

/-- A strand's record keeps an end waiting: it is HELD, or its occurrence is being completed (R331). -/
def State.endWaits (s : State) (t : StrandId) : Bool :=
  match (s.strand t).offer.st with
  | .held => true
  | .done _ => !s.agenda.any fun p => p.step == .offerResult (.strand t)
  | _ => false

/-- A strand ends, its record's tiles given back (R331). -/
def State.finishEnd (s : State) (t : StrandId) : State := ((s.meetRec (.strand t) .cancelled).giveBack t).endStrand t

/-- sexit (R331): checks 9 and 10 of R69 whatever the guard, then the strand named ends. -/
def execSexit (g : Guard) (other : Option (BitVec 3)) (s : State) : Out :=
  let i : Instr := .sexit g other
  match other with
  | none =>
    if s.super then .next (s.raiseMe (s.illegal 5 51))
    else issueU i g (fun s => .placed (s.finishEnd s.cur)) s
  | some slot =>
    if s.super && slot == 0 then .next (s.raiseMe (s.illegal 5 48))
    else issueS i g (fun s =>
      let t : StrandId := ⟨s.cur.core, slot.toNat⟩
      if (s.strand t).mode = .free then .ok s
      else
        let s := (s.meetRec (.strand t) .cancelled).modStrand t fun x => { x with mode := .taken, checkT := false, taker := none }
        if s.endWaits t then s.at_ 70 [] else .ok (s.finishEnd t)) s

/-- FORWARDING_EXPIRY (R333): a reply or a notice for the old id is dropped from now on; the entry stands, relaying nothing, until another strand
has the slot. -/
def execForwardingExpiry (c : CoreId) (gid : BitVec 32) (s : State) : Out :=
  let now := s.time c.pkg
  .next (s.modCore c fun k =>
    { k with forwards := if (k.strand (strandOfGid gid.toNat).slot).mode = .free then k.forwards
               else k.forwards.filter fun f => f.old != gid.toNat || decide (now < f.until_) })

/-- An image on the run queue of a core's micro-kernel, where it holds one, is started at a neighbour that has reported a free slot (R336,
log 6). -/
def State.startReady (s : State) (c d : CoreId) : State :=
  let free := ((s.core c).loadFig.get (0, 0) d.key).2
  match Config.readyImage (s.freeN + c.key) with
  | none => s.fresh
  | some a =>
    let s := s.fresh
    if free = 0 then s
    else match s.readWords ⟨c, none⟩ 0 true a 128 with
      | (s', .error e) => if isWait e then s else s'
      | (s, .ok ws) =>
        let ctx := (s.core c).ctx
        (s.request c noSlot .none d 0 [] fun tag =>
          .strandStartArrival { hdr := ⟨d, c, noSlot, tag, ctx, {}⟩, unit := none, super0 := false, moved := none, pc := 0, role := 0,
                                deadline := 0, image := some ws }).1

/-- LOAD_EXCHANGE (R336): a core's load figure and free slots reach its neighbours; to those whose figure is lower by more than T go pairs and,
where one has a free slot, a ready image. The next exchange is 8,192 cycles later. -/
def execLoadExchange (c : CoreId) (s : State) : Out :=
  let k := s.core c
  let again (s : State) : State := s.postAt c.pkg (s.time c.pkg + 8192000 / (s.pkg c.pkg).clock) (.loadExchange c)
  if k.retired then .next s
  else if k.dead || k.halted || (s.pkg c.pkg).held3 then .next (again s)
  else
    let free := ([1, 2, 3, 4, 5, 6, 7].filter fun i => (k.strand i).mode == .free).length
    let s := (neighbours c).foldl (fun s d =>
      if (s.core d).dead then s else s.modCore d fun x => { x with loadFig := x.loadFig.set c.key (k.load, free) }) s
    let t := (s.pkg c.pkg).shedT
    let shed (s : State) (d : CoreId) : State :=
      let fig := if k.loadFig.has d.key then some (k.loadFig.get (0, 0) d.key).1 else none
      match fig with
      | none => s
      | some f =>
        if k.load ≤ f + t ∨ (s.core d).retired then s
        else
          let (s, ps) := match s.takeBottom ⟨c, none⟩ k.ctx (min 512 ((k.load - f) / 4)) with
            | .ok r => r
            | .error _ => (s, [])
          let s := if ps.isEmpty then s
            else (s.request c noSlot .shed d 0 [] fun tag => .pairShed ⟨⟨d, c, noSlot, tag, k.ctx, {}⟩, ps⟩).1
          s.startReady c d
    .next (again ((neighbours c).foldl shed s))

/-- halt (R346). -/
def execHalt (g : Guard) (s : State) : Out :=
  issueS (.halt g) g (fun s => .ok (s.modMyCore fun k => { k with halted := true })) s

/-- wdog (R344). -/
def execWdog (g : Guard) (d : Reg) (resident handler : BitVec 12) (s : State) : Out :=
  issueS (.wdog g d resident handler) g (fun s =>
    let k := s.myCore
    let s := s.modMyCore fun k =>
      { k with wdogRes := if resident = 0 then k.wdogRes else resident, wdogHnd := if handler = 0 then k.wdogHnd else handler }
    .ok (s.wg d (BitVec.ofNat 64 (k.wdogRes.toNat + k.wdogHnd.toNat * 2 ^ 16)))) s

/-- evkill (R348): its strand is held until every record is freed. -/
def execEvkill (g : Guard) (d c : Reg) (sc : Scope) (s : State) : Out :=
  issueS (.evkill g d c sc) g (fun s =>
    let ctx := bitsN (s.rg c).toNat 15 0
    let (s, n) := match s.me.hold with
      | .phase 90 [n] => (s, n)
      | _ => s.killCtx s.cur.core sc ctx
    if ctx ≠ 0 ∧ s.dyingIn s.cur.core sc ctx then s.at_ 90 [n] else .ok (s.wg d (BitVec.ofNat 64 n))) s

/-! ## Keys (R347) -/

/-- keyset (R347). -/
def execKeyset (g : Guard) (d sl m : Reg) (s : State) : Out :=
  issueS (.keyset g d sl m) g (fun s =>
    let c := s.cur.core
    let slot := (s.rg sl).toNat
    let a := s.rg m
    if 4095 < slot then .ok (s.wg d 2)
    else if (s.pkg c.pkg).keys.has slot then .ok (s.wg d 1)
    else if a.toNat % 64 ≠ 0 then .ok (s.wg d 3)
    else match s.readWords (s.asker s.cur) 0 true a 8 with
      | (s, .error e) => .fault s (s.faultA e a)
      | (s, .ok ws) => .ok ((s.modPkg c.pkg fun p => { p with keys := p.keys.set slot (ws.flatMap fun w => leBytes 8 w.toNat) }).wg d 0)) s

/-- keyerase (R347): entries under the key flushed, lines under it cleaned and dropped in every crew of the package, the key zeroised. -/
def execKeyerase (g : Guard) (d sl : Reg) (s : State) : Out :=
  issueS (.keyerase g d sl) g (fun s =>
    let pkg := s.cur.core.pkg
    let slot := (s.rg sl).toNat
    if 4095 < slot then .ok (s.wg d 2)
    else if slot = 0 then .ok (s.wg d 3)
    else if !(s.pkg pkg).keys.has slot then .ok (s.wg d 1)
    else
      let crews := (s.crews.map Prod.fst).filter fun w => crewPkg w == pkg
      if crews.any fun w => s.stuckCombs w (fun e => e.pkg == pkg && e.key == slot)
          || (s.crew w).lines.any fun l => l.1 / 2 ^ 34 == pkg && l.2.key == slot && s.stuckLine w l then s.at_ 0 []
      else
      let s := crews.foldl (fun s w =>
        let s := s.flushCombs w fun e => e.pkg == pkg && e.key == slot
        ((s.crew w).lines.filter fun l => l.1 / 2 ^ 34 == pkg && l.2.key == slot).foldl (fun s l => s.evictLine w l.1) s) s
      .ok ((s.modPkg pkg fun p => { p with keys := p.keys.del slot }).wg d 0)) s

/-! ## System calls and interrupts (R341 to R343, R378, R379) -/

/-- The checks of a syscall in order (R341). -/
def State.syscallFault (s : State) (e : EReg) : Option Report :=
  let h := s.me.re e
  if s.me.role ≠ 0 then some (s.fault 0x88)
  else if !hOk h then some (s.fault 0x80)
  else if hSole h then some (s.fault 0x87)
  else if hKind h ≠ .sync ∧ hKind h ≠ .xfer then some (s.fault 0x8B)
  else if hRank h ≠ 1 then some (s.fault 0x86)
  else if hKind h = .xfer ∧ (bindDest (s.me.bindOf e)).isNone then some (s.fault 0x8A)
  else s.tileBad (bindTiles (s.me.bindOf e))

/-- A syscall whose request the port has accepted offers the reply event, as a yield point (R341). -/
def State.syscallOffer (s : State) (d : Reg) (e : EReg) : Res :=
  if !s.myCore.offerReady [s.me.bindOf e] then s.at_ 81 []
  else
    (s.reload s.cur s.me.lastDl s.me.lastLive).offerYield d fun s => s.openOffer [(0, e)] 0xFFFFFFFFFFFFFFFF#64 d true

/-- syscall (R341). -/
def execSyscall (g : Guard) (d a : Reg) (num : BitVec 16) (e : EReg) (s : State) : Out :=
  issueU (.syscall g d a num e) g (fun s =>
    let c := s.cur.core
    match s.me.hold with
    | .wait _ => .hold s
    | .got r =>
      match r.status with
      | .ack => s.syscallOffer d e
      | .nack => .fault s (s.nackFault r)
      | _ => .fault s (s.fault 0x91)
    | .phase 81 _ => s.syscallOffer d e
    | h =>
      if s.me.mode = .waiting ∨ (s.me.issued.isSome ∧ h ≠ .phase 80 []) then .hold s
      else match s.syscallFault e with
        | some r => .fault s r
        | none =>
          if !s.myCore.offerReady [s.me.bindOf e] then .stall
          else if s.me.unacked ≠ 0 ∨ s.fenceStuck s.cur .pkg true then s.at_ 80 []
          else
            let s := s.fenceCache s.cur .pkg true
            let w0 := BitVec.ofNat 64 (s.ctx % 2 ^ 16 * 2 ^ 48 + num.toNat * 2 ^ 32 + s.cur.gid % 2 ^ 32)
            let args := (List.range 6).map fun i => s.rg (a + BitVec.ofNat 6 i)
            let die := ioDie c
            s.ask (portCore c.pkg die) 0 fun tag =>
              .syscallRequest ⟨⟨portCore c.pkg die, c, s.cur.slot, tag, s.ctx, {}⟩, die, w0 :: args ++ [s.me.re e]⟩) s

/-- An MSI to a hart's interrupt file: its identity pends (R343). -/
def State.msi (s : State) (pkg hart file id : Nat) : State :=
  if id = 0 then s
  else s.modPkg pkg fun p => { p with imsic := if p.imsic.contains (hart, file, id) then p.imsic else p.imsic ++ [(hart, file, id)] }

/-- A system-call port. -/
def Pkg.port_ (p : Pkg) (die : Nat) : SysPort := p.sys.get {} die
/-- A system-call port changed. -/
def State.modPort_ (s : State) (pkg die : Nat) (f : SysPort → SysPort) : State :=
  s.modPkg pkg fun p => { p with sys := p.sys.set die (f (p.port_ die)) }
/-- The log2 of a ring's entry count that the port accepts (R378). -/
def ringLog (w : Word) : Option Nat := let n := bitsN w.toNat 5 0; if 4 ≤ n ∧ n ≤ 16 then some n else none

/-- SYSCALL_REQUEST at the port (R379): written to the request ring, with an MSI; RETRY while the ring is full or has no size. -/
def execSyscallRequest (m : SyscallMsg) (s : State) : Out :=
  let pkg := m.hdr.target.pkg
  let p := (s.pkg pkg).port_ m.die
  s.wellMade m.hdr [] <|
  if s.fencedHdr m.hdr then .next (s.answer m.hdr .nack 0x93 0 [])
  else match ringLog p.reqLog with
    | none => .next (s.answer m.hdr .retry 0 0 [])
    | some l =>
      let tail := p.reqTail.toNat
      if (tail + 2 ^ 32 - p.reqHead.toNat) % 2 ^ 32 = 2 ^ l then .next (s.answer m.hdr .retry 0 0 [])
      else
        let at_ := bitsN p.reqBase.toNat 39 6 * 64 + 64 * (tail % 2 ^ l)
        let s := (s.under 0 (memKey pkg at_) 64).writeBs (memKey pkg at_) (m.words.flatMap fun w => leBytes 8 w.toNat)
        let s := s.modPort_ pkg m.die fun p => { p with reqTail := BitVec.ofNat 64 ((tail + 1) % 2 ^ 32) }
        let s := s.msi pkg (bitsN p.msi.toNat 13 11) (bitsN p.msi.toNat 10 8) (bitsN p.msiId.toNat 10 0)
        .next (s.answer m.hdr .ack 0 0 [])

/-- The port has an offer of an event that is still live, or a reply with its handle on its way (R379). -/
def State.portBusy (s : State) (ev : EvId) (gid : Nat) (h : Word) : Bool :=
  (s.cores.any fun k => k.2.hwrecs.any fun r => r.cls == .port && (r.rec_.st == .opened || r.rec_.st == .held || r.rec_.st == .reserved)
    && r.rec_.named.any fun n => n.ev == ev)
    || s.agenda.any fun p => match p.step with | .syscallReplyArrival m => m.gid.toNat == gid && m.handle == h | _ => false

/-- A reply taken from the ring: sent to the strand's core, or discarded (R379), also where its strand id names no core (R16). Its event is looked
for where the strand is now (R333, R342). -/
def State.takeReply (s : State) (pkg die : Nat) (ws : List Word) : State :=
  let h := ws.getD 0 0
  let w1 := (ws.getD 1 0).toNat
  let gid := bitsN w1 31 0
  let len := bitsN w1 38 32
  let c := (strandOfGid gid).core
  let d := (s.strandNow c gid).core
  let ev := s.evIdOf (s.core d).ctx d h
  let fits := match s.usable (s.homeOf d ev) ev with
    | none => false
    | some r => match r.kind with
      | .sync => len == 0
      | .xfer => len == r.size && decide (len ≤ 64)
      | _ => false
  if !hOk h || decide (200 ≤ c.row) || !s.pkgIn pkg c.pkg || !fits || s.portBusy ev gid h then
    s.modPort_ pkg die fun p => { p with rspBad := BitVec.ofNat 64 ((p.rspBad.toNat + 1) % 2 ^ 32) }
  else
    let data := ((ws.drop 8).flatMap fun w => leBytes 8 w.toNat).take len
    s.send (portCore pkg die) c (.syscallReplyArrival ⟨c, BitVec.ofNat 32 gid, h, die, data, portCore pkg die⟩)

/-- Replies taken in ring order; n: entries written and not taken. -/
def State.takeReplies (s : State) (pkg die l : Nat) : Nat → State
  | 0 => s
  | n + 1 =>
    let p := (s.pkg pkg).port_ die
    let head := p.rspHead.toNat
    let at_ := bitsN p.rspBase.toNat 39 7 * 128 + 128 * (head % 2 ^ l)
    let u := s.under 0 (memKey pkg at_) 128
    let ws := (List.range 16).map fun i => BitVec.ofNat 64 (u.readN (memKey pkg (at_ + 8 * i)) 8)
    let s := (s.takeReply pkg die ws).modPort_ pkg die fun p => { p with rspHead := BitVec.ofNat 64 ((head + 1) % 2 ^ 32) }
    s.takeReplies pkg die l n

/-- RSPTAIL written by the operating system (R379). -/
def execRsptail (pkg die : Nat) (tail : BitVec 32) (s : State) : Out :=
  let s := s.modPort_ pkg die fun p => { p with rspTail := tail.setWidth 64 }
  let p := (s.pkg pkg).port_ die
  match ringLog p.rspLog with
  | none => .next s
  | some l => .next (s.takeReplies pkg die l (min (2 ^ l) ((tail.toNat + 2 ^ 32 - p.rspHead.toNat) % 2 ^ 32)))

/-- SYSCALL_REPLY_ARRIVAL (R342): the core's interface offers the reply event as rank 0; a forwarding entry relays it (R333); a
machine-checked core's answer is RETRY, and the port sends again (R350). -/
def execSyscallReplyArrival (m : SysReplyMsg) (s : State) : Out :=
  let c := m.core
  let k := s.core c
  if k.dead then .next (s.postAt c.pkg (s.time c.pkg + 64) (.syscallReplyArrival m))
  else match k.forwards.find? fun f => f.old == m.gid.toNat with
    | some f =>
      let d := (strandOfGid f.new_).core
      if f.until_ ≤ s.time c.pkg then .next s else
      .next (s.send c d (.syscallReplyArrival { m with core := d, gid := BitVec.ofNat 32 f.new_, src := c }))
    | none => .next (s.hwOffer c .port (k.newHw .port) k.ctx m.handle 0 (.bytes m.data) 0 none)

/-- hostirq (R343): earlier stores performed at package scope, then the interrupt pends in the hart's file. -/
def execHostirq (g : Guard) (hart file : BitVec 3) (id : BitVec 11) (s : State) : Out :=
  issueS (.hostirq g hart file id) g (fun s =>
    let c := s.cur.core
    if s.me.unacked ≠ 0 ∨ s.stuckWrites c then s.at_ 0 []
    else .ok ((s.cleanWrittenBy c.crewNo c.local_).msi c.pkg hart.toNat file.toNat id.toNat)) s

/-! ## The batten network (R346, R350 to R352) -/

/-- STOP (R351). -/
def execStop (c : CoreId) (s : State) : Out := .next (s.modCore c fun k => { k with halted := true })

/-- WAKE (R346, R351): no core of a package that an alarm of level 3 holds goes on (R349). -/
def execWake (c : CoreId) (s : State) : Out :=
  if (s.pkg c.pkg).held3 then .next s else .next ((s.modCore c fun k => { k with halted := false }).tellReports c)

/-- A word of a stopped core's state by region: 0 to 7 the strand contexts in the image layout, 8 the tile table, 9 the rings, 10 the
slice, 11 the trap records (the numbering is the model's own, log 27). -/
def State.battenWord (s : State) (c : CoreId) (region off : Nat) : Word :=
  let k := s.core c
  if region < 8 then imageWord (k.strand region) (s.ctxOf ⟨c, region⟩) s.freeN off
  else if region = 8 then k.tile off
  else if region = 9 then k.rings.get 0 off
  else if region = 10 then BitVec.ofNat 64 (s.sread c (8 * off % 131072) 8)
  else match s.readAt ⟨c, none⟩ 0 true true (k.record 0 + BitVec.ofNat 64 (8 * off)) 8 with
    | (_, .ok v) => BitVec.ofNat 64 v
    | (_, .error _) => 0

/-- A strand's image with one word replaced; a word that R329 refuses changes nothing. -/
def State.battenStrand (s : State) (c : CoreId) (slot off : Nat) (v : Word) : State :=
  let t : StrandId := ⟨c, slot⟩
  let x := s.strand t
  match strandOfImage ((imageOf x (s.ctxOf t) s.freeN).set off v) (s.ctxOf t) with
  | some y => s.setStrand t
      { x with pc := y.pc, role := y.role, sticky := y.sticky, upvec := y.upvec, uprec := y.uprec, p := y.p, left := y.left, live := y.live,
               e := y.e, g := if 24 ≤ off ∧ off < 88 then x.g.set (off - 24) v else x.g, binds := y.binds, notices := y.notices }
  | none => s

/-- A core is stopped: halted or machine-checked. -/
def Core.still (k : Core) : Bool := k.halted || k.dead

/-- BATTEN_READ (R351): a word of a stopped core's state goes to the asker. -/
def execBattenRead (c : CoreId) (region off : Nat) (s : State) : Out :=
  if (s.core c).still then
    let w := s.battenWord c region off
    .next (s.modCore c fun k => { k with battenOut := [w] }).fresh
  else .next s

/-- A word of a core's trap records stored by the batten interface; an error is a code of isWait. DEDUCED: a machine-checked core's interface gets
no answer any more, so that nothing is waited for there (log 27). -/
def State.battenRecord (s : State) (c : CoreId) (off : Nat) (v : Word) : Except Nat State :=
  let a := (s.core c).record 0 + BitVec.ofNat 64 (8 * off)
  match (if (s.core c).dead then s.writeNow (s.partOf c 3) 0 true a 8 v.toNat else s.writeVa (s.partOf c 3) 0 true a 8 v.toNat) with
  | (s', none) => .ok (s'.partMet c 3 0)
  | (s', some d) => if isWait d then .error d else .ok (s'.partMet c 3 0)
/-- The first of a core's batten writes that wait is tried again. -/
def State.battenOn (s : State) (c : CoreId) : State :=
  match (s.core c).battenIn with
  | [] => s
  | p :: r => match s.battenRecord c p.1 p.2 with
    | .ok s => s.modCore c fun k => { k with battenIn := r }
    | .error d => s.partMet c 3 d

/-- BATTEN_WRITE (R351). A write of a trap record that waits at the interface, or meets RETRY, is stored later, in order. -/
def execBattenWrite (c : CoreId) (region off : Nat) (v : Word) (s : State) : Out :=
  if !(s.core c).still then .next s
  else if region < 8 then .next (s.battenStrand c region off v).fresh
  else if region = 8 then .next (s.modCore c fun k => if off < 64 then { k with tiles := k.tiles.set off (v &&& ~~~(0x1FFFF#64)) } else k)
  else if region = 9 then .next (s.modCore c fun k => if off < 8 then { k with rings := k.rings.set off (v &&& 0x7FFFFFFFFF#64) } else k)
  else if region = 10 then .next (s.swrite c (8 * off % 131072) 8 v.toNat)
  else
    let s' := s.modCore c fun k => { k with battenIn := k.battenIn ++ [(off, v)] }
    .next (if (s.core c).battenIn.isEmpty then s'.battenOn c else s')

/-- MSG (R351): 48 bytes to slot 0 as cause 18. -/
def execMsg (c : CoreId) (ws : List Word) (s : State) : Out :=
  .next (s.report c { slot := 0, cause := 18, info2 := ws.getD 0 0, strand := StrandId.gid ⟨c, 0⟩ })

/-- The micro-kernel's lines in a core's instruction cache (R370). -/
def kernelCache : List ILine := (Config.kernelLines.take 256).map fun l => ⟨0, l.1, (List.range 64).map fun i => l.2.getD i 0⟩

/-- A core after the keel island has loaded its micro-kernel and started slot 0 (R351, R370). What tells one life of the core from the
next is kept: request tags, and the capability keys drawn with what has been minted under them. -/
def startedCore (k : Core) : Core :=
  { strands := [(0, { mode := .ready, pc := Config.kernelPc })], icache := kernelCache, nextTag := k.nextTag, capGen := k.capGen + 1,
    retired := k.retired, reqNo := k.reqNo, minted := k.minted }

/-- RESET (R351): cold reset of one core; none of a package that an alarm of level 3 holds (R349). -/
def execReset (c : CoreId) (s : State) : Out :=
  if (s.core c).retired || (s.pkg c.pkg).held3 then .next s else .next ((s.clearSlice c).modCore c startedCore)

/-- The reports of fault-buffer entries that a core has not yet delivered wait for another lead (R13, R337). -/
def State.waitLead (s : State) (c : CoreId) : State :=
  let crew := c.crewNo
  let mine (e : FbEntry) (r : Report) : Bool := r.cause == 16 && r.info0 == (e.report c).info0 && bitsN r.info1.toNat 15 0 == e.ctx % 2 ^ 16
  let es := (s.crew crew).fbuf.filter fun e => (s.core c).reports.any (mine e)
  (s.modCrew crew fun w => { w with waiting := w.waiting ++ es }).modCore c fun k => { k with reports := k.reports.filter fun r => r.cause != 16 }

/-- RETIRE (R352): the reports of the crew's faults that it has not delivered wait for the next lead (R13). -/
def execRetire (c : CoreId) (s : State) : Out :=
  .next ((s.waitLead c).modCore c fun k => { k with retired := true, ctx := 0 })

/-- SRAM_SOFT_ERROR (R350). -/
def execSramSoftError (c : CoreId) (correctable : Bool) (s : State) : Out :=
  if correctable then .next (s.modCore c fun k => { k with softErrs := k.softErrs + 1 }) else .next (s.machineCheck c 0xB2)

/-- TAMPER (R349, R353): the alarm at level 3, and the dump. -/
def execTamper (pkg : Nat) (s : State) : Out := .next ((s.alarm3 pkg).fatalDump pkg 3)

end Sys2Proof.Machine
end

