-- ==== Sys2Proof/Machine/Platform.lean ====
section
/-! DEFINITION. Meanings of the steps of bring-up, time, strokes, the governor, attestation, the root ports and the control cores
(R370 to R386), and of a word that is no instruction (R69). -/

namespace Sys2Proof.Machine

/-- ILLEGAL_INSTRUCTION (R69 to R71): the fault of a word that is no instruction, precise at it. -/
def execIllegalInstruction (detail arg : Nat) (s : State) : Out := .next (s.charge.raiseMe (s.illegal detail arg))

/-! ## Cold reset and bring-up (R370, R373, R382) -/

/-- The package whose hardware an entry of the agenda waits in: where its packet is, or the package of its timer. -/
def Pending.inPkg (p : Pending) (pkg : Nat) : Bool :=
  match p.route, p.due with
  | .router k _ _ _ _, _ => k == pkg
  | .link k _ _ _, _ => k == pkg
  | .here, some (k, _) => k == pkg
  | .here, none => match p.step with
    | .offerArrival m => crewPkg m.home == pkg
    | .claim m | .release m _ => (recCore m.who).pkg == pkg
    | .claimReply m _ => crewPkg m.home == pkg
    | .completionNotice t _ => t.core.pkg == pkg
    | .strandStartArrival m => m.hdr.target.pkg == pkg
    | .placementDescent c _ _ | .trapDelivery c | .amDispatch c | .msg c _ => c.pkg == pkg
    | .bringUpPhase k | .timeLoad k _ _ | .controlCoreAccess k _ _ | .bootConfigurationWrite k _ _ | .frameMapWrite k _ _ _
    | .attestationRequest k _ | .rsptail k _ _ => k == pkg
    | _ => false

/-- The cold reset of a package: cores, crews, slices and the package's own state at their reset values; steps that waited in its
hardware are gone, and the far ends of its links have no signal (R287); which cores are retired is kept (R352), and the keel island gives the
boot block the package's number and the extents again (R371, log 4). Reset requests are ignored for 10 ms (R384), counted on TIME, which starts
again. Phase 1 is next (R370). -/
def State.coldReset (s : State) (pkg : Nat) : State :=
  let cs := (s.cores.map fun k => coreOfKey k.1).filter fun c => c.pkg == pkg
  let s := cs.foldl (fun s c => (s.clearSlice c).modCore c fun k =>
    { retired := k.retired, nextTag := k.nextTag, capGen := k.capGen + 1, reqNo := k.reqNo, minted := k.minted }) s
  let s := { s.linksDown pkg with crews := s.crews.filter fun w => crewPkg w.1 != pkg, agenda := s.agenda.filter fun p => !p.inPkg pkg }
  (s.modPkg pkg fun p =>
    { resetIgnore := 10000000, boot := [(0, BitVec.ofNat 64 (bitsN (p.bootWord 0) 39 28 * 2 ^ 28 + pkg * 2 ^ 16))] }).postStep
      (.bringUpPhase pkg)

/-- COLD_RESET (R370). -/
def execColdReset (pkg : Nat) (s : State) : Out := .next (s.coldReset pkg)

/-- A free outcome drawn (log 13). -/
def State.draw (s : State) : State × Bool := (s.fresh, Config.freeOutcome s.freeN)

/-- The neighbours of a package by direction, those that are not the package itself (R285). -/
def State.pkgNeighbours (s : State) (pkg : Nat) : List (Nat × Nat) :=
  (List.range 6).filterMap fun d => let n := s.farPkg pkg (portNo d 0); if n = pkg then none else some (d, n)

/-- Hops from a package to the time root, package 0. -/
def State.rootHops (s : State) (pkg : Nat) : Nat :=
  let (ex, ey, ez) := s.extent pkg
  ringDist ex (pkgX pkg) 0 + ringDist ey (pkgY pkg) 0 + ringDist ez (pkgZ pkg) 0

/-- A neighbour from which TIME can be loaded: aligned, reached by a working port, and on the root's side unless this is the root (R382). -/
def State.timeSource (s : State) (pkg : Nat) : Option Nat :=
  ((s.pkgNeighbours pkg).find? fun n =>
    (s.pkg n.2).aligned && (s.pkg pkg).dirUp n.1 && (pkg == 0 || decide (s.rootHops n.2 < s.rootHops pkg))).map Prod.snd

/-- The round trip that an exchange of beacons measures, beyond what the step itself stands for: the value loaded is within the bound of R24
(R382, log 2). -/
def State.trip (s : State) (pkg : Nat) : Nat := (Config.freeTicks s.freeN pkg).toNat % 2

/-- The package numbers that firmware assigns to a package's fabric domain, ascending; its members are those of them that the system has when phase
5 begins (R15, State.phase5, log 25). -/
def domainOfPkg (pkg : Nat) : List Nat := (List.range 4096).filter fun q => Config.domainNo q == Config.domainNo pkg

/-- Phase 5 of bring-up: ports, policy, domain and its reset key (R370, R383); TIME is loaded next. -/
def State.phase5 (s : State) (pkg : Nat) : State :=
  let s := s.modPkg pkg fun p => { p with
    phase := 5, ports := (List.range 36).map fun n => (n, {}), domain := (domainOfPkg pkg).filter (s.pkgIn pkg), resetKey := some (Config.domainNo pkg),
    policy := (List.range 36).map fun n => (n, Config.portPolicy pkg n) }
  s.postStep (.timeLoad pkg (s.timeSource pkg) (s.trip pkg))

/-- Every port has trained or has failed. -/
def Pkg.portsSettled (p : Pkg) : Bool := p.ports.all fun q => q.2.st == .active || q.2.st == .failed

/-- BRING_UP_PHASE (R370): the next phase; where it fails the package stays held, an image that fails its check being reported on the board
management interface. Phase 5 ends when TIME is loaded and every port has trained or failed. -/
def execBringUpPhase (pkg : Nat) (s : State) : Out :=
  let next (s : State) : State := (s.modPkg pkg fun p => { p with phase := p.phase + 1 }).postStep (.bringUpPhase pkg)
  let p := s.pkg pkg
  match p.phase with
  | 0 => let (s, ok) := s.draw; .next (if ok then next s else s)
  | 1 =>
    let bad := (List.range 4).filter fun i => !Config.freeOutcome (s.freeN + i)
    let s := { s with freeN := s.freeN + 4 }.modPkg pkg fun p =>
      { p with meas := (List.range 4).map (fun i => (i, Config.extend 0 (Config.fuseDigest i))), bmc := p.bmc ++ bad }
    .next (if bad.isEmpty then next s else s)
  | 2 =>
    let (s, ok) := s.draw
    let key := Config.slot0Key s.freeN
    .next (if ok then next (s.modPkg pkg fun p => { p with keys := p.keys.set 0 (leBytes 64 key.toNat) }) else s)
  | 3 =>
    let s' := (coresOf pkg).foldl (fun (s : State) c =>
      let s := s.clearSlice c
      if Config.freeOutcome (s.freeN + c.key) then s else s.modCore c fun k => { k with retired := true }) s
    .next (next { s' with freeN := s.freeN + 2 ^ 40 })
  | 4 => .next (s.phase5 pkg)
  | 5 =>
    if !(p.portsSettled && p.aligned) then .next (s.postStep (.bringUpPhase pkg)) else
    let s' := (coresOf pkg).foldl (fun (s : State) c =>
      if (s.core c).retired then s
      else if Config.freeOutcome (s.freeN + c.key) then (s.modCore c startedCore).postStep (.loadExchange c)
      else s.modCore c fun k => { k with retired := true }) s
    .next (next { s' with freeN := s.freeN + 2 ^ 40 })
  | 6 => .next (s.modPkg pkg fun p => { p with phase := 7, ccHeld := false })
  | _ => .next s

/-- TIME_LOAD (R382): from an aligned neighbour with half the round trip, 0 at the root where no neighbour is aligned; else the package waits,
the root too where a link to an aligned neighbour has still to train. With TIME loaded, beacons, strokes and the governor begin, and the bring-up
goes on. -/
def execTimeLoad (pkg : Nat) (src : Option Nat) (roundTrip : Nat) (s : State) : Out :=
  let p := s.pkg pkg
  let loaded (t : Nat) : Out :=
    let t := t % 2 ^ 64
    let s := s.modPkg pkg fun p => { p with
      time := BitVec.ofNat 64 t, aligned := true, slewAt := t, slewBack := 0, resetIgnore := p.resetIgnore - p.time.toNat + t }
    let s := (s.postAt pkg (t + 10000) (.timeBeaconSend pkg)).postAt pkg (t + 100000) (.strokeSend pkg)
    let s := s.postAt pkg (t + 10000) (.governorInterval pkg)
    let s := (List.range 6).foldl (fun s d => s.postAt pkg (t + 100000) (.strokeWindow pkg d)) s
    .next (s.postStep (.bringUpPhase pkg))
  let wait : Out := .next (s.postStep (.timeLoad pkg (s.timeSource pkg) (s.trip pkg))).fresh
  if p.phase ≠ 5 ∨ p.aligned then .next s
  else match src with
    | some n => if (s.pkg n).aligned then loaded (s.time n + roundTrip / 2) else wait
    | none => if pkg = 0 ∧ !(s.pkgNeighbours pkg).any (fun n => (s.pkg n.2).aligned) then loaded 0 else wait

/-! ## Beacons, strokes and resets (R381, R383, R384) -/

/-- TIME_BEACON_SEND (R381). -/
def execTimeBeaconSend (pkg : Nat) (s : State) : Out :=
  let now := s.time pkg
  let s := (s.pkgNeighbours pkg).foldl (fun s n =>
    if (s.pkg pkg).dirUp n.1 then s.postStep (.timeBeacon n.2 pkg (s.pkg pkg).time) else s) s
  .next (s.postAt pkg (now + 10000) (.timeBeaconSend pkg))

/-- TIME_BEACON (R381): the counter slews by at most 1 tick per 100 µs toward a beacon from the root's side; it is never set back, so a
counter that is ahead holds back one tick of its next advance. -/
def execTimeBeacon (pkg src : Nat) (time : Word) (s : State) : Out :=
  let p := s.pkg pkg
  let now := p.time.toNat
  if !p.aligned || decide (s.rootHops pkg ≤ s.rootHops src) || decide (now < p.slewAt + 100000) || time == p.time then .next s
  else if now < time.toNat then .next (s.modPkg pkg fun p => { p with time := p.time + 1, slewAt := now })
  else .next (s.modPkg pkg fun p => { p with slewBack := p.slewBack + 1, slewAt := now })

/-- STROKE_SEND (R383). -/
def execStrokeSend (pkg : Nat) (s : State) : Out :=
  let now := s.time pkg
  let s := (s.pkgNeighbours pkg).foldl (fun s n =>
    let back := farPort (portNo n.1 0) / 6
    if (s.pkg pkg).dirUp n.1 then
      s.modPkg n.2 fun p => { p with strokeSeen := if p.strokeSeen.contains back then p.strokeSeen else p.strokeSeen ++ [back] }
    else s) s
  .next (s.postAt pkg (now + 100000) (.strokeSend pkg))

/-- A port of a direction is in the FAILED state (R383). -/
def Pkg.someFailed (p : Pkg) (dir : Nat) : Bool := (List.range 6).any fun i => (p.port (portNo dir i)).st == .failed
/-- A reset request's tag is valid: it is made under the reset key that the package has installed (R383). -/
def State.tagValid (s : State) (pkg src : Nat) : Bool :=
  (s.pkg src).resetKey.isSome && (s.pkg src).resetKey == (s.pkg pkg).resetKey

/-- STROKE_WINDOW (R383): a window without a stroke, or with a port of the direction FAILED, counts a miss; the third in a row sends a reset
request under the domain's key. A direction that leads to no other package has none. -/
def execStrokeWindow (pkg dir : Nat) (s : State) : Out :=
  let p := s.pkg pkg
  let now := p.time.toNat
  let far := s.farPkg pkg (portNo dir 0)
  let again (s : State) : Out := .next (s.postAt pkg (now + 100000) (.strokeWindow pkg dir))
  if far = pkg then again s else
  let seen := p.strokeSeen.contains dir && !p.someFailed dir
  let miss := if seen then 0 else p.strokeMiss.get 0 dir + 1
  let s := s.modPkg pkg fun p => { p with strokeMiss := p.strokeMiss.set dir miss, strokeSeen := p.strokeSeen.filter fun d => d != dir }
  again (if miss = 3 then s.postStep (.resetRequest far pkg (s.tagValid far pkg)) else s)

/-- RESET_REQUEST (R384): valid requests of four distinct neighbours within 1 ms reset the package; others are logged; none counts for
10 ms after a reset. -/
def execResetRequest (pkg src : Nat) (valid : Bool) (s : State) : Out :=
  let p := s.pkg pkg
  let now := p.time.toNat
  if now < p.resetIgnore then .next s
  else if !valid || !(s.pkgNeighbours pkg).any fun n => n.2 == src then .next (s.alarm1 pkg src)
  else
    let l := (p.resetReqs.filter fun r => r.1 != src && decide (now ≤ r.2 + 1000000)) ++ [(src, now)]
    if 4 ≤ l.length then .next (s.coldReset pkg) else .next ((s.modPkg pkg fun p => { p with resetReqs := l }).alarm1 pkg src)

/-! ## The governor (R385) -/

/-- Cores of a package halted or woken. -/
def State.haltAll (s : State) (pkg : Nat) (h : Bool) : State :=
  { s with cores := s.cores.map fun k => if (coreOfKey k.1).pkg = pkg then (k.1, { k.2 with halted := h }) else k }

/-- Every core of a package woken: reports that wait become deliverable (R323, R346); none while an alarm of level 3 holds the package (R349). -/
def State.wakeAll (s : State) (pkg : Nat) : State :=
  if (s.pkg pkg).held3 then s
  else ((s.cores.map fun k => coreOfKey k.1).filter fun c => c.pkg == pkg).foldl State.tellReports (s.haltAll pkg false)

/-- GOVERNOR_INTERVAL (R385): power and temperature measured, and the clock stepped. -/
def execGovernorInterval (pkg : Nat) (s : State) : Out :=
  let p := s.pkg pkg
  let watts := Config.power s.freeN
  let temp := Config.junction s.freeN
  let limit := bitsN (p.bootWord 0x20) 12 0
  let fmin := bitsN (p.bootWord 0x20) 43 32
  let hot := limit < watts ∨ 100 < temp
  let s := s.fresh
  let s := if 110 < temp ∧ !p.govHot then ((s.haltAll pkg true).modPkg pkg fun p => { p with govHot := true }).alarm1 pkg 1
    else if p.govHot ∧ temp < 95 then (s.wakeAll pkg).modPkg pkg fun p => { p with govHot := false }
    else s
  let s := s.postAt pkg (s.time pkg + 10000) (.governorInterval pkg)
  if hot then
    if fmin < p.clock then
      .next (s.modPkg pkg fun p => { p with clock := max fmin (p.clock - 25), govLow := 0, govOver := 0 })
    else if 100 ≤ p.govOver + 1 then .next ((s.modPkg pkg fun p => { p with govLow := 0, govOver := 0 }).alarm1 pkg 2)
    else .next (s.modPkg pkg fun p => { p with govLow := 0, govOver := p.govOver + 1 })
  else if watts + 150 ≤ limit then
    if 100 ≤ p.govLow + 1 then .next (s.modPkg pkg fun p => { p with clock := min 1500 (p.clock + 25), govLow := 0, govOver := 0 })
    else .next (s.modPkg pkg fun p => { p with govLow := p.govLow + 1, govOver := 0 })
  else .next (s.modPkg pkg fun p => { p with govLow := 0, govOver := 0 })

/-! ## The boot configuration block, the frame map, attestation (R371 to R374) -/

/-- Bits hi to lo of a word replaced by those of another. -/
def mergeBits (old new_ : Word) (hi lo : Nat) : Word :=
  let m : Word := BitVec.ofNat 64 ((2 ^ (hi - lo + 1) - 1) * 2 ^ lo)
  (old &&& ~~~m) ||| (new_ &&& m)

/-- The fields of a block word that take a write: its high and low bits, with LOCK clear or set (R371). -/
def bootFields (off : Nat) (locked : Bool) : List (Nat × Nat) :=
  match off, locked with
  | 0x00, false => [(39, 28), (27, 16)]
  | 0x08, false => [(39, 22)]
  | 0x10, false => [(63, 40), (39, 16)]
  | 0x18, false => [(43, 32), (23, 0)]
  | 0x18, true => [(43, 32)]
  | 0x20, _ => [(43, 32), (12, 0)]
  | 0x38, false => [(0, 0)]
  | _, _ => []

/-- A value is within the range that R371 states for a field. -/
def bootInRange (off hi : Nat) (v : Nat) : Bool :=
  match off, hi with
  | 0x18, 23 => decide (500 ≤ v) && decide (v ≤ 1000000)
  | 0x20, 43 => v % 25 == 0 && decide (500 ≤ v) && decide (v ≤ 1500)
  | 0x20, 12 => decide (2000 ≤ v) && decide (v ≤ 4000)
  | _, _ => true

/-- A write of a block word: the fields that take it, when each value is in range (R371). -/
def Pkg.bootWrite (p : Pkg) (off : Nat) (v : Word) : Pkg :=
  let fs := bootFields off p.isLocked
  if fs.all fun f => bootInRange off f.1 (bitsN v.toNat f.1 f.2) then
    let w := fs.foldl (fun w f => mergeBits w v f.1 f.2) (BitVec.ofNat 64 (p.bootWord off))
    if fs.isEmpty then p else { p with boot := p.boot.set off w }
  else p

/-- LOCK set: the block and the frame map are locked; the map in force is the one every stack controller holds (R372). -/
def Pkg.lockUp (p : Pkg) : Pkg := { p with boot := p.boot.set 0x38 1, locked := true }

/-- BOOT_CONFIGURATION_WRITE (R371). -/
def execBootConfigurationWrite (pkg off : Nat) (v : Word) (s : State) : Out :=
  .next (s.modPkg pkg fun p => if off = 0x38 ∧ v.getLsbD 0 then p.lockUp else p.bootWrite off v)

/-- LOCK (R371, R372). -/
def execLock (pkg : Nat) (s : State) : Out := .next (s.modPkg pkg Pkg.lockUp)

/-- FRAME_MAP_WRITE (R372). -/
def execFrameMapWrite (pkg n : Nat) (second : Bool) (v : Word) (s : State) : Out :=
  .next (s.modPkg pkg fun p =>
    if p.isLocked || decide (64 ≤ n) then p
    else
      let e := p.frameMap.get (0, 0) n
      { p with frameMap := p.frameMap.set n (if second then (e.1, v) else (v, e.2)) })

/-- The policy byte of a port (R15, R288, R374). -/
def State.policyByte (s : State) (pkg port : Nat) : Byte :=
  let b := ((s.pkg pkg).policy.get 0 port).toNat
  let leaving := s.leaving pkg port
  BitVec.ofNat 8 ((if leaving then 1 else 0) + (if ((s.pkg pkg).port port).st = .failed then 2 else 0)
    + (if leaving then 4 + 0xF0 else b / 16 * 16))

/-- A block word as a read of it gives it: before the keel island has given word 0, PKGNUM is the package's own number (R371, log 4). -/
def State.blockWord (s : State) (pkg off : Nat) : Nat :=
  let p := s.pkg pkg
  if off = 0 ∧ !p.boot.has 0 then pkg * 2 ^ 16 else p.bootWord off

/-- The retired cores of a package (R352). -/
def State.retiredSet (s : State) (pkg : Nat) : List CoreId :=
  ((s.cores.filter fun k => (coreOfKey k.1).pkg == pkg && k.2.retired).map Prod.fst).map coreOfKey
/-- The retired list: one 4-byte word per core (R374). -/
def State.retiredList (s : State) (pkg : Nat) : List Byte :=
  (s.retiredSet pkg).flatMap fun c => leBytes 4 (c.col * 2 ^ 11 + c.row * 8)
/-- The address in package memory at which the keel island lists the retired cores, a free value (log 51). -/
def State.retiredAt (s : State) : Nat := (Config.freeWord s.freeN).toNat % 2 ^ 39 / 64 * 64

/-- The attestation report of a nonce (R374). -/
def State.report_ (s : State) (pkg : Nat) (nonce : List Byte) : List Byte :=
  let p := s.pkg pkg
  let body := leBytes 8 devid.toNat ++ leBytes 8 ((s.blockWord pkg 0) ||| (p.bootWord 0x38)) ++ (List.range 32).map (fun i => nonce.getD i 0)
    ++ (List.range 8).flatMap (fun i => leBytes 48 (p.meas.get 0 i).toNat) ++ (List.range 36).map (s.policyByte pkg)
    ++ List.replicate 12 0 ++ leBytes 8 (s.retiredSet pkg).length ++ leBytes 8 s.retiredAt ++ List.replicate 16 0
  body ++ (List.range 96).map fun i => (Config.attestSig body).getD i 0

/-- ATTESTATION_REQUEST (R374): the report, and the retired list, written where the report says (R352), as the control cores read memory, under
key slot 0. -/
def execAttestationRequest (pkg : Nat) (nonce : List Byte) (s : State) : Out :=
  let l := s.retiredList pkg
  let k := memKey pkg s.retiredAt
  let u := s.modPkg pkg fun p => { p with attest := some (s.report_ pkg nonce) }
  .next (if l.isEmpty then u else (u.under 0 k l.length).writeBs k l).fresh

/-- MEASUREMENT_EXTEND (R373). -/
def execMeasurementExtend (pkg i : Nat) (digest : BitVec 384) (s : State) : Out :=
  .next (s.modPkg pkg fun p =>
    if 4 ≤ i ∧ i ≤ 7 ∧ !p.isLocked then { p with meas := p.meas.set i (Config.extend (p.meas.get 0 i) digest) } else p)

/-! ## Root ports and control cores (R375 to R378) -/

/-- An inbound request that is no interrupt, at the leaf that the IOMMU gives its address (R377): a kernel-reserved frame is refused with the
alarm at level 3 (R185), a write where the leaf has no W is refused. A read returns the 64 bytes from its address; a dump stays readable when the keys are gone (R353, log 26). -/
def State.inboundMem (s : State) (pkg die : Nat) (addr : Word) (wr : Option (List Byte)) : Out :=
  let refused (s : State) : Out := .next (s.modPkg pkg fun p => { p with pcieGot := none })
  match Config.iommu s.freeN (2 * pkg + die) wr.isSome addr with
  | none => refused s.fresh
  | some l =>
    let s := s.fresh
    let home := leafHome l
    let pa := leafFrame l * 2 ^ 16 + addr.toNat % 2 ^ 16
    if leafKres l || (s.pkg home).frameReserved (pa / 2 ^ 16) then refused ((s.alarm3 pkg).fatalDump pkg 3)
    else if wr.isSome && !leafW l then refused s
    else if !(s.pkg home).keys.has (leafKey l) && !(wr.isNone && leafKey l == 0 && (s.pkg home).inDump pa) then refused s
    else match wr with
      | some bs => .next ((s.under (leafKey l) (s.homeKey home pa) bs.length).writeBs (s.homeKey home pa) bs)
      | none =>
        let got := (s.under (leafKey l) (s.homeKey home pa) 64).mem.readBytes (s.homeKey home pa) 64
        .next (s.modPkg pkg fun p => { p with pcieGot := some got })

/-- PCIE_INBOUND_REQUEST (R377): a write that reaches an interrupt file's seteipnum_le makes its identity pend, another request goes to
memory through the IOMMU. None comes before phase 7 has trained the root ports (R370). -/
def execPcieInboundRequest (pkg die : Nat) (addr : Word) (wr : Option (List Byte)) (s : State) : Out :=
  if (s.pkg pkg).phase < 7 then .next s
  else match wr, Config.inboundMsi (2 * pkg + die) addr with
  | some bs, some f => .next (s.msi pkg (f / 7 % 8) (f % 7) (leNat (bs.take 4) % 2 ^ 11))
  | _, _ => s.inboundMem pkg die addr wr

/-- What a load of the device window returns (R375, R378): a register, or a free value where the spec gives none. -/
def State.deviceLoad (s : State) (pkg off : Nat) : Word :=
  let p := s.pkg pkg
  let free := Config.freeWord s.freeN
  if off < 0x40 then BitVec.ofNat 64 (s.blockWord pkg (off / 8 * 8))
  else if 0x400 ≤ off ∧ off < 0x800 then
    let e := p.frameMap.get (0, 0) ((off - 0x400) / 16)
    if off / 8 % 2 = 0 then e.1 else e.2
  else if 0x10000 ≤ off ∧ off < 0x10260 then
    match p.attest with
    | some r => BitVec.ofNat 64 (leNat ((r.drop (off - 0x10000)).take 8))
    | none => free
  else if 0x20000 ≤ off ∧ off < 0x22000 then
    let q := p.port_ ((off - 0x20000) / 0x1000)
    match off % 0x1000 with
    | 0x00 => q.reqBase | 0x08 => q.reqHead | 0x10 => q.reqTail | 0x18 => q.rspBase | 0x20 => q.rspTail | 0x28 => q.rspHead
    | 0x30 => q.msi | 0x38 => q.msiId | 0x40 => q.rspBad
    | _ => free
  else free

/-- The order channel of a device window: its registers take stores in the order in which they were made. -/
def windowChan (pkg : Nat) : Nat := 2 ^ 90 + pkg
/-- A step of the device window entered behind those that its registers still have to take. -/
def State.window (s : State) (pkg : Nat) (i : Instr) : State := s.post { step := i, chan := windowChan pkg }

/-- A store to a system-call port's register (R378); RSPTAIL makes the port take replies (R379). -/
def State.portStore (s : State) (pkg die reg : Nat) (v : Word) : State :=
  let low (n : Nat) : Word := BitVec.ofNat 64 (v.toNat % 2 ^ n)
  match reg with
  | 0x00 => s.modPort_ pkg die fun q => { q with reqBase := low 40, reqLog := low 6 }
  | 0x08 => s.modPort_ pkg die fun q => { q with reqHead := low 32 }
  | 0x18 => s.modPort_ pkg die fun q => { q with rspBase := low 40 &&& ~~~(0x40#64), rspLog := low 6 }
  | 0x20 => s.window pkg (.rsptail pkg die (v.setWidth 32))
  | 0x30 => s.modPort_ pkg die fun q => { q with msi := low 14 &&& ~~~(0xFF#64) }
  | 0x38 => s.modPort_ pkg die fun q => { q with msiId := low 11 }
  | _ => s

/-- A store to the device window (R375): a block or frame-map word, the nonce of a report (its last word requests it, log 28), a port's
register, or an interrupt's identity written to a file's seteipnum_le. -/
def State.deviceStore (s : State) (pkg off : Nat) (v : Word) : State :=
  if off < 0x40 then s.window pkg (.bootConfigurationWrite pkg (off / 8 * 8) v)
  else if 0x400 ≤ off ∧ off < 0x800 then s.window pkg (.frameMapWrite pkg ((off - 0x400) / 16) (off / 8 % 2 == 1) v)
  else if 0x10000 ≤ off ∧ off < 0x10020 then
    let s := s.modPkg pkg fun p => { p with nonce := p.nonce.set ((off - 0x10000) / 8) v }
    if off / 8 % 4 = 3 then
      s.window pkg (.attestationRequest pkg ((List.range 4).flatMap fun i => leBytes 8 ((s.pkg pkg).nonce.get 0 i).toNat))
    else s
  else if 0x20000 ≤ off ∧ off < 0x22000 then s.portStore pkg ((off - 0x20000) / 0x1000) (off % 0x1000) v
  else if 0x200000 ≤ off ∧ off < 0x240000 ∧ off % 0x1000 = 0 ∧ off / 0x1000 % 8 < 7 then
    s.msi pkg ((off - 0x200000) / 0x8000) (off / 0x1000 % 8) (v.toNat % 2 ^ 11)
  else s

/-- The result of a hart's load: a value, or an access fault. -/
def State.hartGot (s : State) (pkg hart : Nat) (v : Option Word) : State :=
  s.modPkg pkg fun p => { p with ctlGot := p.ctlGot.set hart v }

/-- A step of the device window carried out; another step changes nothing here. -/
def State.windowStep (s : State) (i : Instr) : State :=
  let o : Out := match i with
    | .bootConfigurationWrite k off v => execBootConfigurationWrite k off v s
    | .frameMapWrite k n second v => execFrameMapWrite k n second v s
    | .attestationRequest k nonce => execAttestationRequest k nonce s
    | .rsptail k die tail => execRsptail k die tail s
    | _ => .next s
  match o with | .next t => t | _ => s
/-- Every store that a device window has still to take is taken, in order: what an access after them finds. -/
def State.drainWindow (s : State) (pkg : Nat) : State :=
  let mine (p : Pending) : Bool := p.chan == windowChan pkg
  ((s.agenda.filter mine).map Pending.step).foldl State.windowStep { s with agenda := s.agenda.filter fun p => !mine p }

/-- One of the eight harts may run: control core 0 from phase 7 on; the others, which the operating system starts, once the boot loader has set
LOCK (R370): an access of such a hart stands for its start as well (log 28). -/
def Pkg.hartRuns (p : Pkg) (hart : Nat) : Bool :=
  decide (7 ≤ p.phase) && !p.ccHeld && decide (hart < 8) && (hart == 0 || p.isLocked)

/-- CONTROL_CORE_ACCESS (R375, R376): package memory through the write-through cache under key slot 0, the device window, whose accesses happen
in the order made, a root port's memory space, or an access fault to the hart. DEDUCED: a hart's access to another package is made while ports work on
the way there, and faults where none is left that could (R286, log 28). -/
def execControlCoreAccess (pkg hart : Nat) (acc : CtlAccess) (s : State) : Out :=
  let pa := match acc with | .load a => a | .store a _ => a
  let space := bitsN pa 55 52
  let fault : Out := .next (s.hartGot pkg hart none)
  let memory (home : Nat) : Out :=
    if !(s.pkg home).keys.has 0 then fault
    else
      let k := s.homeKey home (bitsN pa 39 0)
      match acc with
      | .load _ => .next (s.hartGot pkg hart (some (BitVec.ofNat 64 ((s.under 0 k 8).readN k 8))))
      | .store _ v => .next ((s.under 0 k 8).writeN k 8 v.toNat)
  if !(s.pkg pkg).hartRuns hart then .next s
  else if space = 0 then (if bitsN pa 51 40 ≠ 0 then fault else memory pkg)
  else if space = 1 then
    let home := bitsN pa 51 40
    if !s.pkgIn pkg home || s.severed pkg home then fault
    else if s.blocked pkg home then .next s
    else memory home
  else if space = 2 then
    let s := s.drainWindow pkg
    match acc with
    | .load a => .next (s.hartGot pkg hart (some (s.deviceLoad pkg (bitsN a 51 0)))).fresh
    | .store a v => .next (s.deviceStore pkg (bitsN a 51 0) v)
  else if space ≤ 4 then
    match acc with
    | .load a => .next (s.hartGot pkg hart (some (Config.pcieRead (2 * pkg + space - 3) (bitsN a 47 0))))
    | .store _ _ => .next s
  else fault

end Sys2Proof.Machine
end

