-- ==== Sys2Proof/Machine/Sfu.lean ====
section
/-! DEFINITION. The special functions of vsfu (R146): approximations in fixed point that are fine enough to round
correctly, and the values within the bound that an f32 result may take. -/

namespace Sys2Proof.Machine

/-! ## Fixed point with 320 fraction bits -/

/-- Fraction bits. -/
def fxP : Nat := 320
/-- One. -/
def fxOne : Nat := 2 ^ fxP
/-- Product. -/
def fxMul (a b : Nat) : Nat := a * b / fxOne
/-- Quotient. -/
def fxDiv (a b : Nat) : Nat := a * fxOne / b

/-- Σ t^(2k+1) / (2k+1) from a term on, for atanh (alt: alternating signs, for atan); p is t^(2k+1), q is t². -/
def atanSeries (alt : Bool) (q : Nat) : Nat → Nat → Nat → Int
  | 0, _, _ => 0
  | n + 1, k, p =>
    let x : Int := (p / (2 * k + 1) : Nat)
    (if alt && k % 2 == 1 then -x else x) + atanSeries alt q n (k + 1) (fxMul p q)

/-- atanh of t < 1/2. -/
def fxAtanh (t : Nat) : Nat := (atanSeries false (fxMul t t) 170 0 t).toNat
/-- atan of 1/n. -/
def fxAtanInv (n : Nat) : Int := let t := fxOne / n; atanSeries true (fxMul t t) 170 0 t
/-- ln 2 = 2 atanh(1/3). -/
def fxLn2 : Nat := 2 * fxAtanh (fxOne / 3)
/-- π by Machin's formula. -/
def fxPi : Nat := (16 * fxAtanInv 5 - 4 * fxAtanInv 239).toNat

/-- Σ z^k / k! from a term on. -/
def expSeries (z : Nat) : Nat → Nat → Nat → Nat
  | 0, _, _ => 0
  | n + 1, k, p => p + expSeries z n (k + 1) (fxMul p z / (k + 1))
/-- e^z for z below 1. -/
def fxExp1 (z : Nat) : Nat := expSeries z 120 0 fxOne
/-- e^z for any z ≥ 0: 2^k · e^r. -/
def fxExp (z : Nat) : Nat := let k := z / fxLn2; fxExp1 (z - k * fxLn2) * 2 ^ k
/-- ln of m/2^fxP in [1, 2). -/
def fxLn (m : Nat) : Nat := 2 * fxAtanh (fxDiv (m - fxOne) (m + fxOne))

/-- Σ 2^k x^(2k+1) / (2k+1)!! from a term on. -/
def erfSeries (x2 : Nat) : Nat → Nat → Nat → Nat
  | 0, _, _ => 0
  | n + 1, k, p => p + erfSeries x2 n (k + 1) (fxMul p (2 * x2) / (2 * k + 3))
/-- erf of x ≥ 0: (2/√π) e^(−x²) Σ 2^k x^(2k+1)/(2k+1)!!. -/
def fxErf (x : Nat) : Nat :=
  let x2 := fxMul x x
  let sum := erfSeries x2 1500 0 x
  fxDiv (fxDiv (2 * sum) (Nat.sqrt (fxPi * fxOne))) (fxExp x2)

/-! ## The functions on a finite nonzero value -/

/-- m · 2^e in fixed point; the low bits of a tiny value are lost. -/
def fxOf (m : Nat) (e : Int) : Nat := (scaleDown m (e + fxP)).1

/-- A value of the special functions: (−1)^neg · m · 2^e, exact or with a remainder below it. -/
structure Approx where
  neg   : Bool
  m     : Nat
  e     : Int
  exact : Bool
deriving DecidableEq, Repr

/-- The approximation with a sticky bit for what lies below it. -/
def Approx.sticky (a : Approx) : Nat × Int := if a.exact then (a.m, a.e) else (2 * a.m + 1, a.e - 1)

/-- exp2 of a finite x of magnitude below 2^8 (R146). -/
def apxExp2 (neg : Bool) (m : Nat) (e : Int) : Approx :=
  let x := signedScale neg (fxOf m e) 0
  let k := x.fdiv fxOne
  let f := (x - k * fxOne).toNat
  if f = 0 then
    if (scaleDown m (e + fxP)).2.2 then ⟨false, if neg then fxOne - 1 else fxOne, -(fxP : Int), false⟩ else ⟨false, 1, k, true⟩
  else ⟨false, fxExp1 (fxMul f fxLn2), k - fxP, false⟩

/-- log2 of a finite positive x. -/
def apxLog2 (m : Nat) (e : Int) : Approx :=
  let t := Nat.log2 m
  let k : Int := (t : Int) + e
  let mant := m * fxOne / 2 ^ t
  if m = 2 ^ t then ⟨decide (k < 0), k.natAbs, 0, true⟩
  else
    let y : Int := k * fxOne + (fxDiv (fxLn mant) fxLn2 : Nat)
    ⟨decide (y < 0), y.natAbs, -(fxP : Int), false⟩

/-- 1/x. -/
def apxRcp (neg : Bool) (m : Nat) (e : Int) : Approx :=
  ⟨neg, 2 ^ fxP / m, -(fxP : Int) - e, 2 ^ fxP % m == 0⟩

/-- 1/√x of a positive x. -/
def apxRsq (m : Nat) (e : Int) : Approx :=
  let (m, e) : Nat × Int := if e % 2 = 0 then (m, e) else (2 * m, e - 1)
  let q := Nat.sqrt (2 ^ (2 * fxP) / m)
  ⟨false, q, -(fxP : Int) - e / 2, q * q * m == 2 ^ (2 * fxP)⟩

/-- A magnitude just below 1. -/
def belowOne : Approx := ⟨false, fxOne - 1, -(fxP : Int), false⟩

/-- tanh of x ≥ 0; a value too small for the fixed point is taken as just below x. -/
def apxTanh (m : Nat) (e : Int) : Approx :=
  if (Nat.log2 m : Int) + e < -100 then ⟨false, m * 2 ^ 64 - 1, e - 64, false⟩
  else if 6 ≤ (Nat.log2 m : Int) + e then belowOne
  else let ex := fxExp (2 * fxOf m e); ⟨false, fxDiv (ex - fxOne) (ex + fxOne), -(fxP : Int), false⟩

/-- erf of x ≥ 0. -/
def apxErf (m : Nat) (e : Int) : Approx :=
  if (Nat.log2 m : Int) + e < -100 then
    ⟨false, m * (fxDiv (2 * fxOne) (Nat.sqrt (fxPi * fxOne))), e - fxP, false⟩
  else if 4 ≤ (Nat.log2 m : Int) + e then belowOne
  else ⟨false, fxErf (fxOf m e), -(fxP : Int), false⟩

/-- |v − a| ≤ n ulp of f32 at a, for v the value of f32 bits. -/
def withinUlp (a : Approx) (n : Nat) (bits : Nat) : Bool :=
  match FFmt.value .f32 bits with
  | .fin _ m e =>
    let top : Int := (Nat.log2 a.m : Int) + a.e
    let u : Int := (if top < -126 then -126 else top) - 23
    let lo := if a.e ≤ e then (if a.e ≤ u then a.e else u) else if e ≤ u then e else u
    let d : Int := signedScale false a.m (a.e - lo).toNat - signedScale false m (e - lo).toNat
    decide (d.natAbs ≤ n * 2 ^ (u - lo).toNat)
  | _ => false

/-- The f32 magnitudes within n ulp of a. -/
def candidates (a : Approx) (n : Nat) : List Nat :=
  let (m, e) := a.sticky
  let r := (FFmt.round .f32 false false false m e).1
  ((List.range 5).map fun i => r + i - 2).filter fun b => withinUlp a n b

/-- A result of a special function: an overflow and a flushed result as R81 and R146 say, else correctly rounded, or for f32 with a bound of n > 0 ulp one of the values within it,
a free choice fixed by function and input (R146; log 12). -/
def Approx.result (a : Approx) (f : FFmt) (ftz : Bool) (fn n x : Nat) : Nat × Nat :=
  let (m, e) := a.sticky
  let (r, fl) := f.round false ftz a.neg m e
  if f ≠ .f32 ∨ n = 0 ∨ fl &&& flOF ≠ 0 then (r, fl)
  else match candidates a n with
    | [] => (r, fl)
    | cs =>
      let b := cs.getD (Config.vsfuPick fn (BitVec.ofNat 32 x) % cs.length) r
      let nx := if a.exact && FV.eq (FFmt.value .f32 (f.signed a.neg b)) (.fin a.neg a.m a.e) then 0 else flNX
      if ftz && f.isSub b then (f.signed a.neg 0, flUF + flNX)
      else (f.signed a.neg b, nx ||| (if nx ≠ 0 ∧ (f.isSub b ∨ b = 0) then flUF else 0))

/-- vsfu on one element: bits and flags (R146). -/
def sfu (fn : SFn) (f : FFmt) (ftz : Bool) (x : Nat) : Nat × Nat :=
  match f.input ftz x with
  | .nan s => f.nanOut s
  | .inf neg => match fn with
    | .exp2 => (if neg then 0 else f.infBits, 0)
    | .log2 => if neg then f.nanOut true else (f.infBits, 0)
    | .rcp => (f.signed neg 0, 0)
    | .rsq => if neg then f.nanOut true else (0, 0)
    | .tanh | .erf => (f.signed neg (f.round false false false 1 0).1, 0)
  | .fin neg m e =>
    if m = 0 then match fn with
      | .exp2 => ((f.round false false false 1 0).1, 0)
      | .log2 => (f.signed true f.infBits, flDZ)
      | .rcp | .rsq => (f.signed neg f.infBits, flDZ)
      | .tanh | .erf => (f.signed neg 0, 0)
    else match fn with
      | .exp2 =>
        if 8 ≤ (Nat.log2 m : Int) + e then
          if neg then f.round false ftz false 1 (-1000) else (f.infBits, flOF + flNX)
        else (apxExp2 neg m e).result f ftz 0 1 x
      | .log2 => if neg then f.nanOut true
        else
          let a := apxLog2 m e
          if a.exact then f.round false ftz a.neg a.m a.e else a.result f ftz 1 1 x
      | .rcp => (apxRcp neg m e).result f ftz 2 0 x
      | .rsq => if neg then f.nanOut true else (apxRsq m e).result f ftz 3 0 x
      | .tanh => let a := apxTanh m e; { a with neg := neg }.result f ftz 4 2 x
      | .erf => let a := apxErf m e; { a with neg := neg }.result f ftz 5 2 x

end Sys2Proof.Machine
end

