-- ==== Sys2Proof/WellFormed.lean ====
section
/-! DEFINITION. Which instructions an encoding can give: the operand rules of checks 7 to 9 of R69 that the types of
Syntax.lean do not already carry. The checks that need a strand's mode or registers stand in the meanings. -/

namespace Sys2Proof

/-! ## Types and operand kinds -/

/-- .f32 .f16 .bf16 (R136, column F). -/
def VTy.isF : VTy → Bool
  | .f32 | .f16 | .bf16 => true
  | _ => false

/-- Any float type, f8a and f8b among them (R138). -/
def VTy.isFloat : VTy → Bool
  | .f32 | .f16 | .bf16 | .f8a | .f8b => true
  | _ => false

/-- Signed integer types (R136, column S). -/
def VTy.isS : VTy → Bool
  | .s32 | .s16 | .s8 => true
  | _ => false

/-- Unsigned integer types (R136, column N). -/
def VTy.isN : VTy → Bool
  | .n32 | .n16 | .n8 => true
  | _ => false

/-- Integer types (R136, column I). -/
def VTy.isI (t : VTy) : Bool := t.isS || t.isN
/-- F, I. -/
def VTy.isFI (t : VTy) : Bool := t.isF || t.isI
/-- F, S. -/
def VTy.isFS (t : VTy) : Bool := t.isF || t.isS
/-- All element types. -/
def VTy.isAny (_ : VTy) : Bool := true

/-- Operand kinds: tile or ring. -/
def Spec.tr : Spec → Bool
  | .tile _ | .ring _ _ => true
  | _ => false
/-- Tile, ring or scalar. -/
def Spec.trg : Spec → Bool
  | .none => false
  | _ => true
/-- Scalar. -/
def Spec.g : Spec → Bool
  | .scalar _ => true
  | _ => false
/-- None. -/
def Spec.isNone : Spec → Bool
  | .none => true
  | _ => false
/-- Tile, ring or none. -/
def Spec.trn (s : Spec) : Bool := s.tr || s.isNone
/-- Scalar or none. -/
def Spec.gn (s : Spec) : Bool := s.g || s.isNone
/-- Ring. -/
def Spec.isRing : Spec → Bool
  | .ring _ _ => true
  | _ => false
/-- A destination: a tile, or a ring with a need count of 1 or more (R45, R129). -/
def Spec.dstOk : Spec → Bool
  | .tile _ => true
  | .ring need _ => need != 0
  | _ => false

/-- One row of the table of R136: types, kinds of srcA to srcC, and the mode bits RTZ, FTZ, SAT, HI listed. -/
structure VRow where
  types : VTy → Bool
  a     : Spec → Bool
  b     : Spec → Bool
  c     : Spec → Bool
  rtz   : Bool := false
  ftz   : Bool := false
  sat   : Bool := false
  hi    : Bool := false

/-- vadd, vsub, vmul. -/
def VRow.arith : VRow := ⟨VTy.isFI, Spec.trg, Spec.trg, Spec.isNone, true, true, true, false⟩
/-- vfma. -/
def VRow.fma : VRow := ⟨VTy.isFI, Spec.trg, Spec.trg, Spec.trg, true, true, true, false⟩
/-- vmax, vmin. -/
def VRow.minmax : VRow := ⟨VTy.isFI, Spec.trg, Spec.trg, Spec.isNone, false, true, false, false⟩
/-- vabs, vneg. -/
def VRow.absneg : VRow := ⟨VTy.isFS, Spec.tr, Spec.isNone, Spec.isNone, false, true, true, false⟩
/-- vcvt. -/
def VRow.cvt : VRow := ⟨VTy.isAny, Spec.tr, Spec.isNone, Spec.isNone, true, true, true, false⟩
/-- vred, vscan. -/
def VRow.red : VRow := ⟨VTy.isFI, Spec.tr, Spec.isNone, Spec.isNone, true, true, true, false⟩
/-- vclmul. -/
def VRow.clmul : VRow := ⟨VTy.isN, Spec.tr, Spec.tr, Spec.isNone, false, false, false, true⟩
/-- vsel. -/
def VRow.sel : VRow := ⟨VTy.isFI, Spec.tr, Spec.trg, Spec.trg, false, false, false, false⟩
/-- vpopc. -/
def VRow.popc : VRow := ⟨VTy.isI, Spec.tr, Spec.isNone, Spec.isNone, false, false, false, false⟩
/-- vbcast. -/
def VRow.bcast : VRow := ⟨VTy.isFI, Spec.trg, Spec.isNone, Spec.isNone, false, false, false, false⟩
/-- viota. -/
def VRow.iota : VRow := ⟨VTy.isI, Spec.g, Spec.g, Spec.isNone, false, false, true, false⟩
/-- vperm, vcompact. -/
def VRow.perm : VRow := ⟨VTy.isFI, Spec.tr, Spec.tr, Spec.isNone, false, false, false, false⟩
/-- vzip, vunzip. -/
def VRow.zip : VRow := ⟨VTy.isFI, Spec.tr, Spec.isNone, Spec.isNone, false, false, false, false⟩
/-- vsfu. -/
def VRow.sfu : VRow := ⟨VTy.isF, Spec.tr, Spec.isNone, Spec.isNone, false, true, false, false⟩
/-- vexpand. -/
def VRow.expand : VRow := ⟨VTy.isFI, Spec.tr, Spec.tr, Spec.trn, false, false, false, false⟩
/-- vdot. -/
def VRow.dot : VRow := ⟨VTy.isFI, Spec.tr, Spec.tr, Spec.trn, true, true, false, false⟩
/-- vamax. -/
def VRow.amax : VRow := ⟨VTy.isF, Spec.tr, Spec.isNone, Spec.isNone, false, true, false, false⟩

/-- An ADV bit is admitted on ring operands only (R131, R132). -/
def advOk (adv : Bool) (s : Spec) : Bool := !adv || s.isRing

/-- RTZ and FTZ are admitted for float types, SAT for integer types; a conversion admits what either of its types
does, SAT by its destination (R132; DEDUCED for vcvt, log 17). -/
def VRow.modeOk (r : VRow) (t src : VTy) (o : VOps) : Bool :=
  (!o.rtz || (r.rtz && (t.isFloat || src.isFloat)))
    && (!o.ftz || (r.ftz && (t.isFloat || src.isFloat)))
    && (!o.sat || (r.sat && t.isI))
    && (!o.hi || r.hi)

/-- The operands of a format V word are ones its row accepts. -/
def VRow.ok (r : VRow) (t src : VTy) (o : VOps) : Bool :=
  r.types t && r.modeOk t src o && o.dst.dstOk && r.a o.a && r.b o.b && r.c o.c
    && advOk o.advd o.dst && advOk o.adva o.a && advOk o.advb o.b && advOk o.advc o.c

/-- The kinds of srcA to srcC of a row of R159. -/
structure TRow where
  a : Spec → Bool
  b : Spec → Bool
  c : Spec → Bool

/-- tzero. -/
def TRow.zero : TRow := ⟨Spec.gn, Spec.isNone, Spec.isNone⟩
/-- tmma. -/
def TRow.mma : TRow := ⟨Spec.tr, Spec.tr, Spec.isNone⟩
/-- tacc, tread.F, tquant, tdequant, tplane, tunplane, tcbdec, ttopk. -/
def TRow.one : TRow := ⟨Spec.tr, Spec.isNone, Spec.isNone⟩
/-- tread.blk. -/
def TRow.blk : TRow := ⟨Spec.tr, Spec.trn, Spec.isNone⟩
/-- thad. -/
def TRow.had : TRow := ⟨Spec.tr, Spec.g, Spec.g⟩

/-- The operands of a format T word are ones its row accepts. -/
def TRow.ok (r : TRow) (o : TOps) : Bool :=
  o.dst.dstOk && r.a o.a && r.b o.b && r.c o.c
    && advOk o.advd o.dst && advOk o.adva o.a && advOk o.advb o.b && advOk o.advc o.c

/-- Float types of fadd to ffma and fcmp (R119, R120). -/
def FFmt.scalarOk : FFmt → Bool
  | .f32 | .f16 | .bf16 => true
  | _ => false

/-- A reduction operator is defined for the type (R139). -/
def VRedOp.okFor : VRedOp → VTy → Bool
  | .add, _ | .max, _ | .min, _ => true
  | _, t => t.isI

/-- .c is admitted (R68). -/
def AtomOp.admitsC : AtomOp → Bool
  | .swap | .cas | .fadd => false
  | _ => true

/-- .w, or .d for any operation but fadd (R202). -/
def atomSizeOk (op : AtomOp) : Sz → Bool
  | .w => true
  | .d => op != .fadd
  | _ => false

/-- The tiles of a vzip or vunzip series stay within t0 to t63 (R145). -/
def seriesOk (k : Nat) : Spec → Bool
  | .tile t => t.toNat + k ≤ 64
  | _ => true

/-- The destination of csend is none, or the tile or ring that srcA names (R303). -/
def csendDst : Spec → Spec → Bool
  | .none, _ => true
  | .tile t, .tile u => t == u
  | .ring need q, .ring _ r => need != 0 && q == r
  | _, _ => false

/-- The command of tmx is one the encoding of R174 gives: always, since its types carry the ranges. -/
def TmxCmd.wf : TmxCmd → Bool
  | .zero _ _ | .mma _ _ _ _ _ _ _ | .acc _ _ => true

/-- One e register in two used slots (R47). -/
def eslotsDistinct (l : List (Option EReg)) : Bool :=
  match l with
  | [] => true
  | none :: r => eslotsDistinct r
  | some e :: r => !r.contains (some e) && eslotsDistinct r

/-! ## Places of hardware steps -/

/-- A core's coordinates lie in the architectural ranges of R12. -/
def CoreId.wf (c : CoreId) : Bool := c.pkg < 4096 && c.col < 512 && c.row < 200
/-- A strand context of a core (R16). -/
def StrandId.wf (t : StrandId) : Bool := t.core.wf && t.slot < 8
/-- A crew-home number (R14, R250). -/
def crewNoWf (h : Nat) : Bool := h < 4096 * 6400
/-- An offer record. -/
def RecRef.wf : RecRef → Bool
  | .strand t => t.wf
  | .hw c _ _ => c.wf
/-- The header of a packet. -/
def Hdr.wf (h : Hdr) : Bool := h.target.wf && h.src.wf && h.slot < 8
/-- A memory target lies within the machine (R10, R18). -/
def MemTgt.wf : MemTgt → Bool
  | .slice c off => c.wf && off < 131072
  | .mem p pa k => p < 4096 && pa < 2 ^ 40 && k < 4096
/-- A memory request. -/
def MemReq.wf (m : MemReq) : Bool := m.src.wf && m.tgt.wf && m.slot < 8

/-- Instr.wf: an instruction that some encoding gives, or a hardware step at a place that exists. -/
def Instr.wf : Instr → Bool
  | .nop _ | .add _ _ _ _ | .sub _ _ _ _ | .mul _ _ _ _ | .mulh _ _ _ _ _ | .div _ _ _ _ _ | .rem _ _ _ _ _
  | .and _ _ _ _ | .or _ _ _ _ | .xor _ _ _ _ | .andn _ _ _ _ | .shl _ _ _ _ | .shr _ _ _ _ | .sar _ _ _ _
  | .rot _ _ _ _ | .clz _ _ _ | .popc _ _ _ | .min _ _ _ _ _ | .max _ _ _ _ _ | .sel _ _ _ _ _ | .cmp _ _ _ _ _
  | .cmpk _ _ _ _ _ | .addk _ _ _ _ | .movk _ _ _ | .movh _ _ _ _ => true
  | .ext _ _ _ _ lo w1 => lo.toNat + w1.toNat + 1 ≤ 64
  | .ins _ _ _ lo w1 => lo.toNat + w1.toNat + 1 ≤ 64
  | .lea _ _ _ _ | .coord _ _ _ _ _ | .decoord _ _ _ _ | .pand _ _ _ _ | .por _ _ _ _ | .pxor _ _ _ _
  | .pnot _ _ _ | .pmov _ _ | .br _ _ => true
  | .call _ l _ => l != 0
  | .ret _ _ | .jr _ _ => true
  | .loop _ a _ => a != 0
  | .yield _ d _ => d != 0
  | .fadd _ t _ _ _ _ | .fsub _ t _ _ _ _ | .fmul _ t _ _ _ _ | .ffma _ t _ _ _ _ _ | .fcmp _ _ t _ _ _ => t.scalarOk
  | .fcvt _ _ _ _ _ => true
  | .vseqOpen _ | .vseqLoop _ _ | .vseqStop _ => true
  | .vadd _ t o | .vsub _ t o | .vmul _ t o => VRow.arith.ok t t o
  | .vfma _ t o => VRow.fma.ok t t o
  | .vmax _ t o | .vmin _ t o => VRow.minmax.ok t t o
  | .vabs _ t o | .vneg _ t o => VRow.absneg.ok t t o
  | .vcvt _ t s o => VRow.cvt.ok t s o
  | .vred _ op t o | .vscan _ op t o => VRow.red.ok t t o && op.okFor t
  | .vclmul _ t o => VRow.clmul.ok t t o
  | .vcmp _ cc t o => VRow.minmax.ok t t o && (cc != .un || t.isF)
  | .vsel _ t o => VRow.sel.ok t t o
  | .vpopc _ t o => VRow.popc.ok t t o
  | .vbcast _ t o => VRow.bcast.ok t t o
  | .viota _ t o => VRow.iota.ok t t o
  | .vperm _ t o => VRow.perm.ok t t o
  | .vzip _ k t o => VRow.zip.ok t t o && 2 ≤ k.toNat && k.toNat ≤ 4 && seriesOk k.toNat o.a
  | .vunzip _ k t o => VRow.zip.ok t t o && 2 ≤ k.toNat && k.toNat ≤ 4 && seriesOk k.toNat o.dst
  | .vsfu _ _ t o => VRow.sfu.ok t t o
  | .vcompact _ t o => VRow.perm.ok t t o
  | .vexpand _ t o => VRow.expand.ok t t o
  | .vdot _ t o => VRow.dot.ok t t o
  | .vamax _ t o => VRow.amax.ok t t o
  | .vectorInstructionStart c | .replayStart c | .vectorCompletion c => c.wf
  | .tzero _ e o => TRow.zero.ok o && (o.a.isNone || e == 0)
  | .tmma _ _ _ _ _ o => TRow.mma.ok o
  | .tacc _ o | .tread _ _ o => TRow.one.ok o
  | .treadBlk _ _ o => TRow.blk.ok o
  | .tquant _ _ _ _ o | .tdequant _ _ _ _ o | .tplane _ _ _ _ o | .tunplane _ _ _ _ o | .tcbdec _ _ _ o
  | .ttopk _ _ _ o => TRow.one.ok o
  | .thad _ _ _ o => TRow.had.ok o
  | .tcap _ _ f l r life => f.toNat ≤ l.toNat && r != 0 && life != 0 && life.toNat < 2 ^ 32
  | .tmx _ _ _ cmd => cmd.wf
  | .matrixCommandStart c | .matrixCommandCompletion c | .remoteCommandEntry c => c.wf
  | .tmxArrival m => m.hdr.wf
  | .ld _ _ _ _ _ | .st _ _ _ _ | .lds _ _ _ _ _ _ _ | .sts _ _ _ _ _ _ | .tdef _ _ _ _ | .tfree _ _ | .tstat _ _ _
  | .tsetEmpty _ _ | .tsetReady _ _ => true
  | .rdef _ _ f size => f.toNat + size.toNat ≤ 64
  | .qadvHead _ _ k | .qadvTail _ _ k => 1 ≤ k.toNat && k.toNat ≤ 64
  | .cp _ _ _ _ _ | .cpx _ _ _ _ _ => true
  | .copyCommandStart c | .copyCommandCompletion c _ => c.wf
  | .atom _ op sz _ _ c _ _ => atomSizeOk op sz && (!c || op.admitsC)
  | .red _ op sz _ _ c _ _ => atomSizeOk op sz && (!c || op.admitsC) && op != .swap && op != .cas
  | .fence _ _ m => m != 0
  | .pref _ _ sc _ => sc == .core || sc == .crew
  | .iflush _ _ _ _ | .tlbprobe _ _ _ _ => true
  | .instructionLineFill t _ => t.wf
  | .rtab _ _ l => 4 ≤ l.toNat && l.toNat ≤ 20
  | .nalloc _ _ _ _ | .nfree _ _ _ | .nget _ _ _ _ | .nset _ _ _ _ | .nlink _ _ _ | .nlinkJoin _ _ _
  | .npush _ _ _ | .nnext _ => true
  | .bagPop c => c.wf
  | .nshed _ _ _ _ => true
  | .npool _ _ _ _ slots => 1 ≤ slots.toNat && slots.toNat < 2 ^ 32
  | .nstat _ _ _ => true
  | .pairPush m | .pairShed m => m.hdr.wf
  | .evnew _ k _ sole _ _ _ x => x == 0 || k == .xfer || (k == .sync && sole)
  | .evdel _ _ | .evput _ _ _ | .evbind _ _ _ _ | .evunbind _ _ _ => true
  | .offer _ a b c d _ _ => eslotsDistinct [a, b, c, d] && (a.isSome || b.isSome || c.isSome || d.isSome)
  | .offerResult r => r.wf
  | .evres _ _ _ _ | .evresGet _ _ _ | .evcancel _ _ | .evstat _ _ _ _ => true
  | .evtimer _ abs per _ _ _ => !(abs && per)
  | .offerArrival m => crewNoWf m.home && m.who.wf
  | .settleWindowEnd h _ _ => crewNoWf h
  | .claim m | .claimReply m _ | .release m _ => crewNoWf m.home && m.who.wf
  | .yieldMessage h _ r | .resolutionNotice h _ r | .withdrawal h _ _ r _ => crewNoWf h && r.wf
  | .eventCommit h _ | .consistencyPhase2 h _ | .occurrenceData h _ | .reduceNode h _ _ => crewNoWf h
  | .offerRefusal r _ _ | .reservationLapse r _ _ | .offerDeadline r _ => r.wf
  | .completionNotice t _ => t.wf
  | .disseminationNotice t _ _ _ => t.wf
  | .timerExpiry crew _ => crewNoWf crew
  | .amsend _ _ _ v _ => v.toNat ≤ 58
  | .ambind _ _ _ _ | .amnext _ => true
  | .amArrival m => m.hdr.wf
  | .amDispatch c => c.wf
  | .funbound p m => p < 4096 && m.hdr.wf
  | .append _ _ r n1 _ _ _ => n1.toNat ≤ 5 && r.toNat + n1.toNat ≤ 63
  | .appendArrival m => m.hdr.wf
  | .csend _ k1 o => k1.toNat ≤ 7 && !o.rtz && !o.ftz && !o.sat && !o.hi && !o.advb && !o.advc
      && o.a.tr && o.b.g && o.c.isNone && csendDst o.dst o.a && advOk o.advd o.dst && advOk o.adva o.a
  | .csendArrival m => m.hdr.wf
  | .putt _ _ _ _ _ | .gett _ _ _ _ _ => true
  | .tileTransferArrival m => m.hdr.wf
  | .crsload _ _ _ n => 1 ≤ n.toNat && n.toNat ≤ 1024
  | .crsgo _ _ _ | .crsstat _ _ _ => true
  | .courseOpStart c _ _ | .courseOpCompletion c _ _ => c.wf
  | .courseStart m => m.hdr.wf
  | .ldPacket m | .stPacket m | .atomPacket m => m.wf
  | .reply m | .redirect m => m.dst.wf
  | .retryResend c _ | .ftime c _ => c.wf
  | .flitRoute p c r => p < 4096 && c < 512 && r < 200
  | .swenerFlitReceive p t _ _ | .portFailover p t | .linkTraining p t _ | .trainingSummary p t _ => p < 4096 && t < 36
  | .migrate _ _ _ _ _ _ | .wakerel _ _ _ => true
  | .migrationLineCopy p _ | .wakeReleaseRequest p _ | .wakeReleaseQuery p _ _ _ | .wakeReleaseAnswer p _ => p < 4096
  | .trap _ _ _ => true
  | .syscall _ _ a _ _ => a != 0 && a.toNat ≤ 58
  | .eret _ slot res refl => !(res && refl) && ((!res && !refl) || slot != 0)
  | .upret _ | .csrr _ _ _ | .csrw _ _ _ _ | .csrs _ _ _ _ | .csrc _ _ _ _ => true
  | .crewleadWrite c _ => crewNoWf c
  | .tlbi _ _ _ _ _ | .replay _ _ => true
  | .smove _ _ _ slot _ | .smoveHold _ _ slot | .smoveRelease _ _ slot => slot != 0
  | .sstart _ _ _ _ (.entry role dl) => role != 3 && dl != 0
  | .sstart _ _ _ _ .image => true
  | .placementDescent c m _ => c.wf && m.hdr.wf
  | .strandStartArrival m => m.hdr.wf
  | .sexit _ _ | .halt _ | .keyset _ _ _ _ | .keyerase _ _ _ | .wdog _ _ _ _ => true
  | .hostirq _ _ file id => file != 7 && id != 0
  | .evkill _ _ _ _ => true
  | .trapDelivery c | .forwardingExpiry c _ | .loadExchange c => c.wf
  | .syscallRequest m => m.hdr.wf && m.die < 2
  | .rsptail p d _ => p < 4096 && d < 2
  | .syscallReplyArrival m => m.core.wf && m.die < 2
  | .stop c | .wake c | .battenRead c _ _ | .battenWrite c _ _ _ | .msg c _ | .reset c | .retire c
  | .sramSoftError c _ => c.wf
  | .tamper p | .coldReset p | .bringUpPhase p | .timeLoad p _ _ | .bootConfigurationWrite p _ _ | .lock p
  | .frameMapWrite p _ _ _ | .attestationRequest p _ | .measurementExtend p _ _ => p < 4096
  | .pcieInboundRequest p d _ _ => p < 4096 && d < 2
  | .timeBeaconSend p | .timeBeacon p _ _ | .strokeSend p | .strokeWindow p _ | .resetRequest p _ _
  | .governorInterval p => p < 4096
  | .illegalInstruction d _ => 1 ≤ d && d ≤ 7
  | .portReset p t => p < 4096 && t < 36
  | .controlCoreAccess p h _ => p < 4096 && h < 8

end Sys2Proof
end

