-- ==== Sys2Proof/Machine/Vector.lean ====
section
/-! DEFINITION. Meanings of the vector instructions, OPs 0x40 to 0x59, and the steps of the vector sequencer
(R124 to R148). A command reads and writes its bytes in its completion step (log 24). -/

namespace Sys2Proof.Machine

/-- What a vector instruction computes. -/
inductive VKind where
  | add | sub | mul | fma | max | min | abs | neg
  | cvt (src : VTy) | red (op : VRedOp) | scan (op : VRedOp) | clmul | cmp (cc : VCond) | sel | popc | bcast | iota | perm
  | zip (k : Nat) | unzip (k : Nat) | sfu (f : SFn) | compact | expand | dot | amax | csend (k : Nat)
deriving DecidableEq, Repr

/-- A vector instruction's kind, element type and operands. -/
def vecOf : Instr → Option (VKind × VTy × VOps)
  | .vadd _ t o => some (.add, t, o)
  | .vsub _ t o => some (.sub, t, o)
  | .vmul _ t o => some (.mul, t, o)
  | .vfma _ t o => some (.fma, t, o)
  | .vmax _ t o => some (.max, t, o)
  | .vmin _ t o => some (.min, t, o)
  | .vabs _ t o => some (.abs, t, o)
  | .vneg _ t o => some (.neg, t, o)
  | .vcvt _ t src o => some (.cvt src, t, o)
  | .vred _ op t o => some (.red op, t, o)
  | .vscan _ op t o => some (.scan op, t, o)
  | .vclmul _ t o => some (.clmul, t, o)
  | .vcmp _ cc t o => some (.cmp cc, t, o)
  | .vsel _ t o => some (.sel, t, o)
  | .vpopc _ t o => some (.popc, t, o)
  | .vbcast _ t o => some (.bcast, t, o)
  | .viota _ t o => some (.iota, t, o)
  | .vperm _ t o => some (.perm, t, o)
  | .vzip _ k t o => some (.zip k.toNat, t, o)
  | .vunzip _ k t o => some (.unzip k.toNat, t, o)
  | .vsfu _ f t o => some (.sfu f, t, o)
  | .vcompact _ t o => some (.compact, t, o)
  | .vexpand _ t o => some (.expand, t, o)
  | .vdot _ t o => some (.dot, t, o)
  | .vamax _ t o => some (.amax, t, o)
  | .csend _ k1 o => some (.csend (k1.toNat + 1), .f32, o)
  | _ => none

/-- The layouts of dst, srcA, srcB and srcC (R126, R136 to R145). DEDUCED: vbcast's srcA is the one element that it reads, so only that element's
place is checked (R143, log 64). -/
def vLays (k : VKind) (t : VTy) (h : Shape) : Lay × Lay × Lay × Lay :=
  let sh : Lay := ⟨none, t.bytes, 1⟩
  match k with
  | .cvt src => (sh, ⟨none, src.bytes, 1⟩, sh, sh)
  | .red _ => (⟨some h.rows, t.bytes, 1⟩, sh, sh, sh)
  | .dot => (⟨some h.rows, 4, 1⟩, sh, sh, ⟨some h.rows, 4, 1⟩)
  | .amax => (⟨some (h.rows * ((h.row + 31) / 32)), t.bytes, 1⟩, sh, sh, sh)
  | .bcast => (sh, ⟨some 1, t.bytes, 1⟩, sh, sh)
  | .zip k => (⟨some (k * h.count), t.bytes, 1⟩, ⟨none, t.bytes, k⟩, sh, sh)
  | .unzip k => (⟨none, t.bytes, k⟩, ⟨some (k * h.count), t.bytes, 1⟩, sh, sh)
  | .add | .sub | .mul | .fma | .max | .min | .abs | .neg | .scan _ | .clmul | .cmp _ | .sel | .popc | .iota | .perm
  | .sfu _ | .compact | .expand | .csend _ => (sh, sh, sh, sh)

/-- Tiles of the destination series. -/
def VKind.kd : VKind → Nat
  | .unzip k => k
  | _ => 1
/-- Tiles of srcA's series. -/
def VKind.ka : VKind → Nat
  | .zip k => k
  | _ => 1

/-- The operands of a vector instruction to be resolved. -/
def vPOps (k : VKind) (o : VOps) : POp × POp × POp × POp :=
  (⟨o.dst, o.advd, k.kd⟩, ⟨o.a, o.adva, k.ka⟩, ⟨o.b, o.advb, 1⟩, ⟨o.c, o.advc, 1⟩)

/-! ## Elements -/

/-- An integer element's value. -/
def vIv (t : VTy) (x : Nat) : Int := intVal t.isS t.width x

/-- A maximum or minimum of two elements (R85, R137). -/
def vMaxMin (mx : Bool) (t : VTy) (ftz : Bool) (a b : Nat) : Nat × Nat :=
  match t.fmt with
  | some f => let (v, fl) := fMaxMin mx (f.input ftz a) (f.input ftz b); ((f.ofValue false ftz v).1, fl)
  | none =>
    let lt := decide (vIv t a < vIv t b)
    (if mx then (if lt then b else a) else (if lt then a else b), 0)

/-- A sign operation on a float's bits: the magnitude under FTZ, and the new sign (R81, R137). -/
def vSign (f : FFmt) (ftz : Bool) (a : Nat) (neg : Bool → Bool) : Nat :=
  let w := f.width
  let mag := a % 2 ^ (w - 1)
  let mag := if ftz && f.isSub a then 0 else mag
  f.signed (neg (a / 2 ^ (w - 1) % 2 == 1)) mag

/-- Carry-less product (R143). -/
def clmulN : Nat → Nat → Nat → Nat
  | 0, _, _ => 0
  | n + 1, a, b => (if b % 2 = 1 then a else 0) ^^^ clmulN n (2 * a) (b / 2)

/-- An element as an instruction reads it: under FTZ a subnormal float is a zero of its sign (R81). -/
def vRead (t : VTy) (ftz : Bool) (x : Nat) : Nat :=
  match t.fmt with
  | some f => if ftz && f.isSub x then f.signed (x / 2 ^ (f.width - 1) % 2 == 1) 0 else x
  | none => x

/-- A conversion of one element; where both types are one float type it copies the element as it is read, but for a signalling NaN
(R138, log 59). -/
def vCvt (d s : VTy) (o : VOps) (x : Nat) : Nat × Nat :=
  match d.fmt, s.fmt with
  | some fd, some fs =>
    if d = s then (if (fs.value x).isSig then fd.nanOut true else (vRead s o.ftz x, 0))
    else fd.ofValue o.rtz o.ftz (fs.input o.ftz x)
  | none, some fs =>
    let (v, fl) := toIntV o.rtz (intMin d.isS d.width) (intMax d.isS d.width) (fs.input o.ftz x)
    (wrapN v d.width, fl)
  | some fd, none => fd.ofInt o.rtz o.ftz (vIv s x)
  | none, none => intOut (o.sat && decide (d.width ≤ s.width)) d.isS d.width (vIv s x)

/-- A comparison of two elements and its flags (R142). -/
def vCmp (cc : VCond) (t : VTy) (ftz : Bool) (a b : Nat) : Bool × Nat :=
  match t.fmt with
  | some f =>
    let x := f.input ftz a
    let y := f.input ftz b
    let un := x.isNan || y.isNan
    let sig := if x.isSig || y.isSig then flNV else 0
    let any := if un then flNV else 0
    match cc with
    | .eq => (FV.eq x y, sig)
    | .ne => (un || !FV.eq x y, sig)
    | .un => (un, sig)
    | .lt => (FV.lt x y, any)
    | .le => (FV.lt x y || FV.eq x y, any)
    | .gt => (FV.lt y x, any)
    | .ge => (FV.lt y x || FV.eq x y, any)
  | none =>
    let x := vIv t a
    let y := vIv t b
    (match cc with
      | .eq => decide (x = y) | .ne => decide (x ≠ y) | .un => false
      | .lt => decide (x < y) | .le => decide (x ≤ y) | .gt => decide (y < x) | .ge => decide (y ≤ x), 0)

/-- An element of the elementwise instructions of R137. -/
def vElem (k : VKind) (t : VTy) (o : VOps) (a b c : Nat) : Nat × Nat :=
  match t.fmt with
  | some f =>
    let x := f.input o.ftz a
    let y := f.input o.ftz b
    match k with
    | .add => f.addV o.rtz o.ftz x y
    | .sub => f.addV o.rtz o.ftz x y.negate
    | .mul => f.mulR o.rtz o.ftz x y
    | .fma => f.fmaR o.rtz o.ftz x y (f.input o.ftz c)
    | .max => vMaxMin true t o.ftz a b
    | .min => vMaxMin false t o.ftz a b
    | .abs => (vSign f o.ftz a fun _ => false, 0)
    | .neg => (vSign f o.ftz a fun n => !n, 0)
    | .sfu fn => sfu fn f o.ftz a
    | .cvt src => vCvt t src o a
    | .cmp cc => let (r, fl) := vCmp cc t o.ftz a b; (if r then 1 else 0, fl)
    | .sel => (if a = 0 then c else b, 0)
    | _ => (a, 0)
  | none =>
    let w := t.width
    let out := intOut o.sat t.isS w
    match k with
    | .add => out (vIv t a + vIv t b)
    | .sub => out (vIv t a - vIv t b)
    | .mul => out (vIv t a * vIv t b)
    | .fma => out (vIv t a * vIv t b + vIv t c)
    | .max => vMaxMin true t o.ftz a b
    | .min => vMaxMin false t o.ftz a b
    | .abs => out ((vIv t a).natAbs : Int)
    | .neg => out (-(vIv t a))
    | .cvt src => vCvt t src o a
    | .cmp cc => let (r, fl) := vCmp cc t o.ftz a b; (if r then 1 else 0, fl)
    | .sel => (if a = 0 then c else b, 0)
    | .popc => (popN w a, 0)
    | .clmul => let p := clmulN w a b; (if o.hi then p / 2 ^ w % 2 ^ w else p % 2 ^ w, 0)
    | _ => (a, 0)

/-- One combination of vred or vscan (R139). -/
def vRedOne (op : VRedOp) (t : VTy) (o : VOps) (x y : Nat × Nat) : Nat × Nat :=
  let fl := x.2 ||| y.2
  let (r, f) : Nat × Nat := match op with
    | .add => vElem .add t o x.1 y.1 0
    | .max => vMaxMin true t o.ftz x.1 y.1
    | .min => vMaxMin false t o.ftz x.1 y.1
    | .and => (x.1 &&& y.1, 0)
    | .or => (x.1 ||| y.1, 0)
    | .xor => (x.1 ^^^ y.1, 0)
  (r, fl ||| f)

/-- A list cut into rows of n. -/
def rowsOf (n : Nat) : Nat → List Nat → List (List Nat)
  | 0, _ => []
  | r + 1, l => l.take n :: rowsOf n r (l.drop n)

/-- The tree over a row (R98). -/
def vTree (op : VRedOp) (t : VTy) (o : VOps) (row : List Nat) : Nat × Nat :=
  (pairTree (vRedOne op t o) 21 (row.map fun x => (vRead t o.ftz x, 0))).getD (0, 0)

/-- The running results of a row (R139). -/
def vScanRow (op : VRedOp) (t : VTy) (o : VOps) : Nat × Nat → List Nat → List (Nat × Nat)
  | _, [] => []
  | acc, x :: r => let a := vRedOne op t o acc (x, 0); a :: vScanRow op t o a r

/-- A product of vdot as f32 bits or as an integer modulo 2^32, with flags (R99). -/
def vDotProd (t : VTy) (o : VOps) (a b : Nat) : Nat × Nat :=
  match t.fmt with
  | some f => FFmt.mulR .f32 o.rtz o.ftz (f.input o.ftz a) (f.input o.ftz b)
  | none => (wrapN (vIv t a * vIv t b) 32, 0)

/-- A tree addition of vdot. -/
def vDotAdd (t : VTy) (o : VOps) (x y : Nat × Nat) : Nat × Nat :=
  match t.fmt with
  | some _ =>
    let (r, f) := FFmt.addV .f32 o.rtz o.ftz (FFmt.input .f32 o.ftz x.1) (FFmt.input .f32 o.ftz y.1)
    (r, x.2 ||| y.2 ||| f)
  | none => ((x.1 + y.1) % 2 ^ 32, 0)

/-- max |a| of a block (R141). -/
def vAmaxBlock (f : FFmt) (ftz : Bool) (bl : List Nat) : Nat × Nat :=
  let vs := bl.map (f.input ftz)
  if vs.any FV.isNan then (f.canon, if vs.any FV.isSig then flNV else 0)
  else ((bl.map fun x => vSign f ftz x fun _ => false).foldl max 0, 0)

/-- Blocks of 32 of a row. -/
def blocks32 : Nat → List Nat → List (List Nat)
  | 0, _ => []
  | n + 1, l => l.take 32 :: blocks32 n (l.drop 32)

/-- vcompact (R144). -/
def vCompact (a b : List Nat) : List Nat :=
  let l := ((a.zip b).filter fun p => p.2 != 0).map Prod.fst
  l ++ List.replicate (a.length - l.length) 0
/-- vexpand (R144). -/
def vExpand : List Nat → List Nat → List Nat → List Nat
  | a, m :: bs, c =>
    if m = 0 then c.headD 0 :: vExpand a bs c.tail else a.headD 0 :: vExpand a.tail bs c.tail
  | _, [], _ => []

/-- Results gathered with their flags or-ed. -/
def withFlags (l : List (Nat × Nat)) : List Nat × Nat := (l.map Prod.fst, l.foldl (fun f p => f ||| p.2) 0)

/-- The results of a vector instruction, one list for each destination tile, and its flags (R137 to R146). as: srcA's
series. n: the shape's element count. -/
def vCompute (k : VKind) (t : VTy) (o : VOps) (h : Shape) (as_ : List (List Nat)) (b c : List Nat) : List (List Nat) × Nat :=
  let a := as_.headD []
  let one (r : List Nat × Nat) : List (List Nat) × Nat := ([r.1], r.2)
  match k with
  | .red op => one (withFlags ((rowsOf h.row h.rows a).map (vTree op t o)))
  | .scan op => one (withFlags ((rowsOf h.row h.rows a).flatMap fun row => match row with
      | [] => []
      | x :: r => let x := vRead t o.ftz x; (x, 0) :: vScanRow op t o (x, 0) r))
  | .dot =>
    let ps := (rowsOf h.row h.rows ((List.range h.count).map id)).map fun row => row.map fun m => vDotProd t o (a.getD m 0) (b.getD m 0)
    one (withFlags (ps.zipIdx.map fun q =>
      let tr := (pairTree (vDotAdd t o) 21 q.1).getD (0, 0)
      if c = [] then tr else vDotAdd t o tr (c.getD q.2 0, 0)))
  | .amax => match t.fmt with
    | some f => one (withFlags ((rowsOf h.row h.rows a).flatMap fun row =>
        (blocks32 ((h.row + 31) / 32) row).map (vAmaxBlock f o.ftz)))
    | none => ([], 0)
  | .bcast => ([List.replicate h.count (a.headD 0)], 0)
  | .iota => one (withFlags ((List.range h.count).map fun (m : Nat) =>
      intOut o.sat t.isS t.width (vIv t (a.headD 0) + (m : Int) * vIv t (b.headD 0))))
  | .perm => ([b.map fun i => if i < h.count then a.getD i 0 else 0], 0)
  | .compact => ([vCompact a b], 0)
  | .expand => ([vExpand a b c], 0)
  | .zip kk => ([(List.range (kk * h.count)).map fun i => (as_.getD (i % kk) []).getD (i / kk) 0], 0)
  | .unzip kk => ((List.range kk).map fun j => (List.range h.count).map fun m => a.getD (m * kk + j) 0, 0)
  | .add | .sub | .mul | .fma | .max | .min | .abs | .neg | .cvt _ | .clmul | .cmp _ | .sel | .popc | .sfu _ | .csend _ =>
    one (withFlags ((List.range h.count).map fun m => vElem k t o (a.getD m 0) (b.getD m 0) (c.getD m 0)))

/-! ## Resolution -/

/-- What resolving an instruction comes to: a fault with its lowest element and marked tile, or its operands and whether
their conditions hold. -/
inductive VPlan where
  | bad (detail m : Nat) (mark : Option Nat)
  | ok (ready : Bool) (shape : List Word) (dst a b c : List Opnd)

/-- The lowest faulting element of the operands of a layout (R127). -/
def State.badElem (s : State) (c : CoreId) (h : Shape) (l : List (Lay × List Opnd)) : Option Nat :=
  let ms := l.filterMap fun p => ((opTiles p.2).filterMap fun t => p.1.badPlace h (tileBase ((s.core c).tile t))).min?
  ms.min?

/-- The checks of R135 after VSEQ, in order, then the operand conditions. ws: the words of the shape record, read once when the instruction
issues or its replay starts (R127). va, vb and vc: scalar operands. -/
def State.vPlan (s : State) (c : CoreId) (k : VKind) (t : VTy) (o : VOps) (ws : List Word) (va vb vc : Word) : VPlan :=
  let core := s.core c
  match (shapeOf ws).filter fun h => match k with | .csend _ => h.count % 32 == 0 | _ => true with
  | none => .bad 0x40 0 none
  | some h =>
    let (pd, pa, pb, pc) := vPOps k o
    let d := core.dstOps pd
    let a := core.srcOps va pa
    let b := core.srcOps vb pb
    let cc := core.srcOps vc pc
    let all := opTiles (d.getD [] ++ a.getD [] ++ b.getD [] ++ cc.getD [])
    if h.fmt = 15 ∨ all.any (fun t => tileFmt (core.tile t) == 15) then .bad 0x42 0 none
    else match d, a, b, cc with
      | some d, some a, some b, some cc =>
        match core.marked all with
        | some t => .bad 0x44 0 (some t)
        | none =>
          let (ld, la, lb, lc) := vLays k t h
          match s.badElem c h [(ld, d), (la, a), (lb, b), (lc, cc)] with
          | some m => .bad 0x41 m none
          | none =>
            let srcs := opTiles (a ++ b ++ cc)
            .ok (core.dstReady .empty pd d srcs && core.srcReady pa a && core.srcReady pb b && core.srcReady pc cc) ws d a b cc
      | _, _, _, _ => .bad 0x43 0 none

/-- Engines of a core run: not while it is machine-checked (R350). -/
def Core.enginesRun (c : Core) : Bool := c.mcheck.isNone

/-! ## Issue -/

/-- The fault of a plan at issue. -/
def State.vFault (s : State) (detail : Nat) (mark : Option Nat) : Report :=
  match mark with
  | some t => s.markFault t 0x44
  | none => s.fault detail

/-- A vector instruction issues (R129 to R135): it takes its operands and a buffer entry; a capture records it. DEDUCED: one that finds the
buffer's 16 entries taken stalls before its own checks are made, and an instruction's entry is free again once it starts (log 64). -/
def State.vIssue (s : State) (i : Instr) (k : VKind) (t : VTy) (o : VOps) : Res :=
  let c := s.myCore
  let slot := s.cur.slot
  let mine := c.seq == .capturing slot
  if c.seq != .idle && !mine then .stall
  else if 16 ≤ c.vbuf.length then .stall
  else if mine && decide (16 ≤ c.run.length) then
    .fault (s.modMyCore fun c => { c with seq := .idle, run := [] }) (s.fault 0x46)
  else
    let va := s.scalarOf o.a
    let vb := s.scalarOf o.b
    let vc := s.scalarOf o.c
    match s.vPlan s.cur.core k t o (s.shapeWords s.cur.core o.shape.toNat) va vb vc with
    | .bad d _ mark => .fault s (s.vFault d mark)
    | .ok false _ _ _ _ _ => .stall
    | .ok true ws d a b cc =>
      let cmd : Cmd := { instr := i, slot := slot, sid := s.cur.gid, ctx := s.ctx, fpc := s.me.pc, dst := d,
                         srcs := [a, b, cc], scal := [va, vb, vc], shapes := [ws] }
      .ok (s.modMyCore fun c =>
        let c := c.take (vPOps k o).1 d (a ++ b ++ cc)
        { c with vbuf := c.vbuf ++ [cmd], run := if mine then c.run ++ [cmd] else c.run })

/-- The meaning of a vector instruction. -/
def execVec (i : Instr) (g : Guard) (s : State) : Out :=
  issueU i g (fun s => match vecOf i with
    | some (k, t, o) => s.vIssue i k t o
    | none => .ok s) s

/-- vadd (R137). -/
def execVadd (g : Guard) (t : VTy) (o : VOps) (s : State) : Out := execVec (.vadd g t o) g s
/-- vsub (R137). -/
def execVsub (g : Guard) (t : VTy) (o : VOps) (s : State) : Out := execVec (.vsub g t o) g s
/-- vmul (R137). -/
def execVmul (g : Guard) (t : VTy) (o : VOps) (s : State) : Out := execVec (.vmul g t o) g s
/-- vfma (R137). -/
def execVfma (g : Guard) (t : VTy) (o : VOps) (s : State) : Out := execVec (.vfma g t o) g s
/-- vmax (R137). -/
def execVmax (g : Guard) (t : VTy) (o : VOps) (s : State) : Out := execVec (.vmax g t o) g s
/-- vmin (R137). -/
def execVmin (g : Guard) (t : VTy) (o : VOps) (s : State) : Out := execVec (.vmin g t o) g s
/-- vabs (R137). -/
def execVabs (g : Guard) (t : VTy) (o : VOps) (s : State) : Out := execVec (.vabs g t o) g s
/-- vneg (R137). -/
def execVneg (g : Guard) (t : VTy) (o : VOps) (s : State) : Out := execVec (.vneg g t o) g s
/-- vcvt (R138). -/
def execVcvt (g : Guard) (t src : VTy) (o : VOps) (s : State) : Out := execVec (.vcvt g t src o) g s
/-- vred (R139). -/
def execVred (g : Guard) (op : VRedOp) (t : VTy) (o : VOps) (s : State) : Out := execVec (.vred g op t o) g s
/-- vscan (R139). -/
def execVscan (g : Guard) (op : VRedOp) (t : VTy) (o : VOps) (s : State) : Out := execVec (.vscan g op t o) g s
/-- vclmul (R143). -/
def execVclmul (g : Guard) (t : VTy) (o : VOps) (s : State) : Out := execVec (.vclmul g t o) g s
/-- vcmp (R142). -/
def execVcmp (g : Guard) (cc : VCond) (t : VTy) (o : VOps) (s : State) : Out := execVec (.vcmp g cc t o) g s
/-- vsel (R142). -/
def execVsel (g : Guard) (t : VTy) (o : VOps) (s : State) : Out := execVec (.vsel g t o) g s
/-- vpopc (R143). -/
def execVpopc (g : Guard) (t : VTy) (o : VOps) (s : State) : Out := execVec (.vpopc g t o) g s
/-- vbcast (R143). -/
def execVbcast (g : Guard) (t : VTy) (o : VOps) (s : State) : Out := execVec (.vbcast g t o) g s
/-- viota (R143). -/
def execViota (g : Guard) (t : VTy) (o : VOps) (s : State) : Out := execVec (.viota g t o) g s
/-- vperm (R144). -/
def execVperm (g : Guard) (t : VTy) (o : VOps) (s : State) : Out := execVec (.vperm g t o) g s
/-- vzip (R145). -/
def execVzip (g : Guard) (k : BitVec 4) (t : VTy) (o : VOps) (s : State) : Out := execVec (.vzip g k t o) g s
/-- vunzip (R145). -/
def execVunzip (g : Guard) (k : BitVec 4) (t : VTy) (o : VOps) (s : State) : Out := execVec (.vunzip g k t o) g s
/-- vsfu (R146). -/
def execVsfu (g : Guard) (f : SFn) (t : VTy) (o : VOps) (s : State) : Out := execVec (.vsfu g f t o) g s
/-- vcompact (R144). -/
def execVcompact (g : Guard) (t : VTy) (o : VOps) (s : State) : Out := execVec (.vcompact g t o) g s
/-- vexpand (R144). -/
def execVexpand (g : Guard) (t : VTy) (o : VOps) (s : State) : Out := execVec (.vexpand g t o) g s
/-- vdot (R140). -/
def execVdot (g : Guard) (t : VTy) (o : VOps) (s : State) : Out := execVec (.vdot g t o) g s
/-- vamax (R141). -/
def execVamax (g : Guard) (t : VTy) (o : VOps) (s : State) : Out := execVec (.vamax g t o) g s

/-! ## Capture and replay (R133, R147) -/

/-- vseq.open. -/
def execVseqOpen (g : Guard) (s : State) : Out :=
  issueU (.vseqOpen g) g (fun s =>
    let slot := s.cur.slot
    match s.myCore.seq with
    | .idle => .ok (s.modMyCore fun c => { c with seq := .capturing slot, run := [] })
    | .capturing x => if x = slot then .fault s (s.fault 0x46) else .stall
    | .looping x _ _ => if x = slot then .fault s (s.fault 0x46) else .stall) s

/-- vseq.loop: the low 32 bits of g[a] are the count; 0 closes the capture. A run with no instruction has no replay to start: the sequencer
goes on from LOOPING by its own step (log 64). -/
def execVseqLoop (g : Guard) (a : Reg) (s : State) : Out :=
  issueU (.vseqLoop g a) g (fun s =>
    let n := (s.rg a).toNat % 2 ^ 32
    if s.myCore.seq = .capturing s.cur.slot then
      .ok (s.modMyCore fun c => { c with seq := if n = 0 then .idle else .looping s.cur.slot n 0 })
    else .fault s (s.fault 0x46)) s

/-- vseq.stop: the capture closes, or replays not yet started are abandoned. -/
def execVseqStop (g : Guard) (s : State) : Out :=
  issueU (.vseqStop g) g (fun s =>
    let slot := s.cur.slot
    match s.myCore.seq with
    | .capturing x => if x = slot then .ok (s.modMyCore fun c => { c with seq := .idle, run := [] }) else .fault s (s.fault 0x46)
    | .looping x _ _ => if x = slot then .ok (s.modMyCore fun c => { c with seq := .idle }) else .fault s (s.fault 0x46)
    | .idle => .fault s (s.fault 0x46)) s

/-! ## The sequencer's steps -/

/-- A replayed instruction that fails: once its destination's conditions hold (R133), its tiles are EMPTY and marked and a ring slot is taken
(R134); a ring of SIZE 0 has no tile to mark, and an in-place tile that a failure has left EMPTY and marked is not waited for. None while it
waits. The fault is kept under its own detail (R322, log 64). DESIGN CHOICE: of a replay's number above 255 ARG holds the low 8 bits (log 64). -/
def State.vReplayFail (s : State) (c : CoreId) (cmd : Cmd) (o : VOps) (k : VKind) (detail m : Nat) : Option State :=
  let core := s.core c
  let (pd, pa, pb, pc) := vPOps k o
  match core.dstOps pd with
  | none => some s
  | some d =>
    let srcs := opTiles (((core.srcOps 0 pa).getD []) ++ ((core.srcOps 0 pb).getD []) ++ ((core.srcOps 0 pc).getD []))
    if core.dstReady .empty pd d (srcs.filter fun t => !(tileMark (core.tile t) && tileSt (core.tile t) == tEmpty)) then
      some (s.modCore c fun core =>
        (core.take pd d []).fail d [] ⟨3, detail, 0, cmd.replay % 256, cmd.fpc, BitVec.ofNat 64 m⟩)
    else none

/-- A command resolved at the start of a replay with the shape record it read there (R127, R133): none while it waits, no command where it
has failed. -/
def State.vReplayResolve (s : State) (c : CoreId) (cmd : Cmd) : Option (State × Option Cmd) :=
  match vecOf cmd.instr with
  | none => some (s, none)
  | some (k, t, o) =>
    match s.vPlan c k t o (cmd.shapes.headD []) (cmd.scal.getD 0 0) (cmd.scal.getD 1 0) (cmd.scal.getD 2 0) with
    | .bad detail m _ => (s.vReplayFail c cmd o k detail m).map fun s => (s, none)
    | .ok false _ _ _ _ _ => none
    | .ok true ws d a b cc =>
      some (s.modCore c fun core => core.take (vPOps k o).1 d (a ++ b ++ cc),
        some { cmd with dst := d, srcs := [a, b, cc], shapes := [ws] })

/-- A captured command of a replay that starts: its number, and its shape record as it stands then (R127). -/
def State.replayed (s : State) (c : CoreId) (n : Nat) (cmd : Cmd) : Cmd :=
  match vecOf cmd.instr with
  | some (_, _, o) => { cmd with replay := n, shapes := [s.shapeWords c o.shape.toNat] }
  | none => { cmd with replay := n }

/-- REPLAY_START: the first instruction of the next replay starts; at the last replay the sequencer goes IDLE (R133). A failure there ends the
loop (R134), and the rest of that replay counts as not started (log 64); a run with no instruction has nothing to replay. -/
def execReplayStart (c : CoreId) (s : State) : Out :=
  let core := s.core c
  match core.seq with
  | .looping slot left done =>
    if core.vcur.isSome || !core.vbuf.isEmpty || !core.enginesRun then .next s
    else match core.run.map (s.replayed c (done + 1)) with
      | [] => .next (s.modCore c fun k => { k with seq := .idle })
      | cmd :: rest =>
        match s.vReplayResolve c cmd with
        | none => .next s
        | some (s, none) => .next (s.modCore c fun k => { k with seq := .idle })
        | some (s, some cmd) =>
          .next (s.modCore c fun k =>
            { k with vcur := some cmd, vbuf := rest,
                     seq := if left ≤ 1 then .idle else .looping slot (left - 1) (done + 1) })
  | _ => .next s

/-- VECTOR_INSTRUCTION_START: the head of the buffer starts; a replayed instruction resolves its operands first (R128, R133).
DEDUCED: the entry of an instruction that starts is free (log 64). -/
def execVectorInstructionStart (c : CoreId) (s : State) : Out :=
  let core := s.core c
  match core.vbuf with
  | [] => .next s
  | cmd :: rest =>
    if core.vcur.isSome || !core.enginesRun then .next s
    else
      let start (s : State) (cmd : Cmd) : Out :=
        .next (s.modCore c fun k => { k with vcur := some cmd, vbuf := rest })
      if cmd.replay = 0 then start s cmd
      else match s.vReplayResolve c cmd with
        | none => .next s
        | some (s, some cmd) => start s cmd
        | some (s, none) =>
          .next (s.modCore c fun k => { k with vbuf := rest, seq := match k.seq with | .looping _ _ _ => .idle | q => q })

/-- An access of a core to a line of the far part of an operand list is outstanding (R189). -/
def Core.farBusy (k : Core) (f : CoreId) (h : Shape) (l : List (Lay × List Opnd)) : Bool :=
  l.any fun p => p.1.dense.isNone && !(opTiles p.2).isEmpty && k.busyRuns f p.1.size (h.farOffs p.1.size)

/-- The far part of an operand list: the lowest element that lies there. -/
def farElem (h : Shape) (l : List (Lay × List Opnd)) : Option Nat :=
  if !h.split then none
  else if l.any (fun p => p.1.dense.isNone && !(opTiles p.2).isEmpty) then
    (List.range h.count).find? fun m => (h.place 0 m 1).1
  else none

/-! ## csend (R303, R304) -/

/-- csend.f32 (R303). -/
def execCsend (g : Guard) (k1 : BitVec 4) (o : VOps) (s : State) : Out := execVec (.csend g k1 o) g s

/-- The indices of a block that csend selects, ascending: the k of greatest magnitude as R170 ranks them. -/
def csendPick (k : Nat) (bl : List Nat) : List Nat :=
  let top := ((bl.zipIdx.foldl (fun l x => topIns false 6 x l) []).take k).map Prod.snd
  (List.range 32).filter fun i => top.contains i

/-- Block b of a list of elements. -/
def csendBlock (xs : List Nat) (b : Nat) : List Nat := (xs.drop (32 * b)).take 32

/-- A CSEND packet of block b. -/
def csendMsg (hdr : Hdr) (off total k b : Nat) (xs : List Nat) : CsendMsg :=
  let bl := csendBlock xs b
  let pick := csendPick k bl
  ⟨hdr, off, total, b, BitVec.ofNat 32 (pick.foldl (fun m i => m + 2 ^ i) 0), pick.map fun i => BitVec.ofNat 32 (bl.getD i 0)⟩

/-- The source after the residual write-back: each selected element is +0. -/
def csendRest (k : Nat) (xs : List Nat) : List Nat :=
  (List.range (xs.length / 32)).flatMap fun b =>
    let bl := csendBlock xs b
    let pick := csendPick k bl
    bl.zipIdx.map fun x => if pick.contains x.2 then 0 else x.1

/-- A csend ends under R134 with its fault kept with its destination, if it has one. -/
def State.csendFail (s : State) (c : CoreId) (cmd : Cmd) (detail inner : Nat) : State :=
  let d : Deferred := ⟨causeOf detail, detail, inner, cmd.replay % 256, cmd.fpc, 0⟩
  s.modCore c fun core =>
    { core.fail cmd.dst (cmd.srcs.getD 0 []) d with
      vcur := none, vwait := none, seq := match core.seq with | .looping _ _ _ => .idle | q => q }

/-- The offset of block b of a receiving area. -/
def csendOff (off b : Nat) : Nat := off + 128 * b

/-- The steps of a csend at its completion: the address's form is checked (R178), and its packets are sent once no access of the core to a line of
the receiving area is outstanding (R189); once every one is answered it completes, or fails with the first refusal. -/
def State.csendStep (s : State) (c : CoreId) (cmd : Cmd) (k : Nat) (h : Shape) (o : VOps) (xs : List Nat) (ld : Lay) : State :=
  let core := s.core c
  let addr := cmd.scal.getD 1 0
  if !cmd.sent then
    if !mformOk addr then s.csendFail c cmd dMFORM 0
    else match (if addr.getLsbD 63 then s.sliceOf c addr else none) with
    | none => s.csendFail c cmd 0x93 0
    | some (t, off) =>
      if t ≠ c ∧ core.busyRuns t 128 ((List.range (h.count / 32)).map (csendOff off)) then s
      else
      let hdr (tag : Nat) : Hdr := ⟨t, c, cmd.slot, tag, cmd.ctx, {}⟩
      let s := (List.range (h.count / 32)).foldl (fun s b =>
        (s.request c cmd.slot .vector t (if t = c then 0 else sliceLine t (csendOff off b)) [] fun tag =>
          .csendArrival (csendMsg (hdr tag) off (4 * h.count) k b xs)).1) s
      s.modCore c fun core => { core with vcur := some { cmd with sent := true }, vwait := none }
  else if core.reqs.any fun r => r.2.use == .vector then s
  else match core.vwait with
    | some a => s.csendFail c cmd (if a.status != .nack then 0x91 else if a.cause ≤ 4 then 0x90 else a.cause) (if a.cause ≤ 4 then a.cause else a.inner)
    | none =>
      let s := match cmd.dst with | [d] => s.putElems c h ld d (csendRest k xs) | _ => s
      let (pd, pa, pb, pc) := vPOps (.csend k) o
      s.modCore c fun core => { core.complete pd [pa, pb, pc] cmd.dst (cmd.srcs.getD 0 []) with vcur := none }

/-- VECTOR_COMPLETION (R131): results written, destinations READY, STICKY bits or-ed in, rings advanced; a far part that
the far core refuses ends the command as VREMOTE, kept with the destination (R134, R135, R322), and one to whose lines an access of the core is
outstanding waits for it (R189). -/
def execVectorCompletion (c : CoreId) (s : State) : Out :=
  let core := s.core c
  match core.vcur with
  | none => .next s
  | some cmd =>
    match vecOf cmd.instr, shapeOf (cmd.shapes.headD []) with
    | some (k, t, o), some h =>
      let a := cmd.srcs.getD 0 []
      let b := cmd.srcs.getD 1 []
      let cc := cmd.srcs.getD 2 []
      let (pd, pa, pb, pc) := vPOps k o
      let (ld, la, lb, lc) := vLays k t h
      let fail (m : Nat) : Out :=
        let d : Deferred := ⟨3, 0x45, 0, cmd.replay % 256, cmd.fpc, BitVec.ofNat 64 m⟩
        .next (s.modCore c fun core =>
          let core := core.fail cmd.dst (a ++ b ++ cc) d
          { core with vcur := none, seq := match core.seq with | .looping _ _ _ => .idle | q => q })
      let good : Out := match k with
        | .csend kk => .next (s.csendStep c cmd kk h o (match a with | [x] => s.elems c h la x | _ => []) ld)
        | _ =>
        let as_ := a.map fun x => s.elems c h la x
        let bv := match b with | [x] => s.elems c h lb x | _ => []
        let cv := match cc with | [x] => s.elems c h lc x | _ => []
        let (rs, fl) := vCompute k t o h as_ bv cv
        let s := (cmd.dst.zip rs).foldl (fun s p => s.putElems c h ld p.1 p.2) s
        let s := s.modCore c fun core => { core.complete pd [pa, pb, pc] cmd.dst (a ++ b ++ cc) with vcur := none }
        .next (s.cmdFlags c cmd.slot fl)
      if !core.enginesRun then .next s
      else match farElem h [(ld, cmd.dst), (la, a), (lb, b), (lc, cc)] with
        | none => good
        | some m =>
          let f := h.farCore c
          if !(s.sliceAllowed (cmd.ctx == 0) cmd.ctx f) then fail m
          else if (s.core f).dead then
            let ln := sliceLine f (h.place 0 m 1).2
            if s.retryOver ⟨c, cmd.retry⟩ ln then fail m
            else .next (s.modCore c fun k => { k with vcur := some { cmd with retry := markAfter cmd.retry (s.time c.pkg) (dRetry + ln) } })
          else if core.farBusy f h [(ld, cmd.dst), (la, a), (lb, b), (lc, cc)] then .next s
          else good
    | _, _ => .next (s.modCore c fun core => { core with vcur := none })

end Sys2Proof.Machine
end

