-- ==== Sys2Proof/Machine/Dispatch.lean ====
section
/-! DEFINITION. One arm per constructor of Instr: a direct call of its meaning. -/

namespace Sys2Proof.Machine

/-- The meaning of every instruction and hardware step. -/
def exec (i : Instr) (s : State) : Host.Outcome State Fault Refusal :=
  match i with
  | .nop g => Sys2Proof.Machine.execNop g s
  | .add g d a b => Sys2Proof.Machine.execAdd g d a b s
  | .sub g d a b => Sys2Proof.Machine.execSub g d a b s
  | .mul g d a b => Sys2Proof.Machine.execMul g d a b s
  | .mulh g k d a b => Sys2Proof.Machine.execMulh g k d a b s
  | .div g n d a b => Sys2Proof.Machine.execDiv g n d a b s
  | .rem g n d a b => Sys2Proof.Machine.execRem g n d a b s
  | .and g d a b => Sys2Proof.Machine.execAnd g d a b s
  | .or g d a b => Sys2Proof.Machine.execOr g d a b s
  | .xor g d a b => Sys2Proof.Machine.execXor g d a b s
  | .andn g d a b => Sys2Proof.Machine.execAndn g d a b s
  | .shl g d a b => Sys2Proof.Machine.execShl g d a b s
  | .shr g d a b => Sys2Proof.Machine.execShr g d a b s
  | .sar g d a b => Sys2Proof.Machine.execSar g d a b s
  | .rot g d a b => Sys2Proof.Machine.execRot g d a b s
  | .clz g d a => Sys2Proof.Machine.execClz g d a s
  | .popc g d a => Sys2Proof.Machine.execPopc g d a s
  | .min g n d a b => Sys2Proof.Machine.execMin g n d a b s
  | .max g n d a b => Sys2Proof.Machine.execMax g n d a b s
  | .sel g d a b p => Sys2Proof.Machine.execSel g d a b p s
  | .cmp g cc d a b => Sys2Proof.Machine.execCmp g cc d a b s
  | .cmpk g cc d a imm => Sys2Proof.Machine.execCmpk g cc d a imm s
  | .addk g d a imm => Sys2Proof.Machine.execAddk g d a imm s
  | .movk g d imm => Sys2Proof.Machine.execMovk g d imm s
  | .movh g d a imm => Sys2Proof.Machine.execMovh g d a imm s
  | .ext g sx d a lo w1 => Sys2Proof.Machine.execExt g sx d a lo w1 s
  | .ins g d a lo w1 => Sys2Proof.Machine.execIns g d a lo w1 s
  | .lea g d m sz => Sys2Proof.Machine.execLea g d m sz s
  | .coord g rel d a b => Sys2Proof.Machine.execCoord g rel d a b s
  | .decoord g f d a => Sys2Proof.Machine.execDecoord g f d a s
  | .pand g d a b => Sys2Proof.Machine.execPand g d a b s
  | .por g d a b => Sys2Proof.Machine.execPor g d a b s
  | .pxor g d a b => Sys2Proof.Machine.execPxor g d a b s
  | .pnot g d a => Sys2Proof.Machine.execPnot g d a s
  | .pmov g f => Sys2Proof.Machine.execPmov g f s
  | .br g off => Sys2Proof.Machine.execBr g off s
  | .call g l off => Sys2Proof.Machine.execCall g l off s
  | .ret g a => Sys2Proof.Machine.execRet g a s
  | .jr g a => Sys2Proof.Machine.execJr g a s
  | .loop g a off => Sys2Proof.Machine.execLoop g a off s
  | .yield g deadline live => Sys2Proof.Machine.execYield g deadline live s
  | .fadd g t rtz d a b => Sys2Proof.Machine.execFadd g t rtz d a b s
  | .fsub g t rtz d a b => Sys2Proof.Machine.execFsub g t rtz d a b s
  | .fmul g t rtz d a b => Sys2Proof.Machine.execFmul g t rtz d a b s
  | .ffma g t rtz d a b c => Sys2Proof.Machine.execFfma g t rtz d a b c s
  | .fcmp g cc t d a b => Sys2Proof.Machine.execFcmp g cc t d a b s
  | .fcvt g cv rtz d a => Sys2Proof.Machine.execFcvt g cv rtz d a s
  | .vseqOpen g => Sys2Proof.Machine.execVseqOpen g s
  | .vseqLoop g a => Sys2Proof.Machine.execVseqLoop g a s
  | .vseqStop g => Sys2Proof.Machine.execVseqStop g s
  | .vadd g t o => Sys2Proof.Machine.execVadd g t o s
  | .vsub g t o => Sys2Proof.Machine.execVsub g t o s
  | .vmul g t o => Sys2Proof.Machine.execVmul g t o s
  | .vfma g t o => Sys2Proof.Machine.execVfma g t o s
  | .vmax g t o => Sys2Proof.Machine.execVmax g t o s
  | .vmin g t o => Sys2Proof.Machine.execVmin g t o s
  | .vabs g t o => Sys2Proof.Machine.execVabs g t o s
  | .vneg g t o => Sys2Proof.Machine.execVneg g t o s
  | .vcvt g t src o => Sys2Proof.Machine.execVcvt g t src o s
  | .vred g op t o => Sys2Proof.Machine.execVred g op t o s
  | .vscan g op t o => Sys2Proof.Machine.execVscan g op t o s
  | .vclmul g t o => Sys2Proof.Machine.execVclmul g t o s
  | .vcmp g cc t o => Sys2Proof.Machine.execVcmp g cc t o s
  | .vsel g t o => Sys2Proof.Machine.execVsel g t o s
  | .vpopc g t o => Sys2Proof.Machine.execVpopc g t o s
  | .vbcast g t o => Sys2Proof.Machine.execVbcast g t o s
  | .viota g t o => Sys2Proof.Machine.execViota g t o s
  | .vperm g t o => Sys2Proof.Machine.execVperm g t o s
  | .vzip g k t o => Sys2Proof.Machine.execVzip g k t o s
  | .vunzip g k t o => Sys2Proof.Machine.execVunzip g k t o s
  | .vsfu g f t o => Sys2Proof.Machine.execVsfu g f t o s
  | .vcompact g t o => Sys2Proof.Machine.execVcompact g t o s
  | .vexpand g t o => Sys2Proof.Machine.execVexpand g t o s
  | .vdot g t o => Sys2Proof.Machine.execVdot g t o s
  | .vamax g t o => Sys2Proof.Machine.execVamax g t o s
  | .vectorInstructionStart c => Sys2Proof.Machine.execVectorInstructionStart c s
  | .replayStart c => Sys2Proof.Machine.execReplayStart c s
  | .vectorCompletion c => Sys2Proof.Machine.execVectorCompletion c s
  | .tzero g e o => Sys2Proof.Machine.execTzero g e o s
  | .tmma g pa pb ha hb o => Sys2Proof.Machine.execTmma g pa pb ha hb o s
  | .tacc g o => Sys2Proof.Machine.execTacc g o s
  | .tread g f o => Sys2Proof.Machine.execTread g f o s
  | .treadBlk g pl o => Sys2Proof.Machine.execTreadBlk g pl o s
  | .tquant g f pl kd o => Sys2Proof.Machine.execTquant g f pl kd o s
  | .tdequant g f pl kd o => Sys2Proof.Machine.execTdequant g f pl kd o s
  | .tplane g pl kd sat o => Sys2Proof.Machine.execTplane g pl kd sat o s
  | .tunplane g pl kd sat o => Sys2Proof.Machine.execTunplane g pl kd sat o s
  | .tcbdec g pl kd o => Sys2Proof.Machine.execTcbdec g pl kd o s
  | .thad g inv kd o => Sys2Proof.Machine.execThad g inv kd o s
  | .ttopk g val km1 o => Sys2Proof.Machine.execTtopk g val km1 o s
  | .tcap g d first last rights life => Sys2Proof.Machine.execTcap g d first last rights life s
  | .tmx g a cap cmd => Sys2Proof.Machine.execTmx g a cap cmd s
  | .matrixCommandStart c => Sys2Proof.Machine.execMatrixCommandStart c s
  | .matrixCommandCompletion c => Sys2Proof.Machine.execMatrixCommandCompletion c s
  | .tmxArrival m => Sys2Proof.Machine.execTmxArrival m s
  | .remoteCommandEntry c => Sys2Proof.Machine.execRemoteCommandEntry c s
  | .ld g sx sz d m => Sys2Proof.Machine.execLd g sx sz d m s
  | .st g sz v m => Sys2Proof.Machine.execSt g sz v m s
  | .lds g sx sz sc acq d m => Sys2Proof.Machine.execLds g sx sz sc acq d m s
  | .sts g sz sc rel v m => Sys2Proof.Machine.execSts g sz sc rel v m s
  | .tdef g t a imm => Sys2Proof.Machine.execTdef g t a imm s
  | .tfree g t => Sys2Proof.Machine.execTfree g t s
  | .tstat g d f => Sys2Proof.Machine.execTstat g d f s
  | .tsetEmpty g t => Sys2Proof.Machine.execTsetEmpty g t s
  | .tsetReady g t => Sys2Proof.Machine.execTsetReady g t s
  | .rdef g q first size => Sys2Proof.Machine.execRdef g q first size s
  | .qadvHead g q k => Sys2Proof.Machine.execQadvHead g q k s
  | .qadvTail g q k => Sys2Proof.Machine.execQadvTail g q k s
  | .cp g dir sc t m => Sys2Proof.Machine.execCp g dir sc t m s
  | .cpx g dir sc t m => Sys2Proof.Machine.execCpx g dir sc t m s
  | .copyCommandStart c => Sys2Proof.Machine.execCopyCommandStart c s
  | .copyCommandCompletion c place => Sys2Proof.Machine.execCopyCommandCompletion c place s
  | .atom g op sz sc ord c d m => Sys2Proof.Machine.execAtom g op sz sc ord c d m s
  | .red g op sz sc rel c v m => Sys2Proof.Machine.execRed g op sz sc rel c v m s
  | .fence g sc mask => Sys2Proof.Machine.execFence g sc mask s
  | .pref g sz sc m => Sys2Proof.Machine.execPref g sz sc m s
  | .iflush g l b disp => Sys2Proof.Machine.execIflush g l b disp s
  | .tlbprobe g sz d m => Sys2Proof.Machine.execTlbprobe g sz d m s
  | .instructionLineFill t pc => Sys2Proof.Machine.execInstructionLineFill t pc s
  | .rtab g a l => Sys2Proof.Machine.execRtab g a l s
  | .nalloc g d a n => Sys2Proof.Machine.execNalloc g d a n s
  | .nfree g a n => Sys2Proof.Machine.execNfree g a n s
  | .nget g d a imm => Sys2Proof.Machine.execNget g d a imm s
  | .nset g a imm b => Sys2Proof.Machine.execNset g a imm b s
  | .nlink g a b => Sys2Proof.Machine.execNlink g a b s
  | .nlinkJoin g a b => Sys2Proof.Machine.execNlinkJoin g a b s
  | .npush g a b => Sys2Proof.Machine.execNpush g a b s
  | .nnext g => Sys2Proof.Machine.execNnext g s
  | .bagPop c => Sys2Proof.Machine.execBagPop c s
  | .nshed g d a dir => Sys2Proof.Machine.execNshed g d a dir s
  | .npool g keep n a slots => Sys2Proof.Machine.execNpool g keep n a slots s
  | .nstat g k d => Sys2Proof.Machine.execNstat g k d s
  | .pairPush m => Sys2Proof.Machine.execPairPush m s
  | .pairShed m => Sys2Proof.Machine.execPairShed m s
  | .evnew g k sc sole e n p x => Sys2Proof.Machine.execEvnew g k sc sole e n p x s
  | .evdel g e => Sys2Proof.Machine.execEvdel g e s
  | .evput g e f => Sys2Proof.Machine.execEvput g e f s
  | .evbind g e b l => Sys2Proof.Machine.execEvbind g e b l s
  | .evunbind g e b => Sys2Proof.Machine.execEvunbind g e b s
  | .offer g s0 s1 s2 s3 t d => Sys2Proof.Machine.execOffer g s0 s1 s2 s3 t d s
  | .offerResult r => Sys2Proof.Machine.execOfferResult r s
  | .evres g e h r => Sys2Proof.Machine.execEvres g e h r s
  | .evresGet g d e => Sys2Proof.Machine.execEvresGet g d e s
  | .evcancel g e => Sys2Proof.Machine.execEvcancel g e s
  | .evstat g cfg d e => Sys2Proof.Machine.execEvstat g cfg d e s
  | .evtimer g abs per e n t => Sys2Proof.Machine.execEvtimer g abs per e n t s
  | .offerArrival m => Sys2Proof.Machine.execOfferArrival m s
  | .settleWindowEnd home ev window => Sys2Proof.Machine.execSettleWindowEnd home ev window s
  | .claim m => Sys2Proof.Machine.execClaim m s
  | .claimReply m a => Sys2Proof.Machine.execClaimReply m a s
  | .yieldMessage home ev r => Sys2Proof.Machine.execYieldMessage home ev r s
  | .release m onYield => Sys2Proof.Machine.execRelease m onYield s
  | .resolutionNotice home ev r => Sys2Proof.Machine.execResolutionNotice home ev r s
  | .eventCommit home ev => Sys2Proof.Machine.execEventCommit home ev s
  | .consistencyPhase2 home ev => Sys2Proof.Machine.execConsistencyPhase2 home ev s
  | .withdrawal home ev rank r commit => Sys2Proof.Machine.execWithdrawal home ev rank r commit s
  | .offerRefusal r ev m => Sys2Proof.Machine.execOfferRefusal r ev m s
  | .reservationLapse r ev tick => Sys2Proof.Machine.execReservationLapse r ev tick s
  | .offerDeadline r deadline => Sys2Proof.Machine.execOfferDeadline r deadline s
  | .completionNotice t n => Sys2Proof.Machine.execCompletionNotice t n s
  | .occurrenceData home ev => Sys2Proof.Machine.execOccurrenceData home ev s
  | .reduceNode home ev rank => Sys2Proof.Machine.execReduceNode home ev rank s
  | .disseminationNotice t ev round par => Sys2Proof.Machine.execDisseminationNotice t ev round par s
  | .timerExpiry crew ev => Sys2Proof.Machine.execTimerExpiry crew ev s
  | .amsend g a h v tag => Sys2Proof.Machine.execAmsend g a h v tag s
  | .ambind g ring a slot => Sys2Proof.Machine.execAmbind g ring a slot s
  | .amnext g => Sys2Proof.Machine.execAmnext g s
  | .amArrival m => Sys2Proof.Machine.execAmArrival m s
  | .amDispatch c => Sys2Proof.Machine.execAmDispatch c s
  | .funbound pkg m => Sys2Proof.Machine.execFunbound pkg m s
  | .append g d r n1 rel b disp => Sys2Proof.Machine.execAppend g d r n1 rel b disp s
  | .appendArrival m => Sys2Proof.Machine.execAppendArrival m s
  | .csend g k1 o => Sys2Proof.Machine.execCsend g k1 o s
  | .csendArrival m => Sys2Proof.Machine.execCsendArrival m s
  | .putt g rel t b peer => Sys2Proof.Machine.execPutt g rel t b peer s
  | .gett g rel t b peer => Sys2Proof.Machine.execGett g rel t b peer s
  | .tileTransferArrival m => Sys2Proof.Machine.execTileTransferArrival m s
  | .crsload g c a count => Sys2Proof.Machine.execCrsload g c a count s
  | .crsgo g c a => Sys2Proof.Machine.execCrsgo g c a s
  | .crsstat g c d => Sys2Proof.Machine.execCrsstat g c d s
  | .courseOpStart c slot op => Sys2Proof.Machine.execCourseOpStart c slot op s
  | .courseOpCompletion c slot op => Sys2Proof.Machine.execCourseOpCompletion c slot op s
  | .courseStart m => Sys2Proof.Machine.execCourseStart m s
  | .ldPacket m => Sys2Proof.Machine.execLdPacket m s
  | .stPacket m => Sys2Proof.Machine.execStPacket m s
  | .atomPacket m => Sys2Proof.Machine.execAtomPacket m s
  | .reply m => Sys2Proof.Machine.execReply m s
  | .retryResend c rtag => Sys2Proof.Machine.execRetryResend c rtag s
  | .ftime c rtag => Sys2Proof.Machine.execFtime c rtag s
  | .redirect m => Sys2Proof.Machine.execRedirect m s
  | .flitRoute pkg col row => Sys2Proof.Machine.execFlitRoute pkg col row s
  | .swenerFlitReceive pkg port crcOk authOk => Sys2Proof.Machine.execSwenerFlitReceive pkg port crcOk authOk s
  | .portFailover pkg port => Sys2Proof.Machine.execPortFailover pkg port s
  | .linkTraining pkg port lanes => Sys2Proof.Machine.execLinkTraining pkg port lanes s
  | .trainingSummary pkg port agree => Sys2Proof.Machine.execTrainingSummary pkg port agree s
  | .migrate g big d v n c => Sys2Proof.Machine.execMigrate g big d v n c s
  | .migrationLineCopy pkg frame => Sys2Proof.Machine.execMigrationLineCopy pkg frame s
  | .wakerel g d l => Sys2Proof.Machine.execWakerel g d l s
  | .wakeReleaseRequest pkg frame => Sys2Proof.Machine.execWakeReleaseRequest pkg frame s
  | .wakeReleaseQuery pkg frame oldPkg oldFrame => Sys2Proof.Machine.execWakeReleaseQuery pkg frame oldPkg oldFrame s
  | .wakeReleaseAnswer pkg frame => Sys2Proof.Machine.execWakeReleaseAnswer pkg frame s
  | .trap g u code => Sys2Proof.Machine.execTrap g u code s
  | .syscall g d a num e => Sys2Proof.Machine.execSyscall g d a num e s
  | .eret g slot resume reflect => Sys2Proof.Machine.execEret g slot resume reflect s
  | .upret g => Sys2Proof.Machine.execUpret g s
  | .csrr g d ctl => Sys2Proof.Machine.execCsrr g d ctl s
  | .csrw g d ctl v => Sys2Proof.Machine.execCsrw g d ctl v s
  | .csrs g d ctl v => Sys2Proof.Machine.execCsrs g d ctl v s
  | .csrc g d ctl v => Sys2Proof.Machine.execCsrc g d ctl v s
  | .crewleadWrite crew v => Sys2Proof.Machine.execCrewleadWrite crew v s
  | .tlbi g mode wide a b => Sys2Proof.Machine.execTlbi g mode wide a b s
  | .replay g d => Sys2Proof.Machine.execReplay g d s
  | .smove g d a slot image => Sys2Proof.Machine.execSmove g d a slot image s
  | .smoveHold g d slot => Sys2Proof.Machine.execSmoveHold g d slot s
  | .smoveRelease g d slot => Sys2Proof.Machine.execSmoveRelease g d slot s
  | .sstart g d a place what => Sys2Proof.Machine.execSstart g d a place what s
  | .placementDescent at_ m moves => Sys2Proof.Machine.execPlacementDescent at_ m moves s
  | .strandStartArrival m => Sys2Proof.Machine.execStrandStartArrival m s
  | .sexit g other => Sys2Proof.Machine.execSexit g other s
  | .halt g => Sys2Proof.Machine.execHalt g s
  | .keyset g d s_ m => Sys2Proof.Machine.execKeyset g d s_ m s
  | .keyerase g d s_ => Sys2Proof.Machine.execKeyerase g d s_ s
  | .wdog g d resident handler => Sys2Proof.Machine.execWdog g d resident handler s
  | .hostirq g hart file id => Sys2Proof.Machine.execHostirq g hart file id s
  | .evkill g d c sc => Sys2Proof.Machine.execEvkill g d c sc s
  | .trapDelivery c => Sys2Proof.Machine.execTrapDelivery c s
  | .forwardingExpiry c gid => Sys2Proof.Machine.execForwardingExpiry c gid s
  | .loadExchange c => Sys2Proof.Machine.execLoadExchange c s
  | .syscallRequest m => Sys2Proof.Machine.execSyscallRequest m s
  | .rsptail pkg die tail => Sys2Proof.Machine.execRsptail pkg die tail s
  | .syscallReplyArrival m => Sys2Proof.Machine.execSyscallReplyArrival m s
  | .msg c ws => Sys2Proof.Machine.execMsg c ws s
  | .bringUpPhase pkg => Sys2Proof.Machine.execBringUpPhase pkg s
  | .timeLoad pkg src roundTrip => Sys2Proof.Machine.execTimeLoad pkg src roundTrip s
  | .bootConfigurationWrite pkg off v => Sys2Proof.Machine.execBootConfigurationWrite pkg off v s
  | .frameMapWrite pkg n second v => Sys2Proof.Machine.execFrameMapWrite pkg n second v s
  | .attestationRequest pkg nonce => Sys2Proof.Machine.execAttestationRequest pkg nonce s
  | .timeBeaconSend pkg => Sys2Proof.Machine.execTimeBeaconSend pkg s
  | .timeBeacon pkg src time => Sys2Proof.Machine.execTimeBeacon pkg src time s
  | .strokeSend pkg => Sys2Proof.Machine.execStrokeSend pkg s
  | .strokeWindow pkg dir => Sys2Proof.Machine.execStrokeWindow pkg dir s
  | .resetRequest pkg src valid => Sys2Proof.Machine.execResetRequest pkg src valid s
  | .governorInterval pkg => Sys2Proof.Machine.execGovernorInterval pkg s
  | .illegalInstruction detail arg => Sys2Proof.Machine.execIllegalInstruction detail arg s
  | .stop c => Sys2Proof.Machine.execStop c s
  | .wake c => Sys2Proof.Machine.execWake c s
  | .battenRead c region off => Sys2Proof.Machine.execBattenRead c region off s
  | .battenWrite c region off v => Sys2Proof.Machine.execBattenWrite c region off v s
  | .reset c => Sys2Proof.Machine.execReset c s
  | .retire c => Sys2Proof.Machine.execRetire c s
  | .sramSoftError c correctable => Sys2Proof.Machine.execSramSoftError c correctable s
  | .tamper pkg => Sys2Proof.Machine.execTamper pkg s
  | .coldReset pkg => Sys2Proof.Machine.execColdReset pkg s
  | .lock pkg => Sys2Proof.Machine.execLock pkg s
  | .measurementExtend pkg imm digest => Sys2Proof.Machine.execMeasurementExtend pkg imm digest s
  | .pcieInboundRequest pkg die addr wr => Sys2Proof.Machine.execPcieInboundRequest pkg die addr wr s
  | .portReset pkg port => Sys2Proof.Machine.execPortReset pkg port s
  | .controlCoreAccess pkg hart acc => Sys2Proof.Machine.execControlCoreAccess pkg hart acc s

end Sys2Proof.Machine
end

