-- ==== Sys2Proof/Decode.lean ====
section
/-! DEFINITION. Instruction words: the fields of R39 to R49, the decoder with checks 5 to 9 of R69, and the encoder. -/

namespace Sys2Proof

/-- A 96-bit instruction word (R26). -/
abbrev IWord := BitVec 96

/-! ## Fields -/

/-- OP, bits 95:88. -/
def fOp (w : IWord) : BitVec 8 := w.extractLsb' 88 8
/-- VAR, bits 87:84. -/
def fVar (w : IWord) : BitVec 4 := w.extractLsb' 84 4
/-- PN, bit 83. -/
def fPn (w : IWord) : BitVec 1 := w.extractLsb' 83 1
/-- PG, bits 82:80. -/
def fPg (w : IWord) : BitVec 3 := w.extractLsb' 80 3
/-- Bits 79:74 (gd). -/
def fGd (w : IWord) : BitVec 6 := w.extractLsb' 74 6
/-- Bits 73:68 (ga, gbase). -/
def fGa (w : IWord) : BitVec 6 := w.extractLsb' 68 6
/-- Bits 67:62 (gb, gidx). -/
def fGb (w : IWord) : BitVec 6 := w.extractLsb' 62 6
/-- Bits 61:56 (gc). -/
def fGc (w : IWord) : BitVec 6 := w.extractLsb' 56 6
/-- mod[7:0] of format G, bits 55:48. -/
def fMod8 (w : IWord) : BitVec 8 := w.extractLsb' 48 8
/-- Bits 47:0 (imm48, off48, disp48). -/
def fLow (w : IWord) : Imm48 := w.extractLsb' 0 48
/-- mod[19:0] of formats K and B, bits 67:48. -/
def fMod20 (w : IWord) : BitVec 20 := w.extractLsb' 48 20
/-- size of format M, bits 61:59. -/
def fSize (w : IWord) : BitVec 3 := w.extractLsb' 59 3
/-- scope of format M, bits 58:56. -/
def fScope (w : IWord) : BitVec 3 := w.extractLsb' 56 3
/-- ord of format M, bits 55:52. -/
def fOrd (w : IWord) : BitVec 4 := w.extractLsb' 52 4
/-- mod of formats M and S, bits 51:48. -/
def fMod4 (w : IWord) : BitVec 4 := w.extractLsb' 48 4
/-- ctl of format S, bits 67:52. -/
def fCtl (w : IWord) : BitVec 16 := w.extractLsb' 52 16
/-- The spec at bits lo + 11 : lo of formats V and T. -/
def fSpec (lo : Nat) (w : IWord) : BitVec 12 := w.extractLsb' lo 12
/-- shape, bits 31:27. -/
def fShape (w : IWord) : HReg := w.extractLsb' 27 5
/-- Bits hi:lo of width n at lo: the small fields of the mod and E formats. -/
def fBits (lo n : Nat) (w : IWord) : BitVec n := w.extractLsb' lo n

/-- The guard of a word (R40). -/
def fGuard (w : IWord) : Guard := ⟨fPn w == 1, fPg w⟩

/-! ## Packing (R39, R41) -/

/-- One bit of a word. -/
def bit1 (b : Bool) : BitVec 1 := BitVec.ofBool b

/-- OP, VAR and guard. -/
def packHead (op : BitVec 8) (var : BitVec 4) (g : Guard) : BitVec 16 := op ++ var ++ bit1 g.neg ++ g.p
/-- Format G. -/
def packG (op : BitVec 8) (var : BitVec 4) (g : Guard) (d a b c : BitVec 6) (m : BitVec 8) : IWord :=
  packHead op var g ++ d ++ a ++ b ++ c ++ m ++ (0 : BitVec 48)
/-- Formats K and B. -/
def packK (op : BitVec 8) (var : BitVec 4) (g : Guard) (d a : BitVec 6) (m : BitVec 20) (i : Imm48) : IWord :=
  packHead op var g ++ d ++ a ++ m ++ i
/-- Format M. -/
def packM (op : BitVec 8) (var : BitVec 4) (g : Guard) (d a b : BitVec 6) (size scope : BitVec 3) (ord m : BitVec 4)
    (i : Imm48) : IWord :=
  packHead op var g ++ d ++ a ++ b ++ size ++ scope ++ ord ++ m ++ i
/-- Format S. -/
def packS (op : BitVec 8) (var : BitVec 4) (g : Guard) (d a : BitVec 6) (ctl : BitVec 16) (m : BitVec 4) (i : Imm48) : IWord :=
  packHead op var g ++ d ++ a ++ ctl ++ m ++ i
/-- Format V with the mod fields of R132. -/
def packV (op : BitVec 8) (var : BitVec 4) (g : Guard) (d a b c : BitVec 12) (h : HReg) (hi : BitVec 1) (sel : BitVec 4)
    (advc advb adva advd sat ftz rtz : BitVec 1) : IWord :=
  packHead op var g ++ d ++ a ++ b ++ c ++ h ++ (0 : BitVec 15) ++ hi ++ sel ++ advc ++ advb ++ adva ++ advd ++ sat ++ ftz ++ rtz
/-- Format T with planes, mod[18:8], ADV bits and SAT (R155). -/
def packT (op : BitVec 8) (var : BitVec 4) (g : Guard) (d a b c : BitVec 12) (pa : BitVec 3) (sa : BitVec 1) (pb : BitVec 3)
    (sb : BitVec 1) (m : BitVec 11) (advc advb adva advd sat : BitVec 1) : IWord :=
  packHead op var g ++ d ++ a ++ b ++ c ++ (0 : BitVec 5) ++ pa ++ sa ++ pb ++ sb ++ m ++ (0 : BitVec 1) ++ advc ++ advb ++ adva
    ++ advd ++ sat ++ (0 : BitVec 2)
/-- Format E. -/
def packE (op : BitVec 8) (var : BitVec 4) (g : Guard) (s0 s1 s2 s3 : BitVec 5) (t d : BitVec 6) : IWord :=
  packHead op var g ++ s0 ++ s1 ++ s2 ++ s3 ++ (0 : BitVec 4) ++ t ++ d ++ (0 : BitVec 44)

/-! ## Codes of suffixes and selectors -/

/-- p as a 6-bit field (R42). -/
def ofP (p : PReg) : BitVec 6 := (0 : BitVec 3) ++ p
/-- e as a 6-bit field (R42). -/
def ofE (e : EReg) : BitVec 6 := (0 : BitVec 2) ++ e
/-- The low bits of a 6-bit field that names a p or q register. -/
def toP (x : BitVec 6) : BitVec 3 := x.extractLsb' 0 3
/-- The low bits of a 6-bit field that names an e register. -/
def toE (x : BitVec 6) : BitVec 4 := x.extractLsb' 0 4
/-- Outside p0 to p7 or q0 to q7 (R42). -/
def overP (x : BitVec 6) : Bool := x.extractLsb' 3 3 != 0
/-- Outside e0 to e15 (R42). -/
def overE (x : BitVec 6) : Bool := x.extractLsb' 4 2 != 0

/-- Size codes (R48). -/
def Sz.code : Sz → BitVec 3 | .b => 0 | .h => 1 | .w => 2 | .d => 3
/-- Size of a code. -/
def Sz.of (x : BitVec 3) : Sz := if x = 0 then .b else if x = 1 then .h else if x = 2 then .w else .d
/-- Scope codes (R22). -/
def Scope.code : Scope → BitVec 3 | .core => 0 | .crew => 1 | .reach => 2 | .pkg => 3 | .dom => 4
/-- Scope of a code. -/
def Scope.of (x : BitVec 3) : Scope :=
  if x = 0 then .core else if x = 1 then .crew else if x = 2 then .reach else if x = 3 then .pkg else .dom
/-- Scope codes 5 to 7 are reserved (R22). -/
def scopeBad (x : BitVec 3) : Bool := 5 ≤ x.toNat

/-- Condition codes (R66). -/
def Cond.code : Cond → BitVec 4
  | .eq => 0 | .ne => 1 | .lt => 2 | .le => 3 | .gt => 4 | .ge => 5 | .lo => 6 | .ls => 7 | .hi => 8 | .hs => 9
/-- Condition of a code. -/
def Cond.of (x : BitVec 4) : Option Cond :=
  match x.toNat with
  | 0 => some .eq | 1 => some .ne | 2 => some .lt | 3 => some .le | 4 => some .gt | 5 => some .ge
  | 6 => some .lo | 7 => some .ls | 8 => some .hi | 9 => some .hs | _ => none

/-- Element type codes (R67). -/
def VTy.code : VTy → BitVec 4
  | .f32 => 0 | .f16 => 1 | .bf16 => 2 | .s32 => 3 | .s16 => 4 | .s8 => 5 | .n32 => 6 | .n16 => 7 | .n8 => 8
  | .f8a => 9 | .f8b => 10
/-- Element type of a code. -/
def VTy.of (x : BitVec 4) : Option VTy :=
  match x.toNat with
  | 0 => some .f32 | 1 => some .f16 | 2 => some .bf16 | 3 => some .s32 | 4 => some .s16 | 5 => some .s8
  | 6 => some .n32 | 7 => some .n16 | 8 => some .n8 | 9 => some .f8a | 10 => some .f8b | _ => none

/-- Float type codes (R67). -/
def FFmt.code : FFmt → BitVec 4
  | .f32 => 0 | .f16 => 1 | .bf16 => 2 | .f8a => 9 | .f8b => 10 | .f4 => 11
/-- Float type of a code. -/
def FFmt.of (x : BitVec 4) : Option FFmt :=
  match x.toNat with
  | 0 => some .f32 | 1 => some .f16 | 2 => some .bf16 | 9 => some .f8a | 10 => some .f8b | 11 => some .f4 | _ => none
/-- Float type of fadd to ffma (R119). -/
def FFmt.scalarOf (x : BitVec 4) : Option FFmt :=
  match x.toNat with
  | 0 => some .f32 | 1 => some .f16 | 2 => some .bf16 | _ => none

/-- fcmp conditions (R67). -/
def FCond.code : FCond → BitVec 4 | .eq => 0 | .lt => 1 | .le => 2 | .un => 3
/-- fcmp condition of a code. -/
def FCond.of (x : BitVec 4) : Option FCond :=
  match x.toNat with
  | 0 => some .eq | 1 => some .lt | 2 => some .le | 3 => some .un | _ => none

/-- fcvt conversions (R67). -/
def FConv.code : FConv → BitVec 4
  | .f32s64 => 0 | .s64f32 => 1 | .f32f16 => 2 | .f16f32 => 3 | .f32bf16 => 4 | .bf16f32 => 5 | .f32n64 => 6 | .n64f32 => 7
/-- fcvt conversion of a code. -/
def FConv.of (x : BitVec 4) : Option FConv :=
  match x.toNat with
  | 0 => some .f32s64 | 1 => some .s64f32 | 2 => some .f32f16 | 3 => some .f16f32 | 4 => some .f32bf16
  | 5 => some .bf16f32 | 6 => some .f32n64 | 7 => some .n64f32 | _ => none

/-- vred and vscan operators (R139). -/
def VRedOp.code : VRedOp → BitVec 4 | .add => 0 | .max => 1 | .min => 2 | .and => 3 | .or => 4 | .xor => 5
/-- Operator of a code. -/
def VRedOp.of (x : BitVec 4) : Option VRedOp :=
  match x.toNat with
  | 0 => some .add | 1 => some .max | 2 => some .min | 3 => some .and | 4 => some .or | 5 => some .xor | _ => none

/-- vcmp conditions (R142). -/
def VCond.code : VCond → BitVec 4 | .eq => 0 | .ne => 1 | .lt => 2 | .le => 3 | .gt => 4 | .ge => 5 | .un => 6
/-- Condition of a code. -/
def VCond.of (x : BitVec 4) : Option VCond :=
  match x.toNat with
  | 0 => some .eq | 1 => some .ne | 2 => some .lt | 3 => some .le | 4 => some .gt | 5 => some .ge | 6 => some .un | _ => none

/-- vsfu functions (R60). -/
def SFn.code : SFn → BitVec 4 | .exp2 => 0 | .log2 => 1 | .rcp => 2 | .rsq => 3 | .tanh => 4 | .erf => 5
/-- Function of a code. -/
def SFn.of (x : BitVec 4) : Option SFn :=
  match x.toNat with
  | 0 => some .exp2 | 1 => some .log2 | 2 => some .rcp | 3 => some .rsq | 4 => some .tanh | 5 => some .erf | _ => none

/-- atom and red operations (R68). -/
def AtomOp.code : AtomOp → BitVec 4
  | .swap => 0 | .cas => 1 | .add => 2 | .and => 3 | .or => 4 | .xor => 5 | .max => 6 | .min => 7 | .maxn => 8 | .minn => 9
  | .fadd => 10
/-- Operation of a code. -/
def AtomOp.of (x : BitVec 4) : Option AtomOp :=
  match x.toNat with
  | 0 => some .swap | 1 => some .cas | 2 => some .add | 3 => some .and | 4 => some .or | 5 => some .xor | 6 => some .max
  | 7 => some .min | 8 => some .maxn | 9 => some .minn | 10 => some .fadd | _ => none

/-- Event kinds (R251). -/
def EvKind.code : EvKind → BitVec 4 | .sync => 0 | .xfer => 1 | .gather => 2 | .reduce => 3
/-- Kind of a code. -/
def EvKind.of (x : BitVec 4) : Option EvKind :=
  match x.toNat with
  | 0 => some .sync | 1 => some .xfer | 2 => some .gather | 3 => some .reduce | _ => none

/-- decoord fields (R116). -/
def CoordField.code : CoordField → BitVec 4 | .col => 0 | .row => 1 | .pkg => 2 | .off => 3 | .relflag => 4
/-- Field of a code. -/
def CoordField.of (x : BitVec 4) : Option CoordField :=
  match x.toNat with
  | 0 => some .col | 1 => some .row | 2 => some .pkg | 3 => some .off | 4 => some .relflag | _ => none

/-- mulh variants (R59). -/
def MulhKind.code : MulhKind → BitVec 4 | .s => 0 | .n => 1 | .sn => 2
/-- Variant of a code. -/
def MulhKind.of (x : BitVec 4) : Option MulhKind :=
  match x.toNat with
  | 0 => some .s | 1 => some .n | 2 => some .sn | _ => none

/-- cp directions (R214). -/
def CpDir.code : CpDir → BitVec 3 | .inn => 0 | .out => 1 | .outr => 2
/-- Direction of a code. -/
def CpDir.of (x : BitVec 3) : CpDir := if x = 0 then .inn else if x = 1 then .out else .outr

/-- nshed directions (R239). -/
def ShedDir.code : ShedDir → BitVec 2 | .pcol => 0 | .mcol => 1 | .prow => 2 | .mrow => 3
/-- Direction of a code. -/
def ShedDir.of (x : BitVec 2) : ShedDir := if x = 0 then .pcol else if x = 1 then .mcol else if x = 2 then .prow else .mrow

/-- tread formats (R61). -/
def ReadFmt.code : ReadFmt → BitVec 4 | .f32 => 0 | .bf16 => 1 | .f16 => 2
/-- A two-valued VAR. -/
def varBit (b : Bool) : BitVec 4 := if b then 1 else 0

/-! ## Operand specs (R44) -/

/-- The 12 bits of a spec. -/
def Spec.enc : Spec → BitVec 12
  | .tile t => (0 : BitVec 6) ++ t
  | .ring need q => (1 : BitVec 2) ++ need ++ q
  | .scalar g => (0b100000 : BitVec 6) ++ g
  | .none => 0xC00
/-- Kind, bits 11:10. -/
def specKind (x : BitVec 12) : BitVec 2 := x.extractLsb' 10 2
/-- A nonzero bit among those that R44 marks zero. -/
def specRsvd (x : BitVec 12) : Bool :=
  match (specKind x).toNat with
  | 0 => x.extractLsb' 6 4 != 0
  | 1 => false
  | 2 => x.extractLsb' 6 4 != 0
  | _ => x.extractLsb' 0 10 != 0
/-- The spec of 12 bits. -/
def Spec.of (x : BitVec 12) : Spec :=
  match (specKind x).toNat with
  | 0 => .tile (x.extractLsb' 0 6)
  | 1 => .ring (x.extractLsb' 3 7) (x.extractLsb' 0 3)
  | 2 => .scalar (x.extractLsb' 0 6)
  | _ => .none

/-! ## Results of decoding -/

/-- Why a word is no instruction: checks 5 to 9 of R69, with the low bit position of the field for 8 and 9 (R71). -/
inductive Illegal where
  | zero
  | op
  | var
  | rsvd (pos : Nat)
  | operand (pos : Nat)
deriving DecidableEq, Repr

/-- Detail codes of R69. -/
def Illegal.detail : Illegal → Nat
  | .zero => 1 | .op => 2 | .var => 3 | .rsvd _ => 4 | .operand _ => 5
/-- ARG of R322 for the illegal word: the low bit position of the field for checks 8 and 9. -/
def Illegal.arg : Illegal → Nat
  | .rsvd p | .operand p => p
  | _ => 0

/-- The result of a decoder. -/
abbrev Decoded := Except Illegal Instr

/-- The first failing check of a list written from the highest bit position down (R69). -/
def firstBad : List (Nat × Bool) → Option Nat
  | [] => none
  | (p, bad) :: r => if bad then some p else firstBad r

/-- Check 8, then check 9, then the instruction. -/
def checked (rs os : List (Nat × Bool)) (i : Instr) : Decoded :=
  match firstBad rs with
  | some p => .error (.rsvd p)
  | none =>
    match firstBad os with
    | some p => .error (.operand p)
    | none => .ok i

/-- VAR must be 0. -/
def var0 (w : IWord) (k : Decoded) : Decoded := if fVar w = 0 then k else .error .var
/-- VAR selects one of two. -/
def var01 (w : IWord) (k : Bool → Decoded) : Decoded :=
  if fVar w = 0 then k false else if fVar w = 1 then k true else .error .var
/-- VAR through a table. -/
def varOf {α : Type} (o : Option α) (k : α → Decoded) : Decoded :=
  match o with
  | some x => k x
  | none => .error .var

/-- A field that must be zero: (position, nonzero). -/
def zf {n : Nat} (pos : Nat) (x : BitVec n) : Nat × Bool := (pos, x != 0)

/-- Format G's reserved low bits with mod zero and gc zero. -/
def g3 (w : IWord) (os : List (Nat × Bool)) (i : Instr) : Decoded :=
  checked [zf 56 (fGc w), zf 48 (fMod8 w), zf 0 (fLow w)] os i
/-- Format G with gb and gc zero. -/
def g2 (w : IWord) (os : List (Nat × Bool)) (i : Instr) : Decoded :=
  checked [zf 62 (fGb w), zf 56 (fGc w), zf 48 (fMod8 w), zf 0 (fLow w)] os i

/-- gd, ga, gb with VAR 0. -/
def dGGG (w : IWord) (mk : Guard → Reg → Reg → Reg → Instr) : Decoded :=
  var0 w (g3 w [] (mk (fGuard w) (fGd w) (fGa w) (fGb w)))
/-- gd, ga, gb with VAR choosing between two. -/
def dGGG2 (w : IWord) (mk : Guard → Bool → Reg → Reg → Reg → Instr) : Decoded :=
  var01 w fun n => g3 w [] (mk (fGuard w) n (fGd w) (fGa w) (fGb w))
/-- Predicates pd, pa, pb. -/
def dPPP (w : IWord) (mk : Guard → PReg → PReg → PReg → Instr) : Decoded :=
  var0 w (g3 w [(74, overP (fGd w)), (68, overP (fGa w)), (62, overP (fGb w))]
    (mk (fGuard w) (toP (fGd w)) (toP (fGa w)) (toP (fGb w))))
/-- Float gd, ga, gb (R119). -/
def dFlt (w : IWord) (mk : Guard → FFmt → Bool → Reg → Reg → Reg → Instr) : Decoded :=
  varOf (FFmt.scalarOf (fVar w)) fun t =>
    checked [zf 56 (fGc w), zf 49 (fBits 49 7 w), zf 0 (fLow w)] []
      (mk (fGuard w) t (fBits 48 1 w == 1) (fGd w) (fGa w) (fGb w))
/-- ext, ins (R113). Where lo + w exceeds 64 both fields offend, and w − 1 is the higher, which R69 reports (DEDUCED, log 40). -/
def dField (w : IWord) (mk : Guard → Reg → Reg → BitVec 6 → BitVec 6 → Instr) : Decoded :=
  checked [zf 60 (fBits 60 8 w), zf 0 (fLow w)]
    [(54, decide (64 < (fBits 48 6 w).toNat + (fBits 54 6 w).toNat + 1))]
    (mk (fGuard w) (fGd w) (fGa w) (fBits 48 6 w) (fBits 54 6 w))

/-- The address fields of format M. -/
def fAddr (w : IWord) : MAddr := ⟨fGa w, fGb w, fLow w⟩

/-- OPs 0x01 to 0x2F (R59, R102 to R123). -/
def decodeScalar (op : Nat) (w : IWord) : Decoded :=
  match op with
  | 0x01 => var0 w (checked [zf 74 (fGd w), zf 68 (fGa w), zf 62 (fGb w), zf 56 (fGc w), zf 48 (fMod8 w), zf 0 (fLow w)] []
      (.nop (fGuard w)))
  | 0x02 => dGGG w .add
  | 0x03 => dGGG w .sub
  | 0x04 => dGGG w .mul
  | 0x05 => varOf (MulhKind.of (fVar w)) fun k => g3 w [] (.mulh (fGuard w) k (fGd w) (fGa w) (fGb w))
  | 0x06 => dGGG2 w .div
  | 0x07 => dGGG2 w .rem
  | 0x08 => dGGG w .and
  | 0x09 => dGGG w .or
  | 0x0A => dGGG w .xor
  | 0x0B => dGGG w .andn
  | 0x0C => dGGG w .shl
  | 0x0D => dGGG w .shr
  | 0x0E => dGGG w .sar
  | 0x0F => dGGG w .rot
  | 0x10 => var0 w (g2 w [] (.clz (fGuard w) (fGd w) (fGa w)))
  | 0x11 => var0 w (g2 w [] (.popc (fGuard w) (fGd w) (fGa w)))
  | 0x12 => dGGG2 w .min
  | 0x13 => dGGG2 w .max
  | 0x14 => var0 w (checked [zf 48 (fMod8 w), zf 0 (fLow w)] [(56, overP (fGc w))]
      (.sel (fGuard w) (fGd w) (fGa w) (fGb w) (toP (fGc w))))
  | 0x15 => varOf (Cond.of (fVar w)) fun c => g3 w [(74, overP (fGd w))] (.cmp (fGuard w) c (toP (fGd w)) (fGa w) (fGb w))
  | 0x16 => var0 w (checked [zf 48 (fMod20 w)] [] (.addk (fGuard w) (fGd w) (fGa w) (fLow w)))
  | 0x17 => var0 w (checked [zf 68 (fGa w), zf 48 (fMod20 w)] [] (.movk (fGuard w) (fGd w) (fLow w)))
  | 0x18 => var0 w (checked [zf 48 (fMod20 w), zf 16 (fBits 16 32 w)] [] (.movh (fGuard w) (fGd w) (fGa w) (fBits 0 16 w)))
  | 0x19 => var01 w fun sx => dField w fun g => .ext g sx
  | 0x1A => var0 w (dField w .ins)
  | 0x1B => var0 w (checked [(59, decide (4 ≤ (fSize w).toNat)), zf 56 (fScope w), zf 52 (fOrd w), zf 48 (fMod4 w)] []
      (.lea (fGuard w) (fGd w) (fAddr w) (Sz.of (fSize w))))
  | 0x1C => dGGG2 w .coord
  | 0x1D => varOf (CoordField.of (fVar w)) fun f => g2 w [] (.decoord (fGuard w) f (fGd w) (fGa w))
  | 0x1E => dPPP w .pand
  | 0x1F => dPPP w .por
  | 0x20 => dPPP w .pxor
  | 0x21 => var0 w (g2 w [(74, overP (fGd w)), (68, overP (fGa w))] (.pnot (fGuard w) (toP (fGd w)) (toP (fGa w))))
  | 0x22 =>
    if fVar w = 0 then g2 w [(74, overP (fGd w)), (68, overP (fGa w))] (.pmov (fGuard w) (.pp (toP (fGd w)) (toP (fGa w))))
    else if fVar w = 1 then g2 w [(74, overP (fGd w))] (.pmov (fGuard w) (.pg (toP (fGd w)) (fGa w)))
    else if fVar w = 2 then g2 w [(68, overP (fGa w))] (.pmov (fGuard w) (.gp (fGd w) (toP (fGa w))))
    else .error .var
  | 0x23 => var0 w (checked [zf 74 (fGd w), zf 68 (fGa w), zf 48 (fMod20 w)] [] (.br (fGuard w) (fLow w)))
  | 0x24 => var0 w (checked [zf 68 (fGa w), zf 48 (fMod20 w)] [(74, fGd w == 0)] (.call (fGuard w) (fGd w) (fLow w)))
  | 0x25 => var0 w (checked [zf 74 (fGd w), zf 48 (fMod20 w), zf 0 (fLow w)] [] (.ret (fGuard w) (fGa w)))
  | 0x26 => var0 w (checked [zf 74 (fGd w), zf 48 (fMod20 w), zf 0 (fLow w)] [] (.jr (fGuard w) (fGa w)))
  | 0x27 => var0 w (checked [zf 74 (fGd w), zf 48 (fMod20 w)] [(68, fGa w == 0)] (.loop (fGuard w) (fGa w) (fLow w)))
  | 0x28 => var0 w (checked [zf 74 (fGd w), zf 68 (fGa w), zf 0 (fLow w)] [(48, fBits 48 12 w == 0)]
      (.yield (fGuard w) (fBits 48 12 w) (fBits 60 8 w)))
  | 0x29 => dFlt w .fadd
  | 0x2A => dFlt w .fsub
  | 0x2B => dFlt w .fmul
  | 0x2C => varOf (FFmt.scalarOf (fVar w)) fun t => checked [zf 49 (fBits 49 7 w), zf 0 (fLow w)] []
      (.ffma (fGuard w) t (fBits 48 1 w == 1) (fGd w) (fGa w) (fGb w) (fGc w))
  | 0x2D => varOf (FCond.of (fVar w)) fun c =>
      let t : FFmt := if fBits 48 2 w = 0 then .f32 else if fBits 48 2 w = 1 then .f16 else .bf16
      checked [zf 56 (fGc w), zf 50 (fBits 50 6 w), zf 0 (fLow w)] [(74, overP (fGd w)), (48, fBits 48 2 w == 3)]
        (.fcmp (fGuard w) c t (toP (fGd w)) (fGa w) (fGb w))
  | 0x2E => varOf (FConv.of (fVar w)) fun c =>
      checked [zf 62 (fGb w), zf 56 (fGc w), zf 49 (fBits 49 7 w), zf 0 (fLow w)] []
        (.fcvt (fGuard w) c (fBits 48 1 w == 1) (fGd w) (fGa w))
  | 0x2F => varOf (Cond.of (fVar w)) fun c =>
      checked [zf 48 (fMod20 w)] [(74, overP (fGd w))] (.cmpk (fGuard w) c (toP (fGd w)) (fGa w) (fLow w))
  | _ => .error .op

/-! ## Format V (R132, R136) -/

/-- The operands and mode bits of a format V word. -/
def fVOps (w : IWord) : VOps :=
  { dst := Spec.of (fSpec 68 w), a := Spec.of (fSpec 56 w), b := Spec.of (fSpec 44 w), c := Spec.of (fSpec 32 w),
    shape := fShape w, rtz := fBits 0 1 w == 1, ftz := fBits 1 1 w == 1, sat := fBits 2 1 w == 1, hi := fBits 11 1 w == 1,
    advd := fBits 3 1 w == 1, adva := fBits 4 1 w == 1, advb := fBits 5 1 w == 1, advc := fBits 6 1 w == 1 }

/-- SEL, mod[10:7]. -/
def fSel (w : IWord) : BitVec 4 := fBits 7 4 w

/-- An ADV bit on a place that holds no operand is a bit not admitted (R132). -/
def advRsvd (adv : Bool) (s : Spec) : Bool := adv && s.isNone
/-- An ADV bit on a tile or scalar traps ILL_OPERAND (R131). -/
def advOperand (adv : Bool) (s : Spec) : Bool := adv && !s.isNone && !s.isRing

/-- Checks 8 and 9 of a format V word whose types are known. selR, selO: SEL traps ILL_RSVD, ILL_OPERAND;
extra: further operand failures of the destination and of srcA. -/
def vChecked (w : IWord) (r : VRow) (t src : VTy) (selR selO dstO aO : Bool) (i : Instr) : Decoded :=
  let o := fVOps w
  checked
    [(68, specRsvd (fSpec 68 w)), (56, specRsvd (fSpec 56 w)), (44, specRsvd (fSpec 44 w)), (32, specRsvd (fSpec 32 w)),
      zf 12 (fBits 12 15 w), (11, o.hi && !r.hi), (7, selR),
      (6, advRsvd o.advc o.c), (5, advRsvd o.advb o.b), (4, advRsvd o.adva o.a), (3, advRsvd o.advd o.dst),
      (2, o.sat && !(r.sat && t.isI)), (1, o.ftz && !(r.ftz && (t.isFloat || src.isFloat))),
      (0, o.rtz && !(r.rtz && (t.isFloat || src.isFloat)))]
    [(68, !o.dst.dstOk || dstO), (56, !r.a o.a || aO), (44, !r.b o.b), (32, !r.c o.c), (7, selO),
      (6, advOperand o.advc o.c), (5, advOperand o.advb o.b), (4, advOperand o.adva o.a), (3, advOperand o.advd o.dst)]
    i

/-- A format V instruction whose VAR is its element type and whose SEL is 0. -/
def dV (w : IWord) (r : VRow) (mk : Guard → VTy → VOps → Instr) : Decoded :=
  varOf (VTy.of (fVar w)) fun t =>
    if r.types t then vChecked w r t t (fSel w != 0) false false false (mk (fGuard w) t (fVOps w)) else .error .var

/-- vred and vscan: SEL is the operator. DESIGN CHOICE: R139 admits integer types alone to .and, .or and .xor and names no fault; a float type there is
ILL_OPERAND at SEL, bit 7 (log 40). -/
def dVRed (w : IWord) (mk : Guard → VRedOp → VTy → VOps → Instr) : Decoded :=
  varOf (VTy.of (fVar w)) fun t =>
    if VRow.red.types t then
      match VRedOp.of (fSel w) with
      | some op => vChecked w .red t t false (!op.okFor t) false false (mk (fGuard w) op t (fVOps w))
      | none => vChecked w .red t t false true false false (.nop (fGuard w))
    else .error .var

/-- vseq: every field but srcA of .loop is none or zero (R147). -/
def dVseq (w : IWord) (aKind : Spec → Bool) (i : Instr) : Decoded :=
  checked
    [(68, specRsvd (fSpec 68 w)), (56, specRsvd (fSpec 56 w)), (44, specRsvd (fSpec 44 w)), (32, specRsvd (fSpec 32 w)),
      zf 27 (fShape w), zf 12 (fBits 12 15 w), zf 11 (fBits 11 1 w), zf 7 (fBits 7 4 w), zf 6 (fBits 6 1 w), zf 5 (fBits 5 1 w),
      zf 4 (fBits 4 1 w), zf 3 (fBits 3 1 w), zf 2 (fBits 2 1 w), zf 1 (fBits 1 1 w), zf 0 (fBits 0 1 w)]
    [(68, !(Spec.of (fSpec 68 w)).isNone), (56, !aKind (Spec.of (fSpec 56 w))), (44, !(Spec.of (fSpec 44 w)).isNone),
      (32, !(Spec.of (fSpec 32 w)).isNone)]
    i

/-- The register of a scalar spec. -/
def Spec.reg : Spec → Reg
  | .scalar g => g
  | _ => 0

/-- OPs 0x40 to 0x59 (R60, R136). DESIGN CHOICE: R142 admits float types alone to vcmp.un and names no fault; an integer type there is ILL_OPERAND at
SEL, bit 7 (log 40). -/
def decodeVector (op : Nat) (w : IWord) : Decoded :=
  match op with
  | 0x40 =>
    if fVar w = 0 then dVseq w Spec.isNone (.vseqOpen (fGuard w))
    else if fVar w = 1 then dVseq w Spec.g (.vseqLoop (fGuard w) (Spec.of (fSpec 56 w)).reg)
    else if fVar w = 2 then dVseq w Spec.isNone (.vseqStop (fGuard w))
    else .error .var
  | 0x41 => dV w .arith .vadd
  | 0x42 => dV w .arith .vsub
  | 0x43 => dV w .arith .vmul
  | 0x44 => dV w .fma .vfma
  | 0x45 => dV w .minmax .vmax
  | 0x46 => dV w .minmax .vmin
  | 0x47 => dV w .absneg .vabs
  | 0x48 => dV w .absneg .vneg
  | 0x49 => varOf (VTy.of (fVar w)) fun t =>
      match VTy.of (fSel w) with
      | some s => vChecked w .cvt t s false false false false (.vcvt (fGuard w) t s (fVOps w))
      | none => vChecked w .cvt t t false true false false (.nop (fGuard w))
  | 0x4A => dVRed w .vred
  | 0x4B => dVRed w .vscan
  | 0x4C => dV w .clmul .vclmul
  | 0x4D => varOf (VTy.of (fVar w)) fun t =>
      if VRow.minmax.types t then
        match VCond.of (fSel w) with
        | some c => vChecked w .minmax t t false (c == .un && !t.isF) false false (.vcmp (fGuard w) c t (fVOps w))
        | none => vChecked w .minmax t t false true false false (.nop (fGuard w))
      else .error .var
  | 0x4E => dV w .sel .vsel
  | 0x4F => dV w .popc .vpopc
  | 0x50 => dV w .bcast .vbcast
  | 0x51 => dV w .iota .viota
  | 0x52 => dV w .perm .vperm
  | 0x53 => varOf (VTy.of (fVar w)) fun t =>
      if VRow.zip.types t then
        vChecked w .zip t t false (decide ((fSel w).toNat < 2) || decide (4 < (fSel w).toNat)) false
          (!seriesOk (fSel w).toNat (fVOps w).a) (.vzip (fGuard w) (fSel w) t (fVOps w))
      else .error .var
  | 0x54 => varOf (VTy.of (fVar w)) fun t =>
      if VRow.zip.types t then
        vChecked w .zip t t false (decide ((fSel w).toNat < 2) || decide (4 < (fSel w).toNat))
          (!seriesOk (fSel w).toNat (fVOps w).dst) false (.vunzip (fGuard w) (fSel w) t (fVOps w))
      else .error .var
  | 0x55 => varOf (SFn.of (fVar w)) fun f =>
      match VTy.of (fSel w) with
      | some t =>
        if t.isF then vChecked w .sfu t t false false false false (.vsfu (fGuard w) f t (fVOps w))
        else vChecked w .sfu .f32 .f32 false true false false (.nop (fGuard w))
      | none => vChecked w .sfu .f32 .f32 false true false false (.nop (fGuard w))
  | 0x56 => dV w .perm .vcompact
  | 0x57 => dV w .expand .vexpand
  | 0x58 => dV w .dot .vdot
  | 0x59 => dV w .amax .vamax
  | _ => .error .op

/-! ## Format T (R155, R159) -/

/-- The operands of a format T word. -/
def fTOps (w : IWord) : TOps :=
  { dst := Spec.of (fSpec 68 w), a := Spec.of (fSpec 56 w), b := Spec.of (fSpec 44 w), c := Spec.of (fSpec 32 w),
    advd := fBits 3 1 w == 1, adva := fBits 4 1 w == 1, advb := fBits 5 1 w == 1, advc := fBits 6 1 w == 1 }
/-- PA and SA (R46). -/
def fPlaneA (w : IWord) : Plane := ⟨fBits 24 3 w, fBits 23 1 w == 1⟩
/-- PB and SB (R46). -/
def fPlaneB (w : IWord) : Plane := ⟨fBits 20 3 w, fBits 19 1 w == 1⟩
/-- mod[18:8]. -/
def fM11 (w : IWord) : BitVec 11 := fBits 8 11 w

/-- Which plane subfields a format T instruction takes. -/
inductive PlaneUse where
  | no | one | two
deriving DecidableEq, Repr

/-- Reserved plane fields (R155, R159). -/
def planeChecks (u : PlaneUse) (w : IWord) : List (Nat × Bool) :=
  match u with
  | .no => [zf 19 (fBits 19 8 w)]
  | .one => [zf 20 (fBits 20 3 w), zf 19 (fBits 19 1 w)]
  | .two => []

/-- Which of mod[18:8] and SAT a format T instruction admits (R155). -/
inductive MUse where
  | none | imm11 | km1 | kd | ab | kdSat
deriving DecidableEq, Repr

/-- Reserved bits of mod[18:8] and SAT. DEDUCED: a tzero word with any srcA and a nonzero IMM11 traps ILL_RSVD, a tile or ring srcA too, of which
R160 does not speak (log 40). -/
def mChecks (u : MUse) (w : IWord) : List (Nat × Bool) :=
  match u with
  | .none => [zf 12 (fBits 12 7 w), zf 11 (fBits 11 1 w), zf 10 (fBits 10 1 w), zf 9 (fBits 9 1 w), zf 8 (fBits 8 1 w)]
  | .imm11 => [(8, (fM11 w != 0) && !(Spec.of (fSpec 56 w)).isNone)]
  | .km1 => [zf 15 (fBits 15 4 w)]
  | .kd | .kdSat => [zf 12 (fBits 12 7 w), zf 10 (fBits 10 1 w), zf 9 (fBits 9 1 w), zf 8 (fBits 8 1 w)]
  | .ab => [zf 12 (fBits 12 7 w), zf 11 (fBits 11 1 w), zf 8 (fBits 8 1 w)]

/-- SAT is admitted by tplane and tunplane. -/
def satChecks (u : MUse) (w : IWord) : List (Nat × Bool) :=
  if u = .kdSat then [] else [zf 2 (fBits 2 1 w)]

/-- Checks 8 and 9 of a format T word. -/
def tChecked (w : IWord) (r : TRow) (p : PlaneUse) (m : MUse) (i : Instr) : Decoded :=
  let o := fTOps w
  checked
    ([(68, specRsvd (fSpec 68 w)), (56, specRsvd (fSpec 56 w)), (44, specRsvd (fSpec 44 w)), (32, specRsvd (fSpec 32 w)),
      zf 27 (fShape w)] ++ planeChecks p w ++ mChecks m w ++
      [zf 7 (fBits 7 1 w), (6, advRsvd o.advc o.c), (5, advRsvd o.advb o.b), (4, advRsvd o.adva o.a),
       (3, advRsvd o.advd o.dst)] ++ satChecks m w ++ [zf 0 (fBits 0 2 w)])
    [(68, !o.dst.dstOk), (56, !r.a o.a), (44, !r.b o.b), (32, !r.c o.c),
      (6, advOperand o.advc o.c), (5, advOperand o.advb o.b), (4, advOperand o.adva o.a), (3, advOperand o.advd o.dst)]
    i

/-- The command that imm48 of tmx holds (R174). -/
def fTmx (w : IWord) : TmxCmd :=
  if fBits 46 2 w = 0 then .zero (fBits 40 6 w) (fBits 7 11 w)
  else if fBits 46 2 w = 1 then
    .mma (fBits 40 6 w) (fBits 34 6 w) (fBits 28 6 w) ⟨fBits 25 3 w, fBits 24 1 w == 1⟩ ⟨fBits 21 3 w, fBits 20 1 w == 1⟩
      (fBits 18 1 w == 1) (fBits 19 1 w == 1)
  else .acc (fBits 40 6 w) (fBits 34 6 w)

/-- Fields of imm48 that a tmx command leaves at zero. -/
def tmxZero (w : IWord) : List (Nat × Bool) :=
  if fBits 46 2 w = 0 then
    [zf 34 (fBits 34 6 w), zf 28 (fBits 28 6 w), zf 20 (fBits 20 8 w), zf 19 (fBits 19 1 w), zf 18 (fBits 18 1 w), zf 0 (fBits 0 7 w)]
  else if fBits 46 2 w = 1 then [zf 7 (fBits 7 11 w), zf 0 (fBits 0 7 w)]
  else if fBits 46 2 w = 2 then
    [zf 28 (fBits 28 6 w), zf 20 (fBits 20 8 w), zf 19 (fBits 19 1 w), zf 18 (fBits 18 1 w), zf 7 (fBits 7 11 w), zf 0 (fBits 0 7 w)]
  else [zf 0 (fBits 0 7 w)]

/-- OPs 0x60 to 0x6C (R61, R159, R173, R174). -/
def decodeTensor (op : Nat) (w : IWord) : Decoded :=
  match op with
  | 0x60 => var0 w (tChecked w .zero .no .imm11 (.tzero (fGuard w) (fM11 w) (fTOps w)))
  | 0x61 => var0 w (tChecked w .mma .two .ab
      (.tmma (fGuard w) (fPlaneA w) (fPlaneB w) (fBits 9 1 w == 1) (fBits 10 1 w == 1) (fTOps w)))
  | 0x62 => var0 w (tChecked w .one .no .none (.tacc (fGuard w) (fTOps w)))
  | 0x63 =>
    if fVar w = 0 then tChecked w .one .no .none (.tread (fGuard w) .f32 (fTOps w))
    else if fVar w = 1 then tChecked w .one .no .none (.tread (fGuard w) .bf16 (fTOps w))
    else if fVar w = 2 then tChecked w .one .no .none (.tread (fGuard w) .f16 (fTOps w))
    else if fVar w = 3 then tChecked w .blk .one .none (.treadBlk (fGuard w) (fPlaneA w) (fTOps w))
    else .error .var
  | 0x64 => varOf (FFmt.of (fVar w)) fun f =>
      tChecked w .one .one .kd (.tquant (fGuard w) f (fPlaneA w) (fBits 11 1 w == 1) (fTOps w))
  | 0x65 => varOf (FFmt.of (fVar w)) fun f =>
      tChecked w .one .one .kd (.tdequant (fGuard w) f (fPlaneA w) (fBits 11 1 w == 1) (fTOps w))
  | 0x66 => var0 w (tChecked w .one .one .kdSat
      (.tplane (fGuard w) (fPlaneA w) (fBits 11 1 w == 1) (fBits 2 1 w == 1) (fTOps w)))
  | 0x67 => var0 w (tChecked w .one .one .kdSat
      (.tunplane (fGuard w) (fPlaneA w) (fBits 11 1 w == 1) (fBits 2 1 w == 1) (fTOps w)))
  | 0x68 => var0 w (tChecked w .one .one .kd (.tcbdec (fGuard w) (fPlaneA w) (fBits 11 1 w == 1) (fTOps w)))
  | 0x69 => var01 w fun inv => tChecked w .had .no .kd (.thad (fGuard w) inv (fBits 11 1 w == 1) (fTOps w))
  | 0x6A => var01 w fun val => tChecked w .one .no .km1 (.ttopk (fGuard w) val (fBits 8 7 w) (fTOps w))
  | 0x6B => var0 w (checked ([zf 48 (fMod20 w)] ++ tmxZero w) [(46, fBits 46 2 w == 3)]
      (.tmx (fGuard w) (fGd w) (fGa w) (fTmx w)))
  | 0x6C => var0 w (checked [zf 68 (fGa w), zf 63 (fBits 63 5 w)]
      [(60, fBits 60 3 w == 0), (54, decide ((fBits 54 6 w).toNat < (fBits 48 6 w).toNat)),
       (0, (fLow w == 0) || decide (2 ^ 32 ≤ (fLow w).toNat))]
      (.tcap (fGuard w) (fGd w) (fBits 48 6 w) (fBits 54 6 w) (fBits 60 3 w) (fLow w)))
  | _ => .error .op

/-! ## Memory and tile (R62) -/

/-- Size field 4 to 7 is reserved (R48). -/
def sizeBad (w : IWord) : Nat × Bool := (59, decide (4 ≤ (fSize w).toNat))
/-- Scope field 5 to 7 is reserved (R22). -/
def scopeChk (w : IWord) : Nat × Bool := (56, scopeBad (fScope w))
/-- ord field 4 to 15 is reserved in atom, red and append (R48; DEDUCED, log 40); in lds and sts it is outside R198's column. -/
def ordBad (w : IWord) : Nat × Bool := (52, decide (4 ≤ (fOrd w).toNat))

/-- cp and cpx (R214, R217). -/
def dCp (w : IWord) (mk : Guard → CpDir → Scope → TReg → MAddr → Instr) : Decoded :=
  var0 w (checked [scopeChk w, zf 52 (fOrd w), zf 48 (fMod4 w)] [(59, decide (3 ≤ (fSize w).toNat))]
    (mk (fGuard w) (CpDir.of (fSize w)) (Scope.of (fScope w)) (fGd w) (fAddr w)))

/-- qadv (R213). -/
def dQadv (w : IWord) (mk : Guard → QReg → Imm48 → Instr) : Decoded :=
  checked [zf 68 (fGa w), zf 48 (fMod20 w)]
    [(74, overP (fGd w)), (0, (fLow w == 0) || decide (64 < (fLow w).toNat))]
    (mk (fGuard w) (toP (fGd w)) (fLow w))

/-- OPs 0x70 to 0x81. DESIGN CHOICE: red and append with ord 1 or 3, which R202 and R301 do not admit without naming a trap, are ILL_OPERAND at ord,
bit 52 (log 40). -/
def decodeMemory (op : Nat) (w : IWord) : Decoded :=
  match op with
  | 0x70 => var01 w fun sx => checked [sizeBad w, zf 56 (fScope w), zf 52 (fOrd w), zf 48 (fMod4 w)] []
      (.ld (fGuard w) sx (Sz.of (fSize w)) (fGd w) (fAddr w))
  | 0x71 => var0 w (checked [sizeBad w, zf 56 (fScope w), zf 52 (fOrd w), zf 48 (fMod4 w)] []
      (.st (fGuard w) (Sz.of (fSize w)) (fGd w) (fAddr w)))
  | 0x72 => var01 w fun sx => checked [sizeBad w, scopeChk w, zf 48 (fMod4 w)]
      [(52, decide (2 ≤ (fOrd w).toNat))]
      (.lds (fGuard w) sx (Sz.of (fSize w)) (Scope.of (fScope w)) (fBits 52 1 w == 1) (fGd w) (fAddr w))
  | 0x73 => var0 w (checked [sizeBad w, scopeChk w, zf 48 (fMod4 w)] [(52, !(fOrd w == 0 || fOrd w == 2))]
      (.sts (fGuard w) (Sz.of (fSize w)) (Scope.of (fScope w)) (fBits 53 1 w == 1) (fGd w) (fAddr w)))
  | 0x74 => var0 w (checked [zf 48 (fMod20 w)] [] (.tdef (fGuard w) (fGd w) (fGa w) (fLow w)))
  | 0x75 => var0 w (checked [zf 68 (fGa w), zf 48 (fMod20 w), zf 0 (fLow w)] [] (.tfree (fGuard w) (fGd w)))
  | 0x76 => var01 w fun ring =>
      if ring then checked [zf 48 (fMod20 w), zf 0 (fLow w)] [(68, overP (fGa w))]
        (.tstat (fGuard w) (fGd w) (.ring (toP (fGa w))))
      else checked [zf 48 (fMod20 w), zf 0 (fLow w)] [] (.tstat (fGuard w) (fGd w) (.tile (fGa w)))
  | 0x77 =>
    if fVar w = 0 then checked [zf 68 (fGa w), zf 48 (fMod20 w), zf 0 (fLow w)] [] (.tsetEmpty (fGuard w) (fGd w))
    else if fVar w = 2 then checked [zf 68 (fGa w), zf 48 (fMod20 w), zf 0 (fLow w)] [] (.tsetReady (fGuard w) (fGd w))
    else .error .var
  | 0x78 => var0 w (checked [zf 68 (fGa w), zf 48 (fMod20 w), zf 13 (fBits 13 35 w)]
      [(74, overP (fGd w)), (6, decide (64 < (fBits 0 6 w).toNat + (fBits 6 7 w).toNat))]
      (.rdef (fGuard w) (toP (fGd w)) (fBits 0 6 w) (fBits 6 7 w)))
  | 0x79 => var01 w fun tail => if tail then dQadv w .qadvTail else dQadv w .qadvHead
  | 0x7A => dCp w .cp
  | 0x7B => dCp w .cpx
  | 0x7C => varOf (AtomOp.of (fVar w)) fun op =>
      checked [sizeBad w, scopeChk w, ordBad w, zf 49 (fBits 49 3 w)]
        [(59, !atomSizeOk op (Sz.of (fSize w))), (48, (fBits 48 1 w == 1) && !op.admitsC)]
        (.atom (fGuard w) op (Sz.of (fSize w)) (Scope.of (fScope w)) (fBits 52 2 w) (fBits 48 1 w == 1) (fGd w) (fAddr w))
  | 0x7D => varOf (AtomOp.of (fVar w)) fun op =>
      if op = .swap ∨ op = .cas then .error .var
      else checked [sizeBad w, scopeChk w, ordBad w, zf 49 (fBits 49 3 w)]
        [(59, !atomSizeOk op (Sz.of (fSize w))), (52, fBits 52 1 w == 1), (48, (fBits 48 1 w == 1) && !op.admitsC)]
        (.red (fGuard w) op (Sz.of (fSize w)) (Scope.of (fScope w)) (fBits 53 1 w == 1) (fBits 48 1 w == 1) (fGd w) (fAddr w))
  | 0x7E => var0 w (checked [zf 74 (fGd w), zf 68 (fGa w), zf 62 (fGb w), zf 59 (fSize w), scopeChk w, zf 52 (fOrd w),
        zf 48 (fMod4 w), zf 5 (fBits 5 43 w)] [(0, fBits 0 5 w == 0)]
      (.fence (fGuard w) (Scope.of (fScope w)) (fBits 0 5 w)))
  | 0x7F => var0 w (checked [zf 74 (fGd w), scopeChk w, zf 52 (fOrd w), zf 48 (fMod4 w)]
      [(56, decide (2 ≤ (fScope w).toNat))]
      (.pref (fGuard w) (fSize w) (Scope.of (fScope w)) (fAddr w)))
  | 0x80 => var0 w (checked [zf 62 (fGb w), zf 59 (fSize w), zf 56 (fScope w), zf 52 (fOrd w), zf 48 (fMod4 w)] []
      (.iflush (fGuard w) (fGd w) (fGa w) (fLow w)))
  | 0x81 => var0 w (checked [zf 56 (fScope w), zf 52 (fOrd w), zf 48 (fMod4 w)] []
      (.tlbprobe (fGuard w) (fSize w) (fGd w) (fAddr w)))
  | _ => .error .op

/-! ## Nets, events, fabric (R63) -/

/-- nlink and nlink.join share OP 0x95 (R239). -/
def dNlink (w : IWord) : Decoded :=
  var0 w (checked [zf 74 (fGd w), zf 56 (fGc w), zf 49 (fBits 49 7 w), zf 0 (fLow w)] []
    (if fBits 48 1 w = 1 then .nlinkJoin (fGuard w) (fGa w) (fGb w) else .nlink (fGuard w) (fGa w) (fGb w)))

/-- nstat (R239). -/
def dNstat (w : IWord) : Decoded :=
  if fVar w = 1 then
    checked [zf 68 (fGa w), zf 51 (fBits 51 17 w), zf 0 (fLow w)] [] (.nstat (fGuard w) (.pool (fBits 48 3 w)) (fGd w))
  else
    let k : Option NstatKind := if fVar w = 0 then some .bag else if fVar w = 2 then some .spill
      else if fVar w = 3 then some .shed else none
    varOf k fun k => checked [zf 68 (fGa w), zf 48 (fMod20 w), zf 0 (fLow w)] [] (.nstat (fGuard w) k (fGd w))

/-- OPs 0x90 to 0x9A. -/
def decodeNet (op : Nat) (w : IWord) : Decoded :=
  match op with
  | 0x90 => var0 w (checked [zf 74 (fGd w), zf 53 (fBits 53 15 w), zf 0 (fLow w)]
      [(48, decide ((fBits 48 5 w).toNat < 4) || decide (20 < (fBits 48 5 w).toNat))]
      (.rtab (fGuard w) (fGa w) (fBits 48 5 w)))
  | 0x91 => var0 w (checked [zf 62 (fGb w), zf 56 (fGc w), zf 51 (fBits 51 5 w), zf 0 (fLow w)] []
      (.nalloc (fGuard w) (fGd w) (fGa w) (fBits 48 3 w)))
  | 0x92 => var0 w (checked [zf 74 (fGd w), zf 62 (fGb w), zf 56 (fGc w), zf 51 (fBits 51 5 w), zf 0 (fLow w)] []
      (.nfree (fGuard w) (fGa w) (fBits 48 3 w)))
  | 0x93 => var0 w (checked [zf 62 (fGb w), zf 56 (fGc w), zf 50 (fBits 50 6 w), zf 0 (fLow w)] []
      (.nget (fGuard w) (fGd w) (fGa w) (fBits 48 2 w)))
  | 0x94 => var0 w (checked [zf 74 (fGd w), zf 56 (fGc w), zf 50 (fBits 50 6 w), zf 0 (fLow w)] []
      (.nset (fGuard w) (fGa w) (fBits 48 2 w) (fGb w)))
  | 0x95 => dNlink w
  | 0x96 => var0 w (checked [zf 74 (fGd w), zf 56 (fGc w), zf 48 (fMod8 w), zf 0 (fLow w)] []
      (.npush (fGuard w) (fGa w) (fGb w)))
  | 0x97 => var0 w (checked [zf 74 (fGd w), zf 68 (fGa w), zf 48 (fMod20 w), zf 0 (fLow w)] [] (.nnext (fGuard w)))
  | 0x98 => var0 w (checked [zf 50 (fBits 50 18 w), zf 0 (fLow w)] []
      (.nshed (fGuard w) (fGd w) (fGa w) (ShedDir.of (fBits 48 2 w))))
  | 0x99 => var0 w (checked [zf 74 (fGd w), zf 52 (fBits 52 16 w)] [(0, (fLow w == 0) || decide (2 ^ 32 ≤ (fLow w).toNat))]
      (.npool (fGuard w) (fBits 51 1 w == 1) (fBits 48 3 w) (fGa w) (fLow w)))
  | 0x9A => dNstat w
  | _ => .error .op

/-- An e-slot of format E (R47). -/
def fESlot (lo : Nat) (w : IWord) : BitVec 5 := w.extractLsb' lo 5
/-- The e register a slot names. -/
def eslotOf (x : BitVec 5) : Option EReg := if x = 31 then none else some (x.extractLsb' 0 4)
/-- The five bits of a slot. -/
def eslotEnc : Option EReg → BitVec 5
  | some e => (0 : BitVec 1) ++ e
  | none => 31
/-- Values 16 to 30 (R47). -/
def eslotBad (x : BitVec 5) : Bool := decide (16 ≤ x.toNat) && x != 31
/-- The slot names the register of a later slot of the list (R47). -/
def eslotDup (x : BitVec 5) (l : List (BitVec 5)) : Bool := x != 31 && l.contains x

/-- offer (R47, R255). Where every e-slot is unused, all four offend, and slot 0 is the highest, which R69 reports (DEDUCED, log 40). -/
def dOffer (w : IWord) : Decoded :=
  let a := fESlot 75 w
  let b := fESlot 70 w
  let c := fESlot 65 w
  let d := fESlot 60 w
  var0 w (checked [zf 56 (fBits 56 4 w), zf 32 (fBits 32 12 w), zf 0 (fBits 0 32 w)]
    [(75, eslotBad a || eslotDup a [b, c, d] || (a == 31 && b == 31 && c == 31 && d == 31)),
     (70, eslotBad b || eslotDup b [c, d]), (65, eslotBad c || eslotDup c [d]), (60, eslotBad d)]
    (.offer (fGuard w) (eslotOf a) (eslotOf b) (eslotOf c) (eslotOf d) (fBits 50 6 w) (fBits 44 6 w)))

/-- evput (R264). -/
def dEvput (w : IWord) : Decoded :=
  let nodest := fBits 51 1 w == 1
  let nocont := fBits 50 1 w == 1
  let form := fBits 48 2 w
  let os : List (Nat × Bool) := [(68, overE (fGa w)), (51, nodest && nocont), (48, form == 3)]
  let top : List (Nat × Bool) := [zf 74 (fGd w)]
  let e := toE (fGa w)
  if form = 0 then
    if nodest then
      checked (top ++ [(62, nocont && fGb w != 0), zf 56 (fGc w), zf 52 (fBits 52 4 w), zf 0 (fLow w)]) os
        (.evput (fGuard w) e (.nodest (fGb w)))
    else if nocont then
      checked (top ++ [zf 62 (fGb w), zf 52 (fBits 52 4 w), zf 0 (fLow w)]) os (.evput (fGuard w) e (.nocont (fGc w)))
    else
      checked (top ++ [zf 52 (fBits 52 4 w), zf 0 (fLow w)]) os (.evput (fGuard w) e (.both (fGb w) (fGc w)))
  else
    checked (top ++ [zf 62 (fGb w), zf 56 (fGc w), zf 52 (fBits 52 4 w), (51, nodest), (50, nocont), zf 0 (fLow w)]) os
      (.evput (fGuard w) e (if form = 1 then .cp else .clear))

/-- OPs 0xA0 to 0xA9. -/
def decodeEvent (op : Nat) (w : IWord) : Decoded :=
  match op with
  | 0xA0 => varOf (EvKind.of (fVar w)) fun k =>
      let sole := fBits 51 1 w == 1
      checked [(56, fGc w != 0 && !(k == .xfer || (k == .sync && sole))), zf 52 (fBits 52 4 w), (48, scopeBad (fBits 48 3 w)),
          zf 0 (fLow w)] [(74, overE (fGd w))]
        (.evnew (fGuard w) k (Scope.of (fBits 48 3 w)) sole (toE (fGd w)) (fGa w) (fGb w) (fGc w))
  | 0xA1 => var0 w (checked [zf 74 (fGd w), zf 62 (fGb w), zf 56 (fGc w), zf 48 (fMod8 w), zf 0 (fLow w)]
      [(68, overE (fGa w))] (.evdel (fGuard w) (toE (fGa w))))
  | 0xA2 => var0 w (dEvput w)
  | 0xA3 => var0 w (checked [zf 74 (fGd w), zf 48 (fMod8 w), zf 0 (fLow w)] [(68, overE (fGa w))]
      (.evbind (fGuard w) (toE (fGa w)) (fGb w) (fGc w)))
  | 0xA4 => var0 w (checked [zf 74 (fGd w), zf 56 (fGc w), zf 48 (fMod8 w), zf 0 (fLow w)] [(68, overE (fGa w))]
      (.evunbind (fGuard w) (toE (fGa w)) (fGb w)))
  | 0xA5 => dOffer w
  | 0xA6 => var0 w (
      if fBits 48 1 w = 1 then
        checked [zf 62 (fGb w), zf 56 (fGc w), zf 49 (fBits 49 7 w), zf 0 (fLow w)] [(68, overE (fGa w))]
          (.evresGet (fGuard w) (fGd w) (toE (fGa w)))
      else
        checked [zf 56 (fGc w), zf 49 (fBits 49 7 w), zf 0 (fLow w)] [(74, overE (fGd w))]
          (.evres (fGuard w) (toE (fGd w)) (fGa w) (fGb w)))
  | 0xA7 => var0 w (checked [zf 74 (fGd w), zf 62 (fGb w), zf 56 (fGc w), zf 48 (fMod8 w), zf 0 (fLow w)]
      [(68, overE (fGa w))] (.evcancel (fGuard w) (toE (fGa w))))
  | 0xA8 => var0 w (checked [zf 62 (fGb w), zf 56 (fGc w), zf 49 (fBits 49 7 w), zf 0 (fLow w)] [(68, overE (fGa w))]
      (.evstat (fGuard w) (fBits 48 1 w == 1) (fGd w) (toE (fGa w))))
  | 0xA9 => var0 w (checked [zf 56 (fGc w), zf 50 (fBits 50 6 w), zf 0 (fLow w)]
      [(74, overE (fGd w)), (49, fBits 49 1 w == 1 && fBits 48 1 w == 1)]
      (.evtimer (fGuard w) (fBits 48 1 w == 1) (fBits 49 1 w == 1) (toE (fGd w)) (fGa w) (fGb w)))
  | _ => .error .op

/-- putt and gett (R305). -/
def dTileMove (w : IWord) (mk : Guard → Bool → TReg → Reg → TReg → Instr) : Decoded :=
  var0 w (checked [zf 62 (fGb w), zf 56 (fScope w), zf 52 (fOrd w), zf 48 (fMod4 w), zf 6 (fBits 6 42 w)]
    [(59, decide (2 ≤ (fSize w).toNat))]
    (mk (fGuard w) (fBits 59 1 w == 1) (fGd w) (fGa w) (fBits 0 6 w)))

/-- csend (R303). -/
def dCsend (w : IWord) : Decoded :=
  let o := fVOps w
  var0 w (checked
    [(68, specRsvd (fSpec 68 w)), (56, specRsvd (fSpec 56 w)), (44, specRsvd (fSpec 44 w)), (32, specRsvd (fSpec 32 w)),
      zf 12 (fBits 12 15 w), zf 11 (fBits 11 1 w), zf 6 (fBits 6 1 w), zf 5 (fBits 5 1 w),
      (4, advRsvd o.adva o.a), (3, advRsvd o.advd o.dst), zf 2 (fBits 2 1 w), zf 1 (fBits 1 1 w), zf 0 (fBits 0 1 w)]
    [(68, !csendDst o.dst o.a), (56, !o.a.tr), (44, !o.b.g), (32, !o.c.isNone), (7, decide (8 ≤ (fSel w).toNat)),
      (4, advOperand o.adva o.a), (3, advOperand o.advd o.dst)]
    (.csend (fGuard w) (fSel w) o))

/-- OPs 0xB0 to 0xB9. -/
def decodeFabric (op : Nat) (w : IWord) : Decoded :=
  match op with
  | 0xB0 => var0 w (checked [zf 74 (fGd w), zf 0 (fLow w)] [(56, decide (58 < (fGc w).toNat))]
      (.amsend (fGuard w) (fGa w) (fGb w) (fGc w) (fMod8 w)))
  | 0xB1 => var0 w (checked [zf 74 (fGd w), zf 49 (fBits 49 19 w), zf 11 (fBits 11 37 w)] []
      (.ambind (fGuard w) (fBits 48 1 w == 1) (fGa w) (fBits 0 11 w)))
  | 0xB2 => var0 w (checked [zf 74 (fGd w), zf 68 (fGa w), zf 48 (fMod20 w), zf 0 (fLow w)] [] (.amnext (fGuard w)))
  | 0xB3 => var0 w (checked [zf 56 (fScope w), ordBad w, zf 48 (fMod4 w)]
      [(62, decide (63 < (fGb w).toNat + (fSize w).toNat)), (59, decide (5 < (fSize w).toNat)), (52, fBits 52 1 w == 1)]
      (.append (fGuard w) (fGd w) (fGb w) (fSize w) (fBits 53 1 w == 1) (fGa w) (fLow w)))
  | 0xB4 => dCsend w
  | 0xB5 => dTileMove w .putt
  | 0xB6 => dTileMove w .gett
  | 0xB7 => var0 w (checked [zf 74 (fGd w), zf 49 (fBits 49 19 w)] [(0, (fLow w == 0) || decide (1024 < (fLow w).toNat))]
      (.crsload (fGuard w) (fBits 48 1 w == 1) (fGa w) (fLow w)))
  | 0xB8 => var0 w (checked [zf 74 (fGd w), zf 49 (fBits 49 19 w), zf 0 (fLow w)] []
      (.crsgo (fGuard w) (fBits 48 1 w == 1) (fGa w)))
  | 0xB9 => var0 w (checked [zf 68 (fGa w), zf 49 (fBits 49 19 w), zf 0 (fLow w)] []
      (.crsstat (fGuard w) (fBits 48 1 w == 1) (fGd w)))
  | _ => .error .op

/-! ## System (R64) -/

/-- csrw, csrs, csrc (R340). -/
def dCsr (w : IWord) (mk : Guard → Reg → BitVec 16 → CsrSrc → Instr) : Decoded :=
  if fBits 48 1 w = 1 then
    checked [zf 68 (fGa w), zf 49 (fBits 49 3 w)] [] (mk (fGuard w) (fGd w) (fCtl w) (.imm (fLow w)))
  else
    checked [zf 49 (fBits 49 3 w), zf 0 (fLow w)] [] (mk (fGuard w) (fGd w) (fCtl w) (.reg (fGa w)))

/-- smove (R332). -/
def dSmove (w : IWord) : Decoded :=
  let mode := fBits 52 2 w
  let slot := fBits 48 3 w
  let held := mode == 1 || mode == 2
  let i : Instr := if mode = 1 then .smoveHold (fGuard w) (fGd w) slot
    else if mode = 2 then .smoveRelease (fGuard w) (fGd w) slot
    else .smove (fGuard w) (fGd w) (fGa w) slot (fBits 51 1 w == 1)
  var0 w (checked [(68, held && fGa w != 0), zf 62 (fGb w), zf 56 (fGc w), zf 54 (fBits 54 2 w),
      (51, held && fBits 51 1 w == 1), zf 0 (fLow w)]
    [(52, mode == 3), (48, slot == 0)] i)

/-- The reserved part of imm48 of sstart (R330). -/
def placeImm (place : Nat) (w : IWord) : Nat × Bool :=
  match place with
  | 0 => zf 16 (fBits 16 32 w)
  | 1 => zf 29 (fBits 29 19 w)
  | _ => zf 0 (fLow w)

/-- PLACE with its operands (R330). -/
def placeOf (place : Nat) (w : IWord) : Place :=
  match place with
  | 0 => .here (fBits 0 16 w)
  | 1 => .named (fBits 17 12 w) (fBits 8 9 w) (fBits 0 8 w)
  | 2 => .crew
  | 3 => .reach
  | _ => .pkg

/-- sstart (R330). -/
def dSstart (w : IWord) : Decoded :=
  let image := fBits 50 1 w == 1
  let dl := fBits 55 12 w
  let role := fBits 48 2 w
  let place := (fBits 52 3 w).toNat
  var0 w (checked [zf 67 (fBits 67 1 w), (55, image && dl != 0), zf 51 (fBits 51 1 w), (48, image && role != 0), placeImm place w]
    [(55, !image && dl == 0), (52, decide (5 ≤ place)), (48, !image && role == 3)]
    (.sstart (fGuard w) (fGd w) (fGa w) (placeOf place w) (if image then .image else .entry role dl)))

/-- OPs 0xC0 to 0xCE. -/
def decodeSystem (op : Nat) (w : IWord) : Decoded :=
  match op with
  | 0xC0 => var01 w fun sys =>
      if sys then
        checked [zf 52 (fBits 52 16 w), zf 16 (fBits 16 32 w)] [(68, fGa w == 0 || decide (58 < (fGa w).toNat))]
          (.syscall (fGuard w) (fGd w) (fGa w) (fBits 0 16 w) (fBits 48 4 w))
      else
        checked [zf 74 (fGd w), zf 68 (fGa w), zf 49 (fBits 49 19 w), zf 16 (fBits 16 32 w)] []
          (.trap (fGuard w) (fBits 48 1 w == 1) (fBits 0 16 w))
  | 0xC1 => var01 w fun up =>
      if up then
        checked [zf 74 (fGd w), zf 68 (fGa w), zf 48 (fMod20 w), zf 0 (fLow w)] [] (.upret (fGuard w))
      else
        checked [zf 74 (fGd w), zf 68 (fGa w), zf 53 (fBits 53 15 w), zf 0 (fLow w)]
          [(52, fBits 52 1 w == 1 && (fBits 51 1 w == 1 || fBits 48 3 w == 0)), (51, fBits 51 1 w == 1 && fBits 48 3 w == 0)]
          (.eret (fGuard w) (fBits 48 3 w) (fBits 51 1 w == 1) (fBits 52 1 w == 1))
  | 0xC2 =>
    if fVar w = 0 then
      checked [zf 68 (fGa w), zf 48 (fMod4 w), zf 0 (fLow w)] [] (.csrr (fGuard w) (fGd w) (fCtl w))
    else if fVar w = 1 then dCsr w .csrw
    else if fVar w = 2 then dCsr w .csrs
    else if fVar w = 3 then dCsr w .csrc
    else .error .var
  | 0xC3 => var0 w (checked [zf 74 (fGd w), zf 56 (fGc w), zf 51 (fBits 51 5 w), zf 0 (fLow w)] [(48, fBits 48 2 w == 3)]
      (.tlbi (fGuard w) (if fBits 48 2 w = 0 then .page else if fBits 48 2 w = 1 then .ctx else .all) (fBits 50 1 w == 1)
        (fGa w) (fGb w)))
  | 0xC4 => var0 w (checked [zf 68 (fGa w), zf 62 (fGb w), zf 56 (fGc w), zf 48 (fMod8 w), zf 0 (fLow w)] []
      (.replay (fGuard w) (fGd w)))
  | 0xC5 => var0 w (checked [zf 49 (fBits 49 7 w), zf 0 (fLow w)] []
      (.migrate (fGuard w) (fBits 48 1 w == 1) (fGd w) (fGa w) (fGb w) (fGc w)))
  | 0xC6 => var0 w (g2 w [] (.wakerel (fGuard w) (fGd w) (fGa w)))
  | 0xC7 => dSmove w
  | 0xC8 => dSstart w
  | 0xC9 => var0 w (
      if fBits 51 1 w = 1 then
        checked [zf 74 (fGd w), zf 68 (fGa w), zf 52 (fBits 52 16 w), zf 0 (fLow w)] [] (.sexit (fGuard w) (some (fBits 48 3 w)))
      else
        checked [zf 74 (fGd w), zf 68 (fGa w), zf 52 (fBits 52 16 w), zf 48 (fBits 48 3 w), zf 0 (fLow w)] []
          (.sexit (fGuard w) none))
  | 0xCA => var0 w (checked [zf 74 (fGd w), zf 68 (fGa w), zf 48 (fMod20 w), zf 0 (fLow w)] [] (.halt (fGuard w)))
  | 0xCB => var01 w fun er =>
      if er then g2 w [] (.keyerase (fGuard w) (fGd w) (fGa w)) else g3 w [] (.keyset (fGuard w) (fGd w) (fGa w) (fGb w))
  | 0xCC => var0 w (checked [zf 68 (fGa w), zf 60 (fBits 60 8 w), zf 12 (fBits 12 36 w)] []
      (.wdog (fGuard w) (fGd w) (fBits 48 12 w) (fBits 0 12 w)))
  | 0xCD => var0 w (checked [zf 74 (fGd w), zf 68 (fGa w), zf 55 (fBits 55 13 w), zf 51 (fBits 51 1 w), zf 11 (fBits 11 37 w)]
      [(52, fBits 52 3 w == 7), (0, fBits 0 11 w == 0)]
      (.hostirq (fGuard w) (fBits 48 3 w) (fBits 52 3 w) (fBits 0 11 w)))
  | 0xCE => var0 w (checked [zf 62 (fGb w), zf 56 (fGc w), zf 51 (fBits 51 5 w), (48, scopeBad (fBits 48 3 w)), zf 0 (fLow w)] []
      (.evkill (fGuard w) (fGd w) (fGa w) (Scope.of (fBits 48 3 w))))
  | _ => .error .op

/-- The decoder by classes of OPs (R1, R59 to R64). -/
def decodeOp (op : Nat) (w : IWord) : Decoded :=
  if op = 0 then .error .zero
  else if op < 0x40 then decodeScalar op w
  else if op < 0x60 then decodeVector op w
  else if op < 0x70 then decodeTensor op w
  else if op < 0x90 then decodeMemory op w
  else if op < 0xA0 then decodeNet op w
  else if op < 0xB0 then decodeEvent op w
  else if op < 0xC0 then decodeFabric op w
  else if op < 0xD0 then decodeSystem op w
  else .error .op

/-- The instruction of a word, or the first of checks 5 to 9 of R69 that it fails. -/
def decode (w : IWord) : Decoded := decodeOp (fOp w).toNat w

/-! ## The encoder -/

/-- A format V word. -/
def encV (op : BitVec 8) (var sel : BitVec 4) (g : Guard) (o : VOps) : IWord :=
  packV op var g o.dst.enc o.a.enc o.b.enc o.c.enc o.shape (bit1 o.hi) sel (bit1 o.advc) (bit1 o.advb) (bit1 o.adva) (bit1 o.advd)
    (bit1 o.sat) (bit1 o.ftz) (bit1 o.rtz)

/-- A format T word. -/
def encT (op : BitVec 8) (var : BitVec 4) (g : Guard) (pa pb : Plane) (m : BitVec 11) (sat : Bool) (o : TOps) : IWord :=
  packT op var g o.dst.enc o.a.enc o.b.enc o.c.enc pa.p1 (bit1 pa.signed) pb.p1 (bit1 pb.signed) m (bit1 o.advc) (bit1 o.advb)
    (bit1 o.adva) (bit1 o.advd) (bit1 sat)

/-- No plane operand. -/
def noPlane : Plane := ⟨0, false⟩
/-- mod[18:8] holding KD at bit 11. -/
def mKd (kd : Bool) : BitVec 11 := (0 : BitVec 7) ++ bit1 kd ++ (0 : BitVec 3)

/-- imm48 of tmx (R174). -/
def encTmx : TmxCmd → Imm48
  | .zero dt e => (0 : BitVec 2) ++ dt ++ (0 : BitVec 22) ++ e ++ (0 : BitVec 7)
  | .mma dt a b pa pb ha hb => (1 : BitVec 2) ++ dt ++ a ++ b ++ pa.p1 ++ bit1 pa.signed ++ pb.p1 ++ bit1 pb.signed
      ++ bit1 hb ++ bit1 ha ++ (0 : BitVec 18)
  | .acc dt a => (2 : BitVec 2) ++ dt ++ a ++ (0 : BitVec 34)

/-- A format S word of csrw, csrs or csrc. -/
def encCsr (var : BitVec 4) (g : Guard) (d : Reg) (ctl : BitVec 16) : CsrSrc → IWord
  | .reg a => packS 0xC2 var g d a ctl 0 0
  | .imm i => packS 0xC2 var g d 0 ctl 1 i

/-- PLACE and imm48 of sstart. -/
def encPlace : Place → BitVec 3 × Imm48
  | .here c => (0, (0 : BitVec 32) ++ c)
  | .named p c r => (1, (0 : BitVec 19) ++ p ++ c ++ r)
  | .crew => (2, 0)
  | .reach => (3, 0)
  | .pkg => (4, 0)

/-- mod of sstart. -/
def encStart (place : BitVec 3) : StartWhat → BitVec 20
  | .entry role dl => (0 : BitVec 1) ++ dl ++ place ++ (0 : BitVec 2) ++ role
  | .image => (0 : BitVec 13) ++ place ++ (0b0100 : BitVec 4)

/-- fcmp's type code. -/
def encFcmpT : FFmt → BitVec 2
  | .f32 => 0
  | .f16 => 1
  | _ => 2

/-- The instruction has an encoding: it is no hardware step. -/
def Instr.encodable : Instr → Bool
  | .vectorInstructionStart _ | .replayStart _ | .vectorCompletion _ | .matrixCommandStart _ | .matrixCommandCompletion _
  | .tmxArrival _ | .remoteCommandEntry _ | .copyCommandStart _ | .copyCommandCompletion _ _ | .instructionLineFill _ _
  | .bagPop _ | .pairPush _ | .pairShed _ | .offerResult _ | .offerArrival _ | .settleWindowEnd _ _ _ | .claim _
  | .claimReply _ _ | .yieldMessage _ _ _ | .release _ _ | .resolutionNotice _ _ _ | .eventCommit _ _
  | .consistencyPhase2 _ _ | .withdrawal _ _ _ _ _ | .offerRefusal _ _ _ | .reservationLapse _ _ _ | .offerDeadline _ _
  | .completionNotice _ _ | .occurrenceData _ _ | .reduceNode _ _ _ | .disseminationNotice _ _ _ _ | .timerExpiry _ _
  | .amArrival _ | .amDispatch _ | .funbound _ _ | .appendArrival _ | .csendArrival _ | .tileTransferArrival _
  | .courseOpStart _ _ _ | .courseOpCompletion _ _ _ | .courseStart _ | .ldPacket _ | .stPacket _ | .atomPacket _ | .reply _
  | .retryResend _ _ | .ftime _ _ | .redirect _ | .flitRoute _ _ _ | .swenerFlitReceive _ _ _ _ | .portFailover _ _
  | .linkTraining _ _ _ | .trainingSummary _ _ _ | .migrationLineCopy _ _ | .wakeReleaseRequest _ _
  | .wakeReleaseQuery _ _ _ _ | .wakeReleaseAnswer _ _ | .crewleadWrite _ _ | .placementDescent _ _ _
  | .strandStartArrival _ | .trapDelivery _ | .forwardingExpiry _ _ | .loadExchange _ | .syscallRequest _ | .rsptail _ _ _
  | .syscallReplyArrival _ | .stop _ | .wake _ | .battenRead _ _ _ | .battenWrite _ _ _ _ | .msg _ _ | .reset _ | .retire _
  | .sramSoftError _ _ | .tamper _ | .coldReset _ | .bringUpPhase _ | .timeLoad _ _ _ | .bootConfigurationWrite _ _ _
  | .lock _ | .frameMapWrite _ _ _ _ | .attestationRequest _ _ | .measurementExtend _ _ _ | .pcieInboundRequest _ _ _ _
  | .timeBeaconSend _ | .timeBeacon _ _ _ | .strokeSend _ | .strokeWindow _ _ | .resetRequest _ _ _ | .governorInterval _
  | .illegalInstruction _ _ | .portReset _ _ | .controlCoreAccess _ _ _ => false
  | _ => true

/-- The word of an instruction, from the encodings of R39 to R49 and of the instruction's own rule; a hardware
step has none, and gets the all-zero word. -/
def encode : Instr → IWord
  | .nop g => packG 0x01 0 g 0 0 0 0 0
  | .add g d a b => packG 0x02 0 g d a b 0 0
  | .sub g d a b => packG 0x03 0 g d a b 0 0
  | .mul g d a b => packG 0x04 0 g d a b 0 0
  | .mulh g k d a b => packG 0x05 k.code g d a b 0 0
  | .div g n d a b => packG 0x06 (varBit n) g d a b 0 0
  | .rem g n d a b => packG 0x07 (varBit n) g d a b 0 0
  | .and g d a b => packG 0x08 0 g d a b 0 0
  | .or g d a b => packG 0x09 0 g d a b 0 0
  | .xor g d a b => packG 0x0A 0 g d a b 0 0
  | .andn g d a b => packG 0x0B 0 g d a b 0 0
  | .shl g d a b => packG 0x0C 0 g d a b 0 0
  | .shr g d a b => packG 0x0D 0 g d a b 0 0
  | .sar g d a b => packG 0x0E 0 g d a b 0 0
  | .rot g d a b => packG 0x0F 0 g d a b 0 0
  | .clz g d a => packG 0x10 0 g d a 0 0 0
  | .popc g d a => packG 0x11 0 g d a 0 0 0
  | .min g n d a b => packG 0x12 (varBit n) g d a b 0 0
  | .max g n d a b => packG 0x13 (varBit n) g d a b 0 0
  | .sel g d a b p => packG 0x14 0 g d a b (ofP p) 0
  | .cmp g c d a b => packG 0x15 c.code g (ofP d) a b 0 0
  | .cmpk g c d a i => packK 0x2F c.code g (ofP d) a 0 i
  | .addk g d a i => packK 0x16 0 g d a 0 i
  | .movk g d i => packK 0x17 0 g d 0 0 i
  | .movh g d a i => packK 0x18 0 g d a 0 ((0 : BitVec 32) ++ i)
  | .ext g sx d a lo w1 => packK 0x19 (varBit sx) g d a ((0 : BitVec 8) ++ w1 ++ lo) 0
  | .ins g d a lo w1 => packK 0x1A 0 g d a ((0 : BitVec 8) ++ w1 ++ lo) 0
  | .lea g d m sz => packM 0x1B 0 g d m.base m.idx sz.code 0 0 0 m.disp
  | .coord g rel d a b => packG 0x1C (varBit rel) g d a b 0 0
  | .decoord g f d a => packG 0x1D f.code g d a 0 0 0
  | .pand g d a b => packG 0x1E 0 g (ofP d) (ofP a) (ofP b) 0 0
  | .por g d a b => packG 0x1F 0 g (ofP d) (ofP a) (ofP b) 0 0
  | .pxor g d a b => packG 0x20 0 g (ofP d) (ofP a) (ofP b) 0 0
  | .pnot g d a => packG 0x21 0 g (ofP d) (ofP a) 0 0 0
  | .pmov g (.pp d a) => packG 0x22 0 g (ofP d) (ofP a) 0 0 0
  | .pmov g (.pg d a) => packG 0x22 1 g (ofP d) a 0 0 0
  | .pmov g (.gp d a) => packG 0x22 2 g d (ofP a) 0 0 0
  | .br g off => packK 0x23 0 g 0 0 0 off
  | .call g l off => packK 0x24 0 g l 0 0 off
  | .ret g a => packK 0x25 0 g 0 a 0 0
  | .jr g a => packK 0x26 0 g 0 a 0 0
  | .loop g a off => packK 0x27 0 g 0 a 0 off
  | .yield g dl live => packK 0x28 0 g 0 0 (live ++ dl) 0
  | .fadd g t rtz d a b => packG 0x29 t.code g d a b 0 ((0 : BitVec 7) ++ bit1 rtz)
  | .fsub g t rtz d a b => packG 0x2A t.code g d a b 0 ((0 : BitVec 7) ++ bit1 rtz)
  | .fmul g t rtz d a b => packG 0x2B t.code g d a b 0 ((0 : BitVec 7) ++ bit1 rtz)
  | .ffma g t rtz d a b c => packG 0x2C t.code g d a b c ((0 : BitVec 7) ++ bit1 rtz)
  | .fcmp g c t d a b => packG 0x2D c.code g (ofP d) a b 0 ((0 : BitVec 6) ++ encFcmpT t)
  | .fcvt g c rtz d a => packG 0x2E c.code g d a 0 0 ((0 : BitVec 7) ++ bit1 rtz)
  | .vseqOpen g => packV 0x40 0 g 0xC00 0xC00 0xC00 0xC00 0 0 0 0 0 0 0 0 0 0
  | .vseqLoop g a => packV 0x40 1 g 0xC00 (Spec.scalar a).enc 0xC00 0xC00 0 0 0 0 0 0 0 0 0 0
  | .vseqStop g => packV 0x40 2 g 0xC00 0xC00 0xC00 0xC00 0 0 0 0 0 0 0 0 0 0
  | .vadd g t o => encV 0x41 t.code 0 g o
  | .vsub g t o => encV 0x42 t.code 0 g o
  | .vmul g t o => encV 0x43 t.code 0 g o
  | .vfma g t o => encV 0x44 t.code 0 g o
  | .vmax g t o => encV 0x45 t.code 0 g o
  | .vmin g t o => encV 0x46 t.code 0 g o
  | .vabs g t o => encV 0x47 t.code 0 g o
  | .vneg g t o => encV 0x48 t.code 0 g o
  | .vcvt g t s o => encV 0x49 t.code s.code g o
  | .vred g op t o => encV 0x4A t.code op.code g o
  | .vscan g op t o => encV 0x4B t.code op.code g o
  | .vclmul g t o => encV 0x4C t.code 0 g o
  | .vcmp g c t o => encV 0x4D t.code c.code g o
  | .vsel g t o => encV 0x4E t.code 0 g o
  | .vpopc g t o => encV 0x4F t.code 0 g o
  | .vbcast g t o => encV 0x50 t.code 0 g o
  | .viota g t o => encV 0x51 t.code 0 g o
  | .vperm g t o => encV 0x52 t.code 0 g o
  | .vzip g k t o => encV 0x53 t.code k g o
  | .vunzip g k t o => encV 0x54 t.code k g o
  | .vsfu g f t o => encV 0x55 f.code t.code g o
  | .vcompact g t o => encV 0x56 t.code 0 g o
  | .vexpand g t o => encV 0x57 t.code 0 g o
  | .vdot g t o => encV 0x58 t.code 0 g o
  | .vamax g t o => encV 0x59 t.code 0 g o
  | .tzero g e o => encT 0x60 0 g noPlane noPlane e false o
  | .tmma g pa pb ha hb o => encT 0x61 0 g pa pb ((0 : BitVec 8) ++ bit1 hb ++ bit1 ha ++ (0 : BitVec 1)) false o
  | .tacc g o => encT 0x62 0 g noPlane noPlane 0 false o
  | .tread g f o => encT 0x63 f.code g noPlane noPlane 0 false o
  | .treadBlk g pl o => encT 0x63 3 g pl noPlane 0 false o
  | .tquant g f pl kd o => encT 0x64 f.code g pl noPlane (mKd kd) false o
  | .tdequant g f pl kd o => encT 0x65 f.code g pl noPlane (mKd kd) false o
  | .tplane g pl kd sat o => encT 0x66 0 g pl noPlane (mKd kd) sat o
  | .tunplane g pl kd sat o => encT 0x67 0 g pl noPlane (mKd kd) sat o
  | .tcbdec g pl kd o => encT 0x68 0 g pl noPlane (mKd kd) false o
  | .thad g inv kd o => encT 0x69 (varBit inv) g noPlane noPlane (mKd kd) false o
  | .ttopk g val k o => encT 0x6A (varBit val) g noPlane noPlane ((0 : BitVec 4) ++ k) false o
  | .tcap g d f l r life => packK 0x6C 0 g d 0 ((0 : BitVec 5) ++ r ++ l ++ f) life
  | .tmx g a cap cmd => packK 0x6B 0 g a cap 0 (encTmx cmd)
  | .ld g sx sz d m => packM 0x70 (varBit sx) g d m.base m.idx sz.code 0 0 0 m.disp
  | .st g sz v m => packM 0x71 0 g v m.base m.idx sz.code 0 0 0 m.disp
  | .lds g sx sz sc acq d m => packM 0x72 (varBit sx) g d m.base m.idx sz.code sc.code ((0 : BitVec 3) ++ bit1 acq) 0 m.disp
  | .sts g sz sc rel v m =>
    packM 0x73 0 g v m.base m.idx sz.code sc.code ((0 : BitVec 2) ++ bit1 rel ++ (0 : BitVec 1)) 0 m.disp
  | .tdef g t a i => packK 0x74 0 g t a 0 i
  | .tfree g t => packK 0x75 0 g t 0 0 0
  | .tstat g d (.tile t) => packK 0x76 0 g d t 0 0
  | .tstat g d (.ring q) => packK 0x76 1 g d (ofP q) 0 0
  | .tsetEmpty g t => packK 0x77 0 g t 0 0 0
  | .tsetReady g t => packK 0x77 2 g t 0 0 0
  | .rdef g q f size => packK 0x78 0 g (ofP q) 0 0 ((0 : BitVec 35) ++ size ++ f)
  | .qadvHead g q k => packK 0x79 0 g (ofP q) 0 0 k
  | .qadvTail g q k => packK 0x79 1 g (ofP q) 0 0 k
  | .cp g dir sc t m => packM 0x7A 0 g t m.base m.idx dir.code sc.code 0 0 m.disp
  | .cpx g dir sc t m => packM 0x7B 0 g t m.base m.idx dir.code sc.code 0 0 m.disp
  | .atom g op sz sc ord c d m =>
    packM 0x7C op.code g d m.base m.idx sz.code sc.code ((0 : BitVec 2) ++ ord) ((0 : BitVec 3) ++ bit1 c) m.disp
  | .red g op sz sc rel c v m =>
    packM 0x7D op.code g v m.base m.idx sz.code sc.code ((0 : BitVec 2) ++ bit1 rel ++ (0 : BitVec 1)) ((0 : BitVec 3) ++ bit1 c)
      m.disp
  | .fence g sc mask => packM 0x7E 0 g 0 0 0 0 sc.code 0 0 ((0 : BitVec 43) ++ mask)
  | .pref g sz sc m => packM 0x7F 0 g 0 m.base m.idx sz sc.code 0 0 m.disp
  | .iflush g l b disp => packM 0x80 0 g l b 0 0 0 0 0 disp
  | .tlbprobe g sz d m => packM 0x81 0 g d m.base m.idx sz 0 0 0 m.disp
  | .rtab g a l => packK 0x90 0 g 0 a ((0 : BitVec 15) ++ l) 0
  | .nalloc g d a n => packG 0x91 0 g d a 0 0 ((0 : BitVec 5) ++ n)
  | .nfree g a n => packG 0x92 0 g 0 a 0 0 ((0 : BitVec 5) ++ n)
  | .nget g d a i => packG 0x93 0 g d a 0 0 ((0 : BitVec 6) ++ i)
  | .nset g a i b => packG 0x94 0 g 0 a b 0 ((0 : BitVec 6) ++ i)
  | .nlink g a b => packG 0x95 0 g 0 a b 0 0
  | .nlinkJoin g a b => packG 0x95 0 g 0 a b 0 1
  | .npush g a b => packG 0x96 0 g 0 a b 0 0
  | .nnext g => packK 0x97 0 g 0 0 0 0
  | .nshed g d a dir => packK 0x98 0 g d a ((0 : BitVec 18) ++ dir.code) 0
  | .npool g keep n a slots => packK 0x99 0 g 0 a ((0 : BitVec 16) ++ bit1 keep ++ n) slots
  | .nstat g .bag d => packK 0x9A 0 g d 0 0 0
  | .nstat g (.pool n) d => packK 0x9A 1 g d 0 ((0 : BitVec 17) ++ n) 0
  | .nstat g .spill d => packK 0x9A 2 g d 0 0 0
  | .nstat g .shed d => packK 0x9A 3 g d 0 0 0
  | .evnew g k sc sole e n p x => packG 0xA0 k.code g (ofE e) n p x ((0 : BitVec 4) ++ bit1 sole ++ sc.code)
  | .evdel g e => packG 0xA1 0 g 0 (ofE e) 0 0 0
  | .evput g e (.both c d) => packG 0xA2 0 g 0 (ofE e) c d 0
  | .evput g e (.nocont d) => packG 0xA2 0 g 0 (ofE e) 0 d 4
  | .evput g e (.nodest c) => packG 0xA2 0 g 0 (ofE e) c 0 8
  | .evput g e .cp => packG 0xA2 0 g 0 (ofE e) 0 0 1
  | .evput g e .clear => packG 0xA2 0 g 0 (ofE e) 0 0 2
  | .evbind g e b l => packG 0xA3 0 g 0 (ofE e) b l 0
  | .evunbind g e b => packG 0xA4 0 g 0 (ofE e) b 0 0
  | .offer g a b c d t r => packE 0xA5 0 g (eslotEnc a) (eslotEnc b) (eslotEnc c) (eslotEnc d) t r
  | .evres g e h r => packG 0xA6 0 g (ofE e) h r 0 0
  | .evresGet g d e => packG 0xA6 0 g d (ofE e) 0 0 1
  | .evcancel g e => packG 0xA7 0 g 0 (ofE e) 0 0 0
  | .evstat g cfg d e => packG 0xA8 0 g d (ofE e) 0 0 ((0 : BitVec 7) ++ bit1 cfg)
  | .evtimer g abs per e n t => packG 0xA9 0 g (ofE e) n t 0 ((0 : BitVec 6) ++ bit1 per ++ bit1 abs)
  | .amsend g a h v tag => packG 0xB0 0 g 0 a h v tag
  | .ambind g ring a slot => packK 0xB1 0 g 0 a ((0 : BitVec 19) ++ bit1 ring) ((0 : BitVec 37) ++ slot)
  | .amnext g => packK 0xB2 0 g 0 0 0 0
  | .append g d r n1 rel b disp =>
    packM 0xB3 0 g d b r n1 0 ((0 : BitVec 2) ++ bit1 rel ++ (0 : BitVec 1)) 0 disp
  | .csend g k1 o => encV 0xB4 0 k1 g o
  | .putt g rel t b peer => packM 0xB5 0 g t b 0 ((0 : BitVec 2) ++ bit1 rel) 0 0 0 ((0 : BitVec 42) ++ peer)
  | .gett g rel t b peer => packM 0xB6 0 g t b 0 ((0 : BitVec 2) ++ bit1 rel) 0 0 0 ((0 : BitVec 42) ++ peer)
  | .crsload g c a n => packK 0xB7 0 g 0 a ((0 : BitVec 19) ++ bit1 c) n
  | .crsgo g c a => packK 0xB8 0 g 0 a ((0 : BitVec 19) ++ bit1 c) 0
  | .crsstat g c d => packK 0xB9 0 g d 0 ((0 : BitVec 19) ++ bit1 c) 0
  | .trap g u code => packK 0xC0 0 g 0 0 ((0 : BitVec 19) ++ bit1 u) ((0 : BitVec 32) ++ code)
  | .syscall g d a num e => packK 0xC0 1 g d a ((0 : BitVec 16) ++ e) ((0 : BitVec 32) ++ num)
  | .eret g slot res refl => packK 0xC1 0 g 0 0 ((0 : BitVec 15) ++ bit1 refl ++ bit1 res ++ slot) 0
  | .upret g => packK 0xC1 1 g 0 0 0 0
  | .csrr g d ctl => packS 0xC2 0 g d 0 ctl 0 0
  | .csrw g d ctl v => encCsr 1 g d ctl v
  | .csrs g d ctl v => encCsr 2 g d ctl v
  | .csrc g d ctl v => encCsr 3 g d ctl v
  | .tlbi g mode wide a b =>
    packG 0xC3 0 g 0 a b 0 ((0 : BitVec 5) ++ bit1 wide ++ (match mode with | .page => (0 : BitVec 2) | .ctx => 1 | .all => 2))
  | .replay g d => packG 0xC4 0 g d 0 0 0 0
  | .migrate g big d v n c => packG 0xC5 0 g d v n c ((0 : BitVec 7) ++ bit1 big)
  | .wakerel g d l => packG 0xC6 0 g d l 0 0 0
  | .smove g d a slot image => packG 0xC7 0 g d a 0 0 ((0 : BitVec 4) ++ bit1 image ++ slot)
  | .smoveHold g d slot => packG 0xC7 0 g d 0 0 0 ((0b00010 : BitVec 5) ++ slot)
  | .smoveRelease g d slot => packG 0xC7 0 g d 0 0 0 ((0b00100 : BitVec 5) ++ slot)
  | .sstart g d a place what => packK 0xC8 0 g d a (encStart (encPlace place).1 what) (encPlace place).2
  | .sexit g none => packK 0xC9 0 g 0 0 0 0
  | .sexit g (some slot) => packK 0xC9 0 g 0 0 ((0b00000000000000001 : BitVec 17) ++ slot) 0
  | .halt g => packK 0xCA 0 g 0 0 0 0
  | .keyset g d s m => packG 0xCB 0 g d s m 0 0
  | .keyerase g d s => packG 0xCB 1 g d s 0 0 0
  | .wdog g d r h => packK 0xCC 0 g d 0 ((0 : BitVec 8) ++ r) ((0 : BitVec 36) ++ h)
  | .hostirq g hart file id =>
    packK 0xCD 0 g 0 0 ((0 : BitVec 13) ++ file ++ (0 : BitVec 1) ++ hart) ((0 : BitVec 37) ++ id)
  | .evkill g d c sc => packG 0xCE 0 g d c 0 0 ((0 : BitVec 5) ++ sc.code)
  | _ => 0

/-- The instruction that the decoder reads from a 96-bit word, all of it given: none where it refuses. -/
def decodeTableWord (nbits w : Nat) : Option Instr :=
  if nbits ≤ 96 ∧ w < 2 ^ 96 then
    match decode (BitVec.ofNat 96 w) with
    | .ok i => some i
    | .error _ => none
  else none

end Sys2Proof
end

