-- ==== Sys2Proof/Machine/Fetch.lean ====
section
/-! DEFINITION. Fetching and checking an instruction (R26 to R35, R69), the watchdog (R105, R345), and which agent moves next: a strand, an
engine, a packet or another hardware step, one at a time and in any order that the rules leave open (log 1). -/

namespace Sys2Proof.Machine

/-! ## Fetch lines (R26 to R28) -/

/-- The instruction word in a slot of a line. -/
def lineSlot (bs : List Byte) (slot : Nat) : IWord := BitVec.ofNat 96 (leNat ((bs.drop (12 * slot)).take 12))
/-- The line word. -/
def lineWord (bs : List Byte) : Nat := leNat ((bs.drop 60).take 4)
/-- The line word's reserved field is zero. -/
def lineOk (bs : List Byte) : Bool := bitsN (lineWord bs) 14 0 == 0
/-- The TARGET bit of a slot. -/
def lineTarget (bs : List Byte) (slot : Nat) : Bool := bitsN (lineWord bs) (19 + slot) (19 + slot) == 1

/-- The line of a PC in an instruction cache. -/
def Core.cachedLine (k : Core) (ctx : Nat) (pc : Word) : Option (List Byte) :=
  (k.icache.find? fun l => l.ctx == ctx && l.line == pc.toNat / 64).map ILine.bytes

/-! ## Issue checks (R69, R105) -/

/-- The guard of a yield point (R104): none for any other instruction. -/
def yieldGuard : Instr → Option Guard
  | .yield g _ _ | .offer g _ _ _ _ _ _ | .nnext g | .amnext g => some g
  | _ => none

/-- A strand's budget is spent and its next word is no yield point whose guard is true. -/
def Strand.overrun (t : Strand) (slot : Nat) (w : Decoded) : Bool :=
  slot != 0 && t.left == 0 &&
    match w with
    | .ok i => match yieldGuard i with | some g => !t.guard g | none => true
    | .error _ => true

/-- The watchdog fault (R105, R345): the strand is ended and its record is cause 14. -/
def State.watchdog (s : State) (t : StrandId) : State :=
  let pc := (s.strand t).pc
  let r : Report := { slot := t.slot, cause := 14, fpc := pc, rpc := pc, strand := t.gid, ctx := s.ctxOf t }
  (s.finishEnd t).report t.core r

/-- What the agent that moves comes to: an instruction or hardware step to execute, or a state reached without one. -/
inductive Pick where
  | run (i : Instr) (s : State)
  | done (s : State)
deriving DecidableEq, Repr

/-- A word whose line and transfer checks have passed. -/
def State.issueWord (s : State) (t : StrandId) (w : Decoded) : Pick :=
  if (s.strand t).overrun t.slot w then .done (s.watchdog t)
  else match w with
    | .ok i => .run i s
    | .error e => .run (.illegalInstruction e.detail e.arg) s

/-- The fault of checks 1, 3 and 4, precise at the PC, to the micro-kernel (R69, R320). DEDUCED: no instruction has issued, so it does not count
toward BUDGET (R104, log 39). -/
def State.fetchFault (s : State) (t : StrandId) (detail : Nat) : Pick := .done (s.raise t (faultAt (s.strand t).pc detail) false)

/-- A strand's next instruction: checks 1, 3 and 4 of R69 in order; the line is fetched first where the cache lacks it. -/
def State.fetch (s : State) (t : StrandId) : Pick :=
  let x := s.strand t
  if !pcFormOk x.pc then s.fetchFault t 0x12
  else match (s.core t.core).cachedLine (s.ctxOf t) x.pc with
    | none => .run (.instructionLineFill t x.pc) s
    | some bs =>
      let slot := x.pc.toNat % 8
      if !lineOk bs then s.fetchFault t 0x10
      else if x.checkT && !lineTarget bs slot then s.fetchFault t 0x11
      else s.issueWord t (decode (lineSlot bs slot))

/-- An upcall left for the strand's next instruction, delivered with RPC at that instruction (R189, R238, R309). -/
def State.lateUpcall (s : State) (t : StrandId) (r : Report) (rest : List Report) : State :=
  let pc := (s.strand t).pc
  (s.modStrand t fun x => { x with upcalls := rest }).raise t { r with rpc := pc } (upcallCause r.cause)

/-- The turn of a strand: an upcall or trap that has begun is taken, its issued instruction goes on, an upcall that waits is taken, or the next
instruction is fetched. -/
def State.turnOf (s : State) (t : StrandId) : Pick :=
  let s := { s with cur := t }
  let x := s.strand t
  match x.taking, x.issued with
  | some r, _ => .done (s.takeOn t r)
  | none, some i => .run i s
  | none, none => match x.upcalls with
    | r :: rest => .done (s.lateUpcall t r rest)
    | [] => s.fetch t

/-! ## Who moves -/

/-- A core issues: not stopped and not retired (R346, R350, R352). -/
def Core.issues (k : Core) : Bool := !k.dead && !k.halted && !k.retired

/-- A strand may move: ready, on a core that issues, and of a context that is not fenced (R21, R323, R349). -/
def State.enabled (s : State) (c : CoreId) (slot : Nat) (t : Strand) : Bool :=
  t.mode == .ready && (slot == 0 || !(s.pkg c.pkg).fenced.contains (s.core c).ctx)

/-- The strand of a core that moves next: the first that may, after the one that moved last; none in a package that an alarm of level 3 holds
(R349). -/
def State.nextStrand (s : State) (c : CoreId) : Option Nat :=
  let k := s.core c
  if !k.issues || (s.pkg c.pkg).held3 then none
  else ((List.range 8).map fun i => (k.rr + 1 + i) % 8).find? fun i => s.enabled c i (k.strand i)

/-- Something that may happen next. -/
inductive Move where
  | strand (t : StrandId)
  | entry (i : Nat)
  | step (i : Instr)
  | evict (crew line : Nat)
  | flush (crew i : Nat)
  | batten (c : CoreId)
  | dropLine (c : CoreId) (i : Nat)
  | dropTlb (c : CoreId) (fetch : Bool) (i : Nat)
  | dropL2 (crew : Nat) (owner : Bool) (i : Nat)
deriving DecidableEq, Repr

/-- The steps that a core's engines may take. -/
def Core.engineSteps (k : Core) (c : CoreId) : List Instr :=
  if k.dead then []
  else
    (if k.vbuf.isEmpty then [] else [.vectorInstructionStart c]) ++ (if k.seq = .idle then [] else [.replayStart c])
      ++ (if k.vcur.isSome then [.vectorCompletion c] else []) ++ (if k.mq.isEmpty then [] else [.matrixCommandStart c])
      ++ (if k.mcur.isSome then [.matrixCommandCompletion c] else []) ++ (if k.remote.isEmpty then [] else [.remoteCommandEntry c])
      ++ (if k.copies.any fun x => !x.started then [.copyCommandStart c] else [])
      ++ ((k.copies.filter CopyCmd.started).map fun x => .copyCommandCompletion c x.place)
      ++ (k.courses.filterMap fun p => p.2.nextOp.map fun op => .courseOpStart c p.1 op)

/-- The moves of a listed core: a strand, the engines, a batten write that waits (R351), and a line or translation that leaves a cache. -/
def State.coreMoves (s : State) (c : CoreId) : List Move :=
  let k := s.core c
  (match s.nextStrand c with | some i => [.strand ⟨c, i⟩] | none => []) ++ (k.engineSteps c).map .step
    ++ (if k.battenIn.isEmpty then [] else [.batten c])
    ++ (List.range k.icache.length).map (.dropLine c) ++ (List.range k.itlb.length).map (.dropTlb c true)
    ++ (List.range k.dtlb.length).map (.dropTlb c false)

/-- The moves of a listed crew: a line is written back and leaves, an entry is flushed, a translation leaves (R187, R199, R204). -/
def crewMoves (p : Nat × Crew) : List Move :=
  p.2.lines.map (fun l => .evict p.1 l.1) ++ (List.range p.2.comb.length).map (.flush p.1)
    ++ (List.range p.2.tlb.length).map (.dropL2 p.1 false) ++ (List.range p.2.owner.length).map (.dropL2 p.1 true)

/-- The moves of a listed package: ports that train (R287). -/
def State.pkgMoves (s : State) (p : Nat × Pkg) : List Move :=
  if p.2.phase < 5 ∨ p.2.held3 then []
  else p.2.ports.filterMap fun q =>
    match q.2.st with
    | .down | .train => some (.step (.linkTraining p.1 q.1 (Config.freeChoice s.freeN % 5)))
    | .summary => some (.step (.trainingSummary p.1 q.1 (Config.freeOutcome s.freeN)))
    | _ => none

/-- An entry of the agenda may happen: it is the first of its channel, and its tick has come. -/
def State.due (s : State) (i : Nat) (p : Pending) : Bool :=
  (p.chan == 0 || !((s.agenda.take i).any fun q => q.chan == p.chan))
    && match p.due with
      | some (k, tick) => decide (tick ≤ s.time k)
      | none => true

/-- Everything that may happen next. -/
def State.moves (s : State) : List Move :=
  (s.agenda.zipIdx.filterMap fun p => if s.due p.2 p.1 then some (.entry p.2) else none)
    ++ s.cores.flatMap (fun k => s.coreMoves (coreOfKey k.1)) ++ s.crews.flatMap crewMoves ++ s.pkgs.flatMap s.pkgMoves

/-- A counter after a free advance; one that is ahead of its root holds back a tick (R381). -/
def State.advanced (s : State) (p : Nat × Pkg) : Nat × Pkg :=
  let n := (Config.freeTicks s.freeN p.1).toNat
  let back := min p.2.slewBack (if n = 0 then 0 else 1)
  (p.1, { p.2 with time := p.2.time + BitVec.ofNat 64 (n - back), slewBack := p.2.slewBack - back })

/-- The least of the aligned counters. -/
def leastTime (l : List (Nat × Pkg)) : Nat := ((l.filter fun p => p.2.aligned).map fun p => p.2.time.toNat).foldl min (2 ^ 64)

/-- Reference time and cycle counts go on by free amounts; no aligned counter goes on to more than 20 ticks, 20 ns, past another (R24, log 2). -/
def State.tick (s : State) : State :=
  let ps := s.pkgs.map s.advanced
  let top := leastTime ps + 20
  { s with
    pkgs := ps.map fun p =>
      if p.2.aligned ∧ top < p.2.time.toNat then (p.1, { p.2 with time := BitVec.ofNat 64 (max top (s.time p.1)) }) else p,
    cores := s.cores.map fun k => (k.1, { k.2 with cycle := k.2.cycle + (Config.freeCycles s.freeN k.1).setWidth 64 }) }

/-- An entry of the agenda: a packet under way moves by its router or link, another entry leaves the agenda and happens, but for a malformed packet,
which is dropped (R289). -/
def State.takeEntry (s : State) (i : Nat) : Pick :=
  match s.agenda[i]? with
  | none => .done s
  | some p => match p.route with
    | .here =>
      let s : State := { s with agenda := s.agenda.eraseIdx i }
      match oddCause p.odd, s.pktAt p.step with
      | some cause, some c => .done (s.dropOdd c p.step cause)
      | _, _ => .run p.step s
    | .router k x y _ _ => .run (.flitRoute k x y) s
    | .link k n _ _ => .run (.swenerFlitReceive k n (Config.freeOutcome s.freeN) (Config.freeOutcome (s.freeN + 1))) s

/-- A move carried out. -/
def State.make (s : State) : Move → Pick
  | .strand t => (s.modCore t.core fun k => { k with rr := t.slot }).turnOf t
  | .entry i => s.takeEntry i
  | .step i => .run i s
  | .evict crew ln => .done (s.evictLine crew ln)
  | .flush crew i => match (s.crew crew).comb[i]? with | some e => .done (s.flushComb crew e) | none => .done s
  | .batten c => .done (s.battenOn c)
  | .dropLine c i => .done (s.modCore c fun k => { k with icache := k.icache.eraseIdx i })
  | .dropTlb c fetch i =>
    .done (s.modCore c fun k => if fetch then { k with itlb := k.itlb.eraseIdx i } else { k with dtlb := k.dtlb.eraseIdx i })
  | .dropL2 crew owner i =>
    .done (s.modCrew crew fun w => if owner then { w with owner := w.owner.eraseIdx i } else { w with tlb := w.tlb.eraseIdx i })

/-- The entry of the agenda that happens before anything else: a strand that waits on an empty bag takes the pair placed there (R392), and a sole
event commits at once (R270). -/
def State.urgent (s : State) : Option Nat :=
  s.agenda.findIdx? fun p => match p.step with
    | .bagPop _ => true
    | .eventCommit home ev => (s.evRec home ev).any EvRec.sole
    | _ => false

/-- The agent that moves: the strand that an outside hand has chosen, without the passing of time, an entry that is urgent, or after time has
passed a free choice among all that may move. -/
def State.pick (s : State) : Pick :=
  match s.turn with
  | some t => { s with turn := none }.turnOf t
  | none => match s.urgent with
  | some i => s.takeEntry i
  | none =>
    let s := s.keelDumps.tick
    let ms := s.moves
    let n := Config.freeChoice s.freeN
    let s := { s with freeN := s.freeN + 2 }
    match ms with
    | [] => .done s
    | m :: l => s.make ((m :: l).getD (n % (l.length + 1)) m)

/-! ## Placing an instruction where the next step fetches it -/

/-- A line with one word in a slot, every slot a target, parity even (R26 to R29). -/
def lineWith (slot : Nat) (w : Nat) : List Byte :=
  let bs := List.replicate (12 * slot) 0 ++ leBytes 12 w ++ List.replicate (48 - 12 * slot) 0 ++ [(0 : Byte), 0, 0xF8]
  bs ++ [bs.foldl (fun a b => a ^^^ b) 0]

/-- The strand that a placed instruction is for: the one chosen already, or slot 0 of core 0. -/
def State.placeOf (s : State) : StrandId := s.turn.getD ⟨⟨0, 0, 0⟩, 0⟩

/-- A word stored in the instruction cache where a strand's next fetch finds it; the strand is ready between instructions on a core that
issues, and its turn is next. -/
def State.placeWord (s : State) (t : StrandId) (w : Nat) : State :=
  let x := s.strand t
  let pc := if pcFormOk x.pc then x.pc else 0
  let line : ILine := ⟨s.ctxOf t, pc.toNat / 64, lineWith (pc.toNat % 8) w⟩
  let s := s.modCore t.core fun k =>
    { k with icache := line :: k.icache.filter (fun l => !(l.ctx == line.ctx && l.line == line.line)), halted := false, retired := false,
             mcheck := none }
  let s := s.modStrand t fun x =>
    { x with mode := .ready, pc := pc, issued := none, hold := .none, stalled := false, upcalls := [], taking := none,
             left := if t.slot != 0 && x.left == 0 then 1 else x.left }
  { s with turn := some t }

end Sys2Proof.Machine
end

