-- ==== Sys2Proof/Machine/Step.lean ====
section
/-! DEFINITION. One step of the machine. -/

namespace Sys2Proof.Machine

/-- One step: the agent that moves executes an instruction or a hardware step, or reaches its state without one. -/
def step (s : State) : Host.Outcome State Fault Refusal :=
  match s.pick with
  | .run i s => exec i s
  | .done s => .next s

/-- s with an instruction's word stored where step fetches its next instruction (log 29). -/
def State.withFetchWord (s : State) (nbits w : Nat) : State :=
  let _ := nbits
  s.placeWord s.placeOf w

end Sys2Proof.Machine
end

