-- ==== Sys2Proof/Safety.lean ====
section
/-! DEFINITION. What claims speak of: a step that goes on, an instruction that completes or branches, and how far its effect
reaches. -/

namespace Sys2Proof.Machine

/-! ## Steps and answers -/

/-- The step of a state answers a next state. -/
def State.Goes (s : State) : Prop := ∃ t, step s = .next t

/-- An instruction or hardware step executed in a state answers a next state that satisfies Q. -/
def Answers (i : Instr) (s : State) (Q : State → Prop) : Prop := ∃ t, exec i s = .next t ∧ Q t

/-! ## How far an effect reaches -/

/-- Every byte of memory reads as before, and what its lines are stored under is as before. -/
def SameMem (s t : State) : Prop := (∀ a, t.mem.read a = s.mem.read a) ∧ t.seals = s.seals

/-- Every byte of memory reads as before but those of n bytes from a key on, and what its lines are stored under is as before: for bytes
of package memory, s is the state as their key slot sees it (State.under). -/
def SameMemBut (a n : Nat) (s t : State) : Prop := (∀ b, b < a ∨ a + n ≤ b → t.mem.read b = s.mem.read b) ∧ t.seals = s.seals

/-- What a core holds beside its strand contexts. -/
def Core.rest (k : Core) : Core := { k with strands := [] }

/-- Nothing outside the cores and memory differs, and of the cores only one may. -/
structure OnlyCore (c : CoreId) (s t : State) : Prop where
  cores  : ∀ d, d.key ≠ c.key → t.core d = s.core d
  crews  : ∀ n, t.crew n = s.crew n
  pkgs   : ∀ n, t.pkg n = s.pkg n
  agenda : t.agenda = s.agenda
  turn   : t.turn = s.turn
  cur    : t.cur = s.cur
  freeN  : t.freeN = s.freeN

/-- Nothing differs but the context of one strand: no byte of memory, no other strand, nothing else of its core, no other core, crew,
package or pending step. -/
structure OnlyStrand (x : StrandId) (s t : State) : Prop extends OnlyCore x.core s t where
  mem    : SameMem s t
  rest   : (t.core x.core).rest = (s.core x.core).rest
  others : ∀ k, k ≠ x.slot → (t.core x.core).strand k = (s.core x.core).strand k

/-- Nothing differs but what one core holds, and of its strands only one. -/
structure OnlyCoreOf (x : StrandId) (s t : State) : Prop extends OnlyCore x.core s t where
  mem    : SameMem s t
  others : ∀ k, k ≠ x.slot → (t.core x.core).strand k = (s.core x.core).strand k

/-! ## Completion -/

/-- BUDGET[11:0] of the executing strand once its instruction has issued: one less for a user strand, not below 0; an instruction that has
issued already is not counted again (R104, R318). -/
def State.leftIssued (s : State) : BitVec 12 :=
  if s.cur.slot = 0 ∨ s.me.issued ≠ none then s.me.left else if s.me.left = 0 then 0 else s.me.left - 1

/-- A strand between instructions at a PC: nothing issued, held or stalled. -/
def Strand.goesOn (x : Strand) (pc : Word) (check : Bool) : Strand :=
  { x with pc := pc, checkT := check, issued := none, hold := .none, stalled := false, atYield := false, retry := none }

/-- The instruction completes and changes nothing but the executing strand, which becomes x, its BUDGET lowered, at the next slot (R32). -/
def Completes (i : Instr) (s : State) (x : Strand) : Prop :=
  Answers i s fun t => OnlyStrand s.cur s t ∧ t.me = { x with left := s.leftIssued }.goesOn (nextPc s.me.pc) false

/-- The instruction transfers control and changes nothing but the executing strand, which becomes x, its BUDGET lowered, at pc; the transfer
is one whose target is checked (R34). -/
def Jumps (i : Instr) (s : State) (x : Strand) (pc : Word) : Prop :=
  Answers i s fun t => OnlyStrand s.cur s t ∧ t.me = { x with left := s.leftIssued }.goesOn pc true

/-- The instruction completes: the executing core becomes k but for the executing strand, which becomes x, its BUDGET lowered, at the next
slot; memory and everything else stay. -/
def CompletesCore (i : Instr) (s : State) (k : Core) (x : Strand) : Prop :=
  Answers i s fun t => OnlyCoreOf s.cur s t ∧ t.myCore.rest = k.rest
    ∧ t.me = { x with left := s.leftIssued }.goesOn (nextPc s.me.pc) false

/-- A hardware step answers exactly the state t. -/
def Becomes (i : Instr) (s t : State) : Prop := exec i s = .next t

/-! ## Guards and modes (R40, R64, R69) -/

/-- The guard of an instruction; none for a hardware step. -/
def guardOf : Instr → Option Guard
  | .nop g | .add g _ _ _ | .sub g _ _ _ | .mul g _ _ _ | .mulh g _ _ _ _ | .div g _ _ _ _ | .rem g _ _ _ _ | .and g _ _ _
  | .or g _ _ _ | .xor g _ _ _ | .andn g _ _ _ | .shl g _ _ _ | .shr g _ _ _ | .sar g _ _ _ | .rot g _ _ _ | .clz g _ _
  | .popc g _ _ | .min g _ _ _ _ | .max g _ _ _ _ | .sel g _ _ _ _ | .cmp g _ _ _ _ | .cmpk g _ _ _ _ | .addk g _ _ _
  | .movk g _ _ | .movh g _ _ _ | .ext g _ _ _ _ _ | .ins g _ _ _ _ | .lea g _ _ _ | .coord g _ _ _ _ | .decoord g _ _ _
  | .pand g _ _ _ | .por g _ _ _ | .pxor g _ _ _ | .pnot g _ _ | .pmov g _ | .br g _ | .call g _ _ | .ret g _ | .jr g _
  | .loop g _ _ | .yield g _ _ | .fadd g _ _ _ _ _ | .fsub g _ _ _ _ _ | .fmul g _ _ _ _ _ | .ffma g _ _ _ _ _ _
  | .fcmp g _ _ _ _ _ | .fcvt g _ _ _ _ | .vseqOpen g | .vseqLoop g _ | .vseqStop g | .vadd g _ _ | .vsub g _ _ | .vmul g _ _
  | .vfma g _ _ | .vmax g _ _ | .vmin g _ _ | .vabs g _ _ | .vneg g _ _ | .vcvt g _ _ _ | .vred g _ _ _ | .vscan g _ _ _
  | .vclmul g _ _ | .vcmp g _ _ _ | .vsel g _ _ | .vpopc g _ _ | .vbcast g _ _ | .viota g _ _ | .vperm g _ _ | .vzip g _ _ _
  | .vunzip g _ _ _ | .vsfu g _ _ _ | .vcompact g _ _ | .vexpand g _ _ | .vdot g _ _ | .vamax g _ _ | .tzero g _ _
  | .tmma g _ _ _ _ _ | .tacc g _ | .tread g _ _ | .treadBlk g _ _ | .tquant g _ _ _ _ | .tdequant g _ _ _ _ | .tplane g _ _ _ _
  | .tunplane g _ _ _ _ | .tcbdec g _ _ _ | .thad g _ _ _ | .ttopk g _ _ _ | .tcap g _ _ _ _ _ | .tmx g _ _ _ | .ld g _ _ _ _
  | .st g _ _ _ | .lds g _ _ _ _ _ _ | .sts g _ _ _ _ _ | .tdef g _ _ _ | .tfree g _ | .tstat g _ _ | .tsetEmpty g _
  | .tsetReady g _ | .rdef g _ _ _ | .qadvHead g _ _ | .qadvTail g _ _ | .cp g _ _ _ _ | .cpx g _ _ _ _ | .atom g _ _ _ _ _ _ _
  | .red g _ _ _ _ _ _ _ | .fence g _ _ | .pref g _ _ _ | .iflush g _ _ _ | .tlbprobe g _ _ _ | .rtab g _ _ | .nalloc g _ _ _
  | .nfree g _ _ | .nget g _ _ _ | .nset g _ _ _ | .nlink g _ _ | .nlinkJoin g _ _ | .npush g _ _ | .nnext g | .nshed g _ _ _
  | .npool g _ _ _ _ | .nstat g _ _ | .evnew g _ _ _ _ _ _ _ | .evdel g _ | .evput g _ _ | .evbind g _ _ _ | .evunbind g _ _
  | .offer g _ _ _ _ _ _ | .evres g _ _ _ | .evresGet g _ _ | .evcancel g _ | .evstat g _ _ _ | .evtimer g _ _ _ _ _
  | .amsend g _ _ _ _ | .ambind g _ _ _ | .amnext g | .append g _ _ _ _ _ _ | .csend g _ _ | .putt g _ _ _ _ | .gett g _ _ _ _
  | .crsload g _ _ _ | .crsgo g _ _ | .crsstat g _ _ | .migrate g _ _ _ _ _ | .wakerel g _ _ | .trap g _ _ | .syscall g _ _ _ _
  | .eret g _ _ _ | .upret g | .csrr g _ _ | .csrw g _ _ _ | .csrs g _ _ _ | .csrc g _ _ _ | .tlbi g _ _ _ _ | .replay g _
  | .smove g _ _ _ _ | .smoveHold g _ _ | .smoveRelease g _ _ | .sstart g _ _ _ _ | .sexit g _ | .halt g | .keyset g _ _ _
  | .keyerase g _ _ | .wdog g _ _ _ | .hostirq g _ _ _ | .evkill g _ _ _ => some g
  | .vectorInstructionStart _ | .replayStart _ | .vectorCompletion _ | .matrixCommandStart _ | .matrixCommandCompletion _
  | .tmxArrival _ | .remoteCommandEntry _ | .copyCommandStart _ | .copyCommandCompletion _ _ | .instructionLineFill _ _
  | .bagPop _ | .pairPush _ | .pairShed _ | .offerResult _ | .offerArrival _ | .settleWindowEnd _ _ _ | .claim _
  | .claimReply _ _ | .yieldMessage _ _ _ | .release _ _ | .resolutionNotice _ _ _ | .eventCommit _ _ | .consistencyPhase2 _ _
  | .withdrawal _ _ _ _ _ | .offerRefusal _ _ _ | .reservationLapse _ _ _ | .offerDeadline _ _ | .completionNotice _ _
  | .occurrenceData _ _ | .reduceNode _ _ _ | .disseminationNotice _ _ _ _ | .timerExpiry _ _ | .amArrival _ | .amDispatch _
  | .funbound _ _ | .appendArrival _ | .csendArrival _ | .tileTransferArrival _ | .courseOpStart _ _ _
  | .courseOpCompletion _ _ _ | .courseStart _ | .ldPacket _ | .stPacket _ | .atomPacket _ | .reply _ | .retryResend _ _
  | .ftime _ _ | .redirect _ | .flitRoute _ _ _ | .swenerFlitReceive _ _ _ _ | .portFailover _ _ | .linkTraining _ _ _
  | .trainingSummary _ _ _ | .migrationLineCopy _ _ | .wakeReleaseRequest _ _ | .wakeReleaseQuery _ _ _ _
  | .wakeReleaseAnswer _ _ | .crewleadWrite _ _ | .placementDescent _ _ _ | .strandStartArrival _ | .trapDelivery _
  | .forwardingExpiry _ _ | .loadExchange _ | .syscallRequest _ | .rsptail _ _ _ | .syscallReplyArrival _ | .msg _ _
  | .bringUpPhase _ | .timeLoad _ _ _ | .bootConfigurationWrite _ _ _ | .frameMapWrite _ _ _ _ | .attestationRequest _ _
  | .timeBeaconSend _ | .timeBeacon _ _ _ | .strokeSend _ | .strokeWindow _ _ | .resetRequest _ _ _ | .governorInterval _
  | .illegalInstruction _ _ | .stop _ | .wake _ | .battenRead _ _ _ | .battenWrite _ _ _ _ | .reset _ | .retire _
  | .sramSoftError _ _ | .tamper _ | .coldReset _ | .lock _ | .measurementExtend _ _ _ | .pcieInboundRequest _ _ _ _
  | .portReset _ _ | .controlCoreAccess _ _ _ => none

/-- The instructions that only slot 0 may issue (R64), but for sexit, whose form with a slot is for slot 0 alone too. -/
def supervisorOnly : Instr → Bool
  | .migrate .. | .wakerel .. | .eret .. | .tlbi .. | .replay .. | .smove .. | .smoveHold .. | .smoveRelease .. | .sstart ..
  | .halt .. | .keyset .. | .keyerase .. | .wdog .. | .hostirq .. | .evkill .. => true
  | .sexit _ other => other.isSome
  | _ => false

/-- Checks 9 to 11 of R69 that look at the state pass whatever the guard: the mode, sexit's own form, the control register. -/
def State.admits (s : State) (i : Instr) : Bool :=
  match i with
  | .sexit _ none => !s.super
  | .sexit _ (some k) => s.super && k != 0
  | .csrr _ _ ctl => !s.ctlBad ctl.toNat false
  | .csrw _ _ ctl _ | .csrs _ _ ctl _ | .csrc _ _ ctl _ => !s.ctlBad ctl.toNat true
  | i => !supervisorOnly i || s.super

/-! ## Faults -/

/-- A user strand stopped at its instruction until its micro-kernel lets it go on (R323). -/
def Strand.stoppedAt (x : Strand) : Strand :=
  { x with mode := .trapped, issued := none, hold := .none, stalled := false, checkT := false, atYield := false, retry := none }

/-- A core whose strand of a slot faults: a capture of that strand closes (R133). -/
def Core.closed (k : Core) (slot : Nat) : Core := if k.seq = .capturing slot then { k with seq := .idle, run := [] } else k

/-- The instruction of a user strand faults and the fault goes to the micro-kernel (R323): the strand is TRAPPED at its instruction, BUDGET
lowered, and a report waits for slot 0; nothing else changes but a capture of the strand, which closes. -/
def Traps (i : Instr) (s : State) (r : Report) : Prop :=
  Answers i s fun t => SameMem s t ∧ t.me = { s.me with left := s.leftIssued }.stoppedAt
    ∧ t.myCore.rest = { s.myCore.closed s.cur.slot with
        reports := s.myCore.reports ++ [{ r with slot := s.cur.slot, strand := s.cur.gid, ctx := s.ctx }] }.rest
    ∧ t.agenda = (if s.agenda.any (fun p => p.step == .trapDelivery s.cur.core) then s.agenda
        else s.agenda ++ [{ step := .trapDelivery s.cur.core }])
    ∧ (∀ k, k ≠ s.cur.slot → t.myCore.strand k = s.myCore.strand k) ∧ (∀ d, d.key ≠ s.cur.core.key → t.core d = s.core d)
    ∧ (∀ n, t.crew n = s.crew n) ∧ (∀ n, t.pkg n = s.pkg n) ∧ t.cur = s.cur

/-! ## Words in a slice -/

/-- Core c reaches the slice of core x at once: its own, or another's where a way leads there on which ports work, the
package there has not fenced the context, the core is not machine-checked, and nothing of core c is outstanding. -/
def State.sees (s : State) (c x : CoreId) (ctx : Nat) : Bool :=
  x == c || (!s.severed c.pkg x.pkg && !s.blocked c.pkg x.pkg && !s.fencedAt x.pkg ctx && !(s.core x).dead && (s.core c).reqs.isEmpty)

/-- n words of 8 bytes from an address upward lie in the slice of core x from an offset, and core c may use and reaches them in a context: no
translation takes part in an access to them (R188). -/
def InSlice (s : State) (c : CoreId) (ctx : Nat) (super : Bool) (a : Word) (n : Nat) (x : CoreId) (off : Nat) : Prop :=
  s.sliceAllowed super ctx x = true ∧ off + 8 * n ≤ 131072
  ∧ s.sees c x ctx = true ∧ ∀ i, i < n →
    mformOk (a + BitVec.ofNat 64 (8 * i)) = true ∧ (a + BitVec.ofNat 64 (8 * i)).getLsbD 63 = true
      ∧ s.sliceOf c (a + BitVec.ofNat 64 (8 * i)) = some (x, off + 8 * i)

/-- Word i of the words of a slice from an offset. -/
def State.sliceWord (s : State) (x : CoreId) (off i : Nat) : Word := BitVec.ofNat 64 (s.sread x (off + 8 * i) 8)

/-- The words of a slice from an offset are those of a list. -/
def State.sliceHolds (s : State) (x : CoreId) (off : Nat) (ws : List Word) : Prop :=
  ∀ i, i < ws.length → s.sliceWord x off i = ws.getD i 0

/-! ## Exact values (R81, R89) -/

/-- m · 2^k rounded to the nearest integer, a tie to the even one. -/
def nearestEven (m : Nat) (k : Int) : Nat :=
  let z := 2 ^ (-k).toNat
  if 0 ≤ k then m * 2 ^ k.toNat else m / z + if z < 2 * (m % z) ∨ (2 * (m % z) = z ∧ m / z % 2 = 1) then 1 else 0

/-- m · 2^i exceeds n · 2^j. -/
def ScaledAbove (m : Nat) (i : Int) (n : Nat) (j : Int) : Prop := n * 2 ^ (j - min i j).toNat < m * 2 ^ (i - min i j).toNat

/-- The least and the greatest plane integer of a type (R75). -/
def planeLeast (p : Plane) : Int := if p.signed then -(2 ^ p.p1.toNat) else 0
/-- The greatest. -/
def planeGreatest (p : Plane) : Int := if p.signed then 2 ^ p.p1.toNat - 1 else 2 ^ (p.p1.toNat + 1) - 1

/-- R89: 32 exact values of a block, quantised to a plane type, give a scale code, 32 plane integers and STICKY bits (0 NX, 2 OF, 9 QUNDER,
10 QNONFIN). -/
def Quantised (p : Plane) (x : Nat → FV) (code : Nat) (q : Nat → Int) (fl : Nat) : Prop :=
  let qref : Nat := if p.signed = true ∧ p.p1 = 0 then 1 else (planeGreatest p).toNat
  ((∃ k, k < 32 ∧ ∀ n m e, x k ≠ .fin n m e) → code = 255 ∧ (∀ k, k < 32 → q k = 0) ∧ fl = 2 ^ 10)
  ∧ ((∀ k, k < 32 → ∃ n e, x k = .fin n 0 e) → code = 0 ∧ (∀ k, k < 32 → q k = 0) ∧ fl = 0)
  ∧ ∀ (neg : Nat → Bool) (m : Nat → Nat) (e : Nat → Int) (top : Nat) (c : Int), (∀ k, k < 32 → x k = .fin (neg k) (m k) (e k)) →
      top < 32 → m top ≠ 0 → (∀ k, k < 32 → ¬ ScaledAbove (m k) (e k) (m top) (e top)) →
      ¬ ScaledAbove (m top) (e top) qref c → ScaledAbove (m top) (e top) qref (c - 1) →
      let k0 : Int := if c + 127 < 0 then 0 else if 254 < c + 127 then 254 else c + 127
      let v (k : Nat) : Int := (if neg k = true then -1 else 1) * (nearestEven (m k) (e k - (k0 - 127)) : Int)
      let clamped (k : Nat) : Prop := q k ≠ v k
      (code : Int) = k0 ∧ (∀ k, k < 32 → q k = max (planeLeast p) (min (planeGreatest p) (v k)))
      ∧ (fl.testBit 9 = true ↔ c + 127 < 0) ∧ (fl.testBit 2 = true ↔ 254 < c + 127 ∧ ∃ k, k < 32 ∧ clamped k)
      ∧ (fl.testBit 0 = true ↔ ∃ k, k < 32 ∧ (clamped k ∨ (e k < k0 - 127 ∧ m k % 2 ^ (k0 - 127 - e k).toNat ≠ 0)))

/-! ## Messages -/

/-- A hardware step stands in the agenda: a message on its way, or a step that is to happen. -/
def Sent (i : Instr) (t : State) : Prop := ∃ p, p ∈ t.agenda ∧ p.step = i

/-- The reply to a packet (R290). -/
def replyTo (h : Hdr) (st : ReplyStatus) (cause inner : Nat) (data : List Word) : Instr :=
  .reply { src := h.target, dst := h.src, rtag := h.rtag, status := st, cause := cause, inner := inner, data := data }

/-- The instruction issues, sends a request under the core's next tag and holds its strand for the answer (R21, R283); its PC stays, and the next
tag is one that no request has. -/
def Asks (i : Instr) (s : State) (mk : Nat → Instr) : Prop :=
  Answers i s fun t => t.me.hold = .wait s.myCore.nextTag ∧ t.me.mode = .waiting ∧ t.me.issued = some i ∧ t.me.pc = s.me.pc
    ∧ t.me.left = s.leftIssued ∧ t.me.g = s.me.g ∧ t.me.p = s.me.p ∧ t.myCore.nextTag = tagAfter t.myCore.reqs s.myCore.nextTag
    ∧ t.myCore.reqs.has s.myCore.nextTag = true ∧ Sent (mk s.myCore.nextTag) t

/-- The instruction has not issued: its operand condition is unmet or its queue is full, and nothing changes but the mark that its strand
is stalled (R21). -/
def Stalls (i : Instr) (s : State) : Prop := Answers i s fun t => OnlyStrand s.cur s t ∧ t.me = { s.me with stalled := true }

/-- An event record but for where it is held and when it was last used (R250). -/
def EvRec.plain (r : EvRec) : EvRec := { r with used := 0, inArea := none, areaAt := none }

/-! ## Stores and package memory -/

/-- Nothing differs but n bytes of memory from a key on and the context of one strand. -/
structure StoresAt (x : StrandId) (a n : Nat) (s t : State) : Prop extends OnlyCore x.core s t where
  mem    : SameMemBut a n s t
  rest   : (t.core x.core).rest = (s.core x.core).rest
  others : ∀ k, k ≠ x.slot → (t.core x.core).strand k = (s.core x.core).strand k

/-- Nothing differs but the bytes of some runs of memory, each a key and a length, and the context of one strand. -/
structure StoresTo (x : StrandId) (l : List (Nat × Nat)) (s t : State) : Prop extends OnlyCore x.core s t where
  mem    : ∀ b, (∀ p, p ∈ l → b < p.1 ∨ p.1 + p.2 ≤ b) → t.mem.read b = s.mem.read b
  seals  : t.seals = s.seals
  rest   : (t.core x.core).rest = (s.core x.core).rest
  others : ∀ k, k ≠ x.slot → (t.core x.core).strand k = (s.core x.core).strand k

/-- The executing strand at the next slot, its BUDGET lowered, with x in place of its context. -/
def State.after (s : State) (x : Strand) : Strand := { x with left := s.leftIssued }.goesOn (nextPc s.me.pc) false

/-- An address of package memory whose home is the executing core's own package: its data TLB translates it, the leaf gives the rights that an
access needs, the package has not fenced the context, and neither a combining entry of the crew, a migration of the package, a copy of the line under
another locator, a write-back that waits nor a request in flight to the line takes part. -/
structure Reaches (s : State) (need : Need) (a : Word) (x : Xlat) : Prop where
  form : mformOk a = true
  virt : a.getLsbD 63 = false
  hit  : ∃ e, tlbFind s.myCore.dtlb s.ctx a.toNat (s.time s.cur.core.pkg) = some e ∧ x = xlatOf e a.toNat
  ok   : s.checkLoc s.super need x = none
  home : x.pkg = s.cur.core.pkg
  open_ : s.fencedFor x.pkg x.pkg s.ctx = false
  comb : (s.crew s.cur.core.crewNo).comb = []
  calm : (s.pkg x.pkg).wakes = []
  lone : s.aliases s.cur.core.crewNo x = []
  flow : s.stuckAt s.cur.core.crewNo x = false
  free : s.waitsFor s.cur.core (.mem x) s.ctx a.toNat = false
  kept : s.keepers s.cur.core.crewNo (fun r => s.lineHome (lineNo (r.data.getD 1 0) (r.data.getD 2 0)) == s.lineHome (lineNo x.pkg x.pa)) = []

/-- An address in the executing core's own slice at an offset, which the strand may use. -/
structure OwnSlice (s : State) (a : Word) (off : Nat) : Prop where
  form  : mformOk a = true
  slice : a.getLsbD 63 = true
  names : s.sliceOf s.cur.core a = some (s.cur.core, off)
  may   : s.sliceAllowed s.super s.ctx s.cur.core = true

end Sys2Proof.Machine
end

