-- ==== Sys2Proof/Certificates/Slice0/Obligations.lean ====
section
/-! DEFINITION. The statements for the provers: what the rules of spec/ say the instructions and hardware steps of this machine do. -/

open Sys2Proof Sys2Proof.Machine

/-- R108: each of add, sub, mul, mulh, mulh.n, mulh.sn, and, or, xor, andn, shl, shr, sar, rot, min, min.n, max, max.n, its guard true, completes with the table's value in g[gd] (a write of g0 discarded), shift amounts taken from b[5:0]; no STICKY bit, other register, byte of memory or other state changes but PC and BUDGET; the word of the table's OP and VAR decodes to it. -/
def Obligations.IntegerArithmetic : Prop :=
  ∀ (g : Guard) (d a b : Reg) (s : State), s.me.guard g = true →
    let x := s.rg a
    let y := s.rg b
    let n := (y.extractLsb' 0 6).toNat
    (Completes (.add g d a b) s (s.me.wg d (BitVec.ofNat 64 (x.toNat + y.toNat)))
      ∧ Completes (.sub g d a b) s (s.me.wg d (BitVec.ofInt 64 ((x.toNat : Int) - y.toNat)))
      ∧ Completes (.mul g d a b) s (s.me.wg d (BitVec.ofNat 64 (x.toNat * y.toNat)))
      ∧ Completes (.mulh g .s d a b) s (s.me.wg d (BitVec.ofInt 64 (x.toInt * y.toInt / 2 ^ 64)))
      ∧ Completes (.mulh g .n d a b) s (s.me.wg d (BitVec.ofNat 64 (x.toNat * y.toNat / 2 ^ 64)))
      ∧ Completes (.mulh g .sn d a b) s (s.me.wg d (BitVec.ofInt 64 (x.toInt * y.toNat / 2 ^ 64))))
    ∧ (Completes (.and g d a b) s (s.me.wg d (x &&& y))
      ∧ Completes (.or g d a b) s (s.me.wg d (x ||| y))
      ∧ Completes (.xor g d a b) s (s.me.wg d (x ^^^ y))
      ∧ Completes (.andn g d a b) s (s.me.wg d (x &&& ~~~y))
      ∧ Completes (.shl g d a b) s (s.me.wg d (BitVec.ofNat 64 (x.toNat * 2 ^ n)))
      ∧ Completes (.shr g d a b) s (s.me.wg d (BitVec.ofNat 64 (x.toNat / 2 ^ n)))
      ∧ Completes (.sar g d a b) s (s.me.wg d (BitVec.ofInt 64 (x.toInt / 2 ^ n)))
      ∧ Completes (.rot g d a b) s (s.me.wg d (BitVec.ofNat 64 (x.toNat * 2 ^ n + x.toNat / 2 ^ (64 - n)))))
    ∧ (Completes (.min g false d a b) s (s.me.wg d (if x.toInt ≤ y.toInt then x else y))
      ∧ Completes (.min g true d a b) s (s.me.wg d (if x.toNat ≤ y.toNat then x else y))
      ∧ Completes (.max g false d a b) s (s.me.wg d (if x.toInt ≥ y.toInt then x else y))
      ∧ Completes (.max g true d a b) s (s.me.wg d (if x.toNat ≥ y.toNat then x else y)))
    ∧ (decode (packG 0x02 0 g d a b 0 0) = .ok (.add g d a b) ∧ decode (packG 0x03 0 g d a b 0 0) = .ok (.sub g d a b)
      ∧ decode (packG 0x04 0 g d a b 0 0) = .ok (.mul g d a b) ∧ decode (packG 0x05 0 g d a b 0 0) = .ok (.mulh g .s d a b)
      ∧ decode (packG 0x05 1 g d a b 0 0) = .ok (.mulh g .n d a b) ∧ decode (packG 0x05 2 g d a b 0 0) = .ok (.mulh g .sn d a b)
      ∧ decode (packG 0x08 0 g d a b 0 0) = .ok (.and g d a b) ∧ decode (packG 0x09 0 g d a b 0 0) = .ok (.or g d a b)
      ∧ decode (packG 0x0A 0 g d a b 0 0) = .ok (.xor g d a b) ∧ decode (packG 0x0B 0 g d a b 0 0) = .ok (.andn g d a b)
      ∧ decode (packG 0x0C 0 g d a b 0 0) = .ok (.shl g d a b) ∧ decode (packG 0x0D 0 g d a b 0 0) = .ok (.shr g d a b)
      ∧ decode (packG 0x0E 0 g d a b 0 0) = .ok (.sar g d a b) ∧ decode (packG 0x0F 0 g d a b 0 0) = .ok (.rot g d a b)
      ∧ decode (packG 0x12 0 g d a b 0 0) = .ok (.min g false d a b) ∧ decode (packG 0x12 1 g d a b 0 0) = .ok (.min g true d a b)
      ∧ decode (packG 0x13 0 g d a b 0 0) = .ok (.max g false d a b) ∧ decode (packG 0x13 1 g d a b 0 0) = .ok (.max g true d a b))

/-- R109: div and rem, signed and .n, their guard true, complete with the quotient rounded toward zero and the remainder of the dividend's sign, modulo 2^64; a divisor of zero gives all ones and the dividend, and the most negative number by -1 gives itself and 0; no fault, no STICKY bit, nothing else changed; the words of OPs 0x06 and 0x07 decode to them. -/
def Obligations.Division : Prop :=
  ∀ (g : Guard) (unsigned : Bool) (d a b : Reg) (s : State), s.me.guard g = true →
    let x : Int := if unsigned then (s.rg a).toNat else (s.rg a).toInt
    let y : Int := if unsigned then (s.rg b).toNat else (s.rg b).toInt
    let q : Int := if y = 0 then 2 ^ 64 - 1 else if unsigned = false ∧ x = -2 ^ 63 ∧ y = -1 then -2 ^ 63 else x.tdiv y
    let r : Int := if y = 0 then x else if unsigned = false ∧ x = -2 ^ 63 ∧ y = -1 then 0 else x.tmod y
    Completes (.div g unsigned d a b) s (s.me.wg d (BitVec.ofInt 64 q))
      ∧ Completes (.rem g unsigned d a b) s (s.me.wg d (BitVec.ofInt 64 r))
      ∧ decode (packG 0x06 (if unsigned then 1 else 0) g d a b 0 0) = .ok (.div g unsigned d a b)
      ∧ decode (packG 0x07 (if unsigned then 1 else 0) g d a b 0 0) = .ok (.rem g unsigned d a b)

/-- R110, R111: clz completes with the number of leading zero bits of a, 64 for 0; popc with the number of one bits; sel with a where p[gc] is 1 and b otherwise; nothing else changes; clz and popc require gb = 0, and a gc of sel outside p0 to p7 is an operand fault of bit 56. -/
def Obligations.CountsAndSelection : Prop :=
  ∀ (g : Guard) (d a b : Reg) (p : PReg) (s : State), s.me.guard g = true →
    (∃ n, n ≤ 64 ∧ (∀ k, k < n → (s.rg a).getLsbD (63 - k) = false) ∧ (n < 64 → (s.rg a).getLsbD (63 - n) = true)
      ∧ Completes (.clz g d a) s (s.me.wg d (BitVec.ofNat 64 n)))
    ∧ Completes (.popc g d a) s (s.me.wg d (BitVec.ofNat 64 ((List.range 64).countP fun k => (s.rg a).getLsbD k)))
    ∧ Completes (.sel g d a b p) s (s.me.wg d (if s.rp p then s.rg a else s.rg b))
    ∧ decode (packG 0x10 0 g d a 0 0 0) = .ok (.clz g d a) ∧ decode (packG 0x11 0 g d a 0 0 0) = .ok (.popc g d a)
    ∧ (b ≠ 0 → decode (packG 0x10 0 g d a b 0 0) = .error (.rsvd 62) ∧ decode (packG 0x11 0 g d a b 0 0) = .error (.rsvd 62))
    ∧ decode (packG 0x14 0 g d a b ((0 : BitVec 3) ++ p) 0) = .ok (.sel g d a b p)
    ∧ (∀ c : BitVec 6, 8 ≤ c.toNat → decode (packG 0x14 0 g d a b c 0) = .error (.operand 56))

/-- R112, R113: the immediate and bit-field instructions complete with the tables' values: a plus the sign-extended immediate, the zero-extended immediate, the immediate's low 16 bits above a[47:0], the field of w bits from lo zero- or sign-extended, and g[gd] with bits lo+w-1:lo replaced by a[w-1:0]; nothing else changes; their words decode to them, a nonzero reserved field is a reserved-field fault and lo + w > 64 an operand fault; that its position is bit 54, the lowest bit of the highest field that takes part, is the model's choice (log 40). -/
def Obligations.ImmediatesAndBitFields : Prop :=
  ∀ (g : Guard) (d a : Reg) (imm : Imm48) (h : BitVec 16) (lo w1 : BitVec 6) (s : State), s.me.guard g = true →
    let x := s.rg a
    let w := w1.toNat + 1
    Completes (.addk g d a imm) s (s.me.wg d (BitVec.ofInt 64 (x.toNat + imm.toInt)))
    ∧ Completes (.movk g d imm) s (s.me.wg d (BitVec.ofNat 64 imm.toNat))
    ∧ Completes (.movh g d a h) s (s.me.wg d (h ++ x.extractLsb' 0 48))
    ∧ (lo.toNat + w ≤ 64 →
        Completes (.ext g false d a lo w1) s (s.me.wg d ((x.extractLsb' lo.toNat w).setWidth 64))
        ∧ Completes (.ext g true d a lo w1) s (s.me.wg d ((x.extractLsb' lo.toNat w).signExtend 64))
        ∧ (∃ v : Word, (∀ k, k < 64 → v.getLsbD k =
              if lo.toNat ≤ k ∧ k < lo.toNat + w then x.getLsbD (k - lo.toNat) else (s.rg d).getLsbD k)
            ∧ Completes (.ins g d a lo w1) s (s.me.wg d v))
        ∧ decode (packK 0x19 0 g d a ((0 : BitVec 8) ++ w1 ++ lo) 0) = .ok (.ext g false d a lo w1)
        ∧ decode (packK 0x19 1 g d a ((0 : BitVec 8) ++ w1 ++ lo) 0) = .ok (.ext g true d a lo w1)
        ∧ decode (packK 0x1A 0 g d a ((0 : BitVec 8) ++ w1 ++ lo) 0) = .ok (.ins g d a lo w1))
    ∧ (64 < lo.toNat + w →
        decode (packK 0x19 0 g d a ((0 : BitVec 8) ++ w1 ++ lo) 0) = .error (.operand 54)
        ∧ decode (packK 0x19 1 g d a ((0 : BitVec 8) ++ w1 ++ lo) 0) = .error (.operand 54)
        ∧ decode (packK 0x1A 0 g d a ((0 : BitVec 8) ++ w1 ++ lo) 0) = .error (.operand 54))
    ∧ decode (packK 0x16 0 g d a 0 imm) = .ok (.addk g d a imm) ∧ decode (packK 0x17 0 g d 0 0 imm) = .ok (.movk g d imm)
    ∧ decode (packK 0x18 0 g d a 0 ((0 : BitVec 32) ++ h)) = .ok (.movh g d a h)
    ∧ (∀ m : BitVec 20, m ≠ 0 → decode (packK 0x16 0 g d a m imm) = .error (.rsvd 48)
        ∧ decode (packK 0x17 0 g d 0 m imm) = .error (.rsvd 48) ∧ decode (packK 0x18 0 g d a m imm) = .error (.rsvd 48))
    ∧ (a ≠ 0 → decode (packK 0x17 0 g d a 0 imm) = .error (.rsvd 68))
    ∧ (imm.extractLsb' 16 32 ≠ 0 → decode (packK 0x18 0 g d a 0 imm) = .error (.rsvd 16))
    ∧ (imm ≠ 0 → decode (packK 0x19 0 g d a 0 imm) = .error (.rsvd 0) ∧ decode (packK 0x19 1 g d a 0 imm) = .error (.rsvd 0)
        ∧ decode (packK 0x1A 0 g d a 0 imm) = .error (.rsvd 0))
    ∧ (∀ m : BitVec 20, m.extractLsb' 12 8 ≠ 0 → decode (packK 0x19 0 g d a m 0) = .error (.rsvd 60)
        ∧ decode (packK 0x19 1 g d a m 0) = .error (.rsvd 60) ∧ decode (packK 0x1A 0 g d a m 0) = .error (.rsvd 60))

/-- R114, R115, R116: lea completes with the effective address of R48, no access made; coord with the slice address of the form, whose bits 32:17 are zero; decoord with the field chosen, columns and rows of the relative form sign-extended, whatever a[63] holds; nothing else changes; the words decode to them, and size 4 to 7 or a nonzero scope, ord or mod of lea is a reserved-field fault, VAR 5 to 15 of decoord a variant fault. -/
def Obligations.AddressesAndCoordinates : Prop :=
  ∀ (g : Guard) (d a b : Reg) (m : MAddr) (z : Sz) (s : State), s.me.guard g = true →
    let x := s.rg a
    let k : Nat := match z with | .b => 0 | .h => 1 | .w => 2 | .d => 3
    Completes (.lea g d m z) s
      (s.me.wg d (BitVec.ofInt 64 ((s.rg m.base).toNat + (s.rg m.idx).toNat * 2 ^ k + m.disp.toInt)))
    ∧ (∀ rel, Completes (.coord g rel d a b) s (s.me.wg d
        ((1 : BitVec 1) ++ BitVec.ofBool rel ++ x.extractLsb' 32 12 ++ x.extractLsb' 0 9 ++ x.extractLsb' 16 8 ++ (0 : BitVec 16)
          ++ (s.rg b).extractLsb' 0 17)))
    ∧ Completes (.decoord g .col d a) s
        (s.me.wg d (if x.getLsbD 62 then (x.extractLsb' 41 9).signExtend 64 else (x.extractLsb' 41 9).setWidth 64))
    ∧ Completes (.decoord g .row d a) s
        (s.me.wg d (if x.getLsbD 62 then (x.extractLsb' 33 8).signExtend 64 else (x.extractLsb' 33 8).setWidth 64))
    ∧ Completes (.decoord g .pkg d a) s (s.me.wg d ((x.extractLsb' 50 12).setWidth 64))
    ∧ Completes (.decoord g .off d a) s (s.me.wg d ((x.extractLsb' 0 17).setWidth 64))
    ∧ Completes (.decoord g .relflag d a) s (s.me.wg d (if x.getLsbD 62 then 1 else 0))
    ∧ decode (packM 0x1B 0 g d m.base m.idx (BitVec.ofNat 3 k) 0 0 0 m.disp) = .ok (.lea g d m z)
    ∧ (∀ (size scope : BitVec 3) (ord md : BitVec 4), 4 ≤ size.toNat ∨ scope ≠ 0 ∨ ord ≠ 0 ∨ md ≠ 0 →
        ∃ p, decode (packM 0x1B 0 g d m.base m.idx size scope ord md m.disp) = .error (.rsvd p))
    ∧ decode (packG 0x1C 0 g d a b 0 0) = .ok (.coord g false d a b) ∧ decode (packG 0x1C 1 g d a b 0 0) = .ok (.coord g true d a b)
    ∧ decode (packG 0x1D 0 g d a 0 0 0) = .ok (.decoord g .col d a) ∧ decode (packG 0x1D 1 g d a 0 0 0) = .ok (.decoord g .row d a)
    ∧ decode (packG 0x1D 2 g d a 0 0 0) = .ok (.decoord g .pkg d a) ∧ decode (packG 0x1D 3 g d a 0 0 0) = .ok (.decoord g .off d a)
    ∧ decode (packG 0x1D 4 g d a 0 0 0) = .ok (.decoord g .relflag d a)
    ∧ (∀ v : BitVec 4, 5 ≤ v.toNat → decode (packG 0x1D v g d a 0 0 0) = .error .var)

/-- R117, R410, R118: cmp and cmpk complete with p[gd] 1 where the condition of VAR holds for a and b, signed for lt, le, gt, ge and unsigned for lo, ls, hi, hs, cmpk's b the sign-extended immediate; pand, por, pxor, pnot and the forms of pmov complete with the table's value; a write of p0 or g0 is discarded and nothing else changes; VAR 10 to 15 of cmp and cmpk is a variant fault, and a predicate field outside p0 to p7 an operand fault. That cmpk's gd field holds the predicate's number, against the word that R410 prints, is the model's choice (log 30). -/
def Obligations.ComparisonsAndPredicates : Prop :=
  ∀ (g : Guard) (cc : Cond) (d p q : PReg) (gd a b : Reg) (imm : Imm48) (s : State), s.me.guard g = true →
    let holds (x y : Word) : Bool := match cc with
      | .eq => decide (x = y) | .ne => decide (x ≠ y)
      | .lt => decide (x.toInt < y.toInt) | .le => decide (x.toInt ≤ y.toInt)
      | .gt => decide (x.toInt > y.toInt) | .ge => decide (x.toInt ≥ y.toInt)
      | .lo => decide (x.toNat < y.toNat) | .ls => decide (x.toNat ≤ y.toNat)
      | .hi => decide (x.toNat > y.toNat) | .hs => decide (x.toNat ≥ y.toNat)
    let code : BitVec 4 := match cc with
      | .eq => 0 | .ne => 1 | .lt => 2 | .le => 3 | .gt => 4 | .ge => 5 | .lo => 6 | .ls => 7 | .hi => 8 | .hs => 9
    let f (r : PReg) : BitVec 6 := (0 : BitVec 3) ++ r
    (Completes (.cmp g cc d a b) s (s.me.wp d (holds (s.rg a) (s.rg b)))
      ∧ Completes (.cmpk g cc d a imm) s (s.me.wp d (holds (s.rg a) (BitVec.ofInt 64 imm.toInt)))
      ∧ Completes (.pand g d p q) s (s.me.wp d (s.rp p && s.rp q))
      ∧ Completes (.por g d p q) s (s.me.wp d (s.rp p || s.rp q))
      ∧ Completes (.pxor g d p q) s (s.me.wp d (s.rp p ^^ s.rp q))
      ∧ Completes (.pnot g d p) s (s.me.wp d (!s.rp p))
      ∧ Completes (.pmov g (.pp d p)) s (s.me.wp d (s.rp p))
      ∧ Completes (.pmov g (.pg d a)) s (s.me.wp d (decide (s.rg a ≠ 0)))
      ∧ Completes (.pmov g (.gp gd p)) s (s.me.wg gd (if s.rp p then 1 else 0)))
    ∧ (decode (packG 0x15 code g (f d) a b 0 0) = .ok (.cmp g cc d a b)
      ∧ decode (packK 0x2F code g (f d) a 0 imm) = .ok (.cmpk g cc d a imm)
      ∧ decode (packG 0x1E 0 g (f d) (f p) (f q) 0 0) = .ok (.pand g d p q)
      ∧ decode (packG 0x1F 0 g (f d) (f p) (f q) 0 0) = .ok (.por g d p q)
      ∧ decode (packG 0x20 0 g (f d) (f p) (f q) 0 0) = .ok (.pxor g d p q)
      ∧ decode (packG 0x21 0 g (f d) (f p) 0 0 0) = .ok (.pnot g d p)
      ∧ decode (packG 0x22 0 g (f d) (f p) 0 0 0) = .ok (.pmov g (.pp d p))
      ∧ decode (packG 0x22 1 g (f d) a 0 0 0) = .ok (.pmov g (.pg d a))
      ∧ decode (packG 0x22 2 g gd (f p) 0 0 0) = .ok (.pmov g (.gp gd p)))
    ∧ (∀ v : BitVec 4, 10 ≤ v.toNat → decode (packG 0x15 v g (f d) a b 0 0) = .error .var
        ∧ decode (packK 0x2F v g (f d) a 0 imm) = .error .var)
    ∧ (8 ≤ gd.toNat → decode (packG 0x15 code g gd a b 0 0) = .error (.operand 74)
        ∧ decode (packK 0x2F code g gd a 0 imm) = .error (.operand 74)
        ∧ decode (packG 0x1E 0 g gd (f p) (f q) 0 0) = .error (.operand 74)
        ∧ decode (packG 0x1E 0 g (f d) gd (f q) 0 0) = .error (.operand 68)
        ∧ decode (packG 0x1E 0 g (f d) (f p) gd 0 0) = .error (.operand 62)
        ∧ decode (packG 0x1F 0 g gd (f p) (f q) 0 0) = .error (.operand 74)
        ∧ decode (packG 0x1F 0 g (f d) gd (f q) 0 0) = .error (.operand 68)
        ∧ decode (packG 0x1F 0 g (f d) (f p) gd 0 0) = .error (.operand 62)
        ∧ decode (packG 0x20 0 g gd (f p) (f q) 0 0) = .error (.operand 74)
        ∧ decode (packG 0x20 0 g (f d) gd (f q) 0 0) = .error (.operand 68)
        ∧ decode (packG 0x20 0 g (f d) (f p) gd 0 0) = .error (.operand 62)
        ∧ decode (packG 0x21 0 g gd (f p) 0 0 0) = .error (.operand 74)
        ∧ decode (packG 0x21 0 g (f d) gd 0 0 0) = .error (.operand 68)
        ∧ decode (packG 0x22 0 g gd (f p) 0 0 0) = .error (.operand 74)
        ∧ decode (packG 0x22 0 g (f d) gd 0 0 0) = .error (.operand 68)
        ∧ decode (packG 0x22 1 g gd a 0 0 0) = .error (.operand 74)
        ∧ decode (packG 0x22 2 g a gd 0 0 0) = .error (.operand 68))

/-- R122, R123: with the guard true br goes to slot_pc(slot_linear(pc) + off48); call writes next(pc) to its link register, then goes as br; ret and jr go to g[ga]; loop lowers its counter modulo 2^64 and goes as br unless the counter is now 0, then to the next slot; an offset of br, of call or of a loop that goes on that leaves the PC range faults PC alignment at the instruction, with no link written and the counter as it was (R33); the PC of a taken transfer is one whose target is checked (R34); nop changes only PC and BUDGET. -/
def Obligations.ControlTransfers : Prop :=
  ∀ (g : Guard) (l a : Reg) (off : Imm48) (s : State), s.me.guard g = true →
    let lin : Int := (s.me.pc.toNat / 64 * 5 + s.me.pc.toNat % 8 : Nat) + off.toInt
    let target : Word := BitVec.ofNat 64 (lin.toNat / 5 * 64 + lin.toNat % 5)
    let inside : Prop := 0 ≤ lin ∧ lin < (2 ^ 57 / 64 * 5 : Nat)
    let v := s.rg a - 1
    Completes (.nop g) s s.me
    ∧ Jumps (.ret g a) s s.me (s.rg a) ∧ Jumps (.jr g a) s s.me (s.rg a)
    ∧ (inside → Jumps (.br g off) s s.me target)
    ∧ (inside → Jumps (.call g l off) s (s.me.wg l (nextPc s.me.pc)) target)
    ∧ (v = 0 → Completes (.loop g a off) s (s.me.wg a 0))
    ∧ (v ≠ 0 → inside → Jumps (.loop g a off) s (s.me.wg a v) target)
    ∧ (¬ inside → exec (.br g off) s = .next (s.charge.raiseMe (s.fault 0x12))
        ∧ exec (.call g l off) s = .next (s.charge.raiseMe (s.fault 0x12))
        ∧ (v ≠ 0 → exec (.loop g a off) s = .next (s.charge.raiseMe (s.fault 0x12))))
    ∧ decode (packG 0x01 0 g 0 0 0 0 0) = .ok (.nop g)
    ∧ decode (packK 0x23 0 g 0 0 0 off) = .ok (.br g off)
    ∧ (l ≠ 0 → decode (packK 0x24 0 g l 0 0 off) = .ok (.call g l off)) ∧ decode (packK 0x24 0 g 0 0 0 off) = .error (.operand 74)
    ∧ decode (packK 0x25 0 g 0 a 0 0) = .ok (.ret g a) ∧ decode (packK 0x26 0 g 0 a 0 0) = .ok (.jr g a)
    ∧ (a ≠ 0 → decode (packK 0x27 0 g 0 a 0 off) = .ok (.loop g a off)) ∧ decode (packK 0x27 0 g 0 0 0 off) = .error (.operand 68)

/-- R107: a yield of a user strand, its guard true, with no notice queued and no move pending, loads BUDGET[11:0] with its deadline or the core's ceiling for the strand's role if that is less, BUDGET[23:16] with its live mask, keeps both as the values later yield points take (R104), and goes to the next slot with nothing else changed; a deadline of 0 is an operand fault of bit 48. -/
def Obligations.YieldReloadsBudget : Prop :=
  ∀ (g : Guard) (dl : BitVec 12) (live : BitVec 8) (s : State), s.me.guard g = true →
    (s.cur.slot ≠ 0 → s.me.taker = none → s.me.notices = [] →
      let ceiling := if s.me.role = 0 then s.myCore.wdogRes else s.myCore.wdogHnd
      Answers (.yield g dl live) s fun t => OnlyStrand s.cur s t
        ∧ t.me = { { s.me with left := if ceiling < dl then ceiling else dl, live := live, lastDl := dl, lastLive := live }.goesOn
            (nextPc s.me.pc) false with atYield := true })
    ∧ (dl ≠ 0 → decode (packK 0x28 0 g 0 0 (live ++ dl) 0) = .ok (.yield g dl live))
    ∧ decode (packK 0x28 0 g 0 0 (live ++ (0 : BitVec 12)) 0) = .error (.operand 48)

/-- The scalar float instructions, their guard true, complete with the rounded result zero-extended in g[gd] (fcmp: the comparison in p[gd]) and their flags or-ed into STICKY, no STICKY bit cleared (R103), nothing else changed; the values are those of the model's rounding and comparison functions (R80 to R85). -/
def Obligations.ScalarFloat : Prop :=
  ∀ (g : Guard) (f : FFmt) (rtz : Bool) (d a b c : Reg) (p : PReg) (cc : FCond) (cv : FConv) (s : State), s.me.guard g = true →
    let x := fval f (s.rg a)
    let y := fval f (s.rg b)
    let z := fval f (s.rg c)
    let flagged (fl : Nat) : Strand := { s.me with sticky := s.me.sticky ||| BitVec.ofNat 64 fl }
    let put (r : Nat × Nat) : Strand := (flagged r.2).wg d (BitVec.ofNat 64 r.1)
    Completes (.fadd g f rtz d a b) s (put (f.addV rtz false x y))
    ∧ Completes (.fsub g f rtz d a b) s (put (f.addV rtz false x y.negate))
    ∧ Completes (.fmul g f rtz d a b) s (put (f.mulR rtz false x y))
    ∧ Completes (.ffma g f rtz d a b c) s (put (f.fmaR rtz false x y z))
    ∧ Completes (.fcmp g cc f p a b) s ((flagged (fcmpVal cc x y).2).wp p (fcmpVal cc x y).1)
    ∧ Completes (.fcvt g cv rtz d a) s ((flagged (fcvtVal cv rtz (s.rg a)).2).wg d (fcvtVal cv rtz (s.rg a)).1)

/-- R40: the guard is p[PG] xor PN; an instruction of any kind whose guard is false and whose instruction checks pass (the mode, sexit's form and the control register are the ones that look at the state) completes with nothing changed but PC and BUDGET: it takes no queue entry, stalls on nothing, reloads no BUDGET and raises no fault; with PG = 0 the guard is not PN. -/
def Obligations.FalseGuard : Prop :=
  (∀ (t : Strand) (g : Guard), t.guard g = (t.rp g.p ^^ g.neg) ∧ t.guard ⟨false, 0⟩ = true ∧ t.guard ⟨true, 0⟩ = false)
  ∧ ∀ (i : Instr) (g : Guard) (s : State), guardOf i = some g → s.me.guard g = false → s.admits i = true → Completes i s s.me

/-- R64, R69 and R70: each supervisor-only instruction (migrate, wakerel, eret, tlbi, replay, smove, smove.hold, smove.release, sstart, halt, keyset, keyerase, wdog, hostirq, evkill, sexit with a slot) issued by a user strand stops the strand as TRAPPED with cause 1, detail 6 reported to slot 0, whatever its guard; a control-register instruction whose register does not exist, is the supervisor's or is read-only likewise with detail 7. -/
def Obligations.ModeChecks : Prop :=
  ∀ (i : Instr) (s : State), s.cur.slot ≠ 0 →
    (supervisorOnly i = true → Traps i s { cause := 1, detail := 6, fpc := s.me.pc, rpc := s.me.pc })
    ∧ (∀ g d ctl, s.ctlBad ctl.toNat false = true →
        Traps (.csrr g d ctl) s { cause := 1, detail := 7, fpc := s.me.pc, rpc := s.me.pc })
    ∧ (∀ g d ctl v, s.ctlBad ctl.toNat true = true →
        Traps (.csrw g d ctl v) s { cause := 1, detail := 7, fpc := s.me.pc, rpc := s.me.pc }
        ∧ Traps (.csrs g d ctl v) s { cause := 1, detail := 7, fpc := s.me.pc, rpc := s.me.pc }
        ∧ Traps (.csrc g d ctl v) s { cause := 1, detail := 7, fpc := s.me.pc, rpc := s.me.pc })

/-- R69, R71, R323: a word that decode refuses is executed as an illegal instruction whose detail is the first failing check's code (1 to 5) and whose ARG is the low bit of the offending field for checks 8 and 9; in a user strand it stops the strand as TRAPPED, FPC and RPC at the word, with a report of cause 1 for slot 0; nothing else changes. -/
def Obligations.IllegalWordsTrap : Prop :=
  (∀ (detail arg : Nat) (s : State), s.cur.slot ≠ 0 → detail ≤ 7 →
    Traps (.illegalInstruction detail arg) s { cause := 1, detail := detail, arg := arg, fpc := s.me.pc, rpc := s.me.pc })
  ∧ (∀ (s : State) (t : StrandId) (e : Illegal), (s.strand t).overrun t.slot (.error e) = false →
      s.issueWord t (.error e) = .run (.illegalInstruction e.detail e.arg) s)
  ∧ (Illegal.zero.detail = 1 ∧ Illegal.op.detail = 2 ∧ Illegal.var.detail = 3)
  ∧ ∀ p, (Illegal.rsvd p).detail = 4 ∧ (Illegal.rsvd p).arg = p ∧ (Illegal.operand p).detail = 5 ∧ (Illegal.operand p).arg = p

/-- R55, R340: where check 11 passes, csrr completes with the register's value in g[gd]; csrw, csrs and csrc complete with the old value in g[gd] and the register's writable bits replaced by v, or-ed with v, or cleared by v; every other control register (BUDGET counts the instruction), general register and predicate, memory and every other strand, core and package stay; a write of CREWLEAD is told to the crew. The register's readable value once the instruction has issued is old, its writable bits for the mode are m. -/
def Obligations.ControlRegisters : Prop :=
  ∀ (g : Guard) (d : Reg) (ctl : BitVec 16) (v : CsrSrc) (s : State) (old m : Word), s.me.guard g = true →
    s.charge.csr ctl.toNat = some old →
    (s.ctlBad ctl.toNat false = false → Completes (.csrr g d ctl) s (s.me.wg d old))
    ∧ (s.ctlBad ctl.toNat true = false → csrMask s.super ctl.toNat = some m →
        let src : Word := match v with | .reg a => s.rg a | .imm i => i.setWidth 64
        let sets (i : Instr) (x : Word) : Prop := Answers i s fun t =>
          t.csr ctl.toNat = some ((old &&& ~~~m) ||| (x &&& m)) ∧ (∀ c, c ≠ ctl.toNat → c ≠ 6 → t.csr c = s.csr c)
          ∧ t.me.pc = nextPc s.me.pc ∧ t.me.left = s.leftIssued ∧ (∀ r, t.me.rg r = if r = d ∧ d ≠ 0 then old else s.me.rg r)
          ∧ (∀ q, t.me.rp q = s.me.rp q) ∧ (∀ r, t.me.re r = s.me.re r) ∧ SameMem s t
          ∧ (∀ n, n ≠ s.cur.slot → t.myCore.strand n = s.myCore.strand n) ∧ (∀ c, c.key ≠ s.cur.core.key → t.core c = s.core c)
          ∧ (∀ n, t.pkg n = s.pkg n)
          ∧ (∀ n, n ≠ s.cur.core.crewNo → t.crew n = if ctl = 0x204 then { s.crew n with areas := (s.crew n).areas.del s.myCore.ctx } else s.crew n)
          ∧ t.agenda = s.agenda ++ (if ctl = 0x8100 then
              [{ step := .crewleadWrite s.cur.core.crewNo (((old &&& ~~~m) ||| (x &&& m)).setWidth 4) }] else [])
        sets (.csrw g d ctl v) src ∧ sets (.csrs g d ctl v) (old ||| src) ∧ sets (.csrc g d ctl v) (old &&& ~~~src))

/-- R55, R56, R69 check 11: a number that R55 does not list, a number from 0x8000 up in a user strand, and a write of a register that R55 makes read-only for the mode are refused; the writable bits are STICKY 11:8 and 4:0, UPVEC all, UPREC 63:6, SHELLBASE 63:10 in both modes, and for slot 0 also ROLE 1:0, HANDLERTAB, SPILLBASE, EVAREA, TRAPVEC and SCRATCH all, TRAPREC 63:6, CREWLEAD 3:0 and DROPPED of CREWFAULT; DEVID reads vendor 0x4858 and part 0x7102. -/
def Obligations.ControlRegisterAccess : Prop :=
  ∀ (s : State) (n : Nat),
    let listed := [0, 1, 2, 3, 4, 5, 6, 0x100, 0x101, 0x102, 0x200, 0x201, 0x202, 0x203, 0x204, 0x8000, 0x8001, 0x8002, 0x8100, 0x8101]
    let both := [3, 4, 5, 0x201]
    let kernel := [2, 0x202, 0x203, 0x204, 0x8000, 0x8001, 0x8002, 0x8100, 0x8101]
    (s.ctlBad n false = true ↔ n ∉ listed ∨ (0x8000 ≤ n ∧ s.cur.slot ≠ 0))
    ∧ (s.ctlBad n true = true ↔ ¬ (n ∈ both ∨ (n ∈ kernel ∧ s.cur.slot = 0)))
    ∧ (csrMask s.super 3 = some 0xF1F ∧ csrMask s.super 4 = some (BitVec.allOnes 64) ∧ csrMask s.super 5 = some 0xFFFFFFFFFFFFFFC0
      ∧ csrMask s.super 0x201 = some 0xFFFFFFFFFFFFFC00)
    ∧ csrMask true 2 = some 3 ∧ csrMask true 0x8001 = some 0xFFFFFFFFFFFFFFC0 ∧ csrMask true 0x8100 = some 0xF
    ∧ csrMask true 0x8101 = some 1 ∧ (∀ k, k ∈ [0x202, 0x203, 0x204, 0x8000, 0x8002] → csrMask true k = some (BitVec.allOnes 64))
    ∧ (s.csr 0x102).map (·.extractLsb' 32 32) = some 0x48587102

/-- R322, R323: while TDIS is clear and slot 0 stands between two instructions of a core that runs, the report delivered is a waiting one that none precedes in the order of R323; record s holds RPC, FPC, the cause word of R321, INFO0, INFO1, INFO2, the strand id, INFO3 and zeros, record 0 holds slot 0's PC as KPC; TDIS is set, slot 0 goes on at TRAPVEC as a checked transfer, and no other byte of memory, strand, core, crew or package changes. The records here lie in a slice, which no translation guards. -/
def Obligations.TrapDelivery : Prop :=
  ∀ (c x : CoreId) (off : Nat) (s : State) (r : Report), s.mem.wf = true → InSlice s c 0 true (s.core c).traprec 128 x off →
    nextReport (s.core c).reports = some r → r.slot < 8 →
    (s.core c).tdis = false → (s.core c).mcheck = none → (s.core c).halted = false → (s.core c).retired = false → (s.pkg c.pkg).held3 = false →
    ((s.core c).strand 0).issued = none → ((s.core c).strand 0).taking = none → ((s.core c).strand 0).mode = .ready →
    (r ∈ (s.core c).reports ∧ ∀ q ∈ (s.core c).reports, r.place ≤ q.place)
    ∧ Answers (.trapDelivery c) s fun t =>
      t.sliceHolds x (off + 128 * r.slot) [r.rpc, r.fpc,
        BitVec.ofNat 64 (r.ctx % 2 ^ 16 * 2 ^ 48 + r.inner % 256 * 2 ^ 32 + r.arg % 256 * 2 ^ 24 + r.detail % 256 * 2 ^ 8 + r.cause % 256),
        r.info0, r.info1, r.info2, BitVec.ofNat 64 (r.strand % 2 ^ 32), r.info3, 0, 0, 0, 0, 0, 0, 0]
      ∧ t.sliceWord x off 15 = ((s.core c).strand 0).pc ∧ (r.slot ≠ 0 → t.sliceWord x (off + 128 * r.slot) 15 = 0)
      ∧ (∀ a, (a < sliceKey x (off + 128 * r.slot) ∨ sliceKey x (off + 128 * r.slot) + 128 ≤ a)
          → (a < sliceKey x (off + 120) ∨ sliceKey x (off + 120) + 8 ≤ a) → t.mem.read a = s.mem.read a)
      ∧ (t.core c).strand 0 = { (s.core c).strand 0 with pc := (s.core c).trapvec, checkT := true, stalled := false, retry := none }
      ∧ { t.core c with retries := [] }.rest = { s.core c with tdis := true, reports := (s.core c).reports.erase r, retries := [] }.rest
      ∧ (∀ n, n ≠ 0 → (t.core c).strand n = (s.core c).strand n) ∧ OnlyCore c s t

/-- R346, R322, R326: trap raises cause 13 with INFO0 = code, FPC at the trap and RPC at the next instruction. Without U a user strand is TRAPPED and the report waits for slot 0; in slot 0 with TDIS clear it enters TRAPVEC through record 0 whatever U is, and with TDIS set it is a machine check 0xB1; with U and UPVEC set and INUSE 0 a user strand's save record (here in a slice it may use) takes RPC, FPC, the cause word, INFO0, INFO1, g62, g63 and INUSE 1, g62 takes the record's address and g63 the cause word, and it goes on at UPVEC as a checked transfer; with UPVEC 0 it is reported as NOVEC, with INUSE 1 as UPNEST. -/
def Obligations.TrapInstruction : Prop :=
  ∀ (g : Guard) (u : Bool) (code : BitVec 16) (s : State), s.me.guard g = true →
    let pc := s.me.pc
    let info : Word := code.setWidth 64
    let rec_ := s.me.uprec &&& ~~~(0x3F : Word)
    let cw (n d : Nat) : Word := BitVec.ofNat 64 (s.ctx % 2 ^ 16 * 2 ^ 48 + d % 256 * 2 ^ 8 + n)
    (s.cur.slot ≠ 0 → u = false → Traps (.trap g u code) s { cause := 13, fpc := pc, rpc := nextPc pc, info0 := info })
    ∧ (s.cur.slot ≠ 0 → u = true → s.me.upvec = 0 →
        Traps (.trap g u code) s { cause := 15, detail := 0xA2, fpc := pc, rpc := nextPc pc, info0 := info })
    ∧ (∀ x off, s.cur.slot ≠ 0 → u = true → s.me.upvec ≠ 0 → s.mem.wf = true → InSlice s s.cur.core s.ctx false rec_ 8 x off →
        ((s.sliceWord x off 7).getLsbD 0 = true →
          Traps (.trap g u code) s { cause := 15, detail := 0xA0, fpc := pc, rpc := nextPc pc, info0 := info })
        ∧ ((s.sliceWord x off 7).getLsbD 0 = false → Answers (.trap g u code) s fun t =>
            t.sliceHolds x off [nextPc pc, pc, cw 13 0, info, 0, s.rg 62, s.rg 63, 1] ∧ SameMemBut (sliceKey x off) 64 s t
            ∧ t.me = { ({ s.me with left := s.leftIssued }.wg 62 rec_).wg 63 (cw 13 0) with
                pc := s.me.upvec, checkT := true, mode := .ready, issued := none, hold := .none, stalled := false, atYield := false, retry := none }
            ∧ (t.myCore.rest = (s.myCore.closed s.cur.slot).rest) ∧ OnlyCore s.cur.core s t
            ∧ ∀ n, n ≠ s.cur.slot → t.myCore.strand n = s.myCore.strand n))
    ∧ (∀ x off, s.cur.slot = 0 → s.mem.wf = true → InSlice s s.cur.core 0 true s.myCore.traprec 128 x off →
        (s.myCore.tdis = false → Answers (.trap g u code) s fun t =>
            t.sliceHolds x off [nextPc pc, pc, cw 13 0, info, 0, 0, BitVec.ofNat 64 (s.cur.gid % 2 ^ 32), 0, 0, 0, 0, 0, 0, 0, 0, nextPc pc]
            ∧ SameMemBut (sliceKey x off) 128 s t ∧ t.myCore.tdis = true
            ∧ t.me = { s.me with pc := s.myCore.trapvec, checkT := true, mode := .ready, issued := none, hold := .none, stalled := false,
                                 atYield := false, retry := none })
        ∧ (s.myCore.tdis = true → Answers (.trap g u code) s fun t => t.myCore.mcheck = some 0xB1 ∧ SameMem s t))

/-- R324, R327: eret in slot 0 with TDIS set clears TDIS and goes to record 0's KPC, no checked transfer; with RESUME a TRAPPED slot s becomes ready at its record's RPC with its registers as they stand, with REFLECT a TRAPPED slot whose UPVEC is set and whose save record is not in use takes the fault of its trap record as an upcall (R326): the save record holds the trap record's RPC, FPC, cause word, INFO0 and INFO1, the strand's g62 and g63 and INUSE 1, g62 and g63 take the record's address and the cause word, and the strand is ready at UPVEC as a checked transfer; a slot that is not TRAPPED, or is named with neither bit, is unchanged; with TDIS clear eret faults ILL_OPERAND and goes nowhere else, with ARG 0, which is the model's choice (log 40). upret with INUSE 1 restores g62 and g63 from the save record, clears INUSE and goes to the record's RPC, no checked transfer; with INUSE 0 a user strand's upret is reported as NOUP. The records here lie in a slice that the strand may use. -/
def Obligations.ExceptionReturns : Prop :=
  ∀ (g : Guard) (slot : BitVec 3) (resume reflect : Bool) (x : CoreId) (off : Nat) (s : State), s.me.guard g = true →
    (s.cur.slot = 0 → s.myCore.tdis = true → InSlice s s.cur.core 0 true s.myCore.traprec 128 x off →
      let go (resume reflect : Bool) (P : State → Prop) : Prop := Answers (.eret g slot resume reflect) s fun t =>
        t.me = s.me.goesOn (s.sliceWord x off 15) false ∧ t.myCore.rest = { s.myCore with tdis := false }.rest ∧ SameMem s t ∧ P t
      (slot ≠ 0 → (s.myCore.strand slot.toNat).mode = .trapped → go true false fun t =>
        t.myCore.strand slot.toNat = { s.myCore.strand slot.toNat with
          mode := .ready, pc := s.sliceWord x (off + 128 * slot.toNat) 0, checkT := false, hold := .none, issued := none })
      ∧ (slot ≠ 0 → (s.myCore.strand slot.toNat).mode ≠ .trapped → go resume reflect fun t =>
          t.myCore.strand slot.toNat = s.myCore.strand slot.toNat)
      ∧ (go false false fun t => ∀ n, n ≠ 0 → t.myCore.strand n = s.myCore.strand n)
      ∧ (∀ y o, let z := s.myCore.strand slot.toNat
          let save := z.uprec &&& ~~~(0x3F : Word)
          let at_ := off + 128 * slot.toNat
          let cw := s.sliceWord x at_ 2 &&& 0xFFFF00FFFF00FFFF
          slot ≠ 0 → z.mode = .trapped → z.upvec ≠ 0 → s.mem.wf = true → InSlice s s.cur.core s.myCore.ctx false save 8 y o →
          (s.sliceWord y o 7).getLsbD 0 = false → (sliceKey x (off + 1024) ≤ sliceKey y o ∨ sliceKey y (o + 64) ≤ sliceKey x off) →
          Answers (.eret g slot false true) s fun t =>
            t.me = s.me.goesOn (s.sliceWord x off 15) false ∧ t.myCore.rest = { s.myCore with tdis := false }.rest
            ∧ t.sliceHolds y o [s.sliceWord x at_ 0, s.sliceWord x at_ 1, cw, s.sliceWord x at_ 3, s.sliceWord x at_ 4, z.rg 62, z.rg 63, 1]
            ∧ SameMemBut (sliceKey y o) 64 s t
            ∧ t.myCore.strand slot.toNat = { (z.wg 62 save).wg 63 cw with pc := z.upvec, checkT := true, mode := .ready, retry := none }))
    ∧ (s.cur.slot = 0 → s.myCore.tdis = false → exec (.eret g slot resume reflect) s = .next (s.charge.raiseMe (s.illegal 5 0)))
    ∧ (InSlice s s.cur.core s.ctx s.super (s.me.uprec &&& ~~~(0x3F : Word)) 8 x off → s.mem.wf = true →
        ((s.sliceWord x off 7).getLsbD 0 = true → Answers (.upret g) s fun t =>
          t.me = { (s.me.wg 62 (s.sliceWord x off 5)).wg 63 (s.sliceWord x off 6) with left := s.leftIssued }.goesOn (s.sliceWord x off 0) false
          ∧ t.sliceWord x off 7 = 0 ∧ SameMemBut (sliceKey x (off + 56)) 8 s t ∧ OnlyCore s.cur.core s t
          ∧ t.myCore.rest = s.myCore.rest ∧ ∀ n, n ≠ s.cur.slot → t.myCore.strand n = s.myCore.strand n)
        ∧ (s.cur.slot ≠ 0 → (s.sliceWord x off 7).getLsbD 0 = false →
            Traps (.upret g) s { cause := 15, detail := 0xA3, fpc := s.me.pc, rpc := s.me.pc }))

/-- R344, R346, R351: in slot 0, halt completes with its core halted, and STOP halts a core; WAKE lets it issue again and makes its waiting reports deliverable, but in a package that an alarm of level 3 holds (R349); no register, byte of memory or other core changes. wdog completes with the old ceilings in g[gd] ([11:0] resident, [27:16] handler) and each nonzero field as the new ceiling; BUDGETs already loaded stand, but for the instruction's own count. -/
def Obligations.HaltAndDeadlines : Prop :=
  ∀ (g : Guard) (d : Reg) (res hnd : BitVec 12) (c : CoreId) (s : State),
    (s.me.guard g = true → s.cur.slot = 0 →
      CompletesCore (.halt g) s { s.myCore with halted := true } s.me
      ∧ CompletesCore (.wdog g d res hnd) s
          { s.myCore with wdogRes := if res = 0 then s.myCore.wdogRes else res, wdogHnd := if hnd = 0 then s.myCore.wdogHnd else hnd }
          (s.me.wg d (BitVec.ofNat 64 (s.myCore.wdogRes.toNat + s.myCore.wdogHnd.toNat * 2 ^ 16))))
    ∧ (Answers (.stop c) s fun t => t.core c = { s.core c with halted := true } ∧ OnlyCore c s t ∧ SameMem s t)
    ∧ ((s.pkg c.pkg).held3 = true → Becomes (.wake c) s s)
    ∧ ((s.pkg c.pkg).held3 = false → Answers (.wake c) s fun t => t.core c = { s.core c with halted := false } ∧ (∀ k, k.key ≠ c.key → t.core k = s.core k) ∧ SameMem s t
        ∧ (∀ n, t.crew n = s.crew n) ∧ (∀ n, t.pkg n = s.pkg n)
        ∧ ((s.core c).reports ≠ [] → t.agenda.any (fun p => p.step == .trapDelivery c) = true))

/-- R339: in slot 0, tlbi removes from the instruction and data TLBs of every core, and from the L2 TLB and owner cache of every crew, of its own crew, or with the wide form of its package, every entry of the context for the page, of the context, or all, by its mode, and keeps every other entry; a page entry matches where the address, within the reach of the entry's level, is its own; no register, byte of memory or other crew or core changes. -/
def Obligations.TranslationInvalidation : Prop :=
  ∀ (g : Guard) (mode : TlbiMode) (wide : Bool) (a b : Reg) (s : State), s.me.guard g = true → s.cur.slot = 0 →
    let here (crew : Nat) : Prop := if wide then crew / 6400 = s.cur.core.pkg else crew = s.cur.core.crewNo
    let gone (e : TlbE) : Prop := match mode with
      | .page => e.ctx = (s.rg b).toNat % 2 ^ 16 ∧ e.base = (s.rg a).toNat % 2 ^ 57 / 2 ^ pageBits e.level
      | .ctx => e.ctx = (s.rg b).toNat % 2 ^ 16
      | .all => True
    let left (l l' : List TlbE) : Prop := List.Sublist l' l ∧ ∀ e, e ∈ l' ↔ e ∈ l ∧ ¬ gone e
    Answers (.tlbi g mode wide a b) s fun t =>
      t.me = { s.me with left := s.leftIssued }.goesOn (nextPc s.me.pc) false ∧ SameMem s t ∧ (∀ n, t.pkg n = s.pkg n)
      ∧ (∀ w, here w → left (s.crew w).tlb (t.crew w).tlb ∧ left (s.crew w).owner (t.crew w).owner
          ∧ t.crew w = { s.crew w with tlb := (t.crew w).tlb, owner := (t.crew w).owner })
      ∧ (∀ w, ¬ here w → t.crew w = s.crew w)
      ∧ (∀ c : CoreId, c.col < 512 → c.row < 200 → here c.crewNo →
          left (s.core c).itlb (t.core c).itlb ∧ left (s.core c).dtlb (t.core c).dtlb
          ∧ (c.key ≠ s.cur.core.key → t.core c = { s.core c with itlb := (t.core c).itlb, dtlb := (t.core c).dtlb }))
      ∧ (∀ c : CoreId, c.col < 512 → c.row < 200 → ¬ here c.crewNo → c.key ≠ s.cur.core.key → t.core c = s.core c)

/-- R350 to R352: READ gives a word of a stopped core's strand contexts (the word of the strand's image, R329), tile table, rings, slice or trap records (here in a slice) and changes nothing the core holds; WRITE sets that word: of a strand context its PC or a g register, of the tile table and the rings all but the reserved bits, which read zero; neither touches a running core. MSG leaves a report of cause 18 with INFO2 word 0 for slot 0. RESET of a core that is not retired, in a package that no alarm of level 3 holds, clears its slice and registers and starts slot 0 at the micro-kernel's entry; RETIRE makes the core retired, serving no context, and the reports of its crew's faults that it has not delivered wait for another lead (R13). A correctable soft error is counted; another is a machine check, which leaves the core's registers as they stand. The numbers of the regions are the model's own (log 27), as is the entry's PC (log 6). -/
def Obligations.BattenNetwork : Prop :=
  ∀ (c : CoreId) (off region : Nat) (v : Word) (ws : List Word) (s : State),
    let still := (s.core c).halted = true ∨ (s.core c).mcheck ≠ none
    (still → Answers (.battenRead c 8 off) s (fun t => (t.core c).battenOut = [(s.core c).tile off] ∧ SameMem s t)
      ∧ Answers (.battenRead c 9 off) s (fun t => (t.core c).battenOut = [(s.core c).rings.get 0 off] ∧ SameMem s t)
      ∧ (off < 16384 → Answers (.battenRead c 10 off) s fun t => (t.core c).battenOut = [s.sliceWord c 0 off] ∧ SameMem s t)
      ∧ (off < 64 → Answers (.battenWrite c 8 off v) s fun t => (t.core c).tile off = (v &&& ~~~(0x1FFFF : Word)) ∧ (∀ n, n ≠ off → (t.core c).tile n = (s.core c).tile n)
          ∧ (t.core c).strands = (s.core c).strands ∧ SameMem s t ∧ OnlyCore c s t)
      ∧ (off < 8 → Answers (.battenWrite c 9 off v) s fun t => (t.core c).rings.get 0 off = (v &&& 0x7FFFFFFFFF)
          ∧ (∀ n, n ≠ off → (t.core c).rings.get 0 n = (s.core c).rings.get 0 n) ∧ SameMem s t ∧ OnlyCore c s t)
      ∧ (off < 16384 → s.mem.wf = true → Answers (.battenWrite c 10 off v) s fun t => t.sliceWord c 0 off = v
          ∧ SameMemBut (sliceKey c (8 * off)) 8 s t ∧ t.cores = s.cores))
    ∧ (still → (∀ n, n < 8 → Answers (.battenRead c n off) s fun t =>
            (t.core c).battenOut = [imageWord ((s.core c).strand n) (s.ctxOf ⟨c, n⟩) s.freeN off] ∧ (t.core c).strands = (s.core c).strands ∧ SameMem s t)
        ∧ (∀ n, n < 8 → (strandOfImage (imageOf ((s.core c).strand n) (s.ctxOf ⟨c, n⟩) s.freeN) (s.ctxOf ⟨c, n⟩)).isSome = true →
            (∀ r : Reg, r ≠ 0 → Answers (.battenWrite c n (24 + r.toNat) v) s fun t => ((t.core c).strand n).rg r = v
              ∧ (∀ q : Reg, q ≠ r → ((t.core c).strand n).rg q = ((s.core c).strand n).rg q)
              ∧ (∀ j, j ≠ n → (t.core c).strand j = (s.core c).strand j) ∧ SameMem s t)
            ∧ (Answers (.battenWrite c n 0 v) s fun t => ((t.core c).strand n).pc = v ∧ ((t.core c).strand n).g = ((s.core c).strand n).g
              ∧ (∀ j, j ≠ n → (t.core c).strand j = (s.core c).strand j) ∧ SameMem s t))
        ∧ (∀ y o i, InSlice s c 0 true (s.core c).traprec 128 y o → i < 128 →
            (Answers (.battenRead c 11 i) s fun t => (t.core c).battenOut = [s.sliceWord y o i] ∧ SameMem s t)
            ∧ (s.mem.wf = true → (s.core c).battenIn = [] → Answers (.battenWrite c 11 i v) s fun t => t.sliceWord y o i = v ∧ SameMemBut (sliceKey y (o + 8 * i)) 8 s t)))
    ∧ (¬ still → Becomes (.battenRead c region off) s s ∧ Becomes (.battenWrite c region off v) s s)
    ∧ (Answers (.msg c ws) s fun t => (t.core c).reports = (s.core c).reports ++
          [{ slot := 0, cause := 18, info2 := ws.getD 0 0, strand := StrandId.gid ⟨c, 0⟩ }] ∧ (t.core c).strands = (s.core c).strands ∧ SameMem s t)
    ∧ ((s.core c).retired = true ∨ (s.pkg c.pkg).held3 = true → Becomes (.reset c) s s)
    ∧ ((s.core c).retired = false → (s.pkg c.pkg).held3 = false → Answers (.reset c) s fun t =>
          (t.core c).strand 0 = { mode := .ready, pc := Config.kernelPc } ∧ (∀ n, n ≠ 0 → (t.core c).strand n = {}) ∧ (t.core c).tiles = []
          ∧ (t.core c).rings = [] ∧ (t.core c).ctx = 0 ∧ (t.core c).tdis = false ∧ (t.core c).mcheck = none ∧ (t.core c).halted = false
          ∧ (∀ k, k.key ≠ c.key → t.core k = s.core k)
          ∧ (∀ a, sliceKey c 0 ≤ a → a < sliceKey c 131072 → t.mem.read a = Memory.read [] a)
          ∧ (∀ a, a < sliceKey c 0 ∨ sliceKey c 131072 ≤ a → t.mem.read a = s.mem.read a))
    ∧ (Answers (.retire c) s fun t => SameMem s t ∧ (∀ k, k.key ≠ c.key → t.core k = s.core k) ∧ (∀ p, t.pkg p = s.pkg p)
        ∧ t.core c = { s.core c with retired := true, ctx := 0, reports := (s.core c).reports.filter fun r => r.cause != 16 }
        ∧ (∀ n, n ≠ c.crewNo → t.crew n = s.crew n)
        ∧ t.crew c.crewNo = { s.crew c.crewNo with waiting := (t.crew c.crewNo).waiting }
        ∧ (∀ e, e ∈ (s.crew c.crewNo).waiting → e ∈ (t.crew c.crewNo).waiting)
        ∧ ∀ e, e ∈ (s.crew c.crewNo).fbuf → e.report c ∈ (s.core c).reports → e ∈ (t.crew c.crewNo).waiting)
    ∧ (Answers (.sramSoftError c true) s fun t => t.core c = { s.core c with softErrs := (s.core c).softErrs + 1 } ∧ OnlyCore c s t ∧ SameMem s t)
    ∧ (Answers (.sramSoftError c false) s fun t => (t.core c).mcheck = some 0xB2 ∧ (t.core c).strands = (s.core c).strands
          ∧ (t.core c).tiles = (s.core c).tiles ∧ SameMem s t)

/-- R347: in slot 0, keyset gives 2 for a slot above 4,095, 1 for a slot that holds a key, 3 for a material address that is no multiple of 64, and otherwise 0 with the slot holding the 64 bytes at the address (here in a slice); keyerase gives 2 for a slot above 4,095, 3 for slot 0, 1 for an empty slot, and otherwise 0 with the slot empty; a status other than 0 changes nothing but g[gd], PC and BUDGET, and no other slot changes, nor another package where no combining entry is to be flushed. keyerase waits, as everything that is to be sent does, while no port works on the way (R287). Which status is given where two conditions hold is the model's choice (log 41). -/
def Obligations.KeySlots : Prop :=
  ∀ (g : Guard) (d sl m : Reg) (x : CoreId) (off : Nat) (s : State), s.me.guard g = true → s.cur.slot = 0 →
    let n := (s.rg sl).toNat
    let ks := (s.pkg s.cur.core.pkg).keys
    (4095 < n → Completes (.keyset g d sl m) s (s.me.wg d 2) ∧ Completes (.keyerase g d sl) s (s.me.wg d 2))
    ∧ (n ≤ 4095 → ks.has n = true → Completes (.keyset g d sl m) s (s.me.wg d 1))
    ∧ (n ≤ 4095 → ks.has n = false → (s.rg m).toNat % 64 ≠ 0 → Completes (.keyset g d sl m) s (s.me.wg d 3))
    ∧ (n ≤ 4095 → ks.has n = false → (s.rg m).toNat % 64 = 0 → InSlice s s.cur.core 0 true (s.rg m) 8 x off →
        Answers (.keyset g d sl m) s fun t =>
          (t.pkg s.cur.core.pkg).keys.get [] n = (List.range 8).flatMap (fun i => leBytes 8 (s.sliceWord x off i).toNat)
          ∧ (t.pkg s.cur.core.pkg).keys.has n = true ∧ (∀ k, k ≠ n → (t.pkg s.cur.core.pkg).keys.get [] k = ks.get [] k)
          ∧ (∀ p, p ≠ s.cur.core.pkg → t.pkg p = s.pkg p) ∧ SameMem s t
          ∧ t.me = { s.me.wg d 0 with left := s.leftIssued }.goesOn (nextPc s.me.pc) false)
    ∧ (n = 0 → Completes (.keyerase g d sl) s (s.me.wg d 3))
    ∧ (0 < n → n ≤ 4095 → ks.has n = false → Completes (.keyerase g d sl) s (s.me.wg d 1))
    ∧ (0 < n → n ≤ 4095 → ks.has n = true → (∀ w, s.stuckCombs w (fun _ => true) = false) → (∀ w l, l ∈ (s.crew w).lines → s.stuckLine w l = false) →
      Answers (.keyerase g d sl) s fun t =>
        (t.pkg s.cur.core.pkg).keys.has n = false ∧ (∀ k, k ≠ n → (t.pkg s.cur.core.pkg).keys.get [] k = ks.get [] k)
        ∧ ((∀ w, (s.crew w).comb = []) → ∀ p, p ≠ s.cur.core.pkg → t.pkg p = s.pkg p)
        ∧ t.me = { s.me.wg d 0 with left := s.leftIssued }.goesOn (nextPc s.me.pc) false)

/-- R330: in slot 0, sstart of an entry PC to this core, a named core in range, or (by the descent) a unit sends its start and waits; the answer completes it with KIND and the id or reason in g[gd]; a core out of range is refused with reason 1 at once, which is the model's choice (log 45). At the target, refused with 1 when retired; with no image, at a core that serves the context, started in its lowest free slot with the PC, role, full live mask and the deadline or the ceiling if that is less, else queued when fewer than 16 wait, else refused with 2; the outcome is the reply. The descent moves on to a lower neighbour, and stops at a core that has none in the unit or after 64 moves: that core is the start's target. -/
def Obligations.StrandStart : Prop :=
  ∀ (g : Guard) (d a : Reg) (ctx : BitVec 16) (p : BitVec 12) (x : BitVec 9) (y : BitVec 8) (role : BitVec 2) (dl : BitVec 12) (s : State)
    (m : StartMsg) (moves : Nat) (r : Answer),
    (s.me.guard g = true → s.cur.slot = 0 →
      let hdr (c : CoreId) (tag cx : Nat) : Hdr := ⟨c, s.cur.core, 0, tag, cx, {}⟩
      let msg (c : CoreId) (u : Option Scope) (here : Bool) (cx tag : Nat) : StartMsg :=
        ⟨hdr c tag cx, u, here, none, s.rg a, role.toNat, dl.toNat, none, none⟩
      (s.me.hold = .none → s.pkgIn s.cur.core.pkg s.cur.core.pkg = true → s.cur.core.row < 200 →
        Asks (.sstart g d a (.here ctx) (.entry role dl)) s (fun tag =>
          .strandStartArrival (msg s.cur.core none true (if ctx = 0 then s.myCore.ctx else ctx.toNat) tag))
        ∧ Asks (.sstart g d a .crew (.entry role dl)) s (fun tag => .placementDescent s.cur.core (msg s.cur.core (some .crew) false s.myCore.ctx tag) 0))
      ∧ (s.me.hold = .none → s.pkgIn s.cur.core.pkg p.toNat = true → y.toNat < 200 →
          Asks (.sstart g d a (.named p x y) (.entry role dl)) s fun tag =>
            .strandStartArrival (msg ⟨p.toNat, x.toNat, y.toNat⟩ none false s.myCore.ctx tag))
      ∧ (s.me.hold = .none → 200 ≤ y.toNat →
          Completes (.sstart g d a (.named p x y) (.entry role dl)) s (s.me.wg d (BitVec.ofNat 64 (2 * 2 ^ 62 + 1 * 2 ^ 32))))
      ∧ ∀ pl what, s.me.hold = .got r → r.status = .ack →
          let kind := (r.data.getD 0 0).toNat
          let v := (r.data.getD 1 0).toNat
          Completes (.sstart g d a pl what) s
            (s.me.wg d (BitVec.ofNat 64 (kind % 4 * 2 ^ 62 + if kind = 2 then v % 256 * 2 ^ 32 else v % 2 ^ 32))))
    ∧ (let c := m.hdr.target
       let k := s.core c
       let tells (t : State) (kind v : Nat) : Prop := Sent (replyTo m.hdr .ack 0 0 [BitVec.ofNat 64 kind, BitVec.ofNat 64 v]) t
       k.mcheck = none → m.hdr.odd = {} → s.fencedHdr m.hdr = false →
        (k.retired = true → Answers (.strandStartArrival m) s fun t => tells t 2 1 ∧ t.cores = s.cores ∧ SameMem s t)
        ∧ (k.retired = false → s.pkgIn c.pkg c.pkg = true → c.row < 200 → k.ctx = m.hdr.ctx → m.image = none →
            (∀ i, 1 ≤ i → i < 8 → (k.strand i).mode = .free → (∀ j, 1 ≤ j → j < i → (k.strand j).mode ≠ .free) →
              Answers (.strandStartArrival m) s fun t => tells t 0 (StrandId.gid ⟨c, i⟩) ∧ SameMem s t
                ∧ (∀ j, j ≠ i → (t.core c).strand j = k.strand j)
                ∧ (let ceil := if BitVec.ofNat 2 m.role = 0 then k.wdogRes else k.wdogHnd
                   let left := if ceil < BitVec.ofNat 12 m.deadline then ceil else BitVec.ofNat 12 m.deadline
                   (t.core c).strand i = { mode := .ready, pc := m.pc, checkT := true, role := BitVec.ofNat 2 m.role, left := left, live := 0xFF,
                                           lastDl := BitVec.ofNat 12 m.deadline, lastLive := 0xFF }))
            ∧ ((∀ i, 1 ≤ i → i < 8 → (k.strand i).mode ≠ .free) →
                (m.moved = none → k.starts.length < 16 → Answers (.strandStartArrival m) s fun t =>
                  tells t 1 (StrandId.gid ⟨c, 0⟩) ∧ (t.core c).starts = k.starts ++ [⟨m⟩] ∧ (t.core c).strands = k.strands ∧ SameMem s t)
                ∧ (16 ≤ k.starts.length → Answers (.strandStartArrival m) s fun t => tells t 2 2 ∧ t.cores = s.cores ∧ SameMem s t))))
    ∧ (∀ c, (s.core c).mcheck = none → m.hdr.odd = {} →
        (m.unit = none ∨ 64 ≤ moves ∨ (∃ sc, m.unit = some sc ∧ s.descend c sc = none) → Answers (.placementDescent c m moves) s fun t =>
          Sent (.strandStartArrival { m with hdr := { m.hdr with target := c }, unit := none }) t)
        ∧ (∀ sc n, m.unit = some sc → moves < 64 → s.descend c sc = some n →
            Answers (.placementDescent c m moves) s fun t => Sent (.placementDescent n m (moves + 1)) t))

/-- R331: sexit of a user strand whose core has no start waiting leaves its slot free with nothing in it, and no waiting or running vector, matrix or copy command, captured run, request at the interface, capture or loop of the core its own; in slot 0, sexit with a slot that is free changes nothing, and with one whose record no home holds and no occurrence completes ends that strand likewise and goes on; sexit of slot 0 itself, or naming slot 0, is an operand fault; that ARG is 51 or 48 is the model's choice (log 44). -/
def Obligations.StrandEnd : Prop :=
  ∀ (g : Guard) (k : BitVec 3) (s : State), s.me.guard g = true →
    let gone (t : State) (n : Nat) : Prop := (t.core s.cur.core).strand n = {}
      ∧ (∀ c, c ∈ (t.core s.cur.core).vbuf → c.slot ≠ n) ∧ (∀ c, c ∈ (t.core s.cur.core).mq → c.slot ≠ n)
      ∧ (∀ c, c ∈ (t.core s.cur.core).copies → c.slot ≠ n) ∧ (∀ c, c ∈ (t.core s.cur.core).run → c.slot ≠ n)
      ∧ (∀ c, (t.core s.cur.core).vcur = some c ∨ (t.core s.cur.core).mcur = some c → c.slot ≠ n)
      ∧ (∀ q, q ∈ (t.core s.cur.core).reqs → q.2.slot ≠ n)
      ∧ (t.core s.cur.core).seq ≠ .capturing n ∧ ∀ l d, (t.core s.cur.core).seq ≠ .looping n l d
    (s.cur.slot ≠ 0 → s.cur.slot < 8 → s.myCore.starts = [] → Answers (.sexit g none) s fun t => gone t s.cur.slot)
    ∧ (s.cur.slot = 0 → exec (.sexit g none) s = .next (s.raiseMe (s.illegal 5 51))
        ∧ exec (.sexit g (some 0)) s = .next (s.raiseMe (s.illegal 5 48)))
    ∧ (s.cur.slot = 0 → k ≠ 0 →
        ((s.myCore.strand k.toNat).mode = .free → Completes (.sexit g (some k)) s s.me)
        ∧ ((s.myCore.strand k.toNat).mode ≠ .free → (s.myCore.strand k.toNat).offer.st ≠ .held →
            (∀ n, (s.myCore.strand k.toNat).offer.st ≠ .done n) → s.myCore.starts = [] → Answers (.sexit g (some k)) s fun t =>
              gone t k.toNat ∧ t.me.pc = nextPc s.me.pc ∧ t.me.g = s.me.g ∧ t.me.issued = none))

/-- R332, R334: in slot 0, smove of an empty slot gives 1, of a TRAPPED strand to an image 4; smove.hold of an empty slot gives 1, of a TRAPPED or held strand 4; smove of a held one that does not move leaves it held (here one with a parked access, 4); smove.hold takes a strand that waits in nnext or amnext after it, one that stands stalled at issue, at once, with 0; a strand that runs is asked for and smove.hold waits; smove.release of a strand that is not held gives 1 and lets go one held between instructions with 0. smove of a strand stalled at issue that owns no sequencer state, park slot, engine command or unacknowledged store, to another core that has a free slot and serves its context, takes the strand and sends it with its image; the answer that it has been placed completes smove with 0, and the old slot is free where no start waits, with a forwarding entry for the old id. That a TRAPPED strand is answered at once, and that one in nnext or amnext is taken after the instruction (R106), are the model's choices (log 45). -/
def Obligations.StrandMoves : Prop :=
  ∀ (g : Guard) (d a : Reg) (k : BitVec 3) (image : Bool) (c : CoreId) (v : Nat) (r : Answer) (s : State), s.me.guard g = true →
    s.cur.slot = 0 → k ≠ 0 →
    let x := s.myCore.strand k.toNat
    let t0 : StrandId := ⟨s.cur.core, k.toNat⟩
    (s.me.hold = .none →
      (x.mode = .free → Completes (.smove g d a k image) s (s.me.wg d 1) ∧ Completes (.smoveHold g d k) s (s.me.wg d 1)
        ∧ Completes (.smoveRelease g d k) s (s.me.wg d 1))
      ∧ (x.mode = .trapped → x.taker = none → Completes (.smove g d a k true) s (s.me.wg d 4) ∧ Completes (.smoveHold g d k) s (s.me.wg d 4)
        ∧ Completes (.smoveRelease g d k) s (s.me.wg d 1))
      ∧ (x.mode = .taken → Completes (.smoveHold g d k) s (s.me.wg d 4))
      ∧ (x.mode = .taken → x.taker = some false → x.issued = none → x.parks ≠ [] → Completes (.smove g d a k true) s (s.me.wg d 4))
      ∧ (x.waitsNet = true ∨ x.waitsAm = true → Answers (.smoveHold g d k) s fun t =>
          t.myCore.strand k.toNat = { x with pc := nextPc x.pc, mode := .taken, checkT := false, taker := some false, hold := .none, issued := none })
      ∧ (x.mode = .ready → x.stalled = true → Answers (.smoveHold g d k) s fun t =>
          t.myCore.strand k.toNat = { x with mode := .taken, checkT := false, taker := some false, hold := .none, issued := none }
          ∧ t.me = { s.me.wg d 0 with left := s.leftIssued }.goesOn (nextPc s.me.pc) false ∧ SameMem s t)
      ∧ (x.mode = .ready → x.stalled = false → x.atYield = false → Answers (.smoveHold g d k) s fun t =>
          t.myCore.strand k.toNat = { x with taker := some false } ∧ t.me.issued = some (.smoveHold g d k) ∧ t.me.pc = s.me.pc)
      ∧ (x.mode = .taken → x.issued = none → Answers (.smoveRelease g d k) s fun t =>
          t.myCore.strand k.toNat = { x with mode := .ready, taker := none }
          ∧ t.me = { s.me.wg d 0 with left := s.leftIssued }.goesOn (nextPc s.me.pc) false ∧ SameMem s t)
      ∧ (x.mode = .ready → x.stalled = true → x.parks = [] → s.strandBusy t0 = false → s.moveStuck t0 = false → s.myCore.seq = .idle →
          s.moveTarget (s.rg a) = some c → c.key ≠ s.cur.core.key → (s.core c).freeSlot ≠ none → (s.core c).retired = false →
          s.pkgIn s.cur.core.pkg c.pkg = true → c.row < 200 → (s.core c).ctx = s.myCore.ctx →
          Answers (.smove g d a k false) s fun t =>
            t.me.hold = .wait s.myCore.nextTag ∧ (t.myCore.strand k.toNat).mode = .taken
            ∧ ∃ m, m.hdr = ⟨c, s.cur.core, 0, s.myCore.nextTag, s.myCore.ctx, {}⟩ ∧ m.moved = some k.toNat ∧ (m.image.map List.length) = some 128
              ∧ (m.image.getD []).getD 0 0 = x.pc ∧ (m.image.getD []).getD 2 0 = x.sticky ∧ Sent (.strandStartArrival m) t))
    ∧ (s.me.hold = .got r → r.status = .ack → r.data.getD 0 0 = 0 → r.data.getD 1 0 = BitVec.ofNat 64 v → v < 2 ^ 32 → s.myCore.starts = [] →
        strandOfGid v ≠ s.cur →
        Answers (.smove g d a k false) s fun t => t.myCore.strand k.toNat = {} ∧ t.me.pc = nextPc s.me.pc ∧ t.me.rg d = 0 ∧ SameMem s t
          ∧ ∃ f, f ∈ t.myCore.forwards ∧ f.old = t0.gid ∧ f.new_ = v)

/-- R341: a syscall of a strand that is not resident is refused with EVROLE; one that passes its checks stalls while a bound tile is not ready for the offer (before the request is sent: the model's choice, log 43), and otherwise, its stores acknowledged, sends the request (context, call number and strand id; six registers from ga; the handle) to the port of its I/O die and waits; once the port has accepted it, the strand offers the reply event as a yield point with no deadline, and its record is OPEN. hostirq with its stores acknowledged makes its identity pending in the hart's interrupt file, identity 0 none. -/
def Obligations.SystemCalls : Prop :=
  ∀ (g : Guard) (d a : Reg) (num : BitVec 16) (e : EReg) (hart file : BitVec 3) (id : BitVec 11) (r : Answer) (s : State),
    s.me.guard g = true →
    let i : Instr := .syscall g d a num e
    let h := s.me.re e
    let die : Nat := if s.cur.core.col / 128 % 4 < 2 then 0 else 1
    (s.me.hold = .none → s.me.issued = none → s.me.mode = .ready →
      (s.me.role ≠ 0 → exec i s = .next (s.charge.raiseMe (s.fault 0x88)))
      ∧ (s.charge.syscallFault e = none → s.myCore.offerReady [s.me.bindOf e] = false → Stalls i s)
      ∧ (s.charge.syscallFault e = none → s.myCore.offerReady [s.me.bindOf e] = true → s.me.unacked = 0 → s.fenceStuck s.cur .pkg true = false → Asks i s fun tag =>
          .syscallRequest ⟨⟨portCore s.cur.core.pkg die, s.cur.core, s.cur.slot, tag, s.ctx, {}⟩, die,
            BitVec.ofNat 64 (s.ctx % 2 ^ 16 * 2 ^ 48 + num.toNat * 2 ^ 32 + s.cur.gid % 2 ^ 32)
              :: [s.rg a, s.rg (a + 1), s.rg (a + 2), s.rg (a + 3), s.rg (a + 4), s.rg (a + 5), h]⟩))
    ∧ (s.me.hold = .got r → r.status = .ack → s.myCore.offerReady [s.me.bindOf e] = true → s.me.taker = none → s.me.notices = [] →
        Answers i s fun t =>
          let ev := s.evIdOf s.ctx s.cur.core h
          t.me.offer.st = .opened ∧ t.me.offer.resReg = d ∧ t.me.offer.deadline = none ∧ t.me.mode = .waiting ∧ t.me.pc = s.me.pc
          ∧ t.me.offer.named = [⟨0, ev, s.homeOf s.cur.core ev, hRank h, false, s.me.bindOf e⟩]
          ∧ ∃ m, m.ev = ev ∧ m.home = s.homeOf s.cur.core ev ∧ m.who = .strand s.cur ∧ m.rank = hRank h ∧ m.poll = false ∧ Sent (.offerArrival m) t)
    ∧ (s.cur.slot = 0 → s.me.unacked = 0 → s.stuckWrites s.cur.core = false → Answers (.hostirq g hart file id) s fun t =>
        t.me = { s.me with left := s.leftIssued }.goesOn (nextPc s.me.pc) false
        ∧ (id ≠ 0 → (hart.toNat, file.toNat, id.toNat) ∈ (t.pkg s.cur.core.pkg).imsic)
        ∧ (∀ q, q ∈ (t.pkg s.cur.core.pkg).imsic → q ∈ (s.pkg s.cur.core.pkg).imsic ∨ (id ≠ 0 ∧ q = (hart.toNat, file.toNat, id.toNat)))
        ∧ (∀ p, p ≠ s.cur.core.pkg → t.pkg p = s.pkg p))

/-- R342, R378, R379: a request at a port whose ring has a size and room is written as the 64-byte entry at REQTAIL, REQTAIL advances modulo 2^32, and the sender gets an acknowledgement; a full ring or one without a size answers RETRY and changes nothing. A write of RSPTAIL takes every entry up to it, at most a ring of them, RSPHEAD follows, and each entry taken whose handle, strand id, event and length R379 admits, no reply or offer of its event being live, is sent to its strand's core with its bytes. A reply at its core is offered there as rank 0 of the handle's event, relayed where the strand has moved, and sent again later where the core is machine-checked. -/
def Obligations.SystemCallPort : Prop :=
  ∀ (m : SyscallMsg) (q : SysReplyMsg) (pkg die l : Nat) (tail : BitVec 32) (s : State),
    (let p := (s.pkg m.hdr.target.pkg).port_ m.die
     let used := (p.reqTail.toNat + 2 ^ 32 - p.reqHead.toNat) % 2 ^ 32
     let at_ := bitsN p.reqBase.toNat 39 6 * 64 + 64 * (p.reqTail.toNat % 2 ^ l)
     s.fencedHdr m.hdr = false → m.hdr.odd = {} →
      (ringLog p.reqLog = some l → used ≠ 2 ^ l → m.words.length = 8 → s.mem.wf = true → Answers (.syscallRequest m) s fun t =>
        (∀ i, i < 8 → t.readN (memKey m.hdr.target.pkg (at_ + 8 * i)) 8 = (m.words.getD i 0).toNat)
        ∧ SameMemBut (memKey m.hdr.target.pkg at_) 64 (s.under 0 (memKey m.hdr.target.pkg at_) 64) t
        ∧ ((t.pkg m.hdr.target.pkg).port_ m.die).reqTail = BitVec.ofNat 64 ((p.reqTail.toNat + 1) % 2 ^ 32)
        ∧ ((t.pkg m.hdr.target.pkg).port_ m.die).reqHead = p.reqHead ∧ t.cores = s.cores ∧ Sent (replyTo m.hdr .ack 0 0 []) t)
      ∧ (ringLog p.reqLog = none ∨ (ringLog p.reqLog = some l ∧ used = 2 ^ l) → Answers (.syscallRequest m) s fun t =>
        Sent (replyTo m.hdr .retry 0 0 []) t ∧ t.pkgs = s.pkgs ∧ t.cores = s.cores ∧ SameMem s t))
    ∧ (let p := (s.pkg pkg).port_ die
       (ringLog p.rspLog = none → Answers (.rsptail pkg die tail) s fun t =>
          (t.pkg pkg).port_ die = { p with rspTail := tail.setWidth 64 } ∧ t.cores = s.cores ∧ t.agenda = s.agenda ∧ SameMem s t)
       ∧ (ringLog p.rspLog = some l → p.rspHead.toNat < 2 ^ 32 → Answers (.rsptail pkg die tail) s fun t =>
          let n := min (2 ^ l) ((tail.toNat + 2 ^ 32 - p.rspHead.toNat) % 2 ^ 32)
          let entry (j w : Nat) : Nat :=
            let k := memKey pkg (bitsN p.rspBase.toNat 39 7 * 128 + 128 * ((p.rspHead.toNat + j) % 2 ^ l))
            (s.under 0 k 128).readN (k + 8 * w) 8
          ((t.pkg pkg).port_ die).rspHead.toNat = (p.rspHead.toNat + n) % 2 ^ 32 ∧ ((t.pkg pkg).port_ die).rspTail = tail.setWidth 64
          ∧ t.cores = s.cores ∧ SameMem s t
          ∧ ∀ j, j < n →
            let h : Word := BitVec.ofNat 64 (entry j 0)
            let gid := bitsN (entry j 1) 31 0
            let len := bitsN (entry j 1) 38 32
            let c := (strandOfGid gid).core
            let d := (s.strandNow c gid).core
            let e := s.evIdOf (s.core d).ctx d h
            hOk h = true → c.row < 200 → s.pkgIn pkg c.pkg = true → s.portBusy e gid h = false →
            (∃ r, s.usable (s.homeOf d e) e = some r ∧ (r.kind = .sync ∧ len = 0 ∨ r.kind = .xfer ∧ len = r.size ∧ len ≤ 64)) →
            (∀ i, i < j → bitsN (entry i 1) 31 0 ≠ gid ∨ entry i 0 ≠ entry j 0) →
            Sent (.syscallReplyArrival ⟨c, BitVec.ofNat 32 gid, h, die, ((List.range 8).flatMap fun w => leBytes 8 (entry j (8 + w))).take len, portCore pkg die⟩) t))
    ∧ ((s.core q.core).mcheck = none → (∀ f, f ∈ (s.core q.core).forwards → f.old ≠ q.gid.toNat) → Answers (.syscallReplyArrival q) s fun t =>
        let ev := s.evIdOf (s.core q.core).ctx q.core q.handle
        ∃ n, Sent (.offerArrival
            ⟨s.homeOf q.core ev, ev, .hw q.core .port n, 0, 0, hKind q.handle, hSole q.handle, .bytes q.data, none, false, s.freeN⟩) t
          ∧ (t.offerRec (.hw q.core .port n)).st = .opened)
    ∧ (∀ f, (s.core q.core).mcheck = none → ((s.core q.core).forwards.find? fun f => f.old == q.gid.toNat) = some f →
        s.time q.core.pkg < f.until_ → Answers (.syscallReplyArrival q) s fun t =>
          Sent (.syscallReplyArrival { q with core := (strandOfGid f.new_).core, gid := BitVec.ofNat 32 f.new_, src := q.core }) t ∧ t.cores = s.cores)
    ∧ ((s.core q.core).mcheck ≠ none → Answers (.syscallReplyArrival q) s fun t => Sent (.syscallReplyArrival q) t ∧ t.cores = s.cores)

/-- R264, R274: evres completes with the upper 40 bits of g[gh] and the rank g[gr][23:0] in the e register, whose binding ends; evres.get with the e register's value in g[gd]; evput on a handle with SCOPE 0 to 4 and zero reserved bits with the binding named, or none for its clear form (the copy form needs KIND SYNC, else EVKIND); nothing else changes, and a handle that fails is the fault EVHANDLE. -/
def Obligations.EventRegisters : Prop :=
  ∀ (g : Guard) (e : EReg) (h r d : Reg) (c t : TReg) (s : State), s.me.guard g = true →
    let w := s.me.re e
    let binds (i : Instr) (b : Option Bind) : Prop :=
      Completes i s { s.me with binds := match b with | some b => s.me.binds.set e.toNat b | none => s.me.binds.del e.toNat }
    Completes (.evres g e h r) s { s.me.we e ((s.rg h).extractLsb' 24 40 ++ (s.rg r).extractLsb' 0 24) with binds := s.me.binds.del e.toNat }
    ∧ Completes (.evresGet g d e) s (s.me.wg d w)
    ∧ (hOk w = true → binds (.evput g e (.both c t)) (some (.data (some c) (some t))) ∧ binds (.evput g e (.nocont t)) (some (.data none (some t)))
        ∧ binds (.evput g e (.nodest c)) (some (.data (some c) none)) ∧ binds (.evput g e .clear) none
        ∧ (hKind w = .sync → binds (.evput g e .cp) (some .cp))
        ∧ (hKind w ≠ .sync → exec (.evput g e .cp) s = .next (s.charge.raiseMe (s.fault 0x8B))))
    ∧ (hOk w = false → ∀ f, exec (.evput g e f) s = .next (s.charge.raiseMe (s.fault 0x80)))

/-- R248 to R253, R267, R273, R275 to R277: evnew with a good EVPARAM, no record of the event and room at its home enters a record with the configuration of its descriptor and writes the handle; an existing record that can be used is EVEXISTS, one that waits to be freed holds evnew (the model's choice, log 55), a bad EVPARAM is its fault, and a sole SYNC event of 64 participants or fewer that names a gc is a reserved-field fault (the model's choice, log 40). evbind adds a region, at most four, evunbind removes those at its base (all of them: the model's choice, log 55) and is no fault where there is none, evcancel leaves a record that is not committing CANCELLED and one that commits to be cancelled after, evdel also frees a record with no live offer, evstat gives the status or configuration word, all ones for an event that has no record that can be used, of which the other uses fault EVNONE: none, one to be freed (log 55), or one lost from its overflow area (R380). The context is not fenced at the homes (R349). evtimer makes a SYNC event of two ranks at core scope and a timer for it; that its zero period reports ARG bit 62 is the model's choice (log 38). No byte of memory changes. -/
def Obligations.EventRecords : Prop :=
  ∀ (g : Guard) (k : EvKind) (sc : Scope) (sole cfg abs per : Bool) (e : EReg) (n p x b l d q : Reg) (s : State), s.me.guard g = true →
    let c := s.cur.core
    let h := mkHandle ((s.rg n).setWidth 32) sc k sole 0
    let ev := s.evIdOf s.ctx c h
    let home := s.homeOf c ev
    let w := (s.rg p).toNat
    let u := s.me.re e
    let uev := s.evIdOf s.ctx c u
    let uhome := s.homeOf c uev
    let tev := s.evIdOf s.ctx c (mkHandle ((s.rg n).setWidth 32) .core .sync false 1)
    s.fencedAt (crewPkg home) s.ctx = false → s.fencedAt (crewPkg uhome) s.ctx = false →
    let small := k = .sync ∧ sole = true ∧ w % 2 ^ 24 ≤ 64 ∧ x ≠ 0
    (small → exec (.evnew g k sc sole e n p x) s = .next (s.charge.raiseMe (s.illegal 4 56)))
    ∧ (¬ small → evParamBad k sole (s.rg p) (s.rg x) = true → exec (.evnew g k sc sole e n p x) s = .next (s.charge.raiseMe (s.fault 0x83)))
    ∧ (¬ small → evParamBad k sole (s.rg p) (s.rg x) = false →
        (∀ r, s.evRec home ev = some r →
            (s.usable home ev = some r → exec (.evnew g k sc sole e n p x) s = .next (s.charge.raiseMe (s.fault 0x82)))
            ∧ (r.dying = true → Answers (.evnew g k sc sole e n p x) s fun t =>
                t.me.issued = some (.evnew g k sc sole e n p x) ∧ t.me.pc = s.me.pc ∧ t.crews = s.crews ∧ SameMem s t))
        ∧ ((s.evRec home ev).isSome = false → ((s.crew home).events.filter fun r => r.inArea.isNone).length < 256 →
            Answers (.evnew g k sc sole e n p x) s fun t => SameMem s t
              ∧ (k ≠ .sync ∨ sole = false ∨ w % 2 ^ 24 ≤ 64 → t.me = { s.me.we e h with left := s.leftIssued }.goesOn (nextPc s.me.pc) false)
              ∧ t.me.pc = nextPc s.me.pc ∧ t.me.re e = h
              ∧ ∃ r, t.evRec home ev = some r ∧ r.kind = k ∧ r.sole = sole ∧ r.count = w % 2 ^ 24 ∧ r.size = w / 2 ^ 24 % 2 ^ 13
                ∧ r.op = w / 2 ^ 37 % 8 ∧ r.fanin = w / 2 ^ 40 % 4 ∧ r.settle = w / 2 ^ 42 % 2 ^ 12 ∧ r.st = .idle ∧ r.live = [] ∧ r.regions = []
                ∧ r.occ = 0 ∧ r.defer = 0))
    ∧ (hOk u = true → s.usable uhome uev = none →
        Completes (.evstat g cfg d e) s (s.me.wg d 0xFFFFFFFFFFFFFFFF)
        ∧ exec (.evcancel g e) s = .next (s.charge.raiseMe (s.fault 0x81)) ∧ exec (.evdel g e) s = .next (s.charge.raiseMe (s.fault 0x81))
        ∧ exec (.evbind g e b l) s = .next (s.charge.raiseMe (s.fault 0x81)) ∧ exec (.evunbind g e b) s = .next (s.charge.raiseMe (s.fault 0x81)))
    ∧ (∀ r, hOk u = true → s.usable uhome uev = some r → r.kind = hKind u → r.sole = hSole u →
        (let tells (cfg : Bool) (v : Word) : Prop := Answers (.evstat g cfg d e) s fun t => SameMem s t
            ∧ t.me = { s.me.wg d v with left := s.leftIssued }.goesOn (nextPc s.me.pc) false
            ∧ (∀ q, q.key ≠ c.key → t.core q = s.core q) ∧ (t.evRec uhome uev).map EvRec.plain = some r.plain ∧ ∀ q, t.pkg q = s.pkg q
         tells false (BitVec.ofNat 64 (r.occ % 2 ^ 16 * 2 ^ 48 + r.missed % 256 * 2 ^ 40 + evStNum r.st * 2 ^ 36
          + r.defer % 256 * 2 ^ 24 + r.live.length % 2 ^ 24))
         ∧ tells true r.config)
        ∧ (let base := s.rg b
           let len := (s.rg l).toNat
           base.getLsbD 63 = false → mformOk base = true → base.toNat % 64 = 0 →
            (len % 64 = 0 → 0 < len → len ≤ 2 ^ 40 → r.regions.length < 4 → Answers (.evbind g e b l) s fun t => SameMem s t
              ∧ t.me = { s.me with left := s.leftIssued }.goesOn (nextPc s.me.pc) false
              ∧ (t.evRec uhome uev).map EvRec.regions = some (r.regions ++ [(base, s.rg l)]))
            ∧ (len % 64 = 0 → 0 < len → len ≤ 2 ^ 40 → 4 ≤ r.regions.length → exec (.evbind g e b l) s = .next (s.charge.raiseMe (s.fault 0x8C))))
        ∧ (Answers (.evunbind g e b) s fun t => SameMem s t ∧ t.me = { s.me with left := s.leftIssued }.goesOn (nextPc s.me.pc) false
              ∧ (t.evRec uhome uev).map EvRec.regions = some (r.regions.filter fun z => z.1 != s.rg b))
        ∧ (r.st ≠ .committing → Answers (.evcancel g e) s (fun t => SameMem s t ∧ t.me.pc = nextPc s.me.pc ∧ t.me.g = s.me.g
              ∧ (t.evRec uhome uev).map EvRec.st = some .cancelled)
            ∧ (r.live = [] → Answers (.evdel g e) s fun t => SameMem s t ∧ t.me.pc = nextPc s.me.pc ∧ t.me.g = s.me.g
              ∧ t.evRec uhome uev = none ∧ ∀ tm, tm ∈ (t.crew uhome).timers → tm.ev ≠ uev))
        ∧ (r.st = .committing → Answers (.evcancel g e) s fun t => SameMem s t ∧ t.me.pc = nextPc s.me.pc
              ∧ (t.evRec uhome uev).map EvRec.cancelLater = some true ∧ (t.evRec uhome uev).map EvRec.st = some .committing))
    ∧ (per = true → s.rg q = 0 → exec (.evtimer g abs per e n q) s = .next (s.charge.raiseMe (s.illegal 5 62)))
    ∧ ((per = true → s.rg q ≠ 0) → (s.evRec c.crewNo tev).isSome = false → (s.crew c.crewNo).timers.length < 64 →
        ((s.crew c.crewNo).events.filter fun r => r.inArea.isNone).length < 256 → Answers (.evtimer g abs per e n q) s fun t =>
          let due := if abs then (s.rg q).toNat else (s.time c.pkg + (s.rg q).toNat) % 2 ^ 64
          SameMem s t ∧ (t.evRec c.crewNo tev).map EvRec.count = some 2 ∧ (t.evRec c.crewNo tev).map EvRec.kind = some .sync
          ∧ Sent (.timerExpiry c.crewNo tev) t ∧ t.me.pc = nextPc s.me.pc
          ∧ t.me.re e = mkHandle ((s.rg n).setWidth 32) .core .sync false 1
          ∧ ∃ tm, tm ∈ (t.crew c.crewNo).timers ∧ tm.ev = tev ∧ tm.core = c ∧ tm.expiry = due
            ∧ tm.period = if per then some (s.rg q).toNat else none)

/-- R254 to R256, R335: an offer whose checks pass and whose tiles are ready, with no move pending and no notice queued, reloads BUDGET, takes its destination tiles as FILLING, has its record OPEN with every used slot named, and sends each home its offer with slot, rank, kind and the places of the bound contribution and destination tiles, polling when the time is 0; it holds its strand at its PC. A tile that is not ready stalls it. When the record of a waiting strand has ended with a result, it takes the result in its register, its record is IDLE and it goes on at the next slot, the destination tile of each event named that has not occurred EMPTY again; a record that has not ended, or of a machine-checked core (R350), changes nothing. -/
def Obligations.OffersMade : Prop :=
  ∀ (g : Guard) (s0 s1 s2 s3 : Option EReg) (tm d : Reg) (z : StrandId) (s : State),
    (s.me.guard g = true → s.me.issued = none → s.cur.slot ≠ 0 → s.offerFault (usedSlots s0 s1 s2 s3) (s.rg tm) = none →
      let i : Instr := .offer g s0 s1 s2 s3 tm d
      let used := usedSlots s0 s1 s2 s3
      let ceil := if s.me.role = 0 then s.myCore.wdogRes else s.myCore.wdogHnd
      (s.myCore.offerReady (used.map fun p => s.me.bindOf p.2) = false → Stalls i s)
      ∧ (s.myCore.offerReady (used.map fun p => s.me.bindOf p.2) = true → s.me.taker = none → s.me.notices = [] → Answers i s fun t =>
          SameMem s t ∧ t.me.pc = s.me.pc ∧ t.me.mode = .waiting ∧ t.me.issued = some i ∧ t.me.g = s.me.g
          ∧ t.me.left = (if ceil < s.me.lastDl then ceil else s.me.lastDl) ∧ t.me.live = s.me.lastLive
          ∧ t.me.offer.st = .opened ∧ t.me.offer.resReg = d ∧ t.me.offer.named.map Named.slot = used.map Prod.fst
          ∧ t.me.offer.deadline = (if s.rg tm = 0 ∨ s.rg tm = 0xFFFFFFFFFFFFFFFF then none
              else some ((s.time s.cur.core.pkg + (s.rg tm).toNat) % 2 ^ 64))
          ∧ (∀ p, p ∈ used → ∀ dt, bindDest (s.me.bindOf p.2) = some dt → tileSt (t.myCore.tile dt) = 1)
          ∧ ∀ p, p ∈ used →
            let h := s.me.re p.2
            let ev := s.evIdOf s.ctx s.cur.core h
            ∃ m, Sent (.offerArrival m) t ∧ m.home = s.homeOf s.cur.core ev ∧ m.ev = ev ∧ m.who = .strand s.cur ∧ m.slot = p.1
              ∧ m.rank = hRank h ∧ m.kind = hKind h ∧ m.sole = hSole h ∧ m.poll = decide (s.rg tm = 0)
              ∧ m.contrib = (match bindCont (s.me.bindOf p.2) with
                  | some ct => .tile s.cur.core (tileBase (s.myCore.tile ct)) | none => .none)
              ∧ m.dest = (bindDest (s.me.bindOf p.2)).map fun dt => (s.cur.core, tileBase (s.myCore.tile dt))))
    ∧ (let x := s.strand z
       (∀ k, resultOf x.offer.st = some k → x.mode ≠ .taken → x.taker = none → x.offer.refused = none → x.offer.st ≠ .noticed → (s.core z.core).mcheck = none →
          Answers (.offerResult (.strand z)) s fun t => SameMem s t
            ∧ t.strand z = { x.wg x.offer.resReg (BitVec.ofNat 64 k) with
                mode := .ready, offer := {}, pc := nextPc x.pc, issued := none, hold := .none }
            ∧ ∀ m, m ∈ x.offer.named → ∀ dt, bindDest m.bind = some dt → x.offer.st ≠ .done m.slot →
                tileSt ((t.core z.core).tile dt) = 0)
       ∧ (resultOf x.offer.st = none ∨ (s.core z.core).mcheck ≠ none → Becomes (.offerResult (.strand z)) s s))

/-- R256, R257, R261: an offer for an event that has no record that can be used is refused with EVNONE (R256; that one to be freed counts as none is the model's choice, log 55, one lost from its overflow area is R380's), one of a context fenced there with FTARGET (R349), one that R256 does not admit with its detail; one for a cancelled event ends as CANCELLED where its record names the event still. An admitted offer is live for its rank, and an idle home of an event that is not sole, which an offer that does not poll enables, starts its settle window. At the window's end it claims with a new attempt, the first record in claim order first; an old window's end does nothing. A withdrawal ends the rank's live offer, and counts in DEFER where another event's commit took it from a full home. A refusal ends the OPEN record of its offer with its detail kept; one of an offer that has ended is discarded. -/
def Obligations.EventEnabling : Prop :=
  ∀ (m : OfferMsg) (home : Nat) (ev : EvId) (rank win : Nat) (w : RecRef) (commit : Bool) (dt serial from_ : Nat) (z : StrandId) (s : State),
    let fenced := s.fencedAt (crewPkg m.home) m.ev.ctx
    (fenced = true → Answers (.offerArrival m) s fun t => Sent (.offerRefusal m.who m.ev ⟨0x93, m.serial, m.home⟩) t ∧ t.crews = s.crews ∧ SameMem s t)
    ∧ (fenced = false → s.usable m.home m.ev = none → Answers (.offerArrival m) s fun t =>
        Sent (.offerRefusal m.who m.ev ⟨0x81, m.serial, m.home⟩) t ∧ t.crews = s.crews ∧ SameMem s t)
    ∧ (∀ r, fenced = false → s.usable m.home m.ev = some r → ¬ (r.sole = true ∧ r.kind = .sync ∧ 64 < r.count) →
        (r.st = .cancelled → m.who = .strand z → (s.strand z).offer.st = .opened → (∃ n, n ∈ (s.strand z).offer.named ∧ n.ev = m.ev) →
            (s.core z.core).mcheck = none → Answers (.offerArrival m) s fun t =>
          (t.strand z).offer.st = .cancelled ∧ SameMem s t)
        ∧ (∀ d, r.st ≠ .cancelled → r.refusal m = some d → Answers (.offerArrival m) s fun t =>
            Sent (.offerRefusal m.who m.ev ⟨d, m.serial, m.home⟩) t ∧ (t.evRec m.home m.ev).map EvRec.live = some r.live ∧ SameMem s t)
        ∧ (r.st = .idle → r.sole = false → r.refusal m = none → m.poll = false →
            Answers (.offerArrival m) s fun t => SameMem s t ∧ t.cores = s.cores
              ∧ ∃ r', t.evRec m.home m.ev = some r' ∧ r'.live = r.live.set m.rank ⟨m.who, m.slot, m.contrib, m.dest, m.poll, m.serial⟩
                ∧ (r'.live.length = r.count → r'.st = .settling ∧ r'.window = r.window + 1
                    ∧ Sent (.settleWindowEnd m.home m.ev (r.window + 1)) t)
                ∧ (r'.live.length ≠ r.count → r'.st = .idle)))
    ∧ (∀ r, s.evRec home ev = some r →
        (r.st = .settling → r.window = win → Answers (.settleWindowEnd home ev win) s fun t => SameMem s t ∧ t.cores = s.cores
          ∧ ∃ r', t.evRec home ev = some r' ∧ r'.attempt = r.attempt + 1 ∧ r'.live = r.live
            ∧ (∀ x, r.nextClaim = some x → r'.st = .claiming ∧ Sent (.claim ⟨home, ev, x, r.defer, r.attempt + 1⟩) t))
        ∧ (r.st ≠ .settling ∨ r.window ≠ win → Becomes (.settleWindowEnd home ev win) s s)
        ∧ (∀ o, (rank, o) ∈ r.live → o.who = w → r.st ≠ .claiming → r.dying = false → (∀ p, p ∈ r.live → p.2.poll = false) → Answers (.withdrawal home ev rank w commit) s fun t =>
            SameMem s t ∧ t.cores = s.cores ∧ ∃ r', t.evRec home ev = some r' ∧ (∀ p, p ∈ r'.live ↔ p ∈ r.live ∧ p.1 ≠ rank)
              ∧ r'.defer = (if commit = true ∧ r.live.length = r.count then min 255 (r.defer + 1) else r.defer)
              ∧ (r.st = .settling → r'.st = .idle)))
    ∧ ((s.strand z).offer.serial ≠ serial → Becomes (.offerRefusal (.strand z) ev ⟨dt, serial, from_⟩) s s)
    ∧ ((s.strand z).offer.st = .opened → (∃ n, n ∈ (s.strand z).offer.named ∧ n.ev = ev) → (s.core z.core).mcheck = none →
        (s.strand z).offer.serial = serial → Answers (.offerRefusal (.strand z) ev ⟨dt, serial, from_⟩) s fun t =>
        SameMem s t ∧ (t.strand z).offer.st = .cancelled ∧ (t.strand z).offer.refused = some dt ∧ Sent (.offerResult (.strand z)) t)

/-- R258 to R260, R391: a claim meets an OPEN record of a core that runs and that names the event: it becomes HELD by that home and attempt, and the claim is granted; a HELD record answers busy and the home waits on it; a home that outranks the holder, with a greater DEFER or an equal one and the lesser NAME, has YIELD sent to the holder once and is the beneficiary unless it does not outrank the present one; a RESERVED record is granted to the event it is reserved for and answers another busy, which waits on it; a record that does not name the event, or of a machine-checked core, answers gone. A granted claim of the current attempt leads to the next claim in order, or once every record is held to the commit; busy releases every hold and waits; gone returns the home to IDLE; a reply of an old attempt does nothing. YIELD at a claiming home releases its holds. A release by its holder of a record with nothing pending reserves it for its beneficiary for 2,048 ticks when the release answers a yield and it has one, reopens it otherwise, and sends the homes that wait a notice, at which an enabled home claims anew; a home that released on the record's own yield is sent the notice too. A reservation that lapses reopens its record, with notices. -/
def Obligations.EventClaims : Prop :=
  ∀ (m : ClaimMsg) (z : StrandId) (home : Nat) (ev : EvId) (y : Bool) (tick : Nat) (s : State),
    let x := (s.strand z).offer
    let e : Claimant := ⟨m.home, m.ev, m.defer, m.attempt⟩
    let above (a b : Claimant) : Prop := b.defer < a.defer ∨ (a.defer = b.defer ∧ a.ev.name.toNat < b.ev.name.toNat)
    (m.who = .strand z →
      ((s.core z.core).mcheck = none → (∃ n, n ∈ x.named ∧ n.ev = m.ev) →
        (x.st = .opened → Answers (.claim m) s fun t => SameMem s t ∧ Sent (.claimReply m .granted) t
            ∧ (t.strand z).offer = { x with st := .held, holder := some e, benef := none, yielded := false })
        ∧ (∀ f, x.st = .held → x.holder = some f → Answers (.claim m) s fun t => SameMem s t ∧ Sent (.claimReply m .busy) t
            ∧ (t.strand z).offer.st = .held ∧ (t.strand z).offer.holder = some f ∧ e ∈ (t.strand z).offer.waiters
            ∧ (above e f → (t.strand z).offer.yielded = true ∧ (x.yielded = false → Sent (.yieldMessage f.home f.ev (.strand z)) t)
                ∧ (x.benef = none → (t.strand z).offer.benef = some e)
                ∧ ∀ b, x.benef = some b → (above e b → (t.strand z).offer.benef = some e) ∧ (¬ above e b → (t.strand z).offer.benef = some b))
            ∧ (¬ above e f → (t.strand z).offer.yielded = x.yielded ∧ (t.strand z).offer.benef = x.benef ∧ t.agenda.length = s.agenda.length + 1))
        ∧ (∀ b, x.st = .reserved → x.benef = some b →
            (b.home = m.home → b.ev = m.ev → Answers (.claim m) s fun t => SameMem s t ∧ Sent (.claimReply m .granted) t
              ∧ (t.strand z).offer = { x with st := .held, holder := some e, benef := none, yielded := false, waiters := [] }
              ∧ ∀ q, q ∈ x.waiters → Sent (.resolutionNotice q.home q.ev (.strand z)) t)
            ∧ (b.home ≠ m.home ∨ b.ev ≠ m.ev → Answers (.claim m) s fun t => SameMem s t ∧ Sent (.claimReply m .busy) t
              ∧ (t.strand z).offer.st = .reserved ∧ (t.strand z).offer.benef = some b ∧ e ∈ (t.strand z).offer.waiters)))
      ∧ ((s.core z.core).mcheck ≠ none ∨ (∀ n, n ∈ x.named → n.ev ≠ m.ev) → Answers (.claim m) s fun t =>
          Sent (.claimReply m .gone) t ∧ t.cores = s.cores ∧ SameMem s t)
      ∧ (∀ h, x.holder = some h → x.st = .held → h.home = m.home → h.ev = m.ev → h.attempt = m.attempt → x.refused = none →
          x.cancelReq = false → x.noticeReq = false → x.expired = false → (s.core z.core).mcheck = none → Answers (.release m y) s fun t => SameMem s t
            ∧ (x.benef = none ∨ y = false →
                (t.strand z).offer = { x with st := .opened, holder := none, benef := none, yielded := false, waiters := [] })
            ∧ (∀ b, x.benef = some b → y = true → (t.strand z).offer =
                { x with st := .reserved, holder := none, yielded := false, waiters := [], until_ := s.time z.core.pkg + 2048 })
            ∧ (y = true → x.yielded = true → Sent (.resolutionNotice h.home h.ev (.strand z)) t)
            ∧ ∀ q, q ∈ x.waiters → Sent (.resolutionNotice q.home q.ev (.strand z)) t)
      ∧ (∀ h, x.holder = some h → h.attempt ≠ m.attempt → Becomes (.release m y) s s))
    ∧ (∀ r, s.evRec m.home m.ev = some r → r.st = .claiming →
        (r.attempt = m.attempt →
          (Answers (.claimReply m .granted) s fun t => SameMem s t ∧ t.cores = s.cores ∧
            let r' := { r with held := r.held ++ [m.who] }
            (∀ q, r'.nextClaim = some q → (t.evRec m.home m.ev).map EvRec.plain = some r'.plain ∧ Sent (.claim ⟨m.home, m.ev, q, r.defer, r.attempt⟩) t)
            ∧ (r'.nextClaim = none → (t.evRec m.home m.ev).map EvRec.st = some .committing ∧ Sent (.eventCommit m.home m.ev) t))
          ∧ ((∀ p, p ∈ r.live → p.2.poll = false) →
            Answers (.claimReply m .busy) s (fun t => SameMem s t ∧ t.cores = s.cores
              ∧ (t.evRec m.home m.ev).map EvRec.plain = some { r with held := [], attempt := r.attempt + 1, waitOn := some m.who }.plain
              ∧ ∀ q, q ∈ r.held → ∃ n, Sent (.release n false) t ∧ n.who = q ∧ n.attempt = r.attempt)
            ∧ Answers (.claimReply m .gone) s fun t => SameMem s t ∧ t.cores = s.cores
              ∧ (t.evRec m.home m.ev).map EvRec.plain = some { r with held := [], attempt := r.attempt + 1, waitOn := none, st := .idle }.plain))
        ∧ (∀ a, r.attempt ≠ m.attempt → Becomes (.claimReply m a) s s))
    ∧ (∀ r, s.evRec home ev = some r → r.st = .claiming →
        (r.waitOn = none → RecRef.strand z ∈ r.held → (∀ p, p ∈ r.live → p.2.poll = false) → Answers (.yieldMessage home ev (.strand z)) s fun t =>
          SameMem s t ∧ t.cores = s.cores
          ∧ (t.evRec home ev).map EvRec.plain = some { r with held := [], attempt := r.attempt + 1, waitOn := some (.strand z) }.plain)
        ∧ (r.waitOn = some (.strand z) → r.live.length = r.count → Answers (.resolutionNotice home ev (.strand z)) s fun t =>
          SameMem s t ∧ t.cores = s.cores ∧ ∃ r', t.evRec home ev = some r' ∧ r'.attempt = r.attempt + 1 ∧ r'.waitOn = none
            ∧ ∀ q, r.nextClaim = some q → Sent (.claim ⟨home, ev, q, r.defer, r.attempt + 1⟩) t))
    ∧ (∀ b, x.st = .reserved → x.until_ = tick → x.benef = some b → b.ev = ev → (s.core z.core).mcheck = none → Answers (.reservationLapse (.strand z) ev tick) s fun t =>
        SameMem s t ∧ (t.strand z).offer = { x with st := .opened, benef := none, waiters := [] }
          ∧ ∀ q, q ∈ x.waiters → Sent (.resolutionNotice q.home q.ev (.strand z)) t)

/-- R261, R265, R266, R268, R269: at a commit whose records all still stand for the event, each record is DONE with its slot, what met it while it was held being discarded, OCC rises by one, DEFER is 0 and no offer is live; phase 1 leaves no line of the bound regions dirty in a participant's crew, however it was reached in the event's context; phase 2 waits for the participants' stores, leaves no such line in their crews, and then the data moves, through a tree of partial results for REDUCE; an occurrence of XFER, GATHER or REDUCE (the root's result) writes its bytes at each destination and nothing else, SYNC none, makes the destination tiles READY and each offer's result due, and leaves the record IDLE. A home that is no longer full, or whose records no longer stand for the event, goes back to IDLE with nothing done. Destinations here lie in different cores, no core is machine-checked, and for the clauses on regions the lines' leases stand, ports work on the ways to their homes and no .c entry is open. -/
def Obligations.EventOccurs : Prop :=
  ∀ (home : Nat) (ev : EvId) (rank : Nat) (s : State) (r : EvRec), s.evRec home ev = some r → r.st = .committing →
    let apart (l : SMap LiveOffer) : Prop := ∀ p q, p ∈ l → q ∈ l →
      (p.2.who = q.2.who → p = q) ∧ ((recCore p.2.who).key = (recCore q.2.who).key → recCore p.2.who = recCore q.2.who)
    let flows : Prop := r.regIn = r.regions ∧ ∀ w, (s.crew w).comb = [] ∧ ((s.crew w).lines.map Prod.fst).Nodup
      ∧ ∀ p, p ∈ (s.crew w).lines → (∀ n, p.2.lease = some n → leaseLate (s.time (p.1 / 2 ^ 34)) n = false)
        ∧ (s.wayTo (crewPkg w) (p.1 / 2 ^ 34) (p.1 % 2 ^ 34 * 64)).any isWait = false
    (r.live.length = r.count → (∀ p, p ∈ r.live → s.commits home r p.2 = true ∧ (s.core (recCore p.2.who)).mcheck = none) → apart r.live → Answers (.eventCommit home ev) s fun t =>
        (∀ p, p ∈ r.live → (t.offerRec p.2.who).st = .done p.2.slot ∧ (t.offerRec p.2.who).holder = none ∧ (t.offerRec p.2.who).refused = none
            ∧ (t.offerRec p.2.who).cancelReq = false ∧ (t.offerRec p.2.who).noticeReq = false ∧ (t.offerRec p.2.who).expired = false)
        ∧ (∃ r', t.evRec home ev = some r' ∧ r'.occ = r.occ + 1 ∧ r'.defer = 0 ∧ r'.live = [] ∧ r'.occIn = r.live ∧ r'.st = .committing)
        ∧ Sent (.consistencyPhase2 home ev) t
        ∧ (flows → ∀ p q, p ∈ r.live → q ∈ (t.crew (recCore p.2.who).crewNo).lines → inRegions ev.ctx r.regions q.2.src = true → q.2.dirty = false))
    ∧ (r.live.length ≠ r.count ∨ (∃ p, p ∈ r.live ∧ s.commits home r p.2 = false) → Answers (.eventCommit home ev) s fun t =>
        (t.evRec home ev).map EvRec.st = some .idle ∧ t.cores = s.cores ∧ SameMem s t)
    ∧ ((∀ p, p ∈ r.occIn → s.acked p.2.who = true ∧ s.phaseStuck ev.ctx r.regIn p.2.who = false) →
        (flows → Answers (.consistencyPhase2 home ev) s fun t =>
          ∀ p q, p ∈ r.occIn → q ∈ (t.crew (recCore p.2.who).crewNo).lines → inRegions ev.ctx r.regions q.2.src = false)
        ∧ (r.kind ≠ .reduce → Answers (.consistencyPhase2 home ev) s fun t => Sent (.occurrenceData home ev) t)
        ∧ (r.kind = .reduce → Answers (.consistencyPhase2 home ev) s fun t =>
            ∀ x, x < r.count → (treeKids r.fan r.count x) = [] → Sent (.reduceNode home ev x) t))
    ∧ ((∃ p, p ∈ r.occIn ∧ s.acked p.2.who = false) → Answers (.consistencyPhase2 home ev) s fun t =>
        Sent (.consistencyPhase2 home ev) t ∧ t.cores = s.cores ∧ SameMem s t)
    ∧ (r.parts.has rank = false → (∀ y, y ∈ treeKids r.fan r.count rank → r.parts.has y = true) → Answers (.reduceNode home ev rank) s fun t =>
        SameMem s t ∧ t.cores = s.cores
        ∧ (t.evRec home ev).map EvRec.parts = some (r.parts.set rank ((treeKids r.fan r.count rank).foldl
            (fun a y => combine r.op (r.size / (if r.op = 1 then 2 else 4)) a (r.parts.get [] y)) (s.rankBytes r rank)))
        ∧ (rank = 0 → Sent (.occurrenceData home ev) t))
    ∧ (r.live = [] → r.count ≠ 0 → r.cancelLater = false → r.dying = false → Answers (.occurrenceData home ev) s fun t =>
        (∃ r', t.evRec home ev = some r' ∧ r'.st = .idle ∧ r'.occIn = [] ∧ r'.occ = r.occ)
        ∧ (∀ p, p ∈ r.occIn → Sent (.offerResult p.2.who) t)
        ∧ (r.kind = .sync → SameMem s t)
        ∧ (∀ p z n d, p ∈ r.occIn → p.2.who = .strand z → (s.core z.core).mcheck = none → n ∈ (s.strand z).offer.named → n.slot = p.2.slot →
            bindDest n.bind = some d → tileSt ((t.core z.core).tile d) = 2)
        ∧ (r.kind ≠ .sync → s.mem.wf = true →
            let bytes := if r.kind = .xfer then s.rankBytes r r.src else if r.kind = .reduce then r.parts.get [] 0
              else (List.range r.count).flatMap fun x => s.rankBytes r x
            let reach (c : CoreId) (b a : Nat) : Prop := sliceKey c b ≤ a ∧ a < sliceKey c b + bytes.length
            (∀ p c b, p ∈ r.occIn → p.2.dest = some (c, b) → b + bytes.length ≤ 131072 ∧ (s.core c).mcheck = none) →
            (∀ p q c b c' b', p ∈ r.occIn → q ∈ r.occIn → p.2.dest = some (c, b) → q.2.dest = some (c', b') → p = q ∨ c.key ≠ c'.key) →
            (∀ p c b, p ∈ r.occIn → p.2.dest = some (c, b) → t.mem.readBytes (sliceKey c b) bytes.length = bytes)
            ∧ ∀ a, (∀ p c b, p ∈ r.occIn → p.2.dest = some (c, b) → ¬ reach c b a) → t.mem.read a = s.mem.read a))

/-- R262, R271, R273, R328: at its deadline an OPEN record ends as TIMEDOUT with its offers withdrawn and its result due, a HELD one keeps it for its holder, and an ended or other one is unchanged; a completion notice is queued at its strand, and one for a strand that waits in an offer and could take the upcall (its save record, here in a slice, with INUSE 0) ends the offer as NOTICED; a timer whose tick has come offers its event as rank 0 and a one-shot timer is gone; a dissemination notice for a strand in no dissemination is kept, one for a strand that has moved goes on to it, and one at a machine-checked core does nothing. -/
def Obligations.OffersEnd : Prop :=
  ∀ (z : StrandId) (n : Notice) (crew : Nat) (ev : EvId) (round : RoundMsg) (tick : Nat) (par : Bool) (x : CoreId) (off : Nat) (s : State),
    let o := (s.strand z).offer
    (o.deadline = some tick → (s.core z.core).mcheck = none →
      (o.st = .opened → Answers (.offerDeadline (.strand z) tick) s fun t => SameMem s t ∧ (t.strand z).offer.st = .timedout
        ∧ Sent (.offerResult (.strand z)) t ∧ ∀ m, m ∈ o.named → Sent (.withdrawal m.home m.ev m.rank (.strand z) false) t)
      ∧ (o.st = .held → Answers (.offerDeadline (.strand z) tick) s fun t => SameMem s t ∧ (t.strand z).offer = { o with expired := true }))
    ∧ (o.deadline ≠ some tick → Becomes (.offerDeadline (.strand z) tick) s s)
    ∧ ((s.strand z).mode = .ready → o.st = .idle → (s.core z.core).mcheck = none → Answers (.completionNotice z n) s fun t => SameMem s t
        ∧ t.strand z = { s.strand z with notices := (s.strand z).notices ++ [n] })
    ∧ ((s.strand z).mode = .waiting → o.st = .opened → (s.strand z).hold = .phase 0 [] → (s.core z.core).mcheck = none →
        InSlice s z.core (s.ctxOf z) false ((s.strand z).uprec &&& ~~~(0x3F : Word)) 8 x off → (s.sliceWord x off 7).getLsbD 0 = false →
        Answers (.completionNotice z n) s fun t => SameMem s t ∧ (t.strand z).offer.st = .noticed
          ∧ (t.strand z).notices = (s.strand z).notices ++ [n] ∧ Sent (.offerResult (.strand z)) t)
    ∧ (∀ tm, ((s.crew crew).timers.find? fun t => t.ev == ev) = some tm →
        (s.time tm.core.pkg < tm.expiry → Becomes (.timerExpiry crew ev) s s)
        ∧ (tm.expiry ≤ s.time tm.core.pkg → tm.period = none → (∀ h, h ∈ (s.core tm.core).hwrecs → h.cls = .timer → h.n ≠ tm.n) →
            (s.core tm.core).mcheck = none →
            Answers (.timerExpiry crew ev) s fun t => SameMem s t ∧ (∀ q, q ∈ (t.crew crew).timers → q.ev ≠ ev)
              ∧ ∃ m, Sent (.offerArrival m) t ∧ m.who = .hw tm.core .timer tm.n ∧ m.rank = 0 ∧ m.kind = .sync)
        ∧ (∀ p, tm.expiry ≤ s.time tm.core.pkg → tm.period = some p → Answers (.timerExpiry crew ev) s fun t => SameMem s t
            ∧ Sent (.timerExpiry crew ev) t ∧ ∃ q, ((t.crew crew).timers.find? fun q => q.ev == ev) = some q
              ∧ q.expiry = tm.expiry + p ∧ q.period = tm.period ∧ q.core = tm.core ∧ q.ev = tm.ev))
    ∧ (let moved := (s.core z.core).forwards.find? fun f => f.old == z.gid
       (moved = none → (s.strand z).mode ≠ .free → (s.core z.core).mcheck = none → o.round = none →
          Answers (.disseminationNotice z ev round par) s fun t => SameMem s t
            ∧ t.strand z = { s.strand z with kept := (s.strand z).kept ++ [(ev, round.n, par)] })
       ∧ (∀ f, moved = some f → (s.core z.core).mcheck = none → s.time z.core.pkg < f.until_ → Answers (.disseminationNotice z ev round par) s fun t => SameMem s t
            ∧ Sent (.disseminationNotice (strandOfGid f.new_) ev ⟨round.n, z⟩ par) t ∧ t.cores = s.cores)
       ∧ ((s.core z.core).mcheck ≠ none → Becomes (.disseminationNotice z ev round par) s s))

/-- R128 to R135: for vadd, vsub, vmul, vfma, vmax, vmin, vabs, vneg, vcvt, vred, vscan, vclmul, vcmp, vsel, vpopc, vbcast, viota, vperm, vzip, vunzip, vsfu, vcompact, vexpand, vdot, vamax and csend, whose checks of R135 pass and whose operand conditions hold: the command enters the 16-entry buffer, and the run of the strand's own capture; its destination tiles are FILLING and its sources have one reader more; the strand goes on and no byte of memory, register or other core changes. It stalls while a condition fails, the buffer is full or another strand owns the sequencer; a failing check is its fault; a 17th instruction of a capture is VSEQ and abandons it. That a full buffer stalls it before its own checks are made is the model's choice (log 64). u is the state once the instruction has been counted. -/
def Obligations.VectorIssue : Prop :=
  ∀ (i : Instr) (g : Guard) (k : VKind) (t : VTy) (o : VOps) (s : State), vecOf i = some (k, t, o) → guardOf i = some g → s.me.guard g = true →
    let u := s.charge
    let c := s.myCore
    let mine := c.seq = .capturing s.cur.slot
    let plan := u.vPlan s.cur.core k t o (u.shapeWords s.cur.core o.shape.toNat) (s.scalarOf o.a) (s.scalarOf o.b) (s.scalarOf o.c)
    (c.seq ≠ .idle → ¬ mine → Stalls i s)
    ∧ (c.seq = .idle ∨ mine →
      (16 ≤ c.vbuf.length → Stalls i s)
      ∧ (c.vbuf.length < 16 →
        (mine → 16 ≤ c.run.length → exec i s = .next ((u.modMyCore fun c => { c with seq := .idle, run := [] }).raiseMe (s.fault 0x46)))
        ∧ (c.seq = .idle ∨ c.run.length < 16 →
          (∀ d m mark, plan = .bad d m mark → exec i s = .next (u.raiseMe (u.vFault d mark)))
          ∧ (∀ ws d a b cc, plan = .ok false ws d a b cc → Stalls i s)
          ∧ (∀ ws d a b cc, plan = .ok true ws d a b cc →
              let cmd : Cmd := ⟨i, s.cur.slot, s.cur.gid, s.ctx, s.me.pc, d, [a, b, cc], [s.scalarOf o.a, s.scalarOf o.b, s.scalarOf o.c], [ws], none, 0,
                none, false⟩
              let taken := c.take (vPOps k o).1 d (a ++ b ++ cc)
              CompletesCore i s { taken with vbuf := c.vbuf ++ [cmd], run := if c.seq = .capturing s.cur.slot then c.run ++ [cmd] else c.run } s.me
              ∧ (∀ x, x ∈ opTiles d → tileSt (taken.tile x) = 1)
              ∧ (∀ x, x ∉ opTiles d → taken.tile x = c.tile x)))))

/-- R128, R133: vseq.open of an idle sequencer opens a capture with an empty run, of one that the strand owns faults VSEQ, of another's stalls; vseq.loop by the capturing strand begins the number of replays in g[ga][31:0], or closes the capture for 0; vseq.stop by the owner closes the capture or abandons replays; both fault VSEQ otherwise. The head of the buffer starts when nothing runs; a replay starts once the buffer is empty, each of its commands with its shape record as it stands then, and with the last one's start the sequencer is idle; LOOPING over an empty run, which has no replay to start, ends by a step of the sequencer's own (log 64). -/
def Obligations.VectorSequencer : Prop :=
  ∀ (g : Guard) (a : Reg) (c : CoreId) (s : State),
    (s.me.guard g = true →
      let k := s.myCore
      let me := s.cur.slot
      let n := (s.rg a).toNat % 2 ^ 32
      (k.seq = .idle → CompletesCore (.vseqOpen g) s { k with seq := .capturing me, run := [] } s.me)
      ∧ (k.seq = .capturing me ∨ (∃ l d, k.seq = .looping me l d) → exec (.vseqOpen g) s = .next (s.charge.raiseMe (s.fault 0x46)))
      ∧ (∀ x, x ≠ me → k.seq = .capturing x ∨ (∃ l d, k.seq = .looping x l d) → Stalls (.vseqOpen g) s)
      ∧ (k.seq = .capturing me →
          CompletesCore (.vseqLoop g a) s { k with seq := if n = 0 then .idle else .looping me n 0 } s.me
          ∧ CompletesCore (.vseqStop g) s { k with seq := .idle, run := [] } s.me)
      ∧ (k.seq ≠ .capturing me → exec (.vseqLoop g a) s = .next (s.charge.raiseMe (s.fault 0x46))
          ∧ ((∀ l d, k.seq ≠ .looping me l d) → exec (.vseqStop g) s = .next (s.charge.raiseMe (s.fault 0x46))))
      ∧ (∀ l d, k.seq = .looping me l d → CompletesCore (.vseqStop g) s { k with seq := .idle } s.me))
    ∧ (let k := s.core c
       k.vcur = none → k.mcheck = none →
        (∀ cmd rest, k.vbuf = cmd :: rest → cmd.replay = 0 → Answers (.vectorInstructionStart c) s fun t =>
          t.core c = { k with vcur := some cmd, vbuf := rest } ∧ SameMem s t ∧ OnlyCore c s t)
        ∧ (∀ slot left done cmd rest u cmd', k.seq = .looping slot left done → k.vbuf = [] → k.run = cmd :: rest →
            s.vReplayResolve c (s.replayed c (done + 1) cmd) = some (u, some cmd') → Answers (.replayStart c) s fun t =>
              (t.core c).seq = (if left ≤ 1 then .idle else .looping slot (left - 1) (done + 1))
              ∧ (t.core c).vcur = some cmd'
              ∧ (t.core c).vbuf = rest.map (s.replayed c (done + 1)) ∧ SameMem s t)
        ∧ (∀ slot left done, k.seq = .looping slot left done → k.vbuf = [] → k.run = [] →
            Answers (.replayStart c) s fun t => t.core c = { k with seq := .idle } ∧ SameMem s t ∧ OnlyCore c s t))

/-- R125, R131, R137: at completion of a command on one destination tile, no part of it in a far slice, the results of the instruction's function on its sources stand at the places of its elements and nowhere else, the tile is READY, the flags are or-ed into the issuing strand's STICKY and no other register changes. Each element reads back as its result where no later one lies over it. For integer elements vadd, vsub, vmul, vfma, vabs, vneg and viota give the exact result modulo 2^w, or under SAT clamped to the type with VSAT; vmax, vmin, vcmp, vsel, vpopc, vclmul and integer vcvt give the values of R137, R138, R142 and R143; for floats the exact result is rounded once, a NaN operand gives the canonical NaN with NV for a signalling one, vabs and vneg touch the sign bit alone, vcmp is false for a NaN but for .ne and .un, vdot adds the products by the pairwise tree, integers modulo 2^32, and then the accumulating operand, vamax gives the greatest magnitude of each block of 32, and vsfu is the function of R146 as the model holds it; vred is the pairwise tree and vscan the running result along a row; vbcast, vperm, vzip, vunzip, vcompact and vexpand place their elements as R143 to R145 say. That the bytes are read and written in the completion step is the model's choice (log 24). -/
def Obligations.VectorCompletion : Prop :=
  (∀ (c : CoreId) (s : State) (cmd : Cmd) (k : VKind) (t : VTy) (o : VOps) (h : Shape) (d : Opnd),
    (s.core c).vcur = some cmd → (s.core c).mcheck = none → vecOf cmd.instr = some (k, t, o) → shapeOf (cmd.shapes.headD []) = some h →
    (∀ n, k ≠ .csend n) → h.split = false → cmd.dst = [d] → (opTile d).isSome = true → cmd.slot < 8 → o.advd = false → o.adva = false →
    o.advb = false → o.advc = false →
    let op (n : Nat) := cmd.srcs.getD n []
    let lays := vLays k t h
    let one (l : Lay) (xs : List Opnd) : List Nat := match xs with | [x] => s.elems c h l x | _ => []
    let r := vCompute k t o h ((op 0).map fun x => s.elems c h lays.2.1 x) (one lays.2.2.1 (op 1)) (one lays.2.2.2 (op 2))
    let vs := r.1.headD []
    let base := tileBase ((s.core c).tile ((opTile d).getD 0))
    r.1 = [vs] → Answers (.vectorCompletion c) s fun u =>
      (∀ a, (∀ m, m < vs.length → a < sliceKey c (lays.1.place h base m).2 ∨ sliceKey c (lays.1.place h base m).2 + lays.1.size ≤ a) →
        u.mem.read a = s.mem.read a)
      ∧ u.mem = (s.putElems c h lays.1 d vs).mem
      ∧ (s.mem.wf = true → ∀ m, m < vs.length → (∀ n, m < n → n < vs.length →
            (lays.1.place h base n).2 + lays.1.size ≤ (lays.1.place h base m).2 ∨ (lays.1.place h base m).2 + lays.1.size ≤ (lays.1.place h base n).2) →
          u.readN (sliceKey c (lays.1.place h base m).2) lays.1.size = vs.getD m 0 % 2 ^ (8 * lays.1.size))
      ∧ tileSt ((u.core c).tile ((opTile d).getD 0)) = 2 ∧ (u.core c).vcur = none
      ∧ (u.core c).strand cmd.slot = { (s.core c).strand cmd.slot with sticky := ((s.core c).strand cmd.slot).sticky ||| BitVec.ofNat 64 r.2 }
      ∧ (∀ n, n ≠ cmd.slot → (u.core c).strand n = (s.core c).strand n) ∧ OnlyCore c s u)
  ∧ (∀ (t : VTy) (o : VOps) (x y z : Nat), t.fmt = none → x < 2 ^ t.width → y < 2 ^ t.width → z < 2 ^ t.width →
      let w := t.width
      let sv (v : Nat) : Int := if t.isS = true ∧ 2 ^ (w - 1) ≤ v then (v : Int) - 2 ^ w else v
      let lo : Int := if t.isS then -2 ^ (w - 1) else 0
      let hi : Int := if t.isS then 2 ^ (w - 1) - 1 else 2 ^ w - 1
      let bits (e : Int) : Nat := (e % 2 ^ w).toNat
      let gives (r : Nat × Nat) (sat : Bool) (e : Int) : Prop := if sat = true ∧ e < lo then r = (bits lo, 0x800)
        else if sat = true ∧ hi < e then r = (bits hi, 0x800) else r = (bits e, 0)
      gives (vElem .add t o x y z) o.sat (sv x + sv y) ∧ gives (vElem .sub t o x y z) o.sat (sv x - sv y)
      ∧ gives (vElem .mul t o x y z) o.sat (sv x * sv y) ∧ gives (vElem .fma t o x y z) o.sat (sv x * sv y + sv z)
      ∧ gives (vElem .abs t o x y z) o.sat (sv x).natAbs ∧ gives (vElem .neg t o x y z) o.sat (-(sv x))
      ∧ vElem .max t o x y z = (if sv x < sv y then y else x, 0) ∧ vElem .min t o x y z = (if sv x < sv y then x else y, 0)
      ∧ vElem (.cmp .eq) t o x y z = (if x = y then 1 else 0, 0) ∧ vElem (.cmp .ne) t o x y z = (if x = y then 0 else 1, 0)
      ∧ vElem (.cmp .lt) t o x y z = (if sv x < sv y then 1 else 0, 0) ∧ vElem (.cmp .le) t o x y z = (if sv x ≤ sv y then 1 else 0, 0)
      ∧ vElem (.cmp .gt) t o x y z = (if sv y < sv x then 1 else 0, 0) ∧ vElem (.cmp .ge) t o x y z = (if sv y ≤ sv x then 1 else 0, 0)
      ∧ vElem .popc t o x y z = (((List.range w).filter fun i => x.testBit i).length, 0)
      ∧ (∀ i, i < w → ((vElem .clmul t o x y z).1.testBit i =
          (((List.range w).filter fun j => decide (j ≤ (if o.hi then i + w else i)) && x.testBit j && y.testBit ((if o.hi then i + w else i) - j)).length % 2 == 1)))
      ∧ (∀ (h : Shape) (c : List Nat) (m : Nat), m < h.count →
          let e (m : Nat) : Int := sv x + m * sv y
          let r := vCompute .iota t o h [[x]] [y] c
          (r.1.getD 0 []).getD m 0 = bits (if o.sat = true then max lo (min hi (e m)) else e m)
          ∧ (r.2.testBit 11 = true ↔ o.sat = true ∧ ∃ n, n < h.count ∧ (e n < lo ∨ hi < e n)))
      ∧ (∀ (h : Shape) (x1 x2 x3 x4 y1 y2 y3 y4 : Nat), h.ext = (5, 1, 1, 1) →
          (∀ v, v ∈ [x1, x2, x3, x4, y1, y2, y3, y4] → v < 2 ^ w) →
          let sum : Int := sv x * sv y + sv x1 * sv y1 + sv x2 * sv y2 + sv x3 * sv y3 + sv x4 * sv y4
          vCompute .dot t o h [[x, x1, x2, x3, x4]] [y, y1, y2, y3, y4] [] = ([[(sum % 2 ^ 32).toNat]], 0)
          ∧ vCompute .dot t o h [[x, x1, x2, x3, x4]] [y, y1, y2, y3, y4] [z] = ([[((sum + z) % 2 ^ 32).toNat]], 0))
      ∧ (∀ (d : VTy) (q : VOps), d.fmt = none →
          let dlo : Int := if d.isS then -2 ^ (d.width - 1) else 0
          let dhi : Int := if d.isS then 2 ^ (d.width - 1) - 1 else 2 ^ d.width - 1
          let narrow := q.sat = true ∧ d.width ≤ w
          vElem (.cvt t) d q x y z = (((if narrow ∧ sv x < dlo then dlo else if narrow ∧ dhi < sv x then dhi else sv x) % 2 ^ d.width).toNat,
            if narrow ∧ (sv x < dlo ∨ dhi < sv x) then 0x800 else 0)))
  ∧ (∀ (t : VTy) (f : FFmt) (o : VOps) (x y z : Nat), t.fmt = some f →
      let a := f.input o.ftz x
      let b := f.input o.ftz y
      let c := f.input o.ftz z
      let nan (fl : Nat) : Nat × Nat := (f.canon, if fl = 1 then 0x10 else 0)
      (∀ n1 m1 e1 n2 m2 e2, a = .fin n1 m1 e1 → b = .fin n2 m2 e2 →
        vElem .mul t o x y z = f.round o.rtz o.ftz (n1 != n2) (m1 * m2) (e1 + e2)
        ∧ (∀ (s : Int) (e : Int), (s, e) = finSum n1 m1 e1 n2 m2 e2 → s ≠ 0 → vElem .add t o x y z = f.round o.rtz o.ftz (decide (s < 0)) s.natAbs e)
        ∧ (∀ (s : Int) (e : Int), (s, e) = finSum n1 m1 e1 (!n2) m2 e2 → s ≠ 0 → vElem .sub t o x y z = f.round o.rtz o.ftz (decide (s < 0)) s.natAbs e)
        ∧ (∀ n3 m3 e3 (s : Int) (e : Int), c = .fin n3 m3 e3 → (s, e) = finSum (n1 != n2) (m1 * m2) (e1 + e2) n3 m3 e3 → s ≠ 0 →
            vElem .fma t o x y z = f.round o.rtz o.ftz (decide (s < 0)) s.natAbs e))
      ∧ (a.isNan = true ∨ b.isNan = true →
          let fl := if a.isSig = true ∨ b.isSig = true then 1 else 0
          vElem .add t o x y z = nan fl ∧ vElem .sub t o x y z = nan fl ∧ vElem .mul t o x y z = nan fl ∧ (vElem .fma t o x y z).1 = f.canon)
      ∧ (a.isNan = false → b.isNan = false → ¬ (a.isZero = true ∧ b.isZero = true) →
          vElem .max t o x y z = ((f.ofValue false o.ftz (if FV.lt a b then b else a)).1, 0)
          ∧ vElem .min t o x y z = ((f.ofValue false o.ftz (if FV.lt b a then b else a)).1, 0))
      ∧ (o.ftz = false → x < 2 ^ f.width →
          vElem .abs t o x y z = (x % 2 ^ (f.width - 1), 0)
          ∧ vElem .neg t o x y z = ((x + 2 ^ (f.width - 1)) % 2 ^ f.width, 0)
          ∧ vElem (.cvt t) t o x y z = (if (f.value x).isSig then (f.canon, 0x10) else (x, 0)))
      ∧ (∀ (d : VTy) (fd : FFmt), d.fmt = some fd → d ≠ t → vElem (.cvt t) d o x y z = fd.ofValue o.rtz o.ftz a)
      ∧ (a.isNan = true ∨ b.isNan = true →
          (∀ cc, cc ∈ [VCond.lt, .le, .gt, .ge] → vElem (.cmp cc) t o x y z = (0, 0x10))
          ∧ vElem (.cmp .eq) t o x y z = (0, if a.isSig ∨ b.isSig then 0x10 else 0)
          ∧ vElem (.cmp .ne) t o x y z = (1, if a.isSig ∨ b.isSig then 0x10 else 0))
      ∧ (a.isNan = false → b.isNan = false →
          let less (p q : FV) : Prop := FV.lt p q = true
          let same : Prop := FV.eq a b = true
          (∀ n1 m1 e1 n2 m2 e2, a = .fin n1 m1 e1 → b = .fin n2 m2 e2 → let v := (finSum n1 m1 e1 (!n2) m2 e2).1
            (same ↔ v = 0) ∧ (less a b ↔ v < 0) ∧ (less b a ↔ 0 < v))
          ∧ (∀ n1 n2, a = .inf n1 → b = .inf n2 → (same ↔ n1 = n2) ∧ (less a b ↔ n1 = true ∧ n2 = false))
          ∧ (∀ n1 n2 m2 e2, a = .inf n1 → b = .fin n2 m2 e2 → ¬ same ∧ (less a b ↔ n1 = true) ∧ (less b a ↔ n1 = false))
          ∧ (∀ cc, ∃ r, vElem (.cmp cc) t o x y z = (if r = true then 1 else 0, 0) ∧ (r = true ↔ match cc with
              | .eq => same | .ne => ¬ same | .lt => less a b | .le => less a b ∨ same | .gt => less b a | .ge => less b a ∨ same
              | .un => False)))
      ∧ (∀ (h : Shape) (x1 x2 x3 x4 y1 y2 y3 y4 : Nat), h.ext = (5, 1, 1, 1) →
          let p (i j : Nat) : Nat × Nat := FFmt.mulR .f32 o.rtz o.ftz (f.input o.ftz i) (f.input o.ftz j)
          let add (i j : Nat × Nat) : Nat × Nat :=
            let r := FFmt.addV .f32 o.rtz o.ftz (FFmt.input .f32 o.ftz i.1) (FFmt.input .f32 o.ftz j.1)
            (r.1, i.2 ||| j.2 ||| r.2)
          let tree := add (add (add (p x y) (p x1 y1)) (add (p x2 y2) (p x3 y3))) (p x4 y4)
          vCompute .dot t o h [[x, x1, x2, x3, x4]] [y, y1, y2, y3, y4] [] = ([[tree.1]], tree.2)
          ∧ vCompute .dot t o h [[x, x1, x2, x3, x4]] [y, y1, y2, y3, y4] [z] = ([[(add tree (z, 0)).1]], (add tree (z, 0)).2))
      ∧ (∀ (h : Shape) (l b c : List Nat), h.ext = (l.length, 1, 1, 1) →
          let r := vCompute .amax t o h [l] b c
          let v (k : Nat) : FV := f.input o.ftz (l.getD k 0)
          let mag (k : Nat) : Nat := if o.ftz = true ∧ f.isSub (l.getD k 0) = true then 0 else l.getD k 0 % 2 ^ (f.width - 1)
          let mine (j k : Nat) : Prop := 32 * j ≤ k ∧ k < 32 * j + 32 ∧ k < l.length
          (r.1.getD 0 []).length = (l.length + 31) / 32 ∧ (r.2.testBit 4 = true ↔ ∃ k, k < l.length ∧ (v k).isSig = true)
          ∧ ∀ j, j < (l.length + 31) / 32 →
            ((∃ k, mine j k ∧ (v k).isNan = true) → (r.1.getD 0 []).getD j 0 = f.canon)
            ∧ ((∀ k, mine j k → (v k).isNan = false) →
                (∃ k, mine j k ∧ (r.1.getD 0 []).getD j 0 = mag k) ∧ ∀ k, mine j k → mag k ≤ (r.1.getD 0 []).getD j 0))
      ∧ vElem (.cmp .un) t o x y z = (if a.isNan ∨ b.isNan then 1 else 0, if a.isSig ∨ b.isSig then 0x10 else 0)
      ∧ (∀ fn, vElem (.sfu fn) t o x y z = sfu fn f o.ftz x))
  ∧ (∀ (t : VTy) (o : VOps) (x y z : Nat), vElem .sel t o x y z = (if x = 0 then z else y, 0))
  ∧ (∀ (t : VTy) (o : VOps) (h : Shape) (as_ : List (List Nat)) (b c : List Nat) (m : Nat), m < h.count →
      let a := as_.headD []
      let out (k : VKind) (j : Nat) : Nat := ((vCompute k t o h as_ b c).1.getD j []).getD m 0
      (∀ k ∈ [VKind.add, .sub, .mul, .fma, .max, .min, .abs, .neg, .clmul, .sel, .popc], out k 0 = (vElem k t o (a.getD m 0) (b.getD m 0) (c.getD m 0)).1)
      ∧ out .bcast 0 = a.headD 0
      ∧ (m < b.length → out .perm 0 = if b.getD m 0 < h.count then a.getD (b.getD m 0) 0 else 0)
      ∧ (∀ k j, j < k → out (.unzip k) j = a.getD (m * k + j) 0
          ∧ ((vCompute (.zip k) t o h as_ b c).1.getD 0 []).getD (m * k + j) 0 = (as_.getD j []).getD m 0))
  ∧ (∀ (op : VRedOp) (t : VTy) (o : VOps) (h : Shape) (x y z w v : Nat) (b c : List Nat), h.ext = (5, 1, 1, 1) →
      let r (p q : Nat × Nat) := vRedOne op t o p q
      let e (i : Nat) : Nat × Nat := (vRead t o.ftz i, 0)
      let tree := r (r (r (e x) (e y)) (r (e z) (e w))) (e v)
      vCompute (.red op) t o h [[x, y, z, w, v]] b c = ([[tree.1]], tree.2)
      ∧ (vCompute (.scan op) t o h [[x, y, z, w, v]] b c).1 = [[(e x).1, (r (e x) (y, 0)).1, (r (r (e x) (y, 0)) (z, 0)).1,
          (r (r (r (e x) (y, 0)) (z, 0)) (w, 0)).1, (r (r (r (r (e x) (y, 0)) (z, 0)) (w, 0)) (v, 0)).1]]
      ∧ (∀ p q, op = .add → (r (p, 0) (q, 0)) = vElem .add t o p q 0) ∧ (∀ p q, op = .xor → (r (p, 0) (q, 0)) = (p ^^^ q, 0))
      ∧ (∀ p q, op = .and → (r (p, 0) (q, 0)) = (p &&& q, 0)) ∧ (∀ p q, op = .or → (r (p, 0) (q, 0)) = (p ||| q, 0))
      ∧ (∀ p q, op = .max → (r (p, 0) (q, 0)) = vElem .max t o p q 0) ∧ (∀ p q, op = .min → (r (p, 0) (q, 0)) = vElem .min t o p q 0))
  ∧ (∀ (a b c : List Nat) (x m : Nat), a.length = b.length →
      vCompact (x :: a) (m :: b) = (if m = 0 then vCompact a b ++ [0] else x :: vCompact a b)
      ∧ vExpand (x :: a) (m :: b) c = (if m = 0 then c.headD 0 :: vExpand (x :: a) b c.tail else x :: vExpand a b c.tail))

/-- R154 to R156, R158, R173 to R175: for tzero, tmma, tacc, tread, tread.blk, tquant, tdequant, tplane, tunplane, tcbdec, thad and ttopk, whose checks pass and whose operand conditions hold, the command enters the queue with its operands taken and the strand goes on; it stalls while the queue holds two or a condition fails, and a failing check is its fault. tcap completes with the tag over tiles, rights and expiry. tmx to a slice address of a core sends its command and waits; accepted it completes, refused it faults TREMOTE with the failure in INNER, with an address that is no slice address ILL_OPERAND (R157's codes name the failing check). That a full queue stalls the command before its own checks are made is the model's choice (log 64), and so is the position 74 that ARG reports for the address (log 38). u is the state once the instruction has been counted. -/
def Obligations.TensorIssue : Prop :=
  ∀ (i : Instr) (g : Guard) (k : TKind) (o : TOps) (d a cap : Reg) (first last : TReg) (rights : BitVec 3) (life : Imm48) (cmd : TmxCmd) (r : Answer)
    (x : CoreId) (off : Nat) (s : State), s.me.guard g = true →
    let u := s.charge
    let c := s.myCore
    (tenOf i = some (k, o) → guardOf i = some g →
      let plan := u.tPlan s.cur.core k o (s.scalarOf o.a) (s.scalarOf o.b) (s.scalarOf o.c)
      (2 ≤ c.mq.length → Stalls i s)
      ∧ (c.mq.length < 2 →
        (∀ e mark, plan = .bad e mark → exec i s = .next (u.raiseMe (match mark with | some t => u.markFault t 0x53 | none => s.fault e)))
        ∧ (∀ ws d a b cc, plan = .ok false ws d a b cc → Stalls i s)
        ∧ (∀ ws d a b cc, plan = .ok true ws d a b cc →
            CompletesCore i s { c.take ⟨o.dst, o.advd, 1⟩ d (a ++ b ++ cc) with
              mq := c.mq ++ [⟨i, s.cur.slot, s.cur.gid, s.ctx, s.me.pc, d, [a, b, cc],
                [s.scalarOf o.a, s.scalarOf o.b, s.scalarOf o.c, c.shellbase], ws, none, 0, none, false⟩] } s.me)))
    ∧ (let low : BitVec 48 := first ++ last ++ rights ++ BitVec.ofNat 33 (s.time s.cur.core.pkg + life.toNat)
       let new_ : Word := s.capTagOf s.cur.core s.ctx low ++ low
       CompletesCore (.tcap g d first last rights life) s
         { c with minted := (c.capGen, s.ctx, new_) :: c.minted.filter fun x => x != (c.capGen, s.ctx, new_) } (s.me.wg d new_))
    ∧ (s.me.hold = .none →
        ((s.rg a).getLsbD 63 = false → exec (.tmx g a cap cmd) s = .next (u.raiseMe (s.illegal 5 74)))
        ∧ ((s.rg a).getLsbD 63 = true → s.sliceOf s.cur.core (s.rg a) = some (x, off) → Asks (.tmx g a cap cmd) s fun tag =>
            .tmxArrival ⟨⟨x, s.cur.core, s.cur.slot, tag, s.ctx, {}⟩, BitVec.ofNat 32 s.cur.gid, s.rg cap, cmd⟩))
    ∧ (s.me.hold = .got r → (r.status = .ack → Completes (.tmx g a cap cmd) s s.me)
        ∧ (r.status = .nack → exec (.tmx g a cap cmd) s = .next (u.raiseMe { s.fault 0x55 with inner := r.inner })))

/-- R153, R154, R156, R175, R176: the head of the queue starts on an idle engine; at completion its bytes, all read before any is written, stand in the slice, its destination is READY and its flags are or-ed into STICKY. A remote command is refused with 1 to 6 by the first check of R175 that fails, answered RETRY by a machine-checked core (R350) and where all checks pass but four commands wait already, else buffered and acknowledged; it enters the queue when its conditions hold, and one whose own checks then fail marks its destination. What a command writes: tzero zeros and E; tmma the exact block sums, shifted by their scale codes, E and the half-unit bits with floor, added in ascending order and clamped to 56 bits, SATM and NF as R91 has them; tacc the sum aligned to the destination's E; tread the rounded value, or the canonical NaN of an element with NF; tread.blk and tquant each block of 32 exact values quantised by R89; tdequant the rounded product with the scale; tplane and tunplane the integer wrapped or clamped; tcbdec, here with the shell table in the core's own slice, the eight half-unit lanes of each code; thad the five stages, the constant and the keyed signs; ttopk the elements in descending rank, the lower index first, with their indices. A capability minted under an earlier key is refused with 3 whatever its tag (log 8), and thad.inv takes its stages in the order of thad.fwd (log 64): both are the model's reading. -/
def Obligations.MatrixEngine : Prop :=
  (∀ (c : CoreId) (m : TmxMsg) (s : State),
    let k := s.core c
    (∀ cmd rest, k.mq = cmd :: rest → k.mcur = none → k.mcheck = none → Answers (.matrixCommandStart c) s fun t =>
      t.core c = { k with mcur := some cmd, mq := rest } ∧ SameMem s t ∧ OnlyCore c s t)
    ∧ (∀ cmd kind o, k.mcur = some cmd → k.mcheck = none → tenOf cmd.instr = some (kind, o) → cmd.slot < 8 → o.advd = false → o.adva = false →
        o.advb = false → o.advc = false →
        let op (n : Nat) := cmd.srcs.getD n []
        let view (l : List Opnd) (n : Nat) : TV := (s.opView c l (cmd.shapes.getD n [])).getD ⟨0, 0, 0, 0, 0, 0⟩
        ∀ u ws fl, s.tCompute c kind (view cmd.dst 0) (view (op 0) 1) (view (op 1) 2) (!(op 0).isEmpty) (!(op 1).isEmpty) cmd.scal cmd.ctx
            = (u, .ok (ws, fl)) →
          Answers (.matrixCommandCompletion c) s fun t => (t.core c).mcur = none
            ∧ t.mem = (ws.foldl (fun v w => v.swrite c w.1 w.2.1 w.2.2) u).mem
            ∧ (∀ a, (∀ w, w ∈ ws → a < sliceKey c w.1 ∨ sliceKey c w.1 + w.2.1 ≤ a) → t.mem.read a = u.mem.read a)
            ∧ (∀ x, x ∈ opTiles cmd.dst → tileSt ((t.core c).tile x) = 2)
            ∧ ((t.core c).strand cmd.slot).sticky = ((u.core c).strand cmd.slot).sticky ||| BitVec.ofNat 64 fl)
    ∧ (let h := m.hdr
       let n := s.core h.target
       m.hdr.odd = {} → s.fencedHdr m.hdr = false →
       let refuses (x : Nat) : Prop := Answers (.tmxArrival m) s fun t =>
         Sent (.reply { src := h.target, dst := h.src, rtag := h.rtag, status := .nack, inner := x }) t ∧ t.cores = s.cores ∧ SameMem s t
       let genuine := s.capTagOf h.target h.ctx (m.cap.extractLsb' 0 48) = m.cap.extractLsb' 48 16 ∧ n.capOld h.ctx m.cap = false
       let lives := capLive m.cap (s.time h.target.pkg) = true
       let within := ∀ x, x ∈ tmxTiles m.cmd → (m.cap.extractLsb' 42 6).toNat ≤ x.toNat ∧ x.toNat ≤ (m.cap.extractLsb' 36 6).toNat
       (n.retired = true → refuses 1)
       ∧ (n.retired = false → n.mcheck ≠ none → Answers (.tmxArrival m) s fun t => t.cores = s.cores ∧ SameMem s t
          ∧ Sent (.reply { src := h.target, dst := h.src, rtag := h.rtag, status := .retry }) t)
       ∧ (n.retired = false → n.mcheck = none →
          (n.ctx ≠ h.ctx → refuses 2)
          ∧ (n.ctx = h.ctx → ¬ genuine → refuses 3)
          ∧ (n.ctx = h.ctx → genuine → ¬ lives → refuses 4)
          ∧ (n.ctx = h.ctx → genuine → lives → ¬ within → refuses 5)
          ∧ (n.ctx = h.ctx → genuine → lives → within → m.cap.getLsbD (tmxRight m.cmd) = false → refuses 6)
          ∧ (n.ctx = h.ctx → genuine → lives → within → m.cap.getLsbD (tmxRight m.cmd) = true → 4 ≤ n.remote.length → Answers (.tmxArrival m) s fun t =>
              t.cores = s.cores ∧ SameMem s t ∧ Sent (.reply { src := h.target, dst := h.src, rtag := h.rtag, status := .retry }) t)
          ∧ (n.ctx = h.ctx → genuine → lives → within → m.cap.getLsbD (tmxRight m.cmd) = true → n.remote.length < 4 →
              Answers (.tmxArrival m) s fun t => (t.core h.target).remote = n.remote ++ [m] ∧ SameMem s t
                ∧ Sent (.reply { src := h.target, dst := h.src, rtag := h.rtag, status := .ack }) t)))
    ∧ (∀ q rest kind o, k.remote = q :: rest → k.mq.length < 2 → k.mcheck = none → tenOf (tmxInstr q.cmd) = some (kind, o) →
        (∀ ws d a b cc, s.tPlan c kind o 0 0 0 = .ok true ws d a b cc → Answers (.remoteCommandEntry c) s fun t => SameMem s t
          ∧ (t.core c).remote = rest ∧ (t.core c).mq.length = k.mq.length + 1 ∧ (t.core c).mq.take k.mq.length = k.mq
          ∧ (∀ x, x ∈ opTiles d → tileSt ((t.core c).tile x) = 1))
        ∧ (∀ e mark x l, s.tPlan c kind o 0 0 0 = .bad e mark → k.tensorReady kind o = true → tmxTiles q.cmd = x :: l → Answers (.remoteCommandEntry c) s fun t => SameMem s t
          ∧ (t.core c).remote = rest ∧ (t.core c).mq = k.mq ∧ tileMark ((t.core c).tile x.toNat) = true
          ∧ tileSt ((t.core c).tile x.toNat) = 0)))
  ∧ ∀ (c : CoreId) (d a b : TV) (hasA hasB : Bool) (scal : List Word) (ctx : Nat) (s : State),
    let out (k : TKind) (P : List TW → Nat → Prop) : Prop := ∃ ws fl, s.tCompute c k d a b hasA hasB scal ctx = (s, .ok (ws, fl)) ∧ P ws fl
    let flags (fl : Nat) (n m : Nat) (f : Nat → Nat → Nat) : Prop := ∀ x, fl.testBit x = true ↔ ∃ i j, i < n ∧ j < m ∧ (f i j).testBit x = true
    let acc (v : TV) (i j : Nat) : Nat := s.sread c (v.base + (16 * i + j) * 8) 8
    let val (w : Nat) : Int := (BitVec.ofNat 56 w).toInt
    let exp (v : TV) : Int := (BitVec.ofNat 16 (s.sread c v.sc 2)).toInt
    let word (x : Int) (nf satm : Bool) : Nat := (BitVec.ofInt 56 x).toNat + (if nf then 2 ^ 56 else 0) + if satm then 2 ^ 57 else 0
    let clamp (x : Int) : Int := max (-(2 ^ 55)) (min (2 ^ 55 - 1) x)
    let scaled (x k : Int) : Int := if 0 ≤ k then x * 2 ^ k.toNat else x / 2 ^ (-k).toNat
    let exact (v : TV) (i j : Nat) : FV := if (acc v i j).testBit 56 then .nan false else .fin (decide (val (acc v i j) < 0)) (val (acc v i j)).natAbs (exp v)
    let grid (ws : List TW) (w : Nat → Nat → Nat) : Prop := ∀ i j, i < 16 → j < 16 → (d.base + (16 * i + j) * 8, 8, w i j) ∈ ws
    let blocks (kd : Bool) : Nat := (if kd then d.e1 else d.e0) / 32
    let outer (kd : Bool) : Nat := if kd then d.e0 else d.e1
    let block (ws : List TW) (pl : Plane) (kd : Bool) (o kb code : Nat) (q : Nat → Int) : Prop :=
      let p := pl.p1.toNat + 1
      (∀ j, j < p → ∃ w, w < 2 ^ 32 ∧ (d.base + ((o * blocks kd + kb) * p + j) * 4, 4, w) ∈ ws
        ∧ ∀ k, k < 32 → w.testBit k = (BitVec.ofInt p (q k)).getLsbD j)
      ∧ (d.sc + o * blocks kd + kb, 1, code) ∈ ws ∧ ws.length = outer kd * blocks kd * (p + 1)
    let packs (ws : List TW) (el : Nat → Nat → Nat) : Prop :=
      (d.fmt = 11 → ws.length = d.e0 * d.e1 / 2 ∧ ∀ m, m < d.e0 * d.e1 / 2 →
        (d.base + m, 1, el (2 * m / d.e0) (2 * m % d.e0) + 16 * el ((2 * m + 1) / d.e0) ((2 * m + 1) % d.e0)) ∈ ws)
      ∧ (d.fmt ≠ 11 → ws.length = d.e1 * d.e0 ∧ ∀ i1 i0, i1 < d.e1 → i0 < d.e0 →
        (d.base + (i1 * d.s1 + i0) * (fmtBits d.fmt / 8), fmtBits d.fmt / 8, el i1 i0) ∈ ws)
    let place (kd : Bool) (i1 i0 : Nat) : Nat × Nat := if kd then (i0, i1) else (i1, i0)
    let elem (v : TV) (kd : Bool) (o r : Nat) : Nat := s.packElem c v (if kd then r else o) (if kd then o else r)
    let int (fmt x : Nat) : Int := if fmt ≤ 2 then (BitVec.ofNat (fmtBits fmt) x).toInt else (x % 2 ^ fmtBits fmt : Nat)
    ((∀ (v : TV) (i1 i0 : Nat), s.packElem c v i1 i0 = (if v.fmt = 11 then s.sread c (v.base + (i1 * v.e0 + i0) / 2) 1 / 16 ^ ((i1 * v.e0 + i0) % 2) % 16
          else s.sread c (v.base + (i1 * v.s1 + i0) * (fmtBits v.fmt / 8)) (fmtBits v.fmt / 8)))
      ∧ (∀ (v : TV) (pl : Plane) (kd : Bool) (o r j : Nat),
          let p := pl.p1.toNat + 1
          let x := s.planeElem c v pl kd o r
          planeLeast pl ≤ x ∧ x ≤ planeGreatest pl ∧ (j < p → (BitVec.ofInt p x).getLsbD j
            = (s.sread c (v.base + ((o * ((if kd then v.e1 else v.e0) / 32) + r / 32) * p + j) * 4) 4).testBit (r % 32))))
    ∧ (∀ e, out (.zero e) fun ws fl => fl = 0 ∧ ws.length = 257 ∧ grid ws (fun _ _ => 0)
        ∧ (d.sc, 8, (BitVec.ofInt 16 (if hasA then ((scal.getD 0 0).extractLsb' 0 11).toInt else e.toInt)).toNat) ∈ ws)
    ∧ (∀ pa pb ha hb, out (.mma pa pb ha hb) fun ws fl => ws.length = 256 ∧ ∃ f : Nat → Nat → Nat → Int × Bool × Bool,
        let sa (i kb : Nat) : Nat := s.sread c (a.sc + i * (a.e0 / 32) + kb) 1
        let sb (j kb : Nat) : Nat := s.sread c (b.sc + j * (b.e1 / 32) + kb) 1
        let sum (i j kb : Nat) : Int := (f i j kb).1 + scaled
          ((List.range 32).foldl (fun p k => p + s.planeElem c a pa false i (32 * kb + k) * s.planeElem c b pb true j (32 * kb + k)) 0)
          ((sa i kb : Int) - 127 + (sb j kb - 127) - exp d - (if ha then 1 else 0) - if hb then 1 else 0)
        (∀ i j, i < 16 → j < 16 → f i j 0 = (val (acc d i j), (acc d i j).testBit 56, (acc d i j).testBit 57)
          ∧ ∀ kb, kb < a.e0 / 32 → f i j (kb + 1) = if sa i kb = 255 ∨ sb j kb = 255 then ((f i j kb).1, true, (f i j kb).2.2)
              else (clamp (sum i j kb), (f i j kb).2.1, (f i j kb).2.2 || clamp (sum i j kb) != sum i j kb))
        ∧ grid ws (fun i j => word (f i j (a.e0 / 32)).1 (f i j (a.e0 / 32)).2.1 (f i j (a.e0 / 32)).2.2)
        ∧ (fl.testBit 4 = true ↔ ∃ i j kb, i < 16 ∧ j < 16 ∧ kb < a.e0 / 32 ∧ (sa i kb = 255 ∨ sb j kb = 255))
        ∧ (fl.testBit 8 = true ↔ ∃ i j kb, i < 16 ∧ j < 16 ∧ kb < a.e0 / 32 ∧ sa i kb ≠ 255 ∧ sb j kb ≠ 255 ∧ clamp (sum i j kb) ≠ sum i j kb))
    ∧ (out .acc fun ws fl =>
        let sum (i j : Nat) : Int := val (acc d i j) + scaled (val (acc a i j)) (exp a - exp d)
        ws.length = 256 ∧ grid ws (fun i j => word (clamp (sum i j)) ((acc a i j).testBit 56 || (acc d i j).testBit 56)
          ((acc d i j).testBit 57 || clamp (sum i j) != sum i j))
        ∧ (fl.testBit 8 = true ↔ ∃ i j, i < 16 ∧ j < 16 ∧ clamp (sum i j) ≠ sum i j))
    ∧ (∀ f : FFmt, out (.read f) fun ws fl =>
        let r (i j : Nat) : Nat × Nat := if (acc a i j).testBit 56 then (f.canon, 2 ^ 4)
          else f.round false false (decide (val (acc a i j) < 0)) (val (acc a i j)).natAbs (exp a)
        ws.length = 256 ∧ (∀ i j, i < 16 → j < 16 → (d.base + (i * d.s1 + j) * (fmtBits d.fmt / 8), fmtBits d.fmt / 8, (r i j).1) ∈ ws)
        ∧ flags fl 16 16 fun i j => (r i j).2)
    ∧ (∀ pl, out (.readBlk pl) fun ws fl => ∃ (code f : Nat → Nat → Nat) (q : Nat → Nat → Nat → Int),
        flags fl d.e1 (d.e0 / 32) f ∧ ∀ i kb, i < d.e1 → kb < d.e0 / 32 → block ws pl false i kb (code i kb) (q i kb)
          ∧ Quantised pl (fun j => if j < 16 then exact a i j else if hasB then exact b i (j - 16) else .fin false 0 0) (code i kb) (q i kb) (f i kb))
    ∧ (∀ fm pl kd, out (.quant fm pl kd) fun ws fl => ∃ (code f : Nat → Nat → Nat) (q : Nat → Nat → Nat → Int),
        flags fl (outer kd) (blocks kd) f ∧ ∀ o kb, o < outer kd → kb < blocks kd → block ws pl kd o kb (code o kb) (q o kb)
          ∧ Quantised pl (fun k => fm.value (elem a kd o (32 * kb + k))) (code o kb) (q o kb) (f o kb))
    ∧ (∀ (fm : FFmt) pl kd, out (.dequant fm pl kd) fun ws fl =>
        let r (i1 i0 : Nat) : Nat × Nat :=
          let at_ := place kd i1 i0
          let q := s.planeElem c a pl kd at_.1 at_.2
          let code := s.sread c (a.sc + at_.1 * ((if kd then a.e1 else a.e0) / 32) + at_.2 / 32) 1
          if code = 255 then (fm.canon, 2 ^ 4) else fm.round false false (decide (q < 0)) q.natAbs ((code : Int) - 127)
        packs ws (fun i1 i0 => (r i1 i0).1) ∧ flags fl d.e1 d.e0 fun i1 i0 => (r i1 i0).2)
    ∧ (∀ pl kd sat, out (.plane pl kd sat) fun ws fl =>
        let v (o r : Nat) : Int := int a.fmt (elem a kd o r)
        let q (o r : Nat) : Int := if sat then max (planeLeast pl) (min (planeGreatest pl) (v o r)) else v o r
        (∀ o kb, o < outer kd → kb < blocks kd → block ws pl kd o kb 127 fun k => q o (32 * kb + k))
        ∧ flags fl (outer kd) (32 * blocks kd) fun o r => if q o r = v o r then 0 else 2 ^ 11)
    ∧ (∀ pl kd sat, out (.unplane pl kd sat) fun ws fl =>
        let w := fmtBits d.fmt
        let least : Int := if d.fmt ≤ 2 then -(2 ^ (w - 1)) else 0
        let greatest : Int := if d.fmt ≤ 2 then 2 ^ (w - 1) - 1 else 2 ^ w - 1
        let v (i1 i0 : Nat) : Int := s.planeElem c a pl kd (place kd i1 i0).1 (place kd i1 i0).2
        let x (i1 i0 : Nat) : Int := if sat then max least (min greatest (v i1 i0)) else v i1 i0
        packs ws (fun i1 i0 => (BitVec.ofInt w (x i1 i0)).toNat) ∧ flags fl d.e1 d.e0 fun i1 i0 => if x i1 i0 = v i1 i0 then 0 else 2 ^ 11)
    ∧ (∀ kd off, (scal.getD 3 0).getLsbD 63 = true → off + 1024 ≤ 131072 → s.sliceAllowed (ctx == 0) ctx c = true →
        (∀ n, n < 256 → let x := scal.getD 3 0 + BitVec.ofNat 64 (4 * n)
          x.getLsbD 63 = true ∧ mformOk x = true ∧ s.sliceOf c x = some (c, off + 4 * n)) →
        out (.cbdec ⟨4, true⟩ kd) fun ws fl =>
          let k8 := (if kd then a.e1 else a.e0) / 8
          let code (o x : Nat) : Nat := s.sread c (a.base + (o * k8 + x) * 2) 2
          let lane (x l : Nat) : Int :=
            let m : Int := (s.sread c (off + 4 * (x / 256)) 4 / 2 ^ (4 * l) % 16 + x % 2 : Nat)
            if (if l < 7 then x.testBit (l + 1) else ((List.range 7).countP fun i => x.testBit (i + 1)) % 2 == 1) then -m else m
          let v (o k : Nat) : Int := lane (code o (k / 8)) (k % 8)
          a.e0 = d.e0 → a.e1 = d.e1 →
          (∀ o kb, o < outer kd → kb < blocks kd →
            block ws ⟨4, true⟩ kd o kb (s.sread c (a.sc + o * blocks kd + kb) 1) fun k => min 15 (v o (32 * kb + k)))
          ∧ flags fl (outer kd) (32 * blocks kd) fun o k => if 15 < v o k then 1 else 0)
    ∧ (∀ inv kd, a.e0 = d.e0 → a.e1 = d.e1 → (if kd then d.e1 else d.e0) % 32 = 0 → out (.had inv kd) fun ws fl => ∃ V F : Nat → Nat → Nat → Nat → Nat,
        let neg (kb k : Nat) : Bool := (mix64 (scal.getD 1 0 ^^^ BitVec.ofNat 64 (((scal.getD 2 0).toNat + kb) % 2 ^ 32 * 2 ^ 32 + k))).getLsbD 63
        let sign (kb k x : Nat) : Nat :=
          if neg kb k = true ∧ (FFmt.value .f32 x).isNan = false then (if x < 2 ^ 31 then x + 2 ^ 31 else x - 2 ^ 31) else x
        let last (o kb k : Nat) : Nat × Nat := FFmt.mulR .f32 false false (FFmt.value .f32 (V o kb 5 k)) (FFmt.value .f32 0x3E3504F3)
        (∀ o kb k, o < outer kd → kb < blocks kd → k < 32 →
          V o kb 0 k = (if inv then elem a kd o (32 * kb + k) else sign kb k (elem a kd o (32 * kb + k))) ∧ F o kb 0 k = 0
          ∧ ∀ n, n < 5 →
            let j := if k / 2 ^ n % 2 = 0 then k else k - 2 ^ n
            let x := FFmt.value .f32 (V o kb n j)
            let y := FFmt.value .f32 (V o kb n (j + 2 ^ n))
            let r := FFmt.addV .f32 false false x (if j = k then y else y.negate)
            V o kb (n + 1) k = r.1 ∧ F o kb (n + 1) k = F o kb n j ||| F o kb n (j + 2 ^ n) ||| r.2)
        ∧ packs ws (fun i1 i0 =>
            let at_ := place kd i1 i0
            let y := (last at_.1 (at_.2 / 32) (at_.2 % 32)).1
            if inv then sign (at_.2 / 32) (at_.2 % 32) y else y)
        ∧ flags fl (outer kd) (32 * blocks kd) fun o r => F o (r / 32) 5 (r % 32) ||| (last o (r / 32) (r % 32)).2)
    ∧ (∀ up kk, out (.topk up kk) fun ws fl => fl = 0 ∧ ws.length = a.e1 * (2 * kk) ∧ ∀ i1, i1 < a.e1 → ∃ l : List (Nat × Nat),
        l.Perm ((List.range a.e0).map fun i => (s.packElem c a i1 i, i))
        ∧ l.Pairwise (fun x y => topBetter up a.fmt y.1 x.1 = false ∧ (topBetter up a.fmt x.1 y.1 = false → x.2 < y.2))
        ∧ ∀ j, j < kk →
          let r := l.getD j (0, 0xFFFFFFFF)
          let at_ (n : Nat) : Nat := d.base + (i1 * d.s1 + n) * (fmtBits d.fmt / 8)
          (at_ (2 * j), 4, r.2) ∈ ws ∧ (at_ (2 * j + 1), 4, r.1) ∈ ws)
    ∧ (∀ up x y, (topBetter up 2 x y = true ↔ let p := (BitVec.ofNat 32 x).toInt; let q := (BitVec.ofNat 32 y).toInt
          if up then q < p else q.natAbs < p.natAbs)
        ∧ ∀ fm fmt, fmtOfCode fmt = some fm → (topBetter up fmt x y = true ↔
            (fm.value x).isNan = false ∧ ((fm.value y).isNan = true ∨
              ((fm.value y).isNan = false ∧ (up = true → FV.lt (fm.value y) (fm.value x) = true)
                ∧ (up = false → ∀ m e n i s1 s2, fm.value x = .fin s1 m e → fm.value y = .fin s2 n i → ScaledAbove m e n i)
                ∧ (up = false → ∀ s1, fm.value y ≠ .inf s1)))))

/-- R188, R198, R199, R200: an address out of form is MFORM and one not a multiple of the size MALIGN; a slice address that names no core or a slice that the strand may not use is MSLICE; a translation or rights fault is its code. A load gives the zero or sign extension of the n bytes at the core's own slice or at a home in its package, through the crew's line at plain, core or crew scope, the home's bytes as the leaf's key sees them: those stored under its material as they are, those stored under other material as deciphered with its own, the bytes of which are the model's choice (log 63); a store changes those n bytes, in the line or at the home, and nothing else. To another core's slice a load sends LD and waits, its answer's word the result; a store sends ST and goes on with one more unacknowledged; a refused request is FNACK with the cause of R289 in INNER. -/
def Obligations.LoadsAndStores : Prop :=
  ∀ (g : Guard) (sx acq rel : Bool) (sz : Sz) (sc : Scope) (d v : Reg) (m : MAddr) (s : State), s.me.guard g = true →
    let u := s.charge
    let c := s.cur.core
    let a := s.ea m sz.log
    let n := sz.bytes
    let ld : Instr := .ld g sx sz d m
    let st : Instr := .st g sz v m
    let lds : Instr := .lds g sx sz sc acq d m
    let sts : Instr := .sts g sz sc rel v m
    let faults (l : List Instr) (e : Nat) : Prop := ∀ i, i ∈ l → exec i s = .next (u.raiseMe (s.faultA e a))
    let loads (i : Instr) (x : Nat) : Prop := Completes i s (s.me.wg d (loadVal sx n x))
    let stores (i : Instr) (k : Nat) : Prop := Answers i s fun t => StoresAt s.cur k n s t ∧ t.me = s.after s.me
      ∧ (s.mem.wf = true → t.readN k n = (s.rg v).toNat % 2 ^ (8 * n))
    (mformOk a = false → faults [ld, st, lds, sts] 0x60)
    ∧ (mformOk a = true → a.toNat % n ≠ 0 → faults [ld, st, lds, sts] 0x63)
    ∧ (a.toNat % n = 0 → s.me.hold = .none →
      (mformOk a = true → a.getLsbD 63 = true → (∀ t off, s.sliceOf c a = some (t, off) → s.sliceAllowed s.super s.ctx t = false) →
        faults [ld, st, lds, sts] 0x64)
      ∧ (mformOk a = true → a.getLsbD 63 = false → ∀ e, (s.translate c s.ctx false a.toNat).2 = .error e → isWait e = false → e ≠ 0x61 ∨ s.super = true →
        faults [ld, st, lds, sts] e)
      ∧ (mformOk a = true → a.getLsbD 63 = false → ∀ e r, tlbFind s.myCore.dtlb s.ctx a.toNat (s.time c.pkg) = some e → r ≠ 0x66 →
        (s.checkLoc s.super .r (xlatOf e a.toNat) = some r → faults [ld, lds] r)
        ∧ (s.checkLoc s.super .w (xlatOf e a.toNat) = some r → faults [st, sts] r))
      ∧ (∀ off, OwnSlice s a off → loads ld (s.sread c off n) ∧ loads lds (s.sread c off n) ∧ stores st (sliceKey c off)
        ∧ (rel = false ∨ (sc.inCrew = true ∧ s.me.unacked = 0) → stores sts (sliceKey c off))
        ∧ (rel = true → s.me.unacked ≠ 0 → Answers sts s fun t => SameMem s t ∧ t.me.hold = .phase 1 [] ∧ t.me.pc = s.me.pc))
      ∧ (∀ t off, t ≠ c → mformOk a = true → a.getLsbD 63 = true → s.sliceOf c a = some (t, off) → s.sliceAllowed s.super s.ctx t = true →
        s.myCore.busyLine (sliceKey t off / 64 + 1) = false →
        let req (op : ReqOp) (sub len tag : Nat) : MemReq :=
          ⟨c, s.cur.slot, tag, s.ctx, s.super, .slice t off, op, a, s.lexp c s.ctx a.toNat, false, sub, len, 0⟩
        Asks ld s (fun tag => .ldPacket (req (.ld n) sz.log 2 tag))
        ∧ Answers st s fun t' => SameMem s t' ∧ t'.me = s.after { s.me with unacked := s.me.unacked + 1 }
          ∧ Sent (.stPacket (req (.st (leBytes n (s.rg v).toNat)) sz.log 3 s.myCore.nextTag)) t')
      ∧ (∀ x, Reaches s .r a x →
        let ln := lineNo x.pkg x.pa
        let lines := (s.crew c.crewNo).lines
        let k := memKey x.pkg x.pa
        let seen := (s.under x.key k n).readN k n
        let own := (s.pkg x.pkg).keys.get [] x.key
        let old := s.seals.get own (k / 64)
        let dec := Cipher.recrypt old own (64 * (k / 64) % 2 ^ 40) (s.mem.readBytes (64 * (k / 64)) 64)
        (old = own → seen = s.readN k n)
        ∧ (old ≠ own → s.mem.wf = true → seen = leNat ((((List.range 64).map fun i => dec.getD i 0).drop (k % 64)).take n))
        ∧ (lines.has ln = true → loads ld (s.lineRead c.crewNo x.pkg x.pa n) ∧ (sc.inCrew = true → loads lds (s.lineRead c.crewNo x.pkg x.pa n)))
        ∧ (lines.has ln = false → lines.length < 4096 → Answers ld s fun t => SameMem s t ∧ (t.crew c.crewNo).lines.has ln = true
            ∧ t.me = s.after (s.me.wg d (loadVal sx n seen)))
        ∧ (lines.has ln = false → sc.inCrew = false → loads lds seen))
      ∧ (∀ x, Reaches s .w a x → (s.crew c.crewNo).lines.has (lineNo x.pkg x.pa) = false → (s.crew c.crewNo).lines.length < 4096 →
        (Answers st s fun t => SameMem s t ∧ t.me = s.after s.me
          ∧ t.lineRead c.crewNo x.pkg x.pa n = (s.rg v).toNat % 2 ^ (8 * n))
        ∧ (sc.inCrew = false → rel = false → Answers sts s fun t => t.me = s.after s.me
          ∧ SameMemBut (memKey x.pkg x.pa) n (s.under x.key (memKey x.pkg x.pa) n) t
          ∧ (s.mem.wf = true → t.readN (memKey x.pkg x.pa) n = (s.rg v).toNat % 2 ^ (8 * n)))))
    ∧ (∀ r, mformOk a = true → a.toNat % n = 0 → s.me.hold = .got r →
        (r.status = .ack → r.data.length ≠ 8 → loads ld (r.data.headD 0).toNat ∧ loads lds (r.data.headD 0).toNat)
        ∧ (r.status = .nack → r.cause ≤ 4 → exec ld s = .next (u.raiseMe { s.fault 0x90 with inner := r.cause, info0 := a })))

/-- R202 to R208, R30: atom and red apply their operation to the n bytes at their location, the core's own slice or a home in its package, and atom returns the old value; at scope core or crew they do so in the crew cache; toward another core's slice or a home in another package, at any wider scope, domain among them, they send ATOM, atom waiting for the old value; a .c operation opens a combining entry and leaves memory as it is, and the flush of an entry by a fence of a strand that combined into it performs its partial at the home as one operation, or machine-checks its opener with 0xB4 where the home refuses it. fadd is the sum rounded to nearest. fence waits for the paths it names; at a wide scope it cleans the line that its core wrote and drops clean lines. pref keeps a line, iflush drops the lines of its range and tlbprobe writes the leaf, the slice answer or the fault code. A line that passes its check is kept; one that fails twice machine-checks its core. -/
def Obligations.AtomicsAndCaches : Prop :=
  ∀ (g : Guard) (op : AtomOp) (sz : Sz) (sc : Scope) (ord : BitVec 2) (rel cb : Bool) (d v b : Reg) (m : MAddr) (mask : BitVec 5) (psz : BitVec 3)
    (disp : Imm48) (x : Xlat) (s : State), s.me.guard g = true → s.me.hold = .none →
    let c := s.cur.core
    let n := sz.bytes
    let a := s.rg m.base + m.disp.signExtend 64
    let e := s.ea m sz.log
    let p := s.ea m psz.toNat
    let crew := s.crew c.crewNo
    let atom : Instr := .atom g op sz sc ord cb d m
    let red : Instr := .red g op sz sc rel cb v m
    let seen := s.under x.key (memKey x.pkg x.pa) n
    let swaps (i : Instr) (h : State) (k w q : Nat) (me : Strand) : Prop := Answers i s fun t => StoresAt s.cur k n h t ∧ t.me = s.after me
      ∧ (s.mem.wf = true → t.readN k n = atomNew op n (h.readN k n) w q % 2 ^ (8 * n))
    let atoms (h : State) (k : Nat) : Prop := swaps atom h k (s.rg m.idx).toNat (s.rg d).toNat (s.me.wg d (BitVec.ofNat 64 (h.readN k n)))
    let reds (h : State) (k : Nat) : Prop := swaps red h k (s.rg v).toNat 0 s.me
    (∀ off, OwnSlice s a off → a.toNat % n = 0 → ord.getLsbD 1 = false ∨ (sc.inCrew = true ∧ s.me.unacked = 0) → atoms s (sliceKey c off))
    ∧ (∀ off, OwnSlice s e off → e.toNat % n = 0 → rel = false ∨ (sc.inCrew = true ∧ s.me.unacked = 0) → reds s (sliceKey c off))
    ∧ (sc.inCrew = false → crew.lines.has (lineNo x.pkg x.pa) = false →
        (Reaches s .w a x → a.toNat % n = 0 → ord.getLsbD 1 = false →
          (cb = false → atoms seen (memKey x.pkg x.pa))
          ∧ (cb = true → Answers atom s fun t => SameMem s t
              ∧ t.me = s.after (s.me.wg d (BitVec.ofNat 64 (seen.readN (memKey x.pkg x.pa) n)))
              ∧ (t.crew c.crewNo).comb = [⟨s.ctx, x.pkg, x.pa, x.key, op, sz, BitVec.ofNat 64 (seen.readN (memKey x.pkg x.pa) n),
                  BitVec.ofNat 64 (atomNew op n (atomIdentity op n) (s.rg m.idx).toNat 0), sc, [(c.key, s.cur.slot, sc)], c.key, x.va, x.lease⟩]))
        ∧ (Reaches s .w e x → e.toNat % n = 0 → rel = false → cb = false → reds seen (memKey x.pkg x.pa)))
    ∧ (Reaches s .w a x → a.toNat % n = 0 → ord.getLsbD 1 = false → cb = false → sc.inCrew = true →
        crew.lines.has (lineNo x.pkg x.pa) = false → crew.lines.length < 4096 →
        let old := seen.readN (memKey x.pkg x.pa) n
        Answers atom s fun t => SameMem s t ∧ t.me = s.after (s.me.wg d (BitVec.ofNat 64 old))
          ∧ t.lineRead c.crewNo x.pkg x.pa n = atomNew op n old (s.rg m.idx).toNat (s.rg d).toNat % 2 ^ (8 * n))
    ∧ (let asks (tgt : MemTgt) (b : Word) (q : ReqOp) (tag : Nat) : Instr :=
         .atomPacket ⟨c, s.cur.slot, tag, s.ctx, s.super, tgt, q, b, s.lexp c s.ctx b.toNat, false, atomNum op, if op = .cas then 4 else 3, 0⟩
       let posts (i : Instr) (p : Nat → Instr) : Prop := Answers i s fun t => SameMem s t
         ∧ t.me = s.after { s.me with unacked := s.me.unacked + 1 } ∧ Sent (p s.myCore.nextTag) t
       let qa : ReqOp := .atom op n (s.rg m.idx) (s.rg d) false
       let qr : ReqOp := .atom op n (s.rg v) 0 true
       (∀ t off, t ≠ c → mformOk a = true → a.getLsbD 63 = true → a.toNat % n = 0 → s.sliceOf c a = some (t, off) → s.sliceAllowed s.super s.ctx t = true →
          s.myCore.busyLine (sliceKey t off / 64 + 1) = false → ord.getLsbD 1 = false → Asks atom s (asks (.slice t off) a qa))
       ∧ (∀ t off, t ≠ c → mformOk e = true → e.getLsbD 63 = true → e.toNat % n = 0 → s.sliceOf c e = some (t, off) → s.sliceAllowed s.super s.ctx t = true →
          s.myCore.busyLine (sliceKey t off / 64 + 1) = false → rel = false → posts red (asks (.slice t off) e qr))
       ∧ (x.pkg ≠ c.pkg → sc.inCrew = false → cb = false → crew.lines.has (lineNo x.pkg x.pa) = false → crew.comb = [] →
          s.checkLoc s.super .w x = none → s.aliases c.crewNo x = [] → s.stuckAt c.crewNo x = false →
          (∀ l, mformOk a = true → a.getLsbD 63 = false → a.toNat % n = 0 → ord.getLsbD 1 = false →
            tlbFind s.myCore.dtlb s.ctx a.toNat (s.time c.pkg) = some l → x = xlatOf l a.toNat → s.waitsFor c (.mem x) s.ctx a.toNat = false →
            Asks atom s (asks (.mem x.pkg x.pa x.key) a qa))
          ∧ (∀ l, mformOk e = true → e.getLsbD 63 = false → e.toNat % n = 0 → rel = false →
            tlbFind s.myCore.dtlb s.ctx e.toNat (s.time c.pkg) = some l → x = xlatOf l e.toNat → s.waitsFor c (.mem x) s.ctx e.toNat = false →
            posts red (asks (.mem x.pkg x.pa x.key) e qr))))
    ∧ (∀ y w : Nat, y < 2 ^ 32 → w < 2 ^ 32 →
        let f := FFmt.f32
        (∀ n1 m1 e1 n2 m2 e2 (z e : Int), f.value y = .fin n1 m1 e1 → f.value w = .fin n2 m2 e2 → (z, e) = finSum n1 m1 e1 n2 m2 e2 → z ≠ 0 →
          atomNew .fadd 4 y w 0 = (f.round false false (decide (z < 0)) z.natAbs e).1)
        ∧ ((f.value y).isNan = true ∨ (f.value w).isNan = true → atomNew .fadd 4 y w 0 = 0x7FC00000))
    ∧ (∀ o w q : Nat, o < 2 ^ (8 * n) → w < 2 ^ (8 * n) → q < 2 ^ (8 * n) →
        let si (y : Nat) : Int := (BitVec.ofNat (8 * n) y).toInt
        atomNew .swap n o w q = w ∧ atomNew .cas n o w q = (if o = q then w else o) ∧ atomNew .add n o w q = (o + w) % 2 ^ (8 * n)
        ∧ atomNew .and n o w q = o &&& w ∧ atomNew .or n o w q = o ||| w ∧ atomNew .xor n o w q = o ^^^ w
        ∧ atomNew .maxn n o w q = max o w ∧ atomNew .minn n o w q = min o w
        ∧ si (atomNew .max n o w q) = max (si o) (si w) ∧ si (atomNew .min n o w q) = min (si o) (si w))
    ∧ (s.pathsDone mask = false → Answers (.fence g sc mask) s fun t => OnlyStrand s.cur s t ∧ t.me.hold = .phase 0 [] ∧ t.me.pc = s.me.pc)
    ∧ (∀ (f : Comb), crew.comb = [f] → (c.key, s.cur.slot, f.scope) ∈ f.users → f.scope.inCrew = false → f.lease = none → f.pkg = c.pkg → crewPkg c.crewNo = c.pkg → coreOfKey f.opener = c →
        (s.pkg f.pkg).wakes = [] → crew.lines = [] → s.pathsDone mask = true → sc.inCrew = false →
        let k := memKey f.pkg f.pa
        let h := s.under f.key k f.sz.bytes
        let ok := (s.pkg f.pkg).keys.has f.key = true ∧ s.fencedFor c.pkg f.pkg f.ctx = false ∧ (s.pkg f.pkg).frameReserved (f.pa / 2 ^ 16) = false
        Answers (.fence g sc mask) s fun t => (t.crew c.crewNo).comb = []
          ∧ (ok → t.me = s.after s.me ∧ t.seals = h.seals
              ∧ t.mem = (h.writeN k f.sz.bytes (atomNew f.op f.sz.bytes (h.readN k f.sz.bytes) f.part.toNat 0)).mem)
          ∧ (¬ ok → SameMem s t ∧ (t.core (coreOfKey f.opener)).mcheck = some 0xB4))
    ∧ (s.pathsDone mask = true → crew.comb = [] →
        (sc.inCrew = true → Completes (.fence g sc mask) s s.me)
        ∧ (sc.inCrew = false → s.stuckWrites c = false → Answers (.fence g sc mask) s fun t => t.me = s.after s.me ∧ ∀ q, q ∈ (t.crew c.crewNo).lines → q.2.dirty = true)
        ∧ (∀ ln l, sc.inCrew = false → crew.lines = [(ln, l)] → l.dirty = true → l.writers.contains c.local_ = true →
            (s.pkg (ln / 2 ^ 34)).wakes = [] → l.lease = none → s.blocked (crewPkg c.crewNo) (ln / 2 ^ 34) = false → Answers (.fence g sc mask) s fun t => t.me = s.after s.me
              ∧ (t.crew c.crewNo).lines = []
              ∧ let h := s.under l.key (lineKey ln) 64
                let way := !s.severed (crewPkg c.crewNo) (ln / 2 ^ 34)
                (way = true → (s.pkg (ln / 2 ^ 34)).keys.has l.key = true → t.seals = h.seals
                  ∧ t.mem = h.mem.writeBytes (lineKey ln) (mergeLine l.mask l.bytes (h.mem.readBytes (lineKey ln) 64)))
                ∧ (way = false ∨ (s.pkg (ln / 2 ^ 34)).keys.has l.key = false → SameMem s t)))
    ∧ (p.getLsbD 63 = true → Completes (.pref g psz sc m) s s.me)
    ∧ (Reaches s .r p x → s.fencedAt x.pkg s.ctx = false → crew.lines.length < 4096 →
        Answers (.pref g psz sc m) s fun t => SameMem s t ∧ t.me = s.after s.me ∧ (t.crew c.crewNo).lines.has (lineNo x.pkg x.pa) = true)
    ∧ (let len := (s.rg v).toNat
       let from_ := (s.rg b + disp.signExtend 64).toNat
       let kept := s.myCore.icache.filter fun l => !(decide (0 < len) && decide (64 * l.line < from_ + len) && decide (from_ < 64 * l.line + 64))
       CompletesCore (.iflush g v b disp) s { s.myCore with icache := if 2 ^ 24 ≤ len then [] else kept } s.me)
    ∧ (p.getLsbD 63 = true →
        let good := mformOk p = true ∧ ∃ t off, s.sliceOf c p = some (t, off) ∧ s.sliceAllowed s.super s.ctx t = true
        (good → Completes (.tlbprobe g psz d m) s (s.me.wg d (2 ^ 62 + 1))) ∧ (¬ good → Completes (.tlbprobe g psz d m) s (s.me.wg d (2 ^ 62))))
    ∧ (Reaches s .r p x → Completes (.tlbprobe g psz d m) s
        (s.me.wg d ((x.leaf.extractLsb' 0 56).setWidth 64 + BitVec.ofNat 64 (sizeCode x.level) <<< 56)))
    ∧ (∀ r, mformOk p = true → p.getLsbD 63 = false → (s.translate c s.ctx false p.toNat).2 = .error r → isWait r = false →
        Completes (.tlbprobe g psz d m) s (s.me.wg d (2 ^ 63 + BitVec.ofNat 64 r)) ∧ Completes (.pref g psz sc m) s s.me)
    ∧ (∀ (t : StrandId) (pc : Word) (bs : List Byte) (w : State),
        let line := pc.toNat / 64
        let fill : Instr := .instructionLineFill t pc
        (s.core t.core).icache.any (fun l => l.ctx == s.ctxOf t && l.line == line) = false →
        s.waitsAt t.core (s.ctxOf t) (BitVec.ofNat 64 (line * 64)) = false →
        s.lineBytes t.core (s.ctxOf t) (t.slot == 0) (BitVec.ofNat 64 (line * 64)) false = (w, .ok bs) →
        (parityOk bs = true → (w.core t.core).icache.length < 256 →
          Becomes fill s (w.modCore t.core fun k => { k with icache := ⟨s.ctxOf t, line, bs⟩ :: k.icache }))
        ∧ (∀ bs' w', parityOk bs = false → w.lineBytes t.core (s.ctxOf t) (t.slot == 0) (BitVec.ofNat 64 (line * 64)) true = (w', .ok bs') →
            parityOk bs' = false → Answers fill s fun y => (y.core t.core).mcheck = some 0xB0))

/-- R209 to R213: tdef writes the descriptor's fields into the tile's entry, tfree its reset value, tset.empty and tset.ready its STATE with FMARK clear; each waits while the tile has a reader or is neither EMPTY nor READY, tset.ready unless it is EMPTY; a bad descriptor is MFMT. tstat copies the entry or ring register. rdef sets the ring, and waits while a slot is taken; qadv.tail publishes slots; qadv.head empties the head's tiles and frees their slots; MRING where there are not so many. No other tile, ring, register or byte of memory changes. That tdef's descriptor is the bitwise or of the immediate and g[ga][47:0] is the model's choice (log 59). -/
def Obligations.TilesAndRings : Prop :=
  ∀ (g : Guard) (t : TReg) (a d : Reg) (i : Imm48) (q : QReg) (size : BitVec 7) (s : State), s.me.guard g = true →
    let k := s.myCore
    let x := t.toNat
    let free := k.readersOf x = 0 ∧ (tileSt (k.tile x) = 0 ∨ tileSt (k.tile x) = 2)
    let desc := (i ||| (s.rg a).setWidth 48).toNat
    let bad := desc / 2 ^ 45 ≠ 0 ∨ desc / 2 ^ 22 % 32 = 15
    let r := k.ring q.toNat
    let n := i.toNat
    let fault (j : Instr) (e : Nat) : Prop := exec j s = .next (s.charge.raiseMe (s.fault e))
    (bad → fault (.tdef g t a i) 0x69)
    ∧ (¬ free → (¬ bad → Stalls (.tdef g t a i) s) ∧ Stalls (.tfree g t) s ∧ Stalls (.tsetEmpty g t) s)
    ∧ (free → (¬ bad → CompletesCore (.tdef g t a i) s (k.defTile x (tdefEntry desc)) s.me)
        ∧ CompletesCore (.tfree g t) s (k.defTile x 0) s.me ∧ CompletesCore (.tsetEmpty g t) s (k.setTile x 0 false) s.me)
    ∧ (tileSt (k.tile x) ≠ 0 → Stalls (.tsetReady g t) s)
    ∧ (tileSt (k.tile x) = 0 → CompletesCore (.tsetReady g t) s (k.setTile x 2 false) s.me)
    ∧ Completes (.tstat g d (.tile t)) s (s.me.wg d (k.tile x)) ∧ Completes (.tstat g d (.ring q)) s (s.me.wg d (k.rings.get 0 q.toNat))
    ∧ (∀ e, e < 2 ^ 45 → let w := tdefEntry e
        tileSt w = (if e.testBit 27 then 2 else 0) ∧ tileMark w = false ∧ tileShape w = e / 2 ^ 17 % 32 ∧ tileFmt w = e / 2 ^ 22 % 32
        ∧ tileBase w = e % 2 ^ 17 ∧ tileScales w = e / 2 ^ 28)
    ∧ (∀ w st, st < 4 → let e := (k.defTile x w).setTile x st false
        (k.defTile x w).tile x = w ∧ tileSt (e.tile x) = st ∧ tileMark (e.tile x) = false ∧ tileShape (e.tile x) = tileShape w
        ∧ tileFmt (e.tile x) = tileFmt w ∧ tileBase (e.tile x) = tileBase w ∧ tileScales (e.tile x) = tileScales w
        ∧ ∀ y, y ≠ x → e.tile y = k.tile y)
    ∧ (r.filled + r.free ≠ r.size → Stalls (.rdef g q t size) s)
    ∧ (r.filled + r.free = r.size → CompletesCore (.rdef g q t size) s (k.setRing q.toNat ⟨x, size.toNat, 0, 0, 0, size.toNat⟩) s.me)
    ∧ (r.size = 0 ∨ r.size - r.filled - r.free < n → fault (.qadvTail g q i) 0x6D)
    ∧ (r.size ≠ 0 → n ≤ r.size - r.filled - r.free →
        CompletesCore (.qadvTail g q i) s (k.setRing q.toNat { r with filled := r.filled + n }) s.me)
    ∧ (r.size = 0 ∨ r.filled < n → fault (.qadvHead g q i) 0x6D)
    ∧ (r.size ≠ 0 → n ≤ r.filled →
        let tiles := (List.range n).map fun j => r.first + (r.head + j) % r.size
        ((∃ y, y ∈ tiles ∧ k.readersOf y ≠ 0) → Stalls (.qadvHead g q i) s)
        ∧ ((∀ y, y ∈ tiles → k.readersOf y = 0) →
            let emptied := tiles.foldl (fun c y => c.tileTo y 0) k
            CompletesCore (.qadvHead g q i) s (emptied.setRing q.toNat
              { r with head := (r.head + n) % r.size, filled := r.filled - n, free := r.free + n }) s.me
            ∧ (∀ y, y ∈ tiles → tileSt (emptied.tile y) = 0) ∧ (∀ y, y ∉ tiles → emptied.tile y = k.tile y)))
    ∧ (∀ y : Ring, y.first < 64 → y.size < 128 → y.head < 64 → y.tail < 64 → y.filled < 128 → y.free < 128 → (k.setRing q.toNat y).ring q.toNat = y)

/-- R214, R215, R305, R412: cp and cpx check form and alignment, putt and gett form and a slice address; a tile of FMT 15 is MFMT, a marked one its fault, one outside program space MRANGE; the command stalls while two wait or the tile is not EMPTY for an inward copy or READY for an outward one; else it is queued with its tile FILLING, with one reader more, or DRAINING, and cp and cpx take the evput.cp bindings. The oldest queued command starts when fewer than two commands and course ops run: a cp so, a cpx once its header of eight words has been read and checked (R217, R218), ending with MSHAPE, MFMT or MSLICE where a check fails, a putt or gett with a packet to its peer, which waits while an access of the core to that tile is outstanding; a malformed shape ends it with MSHAPE. At the completion of a cp with a slice the tile holds the bytes that stood there, or the slice the tile's; at that of a cpx between a tile and a slice in one format each element, block and scale byte stands at its place (R125, R217), a later element winning where places meet; of two formats the contents are converted as R219 says, by R83, R89, R90 or by wrapping. A putt or gett ends by its peer's answer: the bytes of a gett stand in its tile, and a refusal is FNACK or its code, anything else FTIME. The tile is READY, or EMPTY after .rel, a failed one marked with MCOPY (R216); the reserved bits of an s56 tile are written zero (R77). That cpx's range check is over the places of its elements, the order of the header's checks and the place of an s56 tensor's exponent word (log 53), that the bytes move in the completion step (log 24) and the form of what a putt or gett sends (log 21) is the model's choice. -/
def Obligations.CopyCommands : Prop :=
  (∀ (g : Guard) (dir : CpDir) (sc : Scope) (t peer : TReg) (b : Reg) (m : MAddr) (rel : Bool) (s : State), s.me.guard g = true →
    let u := s.charge
    let k := s.myCore
    let a := s.rg m.base + s.rg m.idx + m.disp.signExtend 64
    let x := t.toNat
    let w := k.tile x
    let ws := s.shapeWords s.cur.core (tileShape w)
    let ds := (tileBytes w ws).getD (0, 0)
    let mode : CopyMode := match dir with | .inn => .inn | .out => .out | .outr => .outr
    let memFault (i : Instr) (e : Nat) (addr : Word) : Prop := exec i s = .next (u.raiseMe (s.faultA e addr))
    let enters (i : Instr) (mode : CopyMode) (kind : Nat) (addr : Word) : Prop :=
      let out := (if kind = 1 ∧ isPlane (tileFmt w) = false ∧ tileFmt w ≠ 13 then cpxRangeBad w ws else decide (0x1E000 < tileBase w + ds.1))
        || (ds.2 != 0 && decide (0x1E000 < tileScales w + ds.2))
      (tileFmt w = 15 → exec i s = .next (u.raiseMe (s.fault 0x69)))
      ∧ (tileFmt w ≠ 15 → tileMark w = true → exec i s = .next (u.raiseMe (u.markFault x 0x6C)))
      ∧ (tileFmt w ≠ 15 → tileMark w = false →
        (out = true → exec i s = .next (u.raiseMe (s.fault 0x6B)))
        ∧ (out = false →
          (kind = 0 → addr.getLsbD 63 = true → 0x20000 < addr.toNat % 2 ^ 17 + ds.1 + ds.2 → memFault i 0x64 addr)
          ∧ (¬ (kind = 0 ∧ addr.getLsbD 63 = true ∧ 0x20000 < addr.toNat % 2 ^ 17 + ds.1 + ds.2) →
            (2 ≤ (k.copies.filter fun y => !y.started).length ∨ tileSt w ≠ (if mode = .inn then 0 else 2) → Stalls i s)
            ∧ ((k.copies.filter fun y => !y.started).length < 2 → tileSt w = (if mode = .inn then 0 else 2) →
              let bound := (s.me.binds.filter fun y => y.2 == .cp).map Prod.fst
              let cmd : CopyCmd := ⟨i, s.cur.slot, s.cur.gid, s.ctx, s.super, s.me.pc, addr, x, ds.1, ds.2, ws,
                if kind = 2 then [] else bound.map fun e => s.me.e.get eReset e, false, 0, none, [], none⟩
              let taken := match mode with | .inn => k.tileTo x 1 | .out => k.addReader x | .outr => k.tileTo x 3
              CompletesCore i s { taken with copies := k.copies ++ [cmd] }
                (if kind = 2 then s.me else { s.me with binds := s.me.binds.filter fun y => y.2 != .cp })))))
    (mformOk a = false → memFault (.cp g dir sc t m) 0x60 a ∧ memFault (.cpx g dir sc t m) 0x60 a)
    ∧ (mformOk a = true → (a.toNat % 8 ≠ 0 → memFault (.cp g dir sc t m) 0x63 a) ∧ (a.toNat % 64 ≠ 0 → memFault (.cpx g dir sc t m) 0x63 a)
        ∧ (a.toNat % 8 = 0 → enters (.cp g dir sc t m) mode 0 a) ∧ (a.toNat % 64 = 0 → enters (.cpx g dir sc t m) mode 1 a))
    ∧ (let p := s.rg b
       (mformOk p = false → memFault (.putt g rel t b peer) 0x60 p ∧ memFault (.gett g rel t b peer) 0x60 p)
       ∧ (mformOk p = true → (p.getLsbD 63 = false → memFault (.putt g rel t b peer) 0x64 p ∧ memFault (.gett g rel t b peer) 0x64 p)
          ∧ (p.getLsbD 63 = true → enters (.putt g rel t b peer) (if rel then .outr else .out) 2 p ∧ enters (.gett g rel t b peer) .inn 2 p))))
  ∧ (∀ (c : CoreId) (s : State) (cmd : CopyCmd) (place : Nat) (mode : CopyMode) (sc : Scope),
    let k := s.core c
    let w := k.tile cmd.tile
    k.mcheck = none → copyOf cmd.instr = some (mode, sc, 0) →
    ((k.copies.filter CopyCmd.started).length + (k.courses.foldl (fun n x => n + x.2.started.length + x.2.old.length) 0) < 2 →
      k.copies.find? (fun x => !x.started) = some cmd → [0, 1].find? (fun p => !(k.copies.any fun x => x.started && x.place == p)) = some place →
      tileFmt w = 13 ∨ (tileBytes w cmd.shape).isSome = true → Answers (.copyCommandStart c) s fun t => SameMem s t ∧ OnlyCore c s t
        ∧ (t.core c).copies = k.copies.map (fun x => if x = cmd then { cmd with started := true, place := place, retry := none } else x)
        ∧ (t.core c).tiles = k.tiles)
    ∧ (∀ (x : CoreId) (off : Nat), k.copies.find? (fun x => x.started && x.place == place) = some cmd → cmd.data % 8 = 0 → cmd.scale = 0 →
        cmd.offers = [] → cmd.addr.toNat % 8 = 0 → k.reqs = [] → InSlice s c cmd.ctx cmd.super cmd.addr (cmd.data / 8) x off → s.mem.wf = true →
        let moved (i : Nat) (y : Byte) : Byte := if tileFmt w ≠ 13 then y else if 2050 ≤ i then 0 else if i < 2048 ∧ i % 8 = 7 then y &&& 3 else y
        Answers (.copyCommandCompletion c place) s fun t => OnlyCore c s t ∧ (t.core c).copies = k.copies.filter (fun y => y != cmd)
          ∧ (mode = .inn → tileSt ((t.core c).tile cmd.tile) = 2 ∧ SameMemBut (sliceKey c (tileBase w)) cmd.data s t
              ∧ ∀ i, i < cmd.data → (t.mem.read (sliceKey c (tileBase w) + i)) = moved i (s.mem.read (sliceKey x off + i)))
          ∧ (mode ≠ .inn → SameMemBut (sliceKey x off) cmd.data s t
              ∧ (∀ i, i < cmd.data → t.mem.read (sliceKey x off + i) = moved i (s.mem.read (sliceKey c (tileBase w) + i)))
              ∧ (mode = .outr → tileSt ((t.core c).tile cmd.tile) = 0)
              ∧ (mode = .out → (t.core c).readersOf cmd.tile = k.readersOf cmd.tile - 1))))
  ∧ (∀ (c : CoreId) (s : State) (cmd : CopyCmd) (place : Nat) (mode : CopyMode) (sc : Scope) (kind : Nat),
    let k := s.core c
    let w := k.tile cmd.tile
    let f := tileFmt w
    let began (hdr : List Word) (t : State) : Prop := SameMem s t ∧ (t.core c).tiles = k.tiles
      ∧ (t.core c).copies = k.copies.map fun y => if y = cmd then { cmd with started := true, place := place, retry := none, hdr := hdr } else y
    let fails (i : Instr) (d : Nat) (a : Word) : Prop := Answers i s fun t => SameMem s t ∧ OnlyCore c s t
      ∧ (t.core c).copies = k.copies.filter (fun y => y != cmd) ∧ (∀ d0, (t.core c).deferred.get d0 cmd.tile = ⟨5, 0x6E, d, 0, cmd.fpc, a⟩)
      ∧ tileMark ((t.core c).tile cmd.tile) = true ∧ tileSt ((t.core c).tile cmd.tile) = (if mode = .inn then 0 else 2)
    let done (t : State) : Prop := (t.core c).copies = k.copies.filter (fun y => y != cmd)
      ∧ (mode = .inn → tileSt ((t.core c).tile cmd.tile) = 2) ∧ (mode = .outr → tileSt ((t.core c).tile cmd.tile) = 0)
      ∧ (mode = .out → (t.core c).readersOf cmd.tile = k.readersOf cmd.tile - 1)
    k.mcheck = none → copyOf cmd.instr = some (mode, sc, kind) →
    ((k.copies.filter CopyCmd.started).length + (k.courses.foldl (fun n x => n + x.2.started.length + x.2.old.length) 0) < 2 →
      k.copies.find? (fun x => !x.started) = some cmd → [0, 1].find? (fun p => !(k.copies.any fun x => x.started && x.place == p)) = some place →
      (¬ (f = 13 ∨ (tileBytes w cmd.shape).isSome = true) → fails (.copyCommandStart c) 0x6A 0)
      ∧ (f = 13 ∨ (tileBytes w cmd.shape).isSome = true →
        (∀ x off, kind = 1 → k.reqs = [] → cmd.addr.toNat % 8 = 0 → InSlice s c cmd.ctx cmd.super cmd.addr 8 x off →
          let hw := (List.range 8).map (s.sliceWord x off)
          (thdrOf hw = none → fails (.copyCommandStart c) 0x6A 0)
          ∧ ∀ h, thdrOf hw = some h →
            let bad := cpxCheck h f cmd.shape (mode == .inn)
            (∀ d, bad = some d → fails (.copyCommandStart c) d 0) ∧ (bad = none → h.leaves = true → fails (.copyCommandStart c) 0x64 h.base)
            ∧ (bad = none → h.leaves = false → Answers (.copyCommandStart c) s fun t => OnlyCore c s t ∧ began hw t))
        ∧ (kind = 2 → s.sliceOf c cmd.addr = none → fails (.copyCommandStart c) 0x93 0)
        ∧ (∀ x off, kind = 2 → s.sliceOf c cmd.addr = some (x, off) →
          let count := match shapeOf cmd.shape with | some h => h.count | none => 0
          let bytes := tileClean f (s.mem.readBytes (sliceKey c (tileBase w)) cmd.data ++ s.mem.readBytes (sliceKey c (tileScales w)) cmd.scale)
          let hdr : Hdr := ⟨x, c, cmd.slot, k.nextTag, cmd.ctx, {}⟩
          let asks (m : TileMsg) : Prop :=
            (k.reqs = [] → Answers (.copyCommandStart c) s fun t => began cmd.hdr t ∧ (t.core c).reqs.has k.nextTag = true ∧ Sent (.tileTransferArrival m) t)
            ∧ (∀ d sb r b, x ≠ c → tileBytes ((s.core x).tile m.tile) (s.shapeWords x (tileShape ((s.core x).tile m.tile))) = some (d, sb) →
                r ∈ k.reqs → (b < d ∧ r.2.line = sliceLine x (tileBase ((s.core x).tile m.tile) + b)) ∨ (b < sb ∧ r.2.line = sliceLine x
                  (tileScales ((s.core x).tile m.tile) + b)) → Becomes (.copyCommandStart c) s s)
          (∀ g rel t b pt, cmd.instr = .putt g rel t b pt → asks ⟨hdr, false, rel, pt.toNat, f, count, bytes, place, false⟩)
          ∧ ∀ g rel t b pt, cmd.instr = .gett g rel t b pt → asks ⟨hdr, true, rel, pt.toNat, f, count, [], place, false⟩)))
    ∧ (k.copies.find? (fun x => x.started && x.place == place) = some cmd → cmd.offers = [] →
      let i : Instr := .copyCommandCompletion c place
      (kind = 2 → (cmd.answer = none → Becomes i s s)
        ∧ ∀ a, cmd.answer = some a →
          (a.status = .ack → Answers i s fun t => OnlyCore c s t ∧ done t ∧ (mode ≠ .inn → SameMem s t)
            ∧ (mode = .inn → let bs := tileClean f (a.data.flatMap fun y => leBytes 8 y.toNat)
                t.mem = (s.mem.writeBytes (sliceKey c (tileBase w)) (bs.take cmd.data)).writeBytes (sliceKey c (tileScales w))
                  ((bs.drop cmd.data).take cmd.scale)))
          ∧ (a.status = .nack → fails i (if a.cause ≤ 4 then 0x90 else a.cause) 0)
          ∧ (a.status ≠ .ack → a.status ≠ .nack → fails i 0x91 0))
      ∧ ∀ (h : THdr) (sh : Shape) (x : CoreId) (o : Nat → Nat), kind = 1 → thdrOf cmd.hdr = some h → h.fmt = f → k.reqs = [] → s.mem.wf = true →
        s.sliceAllowed cmd.super cmd.ctx x = true → s.sees c x cmd.ctx = true →
        (f = 13 ∧ h.count = 256 ∧ h.soff ≠ 0 ∨ f ≠ 13 ∧ shapeOf cmd.shape = some sh ∧ sh.split = false ∧ sh.count = h.count
          ∧ (isPlane f = true → h.k % 32 = 0 ∧ h.soff ≠ 0)) →
        let size := fmtBits f / 8
        let unit := blockBytes f
        let nb := h.k / 32
        let moves : List (Nat × Nat × Nat × Nat) :=
          if isPlane f then (List.range (h.o * nb)).flatMap fun b =>
            let u := b % nb + b / nb * h.str.getD 1 0
            [(tileBase w + b * unit, u * unit, unit, 0), (tileScales w + b, h.soff + u, 1, 0)]
          else if f = 13 then ((List.range 256).map fun m => (tileBase w + 8 * m, 8 * h.off m, 8, 1)) ++ [(tileScales w, h.soff, 8, 2)]
          else (List.range h.count).map fun m => ((sh.place (tileBase w) m size).2, h.off m * size, size, 0)
        let lies (a n : Nat) : Prop := ∀ j, j < n → let y := h.base + BitVec.ofNat 64 (a + j)
          mformOk y = true ∧ y.getLsbD 63 = true ∧ s.sliceOf c y = some (x, o a + j)
        let kept (z j : Nat) (y : Byte) : Byte := if z = 1 ∧ j = 7 then y &&& 3 else if z = 2 ∧ 2 ≤ j then 0 else y
        let dst (p : Nat × Nat × Nat × Nat) : Nat := if mode = .inn then sliceKey c p.1 else sliceKey x (o p.2.1)
        let src (p : Nat × Nat × Nat × Nat) : Nat := if mode = .inn then sliceKey x (o p.2.1) else sliceKey c p.1
        let apart (p q : Nat × Nat × Nat × Nat) : Prop := dst q + q.2.2.1 ≤ dst p ∨ dst p + p.2.2.1 ≤ dst q
        (f ≠ 11 → (∀ p, p ∈ moves → lies p.2.1 p.2.2.1) → Answers i s fun t => OnlyCore c s t ∧ done t
          ∧ (∀ l p r, moves = l ++ p :: r → (∀ q, q ∈ r → apart p q) → (isPlane f = true → ∀ q, q ∈ l → apart p q) →
              ∀ j, j < p.2.2.1 → t.mem.read (dst p + j) = kept p.2.2.2 j (s.mem.read (src p + j)))
          ∧ (∀ b, (∀ p, p ∈ moves → b < dst p ∨ dst p + p.2.2.1 ≤ b) → t.mem.read b = s.mem.read b))
        ∧ (f = 11 → (∀ m, m < h.count → lies (h.off m / 2) 1) → Answers i s fun t => OnlyCore c s t ∧ done t
          ∧ (let spot (m : Nat) : Nat × Nat := (sliceKey c (sh.nibble (tileBase w) m).2.1, (sh.nibble (tileBase w) m).2.2)
             let there (m : Nat) : Nat × Nat := (sliceKey x (o (h.off m / 2)), h.off m % 2)
             let dst (m : Nat) : Nat × Nat := if mode = .inn then spot m else there m
             let src (m : Nat) : Nat × Nat := if mode = .inn then there m else spot m
             let half (u : State) (p : Nat × Nat) : Nat := (u.mem.read p.1).toNat / 16 ^ p.2 % 16
             (∀ m, m < h.count → (∀ n, m < n → n < h.count → dst n ≠ dst m) → half t (dst m) = half s (src m))
             ∧ (∀ p : Nat × Nat, p.2 < 2 → (∀ m, m < h.count → dst m ≠ p) → half t p = half s p)))))
  ∧ (∀ (hw : List Word) (h : THdr),
    let at_ (i lo n : Nat) : Nat := ((hw.getD i 0).extractLsb' lo n).toNat
    let rank := at_ 5 53 3 + 1
    let ext (d : Nat) : Nat := if rank ≤ d then 1 else at_ (3 + d / 4) (16 * (d % 4)) 16
    (thdrOf hw = none ↔ at_ 5 57 7 ≠ 0 ∨ at_ 6 48 16 ≠ 0 ∨ at_ 7 48 16 ≠ 0 ∨ (∃ d, d < 8 ∧ ext d = 0) ∨ (isPlane (at_ 5 48 5) = true ∧ rank ≠ 2))
    ∧ (thdrOf hw = some h → h.base = hw.getD 0 0 ∧ h.soff = at_ 2 0 40 ∧ h.fmt = at_ 5 48 5 ∧ h.kd = (hw.getD 5 0).getLsbD 56
      ∧ (∀ d, d < 8 → h.ext.getD d 1 = ext d
          ∧ h.str.getD d 0 = if rank ≤ d then 0 else if d = 0 then 1 else if d = 7 then at_ 2 40 24 else at_ (5 + (d - 1) / 2) (24 * ((d - 1) % 2)) 24)
      ∧ h.count = (List.range 8).foldl (fun n d => n * ext d) 1
      ∧ h.k = ext (if h.kd then 1 else 0) ∧ h.o = ext (if h.kd then 0 else 1)
      ∧ (∀ id : Nat → Nat, (∀ d, d < 8 → id d < ext d) → h.off ((List.range 8).foldr (fun d m => id d + ext d * m) 0)
          = (List.range 8).foldl (fun n d => n + id d * h.str.getD d 0) 0))
    ∧ ∀ (f : Nat) (ws : List Word) (inn : Bool),
      let fl (n : Nat) : Prop := 6 ≤ n ∧ n ≤ 11
      let pair (a b : Nat) : Prop := a = b ∨ (fl a ∧ (fl b ∨ 16 ≤ b)) ∨ (16 ≤ a ∧ (fl b ∨ b ≤ 5)) ∨ (a ≤ 5 ∧ 16 ≤ b)
      let pairs : Prop := if inn then pair h.fmt f else pair f h.fmt
      let fits : Prop := if f = 13 then h.count = 256
        else ∃ sh, shapeOf ws = some sh ∧ if isPlane f = true then sh.rank = 2 ∧ sh.split = false ∧ sh.ext.1 = h.ext.getD 0 1
            ∧ sh.ext.2.1 = h.ext.getD 1 1 ∧ (∀ e, e ∈ h.ext.drop 2 → e = 1) ∧ h.k % 32 = 0
          else sh.count = h.count ∧ (isPlane h.fmt = true → h.k % 32 = 0)
      (h.fmt = 15 → cpxCheck h f ws inn = some 0x69) ∧ (h.fmt ≠ 15 → ¬ fits → cpxCheck h f ws inn = some 0x6A)
      ∧ (h.fmt ≠ 15 → fits → ¬ pairs → cpxCheck h f ws inn = some 0x69) ∧ (h.fmt ≠ 15 → fits → pairs → cpxCheck h f ws inn = none))
  ∧ (∀ (c : CoreId) (s u : State) (cmd : CopyCmd) (place : Nat) (mode : CopyMode) (sc : Scope) (h : THdr) (ct : Content),
    let k := s.core c
    let w := k.tile cmd.tile
    let f := tileFmt w
    let turned (a b : Nat) (x : Content) : Content × Nat := convert a b (h.ext.getD 0 1) h.kd h.o (h.k / 32) x
    k.mcheck = none → copyOf cmd.instr = some (mode, sc, 1) → k.copies.find? (fun x => x.started && x.place == place) = some cmd →
    cmd.offers = [] → thdrOf cmd.hdr = some h → s.cpxFar cmd c w = none →
    (mode = .inn → s.cpxLoad cmd c sc h = (u, .ok ct) → Answers (.copyCommandCompletion c place) s fun t =>
        t.mem = (u.tileStore c w cmd.shape (turned h.fmt f ct).1).mem)
    ∧ (mode ≠ .inn → s.cpxStore cmd c sc h (turned f h.fmt (s.tileLoad c w cmd.shape)).1 = (u, .ok ()) → Answers (.copyCommandCompletion c place) s
        fun t => t.mem = u.mem))
  ∧ (∀ (src dst e0 : Nat) (kd : Bool) (O nb : Nat), src ≠ dst →
    let pl (n : Nat) : Plane := ⟨BitVec.ofNat 3 n, decide (24 ≤ n)⟩
    let order (b r : Nat) : Nat := let o := b / nb; let q := 32 * (b % nb) + r
      if kd then q * e0 + o else o * e0 + q
    let from_ (m : Nat) : Nat × Nat := let i1 := m / e0; let i0 := m % e0
      if kd then (i0 * nb + i1 / 32, i1 % 32) else (i1 * nb + i0 / 32, i0 % 32)
    let packed (p : Plane) (b : Nat) (q : Nat → Int) : Prop :=
      ∀ j r, j < p.p1.toNat + 1 → r < 32 → b.testBit (32 * j + r) = (BitVec.ofInt (p.p1.toNat + 1) (q r)).getLsbD j
    let flags (fl n : Nat) (g : Nat → Nat) : Prop := ∀ b, fl.testBit b = true ↔ ∃ m, m < n ∧ (g m).testBit b = true
    (∀ (f g : FFmt) (xs : List Nat) (ew : Nat), fmtOfCode src = some f → fmtOfCode dst = some g → ∃ fl,
      convert src dst e0 kd O nb (.elems xs ew) = (.elems (xs.map fun x => (g.ofValue false false (f.value x)).1) ew, fl)
      ∧ flags fl xs.length fun m => (g.ofValue false false (f.value (xs.getD m 0))).2)
    ∧ (∀ (xs : List Nat) (ew : Nat), 16 ≤ dst → dst < 32 → ∃ bs fl, convert src dst e0 kd O nb (.elems xs ew) = (.blocks bs, fl) ∧ bs.length = O * nb
      ∧ (∀ f : FFmt, fmtOfCode src = some f → ∃ e : Nat → Nat, flags fl (O * nb) e ∧ ∀ b, b < O * nb → ∃ q,
          packed (pl dst) (bs.getD b (0, 0)).1 q
          ∧ Quantised (pl dst) (fun r => f.value (xs.getD (order b r) 0)) (bs.getD b (0, 0)).2 q (e b))
      ∧ (src ≤ 5 → fl = 0 ∧ ∀ b, b < O * nb → (bs.getD b (0, 0)).2 = 127
          ∧ packed (pl dst) (bs.getD b (0, 0)).1 fun r => if src ≤ 2 then (BitVec.ofNat (fmtBits src) (xs.getD (order b r) 0)).toInt
              else (xs.getD (order b r) 0 % 2 ^ fmtBits src : Nat)))
    ∧ (∀ (bs : List (Nat × Nat)), 16 ≤ src → src < 32 → ∃ (v : Nat → Int) (ys : List Nat) (fl : Nat),
      convert src dst e0 kd O nb (.blocks bs) = (.elems ys 0, fl) ∧ ys.length = O * nb * 32
      ∧ (∀ m, m < O * nb * 32 → planeLeast (pl src) ≤ v m ∧ v m ≤ planeGreatest (pl src)
          ∧ ∀ j, j < (pl src).p1.toNat + 1 → (BitVec.ofInt ((pl src).p1.toNat + 1) (v m)).getLsbD j
            = (bs.getD (from_ m).1 (0, 127)).1.testBit (32 * j + (from_ m).2))
      ∧ (∀ g : FFmt, fmtOfCode dst = some g →
          let code (m : Nat) : Nat := (bs.getD (from_ m).1 (0, 127)).2
          let r (m : Nat) : Nat × Nat := if code m = 255 then (g.canon, 2 ^ 4)
            else g.round false false (decide (v m < 0)) (v m).natAbs ((code m : Int) - 127)
          (∀ m, m < O * nb * 32 → ys.getD m 0 = (r m).1) ∧ flags fl (O * nb * 32) fun m => (r m).2)
      ∧ (dst ≤ 5 → fl = 0 ∧ ∀ m, m < O * nb * 32 → ys.getD m 0 = (BitVec.ofInt (fmtBits dst) (v m)).toNat)))

/-- R222, R229, R234, R235, R237, R240, R241, R243, R244: nget and nset read and write a word of a node; a node address or port name out of form is NADDR. nalloc takes the head of the pool's recycled list, else carves the next slot, writes the header and zeros and counts; NPOOLDEF and NPOOL where it cannot; nfree puts a node on the list; npool defines a pool. nstat writes its count. nlink hands the wire of a retiring port, whose word is LINK, FREE or OUTLET, to its target and nlink.join makes one wire of two, the words as the rows of R229 say; a port whose word is EMPTY or REDIRECT is NSTATE, one with a reserved tag NTAG. Where the far end is REDIRECT too, the later port joins the target to the peer's target and clears the peer's port, and the earlier waits (R230). A principal port at an OUTLET that is not ARMED or whose event can be no outlet's makes it FAILED and leaves NOUTLET (R238). A wire of two principal ports pushes their nodes, and npush a pair that it names, on top of the bag. All of a strand whose stores are acknowledged. -/
def Obligations.NetNodes : Prop :=
  ∀ (g : Guard) (a b d : Reg) (i : BitVec 2) (n : BitVec 3) (l : BitVec 5) (keep : Bool) (slots : Imm48) (x y z w : CoreId) (o q r v : Nat) (s : State),
    s.me.guard g = true → s.me.hold = .none →
    let c := s.cur.core
    let k := s.myCore
    let fault (j : Instr) (e : Nat) : Prop := exec j s = .next (s.charge.raiseMe (s.fault e))
    let off (m : Word) : Word := m + BitVec.ofNat 64 (8 * i.toNat)
    let sits (m : Word) (x : CoreId) (o : Nat) : Prop := InSlice s c s.ctx s.super m 1 x o
    let nodeForm (m : Word) : Prop := m.toNat % 32 = 0 ∧ (m.getLsbD 63 = false ∨ m.getLsbD 62 = false)
    let portForm (m : Word) : Prop := m.toNat / 4 % 8 = 0 ∧ m.toNat % 4 ≠ 3 ∧ (m.getLsbD 63 = false ∨ m.getLsbD 62 = false)
    let ph := poolOff n.toNat
    let head := s.sread c (ph + 8) 8
    let total := s.sread c (ph + 0x10) 4
    let carved := s.sread c (ph + 0x14) 4
    let listed := s.sread c (ph + 0x18) 4
    let calm := s.me.unacked = 0 ∧ s.mem.wf = true ∧ ∀ p, p ∈ (s.crew c.crewNo).lines → p.2.dirty = false
    let apart (p q : Nat) : Prop := p + 8 ≤ q ∨ q + 8 ≤ p
    let apartN (p q n : Nat) : Prop := p + 8 ≤ q ∨ q + n ≤ p
    let tagged (m : Word) : Prop := 5 ≤ portTag m ∨ portIdx m = 3 ∨ ((portTag m = 3 ∨ portTag m = 4) ∧ portIdx m ≠ 0)
    let endAt (m : Word) : Word := if portTag m = 3 then portName m else portName m + 8
    let isEnd (m : Word) : Prop := (portTag m = 3 ∨ portTag m = 4) ∧ portIdx m = 0
    let link (m : Word) : Word := m + 4
    let redirect (m : Word) : Word := m + 8
    ((s.rg a).toNat % 64 ≠ 0 → fault (.rtab g a l) 0x7B)
    ∧ ((s.rg a).toNat % 64 = 0 → CompletesCore (.rtab g a l) s { k with rulebase := s.rg a ||| l.setWidth 64, rules := [] } s.me)
    ∧ (¬ nodeForm (s.rg a) → fault (.nget g d a i) 0x70 ∧ fault (.nset g a i b) 0x70 ∧ fault (.nfree g a n) 0x70 ∧ fault (.npush g a b) 0x70)
    ∧ (nodeForm (s.rg a) → sits (off (s.rg a)) x o → Completes (.nget g d a i) s (s.me.wg d (s.sliceWord x o 0))
        ∧ Answers (.nset g a i b) s fun t => StoresAt s.cur (sliceKey x o) 8 s t ∧ t.me = s.after s.me
          ∧ (s.mem.wf = true → t.sliceWord x o 0 = s.rg b))
    ∧ (total = 0 → fault (.nalloc g d a n) 0x75)
    ∧ (total ≠ 0 → head = 0 → total ≤ carved → fault (.nalloc g d a n) 0x74)
    ∧ (total ≠ 0 → head = 0 ∨ InSlice s c s.ctx s.super (BitVec.ofNat 64 head) 4 x o → head ≠ 0 ∨ carved < total →
        let node : Word := if head = 0 then BitVec.ofNat 64 (s.sread c ph 8 + 32 * carved) else BitVec.ofNat 64 head
        InSlice s c s.ctx s.super node 4 x o → o + 32 ≤ 0x1E000 → s.mem.wf = true → Answers (.nalloc g d a n) s fun t =>
          t.me = s.after (s.me.wg d node) ∧ t.sliceHolds x o [s.rg a, 0, 0, 0]
          ∧ StoresTo s.cur [(sliceKey x o, 32), (sliceKey c ph, 32)] s t
          ∧ (head = 0 → t.sread c (ph + 8) 8 = 0 ∧ t.sread c (ph + 0x14) 4 = carved + 1 ∧ t.sread c (ph + 0x18) 4 = listed)
          ∧ (head ≠ 0 → t.sread c (ph + 8) 8 = (s.sliceWord x o 0).toNat ∧ t.sread c (ph + 0x14) 4 = carved
              ∧ t.sread c (ph + 0x18) 4 = (listed + 2 ^ 32 - 1) % 2 ^ 32))
    ∧ (nodeForm (s.rg a) → calm → (total = 0 → fault (.nfree g a n) 0x75)
        ∧ (total ≠ 0 → sits (s.rg a) x o → o + 8 ≤ 0x1E000 → Answers (.nfree g a n) s fun t => t.me = s.after s.me
            ∧ StoresTo s.cur [(sliceKey x o, 8), (sliceKey c ph, 32)] s t
            ∧ t.sliceWord x o 0 = BitVec.ofNat 64 head ∧ t.sread c (ph + 8) 8 = (s.rg a).toNat
            ∧ t.sread c (ph + 0x18) 4 = (listed + 1) % 2 ^ 32 ∧ t.sread c (ph + 0x10) 4 = total))
    ∧ (s.rg a = 0 ∨ (s.rg a).toNat % 32 ≠ 0 → fault (.npool g keep n a slots) 0x75)
    ∧ (s.rg a ≠ 0 → (s.rg a).toNat % 32 = 0 → s.mem.wf = true → Answers (.npool g keep n a slots) s fun t => t.me = s.after s.me
        ∧ StoresAt s.cur (sliceKey c ph) 32 s t ∧ t.sread c ph 8 = (s.rg a).toNat ∧ t.sread c (ph + 0x10) 8 = slots.toNat % 2 ^ 32
        ∧ t.sread c (ph + 8) 8 = (if keep then head else 0) ∧ t.sread c (ph + 0x18) 4 = (if keep then listed else 0))
    ∧ Completes (.nstat g .bag d) s (s.me.wg d (BitVec.ofNat 64 (k.bag.length + (k.spillTail - k.spillHead))))
    ∧ Completes (.nstat g .spill d) s (s.me.wg d (BitVec.ofNat 64 (k.spillTail - k.spillHead)))
    ∧ Completes (.nstat g (.pool n) d) s (s.me.wg d (BitVec.ofNat 64 (if total = 0 then 0 else total - carved + listed)))
    ∧ Completes (.nstat g .shed d) s (s.me.wg d (BitVec.ofNat 64 (k.bag.length + (k.spillTail - k.spillHead)
        + (k.users.filter fun u => u.2.runnable).length)))
    ∧ (let p := s.rg a
       let t := s.rg b
       (¬ (portForm p ∧ portForm t ∧ p ≠ t) → fault (.nlink g a b) 0x70 ∧ fault (.nlinkJoin g a b) 0x70)
       ∧ (portForm p → portForm t → p ≠ t → s.me.unacked ≠ 0 → Answers (.nlink g a b) s fun u => u.me.hold = .phase 0 [] ∧ SameMem s u)
       ∧ (portForm p → portForm t → p ≠ t → calm → sits (portAddr p) x o → sits (portAddr t) y q →
          let f := portName (s.sliceWord x o 0)
          portTag (s.sliceWord x o 0) = 1 → portIdx f ≠ 3 → sits (portAddr f) z r → s.sliceWord z r 0 = link p →
          apart (sliceKey x o) (sliceKey y q) → apart (sliceKey x o) (sliceKey z r) → apart (sliceKey y q) (sliceKey z r) →
          (portIdx t ≠ 0 ∨ portIdx f ≠ 0 → Answers (.nlink g a b) s fun u => u.me = s.after s.me
            ∧ StoresTo s.cur [(sliceKey x o, 8), (sliceKey y q, 8), (sliceKey z r, 8)] s u
            ∧ u.sliceWord x o 0 = redirect t ∧ u.sliceWord y q 0 = link f ∧ u.sliceWord z r 0 = link t)
          ∧ (portIdx t = 0 → portIdx f = 0 → s.pairOwner (t, f) = c → 0 < k.bagRoom → Answers (.nlink g a b) s fun u => u.me = s.after s.me
            ∧ u.myCore.bag = (t, f) :: k.bag))
       ∧ (portForm p → portForm t → p ≠ t → calm → sits (portAddr p) x o → sits (portAddr t) y q →
          let f := s.sliceWord x o 0
          let h := s.sliceWord y q 0
          portTag f = 1 → portTag h = 1 → portIdx f ≠ 3 → portIdx h ≠ 3 → portIdx f ≠ 0 ∨ portIdx h ≠ 0 → portName f ≠ t ∨ portName h ≠ p →
          sits (portAddr (portName f)) z r → sits (portAddr (portName h)) w v → s.sliceWord z r 0 = link p → s.sliceWord w v 0 = link t →
          apart (sliceKey x o) (sliceKey y q) → apart (sliceKey x o) (sliceKey z r) → apart (sliceKey x o) (sliceKey w v) →
          apart (sliceKey y q) (sliceKey z r) → apart (sliceKey y q) (sliceKey w v) → apart (sliceKey z r) (sliceKey w v) →
          Answers (.nlinkJoin g a b) s fun u => u.me = s.after s.me
            ∧ StoresTo s.cur [(sliceKey x o, 8), (sliceKey y q, 8), (sliceKey z r, 8), (sliceKey w v, 8)] s u ∧ u.sliceWord x o 0 = redirect t ∧ u.sliceWord y q 0 = redirect p
            ∧ u.sliceWord z r 0 = h ∧ u.sliceWord w v 0 = f))
    ∧ (let p := s.rg a
       let t := s.rg b
       portForm p → portForm t → p ≠ t → calm → sits (portAddr p) x o → sits (portAddr t) y q →
       let f := s.sliceWord x o 0
       let h := s.sliceWord y q 0
       let stops (i : Instr) (e : Nat) : Prop := exec i s = .next (s.charge.raiseMe (s.faultA e p))
       let two := apart (sliceKey x o) (sliceKey y q)
       let three := two ∧ apart (sliceKey x o) (sliceKey z r) ∧ apart (sliceKey y q) (sliceKey z r)
       let four := three ∧ apart (sliceKey x o) (sliceKey w v) ∧ apart (sliceKey y q) (sliceKey w v) ∧ apart (sliceKey z r) (sliceKey w v)
       let s3 := [(sliceKey x o, 8), (sliceKey y q, 8), (sliceKey z r, 8)]
       (tagged f → stops (.nlink g a b) 0x7A ∧ stops (.nlinkJoin g a b) 0x7A)
       ∧ (¬ tagged f → portTag f = 0 ∨ portTag f = 2 → stops (.nlink g a b) 0x71 ∧ stops (.nlinkJoin g a b) 0x71)
       ∧ (¬ tagged f → portTag f ≠ 0 → portTag f ≠ 2 → (tagged h → stops (.nlinkJoin g a b) 0x7A)
          ∧ (¬ tagged h → portTag h = 0 ∨ portTag h = 2 → stops (.nlinkJoin g a b) 0x71))
       ∧ (isEnd f → portTag f = 3 ∨ portIdx t ≠ 0 → sits (endAt f) z r → three → Answers (.nlink g a b) s fun u => u.me = s.after s.me
          ∧ StoresTo s.cur s3 s u ∧ u.sliceWord x o 0 = redirect t ∧ u.sliceWord y q 0 = f ∧ u.sliceWord z r 0 = link t)
       ∧ (isEnd f → portTag f = 4 → portIdx t = 0 → InSlice s c s.ctx s.super (portName f) 3 z r → two →
          apartN (sliceKey x o) (sliceKey z r) 24 → apartN (sliceKey y q) (sliceKey z r) 24 →
          (s.sliceWord z r 2).toNat % 4 ≠ 0 ∨ (hKind (s.sliceWord z r 0) ≠ .sync ∧ hKind (s.sliceWord z r 0) ≠ .xfer) →
          Answers (.nlink g a b) s fun u => u.me = s.after { s.me with upcalls := s.me.upcalls ++ [faultAt s.me.pc 0x78] }
            ∧ StoresTo s.cur [(sliceKey x o, 8), (sliceKey y q, 8), (sliceKey z r + 8, 16)] s u
            ∧ u.sliceWord x o 0 = redirect t ∧ u.sliceWord y q 0 = f ∧ u.sliceWord z r 1 = link t ∧ u.sliceWord z r 2 = 2)
       ∧ (isEnd f → isEnd h → sits (endAt f) z r → sits (endAt h) w v → four → Answers (.nlinkJoin g a b) s fun u => u.me = s.after s.me
          ∧ StoresTo s.cur ((sliceKey w v, 8) :: s3) s u ∧ u.sliceWord x o 0 = redirect t ∧ u.sliceWord y q 0 = redirect p
          ∧ u.sliceWord z r 0 = h ∧ u.sliceWord w v 0 = f)
       ∧ (portTag f = 1 → portIdx f ≠ 3 → isEnd h → portTag h = 3 ∨ portIdx f ≠ 0 → sits (portAddr (portName f)) z r → s.sliceWord z r 0 = link p →
          sits (endAt h) w v → four → Answers (.nlinkJoin g a b) s fun u => u.me = s.after s.me
            ∧ StoresTo s.cur ((sliceKey w v, 8) :: s3) s u ∧ u.sliceWord x o 0 = redirect t ∧ u.sliceWord y q 0 = redirect p
            ∧ u.sliceWord z r 0 = h ∧ u.sliceWord w v 0 = f)
       ∧ (let e := portName f
          let m := s.sliceWord z r 0
          portTag f = 1 → portIdx f ≠ 3 → sits (portAddr e) z r → portTag m = 2 → portIdx m ≠ 3 → portName m ≠ p → portName m ≠ e → three →
          (p.toNat < e.toNat → Answers (.nlink g a b) s fun u => u.me.hold = .phase 12 [p.toNat] ∧ u.me.pc = s.me.pc
            ∧ StoresTo s.cur [(sliceKey x o, 8)] s u ∧ u.sliceWord x o 0 = redirect t)
          ∧ (e.toNat < p.toNat → sits (portAddr (portName m)) w v → ¬ tagged (s.sliceWord w v 0) → portTag (s.sliceWord w v 0) ≠ 2 → four →
             portIdx t ≠ 0 ∨ portIdx m ≠ 0 → Answers (.nlink g a b) s fun u => u.me = s.after s.me
               ∧ StoresTo s.cur ((sliceKey w v, 8) :: s3) s u ∧ u.sliceWord x o 0 = redirect t ∧ u.sliceWord y q 0 = link (portName m)
               ∧ u.sliceWord w v 0 = link t ∧ u.sliceWord z r 0 = 0)))
    ∧ (nodeForm (s.rg a) → nodeForm (s.rg b) → calm →
        (s.pairOwner (s.rg a, s.rg b) = c → 0 < k.bagRoom → Answers (.npush g a b) s fun t => t.me = s.after s.me ∧ SameMem s t
          ∧ t.myCore.bag = (s.rg a, s.rg b) :: k.bag)
        ∧ (∀ m, m ≠ c → s.pairOwner (s.rg a, s.rg b) = m → Asks (.npush g a b) s fun tag =>
            .pairPush ⟨⟨m, c, s.cur.slot, tag, s.ctx, {}⟩, [(s.rg a, s.rg b)]⟩))

/-- R226, R227, R234, R235, R242, R243, R392: nnext outside ROLE interaction is NROLE and with a malformed table size NRTAB; as a yield point it reloads BUDGET; on an empty bag its strand waits, and a pair placed goes to the waiting strand; a pair whose rule in the cache is a handler leaves the bag and g1 to g5 hold the nodes in canonical order, their headers and the rule's word, with the PC at the handler. nshed takes up to g[ga] pairs, at most 512, from the bottom and writes the count that the neighbour took, none where the neighbour is retired, serves another context or is full; the neighbour's hardware part takes what it has room for, and the rest is at the bottom again. A push from another core goes on top, or is refused where the core is retired, serves another context, has fenced it (R349) or has no room; a machine-checked core answers RETRY (R350) and gives none of its strands a pair. That the pairs on their way to a neighbour count in a bag's room is the model's choice (log 34). -/
def Obligations.NetWork : Prop :=
  (∀ (g : Guard) (d a : Reg) (dir : ShedDir) (s : State), s.me.guard g = true →
    let c := s.cur.core
    let k := s.myCore
    let empty := k.bag = [] ∧ k.spillTail ≤ k.spillHead
    let l := k.rulebase.toNat % 32
    let fault (e : Nat) : Prop := exec (.nnext g) s = .next (s.charge.raiseMe (s.fault e))
    (s.me.hold = .none →
      (s.me.role ≠ 1 → fault 0x77)
      ∧ (s.me.role = 1 → l < 4 ∨ 20 < l → fault 0x7B)
      ∧ (s.me.role = 1 → 4 ≤ l → l ≤ 20 → s.me.taker = none → s.me.notices = [] → s.cur.slot ≠ 0 →
        let left := if k.wdogHnd < s.me.lastDl then k.wdogHnd else s.me.lastDl
        (empty → Answers (.nnext g) s fun t => OnlyStrand s.cur s t ∧ t.me.hold = .phase 30 [] ∧ t.me.mode = .waiting ∧ t.me.left = left
          ∧ t.me.issued = some (.nnext g))
        ∧ (∀ p rest x o y q key w0 w1 i j r, k.bag = p :: rest → (k.popped + 1) % 256 ≠ 0 → InSlice s c s.ctx s.super p.1 1 x o →
            InSlice s c s.ctx s.super p.2 1 y q →
            let h0 := s.sliceWord x o 0
            let h1 := s.sliceWord y q 0
            let swap := nodeType h1 < nodeType h0 ∨ (nodeType h0 = nodeType h1 ∧ p.2.toNat < p.1.toNat)
            let ha := if swap then h1 else h0
            let hb := if swap then h0 else h1
            key = nodeType ha * 4096 + nodeType hb → k.rules.find? (fun e => e.1 == key) = some (key, [w0, w1]) →
            ruleOf w0 w1 = .ok (i, j, r) → r.kind = 0 → Answers (.nnext g) s fun t => SameMem s t ∧ t.myCore.bag = rest
              ∧ t.me.pc = r.hpc ∧ t.me.checkT = true ∧ t.me.issued = none ∧ t.me.left = left
              ∧ t.me.rg 1 = (if swap then p.2 else p.1) ∧ t.me.rg 2 = (if swap then p.1 else p.2) ∧ t.me.rg 3 = ha ∧ t.me.rg 4 = hb
              ∧ t.me.rg 5 = BitVec.ofNat 64 r.hword ∧ (∀ m, m = 0 ∨ 5 < m → t.me.rg m = s.me.rg m) ∧ t.me.p = s.me.p)))
    ∧ (s.me.hold = .none →
      let t := neighbour c dir
      let n := min 512 (s.rg a).toNat
      let takes := (s.core t).retired = false ∧ (s.core t).ctx = s.ctx ∧ 0 < (s.core t).bagRoom
      (¬ takes ∨ n = 0 ∨ empty → Completes (.nshed g d a dir) s (s.me.wg d 0))
      ∧ (takes → n ≠ 0 → k.bag ≠ [] → k.spillTail ≤ k.spillHead →
          Asks (.nshed g d a dir) s (fun tag => .pairShed ⟨⟨t, c, s.cur.slot, tag, s.ctx, {}⟩, k.bag.reverse.take n⟩)
          ∧ Answers (.nshed g d a dir) s fun u => u.myCore.bag = k.bag.take (k.bag.length - n) ∧ SameMem s u))
    ∧ (∀ r, s.me.hold = .got r → r.malformed = false → k.spillTail ≤ k.spillHead → k.bag.length + (pairsOf r.data.tail).length ≤ 512 →
        let back := { k with bag := k.bag ++ (pairsOf r.data.tail).reverse }
        let waits := k.users.any fun u => u.2.waitsNet
        (waits = false → CompletesCore (.nshed g d a dir) s back (s.me.wg d (r.data.headD 0)))
        ∧ (waits = true → pairsOf r.data.tail ≠ [] → Answers (.nshed g d a dir) s fun t => t.me = s.after (s.me.wg d (r.data.headD 0))
            ∧ t.myCore.bag = back.bag ∧ SameMem s t ∧ Sent (.bagPop c) t))
    ∧ (∀ y : Core, y.bagRoom = min (512 - y.bag.length) (1024 - (y.bag.length + (y.spillTail - y.spillHead) + y.shedding))))
  ∧ (∀ (c : CoreId) (s : State) (slot : Nat) (x : Strand) (l : List (Nat × Strand)) (p : Word × Word),
      ((s.core c).users.filter fun u => u.2.waitsNet) = (slot, x) :: l → (s.core c).bag.getLast? = some p →
      ((s.core c).mcheck ≠ none → Becomes (.bagPop c) s s) ∧ ((s.core c).mcheck = none → Answers (.bagPop c) s fun t =>
        SameMem s t ∧ (t.core c).bag = (s.core c).bag.dropLast
        ∧ (t.core c).strand slot = { (s.core c).strand slot with mode := .ready, hold := .phase 31 [p.1.toNat, p.2.toNat, match x.hold with | .phase 30 [n] => n | _ => 0] }))
  ∧ (∀ (m : PairMsg) (s : State), m.hdr.odd = {} →
      let k := s.core m.hdr.target
      let words := m.pairs.flatMap fun p => [p.1, p.2]
      let refused := s.fencedHdr m.hdr = true ∨ k.retired = true ∨ k.ctx ≠ m.hdr.ctx
      let room := if k.retired = true ∨ k.ctx ≠ m.hdr.ctx then 0 else k.bagRoom
      (k.mcheck ≠ none → Answers (.pairPush m) s fun t => t.cores = s.cores ∧ SameMem s t ∧ Sent (replyTo m.hdr .retry 0 0 words) t)
      ∧ (k.mcheck = none → refused ∨ k.bagRoom = 0 → Answers (.pairPush m) s fun t => t.cores = s.cores ∧ SameMem s t
          ∧ Sent (replyTo m.hdr .nack 0x93 0 words) t)
      ∧ (k.mcheck = none → ¬ refused → 0 < k.bagRoom → Answers (.pairPush m) s fun t => SameMem s t
          ∧ (t.core m.hdr.target).bag = m.pairs ++ k.bag ∧ Sent (replyTo m.hdr .ack 0 0 words) t)
      ∧ (k.mcheck ≠ none → Answers (.pairShed m) s fun t => t.cores = s.cores ∧ SameMem s t ∧ Sent (replyTo m.hdr .retry 0 0 (0 :: words)) t)
      ∧ (k.mcheck = none → s.fencedHdr m.hdr = true → Answers (.pairShed m) s fun t => t.cores = s.cores ∧ SameMem s t
          ∧ Sent (replyTo m.hdr .nack 0x93 0 (0 :: words)) t)
      ∧ (k.mcheck = none → s.fencedHdr m.hdr = false → Answers (.pairShed m) s fun t => SameMem s t ∧ (t.core m.hdr.target).bag = (m.pairs.take room).reverse ++ k.bag
          ∧ Sent (replyTo m.hdr .ack 0 0 (BitVec.ofNat 64 (min room m.pairs.length) :: (m.pairs.drop room).flatMap fun p => [p.1, p.2])) t))

/-- R292 to R298: amsend sends the message of seven words and its address to the core of a slice address and waits; accepted it completes, refused it faults FNACK or the refusal's code. At the target a message of a handler enters a free message strand when none is queued, with g1 to g8 as R296 says, else the inbox, else the overflow ring; RETRY when both are full; a message of a fenced context (R349), or for a core that is retired or serves another context, is refused with FTARGET, a malformed handler word is NACK cause 4 (R289), and a machine-checked core answers RETRY (R350); a message for an unbound slot waits in the context's pending queue and fails with FUNBOUND. The oldest queued message is dispatched to a free message strand. amnext outside ROLE message is FAMROLE, else the strand waits; ambind writes its slot's table entry. The position 68 that ARG reports for ambind's address is the model's choice (log 38), and so is the form of the pending queue and of the dispatch (log 56). -/
def Obligations.Messages : Prop :=
  (∀ (g : Guard) (a h v : Reg) (tag : Byte) (ring : Bool) (slot : BitVec 11) (s : State), s.me.guard g = true →
    let c := s.cur.core
    let fault (i : Instr) (r : Report) : Prop := exec i s = .next (s.charge.raiseMe r)
    let send : Instr := .amsend g a h v tag
    let bind : Instr := .ambind g ring a slot
    let entry := s.myCore.handlertab + BitVec.ofNat 64 (8 * slot.toNat)
    (s.me.hold = .none →
      (mformOk (s.rg a) = false → fault send (s.faultA 0x60 (s.rg a)))
      ∧ (mformOk (s.rg a) = true → (s.rg a).getLsbD 63 = true → s.sliceOf c (s.rg a) = none → fault send (s.fault 0x93))
      ∧ (∀ t off, mformOk (s.rg a) = true → (s.rg a).getLsbD 63 = true → s.sliceOf c (s.rg a) = some (t, off) → Asks send s fun rt =>
          .amArrival ⟨⟨t, c, s.cur.slot, rt, s.ctx, {}⟩, s.rg h, [s.rg v, s.rg (v + 1), s.rg (v + 2), s.rg (v + 3), s.rg (v + 4), s.rg (v + 5)], tag, s.rg a, none⟩)
      ∧ (s.me.role ≠ 2 → fault (.amnext g) (s.fault 0x95))
      ∧ (s.me.role = 2 → s.me.taker = none → s.me.notices = [] → s.cur.slot ≠ 0 → Answers (.amnext g) s fun t => SameMem s t
          ∧ t.me.hold = .phase 40 [] ∧ t.me.mode = .waiting ∧ t.me.issued = some (.amnext g) ∧ t.me.pc = s.me.pc ∧ t.me.g = s.me.g
          ∧ t.me.left = (if s.myCore.wdogHnd < s.me.lastDl then s.myCore.wdogHnd else s.me.lastDl) ∧ Sent (.amDispatch c) t))
    ∧ (∀ r, s.me.hold = .got r → (r.status = .ack → Completes send s s.me)
        ∧ (r.status = .nack → fault send (if r.cause ≤ 4 then { s.fault 0x90 with inner := r.cause } else { s.fault (r.cause % 256) with inner := r.inner }))
        ∧ (r.status = .retry → fault send (s.fault 0x91)))
    ∧ ((s.rg a).toNat % 64 ≠ 0 → fault bind (s.illegal 5 68))
    ∧ (∀ x o, (s.rg a).toNat % 64 = 0 → InSlice s c s.ctx s.super entry 1 x o → s.pending c.pkg s.ctx = [] → s.mem.wf = true →
        Answers bind s fun t => StoresTo s.cur [(sliceKey x o, 8)] s t ∧ t.me = s.after s.me
          ∧ t.sliceWord x o 0 = (if s.rg a = 0 then 0 else s.rg a ||| (if ring then 3 else 1))))
  ∧ (∀ (m : AmMsg) (s : State), m.hdr.odd = {} →
    let c := m.hdr.target
    let k := s.core c
    let refused := s.fencedHdr m.hdr = true ∨ k.retired = true ∨ 200 ≤ c.row ∨ k.ctx ≠ m.hdr.ctx
    let bad := if m.hword.getLsbD 0 then m.hword.toNat / 2 ^ 12 ≠ 0 else m.hword.toNat / 2 % 32 ≠ 0
    let tells (st : ReplyStatus) (cause : Nat) (t : State) : Prop := Sent (replyTo m.hdr st cause 0 []) t
    let last := BitVec.ofNat 64 (StrandId.gid ⟨m.hdr.src, m.hdr.slot⟩ % 2 ^ 32 * 2 ^ 32 + m.hdr.ctx % 2 ^ 16 * 2 ^ 16 + m.tag.toNat)
    let enters (slot : Nat) (t : State) : Prop :=
      let y := (t.core c).strand slot
      y.pc = m.hword ∧ y.checkT = true ∧ y.mode = .ready ∧ y.hold = .none ∧ (∀ i, i < 6 → y.rg (BitVec.ofNat 6 (i + 1)) = m.args.getD i 0)
        ∧ y.rg 7 = last ∧ y.rg 8 = m.addr ∧ (∀ r : Reg, r = 0 ∨ 8 < r → y.rg r = (k.strand slot).rg r) ∧ y.p = (k.strand slot).p
    (k.mcheck ≠ none → Answers (.amArrival m) s fun t => t.cores = s.cores ∧ tells .retry 0 t)
    ∧ (k.mcheck = none → refused → Answers (.amArrival m) s fun t => t.cores = s.cores ∧ tells .nack 0x93 t)
    ∧ (k.mcheck = none → ¬ refused → bad → Answers (.amArrival m) s fun t => t.cores = s.cores ∧ tells .nack 4 t)
    ∧ (k.mcheck = none → ¬ refused → ¬ bad → m.hword.getLsbD 0 = false →
      (∀ slot, k.inbox = [] → k.freeMsgStrand = some slot → Answers (.amArrival m) s fun t => SameMem s t
        ∧ enters slot t ∧ tells .ack 0 t)
      ∧ (k.freeMsgStrand = none → k.inbox.length < 16 → Answers (.amArrival m) s fun t => SameMem s t
        ∧ (t.core c).inbox = k.inbox ++ [{ m with retry := none }] ∧ (t.core c).strands = k.strands ∧ tells .ack 0 t)
      ∧ (k.freeMsgStrand = none → 16 ≤ k.inbox.length → k.ovfTail - k.ovfHead < 64 → s.mem.wf = true → Answers (.amArrival m) s fun t =>
        t.sliceHolds c (0x1E000 + 64 * (k.ovfTail % 64)) (m.hword :: (List.range 6).map (fun i => m.args.getD i 0) ++ [last])
        ∧ (t.core c).ovfTail = k.ovfTail + 1 ∧ (t.core c).inbox = k.inbox ∧ tells .ack 0 t)
      ∧ (k.freeMsgStrand = none → 16 ≤ k.inbox.length → 64 ≤ k.ovfTail - k.ovfHead → Answers (.amArrival m) s fun t =>
        t.cores = s.cores ∧ SameMem s t ∧ tells .retry 0 t)
      ∧ (∀ r slot, k.mcheck = none → k.inbox = m :: r → k.freeMsgStrand = some slot → Answers (.amDispatch c) s fun t => SameMem s t
        ∧ enters slot t ∧ (t.core c).inbox = r))
    ∧ (∀ x o, k.mcheck = none → ¬ refused → ¬ bad → m.hword.getLsbD 0 = true →
      InSlice s c m.hdr.ctx (m.hdr.ctx == 0) (k.handlertab + BitVec.ofNat 64 (8 * (m.hword.toNat / 2 % 2048))) 1 x o →
      (s.sliceWord x o 0).toNat / 4 % 16 = 0 → (s.sliceWord x o 0).getLsbD 0 = false →
      let q := s.pending c.pkg m.hdr.ctx
      (q.length < 16 → Answers (.amArrival m) s fun t => t.cores = s.cores ∧ SameMem s t
        ∧ t.pending c.pkg m.hdr.ctx = q ++ [({ m with retry := none }, s.time c.pkg)] ∧ Sent (.funbound c.pkg { m with retry := none }) t)
      ∧ (16 ≤ q.length → Answers (.amArrival m) s fun t => t.cores = s.cores ∧ tells .retry 0 t))
    ∧ (∀ p, (∃ n, (m, n) ∈ s.pending p m.hdr.ctx) → Answers (.funbound p m) s fun t => t.cores = s.cores ∧ SameMem s t
        ∧ t.pending p m.hdr.ctx = (s.pending p m.hdr.ctx).filter (fun y => y.1 != m) ∧ tells .nack 0x92 t))

/-- R299 to R305: append checks form, slice and alignment, sends its row and waits; it writes the count of the answer, or bit 63 and 1 for a full ring. At the target a record of header and row stands at the ring's tail, after a pad where it does not fit before the end, TAIL advances and the answer carries the record's position; a full ring counts a drop, and a malformed descriptor is FRING. csend adds each value to its element in f32 and leaves the rest. An accepted putt finds its tile EMPTY and makes it FILLING, then writes its bytes and makes it READY; an accepted gett finds it READY and counts as a reader, then returns its bytes, the tile EMPTY after .rel, which waits for other readers (log 24); a putt that fails once accepted leaves its tile EMPTY and marked (R196), with the fault that log 24 names; the reserved bits of an s56 tile are written zero (R77). A fenced context (R349), a slice that the sender may not use (R188) and a tile of another format or count (R305, cause 4) are refused, and a machine-checked core answers RETRY (R350). That a BASE which is no multiple of 64 is FRING is the model's choice (log 57). -/
def Obligations.RemoteWrites : Prop :=
  (∀ (g : Guard) (d r b : Reg) (n1 : BitVec 3) (rel : Bool) (disp : Imm48) (s : State), s.me.guard g = true →
    let c := s.cur.core
    let a := s.rg b + disp.signExtend 64
    let i : Instr := .append g d r n1 rel b disp
    let fault (e : Nat) : Prop := exec i s = .next (s.charge.raiseMe (s.faultA e a))
    (s.me.hold = .none →
      (mformOk a = false → fault 0x60) ∧ (mformOk a = true → a.getLsbD 63 = false → fault 0x64)
      ∧ (mformOk a = true → a.getLsbD 63 = true → a.toNat % 64 ≠ 0 → fault 0x63)
      ∧ (∀ t off, mformOk a = true → a.getLsbD 63 = true → a.toNat % 64 = 0 → s.sliceOf c a = some (t, off) →
        t = c ∨ s.myCore.busyLine (sliceKey t off / 64 + 1) = false →
        rel = false ∨ (s.me.unacked = 0 ∧ ∀ p, p ∈ (s.crew c.crewNo).lines → p.2.dirty = false) → Asks i s fun tag =>
          .appendArrival ⟨⟨t, c, s.cur.slot, tag, s.ctx, {}⟩, off, (List.range (n1.toNat + 1)).map fun j => s.rg (r + BitVec.ofNat 6 j)⟩))
    ∧ (∀ x, s.me.hold = .got x → (x.status = .ack → Completes i s (s.me.wg d (x.data.headD 0)))
        ∧ (x.status = .full → Completes i s (s.me.wg d (2 ^ 63 + 1)))))
  ∧ (∀ (m : AppendMsg) (s : State),
    let c := m.hdr.target
    let base := s.sread c m.off 8 % 2 ^ 17
    let size := s.sread c m.off 8 / 2 ^ 17 % 2 ^ 17
    let tail := s.sread c (m.off + 8) 4
    let head := s.sread c (m.off + 0x10) 4
    let good := s.sread c m.off 8 / 2 ^ 34 = 0 ∧ size ≠ 0 ∧ size % 64 = 0 ∧ base % 64 = 0 ∧ base + size ≤ 0x1E000
    let may := (s.core c).mcheck = none ∧ m.hdr.odd = {} ∧ (c = m.hdr.src ∨ s.fencedHdr m.hdr = false) ∧ s.sliceAllowed (m.hdr.slot == 0) m.hdr.ctx c = true
    let rec_ := BitVec.ofNat 64 (StrandId.gid ⟨m.hdr.src, m.hdr.slot⟩ % 2 ^ 32 * 2 ^ 24 + 8 * m.row.length) :: m.row
    let l := 8 * rec_.length
    let pos := tail % size
    let free := size - (tail + 2 ^ 32 - head) % 2 ^ 32
    let tells (st : ReplyStatus) (cause : Nat) (data : List Word) (t : State) : Prop := Sent (replyTo m.hdr st cause 0 data) t
    ((s.core c).mcheck ≠ none → Answers (.appendArrival m) s fun t => SameMem s t ∧ tells .retry 0 [] t)
    ∧ (may → ¬ good → Answers (.appendArrival m) s fun t => SameMem s t ∧ tells .nack 0x96 [] t)
    ∧ (may → good → m.row.length ≤ 8 → s.mem.wf = true → m.off + 32 ≤ base ∨ base + size ≤ m.off →
      (pos + l ≤ size → l ≤ free → Answers (.appendArrival m) s fun t => t.cores = s.cores ∧ t.sliceHolds c (base + pos) rec_
        ∧ t.sread c (m.off + 8) 4 = (tail + l) % 2 ^ 32 ∧ tells .ack 0 [BitVec.ofNat 64 tail] t)
      ∧ (size < pos + l → pos + 8 ≤ size → size - pos + l ≤ free → Answers (.appendArrival m) s fun t => t.cores = s.cores
        ∧ t.sliceWord c (base + pos) 0 = BitVec.ofNat 64 (2 * 2 ^ 16 + (size - pos - 8)) ∧ t.sliceHolds c base rec_
        ∧ t.sread c (m.off + 8) 4 = (tail + (size - pos) + l) % 2 ^ 32 ∧ tells .ack 0 [BitVec.ofNat 64 ((tail + (size - pos)) % 2 ^ 32)] t)
      ∧ (free < (if size < pos + l then size - pos + l else l) → Answers (.appendArrival m) s fun t => t.cores = s.cores
        ∧ SameMemBut (sliceKey c (m.off + 0x1C)) 4 s t ∧ t.sread c (m.off + 0x1C) 4 = (s.sread c (m.off + 0x1C) 4 + 1) % 2 ^ 32
        ∧ tells .full 0 [] t)))
  ∧ (∀ (m : CsendMsg) (s : State),
    let c := m.hdr.target
    let k := s.core c
    let refused := s.fencedHdr m.hdr = true ∨ s.sliceAllowed (m.hdr.slot == 0) m.hdr.ctx c = false
    let at_ (i : Nat) := m.off + 4 * (32 * m.block + i)
    let adds := ((List.range 32).filter fun i => m.mask.getLsbD i).zip m.vals
    k.mcheck = none → m.hdr.odd = {} →
    (refused → Answers (.csendArrival m) s fun t => SameMem s t ∧ Sent (replyTo m.hdr .nack 0x93 0 []) t)
    ∧ (¬ refused → m.off % 128 ≠ 0 ∨ 0x1E000 < m.off + m.total → Answers (.csendArrival m) s fun t => SameMem s t
        ∧ Sent (replyTo m.hdr .nack 4 0 []) t)
    ∧ (¬ refused → m.off % 128 = 0 → m.off + m.total ≤ 0x1E000 → s.mem.wf = true → Answers (.csendArrival m) s fun t =>
        t.cores = s.cores ∧ Sent (replyTo m.hdr .ack 0 0 []) t
        ∧ (∀ p, p ∈ adds → t.sread c (at_ p.1) 4
            = (FFmt.addV .f32 false false (FFmt.value .f32 (s.sread c (at_ p.1) 4)) (FFmt.value .f32 p.2.toNat)).1 % 2 ^ 32)
        ∧ (∀ b, (∀ p, p ∈ adds → b < sliceKey c (at_ p.1) ∨ sliceKey c (at_ p.1) + 4 ≤ b) → t.mem.read b = s.mem.read b)))
  ∧ (∀ (m : TileMsg) (d sb : Nat) (s : State),
    let c := m.hdr.target
    let k := s.core c
    let w := k.tile m.tile
    let ws := s.shapeWords c (tileShape w)
    let refused := s.fencedHdr m.hdr = true ∨ k.retired = true ∨ k.ctx ≠ m.hdr.ctx
    let count := match shapeOf ws with | some h => h.count | none => 0
    let i : Instr := .tileTransferArrival m
    let onlyTile (t : State) : Prop := (∀ d, d.key ≠ c.key → t.core d = s.core d) ∧ (∀ n, n ≠ m.tile → (t.core c).tile n = k.tile n) ∧ (t.core c).strands = k.strands
    let lost (cause : Nat) : Prop := Answers i s fun t => SameMem s t ∧ onlyTile t ∧ Sent (replyTo m.hdr .nack cause 0 []) t
      ∧ (m.landed = false → t.cores = s.cores)
      ∧ (m.landed = true → m.get = true → (t.core c).readersOf m.tile = k.readersOf m.tile - 1 ∧ (t.core c).tiles = k.tiles)
      ∧ (m.landed = true → m.get = false → tileSt w = 1 → tileSt ((t.core c).tile m.tile) = 0 ∧ tileMark ((t.core c).tile m.tile) = true
          ∧ ∀ d0, (t.core c).deferred.get d0 m.tile = ⟨5, 0x6E, if cause ≤ 4 then 0x90 else cause, 0, 0, 0⟩)
    (∀ f j, j < m.bytes.length → (tileClean f m.bytes).getD j 0 = (if f ≠ 13 then m.bytes.getD j 0 else if 2050 ≤ j then 0
      else if j < 2048 ∧ j % 8 = 7 then m.bytes.getD j 0 &&& 3 else m.bytes.getD j 0))
    ∧ (k.mcheck ≠ none → Answers i s fun t => t.cores = s.cores ∧ SameMem s t ∧ Sent (replyTo m.hdr .retry 0 0 []) t)
    ∧ (k.mcheck = none → m.hdr.odd = {} →
    (refused → lost 0x93)
    ∧ (¬ refused → tileBytes w ws = none → lost 4)
    ∧ (¬ refused → tileBytes w ws = some (d, sb) →
      (tileFmt w ≠ m.fmt ∨ count ≠ m.count → lost 4)
      ∧ (tileFmt w = m.fmt → count = m.count → m.landed = false →
        (tileSt w ≠ (if m.get then 2 else 0) ∨ ((m.get = false ∨ m.rel = true) ∧ k.readersOf m.tile ≠ 0) → Answers i s fun t => t.cores = s.cores ∧ SameMem s t ∧ Sent (replyTo m.hdr .retry 0 0 []) t)
        ∧ (m.get = true → tileSt w = 2 → (m.rel = true → k.readersOf m.tile = 0) → Answers i s fun t => SameMem s t ∧ onlyTile t
            ∧ (t.core c).tiles = k.tiles ∧ (t.core c).readersOf m.tile = k.readersOf m.tile + 1 ∧ Sent (.tileTransferArrival { m with landed := true }) t)
        ∧ (m.get = false → tileSt w = 0 → k.readersOf m.tile = 0 → Answers i s fun t => SameMem s t ∧ onlyTile t
            ∧ tileSt ((t.core c).tile m.tile) = 1 ∧ Sent (.tileTransferArrival { m with landed := true }) t))
      ∧ (tileFmt w = m.fmt → count = m.count → m.landed = true →
        (m.get = true → tileSt w = 2 → (m.rel = true → k.readersOf m.tile ≤ 1) → Answers i s fun t => SameMem s t ∧ onlyTile t
            ∧ tileSt ((t.core c).tile m.tile) = (if m.rel then 0 else 2) ∧ (t.core c).readersOf m.tile = k.readersOf m.tile - 1
            ∧ (let bs := tileClean (tileFmt w) (s.mem.readBytes (sliceKey c (tileBase w)) d ++ s.mem.readBytes (sliceKey c (tileScales w)) sb)
               Sent (.reply { src := c, dst := m.hdr.src, rtag := m.hdr.rtag, status := .ack, bulk := true, data := wordsOf bs }) t))
        ∧ (m.get = true → tileSt w = 2 → m.rel = true → 1 < k.readersOf m.tile → Answers i s fun t => SameMem s t ∧ t.cores = s.cores ∧ Sent i t)
        ∧ (m.get = false → tileSt w = 1 → Answers i s fun t => onlyTile t ∧ tileSt ((t.core c).tile m.tile) = 2
            ∧ (let bs := tileClean (tileFmt w) m.bytes
               t.mem = (s.mem.writeBytes (sliceKey c (tileBase w)) (bs.take d)).writeBytes (sliceKey c (tileScales w)) ((bs.drop d).take sb))
            ∧ Sent (replyTo m.hdr .ack 0 0 []) t)))))

/-- R306 to R310: crsload of a busy slot or an image out of alignment is FCOURSE; an image of one empty op with DEP 0 is loaded; crsgo begins a loaded slot's instance with the bases of its operand or the old ones, queues one start behind a busy one, and faults FCOURSE on an unloaded slot and FCRSBUSY where one is queued; crsstat writes the word of R310. An empty op completes at once: it is done, its successors count down, and the last makes the instance DONE. A COPY op moves its bytes; a START op asks its peer, which begins, queues or refuses; a core that is retired or serves another context refuses it with FTARGET (R291, R292), and so does one whose package has fenced the context (R349). The crsgo that names a base table waits for the strand's earlier stores (R389). That an op which a failed instance has started completes beside the slot, and that a COPY address which is no multiple of 8 is MALIGN, is the model's choice (log 54). -/
def Obligations.Courses : Prop :=
  (∀ (g : Guard) (z : Bool) (a d : Reg) (count : Imm48) (x : CoreId) (off : Nat) (s : State), s.me.guard g = true → s.me.hold = .none →
    let c := s.cur.core
    let n := if z then 1 else 0
    let y := s.myCore.course n
    let img := s.rg a
    let fault (i : Instr) (e : Nat) : Prop := exec i s = .next (s.charge.raiseMe (s.fault e))
    let sets (i : Instr) (y' : Course) : Prop := Answers i s fun t => SameMem s t ∧ t.me = s.after s.me ∧ t.myCore.course n = y'
      ∧ (∀ j, j ≠ n → t.myCore.course j = s.myCore.course j) ∧ OnlyCoreOf s.cur s t
    (y.busy = true ∨ img.toNat % 64 ≠ 0 → fault (.crsload g z a count) 0x97)
    ∧ (y.busy = false → img.toNat % 64 = 0 → count = 0 → fault (.crsload g z a count) 0x97)
    ∧ (y.busy = false → img.toNat % 64 = 0 → count = 1 → InSlice s c s.ctx (s.ctx == 0) img 4 x off → s.sliceHolds x off [0, 0, 0, 0] →
        sets (.crsload g z a count) { y with image := img, ctx := s.ctx, loaded := true, deps0 := [0] })
    ∧ (let go : Instr := .crsgo g z a
       let begins (bases : List Word) : Course := { y with
         st := 1, bases := bases, starter := some s.cur.gid, ops := y.deps0.length, doneOps := [], started := [],
         old := y.started.foldl (fun l p => l.set p.1 (y.bases, p.2)) y.old, deps := y.deps0.zipIdx.map fun q => (q.2, q.1) }
       (a ≠ 0 → img.toNat % 64 ≠ 0 → exec go s = .next (s.charge.raiseMe (s.faultA 0x63 img)))
       ∧ (a = 0 ∨ img.toNat % 64 = 0 → (y.loaded = false → fault go 0x97)
          ∧ (y.loaded = true → y.busy = true → y.queued ≠ none → fault go 0x98))
       ∧ (y.loaded = true → a = 0 → (y.busy = false → sets go (begins y.bases))
          ∧ (y.busy = true → y.queued = none → sets go { y with queued := some (y.bases, some s.cur.gid) }))
       ∧ (y.loaded = true → a ≠ 0 → img.toNat % 64 = 0 → y.busy = false ∨ y.queued = none → s.me.unacked ≠ 0 →
          Answers go s fun t => OnlyStrand s.cur s t ∧ t.me.hold = .phase 0 [] ∧ t.me.pc = s.me.pc)
       ∧ (y.loaded = true → a ≠ 0 → img.toNat % 64 = 0 → s.me.unacked = 0 → InSlice s c s.ctx (s.ctx == 0) img 8 x off →
          let bases := (List.range 8).map (s.sliceWord x off)
          (y.busy = false → sets go (begins bases)) ∧ (y.busy = true → y.queued = none → sets go { y with queued := some (bases, some s.cur.gid) })))
    ∧ Completes (.crsstat g z d) s (s.me.wg d (BitVec.ofNat 64 (y.st * 2 ^ 62 + (if y.queued.isSome then 2 ^ 61 else 0) + y.failOp % 2 ^ 10 * 2 ^ 51
        + y.failDet % 2 ^ 8 * 2 ^ 43 + (y.ops - y.doneOps.length) % 2 ^ 11 * 2 ^ 32 + y.insts % 2 ^ 32))))
  ∧ (∀ (c x v w : CoreId) (slot op off p q : Nat) (o : Op) (s : State),
    let k := s.core c
    let y := k.course slot
    let ends (t : State) : Prop :=
      let z := (t.core c).course slot
      let all := y.doneOps.length + 1 = y.deps0.length
      z.doneOps = y.doneOps ++ [op] ∧ z.deps = o.next.foldl (fun e j => e.upd 0 j fun n => n - 1) y.deps ∧ z.started.has op = false
        ∧ z.st = (if all then 2 else 1) ∧ z.insts = (if all then (y.insts + 1) % 2 ^ 32 else y.insts)
    k.mcheck = none → y.queued = none → y.st = 1 →
    (y.runnable op = true → (k.copies.filter CopyCmd.started).length + (k.courses.foldl (fun n x => n + x.2.started.length + x.2.old.length) 0) < 2 →
      InSlice s c y.ctx (y.ctx == 0) (y.image + BitVec.ofNat 64 (32 * op)) 4 x off →
      let ws := (List.range 4).map (s.sliceWord x off)
      opOf y.deps0.length ws = some o →
      (o.kind = 0 → Answers (.courseOpStart c slot op) s fun t => SameMem s t ∧ ends t)
      ∧ (o.kind = 1 → Answers (.courseOpStart c slot op) s fun t => SameMem s t ∧ Sent (.courseOpCompletion c slot op) t
          ∧ ((t.core c).course slot).started.get [] op = ws)
      ∧ (o.kind = 3 → (opAddr y.bases o.src).getLsbD 63 = true → s.sliceOf c (opAddr y.bases o.src) = some (v, p) →
          Answers (.courseOpStart c slot op) s fun t => SameMem s t ∧ ((t.core c).course slot).started.get [] op = ws
          ∧ Sent (.courseStart ⟨⟨v, c, noSlot, k.nextTag, y.ctx, {}⟩, o.len.toNat % 2, y.bases⟩) t))
    ∧ (y.old = [] → y.started.has op = true → opOf y.deps0.length (y.started.get [] op) = some o → o.kind = 1 →
      (opAddr y.bases o.src).toNat % 8 ≠ 0 ∨ (opAddr y.bases o.dst).toNat % 8 ≠ 0 → Answers (.courseOpCompletion c slot op) s fun t =>
        SameMem s t ∧ (let z := (t.core c).course slot; z.st = 3 ∧ z.failOp = op ∧ z.failDet = 0x63))
    ∧ (y.old = [] → y.started.has op = true → opOf y.deps0.length (y.started.get [] op) = some o → o.kind = 1 →
      (opAddr y.bases o.src).toNat % 8 = 0 → (opAddr y.bases o.dst).toNat % 8 = 0 →
      InSlice s c y.ctx (y.ctx == 0) (opAddr y.bases o.src) (o.len.toNat / 8) v p → InSlice s c y.ctx (y.ctx == 0) (opAddr y.bases o.dst) (o.len.toNat / 8) w q →
      (s.core v).mcheck = none → (s.core w).mcheck = none → v = c ∨ s.fencedAt v.pkg y.ctx = false → w = c ∨ s.fencedAt w.pkg y.ctx = false →
      s.mem.wf = true → k.reqs = [] → y.doneOps.length + 1 < y.deps0.length → Answers (.courseOpCompletion c slot op) s fun t =>
        ends t ∧ SameMemBut (sliceKey w q) o.len.toNat s t ∧ ∀ i, i < o.len.toNat → t.mem.read (sliceKey w q + i) = s.mem.read (sliceKey v p + i)))
  ∧ (∀ (m : CourseMsg) (s : State),
    let c := m.hdr.target
    let k := s.core c
    let y := k.course m.slot
    let refused := s.fencedHdr m.hdr = true ∨ k.retired = true ∨ k.ctx ≠ m.hdr.ctx
    k.mcheck = none → m.hdr.odd = {} →
    (refused → Answers (.courseStart m) s fun t => t.cores = s.cores ∧ Sent (replyTo m.hdr .nack 0x93 0 []) t)
    ∧ (¬ refused → y.loaded = true → y.busy = false → Answers (.courseStart m) s fun t => ((t.core c).course m.slot).st = 1
        ∧ ((t.core c).course m.slot).bases = m.bases ∧ Sent (replyTo m.hdr .ack 0 0 []) t)
    ∧ (¬ refused → y.loaded = false → Answers (.courseStart m) s fun t => t.cores = s.cores ∧ Sent (replyTo m.hdr .nack 0x97 0 []) t)
    ∧ (¬ refused → y.loaded = true → y.busy = true → y.queued ≠ none → Answers (.courseStart m) s fun t => t.cores = s.cores
        ∧ Sent (replyTo m.hdr .nack 0x98 0 []) t))

/-- R289, R290, R314, R350: a malformed request is refused with cause 2 to 4 and counted; a slice of a machine-checked core answers RETRY, a fenced context's packet is refused and a slice that the requester may not use is MSLICE; a lapsed locator at a home is STALE, an empty key slot MKEY; else the request is performed on the bytes at its key, those of a home as its key slot sees them, and acknowledged with the loaded or old value. A reply gives the waiting strand its answer, or counts one store less; RETRY sends the request again after 64 ticks while less than 10,000 have passed, then it fails as FTIME. A redirect completes its request too; after STALE or REROUTE the strand's instruction starts over; a request to a settling page is sent again once none that was sent before it to the page is outstanding. Nothing of a machine-checked core changes at a reply (R350). The order of the refusals, where more than one holds, and the tick at which a resend or FTIME falls, are the model's choice (log 58). -/
def Obligations.MemoryPackets : Prop :=
  (∀ (m : MemReq) (x : CoreId) (off pkg pa key n : Nat) (bs : List Byte) (op : AtomOp) (v e : Word) (red : Bool) (s : State),
    let ans (st : ReplyStatus) (cause : Nat) (data : List Word) : Instr :=
      .reply { src := reqDst m, dst := m.src, rtag := m.rtag, status := st, cause := cause, data := data }
    let ld := Instr.ldPacket m
    let st := Instr.stPacket m
    let atom := Instr.atomPacket m
    let answers (i : Instr) (st : ReplyStatus) (cause : Nat) (data : List Word) : Prop :=
      Answers i s fun t => t.cores = s.cores ∧ SameMem s t ∧ Sent (ans st cause data) t
    let does (h : State) (k : Nat) : Prop :=
      (m.op = .ld n → answers ld .ack 0 (wordsOf (h.mem.readBytes k n)))
      ∧ (m.op = .st bs → Answers st s fun t => t.cores = s.cores ∧ t.mem = h.mem.writeBytes k bs ∧ t.seals = h.seals ∧ Sent (ans .ack 0 []) t)
      ∧ (m.op = .atom op n v e red → Answers atom s fun t => t.cores = s.cores ∧ SameMemBut k n h t
          ∧ (s.mem.wf = true → t.readN k n = atomNew op n (h.readN k n) v.toNat e.toNat % 2 ^ (8 * n))
          ∧ Sent (ans .ack 0 (if red then [] else [BitVec.ofNat 64 (h.readN k n)])) t)
    let sub : Bool := match m.op with
      | .ld _ => decide (m.sub < 4) | .st _ => decide (m.sub < 4 ∨ (8 ≤ m.sub ∧ m.sub < 12)) | .atom _ _ _ _ _ => decide (m.sub < 11)
    let len := match m.op with | .ld _ => 2 | .st _ => 3 | .atom .cas _ _ _ _ => 4 | .atom _ _ _ _ _ => 3
    let formed := sub = true ∧ m.len = len ∧ m.rsvd = 0
    (m.tgt = .slice x off →
      (¬ formed → ∀ i, i ∈ [ld, st, atom] → Answers i s fun t => SameMem s t ∧ (t.core x).drops = (s.core x).drops + 1
        ∧ Sent (ans .nack (if sub = false then 2 else if m.len ≠ len then 3 else 4) []) t)
      ∧ (formed → (s.core x).mcheck ≠ none → ∀ i, i ∈ [ld, st, atom] → answers i .retry 0 [])
      ∧ (formed → (s.core x).mcheck = none → s.fencedAt x.pkg m.ctx = true → ∀ i, i ∈ [ld, st, atom] → answers i .nack 0x93 [])
      ∧ (formed → (s.core x).mcheck = none → s.fencedAt x.pkg m.ctx = false →
          (s.sliceAllowed m.super m.ctx x = false → ∀ i, i ∈ [ld, st, atom] → answers i .nack 0x64 [])
          ∧ (s.sliceAllowed m.super m.ctx x = true → off + opBytes m.op ≤ 131072 → does s (sliceKey x off))))
    ∧ (m.tgt = .mem pkg pa key → formed →
      let late := (s.time pkg % 2 ^ 32 + 2 ^ 32 - m.lexp.toNat) % 2 ^ 32
      (1 ≤ late → late ≤ 2 ^ 31 → ∀ i, i ∈ [ld, st, atom] → answers i .stale 0 [])
      ∧ (late = 0 ∨ 2 ^ 31 < late → (s.fencedAt pkg m.ctx = true → ∀ i, i ∈ [ld, st, atom] → answers i .nack 0x93 [])
          ∧ (s.fencedAt pkg m.ctx = false → (s.pkg pkg).wakes = [] → (s.pkg pkg).frameReserved (pa / 2 ^ 16) = false →
              ((s.pkg pkg).keys.has key = false → ∀ i, i ∈ [ld, st, atom] → answers i .nack 0x67 [])
              ∧ ((s.pkg pkg).keys.has key = true → m.fwd = false → does (s.under key (memKey pkg pa) (opBytes m.op)) (memKey pkg pa))))))
  ∧ (∀ (m : ReplyMsg) (tag : Nat) (r : Req) (s : State), (s.core m.dst).reqs.find? (fun q => q.1 == m.rtag) = some (tag, r) →
    let c := m.dst
    let k := s.core c
    let sliceOnly : Prop := ∀ q, r.pkt = .ldPacket q ∨ r.pkt = .stPacket q ∨ r.pkt = .atomPacket q → ∃ x off, q.tgt = .slice x off
    let data := if m.data = [] then pktPairs r.pkt else m.data
    let ends (i : Instr) (a : Answer) : Prop :=
      (r.use = .strand → sliceOnly → (k.strand r.slot).hold = .wait tag → (k.strand r.slot).mode = .waiting → Answers i s fun t => SameMem s t
        ∧ (t.core c).strand r.slot = { k.strand r.slot with hold := .got a, mode := .ready } ∧ (t.core c).reqs.has tag = false)
      ∧ (∀ slot, r.use = .store slot → sliceOnly → a.status = .ack →
          Answers i s fun t => SameMem s t
          ∧ (t.core c).strand slot = { k.strand slot with unacked := (k.strand slot).unacked - 1 } ∧ (t.core c).reqs.has tag = false)
    let fill := r.data.getD 0 0 = 1
    let ln := lineNo (r.data.getD 1 0) (r.data.getD 2 0)
    let waits := r.use = .strand ∧ (k.strand r.slot).hold = .wait tag ∧ (k.strand r.slot).mode = .waiting
    let again (t : State) : Prop := (t.core c).reqs.has tag = false ∧ (t.core c).strand r.slot = { k.strand r.slot with hold := .none, mode := .ready }
    (k.mcheck ≠ none → Becomes (.reply m) s s ∧ Becomes (.redirect m) s s)
    ∧ (k.mcheck = none → ¬ fill → m.status = .ack ∨ m.status = .nack ∨ m.status = .full → ends (.reply m) ⟨m.status, m.cause, m.inner, data⟩
      ∧ (m.loc = none → ends (.redirect m) ⟨m.status, m.cause, m.inner, data⟩)
      ∧ (∀ l, m.loc = some l → waits → Answers (.redirect m) s fun t => (t.core c).reqs.has tag = false
          ∧ (t.core c).strand r.slot = { k.strand r.slot with hold := .got ⟨m.status, m.cause, m.inner, data⟩, mode := .ready }))
    ∧ (k.mcheck = none → fill → m.status = .ack → m.data ≠ [] → (s.crew c.crewNo).lines.has ln = false →
        s.aliases c.crewNo (r.loc c (r.data.getD 1 0) (r.data.getD 2 0)) = [] → waits → Answers (.reply m) s fun t =>
        (t.core c).reqs.has tag = false ∧ (t.core c).strand r.slot = { k.strand r.slot with hold := .got ⟨.ack, m.cause, m.inner, m.data⟩, mode := .ready }
        ∧ (s.isVoid c tag = false → (t.crew c.crewNo).lines.has ln = true))
    ∧ (k.mcheck = none → waits → (∃ q, r.pkt = .ldPacket q ∨ r.pkt = .stPacket q ∨ r.pkt = .atomPacket q) →
        (m.status = .stale → Answers (.reply m) s fun t => SameMem s t ∧ again t)
        ∧ (m.status = .reroute → m.loc ≠ none → Answers (.reply m) s again))
    ∧ (k.mcheck = none → m.status = .retry → Answers (.reply m) s fun t => SameMem s t ∧ t.cores = s.cores
        ∧ (s.time c.pkg + 64 ≤ r.since + 10000 → ∃ p, p ∈ t.agenda ∧ p.step = .retryResend c tag ∧ p.due = some (c.pkg, s.time c.pkg + 64))
        ∧ (r.since + 10000 < s.time c.pkg + 64 → ∃ p, p ∈ t.agenda ∧ p.step = .ftime c tag ∧ p.due = some (c.pkg, r.since + 10000)))
    ∧ (let behind := ∃ p, r.page = some p ∧ p ∈ k.settling ∧ ∃ q, q ∈ k.reqs ∧ q.2.page = some p ∧ q.2.seq < r.seq
       (¬ behind → Answers (.retryResend c m.rtag) s fun t => SameMem s t ∧ t.cores = s.cores ∧ Sent r.pkt t)
       ∧ (behind → Answers (.retryResend c m.rtag) s fun t => SameMem s t ∧ t.cores = s.cores
          ∧ ∃ p, p ∈ t.agenda ∧ p.step = .retryResend c tag ∧ p.due = some (c.pkg, s.time c.pkg + 64)))
    ∧ (k.mcheck ≠ none → Becomes (.ftime c m.rtag) s s)
    ∧ (k.mcheck = none → waits → Answers (.ftime c m.rtag) s fun t => SameMem s t ∧ (t.core c).strand r.slot = { k.strand r.slot with hold := .got { status := .retry, data := pktPairs r.pkt }, mode := .ready }))

/-- R281 to R288: of the flits at a router one alone there is delivered at its core, else it moves to a neighbouring router from which fewest hops remain to its core, or to the port switch of the torus direction toward another package (log 22). There it goes onto an ACTIVE port of that direction behind what is on that link, is refused with FLINK where all six have FAILED (a request's sender is told by a NACK of the switch, an offer by a refusal, a claim as gone, while a reply stays), and else stays. A flit on an ACTIVE port that passes its checks enters at the port's switch, one that fails is counted and stays, a failed authentication adding an alarm of level 1 to the log (R349); other ports take none. One flow gap after a failure a port's flows are given up. Training locks four lanes or two and goes to SUMMARY, else to the next attempt; agreeing summaries make both ends ACTIVE, others send both to the next attempt. The places of the port switches (log 22), which link is taken where several lead closest and that FLINK needs all six ports FAILED (log 35), that both ends train again after a failed summary, that the alarm of level 1 falls at each failed authentication and how each kind of packet learns of FLINK (log 58) are the model's choice. -/
def Obligations.RoutersAndPorts : Prop :=
  (∀ (pkg col row age : Nat) (l r : List Pending) (p : Pending) (dst : CoreId) (s : State),
    let there (q : Pending) : Prop := ∃ d a, q.route = .router pkg col row d a
    let dir := (s.outDir pkg dst.pkg).1
    let nb := (s.outDir pkg dst.pkg).2
    let goal := if dst.pkg = pkg then dst else switchOf pkg dir
    let st (i : Nat) : LinkSt := ((s.pkg pkg).port (portNo dir i)).st
    let asker : Instr → Option (CoreId × Nat)
      | .ldPacket m | .stPacket m | .atomPacket m => some (m.src, m.rtag)
      | .amArrival m => some (m.hdr.src, m.hdr.rtag) | .appendArrival m => some (m.hdr.src, m.hdr.rtag)
      | .csendArrival m => some (m.hdr.src, m.hdr.rtag) | .tmxArrival m => some (m.hdr.src, m.hdr.rtag)
      | .tileTransferArrival m => some (m.hdr.src, m.hdr.rtag) | .courseStart m => some (m.hdr.src, m.hdr.rtag)
      | .pairPush m | .pairShed m => some (m.hdr.src, m.hdr.rtag)
      | .strandStartArrival m | .placementDescent _ m _ => some (m.hdr.src, m.hdr.rtag)
      | .syscallRequest m => if m.hdr.rtag = 0 then none else some (m.hdr.src, m.hdr.rtag)
      | _ => none
    let route : Instr := .flitRoute pkg col row
    s.agenda = l ++ [p] ++ r → (∀ q, q ∈ l → ¬ there q) → (∀ q, q ∈ r → ¬ there q) → p.route = .router pkg col row dst age →
    (dst.pkg = pkg → dst.col = col → dst.row = row → Becomes route s { s with agenda := l ++ [{ p with route := .here }] ++ r })
    ∧ (¬ (goal.col = col ∧ goal.row = row) → Answers route s fun t => ∃ q, q ∈ linksOf col row
        ∧ (∀ z, z ∈ linksOf col row → hopsTo q goal ≤ hopsTo z goal)
        ∧ t = { s with agenda := l ++ [{ p with route := .router pkg q.1 q.2 dst age }] ++ r })
    ∧ (dst.pkg ≠ pkg → goal.col = col → goal.row = row →
        ((∀ i, i < 6 → st i = .failed) →
          (∀ a tag, asker p.step = some (a, tag) → Answers route s fun t => t.mem = s.mem ∧ t.cores = s.cores ∧ p ∉ t.agenda
            ∧ Sent (.reply { src := switchOf pkg dir, dst := a, rtag := tag, status := .nack, cause := 0x94 }) t)
          ∧ (∀ m, p.step = .offerArrival m → Answers route s fun t => t.mem = s.mem ∧ t.cores = s.cores
            ∧ Sent (.offerRefusal m.who m.ev ⟨0x94, m.serial, m.home⟩) t)
          ∧ (∀ m, p.step = .claim m → Answers route s fun t => t.mem = s.mem ∧ t.cores = s.cores ∧ Sent (.claimReply m .gone) t)
          ∧ (∀ m, p.step = .reply m ∨ p.step = .redirect m → Becomes route s s))
        ∧ ((∃ i, i < 6 ∧ st i ≠ .failed) → (∀ i, i < 6 → st i ≠ .active) → Becomes route s s)
        ∧ (∀ i, i < 6 → (∀ j, j < 6 → (st j = .active ↔ j = i)) → (s.pkg pkg).flows = [] → Answers route s fun t =>
            t.mem = s.mem ∧ t.cores = s.cores ∧ ∃ n, t.agenda = l ++ [{ p with route := .link nb (farPort (portNo dir i)) dst n }] ++ r
            ∧ ∀ q, q ∈ s.agenda → ∀ d a, q.route = .link nb (farPort (portNo dir i)) d a → a < n)))
  ∧ (∀ (pkg port lanes age : Nat) (l r : List Pending) (p : Pending) (dst : CoreId) (crc auth checks : Bool) (s : State), port < 36 →
    let onLink (q : Pending) : Prop := ∃ d a, q.route = .link pkg port d a
    let k := (s.pkg pkg).port port
    let got (t : State) : Port := (t.pkg pkg).port port
    let far := s.farPkg pkg port
    let k' := (s.pkg far).port (farPort port)
    let got' (t : State) : Port := (t.pkg far).port (farPort port)
    let recv : Instr := .swenerFlitReceive pkg port crc auth
    let tested := s.authentic pkg port (pktInfo p.step).cls
    (s.agenda = l ++ [p] ++ r → (∀ q, q ∈ l → ¬ onLink q) → (∀ q, q ∈ r → ¬ onLink q) → p.route = .link pkg port dst age →
      (k.st ≠ .active → Becomes recv s s)
      ∧ (k.st = .active → crc = false → k.crcRun < 63 → Answers recv s fun t => t.agenda = s.agenda
          ∧ got t = { k with crcErrs := k.crcErrs + 1, crcRun := k.crcRun + 1 })
      ∧ (k.st = .active → crc = true → tested = true → auth = false → k.authRun < 15 → k.authAt.length < 63 → Answers recv s fun t =>
          t.agenda = s.agenda ∧ (got t).authErrs = k.authErrs + 1 ∧ (got t).authRun = k.authRun + 1
          ∧ (t.pkg pkg).alarms = (s.pkg pkg).alarms ++ [(1, 0)])
      ∧ (k.st = .active → crc = true → tested = false ∨ auth = true → dst.pkg = pkg → Answers recv s fun t =>
          got t = { k with crcRun := 0, authRun := if tested then 0 else k.authRun }
          ∧ t.agenda = l ++ [{ p with route := .router pkg (switchOf pkg (port / 6)).col (switchOf pkg (port / 6)).row dst 0 }] ++ r))
    ∧ (let st (i : Nat) : LinkSt := ((s.pkg pkg).port (portNo (port / 6) i)).st
       let fo : Instr := .portFailover pkg port
       (k.st = .active → Becomes fo s s)
       ∧ (k.st ≠ .active → (∃ i, i < 6 ∧ st i = .active) ∨ (∀ i, i < 6 → st i = .failed) →
          (∀ q, q ∈ s.agenda → ¬ ∃ d a, q.route = .link far (farPort port) d a) → Answers fo s fun t =>
          t.agenda = s.agenda ∧ t.mem = s.mem ∧ t.cores = s.cores ∧ ∀ f, f ∈ (t.pkg pkg).flows ↔ f ∈ (s.pkg pkg).flows ∧ f.2.1 ≠ port)
       ∧ (k.st ≠ .active → (∀ i, i < 6 → st i ≠ .active) → (∃ i, i < 6 ∧ st i ≠ .failed) → Answers fo s fun t => t.mem = s.mem ∧ t.cores = s.cores
          ∧ ∃ q, q ∈ t.agenda ∧ q.step = fo ∧ q.due = some (pkg, s.time pkg + (s.pkg pkg).flowGap)))
    ∧ (k.st = .down ∨ k.st = .train → (s.pkg pkg).held3 = false →
      let n := if k.st = .down then 0 else k.attempt
      let speed := if n = 0 then 224 else if n = 1 then 112 else 56
      (2 ≤ lanes → Answers (.linkTraining pkg port lanes) s fun t => t.mem = s.mem ∧ t.cores = s.cores
        ∧ got t = { k with st := .summary, attempt := n, speed := speed, lanes := if 4 ≤ lanes then 4 else 2 })
      ∧ (lanes < 2 → n < 3 → Answers (.linkTraining pkg port lanes) s fun t =>
        got t = { k with st := .train, attempt := n + 1, speed := speed }))
    ∧ (k.st = .summary → k'.st = .summary → k'.attempt = k.attempt →
        let agree := checks = true ∧ k'.lanes = k.lanes ∧ k'.speed = k.speed
        (agree → Answers (.trainingSummary pkg port checks) s fun t => got t = { k with st := .active, crcRun := 0, authRun := 0, authAt := [] }
          ∧ got' t = { k' with st := .active, crcRun := 0, authRun := 0, authAt := [] })
        ∧ (¬ agree → k.attempt < 3 → Answers (.trainingSummary pkg port checks) s fun t =>
            got t = { k with st := .train, attempt := k.attempt + 1 } ∧ got' t = { k' with st := .train, attempt := k.attempt + 1 })))

/-- R311 to R313, R317: migrate with a malformed locator is FMIG; a page that does not walk, is of the other size or lacks MIG gives 1, a frame that already migrates or a full table 2, an empty key slot at the new home 3; else a record is made and the strand waits. Each line copy writes the next line at the new home; after the last the record is a wake and the strand gets 0; where a key slot has gone empty or no way leads between the homes the copy ends with 4 and no record, and with lines already copied, which it cannot send back, as machine check 0xB3; where a frame is kernel-reserved it ends too, and where no port on the way works now it comes again. wakerel arms a wake, answers 1 until the new home has answered, which it does when no request relayed to the page is on its way, then frees the entry and answers 0; 2 where there is none. A line copy in one step (log 32), the query that waits while a relayed request is on its way, that the machine check falls on the core that issued the migrate, where R312 names the package alone, and that a line of a kernel-reserved frame fails the copy (log 58) are the model's choice. -/
def Obligations.PageMigration : Prop :=
  (∀ (g : Guard) (big : Bool) (d v n x : Reg) (s : State), s.me.guard g = true → s.cur.slot = 0 →
    let pkg := s.cur.core.pkg
    let loc := (s.rg n).toNat
    let ctx := (s.rg x).toNat
    let i : Instr := .migrate g big d v n x
    let formed := loc / 2 ^ 56 = 0 ∧ loc % 2 ^ 20 = 0 ∧ ctx < 2 ^ 16 ∧ (big = true → loc / 2 ^ 32 % 32 = 0)
    let writes (st : Word) : Prop := Completes i s (s.me.wg d st)
    (s.me.hold = .none →
      (¬ formed → exec i s = .next (s.raiseMe (s.fault 0x99)))
      ∧ (∀ e, formed → s.walk pkg ctx (s.rg v).toNat = .error e → writes 1)
      ∧ (∀ leaf lvl, formed → s.walk pkg ctx (s.rg v).toNat = .ok (leaf, lvl) →
        let home := leafHome leaf
        let frame := leafFrame leaf
        let new_ := loc / 2 ^ 20 % 2 ^ 12
        let right := lvl = (if big then 4 else 5) ∧ leaf.getLsbD 7 = true
        let taken := (s.wakeAt home (frame * 2 ^ 16)).isSome = true ∨ 256 ≤ (s.pkg home).wakes.length
        (¬ right → writes 1) ∧ (right → taken → writes 2) ∧ (right → ¬ taken → (s.pkg new_).keys.has (leafKey leaf) = false → writes 3)
        ∧ (right → ¬ taken → (s.pkg new_).keys.has (leafKey leaf) = true → Answers i s fun t => SameMem s t
            ∧ (t.pkg home).wakes = (s.pkg home).wakes ++ [⟨frame, big, new_, loc / 2 ^ 32 % 2 ^ 24, leafKey leaf, 0, false, s.rg v, ctx, some s.cur, none, false, leafKres leaf⟩]
            ∧ t.me.hold = .phase 51 [home, frame] ∧ t.me.mode = .waiting ∧ t.me.pc = s.me.pc ∧ Sent (.migrationLineCopy home frame) t)))
    ∧ (∀ st, s.me.hold = .phase 50 [st] → writes (BitVec.ofNat 64 st))
    ∧ (let rel : Instr := .wakerel g d n
       let home := loc / 2 ^ 20 % 2 ^ 12
       let frame := loc / 2 ^ 32 % 2 ^ 24
       let found := (s.pkg home).wakes.find? fun w => w.oldFrame == frame && w.cut
       (loc / 2 ^ 56 ≠ 0 ∨ loc % 2 ^ 20 ≠ 0 → exec rel s = .next (s.raiseMe (s.fault 0x99)))
       ∧ (loc / 2 ^ 56 = 0 → loc % 2 ^ 20 = 0 →
          (found = none → Completes rel s (s.me.wg d 2))
          ∧ (∀ w, found = some w →
            (w.released = true → Answers rel s fun t => t.me = s.after (s.me.wg d 0)
              ∧ (∀ p, p ∈ t.agenda → p.step ≠ .wakeReleaseRequest home frame ∧ p.step ≠ .wakeReleaseAnswer home frame)
              ∧ (t.pkg home).wakes = (s.pkg home).wakes.filter fun y => y.oldFrame != frame)
            ∧ (w.released = false → w.armed.isSome = true → Completes rel s (s.me.wg d 1))
            ∧ (w.released = false → w.armed = none → Answers rel s fun t => t.me = s.after (s.me.wg d 1) ∧ SameMem s t
              ∧ (∃ p, p ∈ t.agenda ∧ p.step = .wakeReleaseRequest home frame ∧ p.due = some (home, s.time home + 2 ^ 20 + 64000))
              ∧ ∀ y, y ∈ (t.pkg home).wakes → y.oldFrame = frame → y.armed = some (s.time home))))))
  ∧ (∀ (pkg frame oldPkg oldFrame : Nat) (w : Wake) (s : State),
    let now := s.time pkg
    (∀ a : StrandId, (s.pkg pkg).wakes.find? (fun y => y.oldFrame == frame && !y.cut) = some w → w.asker = some a → (s.core a.core).mcheck = none →
      let copy : Instr := .migrationLineCopy pkg frame
      let ready (p : Nat) : Bool := (s.pkg p).keys.has w.key && !(s.pkg p).held3
      let old := memKey pkg (w.oldFrame * 2 ^ 16 + 64 * w.copied)
      let new_ := memKey w.newPkg (w.newFrame * 2 ^ 16 + 64 * w.copied)
      let lines := if w.big then 32768 else 1024
      let to_ := s.under w.key new_ 64
      let way := !s.severed pkg w.newPkg && !s.severed w.newPkg pkg
      let open_ := !s.blocked pkg w.newPkg && !s.blocked w.newPkg pkg
      let clear := w.kres = false ∧ (s.pkg pkg).frameReserved (w.oldFrame + w.copied / 1024) = false
        ∧ (s.pkg w.newPkg).frameReserved (w.newFrame + w.copied / 1024) = false
      (ready pkg = true → ready w.newPkg = true → way = true → clear → open_ = false → Answers copy s fun t => SameMem s t ∧ t.pkgs = s.pkgs ∧ t.cores = s.cores
          ∧ ∃ p, p ∈ t.agenda ∧ p.step = copy ∧ p.due = some (pkg, now + 64))
      ∧ (ready pkg = true → ready w.newPkg = true → way = true → ¬ clear → w.copied = 0 → Answers copy s fun t =>
          ∀ y, y ∈ (t.pkg pkg).wakes → y.oldFrame ≠ frame)
      ∧ (ready pkg = true → ready w.newPkg = true → way = true → clear → open_ = true → Answers copy s fun t => t.seals = to_.seals
        ∧ t.mem = to_.mem.writeBytes new_ ((s.under w.key old 64).mem.readBytes old 64)
        ∧ (w.copied + 1 < lines → Sent copy t ∧ ∀ y, y ∈ (t.pkg pkg).wakes → y.oldFrame = frame → y.copied = w.copied + 1)
        ∧ (lines ≤ w.copied + 1 → (∀ y, y ∈ (t.pkg pkg).wakes → y.oldFrame = frame → y.cut = true ∧ y.asker = none)
            ∧ ∀ l, (s.strand a).hold = .phase 51 l → (s.strand a).mode = .waiting → t.strand a = { s.strand a with mode := .ready, hold := .phase 50 [0] }))
      ∧ ((ready pkg && ready w.newPkg && way) = false → w.copied ≠ 0 → Answers copy s fun t => SameMem s t ∧ (t.core a.core).mcheck = some 0xB3
          ∧ (t.pkg pkg).wakes = (s.pkg pkg).wakes.filter (fun y => y.oldFrame != frame))
      ∧ ((ready pkg && ready w.newPkg && way) = false → w.copied = 0 → Answers copy s fun t => SameMem s t
          ∧ (t.pkg pkg).wakes = (s.pkg pkg).wakes.filter (fun y => y.oldFrame != frame)
          ∧ ∀ l, (s.strand a).hold = .phase 51 l → (s.strand a).mode = .waiting → t.strand a = { s.strand a with mode := .ready, hold := .phase 50 [4] }))
    ∧ ((s.pkg pkg).wakes.find? (fun y => y.oldFrame == frame && y.armed.isSome && !y.released) = some w →
        Answers (.wakeReleaseRequest pkg frame) s fun t => t.mem = s.mem ∧ t.cores = s.cores ∧ Sent (.wakeReleaseQuery w.newPkg w.newFrame pkg frame) t
          ∧ ∃ p, p ∈ t.agenda ∧ p.step = .wakeReleaseRequest pkg frame ∧ p.due = some (pkg, now + 64000))
    ∧ (let big := (s.pkg oldPkg).wakes.any fun y => y.oldFrame == oldFrame && y.big
       let open_ : Prop := ∃ (p : Pending) (m : MemReq) (pa key : Nat), p ∈ s.agenda
         ∧ (p.step = .ldPacket m ∨ p.step = .stPacket m ∨ p.step = .atomPacket m) ∧ m.fwd = true ∧ m.tgt = .mem pkg pa key
         ∧ frame ≤ pa / 2 ^ 16 ∧ pa / 2 ^ 16 < frame + (if big = true then 32 else 1)
       let query : Instr := .wakeReleaseQuery pkg frame oldPkg oldFrame
       (open_ → Becomes query s s)
       ∧ (¬ open_ → Answers query s fun t => t.mem = s.mem ∧ t.cores = s.cores ∧ Sent (.wakeReleaseAnswer oldPkg oldFrame) t))
    ∧ (Answers (.wakeReleaseAnswer pkg frame) s fun t => t.mem = s.mem ∧ t.cores = s.cores ∧ ∀ y, y ∈ (t.pkg pkg).wakes → y.oldFrame = frame →
        y.cut = true → y.armed.isSome = true → y.released = true))

/-- R191, R192, R194, R336 to R338, R348, R349: a load of a user strand whose page is unmapped takes the lowest free park slot and a fault-buffer entry; with four parked it is MPARK. replay clears the buffer, performs a parked store that now goes to a slice, frees its park slot, posts its notice and counts it; with nothing parked it writes 0; a replay of the crew that began earlier goes first. evkill of context 0, or of one without events or strands in its unit, writes 0; an idle event of the context is freed and counted. A lead that CREWLEAD newly names gets the entries that waited. A core's load figure reaches its neighbours, and a quarter of the difference goes to one that it exceeds by more than T. Tamper is the alarm at level 3: keys gone, cores halted, links dropped at both ends, a FAILED port staying so (R287). The interval of the load exchange and its shed (log 47), and that a dropped link is DOWN (log 48), are the model's choice. -/
def Obligations.FaultService : Prop :=
  (∀ (g : Guard) (sx : Bool) (sz : Sz) (d : Reg) (m : MAddr) (s : State), s.me.guard g = true → s.me.hold = .none → s.cur.slot ≠ 0 →
    let c := s.cur.core
    let a := s.ea m sz.log
    let page := a.toNat / 2 ^ 16 % 2 ^ 41
    let ld : Instr := .ld g sx sz d m
    mformOk a = true → a.toNat % sz.bytes = 0 → a.getLsbD 63 = false → (s.translate c s.ctx false a.toNat).2 = .error 0x61 →
      (s.me.freePark = none → exec ld s = .next (s.charge.raiseMe (s.faultA 0x68 a)))
      ∧ (∀ i, s.me.freePark = some i → (s.crew c.crewNo).fbuf = [] → s.me.upvec = 0 → Answers ld s fun t => SameMem s t
          ∧ t.me.parks = s.me.parks.set i ⟨.ld sx, a, sz, .core, 0, 0, d, s.me.pc, true⟩ ∧ t.me.mode = .trapped ∧ t.me.g = s.me.g
          ∧ (t.crew c.crewNo).fbuf = [⟨s.ctx, page, 1, [(c.local_, s.cur.slot)], 1, true⟩]))
  ∧ (∀ (g : Guard) (d x : Reg) (sc : Scope) (s : State), s.me.guard g = true → s.cur.slot = 0 →
    let c := s.cur.core
    let crew := c.crewNo
    let ctx := (s.rg x).toNat % 2 ^ 16
    let cleared (t : State) : Prop := (t.crew crew).fbuf = [] ∧ (t.crew crew).dropped = false ∧ (t.crew crew).waiting = []
    (s.me.hold = .none → (s.crew crew).replays = [] → s.parkedOf crew = [] → Answers (.replay g d) s fun t => SameMem s t ∧ cleared t ∧ t.me = s.after (s.me.wg d 0))
    ∧ (∀ w l, s.me.hold = .none → (s.crew crew).replays = w :: l → w ≠ s.cur → s.inReplay w = true → ¬ s.cur ∈ l →
        Answers (.replay g d) s fun t => SameMem s t ∧ t.me.hold = .phase 2 [] ∧ t.me.pc = s.me.pc ∧ (t.crew crew).fbuf = (s.crew crew).fbuf)
    ∧ (∀ (z : StrandId) (i off : Nat) (p : Park) (y : CoreId), s.me.hold = .none → (s.crew crew).replays = [] → s.parkedOf crew = [4 * z.gid + i] → i < 4 →
        strandOfGid z.gid = z → (s.strand z).parks.find? (fun q => q.1 == i) = some (i, p) → p.kind = .st → z.slot ≠ 0 → (s.core z.core).mcheck = none →
        mformOk p.addr = true → p.addr.getLsbD 63 = true → s.sliceOf z.core p.addr = some (y, off) →
        (s.core z.core).reqs = [] → s.sees z.core y (s.core z.core).ctx = true → s.sliceAllowed false (s.core z.core).ctx y = true → s.mem.wf = true →
        Answers (.replay g d) s fun t => cleared t ∧ SameMemBut (sliceKey y off) p.sz.bytes s t
          ∧ t.readN (sliceKey y off) p.sz.bytes = p.data.toNat % 2 ^ (8 * p.sz.bytes) ∧ (t.strand z).parks = (s.strand z).parks.del i
          ∧ Sent (.completionNotice z ⟨i, 0, 0, p.fpc⟩) t ∧ t.me = s.after (s.me.wg d 1))
    ∧ (ctx = 0 → s.me.hold = .none → Completes (.evkill g d x sc) s (s.me.wg d 0))
    ∧ ((∀ w, w ∈ s.crews → (∀ r, r ∈ (s.crew w.1).events → r.ev.ctx ≠ ctx) ∧ ∀ r, r ∈ (s.crew w.1).timers → r.ev.ctx ≠ ctx) →
        (∀ k, k ∈ s.cores → (s.core (coreOfKey k.1)).ctx ≠ ctx ∧ ∀ h n, h ∈ (s.core (coreOfKey k.1)).hwrecs → n ∈ h.rec_.named → n.ev.ctx ≠ ctx) →
        s.me.hold = .none → Completes (.evkill g d x sc) s (s.me.wg d 0))
    ∧ (ctx ≠ 0 → s.me.hold = .phase 90 [1] → s.dyingIn c sc ctx = true → Answers (.evkill g d x sc) s fun t =>
        t.me.issued = some (.evkill g d x sc) ∧ t.me.pc = s.me.pc ∧ t.crews = s.crews ∧ SameMem s t)
    ∧ (∀ w r, s.crews = [(crew, w)] → w.events = [r] → r.ev.ctx = ctx → ctx ≠ 0 → s.me.hold = .none → r.live = [] → r.held = [] → r.st = .idle →
        (∀ k, k ∈ s.cores → (s.core (coreOfKey k.1)).ctx ≠ ctx ∧ ∀ h n, h ∈ (s.core (coreOfKey k.1)).hwrecs → n ∈ h.rec_.named → n.ev.ctx ≠ ctx) →
          Answers (.evkill g d x .crew) s fun t => (t.crew crew).events = []
          ∧ t.rg d = (s.me.wg d 1).rg d ∧ t.me.pc = nextPc s.me.pc))
  ∧ (∀ (crew : Nat) (v : BitVec 4) (c : CoreId) (gid : BitVec 32) (s : State),
    let w := s.crew crew
    let lead := crewCore crew v.toNat
    let k := s.core c
    let free := ([1, 2, 3, 4, 5, 6, 7].filter fun i => (k.strand i).mode == .free).length
    let next := s.time c.pkg + 8192000 / (s.pkg c.pkg).clock
    let again (t : State) : Prop := ∃ p, p ∈ t.agenda ∧ p.step = .loadExchange c ∧ p.due = some (c.pkg, next)
    (w.lead ≠ v ∨ (s.core lead).retired = true → Becomes (.crewleadWrite crew v) s s)
    ∧ (w.lead = v → (s.core lead).retired = false → Answers (.crewleadWrite crew v) s fun t => SameMem s t ∧ (t.crew crew).waiting = []
        ∧ (t.core lead).reports = (s.core lead).reports ++ w.waiting.map fun e => e.report lead)
    ∧ (Answers (.forwardingExpiry c gid) s fun t => SameMem s t
        ∧ (t.core c).forwards = k.forwards.filter fun f => f.old != gid.toNat || decide (s.time c.pkg < f.until_))
    ∧ (k.retired = true → Becomes (.loadExchange c) s s)
    ∧ (k.retired = false → k.mcheck = none → k.halted = false → (s.pkg c.pkg).held3 = false →
        (k.loadFig = [] → Answers (.loadExchange c) s fun t => SameMem s t ∧ again t
          ∧ ∀ d, d ∈ neighbours c → (s.core d).mcheck = none → (t.core d).loadFig.get (0, 0) c.key = (k.load, free))
        ∧ (∀ d f n, c.col < 512 → c.row < 200 → d ∈ neighbours c → k.loadFig = [(d.key, f, n)] → f + (s.pkg c.pkg).shedT < k.load → f + 4 ≤ k.load → (s.core d).retired = false →
            k.bag ≠ [] → k.spillTail ≤ k.spillHead → Answers (.loadExchange c) s fun t => (n = 0 → SameMem s t) ∧ again t
              ∧ Sent (.pairShed ⟨⟨d, c, noSlot, k.nextTag, k.ctx, {}⟩, k.bag.reverse.take (min 512 ((k.load - f) / 4))⟩) t)))
  ∧ (∀ (pkg : Nat) (s : State), Answers (.tamper pkg) s fun t =>
      (t.pkg pkg).keys = [] ∧ (t.pkg pkg).held3 = true ∧ (t.pkg pkg).alarms = (s.pkg pkg).alarms ++ [(1, 3), (3, 3)]
      ∧ (∀ n, (t.pkg pkg).port n = (let q := (s.pkg pkg).port n; if q.st = .failed then q else { q with st := .down }))
      ∧ (∀ n, n < 36 → let q := (s.pkg (s.farPkg pkg n)).port (farPort n)
          (t.pkg (s.farPkg pkg n)).port (farPort n) = if q.st = .failed then q else { q with st := .down }) ∧ (∀ k, k ∈ t.cores → (coreOfKey k.1).pkg = pkg → k.2.halted = true)
      ∧ ((s.pkg pkg).bootWord 0x10 / 2 ^ 40 = 0 → SameMem s t))

/-- R370 to R374, R382: a phase that succeeds is followed by the next, one that fails leaves the package held, an image that fails being reported; the phases set the measurements, key slot 0, retire cores that fail and zero the slices, take the ports DOWN, wait for trained ports and TIME, start the working cores and release the control cores. TIME is loaded from an aligned neighbour with half the round trip, or 0 at a root without an aligned neighbour, and a root beside one waits. The block's fields take values in their ranges, those that LOCK closes none once locked, a SHEDT of 0 read as 16; the domain stays as phase 5 has fixed it (R15, log 25); the frame map takes writes until then. A cold reset puts cores, slices and the package at their reset values but keeps which are retired and the extents (log 4), leaves its links' far ends without a signal, and ignores reset requests for 10 ms. Software measurements 4 to 7 extend until LOCK; the report holds DEVID and the nonce, and the retired list stands in memory (log 51). That a write of the block with a value out of range is ignored as a whole (log 42), and the PC at which the micro-kernel starts (log 6), are the model's choice. -/
def Obligations.BringUp : Prop :=
  ∀ (pkg n : Nat) (i trip : Nat) (v : Word) (second : Bool) (digest : BitVec 384) (nonce : List Byte) (src : Nat) (s : State),
    let p := s.pkg pkg
    let ok := Config.freeOutcome s.freeN
    let again (t : State) : Prop := Sent (.bringUpPhase pkg) t
    let phase (n : Nat) (t : State) : Prop := (t.pkg pkg).phase = n
    let up : Instr := .bringUpPhase pkg
    (p.phase = 0 ∨ p.phase = 2 → ok = false → Answers up s fun t => phase p.phase t ∧ t.agenda = s.agenda ∧ t.mem = s.mem ∧ t.cores = s.cores)
    ∧ (p.phase = 1 →
        let bad := (List.range 4).filter fun j => !Config.freeOutcome (s.freeN + j)
        Answers up s fun t => t.mem = s.mem ∧ t.cores = s.cores ∧ (t.pkg pkg).bmc = p.bmc ++ bad
          ∧ (∀ j, j < 4 → (t.pkg pkg).meas.get 0 j = Config.extend 0 (Config.fuseDigest j))
          ∧ (bad = [] → phase 2 t ∧ again t) ∧ (bad ≠ [] → phase 1 t ∧ t.agenda = s.agenda))
    ∧ (p.phase = 0 ∨ p.phase = 2 → ok = true → Answers up s fun t => phase (p.phase + 1) t ∧ again t ∧ t.mem = s.mem ∧ t.cores = s.cores
        ∧ (p.phase = 2 → ∃ q, (t.pkg pkg).keys.has 0 = true ∧ (t.pkg pkg).keys.get [] 0 = leBytes 64 (Config.slot0Key q).toNat))
    ∧ (p.phase = 3 → Answers up s fun t => phase 4 t ∧ again t ∧ ∀ x y, x < 512 → y < 200 → let c : CoreId := ⟨pkg, x, y⟩
        (t.core c).retired = ((s.core c).retired || !Config.freeOutcome (s.freeN + c.key)) ∧ ∀ off, off < 131072 → t.mem.read (sliceKey c off) = 0)
    ∧ (p.phase = 4 → Answers up s fun t => phase 5 t ∧ (∀ j, j < 36 → (t.pkg pkg).port j = {}) ∧ (t.pkg pkg).domain = (domainOfPkg pkg).filter (s.pkgIn pkg) ∧ (t.pkg pkg).resetKey = some (Config.domainNo pkg)
        ∧ ∃ a b, Sent (.timeLoad pkg a b) t)
    ∧ (p.phase = 5 → p.portsSettled = false ∨ p.aligned = false → Answers up s fun t => phase 5 t ∧ again t ∧ t.mem = s.mem ∧ t.cores = s.cores)
    ∧ (p.phase = 5 → p.portsSettled = true → p.aligned = true → Answers up s fun t => phase 6 t ∧ again t ∧ ∀ x y, x < 512 → y < 200 → let c : CoreId := ⟨pkg, x, y⟩
        (s.core c).retired = false → Config.freeOutcome (s.freeN + c.key) = true →
          ((t.core c).strand 0).mode = .ready ∧ ((t.core c).strand 0).pc = Config.kernelPc ∧ Sent (.loadExchange c) t)
    ∧ (p.phase = 6 → Answers up s fun t => phase 7 t ∧ (t.pkg pkg).ccHeld = false)
    ∧ (p.phase = 5 → p.aligned = false →
        (s.time src + trip / 2 < 2 ^ 64 → (s.pkg src).aligned = true → Answers (.timeLoad pkg (some src) trip) s fun t => (t.pkg pkg).aligned = true
          ∧ s.time src + trip / 2 = t.time pkg ∧ again t)
        ∧ ((s.pkg src).aligned = false → Answers (.timeLoad pkg (some src) trip) s fun t => (t.pkg pkg).aligned = false ∧ ∃ a b, Sent (.timeLoad pkg a b) t)
        ∧ (let beside := ∃ d n, (d, n) ∈ s.pkgNeighbours pkg ∧ (s.pkg n).aligned = true
           (pkg = 0 → ¬ beside → Answers (.timeLoad pkg none trip) s fun t => (t.pkg pkg).aligned = true ∧ t.time pkg = 0 ∧ again t)
           ∧ (pkg ≠ 0 ∨ beside → Answers (.timeLoad pkg none trip) s fun t => (t.pkg pkg).aligned = false ∧ ∃ a b, Sent (.timeLoad pkg a b) t)))
    ∧ (let boot (off : Nat) (t : State) : Nat := (t.pkg pkg).bootWord off
       (∀ off, off ∈ [0x00, 0x08, 0x10] → p.isLocked = true → Answers (.bootConfigurationWrite pkg off v) s fun t => boot off t = p.bootWord off)
       ∧ (v.getLsbD 0 = false → Answers (.bootConfigurationWrite pkg 0x38 v) s fun t => (t.pkg pkg).isLocked = p.isLocked)
       ∧ (p.isLocked = false → Answers (.bootConfigurationWrite pkg 0x08 v) s fun t => (t.pkg pkg).ctxTab = v.toNat / 2 ^ 22 % 2 ^ 18 * 2 ^ 22)
       ∧ (p.isLocked = false → Answers (.bootConfigurationWrite pkg 0x00 v) s fun t => boot 0x00 t / 2 ^ 16 % 2 ^ 24 = v.toNat / 2 ^ 16 % 2 ^ 24
            ∧ boot 0x00 t / 2 ^ 40 = p.bootWord 0x00 / 2 ^ 40 ∧ (t.pkg pkg).domain = p.domain)
       ∧ (p.isLocked = false → Answers (.bootConfigurationWrite pkg 0x10 v) s fun t => boot 0x10 t / 2 ^ 16 % 2 ^ 48 = v.toNat / 2 ^ 16)
       ∧ (Answers (.bootConfigurationWrite pkg 0x18 v) s fun t =>
            let shedt := v.toNat / 2 ^ 32 % 2 ^ 12
            let gap := v.toNat % 2 ^ 24
            (p.isLocked = true → (t.pkg pkg).shedT = (if shedt = 0 then 16 else shedt) ∧ (t.pkg pkg).flowGap = p.flowGap)
            ∧ (p.isLocked = false → 500 ≤ gap → gap ≤ 1000000 → (t.pkg pkg).shedT = (if shedt = 0 then 16 else shedt) ∧ (t.pkg pkg).flowGap = gap)
            ∧ (p.isLocked = false → gap < 500 ∨ 1000000 < gap → boot 0x18 t = p.bootWord 0x18))
       ∧ (Answers (.bootConfigurationWrite pkg 0x20 v) s fun t =>
            let fmin := v.toNat / 2 ^ 32 % 2 ^ 12
            let plimit := v.toNat % 2 ^ 13
            if fmin % 25 = 0 ∧ 500 ≤ fmin ∧ fmin ≤ 1500 ∧ 2000 ≤ plimit ∧ plimit ≤ 4000
            then boot 0x20 t / 2 ^ 32 % 2 ^ 12 = fmin ∧ boot 0x20 t % 2 ^ 13 = plimit else boot 0x20 t = p.bootWord 0x20)
       ∧ (v.getLsbD 0 = true → Answers (.bootConfigurationWrite pkg 0x38 v) s fun t => (t.pkg pkg).isLocked = true)
       ∧ (Answers (.lock pkg) s fun t => (t.pkg pkg).isLocked = true ∧ (t.pkg pkg).locked = true ∧ (t.pkg pkg).frameMap = p.frameMap))
    ∧ (n < 64 → p.isLocked = false → Answers (.frameMapWrite pkg n second v) s fun t =>
        let e := p.frameMap.get (0, 0) n
        (t.pkg pkg).frameMap.get (0, 0) n = (if second then (e.1, v) else (v, e.2)))
    ∧ (p.isLocked = true → Answers (.frameMapWrite pkg n second v) s fun t => (t.pkg pkg).frameMap = p.frameMap)
    ∧ (Answers (.coldReset pkg) s fun t => again t ∧ phase 0 t ∧ (t.pkg pkg).time = 0 ∧ (t.pkg pkg).keys = [] ∧ (t.pkg pkg).resetIgnore = 10000000
        ∧ (∀ j, j < 36 → s.farPkg pkg j ≠ pkg → let q := (s.pkg (s.farPkg pkg j)).port (farPort j)
            (t.pkg (s.farPkg pkg j)).port (farPort j) = if q.st = .failed then q else { q with st := .down })
        ∧ (pkg < 4096 → (t.pkg pkg).bootWord 0 = p.bootWord 0 / 2 ^ 28 % 2 ^ 12 * 2 ^ 28 + pkg * 2 ^ 16)
        ∧ ∀ k, k ∈ s.cores → (coreOfKey k.1).pkg = pkg → let c := coreOfKey k.1
          (t.core c).retired = (s.core c).retired ∧ (t.core c).strands = [] ∧ (t.core c).ctx = 0 ∧ (t.core c).tiles = []
          ∧ ∀ off, off < 131072 → t.mem.read (sliceKey c off) = 0)
    ∧ (Answers (.measurementExtend pkg i digest) s fun t => (t.pkg pkg).meas.get 0 i
        = (if 4 ≤ i ∧ i ≤ 7 ∧ p.isLocked = false then Config.extend (p.meas.get 0 i) digest else p.meas.get 0 i))
    ∧ (nonce.length = 32 → Answers (.attestationRequest pkg nonce) s fun t => ∃ r, (t.pkg pkg).attest = some r ∧ r.length = 608
        ∧ r.take 8 = leBytes 8 devid.toNat ∧ (r.drop 16).take 32 = nonce
        ∧ (s.mem.wf = true → t.mem.readBytes (memKey pkg s.retiredAt) (s.retiredList pkg).length = s.retiredList pkg))

/-- R375 to R378, R381, R383 to R385, R287: an aligned counter goes one tick toward a beacon from nearer the root, at most once in 100,000 ticks; a window without a stroke, or with a port of the direction FAILED, counts a miss, and the third in a row asks for the neighbour's reset, with a tag that is valid where both packages hold the same domain's reset key; a direction that leads to the package itself has none; the fourth neighbour's valid request within 1 ms resets the package, and other requests are logged. Power above PLIMIT or a junction above 100 lowers the clock by 25 MHz, not below FMIN; above 110 every core halts until below 95. An inbound write stands at the frame that the IOMMU gives, where its leaf has W, or makes its interrupt identity pend, and a read returns 64 bytes; a kernel-reserved frame raises the alarm at level 3. A control core reads and writes package memory, the boot block, the frame map and the system-call ports' registers, whose read-only ones no store changes, and faults elsewhere. The model's choices among these: the 64 bytes of an inbound read (log 52), the IOMMU's answers and that a store to a root port's memory space has no effect in the model (log 15), a stroke that no port carries, what makes a reset request's tag valid and that every halted core of the package wakes below 95 degrees (log 48), the tick that a counter ahead holds back (log 49), the order of the window's accesses, harts 1 to 7 running once LOCK is set and a hart's access to a package without a working way (logs 28, 51), and that the dump region stays readable from outside while key slot 0 is empty (log 26). -/
def Obligations.PackageServices : Prop :=
  (∀ (pkg src dir port die : Nat) (time addr : Word) (bs : List Byte) (l : Word) (s : State),
    let p := s.pkg pkg
    let now := s.time pkg
    let due (t : State) (i : Instr) (n : Nat) : Prop := ∃ q, q ∈ t.agenda ∧ q.step = i ∧ q.due = some (pkg, n)
    (Answers (.timeBeaconSend pkg) s fun t => t.mem = s.mem ∧ t.cores = s.cores ∧ due t (.timeBeaconSend pkg) (now + 10000)
        ∧ ∀ d n, (d, n) ∈ s.pkgNeighbours pkg → p.dirUp d = true → Sent (.timeBeacon n pkg p.time) t)
    ∧ (let beacon : Instr := .timeBeacon pkg src time
       let heard := p.aligned = true ∧ s.rootHops src < s.rootHops pkg ∧ p.slewAt + 100000 ≤ now ∧ time ≠ p.time
       (¬ heard → Becomes beacon s s)
       ∧ (heard → now < time.toNat → Answers beacon s fun t => t.pkg pkg = { p with time := p.time + 1, slewAt := now })
       ∧ (heard → time.toNat < now → Answers beacon s fun t => t.pkg pkg = { p with slewBack := p.slewBack + 1, slewAt := now }))
    ∧ (Answers (.strokeSend pkg) s fun t => t.mem = s.mem ∧ t.cores = s.cores ∧ due t (.strokeSend pkg) (now + 100000)
        ∧ ∀ d n, (d, n) ∈ s.pkgNeighbours pkg → p.dirUp d = true → n ≠ pkg → farPort (portNo d 0) / 6 ∈ (t.pkg n).strokeSeen)
    ∧ (let far := s.farPkg pkg (portNo dir 0)
       let seen := dir ∈ p.strokeSeen ∧ ∀ i, i < 6 → (p.port (portNo dir i)).st ≠ .failed
       let miss := p.strokeMiss.get 0 dir + 1
       let tag := s.tagValid far pkg
       (tag = true ↔ ∃ k, (s.pkg far).resetKey = some k ∧ p.resetKey = some k)
       ∧ (far = pkg → Answers (.strokeWindow pkg dir) s fun t => t.pkgs = s.pkgs ∧ due t (.strokeWindow pkg dir) (now + 100000))
       ∧ (far ≠ pkg → seen → Answers (.strokeWindow pkg dir) s fun t => (t.pkg pkg).strokeMiss.get 0 dir = 0 ∧ due t (.strokeWindow pkg dir) (now + 100000))
       ∧ (far ≠ pkg → ¬ seen → Answers (.strokeWindow pkg dir) s fun t => (t.pkg pkg).strokeMiss.get 0 dir = miss ∧ due t (.strokeWindow pkg dir) (now + 100000)
          ∧ (miss = 3 → Sent (.resetRequest far pkg tag) t)))
    ∧ (let req (valid : Bool) : Instr := .resetRequest pkg src valid
       let from_ := ∃ d, (d, src) ∈ s.pkgNeighbours pkg
       let held := p.resetReqs.filter fun r => r.1 != src && decide (now ≤ r.2 + 1000000)
       (now < p.resetIgnore → Becomes (req true) s s)
       ∧ (p.resetIgnore ≤ now → (Answers (req false) s fun t => (t.pkg pkg).alarms = p.alarms ++ [(1, src)] ∧ t.cores = s.cores)
          ∧ (from_ → held.length < 3 → Answers (req true) s fun t => (t.pkg pkg).alarms = p.alarms ++ [(1, src)]
              ∧ (t.pkg pkg).resetReqs = held ++ [(src, now)] ∧ t.cores = s.cores)
          ∧ (from_ → 3 ≤ held.length → Answers (req true) s fun t => (t.pkg pkg).phase = 0 ∧ (t.pkg pkg).time = 0
              ∧ (t.pkg pkg).resetIgnore = 10000000 ∧ Sent (.bringUpPhase pkg) t)))
    ∧ (let watts := Config.power s.freeN
       let temp := Config.junction s.freeN
       let limit := p.bootWord 0x20 % 2 ^ 13
       let fmin := p.bootWord 0x20 / 2 ^ 32 % 2 ^ 12
       let gov : Instr := .governorInterval pkg
       let tooMuch := limit < watts ∨ 100 < temp
       (tooMuch → fmin < p.clock → Answers gov s fun t => (t.pkg pkg).clock = max fmin (p.clock - 25))
       ∧ (tooMuch → p.clock ≤ fmin → Answers gov s fun t => (t.pkg pkg).clock = p.clock)
       ∧ (¬ tooMuch → watts + 150 ≤ limit → Answers gov s fun t => (t.pkg pkg).clock = if 99 ≤ p.govLow then min 1500 (p.clock + 25) else p.clock)
       ∧ (¬ tooMuch → limit < watts + 150 → Answers gov s fun t => (t.pkg pkg).clock = p.clock ∧ (t.pkg pkg).govLow = 0)
       ∧ (110 < temp → p.govHot = false → Answers gov s fun t => ∀ k, k ∈ t.cores → (coreOfKey k.1).pkg = pkg → k.2.halted = true)
       ∧ (temp < 95 → p.govHot = true → p.held3 = false → Answers gov s fun t => ∀ k, k ∈ t.cores → (coreOfKey k.1).pkg = pkg → k.2.halted = false)
       ∧ (Answers gov s fun t => t.mem = s.mem ∧ due t gov (now + 10000)))
    ∧ (let inbound (w : Option (List Byte)) : Instr := .pcieInboundRequest pkg die addr w
       let home := leafHome l
       let pa := leafFrame l * 2 ^ 16 + addr.toNat % 2 ^ 16
       let reserved := leafKres l = true ∨ (s.pkg home).frameReserved (pa / 2 ^ 16) = true
       let iommu (w : Bool) := Config.iommu s.freeN (2 * pkg + die) w addr
       let f := s.fresh
       let isMem (w : Option (List Byte)) : Prop := w = none ∨ Config.inboundMsi (2 * pkg + die) addr = none
       (p.phase < 7 → ∀ w, Becomes (inbound w) s s)
       ∧ (7 ≤ p.phase → (∀ w, isMem w → iommu w.isSome = none → Answers (inbound w) s fun t => SameMem s t ∧ (t.pkg pkg).pcieGot = none)
       ∧ (iommu true = some l → ¬ reserved → leafW l = false → isMem (some bs) → Answers (inbound (some bs)) s fun t => SameMem s t ∧ (t.pkg pkg).pcieGot = none)
       ∧ (∀ w, isMem w → iommu w.isSome = some l →
          (reserved → Answers (inbound w) s fun t => (t.pkg pkg).pcieGot = none ∧ (t.pkg pkg).held3 = true ∧ (t.pkg pkg).keys = [])
          ∧ (¬ reserved → (s.pkg home).keys.has (leafKey l) = true → (s.pkg home).wakes = [] →
              (w = some bs → leafW l = true → Becomes (inbound w) s ((f.under (leafKey l) (memKey home pa) bs.length).writeBs (memKey home pa) bs))
              ∧ (w = none → Answers (inbound w) s fun t => SameMem s t
                ∧ (t.pkg pkg).pcieGot = some ((s.under (leafKey l) (memKey home pa) 64).mem.readBytes (memKey home pa) 64)))
          ∧ (¬ reserved → (s.pkg home).keys.has (leafKey l) = false →
              (w ≠ none ∨ ¬ (leafKey l = 0 ∧ (s.pkg home).inDump pa = true) → Answers (inbound w) s fun t =>
                SameMem s t ∧ (t.pkg pkg).pcieGot = none)
              ∧ (w = none → leafKey l = 0 → (s.pkg home).inDump pa = true → (s.pkg home).wakes = [] → Answers (inbound w) s fun t => SameMem s t
                ∧ (t.pkg pkg).pcieGot = some ((s.under 0 (memKey home pa) 64).mem.readBytes (memKey home pa) 64))))
       ∧ (∀ f, Config.inboundMsi (2 * pkg + die) addr = some f → leNat (bs.take 4) % 2 ^ 11 ≠ 0 → Answers (inbound (some bs)) s fun t =>
          t.mem = s.mem ∧ t.cores = s.cores ∧ (f / 7 % 8, f % 7, leNat (bs.take 4) % 2 ^ 11) ∈ (t.pkg pkg).imsic)))
    ∧ ((p.port port).st = .failed → Answers (.portReset pkg port) s fun t => (t.pkg pkg).port port = {} ∧ t.mem = s.mem ∧ t.cores = s.cores)
    ∧ ((p.port port).st ≠ .failed → Becomes (.portReset pkg port) s s))
  ∧ (∀ (pkg hart off a : Nat) (v : Word) (s : State),
    let p := s.pkg pkg
    let load : Instr := .controlCoreAccess pkg hart (.load a)
    let store : Instr := .controlCoreAccess pkg hart (.store a v)
    let space := a / 2 ^ 52 % 16
    let high := a / 2 ^ 40 % 2 ^ 12
    let pa := a % 2 ^ 40
    let got (w : Option Word) (t : State) : Prop := (t.pkg pkg).ctlGot.get none hart = w
    let memory (home : Nat) : Prop :=
      let h := s.under 0 (memKey home pa) 8
      (Answers load s fun t => SameMem s t ∧ got (some (BitVec.ofNat 64 (h.readN (memKey home pa) 8))) t)
      ∧ Answers store s fun t => SameMemBut (memKey home pa) 8 h t ∧ (s.mem.wf = true → t.readN (memKey home pa) 8 = v.toNat) ∧ t.cores = s.cores
    let runs := 7 ≤ p.phase ∧ p.ccHeld = false ∧ hart < 8 ∧ (hart = 0 ∨ p.isLocked = true)
    let pending := (s.agenda.filter fun q => q.chan == windowChan pkg).map Pending.step
    (¬ runs → Becomes load s s ∧ Becomes store s s)
    ∧ (runs →
      (space = 0 → high = 0 → p.keys.has 0 = true → p.wakes = [] → memory pkg)
      ∧ (space = 1 → s.pkgIn pkg high = true → s.severed pkg high = false →
          (s.blocked pkg high = true → Becomes load s s ∧ Becomes store s s)
          ∧ (s.blocked pkg high = false → (s.pkg high).keys.has 0 = true → (s.pkg high).wakes = [] → memory high))
      ∧ ((space = 0 ∧ high ≠ 0) ∨ (space = 1 ∧ (s.pkgIn pkg high = false ∨ s.severed pkg high = true)) ∨ 5 ≤ space →
          (Answers load s fun t => got none t ∧ SameMem s t) ∧ Answers store s fun t => got none t ∧ SameMem s t)
      ∧ (space = 2 → a % 2 ^ 52 = off →
          (off < 0x40 → off % 8 = 0 → Answers store s fun t => Sent (.bootConfigurationWrite pkg off v) t)
          ∧ (off < 0x40 → off % 8 = 0 → pending = [] → Answers load s fun t =>
              got (some (BitVec.ofNat 64 (if off = 0 ∧ p.boot.has 0 = false then pkg * 2 ^ 16 else p.bootWord off))) t)
          ∧ (∀ n w, n < 64 → off = 0x400 + 16 * n → p.isLocked = false → pending = [.frameMapWrite pkg n false w] → Answers load s (got (some w)))
          ∧ (0x400 ≤ off → off < 0x800 → Answers store s fun t => Sent (.frameMapWrite pkg ((off - 0x400) / 16) (off / 8 % 2 == 1) v) t)
          ∧ (∀ i, i < 2 → off = 0x20020 + 0x1000 * i → Answers store s fun t => Sent (.rsptail pkg i (v.setWidth 32)) t)
          ∧ (∀ i, i < 2 → pending = [] →
              let q := p.port_ i
              (∀ r w, off = 0x20000 + 0x1000 * i + r → (r, w) ∈ [(0x00, q.reqBase), (0x08, q.reqHead), (0x10, q.reqTail), (0x18, q.rspBase),
                (0x20, q.rspTail), (0x28, q.rspHead), (0x30, q.msi), (0x38, q.msiId), (0x40, q.rspBad)] → Answers load s (got (some w)))
              ∧ (let stores (r : Nat) (f : SysPort → Word) (mask : Word) : Prop := off = 0x20000 + 0x1000 * i + r →
                   Answers store s fun t => f ((t.pkg pkg).port_ i) = v &&& mask
                 stores 0x00 SysPort.reqBase 0xFFFFFFFFFF ∧ stores 0x00 SysPort.reqLog 0x3F ∧ stores 0x08 SysPort.reqHead 0xFFFFFFFF
                 ∧ stores 0x18 SysPort.rspBase 0xFFFFFFFFBF ∧ stores 0x18 SysPort.rspLog 0x3F ∧ stores 0x30 SysPort.msi 0x3F00
                 ∧ stores 0x38 SysPort.msiId 0x7FF)
              ∧ (∀ r, r ∈ [0x10, 0x28, 0x40] → off = 0x20000 + 0x1000 * i + r → Answers store s fun t => (t.pkg pkg).port_ i = q)))
      ∧ (space = 3 ∨ space = 4 → Becomes store s s)))

/-- When a strand is between instructions with no upcall or trap under way or waiting, the form of its PC is good, its line is in the instruction cache with the reserved field clear and, after a checked transfer, the slot's TARGET bit set, and the word in the slot decodes to i, and the watchdog lets it go on, step is exec of i: at the state in which that strand is the executing one, and, where the strand was chosen among all that may move, which it is while no pair placed in a bag is to be taken (R392) and no sole event is to commit (R270), dumps that were due have been written (R353) and time has passed. That time passes and that the choice is free is the model's own (logs 1 and 2). -/
def Obligations.StepRunsDecoded : Prop :=
  ∀ (t : StrandId) (bs : List Byte) (i : Instr) (s : State),
    let x := s.strand t
    let slot := x.pc.toNat % 8
    x.issued = none → x.taking = none → x.upcalls = [] → pcFormOk x.pc = true → (s.core t.core).cachedLine (s.ctxOf t) x.pc = some bs → lineOk bs = true →
    (x.checkT = true → lineTarget bs slot = true) → decode (lineSlot bs slot) = .ok i →
    (t.slot = 0 ∨ x.left ≠ 0 ∨ ∃ g, yieldGuard i = some g ∧ x.guard g = true) →
      (s.turn = some t → step s = exec i { s with turn := none, cur := t })
      ∧ (s.turn = none → (∀ p, p ∈ s.agenda → (∀ c, p.step ≠ .bagPop c) ∧ ∀ h ev, p.step = .eventCommit h ev → ∀ e, s.evRec h ev = some e → e.sole = false) →
          let u := s.keelDumps.tick
          u.moves[Config.freeChoice u.freeN % u.moves.length]? = some (.strand t) →
            step s = exec i { ({ u with freeN := u.freeN + 2 }).modCore t.core (fun k => { k with rr := t.slot }) with cur := t })

/-- R34, R35, R31, R69, R105, R345: when a strand between instructions moves, a PC of bad form is its fault 0x12 before any line is looked for; without its line in the cache the line is filled; a nonzero reserved field of the line word is 0x10; a clear TARGET bit after a checked transfer is 0x11; all three go to the micro-kernel, precise at the PC. With its budget spent and a word that is no yield point whose guard holds the strand is ended and reported with cause 14. A word that is no instruction is an illegal instruction with its detail and ARG. An upcall or trap whose record has had to wait is taken on first; a strand with an issued instruction goes on with it, and an upcall that waits is taken before the next instruction, RPC at it. The watchdog stands after checks 1 to 4 of R69 (R105); that a failed fetch check does not count toward BUDGET, and that this upcall comes before the next instruction, are the model's choice (log 39). -/
def Obligations.IssueChecks : Prop :=
  ∀ (t : StrandId) (bs : List Byte) (s : State), s.turn = some t →
    let u : State := { s with turn := none, cur := t }
    let x := s.strand t
    let slot := x.pc.toNat % 8
    let line := (s.core t.core).cachedLine (s.ctxOf t) x.pc
    let faults (d : Nat) : Prop := step s = .next (u.raise t (faultAt x.pc d) false)
    let word := decode (lineSlot bs slot)
    let target := x.checkT = true → lineTarget bs slot = true
    (∀ r, x.taking = some r → step s = .next (u.takeOn t r))
    ∧ (∀ i, x.taking = none → x.issued = some i → step s = exec i u)
    ∧ (x.taking = none → x.issued = none →
      (∀ r rest, x.upcalls = r :: rest →
        step s = .next ((u.modStrand t fun y => { y with upcalls := rest }).raise t { r with rpc := x.pc } (upcallCause r.cause)))
      ∧ (x.upcalls = [] →
        (pcFormOk x.pc = false → faults 0x12)
        ∧ (pcFormOk x.pc = true →
          (line = none → step s = exec (.instructionLineFill t x.pc) u)
          ∧ (line = some bs → lineOk bs = false → faults 0x10)
          ∧ (line = some bs → lineOk bs = true → ¬ target → faults 0x11)
          ∧ (line = some bs → lineOk bs = true → target →
            (∀ i, word = .ok i → t.slot ≠ 0 → x.left = 0 → (∀ g, yieldGuard i = some g → x.guard g = false) →
              step s = .next ((u.finishEnd t).report t.core { slot := t.slot, cause := 14, fpc := x.pc, rpc := x.pc, strand := t.gid, ctx := s.ctxOf t }))
            ∧ (∀ e, word = .error e → t.slot = 0 ∨ x.left ≠ 0 → step s = exec (.illegalInstruction e.detail e.arg) u)))))

/-- The words that the spec prints for add g3, g1, g2; rem.n g3, g1, g2; (p1) br −4; movk g1, 84; yield 8, 0b1000_0001; vzip.f32 t10, t4, 4, h2; tquant.f32.s4 t2, t1; ld.d g63, 0(g8, g0); nget g7, g1, 2; offer g8, e1, e2, g7; putt t3, 9(g6); csrc.i g0, STICKY, 0x100; sstart g9, g1, pkg, resident, 64 decode to them, and the all-zero word to ILL_ZERO. -/
def Obligations.DecodedWords : Prop :=
  let always : Guard := ⟨false, 0⟩
  decode 0x02000C108000000000000000#96 = .ok (.add always 3 1 2)
  ∧ decode 0x07100C108000000000000000#96 = .ok (.rem always true 3 1 2)
  ∧ decode 0x230100000000FFFFFFFFFFFC#96 = .ok (.br ⟨false, 1⟩ (-4))
  ∧ decode 0x170004000000000000000054#96 = .ok (.movk always 1 84)
  ∧ decode 0x280000081008000000000000#96 = .ok (.yield always 8 0x81)
  ∧ decode 0x530000A004C00C0010000200#96 = .ok (.vzip always 4 .f32 { dst := .tile 10, a := .tile 4, b := .none, c := .none, shape := 2 })
  ∧ decode 0x6400002001C00C0003800000#96 = .ok (.tquant always .f32 ⟨3, true⟩ false { dst := .tile 2, a := .tile 1, b := .none, c := .none })
  ∧ decode 0x7000FC801800000000000000#96 = .ok (.ld always false .d 63 ⟨8, 0, 0⟩)
  ∧ decode 0x93001C100002000000000000#96 = .ok (.nget always 7 1 2)
  ∧ decode 0xA50008BFF01C800000000000#96 = .ok (.offer always (some 1) (some 2) none none 7 8)
  ∧ decode 0xB5000C600000000000000009#96 = .ok (.putt always false 3 6 9)
  ∧ decode 0xC23000000031000000000100#96 = .ok (.csrc always 0 3 (.imm 0x100))
  ∧ decode 0xC80024102040000000000000#96 = .ok (.sstart always 9 1 .pkg (.entry 0 64))
  ∧ decode 0 = .error .zero

/-- For every instruction of the opcode table that has an encoding, with every operand at every value that its encoding admits, the decoder reads the word that the encoder writes as that instruction: no bit of any field is dropped or read as another's. -/
def Obligations.DecodeEncode : Prop :=
  ∀ i : Instr, i.encodable = true → i.wf = true → decode (encode i) = .ok i

/-- R69, R70: every word that the decoder accepts is exactly the encoding of the instruction that it gives, and that instruction satisfies the operand rules of its encoding. So two different words never decode to one instruction, and a word with a reserved bit set is not accepted. -/
def Obligations.WordsHaveOneMeaning : Prop :=
  ∀ (w : IWord) (i : Instr), decode w = .ok i → i.wf = true ∧ i.encodable = true ∧ encode i = w

/-- R18, R50, R51, R52, R55, R56, R57, R287, R370, R371: at State.reset g1 to g63, p1 to p7, STICKY, UPVEC, UPREC, ROLE and BUDGET read 0, g0 reads 0, p0 reads 1 and every e register reads all ones; tile entries, ring registers, CYCLE, TRAPVEC, TRAPREC and the context registers read 0; every slice byte reads 0; TIME is 0, every port is DOWN, no fault is buffered, DEVID names the part; SHEDT is 16, FLOWGAP 2,000, FMIN 1,000, PLIMIT 4,000 and LOCK is clear. Package 0 is about to begin the first phase of bring-up. The memory lists no byte and has the canonical form; that unlisted package memory reads 0 is the model's choice (log 3). -/
def Obligations.ResetState : Prop :=
  let s := State.reset
  let words (c : Core) : List Word := [c.trapvec, c.traprec, c.rulebase, c.shellbase, c.handlertab, c.spillbase, c.evarea, c.cycle]
  (∀ t : StrandId, let x := s.strand t
    (∀ r, x.rg r = 0) ∧ (∀ r, x.rp r = (r == 0)) ∧ (∀ e, x.re e = 0xFFFFFFFFFFFFFFFF#64) ∧ x.sticky = 0 ∧ x.upvec = 0 ∧ x.uprec = 0
      ∧ x.role = 0 ∧ x.left = 0 ∧ x.live = 0 ∧ x.scratch = 0 ∧ x.mode = .free)
  ∧ (∀ c : CoreId, (∀ n, (s.core c).tile n = 0) ∧ (∀ q, (s.core c).ring q = ⟨0, 0, 0, 0, 0, 0⟩) ∧ (∀ w, w ∈ words (s.core c) → w = 0)
      ∧ (s.core c).ctx = 0 ∧ (s.core c).bag = [] ∧ (∀ off, off < 131072 → s.mem.read (sliceKey c off) = 0))
  ∧ (∀ n, (s.crew n).lead = 0 ∧ (s.crew n).fbuf = [] ∧ (s.crew n).dropped = false ∧ (s.crew n).events = [])
  ∧ (∀ n, let p := s.pkg n
    p.time = 0 ∧ p.keys = [] ∧ p.isLocked = false ∧ p.shedT = 16 ∧ p.flowGap = 2000 ∧ p.bootWord 0x20 / 2 ^ 32 = 1000
      ∧ p.bootWord 0x20 % 2 ^ 13 = 4000 ∧ p.ctxTab = 0 ∧ p.bootWord 0x10 = 0 ∧ ∀ k, (p.port k).st = .down)
  ∧ devid.toNat / 2 ^ 48 = 0x4858 ∧ devid.toNat / 2 ^ 32 % 2 ^ 16 = 0x7102 ∧ devid.toNat % 2 ^ 24 = 0
  ∧ Sent (.bringUpPhase 0) s ∧ (s.pkg 0).phase = 0 ∧ s.mem.wf = true

/-- The machine never stops: from every state, whatever strand, engine, packet or timer moves and whatever the instruction is, the step answers a next state (faults are taken as the traps, upcalls, machine checks and refusals that the spec describes, R69, R320, R323, R326, R350). And if the memory before it is in the canonical form (addresses strictly rising, no listed byte equal to what an unlisted address reads as), the memory after it is too, through every store, atomic, cache write-back, engine command, copy, course, record, dump and slice clear. The canonical form is the model's own (log 3). -/
def Obligations.EveryStepKeepsMemory : Prop :=
  ∀ s : State, ∃ t, step s = .next t ∧ (s.mem.wf = true → t.mem.wf = true)
end

