-- ==== Sys2Proof/Laws/Encode.lean ====
section
/-! SUPPORT. What each field of a word reads after packing, that each code reads back, and that a row's checks pass on the operands it
accepts: the parts of a round trip through the encoder. -/

namespace Sys2Proof

/-! ## Fields of packed words -/

@[simp] theorem fOp_packG (op : BitVec 8) (var : BitVec 4) (g : Guard) (d a b c : BitVec 6) (m : BitVec 8) :
    fOp (packG op var g d a b c m) = op := by
  unfold fOp packG
  rw [BitVec.extractLsb'_append_eq_of_le (by omega), BitVec.extractLsb'_append_eq_of_le (by omega), BitVec.extractLsb'_append_eq_of_le (by omega), BitVec.extractLsb'_append_eq_of_le (by omega), BitVec.extractLsb'_append_eq_of_le (by omega), BitVec.extractLsb'_append_eq_of_le (by omega), packHead, BitVec.extractLsb'_append_eq_of_le (by omega), BitVec.extractLsb'_append_eq_of_le (by omega), BitVec.extractLsb'_append_eq_of_le (by omega)]
  simp
@[simp] theorem fVar_packG (op : BitVec 8) (var : BitVec 4) (g : Guard) (d a b c : BitVec 6) (m : BitVec 8) :
    fVar (packG op var g d a b c m) = var := by
  unfold fVar packG
  rw [BitVec.extractLsb'_append_eq_of_le (by omega), BitVec.extractLsb'_append_eq_of_le (by omega), BitVec.extractLsb'_append_eq_of_le (by omega), BitVec.extractLsb'_append_eq_of_le (by omega), BitVec.extractLsb'_append_eq_of_le (by omega), BitVec.extractLsb'_append_eq_of_le (by omega), packHead, BitVec.extractLsb'_append_eq_of_le (by omega), BitVec.extractLsb'_append_eq_of_le (by omega), BitVec.extractLsb'_append_eq_of_add_le (by omega)]
  simp
@[simp] theorem fPn_packG (op : BitVec 8) (var : BitVec 4) (g : Guard) (d a b c : BitVec 6) (m : BitVec 8) :
    fPn (packG op var g d a b c m) = bit1 g.neg := by
  unfold fPn packG
  rw [BitVec.extractLsb'_append_eq_of_le (by omega), BitVec.extractLsb'_append_eq_of_le (by omega), BitVec.extractLsb'_append_eq_of_le (by omega), BitVec.extractLsb'_append_eq_of_le (by omega), BitVec.extractLsb'_append_eq_of_le (by omega), BitVec.extractLsb'_append_eq_of_le (by omega), packHead, BitVec.extractLsb'_append_eq_of_le (by omega), BitVec.extractLsb'_append_eq_of_add_le (by omega)]
  simp
@[simp] theorem fPg_packG (op : BitVec 8) (var : BitVec 4) (g : Guard) (d a b c : BitVec 6) (m : BitVec 8) :
    fPg (packG op var g d a b c m) = g.p := by
  unfold fPg packG
  rw [BitVec.extractLsb'_append_eq_of_le (by omega), BitVec.extractLsb'_append_eq_of_le (by omega), BitVec.extractLsb'_append_eq_of_le (by omega), BitVec.extractLsb'_append_eq_of_le (by omega), BitVec.extractLsb'_append_eq_of_le (by omega), BitVec.extractLsb'_append_eq_of_le (by omega), packHead, BitVec.extractLsb'_append_eq_of_add_le (by omega)]
  simp
@[simp] theorem fGd_packG (op : BitVec 8) (var : BitVec 4) (g : Guard) (d a b c : BitVec 6) (m : BitVec 8) :
    fGd (packG op var g d a b c m) = d := by
  unfold fGd packG
  rw [BitVec.extractLsb'_append_eq_of_le (by omega), BitVec.extractLsb'_append_eq_of_le (by omega), BitVec.extractLsb'_append_eq_of_le (by omega), BitVec.extractLsb'_append_eq_of_le (by omega), BitVec.extractLsb'_append_eq_of_le (by omega), BitVec.extractLsb'_append_eq_of_add_le (by omega)]
  simp
@[simp] theorem fGa_packG (op : BitVec 8) (var : BitVec 4) (g : Guard) (d a b c : BitVec 6) (m : BitVec 8) :
    fGa (packG op var g d a b c m) = a := by
  unfold fGa packG
  rw [BitVec.extractLsb'_append_eq_of_le (by omega), BitVec.extractLsb'_append_eq_of_le (by omega), BitVec.extractLsb'_append_eq_of_le (by omega), BitVec.extractLsb'_append_eq_of_le (by omega), BitVec.extractLsb'_append_eq_of_add_le (by omega)]
  simp
@[simp] theorem fGb_packG (op : BitVec 8) (var : BitVec 4) (g : Guard) (d a b c : BitVec 6) (m : BitVec 8) :
    fGb (packG op var g d a b c m) = b := by
  unfold fGb packG
  rw [BitVec.extractLsb'_append_eq_of_le (by omega), BitVec.extractLsb'_append_eq_of_le (by omega), BitVec.extractLsb'_append_eq_of_le (by omega), BitVec.extractLsb'_append_eq_of_add_le (by omega)]
  simp
@[simp] theorem fGc_packG (op : BitVec 8) (var : BitVec 4) (g : Guard) (d a b c : BitVec 6) (m : BitVec 8) :
    fGc (packG op var g d a b c m) = c := by
  unfold fGc packG
  rw [BitVec.extractLsb'_append_eq_of_le (by omega), BitVec.extractLsb'_append_eq_of_le (by omega), BitVec.extractLsb'_append_eq_of_add_le (by omega)]
  simp
@[simp] theorem fMod8_packG (op : BitVec 8) (var : BitVec 4) (g : Guard) (d a b c : BitVec 6) (m : BitVec 8) :
    fMod8 (packG op var g d a b c m) = m := by
  unfold fMod8 packG
  rw [BitVec.extractLsb'_append_eq_of_le (by omega), BitVec.extractLsb'_append_eq_of_add_le (by omega)]
  simp
@[simp] theorem fLow_packG (op : BitVec 8) (var : BitVec 4) (g : Guard) (d a b c : BitVec 6) (m : BitVec 8) :
    fLow (packG op var g d a b c m) = 0 := by
  unfold fLow packG
  rw [BitVec.extractLsb'_append_eq_of_add_le (by omega)]
  simp
@[simp] theorem fGuard_packG (op : BitVec 8) (var : BitVec 4) (g : Guard) (d a b c : BitVec 6) (m : BitVec 8) :
    fGuard (packG op var g d a b c m) = g := by
  unfold fGuard; rw [fPn_packG, fPg_packG]; rcases g with ⟨n, p⟩; cases n <;> rfl
theorem fBits_packG_m (op : BitVec 8) (var : BitVec 4) (g : Guard) (d a b c : BitVec 6) (m : BitVec 8) (l w : Nat)
    (h : 48 ≤ l) (h' : l + w ≤ 56) : fBits l w (packG op var g d a b c m) = m.extractLsb' (l - 48) w := by
  unfold fBits packG
  rw [BitVec.extractLsb'_append_eq_of_le (by omega), BitVec.extractLsb'_append_eq_of_add_le (by omega)]
@[simp] theorem fOp_packK (op : BitVec 8) (var : BitVec 4) (g : Guard) (d a : BitVec 6) (m : BitVec 20) (i : Imm48) :
    fOp (packK op var g d a m i) = op := by
  unfold fOp packK
  rw [BitVec.extractLsb'_append_eq_of_le (by omega), BitVec.extractLsb'_append_eq_of_le (by omega), BitVec.extractLsb'_append_eq_of_le (by omega), BitVec.extractLsb'_append_eq_of_le (by omega), packHead, BitVec.extractLsb'_append_eq_of_le (by omega), BitVec.extractLsb'_append_eq_of_le (by omega), BitVec.extractLsb'_append_eq_of_le (by omega)]
  simp
@[simp] theorem fVar_packK (op : BitVec 8) (var : BitVec 4) (g : Guard) (d a : BitVec 6) (m : BitVec 20) (i : Imm48) :
    fVar (packK op var g d a m i) = var := by
  unfold fVar packK
  rw [BitVec.extractLsb'_append_eq_of_le (by omega), BitVec.extractLsb'_append_eq_of_le (by omega), BitVec.extractLsb'_append_eq_of_le (by omega), BitVec.extractLsb'_append_eq_of_le (by omega), packHead, BitVec.extractLsb'_append_eq_of_le (by omega), BitVec.extractLsb'_append_eq_of_le (by omega), BitVec.extractLsb'_append_eq_of_add_le (by omega)]
  simp
@[simp] theorem fPn_packK (op : BitVec 8) (var : BitVec 4) (g : Guard) (d a : BitVec 6) (m : BitVec 20) (i : Imm48) :
    fPn (packK op var g d a m i) = bit1 g.neg := by
  unfold fPn packK
  rw [BitVec.extractLsb'_append_eq_of_le (by omega), BitVec.extractLsb'_append_eq_of_le (by omega), BitVec.extractLsb'_append_eq_of_le (by omega), BitVec.extractLsb'_append_eq_of_le (by omega), packHead, BitVec.extractLsb'_append_eq_of_le (by omega), BitVec.extractLsb'_append_eq_of_add_le (by omega)]
  simp
@[simp] theorem fPg_packK (op : BitVec 8) (var : BitVec 4) (g : Guard) (d a : BitVec 6) (m : BitVec 20) (i : Imm48) :
    fPg (packK op var g d a m i) = g.p := by
  unfold fPg packK
  rw [BitVec.extractLsb'_append_eq_of_le (by omega), BitVec.extractLsb'_append_eq_of_le (by omega), BitVec.extractLsb'_append_eq_of_le (by omega), BitVec.extractLsb'_append_eq_of_le (by omega), packHead, BitVec.extractLsb'_append_eq_of_add_le (by omega)]
  simp
@[simp] theorem fGd_packK (op : BitVec 8) (var : BitVec 4) (g : Guard) (d a : BitVec 6) (m : BitVec 20) (i : Imm48) :
    fGd (packK op var g d a m i) = d := by
  unfold fGd packK
  rw [BitVec.extractLsb'_append_eq_of_le (by omega), BitVec.extractLsb'_append_eq_of_le (by omega), BitVec.extractLsb'_append_eq_of_le (by omega), BitVec.extractLsb'_append_eq_of_add_le (by omega)]
  simp
@[simp] theorem fGa_packK (op : BitVec 8) (var : BitVec 4) (g : Guard) (d a : BitVec 6) (m : BitVec 20) (i : Imm48) :
    fGa (packK op var g d a m i) = a := by
  unfold fGa packK
  rw [BitVec.extractLsb'_append_eq_of_le (by omega), BitVec.extractLsb'_append_eq_of_le (by omega), BitVec.extractLsb'_append_eq_of_add_le (by omega)]
  simp
@[simp] theorem fLow_packK (op : BitVec 8) (var : BitVec 4) (g : Guard) (d a : BitVec 6) (m : BitVec 20) (i : Imm48) :
    fLow (packK op var g d a m i) = i := by
  unfold fLow packK
  rw [BitVec.extractLsb'_append_eq_of_add_le (by omega)]
  simp
@[simp] theorem fMod20_packK (op : BitVec 8) (var : BitVec 4) (g : Guard) (d a : BitVec 6) (m : BitVec 20) (i : Imm48) :
    fMod20 (packK op var g d a m i) = m := by
  unfold fMod20 packK
  rw [BitVec.extractLsb'_append_eq_of_le (by omega), BitVec.extractLsb'_append_eq_of_add_le (by omega)]
  simp
@[simp] theorem fGuard_packK (op : BitVec 8) (var : BitVec 4) (g : Guard) (d a : BitVec 6) (m : BitVec 20) (i : Imm48) :
    fGuard (packK op var g d a m i) = g := by
  unfold fGuard; rw [fPn_packK, fPg_packK]; rcases g with ⟨n, p⟩; cases n <;> rfl
theorem fBits_packK_m (op : BitVec 8) (var : BitVec 4) (g : Guard) (d a : BitVec 6) (m : BitVec 20) (i : Imm48) (l w : Nat)
    (h : 48 ≤ l) (h' : l + w ≤ 68) : fBits l w (packK op var g d a m i) = m.extractLsb' (l - 48) w := by
  unfold fBits packK
  rw [BitVec.extractLsb'_append_eq_of_le (by omega), BitVec.extractLsb'_append_eq_of_add_le (by omega)]
theorem fBits_packK_i (op : BitVec 8) (var : BitVec 4) (g : Guard) (d a : BitVec 6) (m : BitVec 20) (i : Imm48) (l w : Nat)
    (_h : 0 ≤ l) (h' : l + w ≤ 48) : fBits l w (packK op var g d a m i) = i.extractLsb' (l - 0) w := by
  unfold fBits packK
  rw [BitVec.extractLsb'_append_eq_of_add_le (by omega)]
  rfl
@[simp] theorem fOp_packM (op : BitVec 8) (var : BitVec 4) (g : Guard) (d a b : BitVec 6) (size scope : BitVec 3) (ord m : BitVec 4) (i : Imm48) :
    fOp (packM op var g d a b size scope ord m i) = op := by
  unfold fOp packM
  rw [BitVec.extractLsb'_append_eq_of_le (by omega), BitVec.extractLsb'_append_eq_of_le (by omega), BitVec.extractLsb'_append_eq_of_le (by omega), BitVec.extractLsb'_append_eq_of_le (by omega), BitVec.extractLsb'_append_eq_of_le (by omega), BitVec.extractLsb'_append_eq_of_le (by omega), BitVec.extractLsb'_append_eq_of_le (by omega), BitVec.extractLsb'_append_eq_of_le (by omega), packHead, BitVec.extractLsb'_append_eq_of_le (by omega), BitVec.extractLsb'_append_eq_of_le (by omega), BitVec.extractLsb'_append_eq_of_le (by omega)]
  simp
@[simp] theorem fVar_packM (op : BitVec 8) (var : BitVec 4) (g : Guard) (d a b : BitVec 6) (size scope : BitVec 3) (ord m : BitVec 4) (i : Imm48) :
    fVar (packM op var g d a b size scope ord m i) = var := by
  unfold fVar packM
  rw [BitVec.extractLsb'_append_eq_of_le (by omega), BitVec.extractLsb'_append_eq_of_le (by omega), BitVec.extractLsb'_append_eq_of_le (by omega), BitVec.extractLsb'_append_eq_of_le (by omega), BitVec.extractLsb'_append_eq_of_le (by omega), BitVec.extractLsb'_append_eq_of_le (by omega), BitVec.extractLsb'_append_eq_of_le (by omega), BitVec.extractLsb'_append_eq_of_le (by omega), packHead, BitVec.extractLsb'_append_eq_of_le (by omega), BitVec.extractLsb'_append_eq_of_le (by omega), BitVec.extractLsb'_append_eq_of_add_le (by omega)]
  simp
@[simp] theorem fPn_packM (op : BitVec 8) (var : BitVec 4) (g : Guard) (d a b : BitVec 6) (size scope : BitVec 3) (ord m : BitVec 4) (i : Imm48) :
    fPn (packM op var g d a b size scope ord m i) = bit1 g.neg := by
  unfold fPn packM
  rw [BitVec.extractLsb'_append_eq_of_le (by omega), BitVec.extractLsb'_append_eq_of_le (by omega), BitVec.extractLsb'_append_eq_of_le (by omega), BitVec.extractLsb'_append_eq_of_le (by omega), BitVec.extractLsb'_append_eq_of_le (by omega), BitVec.extractLsb'_append_eq_of_le (by omega), BitVec.extractLsb'_append_eq_of_le (by omega), BitVec.extractLsb'_append_eq_of_le (by omega), packHead, BitVec.extractLsb'_append_eq_of_le (by omega), BitVec.extractLsb'_append_eq_of_add_le (by omega)]
  simp
@[simp] theorem fPg_packM (op : BitVec 8) (var : BitVec 4) (g : Guard) (d a b : BitVec 6) (size scope : BitVec 3) (ord m : BitVec 4) (i : Imm48) :
    fPg (packM op var g d a b size scope ord m i) = g.p := by
  unfold fPg packM
  rw [BitVec.extractLsb'_append_eq_of_le (by omega), BitVec.extractLsb'_append_eq_of_le (by omega), BitVec.extractLsb'_append_eq_of_le (by omega), BitVec.extractLsb'_append_eq_of_le (by omega), BitVec.extractLsb'_append_eq_of_le (by omega), BitVec.extractLsb'_append_eq_of_le (by omega), BitVec.extractLsb'_append_eq_of_le (by omega), BitVec.extractLsb'_append_eq_of_le (by omega), packHead, BitVec.extractLsb'_append_eq_of_add_le (by omega)]
  simp
@[simp] theorem fGd_packM (op : BitVec 8) (var : BitVec 4) (g : Guard) (d a b : BitVec 6) (size scope : BitVec 3) (ord m : BitVec 4) (i : Imm48) :
    fGd (packM op var g d a b size scope ord m i) = d := by
  unfold fGd packM
  rw [BitVec.extractLsb'_append_eq_of_le (by omega), BitVec.extractLsb'_append_eq_of_le (by omega), BitVec.extractLsb'_append_eq_of_le (by omega), BitVec.extractLsb'_append_eq_of_le (by omega), BitVec.extractLsb'_append_eq_of_le (by omega), BitVec.extractLsb'_append_eq_of_le (by omega), BitVec.extractLsb'_append_eq_of_le (by omega), BitVec.extractLsb'_append_eq_of_add_le (by omega)]
  simp
@[simp] theorem fGa_packM (op : BitVec 8) (var : BitVec 4) (g : Guard) (d a b : BitVec 6) (size scope : BitVec 3) (ord m : BitVec 4) (i : Imm48) :
    fGa (packM op var g d a b size scope ord m i) = a := by
  unfold fGa packM
  rw [BitVec.extractLsb'_append_eq_of_le (by omega), BitVec.extractLsb'_append_eq_of_le (by omega), BitVec.extractLsb'_append_eq_of_le (by omega), BitVec.extractLsb'_append_eq_of_le (by omega), BitVec.extractLsb'_append_eq_of_le (by omega), BitVec.extractLsb'_append_eq_of_le (by omega), BitVec.extractLsb'_append_eq_of_add_le (by omega)]
  simp
@[simp] theorem fGb_packM (op : BitVec 8) (var : BitVec 4) (g : Guard) (d a b : BitVec 6) (size scope : BitVec 3) (ord m : BitVec 4) (i : Imm48) :
    fGb (packM op var g d a b size scope ord m i) = b := by
  unfold fGb packM
  rw [BitVec.extractLsb'_append_eq_of_le (by omega), BitVec.extractLsb'_append_eq_of_le (by omega), BitVec.extractLsb'_append_eq_of_le (by omega), BitVec.extractLsb'_append_eq_of_le (by omega), BitVec.extractLsb'_append_eq_of_le (by omega), BitVec.extractLsb'_append_eq_of_add_le (by omega)]
  simp
@[simp] theorem fLow_packM (op : BitVec 8) (var : BitVec 4) (g : Guard) (d a b : BitVec 6) (size scope : BitVec 3) (ord m : BitVec 4) (i : Imm48) :
    fLow (packM op var g d a b size scope ord m i) = i := by
  unfold fLow packM
  rw [BitVec.extractLsb'_append_eq_of_add_le (by omega)]
  simp
@[simp] theorem fSize_packM (op : BitVec 8) (var : BitVec 4) (g : Guard) (d a b : BitVec 6) (size scope : BitVec 3) (ord m : BitVec 4) (i : Imm48) :
    fSize (packM op var g d a b size scope ord m i) = size := by
  unfold fSize packM
  rw [BitVec.extractLsb'_append_eq_of_le (by omega), BitVec.extractLsb'_append_eq_of_le (by omega), BitVec.extractLsb'_append_eq_of_le (by omega), BitVec.extractLsb'_append_eq_of_le (by omega), BitVec.extractLsb'_append_eq_of_add_le (by omega)]
  simp
@[simp] theorem fScope_packM (op : BitVec 8) (var : BitVec 4) (g : Guard) (d a b : BitVec 6) (size scope : BitVec 3) (ord m : BitVec 4) (i : Imm48) :
    fScope (packM op var g d a b size scope ord m i) = scope := by
  unfold fScope packM
  rw [BitVec.extractLsb'_append_eq_of_le (by omega), BitVec.extractLsb'_append_eq_of_le (by omega), BitVec.extractLsb'_append_eq_of_le (by omega), BitVec.extractLsb'_append_eq_of_add_le (by omega)]
  simp
@[simp] theorem fOrd_packM (op : BitVec 8) (var : BitVec 4) (g : Guard) (d a b : BitVec 6) (size scope : BitVec 3) (ord m : BitVec 4) (i : Imm48) :
    fOrd (packM op var g d a b size scope ord m i) = ord := by
  unfold fOrd packM
  rw [BitVec.extractLsb'_append_eq_of_le (by omega), BitVec.extractLsb'_append_eq_of_le (by omega), BitVec.extractLsb'_append_eq_of_add_le (by omega)]
  simp
@[simp] theorem fMod4_packM (op : BitVec 8) (var : BitVec 4) (g : Guard) (d a b : BitVec 6) (size scope : BitVec 3) (ord m : BitVec 4) (i : Imm48) :
    fMod4 (packM op var g d a b size scope ord m i) = m := by
  unfold fMod4 packM
  rw [BitVec.extractLsb'_append_eq_of_le (by omega), BitVec.extractLsb'_append_eq_of_add_le (by omega)]
  simp
@[simp] theorem fGuard_packM (op : BitVec 8) (var : BitVec 4) (g : Guard) (d a b : BitVec 6) (size scope : BitVec 3) (ord m : BitVec 4) (i : Imm48) :
    fGuard (packM op var g d a b size scope ord m i) = g := by
  unfold fGuard; rw [fPn_packM, fPg_packM]; rcases g with ⟨n, p⟩; cases n <;> rfl
theorem fBits_packM_size (op : BitVec 8) (var : BitVec 4) (g : Guard) (d a b : BitVec 6) (size scope : BitVec 3) (ord m : BitVec 4) (i : Imm48) (l w : Nat)
    (h : 59 ≤ l) (h' : l + w ≤ 62) : fBits l w (packM op var g d a b size scope ord m i) = size.extractLsb' (l - 59) w := by
  unfold fBits packM
  rw [BitVec.extractLsb'_append_eq_of_le (by omega), BitVec.extractLsb'_append_eq_of_le (by omega), BitVec.extractLsb'_append_eq_of_le (by omega), BitVec.extractLsb'_append_eq_of_le (by omega), BitVec.extractLsb'_append_eq_of_add_le (by omega)]
  simp [Nat.sub_sub]
theorem fBits_packM_ord (op : BitVec 8) (var : BitVec 4) (g : Guard) (d a b : BitVec 6) (size scope : BitVec 3) (ord m : BitVec 4) (i : Imm48) (l w : Nat)
    (h : 52 ≤ l) (h' : l + w ≤ 56) : fBits l w (packM op var g d a b size scope ord m i) = ord.extractLsb' (l - 52) w := by
  unfold fBits packM
  rw [BitVec.extractLsb'_append_eq_of_le (by omega), BitVec.extractLsb'_append_eq_of_le (by omega), BitVec.extractLsb'_append_eq_of_add_le (by omega)]
  simp [Nat.sub_sub]
theorem fBits_packM_m (op : BitVec 8) (var : BitVec 4) (g : Guard) (d a b : BitVec 6) (size scope : BitVec 3) (ord m : BitVec 4) (i : Imm48) (l w : Nat)
    (h : 48 ≤ l) (h' : l + w ≤ 52) : fBits l w (packM op var g d a b size scope ord m i) = m.extractLsb' (l - 48) w := by
  unfold fBits packM
  rw [BitVec.extractLsb'_append_eq_of_le (by omega), BitVec.extractLsb'_append_eq_of_add_le (by omega)]
theorem fBits_packM_i (op : BitVec 8) (var : BitVec 4) (g : Guard) (d a b : BitVec 6) (size scope : BitVec 3) (ord m : BitVec 4) (i : Imm48) (l w : Nat)
    (_h : 0 ≤ l) (h' : l + w ≤ 48) : fBits l w (packM op var g d a b size scope ord m i) = i.extractLsb' (l - 0) w := by
  unfold fBits packM
  rw [BitVec.extractLsb'_append_eq_of_add_le (by omega)]
  rfl
@[simp] theorem fOp_packS (op : BitVec 8) (var : BitVec 4) (g : Guard) (d a : BitVec 6) (ctl : BitVec 16) (m : BitVec 4) (i : Imm48) :
    fOp (packS op var g d a ctl m i) = op := by
  unfold fOp packS
  rw [BitVec.extractLsb'_append_eq_of_le (by omega), BitVec.extractLsb'_append_eq_of_le (by omega), BitVec.extractLsb'_append_eq_of_le (by omega), BitVec.extractLsb'_append_eq_of_le (by omega), BitVec.extractLsb'_append_eq_of_le (by omega), packHead, BitVec.extractLsb'_append_eq_of_le (by omega), BitVec.extractLsb'_append_eq_of_le (by omega), BitVec.extractLsb'_append_eq_of_le (by omega)]
  simp
@[simp] theorem fVar_packS (op : BitVec 8) (var : BitVec 4) (g : Guard) (d a : BitVec 6) (ctl : BitVec 16) (m : BitVec 4) (i : Imm48) :
    fVar (packS op var g d a ctl m i) = var := by
  unfold fVar packS
  rw [BitVec.extractLsb'_append_eq_of_le (by omega), BitVec.extractLsb'_append_eq_of_le (by omega), BitVec.extractLsb'_append_eq_of_le (by omega), BitVec.extractLsb'_append_eq_of_le (by omega), BitVec.extractLsb'_append_eq_of_le (by omega), packHead, BitVec.extractLsb'_append_eq_of_le (by omega), BitVec.extractLsb'_append_eq_of_le (by omega), BitVec.extractLsb'_append_eq_of_add_le (by omega)]
  simp
@[simp] theorem fPn_packS (op : BitVec 8) (var : BitVec 4) (g : Guard) (d a : BitVec 6) (ctl : BitVec 16) (m : BitVec 4) (i : Imm48) :
    fPn (packS op var g d a ctl m i) = bit1 g.neg := by
  unfold fPn packS
  rw [BitVec.extractLsb'_append_eq_of_le (by omega), BitVec.extractLsb'_append_eq_of_le (by omega), BitVec.extractLsb'_append_eq_of_le (by omega), BitVec.extractLsb'_append_eq_of_le (by omega), BitVec.extractLsb'_append_eq_of_le (by omega), packHead, BitVec.extractLsb'_append_eq_of_le (by omega), BitVec.extractLsb'_append_eq_of_add_le (by omega)]
  simp
@[simp] theorem fPg_packS (op : BitVec 8) (var : BitVec 4) (g : Guard) (d a : BitVec 6) (ctl : BitVec 16) (m : BitVec 4) (i : Imm48) :
    fPg (packS op var g d a ctl m i) = g.p := by
  unfold fPg packS
  rw [BitVec.extractLsb'_append_eq_of_le (by omega), BitVec.extractLsb'_append_eq_of_le (by omega), BitVec.extractLsb'_append_eq_of_le (by omega), BitVec.extractLsb'_append_eq_of_le (by omega), BitVec.extractLsb'_append_eq_of_le (by omega), packHead, BitVec.extractLsb'_append_eq_of_add_le (by omega)]
  simp
@[simp] theorem fGd_packS (op : BitVec 8) (var : BitVec 4) (g : Guard) (d a : BitVec 6) (ctl : BitVec 16) (m : BitVec 4) (i : Imm48) :
    fGd (packS op var g d a ctl m i) = d := by
  unfold fGd packS
  rw [BitVec.extractLsb'_append_eq_of_le (by omega), BitVec.extractLsb'_append_eq_of_le (by omega), BitVec.extractLsb'_append_eq_of_le (by omega), BitVec.extractLsb'_append_eq_of_le (by omega), BitVec.extractLsb'_append_eq_of_add_le (by omega)]
  simp
@[simp] theorem fGa_packS (op : BitVec 8) (var : BitVec 4) (g : Guard) (d a : BitVec 6) (ctl : BitVec 16) (m : BitVec 4) (i : Imm48) :
    fGa (packS op var g d a ctl m i) = a := by
  unfold fGa packS
  rw [BitVec.extractLsb'_append_eq_of_le (by omega), BitVec.extractLsb'_append_eq_of_le (by omega), BitVec.extractLsb'_append_eq_of_le (by omega), BitVec.extractLsb'_append_eq_of_add_le (by omega)]
  simp
@[simp] theorem fLow_packS (op : BitVec 8) (var : BitVec 4) (g : Guard) (d a : BitVec 6) (ctl : BitVec 16) (m : BitVec 4) (i : Imm48) :
    fLow (packS op var g d a ctl m i) = i := by
  unfold fLow packS
  rw [BitVec.extractLsb'_append_eq_of_add_le (by omega)]
  simp
@[simp] theorem fMod4_packS (op : BitVec 8) (var : BitVec 4) (g : Guard) (d a : BitVec 6) (ctl : BitVec 16) (m : BitVec 4) (i : Imm48) :
    fMod4 (packS op var g d a ctl m i) = m := by
  unfold fMod4 packS
  rw [BitVec.extractLsb'_append_eq_of_le (by omega), BitVec.extractLsb'_append_eq_of_add_le (by omega)]
  simp
@[simp] theorem fCtl_packS (op : BitVec 8) (var : BitVec 4) (g : Guard) (d a : BitVec 6) (ctl : BitVec 16) (m : BitVec 4) (i : Imm48) :
    fCtl (packS op var g d a ctl m i) = ctl := by
  unfold fCtl packS
  rw [BitVec.extractLsb'_append_eq_of_le (by omega), BitVec.extractLsb'_append_eq_of_le (by omega), BitVec.extractLsb'_append_eq_of_add_le (by omega)]
  simp
@[simp] theorem fGuard_packS (op : BitVec 8) (var : BitVec 4) (g : Guard) (d a : BitVec 6) (ctl : BitVec 16) (m : BitVec 4) (i : Imm48) :
    fGuard (packS op var g d a ctl m i) = g := by
  unfold fGuard; rw [fPn_packS, fPg_packS]; rcases g with ⟨n, p⟩; cases n <;> rfl
theorem fBits_packS_m (op : BitVec 8) (var : BitVec 4) (g : Guard) (d a : BitVec 6) (ctl : BitVec 16) (m : BitVec 4) (i : Imm48) (l w : Nat)
    (h : 48 ≤ l) (h' : l + w ≤ 52) : fBits l w (packS op var g d a ctl m i) = m.extractLsb' (l - 48) w := by
  unfold fBits packS
  rw [BitVec.extractLsb'_append_eq_of_le (by omega), BitVec.extractLsb'_append_eq_of_add_le (by omega)]
@[simp] theorem fOp_packV (op : BitVec 8) (var : BitVec 4) (g : Guard) (d a b c : BitVec 12) (h : HReg) (hi : BitVec 1) (sel : BitVec 4) (advc advb adva advd sat ftz rtz : BitVec 1) :
    fOp (packV op var g d a b c h hi sel advc advb adva advd sat ftz rtz) = op := by
  unfold fOp packV
  rw [BitVec.extractLsb'_append_eq_of_le (by omega), BitVec.extractLsb'_append_eq_of_le (by omega), BitVec.extractLsb'_append_eq_of_le (by omega), BitVec.extractLsb'_append_eq_of_le (by omega), BitVec.extractLsb'_append_eq_of_le (by omega), BitVec.extractLsb'_append_eq_of_le (by omega), BitVec.extractLsb'_append_eq_of_le (by omega), BitVec.extractLsb'_append_eq_of_le (by omega), BitVec.extractLsb'_append_eq_of_le (by omega), BitVec.extractLsb'_append_eq_of_le (by omega), BitVec.extractLsb'_append_eq_of_le (by omega), BitVec.extractLsb'_append_eq_of_le (by omega), BitVec.extractLsb'_append_eq_of_le (by omega), BitVec.extractLsb'_append_eq_of_le (by omega), BitVec.extractLsb'_append_eq_of_le (by omega), packHead, BitVec.extractLsb'_append_eq_of_le (by omega), BitVec.extractLsb'_append_eq_of_le (by omega), BitVec.extractLsb'_append_eq_of_le (by omega)]
  simp
@[simp] theorem fVar_packV (op : BitVec 8) (var : BitVec 4) (g : Guard) (d a b c : BitVec 12) (h : HReg) (hi : BitVec 1) (sel : BitVec 4) (advc advb adva advd sat ftz rtz : BitVec 1) :
    fVar (packV op var g d a b c h hi sel advc advb adva advd sat ftz rtz) = var := by
  unfold fVar packV
  rw [BitVec.extractLsb'_append_eq_of_le (by omega), BitVec.extractLsb'_append_eq_of_le (by omega), BitVec.extractLsb'_append_eq_of_le (by omega), BitVec.extractLsb'_append_eq_of_le (by omega), BitVec.extractLsb'_append_eq_of_le (by omega), BitVec.extractLsb'_append_eq_of_le (by omega), BitVec.extractLsb'_append_eq_of_le (by omega), BitVec.extractLsb'_append_eq_of_le (by omega), BitVec.extractLsb'_append_eq_of_le (by omega), BitVec.extractLsb'_append_eq_of_le (by omega), BitVec.extractLsb'_append_eq_of_le (by omega), BitVec.extractLsb'_append_eq_of_le (by omega), BitVec.extractLsb'_append_eq_of_le (by omega), BitVec.extractLsb'_append_eq_of_le (by omega), BitVec.extractLsb'_append_eq_of_le (by omega), packHead, BitVec.extractLsb'_append_eq_of_le (by omega), BitVec.extractLsb'_append_eq_of_le (by omega), BitVec.extractLsb'_append_eq_of_add_le (by omega)]
  simp
@[simp] theorem fPn_packV (op : BitVec 8) (var : BitVec 4) (g : Guard) (d a b c : BitVec 12) (h : HReg) (hi : BitVec 1) (sel : BitVec 4) (advc advb adva advd sat ftz rtz : BitVec 1) :
    fPn (packV op var g d a b c h hi sel advc advb adva advd sat ftz rtz) = bit1 g.neg := by
  unfold fPn packV
  rw [BitVec.extractLsb'_append_eq_of_le (by omega), BitVec.extractLsb'_append_eq_of_le (by omega), BitVec.extractLsb'_append_eq_of_le (by omega), BitVec.extractLsb'_append_eq_of_le (by omega), BitVec.extractLsb'_append_eq_of_le (by omega), BitVec.extractLsb'_append_eq_of_le (by omega), BitVec.extractLsb'_append_eq_of_le (by omega), BitVec.extractLsb'_append_eq_of_le (by omega), BitVec.extractLsb'_append_eq_of_le (by omega), BitVec.extractLsb'_append_eq_of_le (by omega), BitVec.extractLsb'_append_eq_of_le (by omega), BitVec.extractLsb'_append_eq_of_le (by omega), BitVec.extractLsb'_append_eq_of_le (by omega), BitVec.extractLsb'_append_eq_of_le (by omega), BitVec.extractLsb'_append_eq_of_le (by omega), packHead, BitVec.extractLsb'_append_eq_of_le (by omega), BitVec.extractLsb'_append_eq_of_add_le (by omega)]
  simp
@[simp] theorem fPg_packV (op : BitVec 8) (var : BitVec 4) (g : Guard) (d a b c : BitVec 12) (h : HReg) (hi : BitVec 1) (sel : BitVec 4) (advc advb adva advd sat ftz rtz : BitVec 1) :
    fPg (packV op var g d a b c h hi sel advc advb adva advd sat ftz rtz) = g.p := by
  unfold fPg packV
  rw [BitVec.extractLsb'_append_eq_of_le (by omega), BitVec.extractLsb'_append_eq_of_le (by omega), BitVec.extractLsb'_append_eq_of_le (by omega), BitVec.extractLsb'_append_eq_of_le (by omega), BitVec.extractLsb'_append_eq_of_le (by omega), BitVec.extractLsb'_append_eq_of_le (by omega), BitVec.extractLsb'_append_eq_of_le (by omega), BitVec.extractLsb'_append_eq_of_le (by omega), BitVec.extractLsb'_append_eq_of_le (by omega), BitVec.extractLsb'_append_eq_of_le (by omega), BitVec.extractLsb'_append_eq_of_le (by omega), BitVec.extractLsb'_append_eq_of_le (by omega), BitVec.extractLsb'_append_eq_of_le (by omega), BitVec.extractLsb'_append_eq_of_le (by omega), BitVec.extractLsb'_append_eq_of_le (by omega), packHead, BitVec.extractLsb'_append_eq_of_add_le (by omega)]
  simp
@[simp] theorem fShape_packV (op : BitVec 8) (var : BitVec 4) (g : Guard) (d a b c : BitVec 12) (h : HReg) (hi : BitVec 1) (sel : BitVec 4) (advc advb adva advd sat ftz rtz : BitVec 1) :
    fShape (packV op var g d a b c h hi sel advc advb adva advd sat ftz rtz) = h := by
  unfold fShape packV
  rw [BitVec.extractLsb'_append_eq_of_le (by omega), BitVec.extractLsb'_append_eq_of_le (by omega), BitVec.extractLsb'_append_eq_of_le (by omega), BitVec.extractLsb'_append_eq_of_le (by omega), BitVec.extractLsb'_append_eq_of_le (by omega), BitVec.extractLsb'_append_eq_of_le (by omega), BitVec.extractLsb'_append_eq_of_le (by omega), BitVec.extractLsb'_append_eq_of_le (by omega), BitVec.extractLsb'_append_eq_of_le (by omega), BitVec.extractLsb'_append_eq_of_le (by omega), BitVec.extractLsb'_append_eq_of_add_le (by omega)]
  simp
@[simp] theorem fGuard_packV (op : BitVec 8) (var : BitVec 4) (g : Guard) (d a b c : BitVec 12) (h : HReg) (hi : BitVec 1) (sel : BitVec 4) (advc advb adva advd sat ftz rtz : BitVec 1) :
    fGuard (packV op var g d a b c h hi sel advc advb adva advd sat ftz rtz) = g := by
  unfold fGuard; rw [fPn_packV, fPg_packV]; rcases g with ⟨n, p⟩; cases n <;> rfl
@[simp] theorem fBits_packV_68 (op : BitVec 8) (var : BitVec 4) (g : Guard) (d a b c : BitVec 12) (h : HReg) (hi : BitVec 1) (sel : BitVec 4) (advc advb adva advd sat ftz rtz : BitVec 1) :
    fBits 68 12 (packV op var g d a b c h hi sel advc advb adva advd sat ftz rtz) = d := by
  unfold fBits packV
  rw [BitVec.extractLsb'_append_eq_of_le (by omega), BitVec.extractLsb'_append_eq_of_le (by omega), BitVec.extractLsb'_append_eq_of_le (by omega), BitVec.extractLsb'_append_eq_of_le (by omega), BitVec.extractLsb'_append_eq_of_le (by omega), BitVec.extractLsb'_append_eq_of_le (by omega), BitVec.extractLsb'_append_eq_of_le (by omega), BitVec.extractLsb'_append_eq_of_le (by omega), BitVec.extractLsb'_append_eq_of_le (by omega), BitVec.extractLsb'_append_eq_of_le (by omega), BitVec.extractLsb'_append_eq_of_le (by omega), BitVec.extractLsb'_append_eq_of_le (by omega), BitVec.extractLsb'_append_eq_of_le (by omega), BitVec.extractLsb'_append_eq_of_le (by omega), BitVec.extractLsb'_append_eq_of_add_le (by omega)]
  simp
@[simp] theorem fBits_packV_56 (op : BitVec 8) (var : BitVec 4) (g : Guard) (d a b c : BitVec 12) (h : HReg) (hi : BitVec 1) (sel : BitVec 4) (advc advb adva advd sat ftz rtz : BitVec 1) :
    fBits 56 12 (packV op var g d a b c h hi sel advc advb adva advd sat ftz rtz) = a := by
  unfold fBits packV
  rw [BitVec.extractLsb'_append_eq_of_le (by omega), BitVec.extractLsb'_append_eq_of_le (by omega), BitVec.extractLsb'_append_eq_of_le (by omega), BitVec.extractLsb'_append_eq_of_le (by omega), BitVec.extractLsb'_append_eq_of_le (by omega), BitVec.extractLsb'_append_eq_of_le (by omega), BitVec.extractLsb'_append_eq_of_le (by omega), BitVec.extractLsb'_append_eq_of_le (by omega), BitVec.extractLsb'_append_eq_of_le (by omega), BitVec.extractLsb'_append_eq_of_le (by omega), BitVec.extractLsb'_append_eq_of_le (by omega), BitVec.extractLsb'_append_eq_of_le (by omega), BitVec.extractLsb'_append_eq_of_le (by omega), BitVec.extractLsb'_append_eq_of_add_le (by omega)]
  simp
@[simp] theorem fBits_packV_44 (op : BitVec 8) (var : BitVec 4) (g : Guard) (d a b c : BitVec 12) (h : HReg) (hi : BitVec 1) (sel : BitVec 4) (advc advb adva advd sat ftz rtz : BitVec 1) :
    fBits 44 12 (packV op var g d a b c h hi sel advc advb adva advd sat ftz rtz) = b := by
  unfold fBits packV
  rw [BitVec.extractLsb'_append_eq_of_le (by omega), BitVec.extractLsb'_append_eq_of_le (by omega), BitVec.extractLsb'_append_eq_of_le (by omega), BitVec.extractLsb'_append_eq_of_le (by omega), BitVec.extractLsb'_append_eq_of_le (by omega), BitVec.extractLsb'_append_eq_of_le (by omega), BitVec.extractLsb'_append_eq_of_le (by omega), BitVec.extractLsb'_append_eq_of_le (by omega), BitVec.extractLsb'_append_eq_of_le (by omega), BitVec.extractLsb'_append_eq_of_le (by omega), BitVec.extractLsb'_append_eq_of_le (by omega), BitVec.extractLsb'_append_eq_of_le (by omega), BitVec.extractLsb'_append_eq_of_add_le (by omega)]
  simp
@[simp] theorem fBits_packV_32 (op : BitVec 8) (var : BitVec 4) (g : Guard) (d a b c : BitVec 12) (h : HReg) (hi : BitVec 1) (sel : BitVec 4) (advc advb adva advd sat ftz rtz : BitVec 1) :
    fBits 32 12 (packV op var g d a b c h hi sel advc advb adva advd sat ftz rtz) = c := by
  unfold fBits packV
  rw [BitVec.extractLsb'_append_eq_of_le (by omega), BitVec.extractLsb'_append_eq_of_le (by omega), BitVec.extractLsb'_append_eq_of_le (by omega), BitVec.extractLsb'_append_eq_of_le (by omega), BitVec.extractLsb'_append_eq_of_le (by omega), BitVec.extractLsb'_append_eq_of_le (by omega), BitVec.extractLsb'_append_eq_of_le (by omega), BitVec.extractLsb'_append_eq_of_le (by omega), BitVec.extractLsb'_append_eq_of_le (by omega), BitVec.extractLsb'_append_eq_of_le (by omega), BitVec.extractLsb'_append_eq_of_le (by omega), BitVec.extractLsb'_append_eq_of_add_le (by omega)]
  simp
@[simp] theorem fBits_packV_27 (op : BitVec 8) (var : BitVec 4) (g : Guard) (d a b c : BitVec 12) (h : HReg) (hi : BitVec 1) (sel : BitVec 4) (advc advb adva advd sat ftz rtz : BitVec 1) :
    fBits 27 5 (packV op var g d a b c h hi sel advc advb adva advd sat ftz rtz) = h := by
  unfold fBits packV
  rw [BitVec.extractLsb'_append_eq_of_le (by omega), BitVec.extractLsb'_append_eq_of_le (by omega), BitVec.extractLsb'_append_eq_of_le (by omega), BitVec.extractLsb'_append_eq_of_le (by omega), BitVec.extractLsb'_append_eq_of_le (by omega), BitVec.extractLsb'_append_eq_of_le (by omega), BitVec.extractLsb'_append_eq_of_le (by omega), BitVec.extractLsb'_append_eq_of_le (by omega), BitVec.extractLsb'_append_eq_of_le (by omega), BitVec.extractLsb'_append_eq_of_le (by omega), BitVec.extractLsb'_append_eq_of_add_le (by omega)]
  simp
@[simp] theorem fBits_packV_12 (op : BitVec 8) (var : BitVec 4) (g : Guard) (d a b c : BitVec 12) (h : HReg) (hi : BitVec 1) (sel : BitVec 4) (advc advb adva advd sat ftz rtz : BitVec 1) :
    fBits 12 15 (packV op var g d a b c h hi sel advc advb adva advd sat ftz rtz) = 0 := by
  unfold fBits packV
  rw [BitVec.extractLsb'_append_eq_of_le (by omega), BitVec.extractLsb'_append_eq_of_le (by omega), BitVec.extractLsb'_append_eq_of_le (by omega), BitVec.extractLsb'_append_eq_of_le (by omega), BitVec.extractLsb'_append_eq_of_le (by omega), BitVec.extractLsb'_append_eq_of_le (by omega), BitVec.extractLsb'_append_eq_of_le (by omega), BitVec.extractLsb'_append_eq_of_le (by omega), BitVec.extractLsb'_append_eq_of_le (by omega), BitVec.extractLsb'_append_eq_of_add_le (by omega)]
  simp
@[simp] theorem fBits_packV_11 (op : BitVec 8) (var : BitVec 4) (g : Guard) (d a b c : BitVec 12) (h : HReg) (hi : BitVec 1) (sel : BitVec 4) (advc advb adva advd sat ftz rtz : BitVec 1) :
    fBits 11 1 (packV op var g d a b c h hi sel advc advb adva advd sat ftz rtz) = hi := by
  unfold fBits packV
  rw [BitVec.extractLsb'_append_eq_of_le (by omega), BitVec.extractLsb'_append_eq_of_le (by omega), BitVec.extractLsb'_append_eq_of_le (by omega), BitVec.extractLsb'_append_eq_of_le (by omega), BitVec.extractLsb'_append_eq_of_le (by omega), BitVec.extractLsb'_append_eq_of_le (by omega), BitVec.extractLsb'_append_eq_of_le (by omega), BitVec.extractLsb'_append_eq_of_le (by omega), BitVec.extractLsb'_append_eq_of_add_le (by omega)]
  simp
@[simp] theorem fBits_packV_7 (op : BitVec 8) (var : BitVec 4) (g : Guard) (d a b c : BitVec 12) (h : HReg) (hi : BitVec 1) (sel : BitVec 4) (advc advb adva advd sat ftz rtz : BitVec 1) :
    fBits 7 4 (packV op var g d a b c h hi sel advc advb adva advd sat ftz rtz) = sel := by
  unfold fBits packV
  rw [BitVec.extractLsb'_append_eq_of_le (by omega), BitVec.extractLsb'_append_eq_of_le (by omega), BitVec.extractLsb'_append_eq_of_le (by omega), BitVec.extractLsb'_append_eq_of_le (by omega), BitVec.extractLsb'_append_eq_of_le (by omega), BitVec.extractLsb'_append_eq_of_le (by omega), BitVec.extractLsb'_append_eq_of_le (by omega), BitVec.extractLsb'_append_eq_of_add_le (by omega)]
  simp
@[simp] theorem fBits_packV_6 (op : BitVec 8) (var : BitVec 4) (g : Guard) (d a b c : BitVec 12) (h : HReg) (hi : BitVec 1) (sel : BitVec 4) (advc advb adva advd sat ftz rtz : BitVec 1) :
    fBits 6 1 (packV op var g d a b c h hi sel advc advb adva advd sat ftz rtz) = advc := by
  unfold fBits packV
  rw [BitVec.extractLsb'_append_eq_of_le (by omega), BitVec.extractLsb'_append_eq_of_le (by omega), BitVec.extractLsb'_append_eq_of_le (by omega), BitVec.extractLsb'_append_eq_of_le (by omega), BitVec.extractLsb'_append_eq_of_le (by omega), BitVec.extractLsb'_append_eq_of_le (by omega), BitVec.extractLsb'_append_eq_of_add_le (by omega)]
  simp
@[simp] theorem fBits_packV_5 (op : BitVec 8) (var : BitVec 4) (g : Guard) (d a b c : BitVec 12) (h : HReg) (hi : BitVec 1) (sel : BitVec 4) (advc advb adva advd sat ftz rtz : BitVec 1) :
    fBits 5 1 (packV op var g d a b c h hi sel advc advb adva advd sat ftz rtz) = advb := by
  unfold fBits packV
  rw [BitVec.extractLsb'_append_eq_of_le (by omega), BitVec.extractLsb'_append_eq_of_le (by omega), BitVec.extractLsb'_append_eq_of_le (by omega), BitVec.extractLsb'_append_eq_of_le (by omega), BitVec.extractLsb'_append_eq_of_le (by omega), BitVec.extractLsb'_append_eq_of_add_le (by omega)]
  simp
@[simp] theorem fBits_packV_4 (op : BitVec 8) (var : BitVec 4) (g : Guard) (d a b c : BitVec 12) (h : HReg) (hi : BitVec 1) (sel : BitVec 4) (advc advb adva advd sat ftz rtz : BitVec 1) :
    fBits 4 1 (packV op var g d a b c h hi sel advc advb adva advd sat ftz rtz) = adva := by
  unfold fBits packV
  rw [BitVec.extractLsb'_append_eq_of_le (by omega), BitVec.extractLsb'_append_eq_of_le (by omega), BitVec.extractLsb'_append_eq_of_le (by omega), BitVec.extractLsb'_append_eq_of_le (by omega), BitVec.extractLsb'_append_eq_of_add_le (by omega)]
  simp
@[simp] theorem fBits_packV_3 (op : BitVec 8) (var : BitVec 4) (g : Guard) (d a b c : BitVec 12) (h : HReg) (hi : BitVec 1) (sel : BitVec 4) (advc advb adva advd sat ftz rtz : BitVec 1) :
    fBits 3 1 (packV op var g d a b c h hi sel advc advb adva advd sat ftz rtz) = advd := by
  unfold fBits packV
  rw [BitVec.extractLsb'_append_eq_of_le (by omega), BitVec.extractLsb'_append_eq_of_le (by omega), BitVec.extractLsb'_append_eq_of_le (by omega), BitVec.extractLsb'_append_eq_of_add_le (by omega)]
  simp
@[simp] theorem fBits_packV_2 (op : BitVec 8) (var : BitVec 4) (g : Guard) (d a b c : BitVec 12) (h : HReg) (hi : BitVec 1) (sel : BitVec 4) (advc advb adva advd sat ftz rtz : BitVec 1) :
    fBits 2 1 (packV op var g d a b c h hi sel advc advb adva advd sat ftz rtz) = sat := by
  unfold fBits packV
  rw [BitVec.extractLsb'_append_eq_of_le (by omega), BitVec.extractLsb'_append_eq_of_le (by omega), BitVec.extractLsb'_append_eq_of_add_le (by omega)]
  simp
@[simp] theorem fBits_packV_1 (op : BitVec 8) (var : BitVec 4) (g : Guard) (d a b c : BitVec 12) (h : HReg) (hi : BitVec 1) (sel : BitVec 4) (advc advb adva advd sat ftz rtz : BitVec 1) :
    fBits 1 1 (packV op var g d a b c h hi sel advc advb adva advd sat ftz rtz) = ftz := by
  unfold fBits packV
  rw [BitVec.extractLsb'_append_eq_of_le (by omega), BitVec.extractLsb'_append_eq_of_add_le (by omega)]
  simp
@[simp] theorem fBits_packV_0 (op : BitVec 8) (var : BitVec 4) (g : Guard) (d a b c : BitVec 12) (h : HReg) (hi : BitVec 1) (sel : BitVec 4) (advc advb adva advd sat ftz rtz : BitVec 1) :
    fBits 0 1 (packV op var g d a b c h hi sel advc advb adva advd sat ftz rtz) = rtz := by
  unfold fBits packV
  rw [BitVec.extractLsb'_append_eq_of_add_le (by omega)]
  simp
@[simp] theorem fSpec_packV_68 (op : BitVec 8) (var : BitVec 4) (g : Guard) (d a b c : BitVec 12) (h : HReg) (hi : BitVec 1) (sel : BitVec 4) (advc advb adva advd sat ftz rtz : BitVec 1) :
    fSpec 68 (packV op var g d a b c h hi sel advc advb adva advd sat ftz rtz) = d := by
  unfold fSpec packV
  rw [BitVec.extractLsb'_append_eq_of_le (by omega), BitVec.extractLsb'_append_eq_of_le (by omega), BitVec.extractLsb'_append_eq_of_le (by omega), BitVec.extractLsb'_append_eq_of_le (by omega), BitVec.extractLsb'_append_eq_of_le (by omega), BitVec.extractLsb'_append_eq_of_le (by omega), BitVec.extractLsb'_append_eq_of_le (by omega), BitVec.extractLsb'_append_eq_of_le (by omega), BitVec.extractLsb'_append_eq_of_le (by omega), BitVec.extractLsb'_append_eq_of_le (by omega), BitVec.extractLsb'_append_eq_of_le (by omega), BitVec.extractLsb'_append_eq_of_le (by omega), BitVec.extractLsb'_append_eq_of_le (by omega), BitVec.extractLsb'_append_eq_of_le (by omega), BitVec.extractLsb'_append_eq_of_add_le (by omega)]
  simp
@[simp] theorem fSpec_packV_56 (op : BitVec 8) (var : BitVec 4) (g : Guard) (d a b c : BitVec 12) (h : HReg) (hi : BitVec 1) (sel : BitVec 4) (advc advb adva advd sat ftz rtz : BitVec 1) :
    fSpec 56 (packV op var g d a b c h hi sel advc advb adva advd sat ftz rtz) = a := by
  unfold fSpec packV
  rw [BitVec.extractLsb'_append_eq_of_le (by omega), BitVec.extractLsb'_append_eq_of_le (by omega), BitVec.extractLsb'_append_eq_of_le (by omega), BitVec.extractLsb'_append_eq_of_le (by omega), BitVec.extractLsb'_append_eq_of_le (by omega), BitVec.extractLsb'_append_eq_of_le (by omega), BitVec.extractLsb'_append_eq_of_le (by omega), BitVec.extractLsb'_append_eq_of_le (by omega), BitVec.extractLsb'_append_eq_of_le (by omega), BitVec.extractLsb'_append_eq_of_le (by omega), BitVec.extractLsb'_append_eq_of_le (by omega), BitVec.extractLsb'_append_eq_of_le (by omega), BitVec.extractLsb'_append_eq_of_le (by omega), BitVec.extractLsb'_append_eq_of_add_le (by omega)]
  simp
@[simp] theorem fSpec_packV_44 (op : BitVec 8) (var : BitVec 4) (g : Guard) (d a b c : BitVec 12) (h : HReg) (hi : BitVec 1) (sel : BitVec 4) (advc advb adva advd sat ftz rtz : BitVec 1) :
    fSpec 44 (packV op var g d a b c h hi sel advc advb adva advd sat ftz rtz) = b := by
  unfold fSpec packV
  rw [BitVec.extractLsb'_append_eq_of_le (by omega), BitVec.extractLsb'_append_eq_of_le (by omega), BitVec.extractLsb'_append_eq_of_le (by omega), BitVec.extractLsb'_append_eq_of_le (by omega), BitVec.extractLsb'_append_eq_of_le (by omega), BitVec.extractLsb'_append_eq_of_le (by omega), BitVec.extractLsb'_append_eq_of_le (by omega), BitVec.extractLsb'_append_eq_of_le (by omega), BitVec.extractLsb'_append_eq_of_le (by omega), BitVec.extractLsb'_append_eq_of_le (by omega), BitVec.extractLsb'_append_eq_of_le (by omega), BitVec.extractLsb'_append_eq_of_le (by omega), BitVec.extractLsb'_append_eq_of_add_le (by omega)]
  simp
@[simp] theorem fSpec_packV_32 (op : BitVec 8) (var : BitVec 4) (g : Guard) (d a b c : BitVec 12) (h : HReg) (hi : BitVec 1) (sel : BitVec 4) (advc advb adva advd sat ftz rtz : BitVec 1) :
    fSpec 32 (packV op var g d a b c h hi sel advc advb adva advd sat ftz rtz) = c := by
  unfold fSpec packV
  rw [BitVec.extractLsb'_append_eq_of_le (by omega), BitVec.extractLsb'_append_eq_of_le (by omega), BitVec.extractLsb'_append_eq_of_le (by omega), BitVec.extractLsb'_append_eq_of_le (by omega), BitVec.extractLsb'_append_eq_of_le (by omega), BitVec.extractLsb'_append_eq_of_le (by omega), BitVec.extractLsb'_append_eq_of_le (by omega), BitVec.extractLsb'_append_eq_of_le (by omega), BitVec.extractLsb'_append_eq_of_le (by omega), BitVec.extractLsb'_append_eq_of_le (by omega), BitVec.extractLsb'_append_eq_of_le (by omega), BitVec.extractLsb'_append_eq_of_add_le (by omega)]
  simp
@[simp] theorem fOp_packT (op : BitVec 8) (var : BitVec 4) (g : Guard) (d a b c : BitVec 12) (pa : BitVec 3) (sa : BitVec 1) (pb : BitVec 3) (sb : BitVec 1) (m : BitVec 11) (advc advb adva advd sat : BitVec 1) :
    fOp (packT op var g d a b c pa sa pb sb m advc advb adva advd sat) = op := by
  unfold fOp packT
  rw [BitVec.extractLsb'_append_eq_of_le (by omega), BitVec.extractLsb'_append_eq_of_le (by omega), BitVec.extractLsb'_append_eq_of_le (by omega), BitVec.extractLsb'_append_eq_of_le (by omega), BitVec.extractLsb'_append_eq_of_le (by omega), BitVec.extractLsb'_append_eq_of_le (by omega), BitVec.extractLsb'_append_eq_of_le (by omega), BitVec.extractLsb'_append_eq_of_le (by omega), BitVec.extractLsb'_append_eq_of_le (by omega), BitVec.extractLsb'_append_eq_of_le (by omega), BitVec.extractLsb'_append_eq_of_le (by omega), BitVec.extractLsb'_append_eq_of_le (by omega), BitVec.extractLsb'_append_eq_of_le (by omega), BitVec.extractLsb'_append_eq_of_le (by omega), BitVec.extractLsb'_append_eq_of_le (by omega), BitVec.extractLsb'_append_eq_of_le (by omega), BitVec.extractLsb'_append_eq_of_le (by omega), packHead, BitVec.extractLsb'_append_eq_of_le (by omega), BitVec.extractLsb'_append_eq_of_le (by omega), BitVec.extractLsb'_append_eq_of_le (by omega)]
  simp
@[simp] theorem fVar_packT (op : BitVec 8) (var : BitVec 4) (g : Guard) (d a b c : BitVec 12) (pa : BitVec 3) (sa : BitVec 1) (pb : BitVec 3) (sb : BitVec 1) (m : BitVec 11) (advc advb adva advd sat : BitVec 1) :
    fVar (packT op var g d a b c pa sa pb sb m advc advb adva advd sat) = var := by
  unfold fVar packT
  rw [BitVec.extractLsb'_append_eq_of_le (by omega), BitVec.extractLsb'_append_eq_of_le (by omega), BitVec.extractLsb'_append_eq_of_le (by omega), BitVec.extractLsb'_append_eq_of_le (by omega), BitVec.extractLsb'_append_eq_of_le (by omega), BitVec.extractLsb'_append_eq_of_le (by omega), BitVec.extractLsb'_append_eq_of_le (by omega), BitVec.extractLsb'_append_eq_of_le (by omega), BitVec.extractLsb'_append_eq_of_le (by omega), BitVec.extractLsb'_append_eq_of_le (by omega), BitVec.extractLsb'_append_eq_of_le (by omega), BitVec.extractLsb'_append_eq_of_le (by omega), BitVec.extractLsb'_append_eq_of_le (by omega), BitVec.extractLsb'_append_eq_of_le (by omega), BitVec.extractLsb'_append_eq_of_le (by omega), BitVec.extractLsb'_append_eq_of_le (by omega), BitVec.extractLsb'_append_eq_of_le (by omega), packHead, BitVec.extractLsb'_append_eq_of_le (by omega), BitVec.extractLsb'_append_eq_of_le (by omega), BitVec.extractLsb'_append_eq_of_add_le (by omega)]
  simp
@[simp] theorem fPn_packT (op : BitVec 8) (var : BitVec 4) (g : Guard) (d a b c : BitVec 12) (pa : BitVec 3) (sa : BitVec 1) (pb : BitVec 3) (sb : BitVec 1) (m : BitVec 11) (advc advb adva advd sat : BitVec 1) :
    fPn (packT op var g d a b c pa sa pb sb m advc advb adva advd sat) = bit1 g.neg := by
  unfold fPn packT
  rw [BitVec.extractLsb'_append_eq_of_le (by omega), BitVec.extractLsb'_append_eq_of_le (by omega), BitVec.extractLsb'_append_eq_of_le (by omega), BitVec.extractLsb'_append_eq_of_le (by omega), BitVec.extractLsb'_append_eq_of_le (by omega), BitVec.extractLsb'_append_eq_of_le (by omega), BitVec.extractLsb'_append_eq_of_le (by omega), BitVec.extractLsb'_append_eq_of_le (by omega), BitVec.extractLsb'_append_eq_of_le (by omega), BitVec.extractLsb'_append_eq_of_le (by omega), BitVec.extractLsb'_append_eq_of_le (by omega), BitVec.extractLsb'_append_eq_of_le (by omega), BitVec.extractLsb'_append_eq_of_le (by omega), BitVec.extractLsb'_append_eq_of_le (by omega), BitVec.extractLsb'_append_eq_of_le (by omega), BitVec.extractLsb'_append_eq_of_le (by omega), BitVec.extractLsb'_append_eq_of_le (by omega), packHead, BitVec.extractLsb'_append_eq_of_le (by omega), BitVec.extractLsb'_append_eq_of_add_le (by omega)]
  simp
@[simp] theorem fPg_packT (op : BitVec 8) (var : BitVec 4) (g : Guard) (d a b c : BitVec 12) (pa : BitVec 3) (sa : BitVec 1) (pb : BitVec 3) (sb : BitVec 1) (m : BitVec 11) (advc advb adva advd sat : BitVec 1) :
    fPg (packT op var g d a b c pa sa pb sb m advc advb adva advd sat) = g.p := by
  unfold fPg packT
  rw [BitVec.extractLsb'_append_eq_of_le (by omega), BitVec.extractLsb'_append_eq_of_le (by omega), BitVec.extractLsb'_append_eq_of_le (by omega), BitVec.extractLsb'_append_eq_of_le (by omega), BitVec.extractLsb'_append_eq_of_le (by omega), BitVec.extractLsb'_append_eq_of_le (by omega), BitVec.extractLsb'_append_eq_of_le (by omega), BitVec.extractLsb'_append_eq_of_le (by omega), BitVec.extractLsb'_append_eq_of_le (by omega), BitVec.extractLsb'_append_eq_of_le (by omega), BitVec.extractLsb'_append_eq_of_le (by omega), BitVec.extractLsb'_append_eq_of_le (by omega), BitVec.extractLsb'_append_eq_of_le (by omega), BitVec.extractLsb'_append_eq_of_le (by omega), BitVec.extractLsb'_append_eq_of_le (by omega), BitVec.extractLsb'_append_eq_of_le (by omega), BitVec.extractLsb'_append_eq_of_le (by omega), packHead, BitVec.extractLsb'_append_eq_of_add_le (by omega)]
  simp
@[simp] theorem fShape_packT (op : BitVec 8) (var : BitVec 4) (g : Guard) (d a b c : BitVec 12) (pa : BitVec 3) (sa : BitVec 1) (pb : BitVec 3) (sb : BitVec 1) (m : BitVec 11) (advc advb adva advd sat : BitVec 1) :
    fShape (packT op var g d a b c pa sa pb sb m advc advb adva advd sat) = 0 := by
  unfold fShape packT
  rw [BitVec.extractLsb'_append_eq_of_le (by omega), BitVec.extractLsb'_append_eq_of_le (by omega), BitVec.extractLsb'_append_eq_of_le (by omega), BitVec.extractLsb'_append_eq_of_le (by omega), BitVec.extractLsb'_append_eq_of_le (by omega), BitVec.extractLsb'_append_eq_of_le (by omega), BitVec.extractLsb'_append_eq_of_le (by omega), BitVec.extractLsb'_append_eq_of_le (by omega), BitVec.extractLsb'_append_eq_of_le (by omega), BitVec.extractLsb'_append_eq_of_le (by omega), BitVec.extractLsb'_append_eq_of_le (by omega), BitVec.extractLsb'_append_eq_of_le (by omega), BitVec.extractLsb'_append_eq_of_add_le (by omega)]
  simp
@[simp] theorem fGuard_packT (op : BitVec 8) (var : BitVec 4) (g : Guard) (d a b c : BitVec 12) (pa : BitVec 3) (sa : BitVec 1) (pb : BitVec 3) (sb : BitVec 1) (m : BitVec 11) (advc advb adva advd sat : BitVec 1) :
    fGuard (packT op var g d a b c pa sa pb sb m advc advb adva advd sat) = g := by
  unfold fGuard; rw [fPn_packT, fPg_packT]; rcases g with ⟨n, p⟩; cases n <;> rfl
@[simp] theorem fBits_packT_68 (op : BitVec 8) (var : BitVec 4) (g : Guard) (d a b c : BitVec 12) (pa : BitVec 3) (sa : BitVec 1) (pb : BitVec 3) (sb : BitVec 1) (m : BitVec 11) (advc advb adva advd sat : BitVec 1) :
    fBits 68 12 (packT op var g d a b c pa sa pb sb m advc advb adva advd sat) = d := by
  unfold fBits packT
  rw [BitVec.extractLsb'_append_eq_of_le (by omega), BitVec.extractLsb'_append_eq_of_le (by omega), BitVec.extractLsb'_append_eq_of_le (by omega), BitVec.extractLsb'_append_eq_of_le (by omega), BitVec.extractLsb'_append_eq_of_le (by omega), BitVec.extractLsb'_append_eq_of_le (by omega), BitVec.extractLsb'_append_eq_of_le (by omega), BitVec.extractLsb'_append_eq_of_le (by omega), BitVec.extractLsb'_append_eq_of_le (by omega), BitVec.extractLsb'_append_eq_of_le (by omega), BitVec.extractLsb'_append_eq_of_le (by omega), BitVec.extractLsb'_append_eq_of_le (by omega), BitVec.extractLsb'_append_eq_of_le (by omega), BitVec.extractLsb'_append_eq_of_le (by omega), BitVec.extractLsb'_append_eq_of_le (by omega), BitVec.extractLsb'_append_eq_of_le (by omega), BitVec.extractLsb'_append_eq_of_add_le (by omega)]
  simp
@[simp] theorem fBits_packT_56 (op : BitVec 8) (var : BitVec 4) (g : Guard) (d a b c : BitVec 12) (pa : BitVec 3) (sa : BitVec 1) (pb : BitVec 3) (sb : BitVec 1) (m : BitVec 11) (advc advb adva advd sat : BitVec 1) :
    fBits 56 12 (packT op var g d a b c pa sa pb sb m advc advb adva advd sat) = a := by
  unfold fBits packT
  rw [BitVec.extractLsb'_append_eq_of_le (by omega), BitVec.extractLsb'_append_eq_of_le (by omega), BitVec.extractLsb'_append_eq_of_le (by omega), BitVec.extractLsb'_append_eq_of_le (by omega), BitVec.extractLsb'_append_eq_of_le (by omega), BitVec.extractLsb'_append_eq_of_le (by omega), BitVec.extractLsb'_append_eq_of_le (by omega), BitVec.extractLsb'_append_eq_of_le (by omega), BitVec.extractLsb'_append_eq_of_le (by omega), BitVec.extractLsb'_append_eq_of_le (by omega), BitVec.extractLsb'_append_eq_of_le (by omega), BitVec.extractLsb'_append_eq_of_le (by omega), BitVec.extractLsb'_append_eq_of_le (by omega), BitVec.extractLsb'_append_eq_of_le (by omega), BitVec.extractLsb'_append_eq_of_le (by omega), BitVec.extractLsb'_append_eq_of_add_le (by omega)]
  simp
@[simp] theorem fBits_packT_44 (op : BitVec 8) (var : BitVec 4) (g : Guard) (d a b c : BitVec 12) (pa : BitVec 3) (sa : BitVec 1) (pb : BitVec 3) (sb : BitVec 1) (m : BitVec 11) (advc advb adva advd sat : BitVec 1) :
    fBits 44 12 (packT op var g d a b c pa sa pb sb m advc advb adva advd sat) = b := by
  unfold fBits packT
  rw [BitVec.extractLsb'_append_eq_of_le (by omega), BitVec.extractLsb'_append_eq_of_le (by omega), BitVec.extractLsb'_append_eq_of_le (by omega), BitVec.extractLsb'_append_eq_of_le (by omega), BitVec.extractLsb'_append_eq_of_le (by omega), BitVec.extractLsb'_append_eq_of_le (by omega), BitVec.extractLsb'_append_eq_of_le (by omega), BitVec.extractLsb'_append_eq_of_le (by omega), BitVec.extractLsb'_append_eq_of_le (by omega), BitVec.extractLsb'_append_eq_of_le (by omega), BitVec.extractLsb'_append_eq_of_le (by omega), BitVec.extractLsb'_append_eq_of_le (by omega), BitVec.extractLsb'_append_eq_of_le (by omega), BitVec.extractLsb'_append_eq_of_le (by omega), BitVec.extractLsb'_append_eq_of_add_le (by omega)]
  simp
@[simp] theorem fBits_packT_32 (op : BitVec 8) (var : BitVec 4) (g : Guard) (d a b c : BitVec 12) (pa : BitVec 3) (sa : BitVec 1) (pb : BitVec 3) (sb : BitVec 1) (m : BitVec 11) (advc advb adva advd sat : BitVec 1) :
    fBits 32 12 (packT op var g d a b c pa sa pb sb m advc advb adva advd sat) = c := by
  unfold fBits packT
  rw [BitVec.extractLsb'_append_eq_of_le (by omega), BitVec.extractLsb'_append_eq_of_le (by omega), BitVec.extractLsb'_append_eq_of_le (by omega), BitVec.extractLsb'_append_eq_of_le (by omega), BitVec.extractLsb'_append_eq_of_le (by omega), BitVec.extractLsb'_append_eq_of_le (by omega), BitVec.extractLsb'_append_eq_of_le (by omega), BitVec.extractLsb'_append_eq_of_le (by omega), BitVec.extractLsb'_append_eq_of_le (by omega), BitVec.extractLsb'_append_eq_of_le (by omega), BitVec.extractLsb'_append_eq_of_le (by omega), BitVec.extractLsb'_append_eq_of_le (by omega), BitVec.extractLsb'_append_eq_of_le (by omega), BitVec.extractLsb'_append_eq_of_add_le (by omega)]
  simp
@[simp] theorem fBits_packT_27 (op : BitVec 8) (var : BitVec 4) (g : Guard) (d a b c : BitVec 12) (pa : BitVec 3) (sa : BitVec 1) (pb : BitVec 3) (sb : BitVec 1) (m : BitVec 11) (advc advb adva advd sat : BitVec 1) :
    fBits 27 5 (packT op var g d a b c pa sa pb sb m advc advb adva advd sat) = 0 := by
  unfold fBits packT
  rw [BitVec.extractLsb'_append_eq_of_le (by omega), BitVec.extractLsb'_append_eq_of_le (by omega), BitVec.extractLsb'_append_eq_of_le (by omega), BitVec.extractLsb'_append_eq_of_le (by omega), BitVec.extractLsb'_append_eq_of_le (by omega), BitVec.extractLsb'_append_eq_of_le (by omega), BitVec.extractLsb'_append_eq_of_le (by omega), BitVec.extractLsb'_append_eq_of_le (by omega), BitVec.extractLsb'_append_eq_of_le (by omega), BitVec.extractLsb'_append_eq_of_le (by omega), BitVec.extractLsb'_append_eq_of_le (by omega), BitVec.extractLsb'_append_eq_of_le (by omega), BitVec.extractLsb'_append_eq_of_add_le (by omega)]
  simp
@[simp] theorem fBits_packT_24 (op : BitVec 8) (var : BitVec 4) (g : Guard) (d a b c : BitVec 12) (pa : BitVec 3) (sa : BitVec 1) (pb : BitVec 3) (sb : BitVec 1) (m : BitVec 11) (advc advb adva advd sat : BitVec 1) :
    fBits 24 3 (packT op var g d a b c pa sa pb sb m advc advb adva advd sat) = pa := by
  unfold fBits packT
  rw [BitVec.extractLsb'_append_eq_of_le (by omega), BitVec.extractLsb'_append_eq_of_le (by omega), BitVec.extractLsb'_append_eq_of_le (by omega), BitVec.extractLsb'_append_eq_of_le (by omega), BitVec.extractLsb'_append_eq_of_le (by omega), BitVec.extractLsb'_append_eq_of_le (by omega), BitVec.extractLsb'_append_eq_of_le (by omega), BitVec.extractLsb'_append_eq_of_le (by omega), BitVec.extractLsb'_append_eq_of_le (by omega), BitVec.extractLsb'_append_eq_of_le (by omega), BitVec.extractLsb'_append_eq_of_le (by omega), BitVec.extractLsb'_append_eq_of_add_le (by omega)]
  simp
@[simp] theorem fBits_packT_23 (op : BitVec 8) (var : BitVec 4) (g : Guard) (d a b c : BitVec 12) (pa : BitVec 3) (sa : BitVec 1) (pb : BitVec 3) (sb : BitVec 1) (m : BitVec 11) (advc advb adva advd sat : BitVec 1) :
    fBits 23 1 (packT op var g d a b c pa sa pb sb m advc advb adva advd sat) = sa := by
  unfold fBits packT
  rw [BitVec.extractLsb'_append_eq_of_le (by omega), BitVec.extractLsb'_append_eq_of_le (by omega), BitVec.extractLsb'_append_eq_of_le (by omega), BitVec.extractLsb'_append_eq_of_le (by omega), BitVec.extractLsb'_append_eq_of_le (by omega), BitVec.extractLsb'_append_eq_of_le (by omega), BitVec.extractLsb'_append_eq_of_le (by omega), BitVec.extractLsb'_append_eq_of_le (by omega), BitVec.extractLsb'_append_eq_of_le (by omega), BitVec.extractLsb'_append_eq_of_le (by omega), BitVec.extractLsb'_append_eq_of_add_le (by omega)]
  simp
@[simp] theorem fBits_packT_20 (op : BitVec 8) (var : BitVec 4) (g : Guard) (d a b c : BitVec 12) (pa : BitVec 3) (sa : BitVec 1) (pb : BitVec 3) (sb : BitVec 1) (m : BitVec 11) (advc advb adva advd sat : BitVec 1) :
    fBits 20 3 (packT op var g d a b c pa sa pb sb m advc advb adva advd sat) = pb := by
  unfold fBits packT
  rw [BitVec.extractLsb'_append_eq_of_le (by omega), BitVec.extractLsb'_append_eq_of_le (by omega), BitVec.extractLsb'_append_eq_of_le (by omega), BitVec.extractLsb'_append_eq_of_le (by omega), BitVec.extractLsb'_append_eq_of_le (by omega), BitVec.extractLsb'_append_eq_of_le (by omega), BitVec.extractLsb'_append_eq_of_le (by omega), BitVec.extractLsb'_append_eq_of_le (by omega), BitVec.extractLsb'_append_eq_of_le (by omega), BitVec.extractLsb'_append_eq_of_add_le (by omega)]
  simp
@[simp] theorem fBits_packT_19 (op : BitVec 8) (var : BitVec 4) (g : Guard) (d a b c : BitVec 12) (pa : BitVec 3) (sa : BitVec 1) (pb : BitVec 3) (sb : BitVec 1) (m : BitVec 11) (advc advb adva advd sat : BitVec 1) :
    fBits 19 1 (packT op var g d a b c pa sa pb sb m advc advb adva advd sat) = sb := by
  unfold fBits packT
  rw [BitVec.extractLsb'_append_eq_of_le (by omega), BitVec.extractLsb'_append_eq_of_le (by omega), BitVec.extractLsb'_append_eq_of_le (by omega), BitVec.extractLsb'_append_eq_of_le (by omega), BitVec.extractLsb'_append_eq_of_le (by omega), BitVec.extractLsb'_append_eq_of_le (by omega), BitVec.extractLsb'_append_eq_of_le (by omega), BitVec.extractLsb'_append_eq_of_le (by omega), BitVec.extractLsb'_append_eq_of_add_le (by omega)]
  simp
theorem fBits_packT_m (op : BitVec 8) (var : BitVec 4) (g : Guard) (d a b c : BitVec 12) (pa : BitVec 3) (sa : BitVec 1) (pb : BitVec 3) (sb : BitVec 1) (m : BitVec 11) (advc advb adva advd sat : BitVec 1) (l w : Nat)
    (h : 8 ≤ l) (h' : l + w ≤ 19) : fBits l w (packT op var g d a b c pa sa pb sb m advc advb adva advd sat) = m.extractLsb' (l - 8) w := by
  unfold fBits packT
  rw [BitVec.extractLsb'_append_eq_of_le (by omega), BitVec.extractLsb'_append_eq_of_le (by omega), BitVec.extractLsb'_append_eq_of_le (by omega), BitVec.extractLsb'_append_eq_of_le (by omega), BitVec.extractLsb'_append_eq_of_le (by omega), BitVec.extractLsb'_append_eq_of_le (by omega), BitVec.extractLsb'_append_eq_of_le (by omega), BitVec.extractLsb'_append_eq_of_add_le (by omega)]
  simp [Nat.sub_sub]
@[simp] theorem fBits_packT_7 (op : BitVec 8) (var : BitVec 4) (g : Guard) (d a b c : BitVec 12) (pa : BitVec 3) (sa : BitVec 1) (pb : BitVec 3) (sb : BitVec 1) (m : BitVec 11) (advc advb adva advd sat : BitVec 1) :
    fBits 7 1 (packT op var g d a b c pa sa pb sb m advc advb adva advd sat) = 0 := by
  unfold fBits packT
  rw [BitVec.extractLsb'_append_eq_of_le (by omega), BitVec.extractLsb'_append_eq_of_le (by omega), BitVec.extractLsb'_append_eq_of_le (by omega), BitVec.extractLsb'_append_eq_of_le (by omega), BitVec.extractLsb'_append_eq_of_le (by omega), BitVec.extractLsb'_append_eq_of_le (by omega), BitVec.extractLsb'_append_eq_of_add_le (by omega)]
  simp
@[simp] theorem fBits_packT_6 (op : BitVec 8) (var : BitVec 4) (g : Guard) (d a b c : BitVec 12) (pa : BitVec 3) (sa : BitVec 1) (pb : BitVec 3) (sb : BitVec 1) (m : BitVec 11) (advc advb adva advd sat : BitVec 1) :
    fBits 6 1 (packT op var g d a b c pa sa pb sb m advc advb adva advd sat) = advc := by
  unfold fBits packT
  rw [BitVec.extractLsb'_append_eq_of_le (by omega), BitVec.extractLsb'_append_eq_of_le (by omega), BitVec.extractLsb'_append_eq_of_le (by omega), BitVec.extractLsb'_append_eq_of_le (by omega), BitVec.extractLsb'_append_eq_of_le (by omega), BitVec.extractLsb'_append_eq_of_add_le (by omega)]
  simp
@[simp] theorem fBits_packT_5 (op : BitVec 8) (var : BitVec 4) (g : Guard) (d a b c : BitVec 12) (pa : BitVec 3) (sa : BitVec 1) (pb : BitVec 3) (sb : BitVec 1) (m : BitVec 11) (advc advb adva advd sat : BitVec 1) :
    fBits 5 1 (packT op var g d a b c pa sa pb sb m advc advb adva advd sat) = advb := by
  unfold fBits packT
  rw [BitVec.extractLsb'_append_eq_of_le (by omega), BitVec.extractLsb'_append_eq_of_le (by omega), BitVec.extractLsb'_append_eq_of_le (by omega), BitVec.extractLsb'_append_eq_of_le (by omega), BitVec.extractLsb'_append_eq_of_add_le (by omega)]
  simp
@[simp] theorem fBits_packT_4 (op : BitVec 8) (var : BitVec 4) (g : Guard) (d a b c : BitVec 12) (pa : BitVec 3) (sa : BitVec 1) (pb : BitVec 3) (sb : BitVec 1) (m : BitVec 11) (advc advb adva advd sat : BitVec 1) :
    fBits 4 1 (packT op var g d a b c pa sa pb sb m advc advb adva advd sat) = adva := by
  unfold fBits packT
  rw [BitVec.extractLsb'_append_eq_of_le (by omega), BitVec.extractLsb'_append_eq_of_le (by omega), BitVec.extractLsb'_append_eq_of_le (by omega), BitVec.extractLsb'_append_eq_of_add_le (by omega)]
  simp
@[simp] theorem fBits_packT_3 (op : BitVec 8) (var : BitVec 4) (g : Guard) (d a b c : BitVec 12) (pa : BitVec 3) (sa : BitVec 1) (pb : BitVec 3) (sb : BitVec 1) (m : BitVec 11) (advc advb adva advd sat : BitVec 1) :
    fBits 3 1 (packT op var g d a b c pa sa pb sb m advc advb adva advd sat) = advd := by
  unfold fBits packT
  rw [BitVec.extractLsb'_append_eq_of_le (by omega), BitVec.extractLsb'_append_eq_of_le (by omega), BitVec.extractLsb'_append_eq_of_add_le (by omega)]
  simp
@[simp] theorem fBits_packT_2 (op : BitVec 8) (var : BitVec 4) (g : Guard) (d a b c : BitVec 12) (pa : BitVec 3) (sa : BitVec 1) (pb : BitVec 3) (sb : BitVec 1) (m : BitVec 11) (advc advb adva advd sat : BitVec 1) :
    fBits 2 1 (packT op var g d a b c pa sa pb sb m advc advb adva advd sat) = sat := by
  unfold fBits packT
  rw [BitVec.extractLsb'_append_eq_of_le (by omega), BitVec.extractLsb'_append_eq_of_add_le (by omega)]
  simp
@[simp] theorem fBits_packT_0 (op : BitVec 8) (var : BitVec 4) (g : Guard) (d a b c : BitVec 12) (pa : BitVec 3) (sa : BitVec 1) (pb : BitVec 3) (sb : BitVec 1) (m : BitVec 11) (advc advb adva advd sat : BitVec 1) :
    fBits 0 2 (packT op var g d a b c pa sa pb sb m advc advb adva advd sat) = 0 := by
  unfold fBits packT
  rw [BitVec.extractLsb'_append_eq_of_add_le (by omega)]
  simp
@[simp] theorem fSpec_packT_68 (op : BitVec 8) (var : BitVec 4) (g : Guard) (d a b c : BitVec 12) (pa : BitVec 3) (sa : BitVec 1) (pb : BitVec 3) (sb : BitVec 1) (m : BitVec 11) (advc advb adva advd sat : BitVec 1) :
    fSpec 68 (packT op var g d a b c pa sa pb sb m advc advb adva advd sat) = d := by
  unfold fSpec packT
  rw [BitVec.extractLsb'_append_eq_of_le (by omega), BitVec.extractLsb'_append_eq_of_le (by omega), BitVec.extractLsb'_append_eq_of_le (by omega), BitVec.extractLsb'_append_eq_of_le (by omega), BitVec.extractLsb'_append_eq_of_le (by omega), BitVec.extractLsb'_append_eq_of_le (by omega), BitVec.extractLsb'_append_eq_of_le (by omega), BitVec.extractLsb'_append_eq_of_le (by omega), BitVec.extractLsb'_append_eq_of_le (by omega), BitVec.extractLsb'_append_eq_of_le (by omega), BitVec.extractLsb'_append_eq_of_le (by omega), BitVec.extractLsb'_append_eq_of_le (by omega), BitVec.extractLsb'_append_eq_of_le (by omega), BitVec.extractLsb'_append_eq_of_le (by omega), BitVec.extractLsb'_append_eq_of_le (by omega), BitVec.extractLsb'_append_eq_of_le (by omega), BitVec.extractLsb'_append_eq_of_add_le (by omega)]
  simp
@[simp] theorem fSpec_packT_56 (op : BitVec 8) (var : BitVec 4) (g : Guard) (d a b c : BitVec 12) (pa : BitVec 3) (sa : BitVec 1) (pb : BitVec 3) (sb : BitVec 1) (m : BitVec 11) (advc advb adva advd sat : BitVec 1) :
    fSpec 56 (packT op var g d a b c pa sa pb sb m advc advb adva advd sat) = a := by
  unfold fSpec packT
  rw [BitVec.extractLsb'_append_eq_of_le (by omega), BitVec.extractLsb'_append_eq_of_le (by omega), BitVec.extractLsb'_append_eq_of_le (by omega), BitVec.extractLsb'_append_eq_of_le (by omega), BitVec.extractLsb'_append_eq_of_le (by omega), BitVec.extractLsb'_append_eq_of_le (by omega), BitVec.extractLsb'_append_eq_of_le (by omega), BitVec.extractLsb'_append_eq_of_le (by omega), BitVec.extractLsb'_append_eq_of_le (by omega), BitVec.extractLsb'_append_eq_of_le (by omega), BitVec.extractLsb'_append_eq_of_le (by omega), BitVec.extractLsb'_append_eq_of_le (by omega), BitVec.extractLsb'_append_eq_of_le (by omega), BitVec.extractLsb'_append_eq_of_le (by omega), BitVec.extractLsb'_append_eq_of_le (by omega), BitVec.extractLsb'_append_eq_of_add_le (by omega)]
  simp
@[simp] theorem fSpec_packT_44 (op : BitVec 8) (var : BitVec 4) (g : Guard) (d a b c : BitVec 12) (pa : BitVec 3) (sa : BitVec 1) (pb : BitVec 3) (sb : BitVec 1) (m : BitVec 11) (advc advb adva advd sat : BitVec 1) :
    fSpec 44 (packT op var g d a b c pa sa pb sb m advc advb adva advd sat) = b := by
  unfold fSpec packT
  rw [BitVec.extractLsb'_append_eq_of_le (by omega), BitVec.extractLsb'_append_eq_of_le (by omega), BitVec.extractLsb'_append_eq_of_le (by omega), BitVec.extractLsb'_append_eq_of_le (by omega), BitVec.extractLsb'_append_eq_of_le (by omega), BitVec.extractLsb'_append_eq_of_le (by omega), BitVec.extractLsb'_append_eq_of_le (by omega), BitVec.extractLsb'_append_eq_of_le (by omega), BitVec.extractLsb'_append_eq_of_le (by omega), BitVec.extractLsb'_append_eq_of_le (by omega), BitVec.extractLsb'_append_eq_of_le (by omega), BitVec.extractLsb'_append_eq_of_le (by omega), BitVec.extractLsb'_append_eq_of_le (by omega), BitVec.extractLsb'_append_eq_of_le (by omega), BitVec.extractLsb'_append_eq_of_add_le (by omega)]
  simp
@[simp] theorem fSpec_packT_32 (op : BitVec 8) (var : BitVec 4) (g : Guard) (d a b c : BitVec 12) (pa : BitVec 3) (sa : BitVec 1) (pb : BitVec 3) (sb : BitVec 1) (m : BitVec 11) (advc advb adva advd sat : BitVec 1) :
    fSpec 32 (packT op var g d a b c pa sa pb sb m advc advb adva advd sat) = c := by
  unfold fSpec packT
  rw [BitVec.extractLsb'_append_eq_of_le (by omega), BitVec.extractLsb'_append_eq_of_le (by omega), BitVec.extractLsb'_append_eq_of_le (by omega), BitVec.extractLsb'_append_eq_of_le (by omega), BitVec.extractLsb'_append_eq_of_le (by omega), BitVec.extractLsb'_append_eq_of_le (by omega), BitVec.extractLsb'_append_eq_of_le (by omega), BitVec.extractLsb'_append_eq_of_le (by omega), BitVec.extractLsb'_append_eq_of_le (by omega), BitVec.extractLsb'_append_eq_of_le (by omega), BitVec.extractLsb'_append_eq_of_le (by omega), BitVec.extractLsb'_append_eq_of_le (by omega), BitVec.extractLsb'_append_eq_of_le (by omega), BitVec.extractLsb'_append_eq_of_add_le (by omega)]
  simp
@[simp] theorem fOp_packE (op : BitVec 8) (var : BitVec 4) (g : Guard) (s0 s1 s2 s3 : BitVec 5) (t d : BitVec 6) :
    fOp (packE op var g s0 s1 s2 s3 t d) = op := by
  unfold fOp packE
  rw [BitVec.extractLsb'_append_eq_of_le (by omega), BitVec.extractLsb'_append_eq_of_le (by omega), BitVec.extractLsb'_append_eq_of_le (by omega), BitVec.extractLsb'_append_eq_of_le (by omega), BitVec.extractLsb'_append_eq_of_le (by omega), BitVec.extractLsb'_append_eq_of_le (by omega), BitVec.extractLsb'_append_eq_of_le (by omega), BitVec.extractLsb'_append_eq_of_le (by omega), packHead, BitVec.extractLsb'_append_eq_of_le (by omega), BitVec.extractLsb'_append_eq_of_le (by omega), BitVec.extractLsb'_append_eq_of_le (by omega)]
  simp
@[simp] theorem fVar_packE (op : BitVec 8) (var : BitVec 4) (g : Guard) (s0 s1 s2 s3 : BitVec 5) (t d : BitVec 6) :
    fVar (packE op var g s0 s1 s2 s3 t d) = var := by
  unfold fVar packE
  rw [BitVec.extractLsb'_append_eq_of_le (by omega), BitVec.extractLsb'_append_eq_of_le (by omega), BitVec.extractLsb'_append_eq_of_le (by omega), BitVec.extractLsb'_append_eq_of_le (by omega), BitVec.extractLsb'_append_eq_of_le (by omega), BitVec.extractLsb'_append_eq_of_le (by omega), BitVec.extractLsb'_append_eq_of_le (by omega), BitVec.extractLsb'_append_eq_of_le (by omega), packHead, BitVec.extractLsb'_append_eq_of_le (by omega), BitVec.extractLsb'_append_eq_of_le (by omega), BitVec.extractLsb'_append_eq_of_add_le (by omega)]
  simp
@[simp] theorem fPn_packE (op : BitVec 8) (var : BitVec 4) (g : Guard) (s0 s1 s2 s3 : BitVec 5) (t d : BitVec 6) :
    fPn (packE op var g s0 s1 s2 s3 t d) = bit1 g.neg := by
  unfold fPn packE
  rw [BitVec.extractLsb'_append_eq_of_le (by omega), BitVec.extractLsb'_append_eq_of_le (by omega), BitVec.extractLsb'_append_eq_of_le (by omega), BitVec.extractLsb'_append_eq_of_le (by omega), BitVec.extractLsb'_append_eq_of_le (by omega), BitVec.extractLsb'_append_eq_of_le (by omega), BitVec.extractLsb'_append_eq_of_le (by omega), BitVec.extractLsb'_append_eq_of_le (by omega), packHead, BitVec.extractLsb'_append_eq_of_le (by omega), BitVec.extractLsb'_append_eq_of_add_le (by omega)]
  simp
@[simp] theorem fPg_packE (op : BitVec 8) (var : BitVec 4) (g : Guard) (s0 s1 s2 s3 : BitVec 5) (t d : BitVec 6) :
    fPg (packE op var g s0 s1 s2 s3 t d) = g.p := by
  unfold fPg packE
  rw [BitVec.extractLsb'_append_eq_of_le (by omega), BitVec.extractLsb'_append_eq_of_le (by omega), BitVec.extractLsb'_append_eq_of_le (by omega), BitVec.extractLsb'_append_eq_of_le (by omega), BitVec.extractLsb'_append_eq_of_le (by omega), BitVec.extractLsb'_append_eq_of_le (by omega), BitVec.extractLsb'_append_eq_of_le (by omega), BitVec.extractLsb'_append_eq_of_le (by omega), packHead, BitVec.extractLsb'_append_eq_of_add_le (by omega)]
  simp
@[simp] theorem fGuard_packE (op : BitVec 8) (var : BitVec 4) (g : Guard) (s0 s1 s2 s3 : BitVec 5) (t d : BitVec 6) :
    fGuard (packE op var g s0 s1 s2 s3 t d) = g := by
  unfold fGuard; rw [fPn_packE, fPg_packE]; rcases g with ⟨n, p⟩; cases n <;> rfl
@[simp] theorem fBits_packE_75 (op : BitVec 8) (var : BitVec 4) (g : Guard) (s0 s1 s2 s3 : BitVec 5) (t d : BitVec 6) :
    fBits 75 5 (packE op var g s0 s1 s2 s3 t d) = s0 := by
  unfold fBits packE
  rw [BitVec.extractLsb'_append_eq_of_le (by omega), BitVec.extractLsb'_append_eq_of_le (by omega), BitVec.extractLsb'_append_eq_of_le (by omega), BitVec.extractLsb'_append_eq_of_le (by omega), BitVec.extractLsb'_append_eq_of_le (by omega), BitVec.extractLsb'_append_eq_of_le (by omega), BitVec.extractLsb'_append_eq_of_le (by omega), BitVec.extractLsb'_append_eq_of_add_le (by omega)]
  simp
@[simp] theorem fBits_packE_70 (op : BitVec 8) (var : BitVec 4) (g : Guard) (s0 s1 s2 s3 : BitVec 5) (t d : BitVec 6) :
    fBits 70 5 (packE op var g s0 s1 s2 s3 t d) = s1 := by
  unfold fBits packE
  rw [BitVec.extractLsb'_append_eq_of_le (by omega), BitVec.extractLsb'_append_eq_of_le (by omega), BitVec.extractLsb'_append_eq_of_le (by omega), BitVec.extractLsb'_append_eq_of_le (by omega), BitVec.extractLsb'_append_eq_of_le (by omega), BitVec.extractLsb'_append_eq_of_le (by omega), BitVec.extractLsb'_append_eq_of_add_le (by omega)]
  simp
@[simp] theorem fBits_packE_65 (op : BitVec 8) (var : BitVec 4) (g : Guard) (s0 s1 s2 s3 : BitVec 5) (t d : BitVec 6) :
    fBits 65 5 (packE op var g s0 s1 s2 s3 t d) = s2 := by
  unfold fBits packE
  rw [BitVec.extractLsb'_append_eq_of_le (by omega), BitVec.extractLsb'_append_eq_of_le (by omega), BitVec.extractLsb'_append_eq_of_le (by omega), BitVec.extractLsb'_append_eq_of_le (by omega), BitVec.extractLsb'_append_eq_of_le (by omega), BitVec.extractLsb'_append_eq_of_add_le (by omega)]
  simp
@[simp] theorem fBits_packE_60 (op : BitVec 8) (var : BitVec 4) (g : Guard) (s0 s1 s2 s3 : BitVec 5) (t d : BitVec 6) :
    fBits 60 5 (packE op var g s0 s1 s2 s3 t d) = s3 := by
  unfold fBits packE
  rw [BitVec.extractLsb'_append_eq_of_le (by omega), BitVec.extractLsb'_append_eq_of_le (by omega), BitVec.extractLsb'_append_eq_of_le (by omega), BitVec.extractLsb'_append_eq_of_le (by omega), BitVec.extractLsb'_append_eq_of_add_le (by omega)]
  simp
@[simp] theorem fBits_packE_56 (op : BitVec 8) (var : BitVec 4) (g : Guard) (s0 s1 s2 s3 : BitVec 5) (t d : BitVec 6) :
    fBits 56 4 (packE op var g s0 s1 s2 s3 t d) = 0 := by
  unfold fBits packE
  rw [BitVec.extractLsb'_append_eq_of_le (by omega), BitVec.extractLsb'_append_eq_of_le (by omega), BitVec.extractLsb'_append_eq_of_le (by omega), BitVec.extractLsb'_append_eq_of_add_le (by omega)]
  simp
@[simp] theorem fBits_packE_50 (op : BitVec 8) (var : BitVec 4) (g : Guard) (s0 s1 s2 s3 : BitVec 5) (t d : BitVec 6) :
    fBits 50 6 (packE op var g s0 s1 s2 s3 t d) = t := by
  unfold fBits packE
  rw [BitVec.extractLsb'_append_eq_of_le (by omega), BitVec.extractLsb'_append_eq_of_le (by omega), BitVec.extractLsb'_append_eq_of_add_le (by omega)]
  simp
@[simp] theorem fBits_packE_44 (op : BitVec 8) (var : BitVec 4) (g : Guard) (s0 s1 s2 s3 : BitVec 5) (t d : BitVec 6) :
    fBits 44 6 (packE op var g s0 s1 s2 s3 t d) = d := by
  unfold fBits packE
  rw [BitVec.extractLsb'_append_eq_of_le (by omega), BitVec.extractLsb'_append_eq_of_add_le (by omega)]
  simp
@[simp] theorem fESlot_packE_75 (op : BitVec 8) (var : BitVec 4) (g : Guard) (s0 s1 s2 s3 : BitVec 5) (t d : BitVec 6) :
    fESlot 75 (packE op var g s0 s1 s2 s3 t d) = s0 := by
  unfold fESlot packE
  rw [BitVec.extractLsb'_append_eq_of_le (by omega), BitVec.extractLsb'_append_eq_of_le (by omega), BitVec.extractLsb'_append_eq_of_le (by omega), BitVec.extractLsb'_append_eq_of_le (by omega), BitVec.extractLsb'_append_eq_of_le (by omega), BitVec.extractLsb'_append_eq_of_le (by omega), BitVec.extractLsb'_append_eq_of_le (by omega), BitVec.extractLsb'_append_eq_of_add_le (by omega)]
  simp
@[simp] theorem fESlot_packE_70 (op : BitVec 8) (var : BitVec 4) (g : Guard) (s0 s1 s2 s3 : BitVec 5) (t d : BitVec 6) :
    fESlot 70 (packE op var g s0 s1 s2 s3 t d) = s1 := by
  unfold fESlot packE
  rw [BitVec.extractLsb'_append_eq_of_le (by omega), BitVec.extractLsb'_append_eq_of_le (by omega), BitVec.extractLsb'_append_eq_of_le (by omega), BitVec.extractLsb'_append_eq_of_le (by omega), BitVec.extractLsb'_append_eq_of_le (by omega), BitVec.extractLsb'_append_eq_of_le (by omega), BitVec.extractLsb'_append_eq_of_add_le (by omega)]
  simp
@[simp] theorem fESlot_packE_65 (op : BitVec 8) (var : BitVec 4) (g : Guard) (s0 s1 s2 s3 : BitVec 5) (t d : BitVec 6) :
    fESlot 65 (packE op var g s0 s1 s2 s3 t d) = s2 := by
  unfold fESlot packE
  rw [BitVec.extractLsb'_append_eq_of_le (by omega), BitVec.extractLsb'_append_eq_of_le (by omega), BitVec.extractLsb'_append_eq_of_le (by omega), BitVec.extractLsb'_append_eq_of_le (by omega), BitVec.extractLsb'_append_eq_of_le (by omega), BitVec.extractLsb'_append_eq_of_add_le (by omega)]
  simp
@[simp] theorem fESlot_packE_60 (op : BitVec 8) (var : BitVec 4) (g : Guard) (s0 s1 s2 s3 : BitVec 5) (t d : BitVec 6) :
    fESlot 60 (packE op var g s0 s1 s2 s3 t d) = s3 := by
  unfold fESlot packE
  rw [BitVec.extractLsb'_append_eq_of_le (by omega), BitVec.extractLsb'_append_eq_of_le (by omega), BitVec.extractLsb'_append_eq_of_le (by omega), BitVec.extractLsb'_append_eq_of_le (by omega), BitVec.extractLsb'_append_eq_of_add_le (by omega)]
  simp
@[simp] theorem fBits_packE_32 (op : BitVec 8) (var : BitVec 4) (g : Guard) (s0 s1 s2 s3 : BitVec 5) (t d : BitVec 6) :
    fBits 32 12 (packE op var g s0 s1 s2 s3 t d) = 0 := by
  unfold fBits packE
  rw [BitVec.extractLsb'_append_eq_of_add_le (by omega)]
  simp
@[simp] theorem fBits_packE_0 (op : BitVec 8) (var : BitVec 4) (g : Guard) (s0 s1 s2 s3 : BitVec 5) (t d : BitVec 6) :
    fBits 0 32 (packE op var g s0 s1 s2 s3 t d) = 0 := by
  unfold fBits packE
  rw [BitVec.extractLsb'_append_eq_of_add_le (by omega)]
  simp

/-! ## Codes -/

@[simp] theorem bit1_eq_one (b : Bool) : (bit1 b == 1) = b := by cases b <;> rfl
@[simp] theorem bit1_eq_one_prop (b : Bool) : (bit1 b = 1) = (b = true) := by cases b <;> simp [bit1]
@[simp] theorem bit1_ne_zero (b : Bool) : (bit1 b != 0) = b := by cases b <;> rfl
@[simp] theorem Sz.of_code (x : Sz) : Sz.of x.code = x := by cases x <;> rfl
@[simp] theorem Sz.code_lt (x : Sz) : ¬ 4 ≤ x.code.toNat := by cases x <;> decide
@[simp] theorem Scope.of_code (x : Scope) : Scope.of x.code = x := by cases x <;> rfl
@[simp] theorem scopeBad_code (x : Scope) : scopeBad x.code = false := by cases x <;> rfl
@[simp] theorem Cond.of_code (x : Cond) : Cond.of x.code = some x := by cases x <;> rfl
@[simp] theorem VTy.of_code (x : VTy) : VTy.of x.code = some x := by cases x <;> rfl
@[simp] theorem FFmt.of_code (x : FFmt) : FFmt.of x.code = some x := by cases x <;> rfl
theorem FFmt.scalarOf_code (x : FFmt) (h : x.scalarOk = true) : FFmt.scalarOf x.code = some x := by cases x <;> first | rfl | cases h
@[simp] theorem FCond.of_code (x : FCond) : FCond.of x.code = some x := by cases x <;> rfl
@[simp] theorem FConv.of_code (x : FConv) : FConv.of x.code = some x := by cases x <;> rfl
@[simp] theorem VRedOp.of_code (x : VRedOp) : VRedOp.of x.code = some x := by cases x <;> rfl
@[simp] theorem VCond.of_code (x : VCond) : VCond.of x.code = some x := by cases x <;> rfl
@[simp] theorem SFn.of_code (x : SFn) : SFn.of x.code = some x := by cases x <;> rfl
@[simp] theorem AtomOp.of_code (x : AtomOp) : AtomOp.of x.code = some x := by cases x <;> rfl
@[simp] theorem EvKind.of_code (x : EvKind) : EvKind.of x.code = some x := by cases x <;> rfl
@[simp] theorem CoordField.of_code (x : CoordField) : CoordField.of x.code = some x := by cases x <;> rfl
@[simp] theorem MulhKind.of_code (x : MulhKind) : MulhKind.of x.code = some x := by cases x <;> rfl
@[simp] theorem CpDir.of_code (x : CpDir) : CpDir.of x.code = x := by cases x <;> rfl
@[simp] theorem CpDir.code_lt (x : CpDir) : ¬ 3 ≤ x.code.toNat := by cases x <;> decide
@[simp] theorem ShedDir.of_code (x : ShedDir) : ShedDir.of x.code = x := by cases x <;> rfl
@[simp] theorem toP_ofP (p : PReg) : toP (ofP p) = p := by
  unfold toP ofP; rw [BitVec.extractLsb'_append_eq_of_add_le (by omega)]; simp
@[simp] theorem overP_ofP (p : PReg) : overP (ofP p) = false := by
  unfold overP ofP; rw [BitVec.extractLsb'_append_eq_of_le (by omega)]; simp
@[simp] theorem toE_ofE (e : EReg) : toE (ofE e) = e := by
  unfold toE ofE; rw [BitVec.extractLsb'_append_eq_of_add_le (by omega)]; simp
@[simp] theorem overE_ofE (e : EReg) : overE (ofE e) = false := by
  unfold overE ofE; rw [BitVec.extractLsb'_append_eq_of_le (by omega)]; simp
@[simp] theorem eslotOf_enc (o : Option EReg) : eslotOf (eslotEnc o) = o := by
  cases o with
  | none => rfl
  | some e =>
    have : eslotEnc (some e) ≠ 31 := by
      intro h
      have := congrArg BitVec.toNat h
      simp only [eslotEnc, BitVec.toNat_append] at this
      have := e.isLt
      simp at *
      omega
    unfold eslotOf; rw [if_neg this]
    unfold eslotEnc; rw [BitVec.extractLsb'_append_eq_of_add_le (by omega)]; simp

/-! ## Operand specs -/

theorem specKind_enc (s : Spec) : specKind s.enc = (match s with | .tile _ => 0 | .ring _ _ => 1 | .scalar _ => 2 | .none => 3) := by
  cases s with
  | tile t => simp only [specKind, Spec.enc]; rw [BitVec.extractLsb'_append_eq_of_le (by omega)]; simp
  | ring n q =>
    simp only [specKind, Spec.enc]
    rw [BitVec.extractLsb'_append_eq_of_le (by omega), BitVec.extractLsb'_append_eq_of_le (by omega)]; simp
  | scalar g => simp only [specKind, Spec.enc]; rw [BitVec.extractLsb'_append_eq_of_le (by omega)]; decide
  | none => rfl
@[simp] theorem Spec.of_enc (s : Spec) : Spec.of s.enc = s := by
  unfold Spec.of
  rw [specKind_enc]
  cases s with
  | tile t =>
    show Spec.tile _ = _
    simp only [Spec.enc]; rw [BitVec.extractLsb'_append_eq_of_add_le (by omega)]; simp
  | ring n q =>
    show Spec.ring _ _ = _
    simp only [Spec.enc]
    rw [BitVec.extractLsb'_append_eq_of_add_le (start := 0) (by omega), BitVec.extractLsb'_append_eq_of_le (start := 3) (by omega),
      BitVec.extractLsb'_append_eq_of_add_le (by omega)]; simp
  | scalar g =>
    show Spec.scalar _ = _
    simp only [Spec.enc]; rw [BitVec.extractLsb'_append_eq_of_add_le (by omega)]; simp
  | none => rfl
@[simp] theorem specRsvd_enc (s : Spec) : specRsvd s.enc = false := by
  unfold specRsvd
  rw [specKind_enc]
  cases s with
  | tile t => simp only [Spec.enc]; rw [BitVec.extractLsb'_append_eq_of_le (by omega)]; simp
  | ring n q => rfl
  | scalar g =>
    show (BitVec.extractLsb' 6 4 (Spec.scalar g).enc != 0) = false
    simp only [Spec.enc]; rw [BitVec.extractLsb'_append_eq_of_le (by omega)]; rfl
  | none => decide

/-! ## Checks that pass -/

theorem adv_passes (adv : Bool) (s : Spec) (h : advOk adv s = true) : advRsvd adv s = false ∧ advOperand adv s = false := by
  cases adv <;> cases s <;> simp_all [advOk, advRsvd, advOperand, Spec.isRing, Spec.isNone]

@[simp] theorem fOp_encV (op : BitVec 8) (var sel : BitVec 4) (g : Guard) (o : VOps) : fOp (encV op var sel g o) = op := by simp [encV]
@[simp] theorem fVar_encV (op : BitVec 8) (var sel : BitVec 4) (g : Guard) (o : VOps) : fVar (encV op var sel g o) = var := by simp [encV]
@[simp] theorem fSel_encV (op : BitVec 8) (var sel : BitVec 4) (g : Guard) (o : VOps) : fSel (encV op var sel g o) = sel := by
  simp [encV, fSel]
@[simp] theorem fGuard_encV (op : BitVec 8) (var sel : BitVec 4) (g : Guard) (o : VOps) : fGuard (encV op var sel g o) = g := by simp [encV]
@[simp] theorem fOp_encT (op : BitVec 8) (var : BitVec 4) (g : Guard) (pa pb : Plane) (m : BitVec 11) (sat : Bool) (o : TOps) :
    fOp (encT op var g pa pb m sat o) = op := by simp [encT]
@[simp] theorem fVar_encT (op : BitVec 8) (var : BitVec 4) (g : Guard) (pa pb : Plane) (m : BitVec 11) (sat : Bool) (o : TOps) :
    fVar (encT op var g pa pb m sat o) = var := by simp [encT]
@[simp] theorem fGuard_encT (op : BitVec 8) (var : BitVec 4) (g : Guard) (pa pb : Plane) (m : BitVec 11) (sat : Bool) (o : TOps) :
    fGuard (encT op var g pa pb m sat o) = g := by simp [encT]
@[simp] theorem fPlaneA_encT (op : BitVec 8) (var : BitVec 4) (g : Guard) (pa pb : Plane) (m : BitVec 11) (sat : Bool) (o : TOps) :
    fPlaneA (encT op var g pa pb m sat o) = pa := by
  unfold fPlaneA encT; rw [fBits_packT_24, fBits_packT_23, bit1_eq_one]
@[simp] theorem fPlaneB_encT (op : BitVec 8) (var : BitVec 4) (g : Guard) (pa pb : Plane) (m : BitVec 11) (sat : Bool) (o : TOps) :
    fPlaneB (encT op var g pa pb m sat o) = pb := by
  unfold fPlaneB encT; rw [fBits_packT_20, fBits_packT_19, bit1_eq_one]
@[simp] theorem fSat_encT (op : BitVec 8) (var : BitVec 4) (g : Guard) (pa pb : Plane) (m : BitVec 11) (sat : Bool) (o : TOps) :
    fBits 2 1 (encT op var g pa pb m sat o) = bit1 sat := by simp [encT]
theorem fBits_encT_m (op : BitVec 8) (var : BitVec 4) (g : Guard) (pa pb : Plane) (m : BitVec 11) (sat : Bool) (o : TOps) (l w : Nat)
    (h : 8 ≤ l) (h' : l + w ≤ 19) : fBits l w (encT op var g pa pb m sat o) = m.extractLsb' (l - 8) w :=
  fBits_packT_m _ _ _ _ _ _ _ _ _ _ _ _ _ _ _ _ _ _ _ h h'
/-- A word without a plane operand has its plane fields at zero. -/
theorem planeChecks_no (op : BitVec 8) (var : BitVec 4) (g : Guard) (m : BitVec 11) (sat : Bool) (o : TOps) :
    firstBad (planeChecks .no (encT op var g noPlane noPlane m sat o)) = none := by
  have h : fBits 19 8 (encT op var g noPlane noPlane m sat o) = 0 := by
    unfold encT noPlane packT fBits bit1
    ext i hi
    simp only [BitVec.getElem_extractLsb', BitVec.getLsbD_append]
    rcases (by omega : i = 0 ∨ i = 1 ∨ i = 2 ∨ i = 3 ∨ i = 4 ∨ i = 5 ∨ i = 6 ∨ i = 7) with
      rfl | rfl | rfl | rfl | rfl | rfl | rfl | rfl <;> simp
  simp [planeChecks, firstBad, zf, h]
/-- A word with one plane operand has the other's fields at zero. -/
theorem planeChecks_one (op : BitVec 8) (var : BitVec 4) (g : Guard) (pa : Plane) (m : BitVec 11) (sat : Bool) (o : TOps) :
    firstBad (planeChecks .one (encT op var g pa noPlane m sat o)) = none := by
  simp [planeChecks, encT, noPlane, firstBad, zf, bit1]

/-- A word that encV packs gives its operands back. -/
@[simp] theorem fVOps_encV (op : BitVec 8) (var sel : BitVec 4) (g : Guard) (o : VOps) : fVOps (encV op var sel g o) = o := by
  simp only [fVOps, encV, fSpec_packV_68, fSpec_packV_56, fSpec_packV_44, fSpec_packV_32, fShape_packV, fBits_packV_0, fBits_packV_1,
    fBits_packV_2, fBits_packV_11, fBits_packV_3, fBits_packV_4, fBits_packV_5, fBits_packV_6, Spec.of_enc, bit1_eq_one]

/-- Checks 8 and 9 of a format V word pass on operands its row accepts. -/
theorem vChecked_encV (op : BitVec 8) (var sel : BitVec 4) (g : Guard) (r : VRow) (t src : VTy) (o : VOps) (i : Instr)
    (h : r.ok t src o = true) : vChecked (encV op var sel g o) r t src false false false false i = .ok i := by
  simp only [VRow.ok, VRow.modeOk, Bool.and_eq_true] at h
  obtain ⟨⟨⟨⟨⟨⟨⟨⟨⟨ht, ⟨⟨hrtz, hftz⟩, hsat⟩, hhi⟩, hd⟩, ha⟩, hb⟩, hc⟩, hvd⟩, hva⟩, hvb⟩, hvc⟩ := h
  have h1 := adv_passes _ _ hvd; have h2 := adv_passes _ _ hva; have h3 := adv_passes _ _ hvb; have h4 := adv_passes _ _ hvc
  unfold vChecked
  rw [fVOps_encV]
  simp only [encV, fSpec_packV_68, fSpec_packV_56, fSpec_packV_44, fSpec_packV_32, fBits_packV_12, specRsvd_enc, checked, firstBad, zf,
    h1.1, h1.2, h2.1, h2.2, h3.1, h3.2, h4.1, h4.2, hd, ha, hb, hc, Bool.not_true, Bool.or_false, bne_self_eq_false]
  have e1 : (o.hi && !r.hi) = false := by revert hhi; cases o.hi <;> cases r.hi <;> simp
  have e2 : (o.sat && !(r.sat && t.isI)) = false := by revert hsat; cases o.sat <;> cases r.sat <;> cases t.isI <;> simp
  have e3 : (o.ftz && !(r.ftz && (t.isFloat || src.isFloat))) = false := by
    revert hftz; cases o.ftz <;> cases r.ftz <;> cases t.isFloat <;> cases src.isFloat <;> simp
  have e4 : (o.rtz && !(r.rtz && (t.isFloat || src.isFloat))) = false := by
    revert hrtz; cases o.rtz <;> cases r.rtz <;> cases t.isFloat <;> cases src.isFloat <;> simp
  simp only [e1, e2, e3, e4]
  rfl

/-- A word that encT packs gives its operands back. -/
@[simp] theorem fTOps_encT (op : BitVec 8) (var : BitVec 4) (g : Guard) (pa pb : Plane) (m : BitVec 11) (sat : Bool) (o : TOps) :
    fTOps (encT op var g pa pb m sat o) = o := by
  simp only [fTOps, encT, fSpec_packT_68, fSpec_packT_56, fSpec_packT_44, fSpec_packT_32, fBits_packT_3, fBits_packT_4, fBits_packT_5,
    fBits_packT_6, Spec.of_enc, bit1_eq_one]

/-- Checks 8 and 9 of a format T word pass on operands its row accepts and fields its instruction takes. -/
theorem tChecked_encT (op : BitVec 8) (var : BitVec 4) (g : Guard) (pa pb : Plane) (m : BitVec 11) (sat : Bool) (r : TRow) (p : PlaneUse)
    (u : MUse) (o : TOps) (i : Instr) (h : r.ok o = true)
    (hp : firstBad (planeChecks p (encT op var g pa pb m sat o)) = none) (hm : firstBad (mChecks u (encT op var g pa pb m sat o)) = none)
    (hs : sat = true → u = .kdSat) : tChecked (encT op var g pa pb m sat o) r p u i = .ok i := by
  have app : ∀ l l', firstBad (l ++ l') = (match firstBad l with | some x => some x | none => firstBad l') := by
    intro l l'; induction l with
    | nil => rfl
    | cons x l ih => obtain ⟨k, b⟩ := x; cases b <;> simp [firstBad, ih]
  simp only [TRow.ok, Bool.and_eq_true] at h
  obtain ⟨⟨⟨⟨⟨⟨⟨hd, ha⟩, hb⟩, hc⟩, hvd⟩, hva⟩, hvb⟩, hvc⟩ := h
  have h1 := adv_passes _ _ hvd; have h2 := adv_passes _ _ hva; have h3 := adv_passes _ _ hvb; have h4 := adv_passes _ _ hvc
  have hsat : firstBad (satChecks u (encT op var g pa pb m sat o)) = none := by
    unfold satChecks
    split
    · rfl
    · cases sat with
      | true => exact absurd (hs rfl) ‹_›
      | false => simp only [encT, fBits_packT_2, firstBad, zf]; rfl
  unfold tChecked checked
  simp only [app, hp, hm, hsat, fTOps_encT]
  simp only [encT, fSpec_packT_68, fSpec_packT_56, fSpec_packT_44, fSpec_packT_32, fShape_packT, fBits_packT_7, fBits_packT_0,
    specRsvd_enc, firstBad, zf, h1.1, h1.2, h2.1, h2.2, h3.1, h3.2, h4.1, h4.2, hd, ha, hb, hc, Bool.not_true, bne_self_eq_false]
  rfl

end Sys2Proof
end

