-- ==== Sys2Proof/Laws/SMap.lean ====
section
/-! SUPPORT. Read-after-write laws of sparse maps and of byte memory, and that memory operations keep the canonical form. -/

namespace Sys2Proof.Machine

/-! ## Sparse maps -/

@[simp] theorem SMap.get_nil {α : Type} (d : α) (k : Nat) : SMap.get d [] k = d := rfl

@[simp] theorem SMap.get_set_same {α : Type} (d : α) (m : SMap α) (k : Nat) (v : α) : SMap.get d (SMap.set m k v) k = v := by
  induction m with
  | nil => simp [SMap.set, SMap.get]
  | cons p r ih =>
    unfold SMap.set
    split
    · simp [SMap.get]
    · split
      · simp [SMap.get]
      · simp [SMap.get, *]

theorem SMap.get_set_ne {α : Type} (d : α) (m : SMap α) {k j : Nat} (v : α) (h : j ≠ k) :
    SMap.get d (SMap.set m k v) j = SMap.get d m j := by
  induction m with
  | nil => simp [SMap.set, SMap.get, h]
  | cons p r ih =>
    unfold SMap.set
    split
    · simp [SMap.get, h]
    · split
      · subst_vars; simp [SMap.get, h]
      · simp [SMap.get, ih]

/-- Reading any key after a write. -/
theorem SMap.get_set {α : Type} (d : α) (m : SMap α) (k j : Nat) (v : α) :
    SMap.get d (SMap.set m k v) j = if j = k then v else SMap.get d m j := by
  split
  · subst_vars; exact SMap.get_set_same ..
  · exact SMap.get_set_ne _ _ _ ‹_›

/-- The later of two writes to a key stands. -/
@[simp] theorem SMap.set_set {α : Type} (m : SMap α) (k : Nat) (v w : α) : SMap.set (SMap.set m k v) k w = SMap.set m k w := by
  induction m with
  | nil => simp [SMap.set]
  | cons p r ih =>
    obtain ⟨k', v'⟩ := p
    by_cases h : k < k'
    · simp [SMap.set, h]
    · by_cases h' : k = k'
      · simp [SMap.set, h']
      · simp [SMap.set, h, h', ih]

/-! ## Byte memory -/

theorem Memory.read_write_ne (m : Memory) {a b : Nat} (v : Byte) (h : b ≠ a) : (Memory.write m a v).read b = m.read b := by
  induction m with
  | nil =>
    unfold Memory.write; split <;> simp [Memory.read, h]
  | cons p r ih =>
    unfold Memory.write
    split
    · split <;> simp [Memory.read, h]
    · split
      · subst_vars; split <;> simp [Memory.read, h]
      · simp [Memory.read, ih]

/-- No cell below a bound is listed. -/
theorem Memory.read_of_wfFrom (m : Memory) (lo a : Nat) (h : Memory.wfFrom (some lo) m = true) (ha : a ≤ lo) :
    Memory.read m a = Memory.absent := by
  induction m generalizing lo with
  | nil => rfl
  | cons p r ih =>
    simp only [Memory.wfFrom, Bool.and_eq_true, decide_eq_true_eq] at h
    have : a ≠ p.1 := by omega
    simp [Memory.read, this, ih p.1 h.2 (by omega)]

theorem Memory.wfFrom_weaken (m : Memory) (lo lo' : Nat) (h : Memory.wfFrom (some lo) m = true) (hl : lo' ≤ lo) :
    Memory.wfFrom (some lo') m = true := by
  cases m with
  | nil => rfl
  | cons p r =>
    simp only [Memory.wfFrom, Bool.and_eq_true, decide_eq_true_eq] at h ⊢
    exact ⟨⟨by omega, h.1.2⟩, h.2⟩

theorem Memory.wfFrom_none (m : Memory) (lo : Nat) (h : Memory.wfFrom (some lo) m = true) : Memory.wfFrom none m = true := by
  cases m with
  | nil => rfl
  | cons p r =>
    simp only [Memory.wfFrom, Bool.and_eq_true] at h ⊢
    exact ⟨⟨trivial, h.1.2⟩, h.2⟩

/-- A cell in front of a canonical list of higher cells. -/
theorem Memory.cons_wfFrom {r : Memory} {lo : Option Nat} {a : Nat} {v : Byte} (hl : ∀ l, lo = some l → l < a) (hv : v ≠ Memory.absent)
    (hr : Memory.wfFrom (some a) r = true) : Memory.wfFrom lo ((a, v) :: r) = true := by
  cases lo with
  | none => simp [Memory.wfFrom, hv, hr]
  | some l => simp [Memory.wfFrom, hv, hr, hl l rfl]

/-- The parts of a canonical list. -/
theorem Memory.wfFrom_cons {r : Memory} {lo : Option Nat} {a : Nat} {v : Byte} (h : Memory.wfFrom lo ((a, v) :: r) = true) :
    (∀ l, lo = some l → l < a) ∧ v ≠ Memory.absent ∧ Memory.wfFrom (some a) r = true := by
  cases lo with
  | none => simpa [Memory.wfFrom] using h
  | some l => simpa [Memory.wfFrom, and_assoc] using h

theorem Memory.write_wfFrom (m : Memory) (lo : Option Nat) (a : Nat) (v : Byte) (h : Memory.wfFrom lo m = true)
    (hl : ∀ l, lo = some l → l < a) : Memory.wfFrom lo (Memory.write m a v) = true := by
  induction m generalizing lo with
  | nil =>
    unfold Memory.write
    split
    · rfl
    · exact Memory.cons_wfFrom hl ‹_› rfl
  | cons p r ih =>
    obtain ⟨a', v'⟩ := p
    obtain ⟨hla, hv, hr⟩ := Memory.wfFrom_cons h
    unfold Memory.write
    split
    · split
      · exact h
      · exact Memory.cons_wfFrom hl ‹_› (Memory.cons_wfFrom (by intro l e; cases e; assumption) hv hr)
    · split
      · subst_vars
        split
        · cases lo with
          | none => exact Memory.wfFrom_none _ _ hr
          | some l => exact Memory.wfFrom_weaken _ _ _ hr (Nat.le_of_lt (hl l rfl))
        · exact Memory.cons_wfFrom hl ‹_› hr
      · exact Memory.cons_wfFrom hla hv (ih (some a') hr (by intro l e; cases e; omega))

/-- A write keeps the canonical form. -/
theorem Memory.write_wf {m : Memory} (a : Nat) (v : Byte) (h : m.wf = true) : (Memory.write m a v).wf = true :=
  Memory.write_wfFrom m none a v h (by simp)

/-- Writing a run of bytes keeps the canonical form. -/
theorem Memory.writeBytes_wf {m : Memory} (a : Nat) (bs : List Byte) (h : m.wf = true) : (Memory.writeBytes m a bs).wf = true := by
  induction bs generalizing m a with
  | nil => exact h
  | cons b bs ih => exact ih _ (Memory.write_wf _ _ h)

theorem Memory.filter_wfFrom (m : Memory) (lo : Option Nat) (f : Host.Cell → Bool) (h : Memory.wfFrom lo m = true) :
    Memory.wfFrom lo (m.filter f) = true := by
  induction m generalizing lo with
  | nil => exact h
  | cons p r ih =>
    have hr : Memory.wfFrom (some p.1) r = true := by simp only [Memory.wfFrom, Bool.and_eq_true] at h; exact h.2
    by_cases hf : f p = true
    · simp only [List.filter_cons, hf, if_true]
      simp only [Memory.wfFrom, Bool.and_eq_true] at h ⊢
      exact ⟨h.1, ih _ h.2⟩
    · simp only [List.filter_cons, hf]
      have h' := ih _ hr
      cases lo with
      | none => exact Memory.wfFrom_none _ _ h'
      | some l =>
        simp only [Memory.wfFrom, Bool.and_eq_true, decide_eq_true_eq] at h
        exact Memory.wfFrom_weaken _ _ _ h' (Nat.le_of_lt h.1.1)

/-- Removing cells keeps the canonical form. -/
theorem Memory.filter_wf {m : Memory} (f : Host.Cell → Bool) (h : m.wf = true) : Memory.wf (m.filter f) = true :=
  Memory.filter_wfFrom m none f h

/-- A byte written is read back. -/
theorem Memory.read_write_same {m : Memory} (a : Nat) (v : Byte) (h : m.wf = true) : (Memory.write m a v).read a = v := by
  suffices ∀ lo, Memory.wfFrom lo m = true → (Memory.write m a v).read a = v from this none h
  clear h
  induction m with
  | nil => intro _ _; unfold Memory.write; split <;> simp_all [Memory.read]
  | cons p r ih =>
    intro lo h
    have hr : Memory.wfFrom (some p.1) r = true := by simp only [Memory.wfFrom, Bool.and_eq_true] at h; exact h.2
    unfold Memory.write
    split
    · split
      · subst_vars
        have : a ≠ p.1 := by omega
        simp [Memory.read, this, Memory.read_of_wfFrom r p.1 a hr (by omega)]
      · simp [Memory.read]
    · split
      · subst_vars
        split
        · subst_vars; exact Memory.read_of_wfFrom r p.1 p.1 hr (by omega)
        · simp [Memory.read]
      · simp [Memory.read, *, ih _ hr]

/-- Bytes outside a written run are unchanged. -/
theorem Memory.read_writeBytes_of_outside (m : Memory) (a b : Nat) (bs : List Byte) (h : b < a ∨ a + bs.length ≤ b) :
    (Memory.writeBytes m a bs).read b = m.read b := by
  induction bs generalizing m a with
  | nil => rfl
  | cons x bs ih =>
    simp only [List.length_cons] at h
    unfold Memory.writeBytes
    rw [ih _ _ (by omega), Memory.read_write_ne _ _ (by omega)]

/-- The bytes of a written run are read back. -/
theorem Memory.read_writeBytes_inside {m : Memory} (a i : Nat) (bs : List Byte) (hm : m.wf = true) (h : i < bs.length) :
    (Memory.writeBytes m a bs).read (a + i) = bs[i] := by
  induction bs generalizing m a i with
  | nil => simp at h
  | cons x bs ih =>
    unfold Memory.writeBytes
    cases i with
    | zero =>
      rw [Memory.read_writeBytes_of_outside _ _ _ _ (by omega)]
      simpa using Memory.read_write_same a x hm
    | succ i =>
      have := ih (m := m.write a x) (a + 1) i (Memory.write_wf _ _ hm) (by simpa using h)
      simpa [Nat.add_assoc, Nat.add_comm 1 i] using this

theorem leBytes_length (n x : Nat) : (leBytes n x).length = n := by
  induction n generalizing x with
  | zero => rfl
  | succ n ih => simp [leBytes, ih]

/-- Little-endian bytes give their number back, modulo the width (R3). -/
theorem leNat_leBytes (n x : Nat) : leNat (leBytes n x) = x % 256 ^ n := by
  induction n generalizing x with
  | zero => simp [leBytes, leNat, Nat.mod_one]
  | succ n ih =>
    simp only [leBytes, leNat, ih, BitVec.toNat_ofNat, Nat.pow_succ]
    have h := Nat.mod_mul (x := x) (a := 256) (b := 256 ^ n)
    rw [Nat.mul_comm (256 ^ n) 256, h]

end Sys2Proof.Machine
end

