-- ==== Sys2Proof/Laws/State.lean ====
section
/-! SUPPORT. One lemma for each field of the state under each update, and what the accessors read after an update. -/

namespace Sys2Proof.Machine

/-! ## Fields of the state -/

@[simp] theorem State.setCore_mem (s : State) (c : CoreId) (x : Core) : (s.setCore c x).mem = s.mem := rfl
@[simp] theorem State.setCore_seals (s : State) (c : CoreId) (x : Core) : (s.setCore c x).seals = s.seals := rfl
@[simp] theorem State.setCore_crews (s : State) (c : CoreId) (x : Core) : (s.setCore c x).crews = s.crews := rfl
@[simp] theorem State.setCore_pkgs (s : State) (c : CoreId) (x : Core) : (s.setCore c x).pkgs = s.pkgs := rfl
@[simp] theorem State.setCore_agenda (s : State) (c : CoreId) (x : Core) : (s.setCore c x).agenda = s.agenda := rfl
@[simp] theorem State.setCore_turn (s : State) (c : CoreId) (x : Core) : (s.setCore c x).turn = s.turn := rfl
@[simp] theorem State.setCore_cur (s : State) (c : CoreId) (x : Core) : (s.setCore c x).cur = s.cur := rfl
@[simp] theorem State.setCore_freeN (s : State) (c : CoreId) (x : Core) : (s.setCore c x).freeN = s.freeN := rfl
@[simp] theorem State.modCore_mem (s : State) (c : CoreId) (f : Core → Core) : (s.modCore c f).mem = s.mem := rfl
@[simp] theorem State.modCore_seals (s : State) (c : CoreId) (f : Core → Core) : (s.modCore c f).seals = s.seals := rfl
@[simp] theorem State.modCore_crews (s : State) (c : CoreId) (f : Core → Core) : (s.modCore c f).crews = s.crews := rfl
@[simp] theorem State.modCore_pkgs (s : State) (c : CoreId) (f : Core → Core) : (s.modCore c f).pkgs = s.pkgs := rfl
@[simp] theorem State.modCore_agenda (s : State) (c : CoreId) (f : Core → Core) : (s.modCore c f).agenda = s.agenda := rfl
@[simp] theorem State.modCore_turn (s : State) (c : CoreId) (f : Core → Core) : (s.modCore c f).turn = s.turn := rfl
@[simp] theorem State.modCore_cur (s : State) (c : CoreId) (f : Core → Core) : (s.modCore c f).cur = s.cur := rfl
@[simp] theorem State.modCore_freeN (s : State) (c : CoreId) (f : Core → Core) : (s.modCore c f).freeN = s.freeN := rfl
@[simp] theorem State.setStrand_mem (s : State) (t : StrandId) (x : Strand) : (s.setStrand t x).mem = s.mem := rfl
@[simp] theorem State.setStrand_seals (s : State) (t : StrandId) (x : Strand) : (s.setStrand t x).seals = s.seals := rfl
@[simp] theorem State.setStrand_crews (s : State) (t : StrandId) (x : Strand) : (s.setStrand t x).crews = s.crews := rfl
@[simp] theorem State.setStrand_pkgs (s : State) (t : StrandId) (x : Strand) : (s.setStrand t x).pkgs = s.pkgs := rfl
@[simp] theorem State.setStrand_agenda (s : State) (t : StrandId) (x : Strand) : (s.setStrand t x).agenda = s.agenda := rfl
@[simp] theorem State.setStrand_turn (s : State) (t : StrandId) (x : Strand) : (s.setStrand t x).turn = s.turn := rfl
@[simp] theorem State.setStrand_cur (s : State) (t : StrandId) (x : Strand) : (s.setStrand t x).cur = s.cur := rfl
@[simp] theorem State.setStrand_freeN (s : State) (t : StrandId) (x : Strand) : (s.setStrand t x).freeN = s.freeN := rfl
@[simp] theorem State.modStrand_mem (s : State) (t : StrandId) (f : Strand → Strand) : (s.modStrand t f).mem = s.mem := rfl
@[simp] theorem State.modStrand_seals (s : State) (t : StrandId) (f : Strand → Strand) : (s.modStrand t f).seals = s.seals := rfl
@[simp] theorem State.modStrand_crews (s : State) (t : StrandId) (f : Strand → Strand) : (s.modStrand t f).crews = s.crews := rfl
@[simp] theorem State.modStrand_pkgs (s : State) (t : StrandId) (f : Strand → Strand) : (s.modStrand t f).pkgs = s.pkgs := rfl
@[simp] theorem State.modStrand_agenda (s : State) (t : StrandId) (f : Strand → Strand) : (s.modStrand t f).agenda = s.agenda := rfl
@[simp] theorem State.modStrand_turn (s : State) (t : StrandId) (f : Strand → Strand) : (s.modStrand t f).turn = s.turn := rfl
@[simp] theorem State.modStrand_cur (s : State) (t : StrandId) (f : Strand → Strand) : (s.modStrand t f).cur = s.cur := rfl
@[simp] theorem State.modStrand_freeN (s : State) (t : StrandId) (f : Strand → Strand) : (s.modStrand t f).freeN = s.freeN := rfl
@[simp] theorem State.modMe_mem (s : State) (f : Strand → Strand) : (s.modMe f).mem = s.mem := rfl
@[simp] theorem State.modMe_seals (s : State) (f : Strand → Strand) : (s.modMe f).seals = s.seals := rfl
@[simp] theorem State.modMe_crews (s : State) (f : Strand → Strand) : (s.modMe f).crews = s.crews := rfl
@[simp] theorem State.modMe_pkgs (s : State) (f : Strand → Strand) : (s.modMe f).pkgs = s.pkgs := rfl
@[simp] theorem State.modMe_agenda (s : State) (f : Strand → Strand) : (s.modMe f).agenda = s.agenda := rfl
@[simp] theorem State.modMe_turn (s : State) (f : Strand → Strand) : (s.modMe f).turn = s.turn := rfl
@[simp] theorem State.modMe_cur (s : State) (f : Strand → Strand) : (s.modMe f).cur = s.cur := rfl
@[simp] theorem State.modMe_freeN (s : State) (f : Strand → Strand) : (s.modMe f).freeN = s.freeN := rfl
@[simp] theorem State.modMyCore_mem (s : State) (f : Core → Core) : (s.modMyCore f).mem = s.mem := rfl
@[simp] theorem State.modMyCore_seals (s : State) (f : Core → Core) : (s.modMyCore f).seals = s.seals := rfl
@[simp] theorem State.modMyCore_crews (s : State) (f : Core → Core) : (s.modMyCore f).crews = s.crews := rfl
@[simp] theorem State.modMyCore_pkgs (s : State) (f : Core → Core) : (s.modMyCore f).pkgs = s.pkgs := rfl
@[simp] theorem State.modMyCore_agenda (s : State) (f : Core → Core) : (s.modMyCore f).agenda = s.agenda := rfl
@[simp] theorem State.modMyCore_turn (s : State) (f : Core → Core) : (s.modMyCore f).turn = s.turn := rfl
@[simp] theorem State.modMyCore_cur (s : State) (f : Core → Core) : (s.modMyCore f).cur = s.cur := rfl
@[simp] theorem State.modMyCore_freeN (s : State) (f : Core → Core) : (s.modMyCore f).freeN = s.freeN := rfl
@[simp] theorem State.wg_mem (s : State) (r : Reg) (v : Word) : (s.wg r v).mem = s.mem := rfl
@[simp] theorem State.wg_seals (s : State) (r : Reg) (v : Word) : (s.wg r v).seals = s.seals := rfl
@[simp] theorem State.wg_crews (s : State) (r : Reg) (v : Word) : (s.wg r v).crews = s.crews := rfl
@[simp] theorem State.wg_pkgs (s : State) (r : Reg) (v : Word) : (s.wg r v).pkgs = s.pkgs := rfl
@[simp] theorem State.wg_agenda (s : State) (r : Reg) (v : Word) : (s.wg r v).agenda = s.agenda := rfl
@[simp] theorem State.wg_turn (s : State) (r : Reg) (v : Word) : (s.wg r v).turn = s.turn := rfl
@[simp] theorem State.wg_cur (s : State) (r : Reg) (v : Word) : (s.wg r v).cur = s.cur := rfl
@[simp] theorem State.wg_freeN (s : State) (r : Reg) (v : Word) : (s.wg r v).freeN = s.freeN := rfl
@[simp] theorem State.wp_mem (s : State) (r : PReg) (v : Bool) : (s.wp r v).mem = s.mem := rfl
@[simp] theorem State.wp_seals (s : State) (r : PReg) (v : Bool) : (s.wp r v).seals = s.seals := rfl
@[simp] theorem State.wp_crews (s : State) (r : PReg) (v : Bool) : (s.wp r v).crews = s.crews := rfl
@[simp] theorem State.wp_pkgs (s : State) (r : PReg) (v : Bool) : (s.wp r v).pkgs = s.pkgs := rfl
@[simp] theorem State.wp_agenda (s : State) (r : PReg) (v : Bool) : (s.wp r v).agenda = s.agenda := rfl
@[simp] theorem State.wp_turn (s : State) (r : PReg) (v : Bool) : (s.wp r v).turn = s.turn := rfl
@[simp] theorem State.wp_cur (s : State) (r : PReg) (v : Bool) : (s.wp r v).cur = s.cur := rfl
@[simp] theorem State.wp_freeN (s : State) (r : PReg) (v : Bool) : (s.wp r v).freeN = s.freeN := rfl
@[simp] theorem State.flag_mem (s : State) (n : Nat) : (s.flag n).mem = s.mem := rfl
@[simp] theorem State.flag_seals (s : State) (n : Nat) : (s.flag n).seals = s.seals := rfl
@[simp] theorem State.flag_crews (s : State) (n : Nat) : (s.flag n).crews = s.crews := rfl
@[simp] theorem State.flag_pkgs (s : State) (n : Nat) : (s.flag n).pkgs = s.pkgs := rfl
@[simp] theorem State.flag_agenda (s : State) (n : Nat) : (s.flag n).agenda = s.agenda := rfl
@[simp] theorem State.flag_turn (s : State) (n : Nat) : (s.flag n).turn = s.turn := rfl
@[simp] theorem State.flag_cur (s : State) (n : Nat) : (s.flag n).cur = s.cur := rfl
@[simp] theorem State.flag_freeN (s : State) (n : Nat) : (s.flag n).freeN = s.freeN := rfl
@[simp] theorem State.flagOf_mem (s : State) (t : StrandId) (n : Nat) : (s.flagOf t n).mem = s.mem := rfl
@[simp] theorem State.flagOf_seals (s : State) (t : StrandId) (n : Nat) : (s.flagOf t n).seals = s.seals := rfl
@[simp] theorem State.flagOf_crews (s : State) (t : StrandId) (n : Nat) : (s.flagOf t n).crews = s.crews := rfl
@[simp] theorem State.flagOf_pkgs (s : State) (t : StrandId) (n : Nat) : (s.flagOf t n).pkgs = s.pkgs := rfl
@[simp] theorem State.flagOf_agenda (s : State) (t : StrandId) (n : Nat) : (s.flagOf t n).agenda = s.agenda := rfl
@[simp] theorem State.flagOf_turn (s : State) (t : StrandId) (n : Nat) : (s.flagOf t n).turn = s.turn := rfl
@[simp] theorem State.flagOf_cur (s : State) (t : StrandId) (n : Nat) : (s.flagOf t n).cur = s.cur := rfl
@[simp] theorem State.flagOf_freeN (s : State) (t : StrandId) (n : Nat) : (s.flagOf t n).freeN = s.freeN := rfl
@[simp] theorem State.modCrew_mem (s : State) (n : Nat) (f : Crew → Crew) : (s.modCrew n f).mem = s.mem := rfl
@[simp] theorem State.modCrew_seals (s : State) (n : Nat) (f : Crew → Crew) : (s.modCrew n f).seals = s.seals := rfl
@[simp] theorem State.modCrew_cores (s : State) (n : Nat) (f : Crew → Crew) : (s.modCrew n f).cores = s.cores := rfl
@[simp] theorem State.modCrew_pkgs (s : State) (n : Nat) (f : Crew → Crew) : (s.modCrew n f).pkgs = s.pkgs := rfl
@[simp] theorem State.modCrew_agenda (s : State) (n : Nat) (f : Crew → Crew) : (s.modCrew n f).agenda = s.agenda := rfl
@[simp] theorem State.modCrew_turn (s : State) (n : Nat) (f : Crew → Crew) : (s.modCrew n f).turn = s.turn := rfl
@[simp] theorem State.modCrew_cur (s : State) (n : Nat) (f : Crew → Crew) : (s.modCrew n f).cur = s.cur := rfl
@[simp] theorem State.modCrew_freeN (s : State) (n : Nat) (f : Crew → Crew) : (s.modCrew n f).freeN = s.freeN := rfl
@[simp] theorem State.modPkg_mem (s : State) (n : Nat) (f : Pkg → Pkg) : (s.modPkg n f).mem = s.mem := rfl
@[simp] theorem State.modPkg_seals (s : State) (n : Nat) (f : Pkg → Pkg) : (s.modPkg n f).seals = s.seals := rfl
@[simp] theorem State.modPkg_cores (s : State) (n : Nat) (f : Pkg → Pkg) : (s.modPkg n f).cores = s.cores := rfl
@[simp] theorem State.modPkg_crews (s : State) (n : Nat) (f : Pkg → Pkg) : (s.modPkg n f).crews = s.crews := rfl
@[simp] theorem State.modPkg_agenda (s : State) (n : Nat) (f : Pkg → Pkg) : (s.modPkg n f).agenda = s.agenda := rfl
@[simp] theorem State.modPkg_turn (s : State) (n : Nat) (f : Pkg → Pkg) : (s.modPkg n f).turn = s.turn := rfl
@[simp] theorem State.modPkg_cur (s : State) (n : Nat) (f : Pkg → Pkg) : (s.modPkg n f).cur = s.cur := rfl
@[simp] theorem State.modPkg_freeN (s : State) (n : Nat) (f : Pkg → Pkg) : (s.modPkg n f).freeN = s.freeN := rfl
@[simp] theorem State.fresh_mem (s : State) : (s.fresh).mem = s.mem := rfl
@[simp] theorem State.fresh_seals (s : State) : (s.fresh).seals = s.seals := rfl
@[simp] theorem State.fresh_cores (s : State) : (s.fresh).cores = s.cores := rfl
@[simp] theorem State.fresh_crews (s : State) : (s.fresh).crews = s.crews := rfl
@[simp] theorem State.fresh_pkgs (s : State) : (s.fresh).pkgs = s.pkgs := rfl
@[simp] theorem State.fresh_agenda (s : State) : (s.fresh).agenda = s.agenda := rfl
@[simp] theorem State.fresh_turn (s : State) : (s.fresh).turn = s.turn := rfl
@[simp] theorem State.fresh_cur (s : State) : (s.fresh).cur = s.cur := rfl
@[simp] theorem State.post_mem (s : State) (p : Pending) : (s.post p).mem = s.mem := rfl
@[simp] theorem State.post_seals (s : State) (p : Pending) : (s.post p).seals = s.seals := rfl
@[simp] theorem State.post_cores (s : State) (p : Pending) : (s.post p).cores = s.cores := rfl
@[simp] theorem State.post_crews (s : State) (p : Pending) : (s.post p).crews = s.crews := rfl
@[simp] theorem State.post_pkgs (s : State) (p : Pending) : (s.post p).pkgs = s.pkgs := rfl
@[simp] theorem State.post_turn (s : State) (p : Pending) : (s.post p).turn = s.turn := rfl
@[simp] theorem State.post_cur (s : State) (p : Pending) : (s.post p).cur = s.cur := rfl
@[simp] theorem State.post_freeN (s : State) (p : Pending) : (s.post p).freeN = s.freeN := rfl
@[simp] theorem State.postStep_mem (s : State) (i : Instr) : (s.postStep i).mem = s.mem := rfl
@[simp] theorem State.postStep_seals (s : State) (i : Instr) : (s.postStep i).seals = s.seals := rfl
@[simp] theorem State.postStep_cores (s : State) (i : Instr) : (s.postStep i).cores = s.cores := rfl
@[simp] theorem State.postStep_crews (s : State) (i : Instr) : (s.postStep i).crews = s.crews := rfl
@[simp] theorem State.postStep_pkgs (s : State) (i : Instr) : (s.postStep i).pkgs = s.pkgs := rfl
@[simp] theorem State.postStep_turn (s : State) (i : Instr) : (s.postStep i).turn = s.turn := rfl
@[simp] theorem State.postStep_cur (s : State) (i : Instr) : (s.postStep i).cur = s.cur := rfl
@[simp] theorem State.postStep_freeN (s : State) (i : Instr) : (s.postStep i).freeN = s.freeN := rfl
@[simp] theorem State.postAt_mem (s : State) (k n : Nat) (i : Instr) : (s.postAt k n i).mem = s.mem := rfl
@[simp] theorem State.postAt_seals (s : State) (k n : Nat) (i : Instr) : (s.postAt k n i).seals = s.seals := rfl
@[simp] theorem State.postAt_cores (s : State) (k n : Nat) (i : Instr) : (s.postAt k n i).cores = s.cores := rfl
@[simp] theorem State.postAt_crews (s : State) (k n : Nat) (i : Instr) : (s.postAt k n i).crews = s.crews := rfl
@[simp] theorem State.postAt_pkgs (s : State) (k n : Nat) (i : Instr) : (s.postAt k n i).pkgs = s.pkgs := rfl
@[simp] theorem State.postAt_turn (s : State) (k n : Nat) (i : Instr) : (s.postAt k n i).turn = s.turn := rfl
@[simp] theorem State.postAt_cur (s : State) (k n : Nat) (i : Instr) : (s.postAt k n i).cur = s.cur := rfl
@[simp] theorem State.postAt_freeN (s : State) (k n : Nat) (i : Instr) : (s.postAt k n i).freeN = s.freeN := rfl
@[simp] theorem State.cancel_mem (s : State) (f : Instr → Bool) : (s.cancel f).mem = s.mem := rfl
@[simp] theorem State.cancel_seals (s : State) (f : Instr → Bool) : (s.cancel f).seals = s.seals := rfl
@[simp] theorem State.cancel_cores (s : State) (f : Instr → Bool) : (s.cancel f).cores = s.cores := rfl
@[simp] theorem State.cancel_crews (s : State) (f : Instr → Bool) : (s.cancel f).crews = s.crews := rfl
@[simp] theorem State.cancel_pkgs (s : State) (f : Instr → Bool) : (s.cancel f).pkgs = s.pkgs := rfl
@[simp] theorem State.cancel_turn (s : State) (f : Instr → Bool) : (s.cancel f).turn = s.turn := rfl
@[simp] theorem State.cancel_cur (s : State) (f : Instr → Bool) : (s.cancel f).cur = s.cur := rfl
@[simp] theorem State.cancel_freeN (s : State) (f : Instr → Bool) : (s.cancel f).freeN = s.freeN := rfl
@[simp] theorem State.writeN_cores (s : State) (k n x : Nat) : (s.writeN k n x).cores = s.cores := rfl
@[simp] theorem State.writeN_seals (s : State) (k n x : Nat) : (s.writeN k n x).seals = s.seals := rfl
@[simp] theorem State.writeN_crews (s : State) (k n x : Nat) : (s.writeN k n x).crews = s.crews := rfl
@[simp] theorem State.writeN_pkgs (s : State) (k n x : Nat) : (s.writeN k n x).pkgs = s.pkgs := rfl
@[simp] theorem State.writeN_agenda (s : State) (k n x : Nat) : (s.writeN k n x).agenda = s.agenda := rfl
@[simp] theorem State.writeN_turn (s : State) (k n x : Nat) : (s.writeN k n x).turn = s.turn := rfl
@[simp] theorem State.writeN_cur (s : State) (k n x : Nat) : (s.writeN k n x).cur = s.cur := rfl
@[simp] theorem State.writeN_freeN (s : State) (k n x : Nat) : (s.writeN k n x).freeN = s.freeN := rfl
@[simp] theorem State.writeBs_cores (s : State) (k : Nat) (bs : List Byte) : (s.writeBs k bs).cores = s.cores := rfl
@[simp] theorem State.writeBs_seals (s : State) (k : Nat) (bs : List Byte) : (s.writeBs k bs).seals = s.seals := rfl
@[simp] theorem State.writeBs_crews (s : State) (k : Nat) (bs : List Byte) : (s.writeBs k bs).crews = s.crews := rfl
@[simp] theorem State.writeBs_pkgs (s : State) (k : Nat) (bs : List Byte) : (s.writeBs k bs).pkgs = s.pkgs := rfl
@[simp] theorem State.writeBs_agenda (s : State) (k : Nat) (bs : List Byte) : (s.writeBs k bs).agenda = s.agenda := rfl
@[simp] theorem State.writeBs_turn (s : State) (k : Nat) (bs : List Byte) : (s.writeBs k bs).turn = s.turn := rfl
@[simp] theorem State.writeBs_cur (s : State) (k : Nat) (bs : List Byte) : (s.writeBs k bs).cur = s.cur := rfl
@[simp] theorem State.writeBs_freeN (s : State) (k : Nat) (bs : List Byte) : (s.writeBs k bs).freeN = s.freeN := rfl
@[simp] theorem State.swrite_cores (s : State) (c : CoreId) (off n x : Nat) : (s.swrite c off n x).cores = s.cores := rfl
@[simp] theorem State.swrite_seals (s : State) (c : CoreId) (off n x : Nat) : (s.swrite c off n x).seals = s.seals := rfl
@[simp] theorem State.swrite_crews (s : State) (c : CoreId) (off n x : Nat) : (s.swrite c off n x).crews = s.crews := rfl
@[simp] theorem State.swrite_pkgs (s : State) (c : CoreId) (off n x : Nat) : (s.swrite c off n x).pkgs = s.pkgs := rfl
@[simp] theorem State.swrite_agenda (s : State) (c : CoreId) (off n x : Nat) : (s.swrite c off n x).agenda = s.agenda := rfl
@[simp] theorem State.swrite_turn (s : State) (c : CoreId) (off n x : Nat) : (s.swrite c off n x).turn = s.turn := rfl
@[simp] theorem State.swrite_cur (s : State) (c : CoreId) (off n x : Nat) : (s.swrite c off n x).cur = s.cur := rfl
@[simp] theorem State.swrite_freeN (s : State) (c : CoreId) (off n x : Nat) : (s.swrite c off n x).freeN = s.freeN := rfl
@[simp] theorem State.clearSlice_cores (s : State) (c : CoreId) : (s.clearSlice c).cores = s.cores := rfl
@[simp] theorem State.clearSlice_seals (s : State) (c : CoreId) : (s.clearSlice c).seals = s.seals := rfl
@[simp] theorem State.clearSlice_crews (s : State) (c : CoreId) : (s.clearSlice c).crews = s.crews := rfl
@[simp] theorem State.clearSlice_pkgs (s : State) (c : CoreId) : (s.clearSlice c).pkgs = s.pkgs := rfl
@[simp] theorem State.clearSlice_agenda (s : State) (c : CoreId) : (s.clearSlice c).agenda = s.agenda := rfl
@[simp] theorem State.clearSlice_turn (s : State) (c : CoreId) : (s.clearSlice c).turn = s.turn := rfl
@[simp] theorem State.clearSlice_cur (s : State) (c : CoreId) : (s.clearSlice c).cur = s.cur := rfl
@[simp] theorem State.clearSlice_freeN (s : State) (c : CoreId) : (s.clearSlice c).freeN = s.freeN := rfl

/-! ## Fields of a strand context -/

@[simp] theorem Strand.wg_mode (t : Strand) (r : Reg) (v : Word) : (t.wg r v).mode = t.mode := by unfold Strand.wg; split <;> rfl
@[simp] theorem Strand.wg_p (t : Strand) (r : Reg) (v : Word) : (t.wg r v).p = t.p := by unfold Strand.wg; split <;> rfl
@[simp] theorem Strand.wg_e (t : Strand) (r : Reg) (v : Word) : (t.wg r v).e = t.e := by unfold Strand.wg; split <;> rfl
@[simp] theorem Strand.wg_pc (t : Strand) (r : Reg) (v : Word) : (t.wg r v).pc = t.pc := by unfold Strand.wg; split <;> rfl
@[simp] theorem Strand.wg_role (t : Strand) (r : Reg) (v : Word) : (t.wg r v).role = t.role := by unfold Strand.wg; split <;> rfl
@[simp] theorem Strand.wg_sticky (t : Strand) (r : Reg) (v : Word) : (t.wg r v).sticky = t.sticky := by unfold Strand.wg; split <;> rfl
@[simp] theorem Strand.wg_upvec (t : Strand) (r : Reg) (v : Word) : (t.wg r v).upvec = t.upvec := by unfold Strand.wg; split <;> rfl
@[simp] theorem Strand.wg_uprec (t : Strand) (r : Reg) (v : Word) : (t.wg r v).uprec = t.uprec := by unfold Strand.wg; split <;> rfl
@[simp] theorem Strand.wg_left (t : Strand) (r : Reg) (v : Word) : (t.wg r v).left = t.left := by unfold Strand.wg; split <;> rfl
@[simp] theorem Strand.wg_live (t : Strand) (r : Reg) (v : Word) : (t.wg r v).live = t.live := by unfold Strand.wg; split <;> rfl
@[simp] theorem Strand.wg_lastDl (t : Strand) (r : Reg) (v : Word) : (t.wg r v).lastDl = t.lastDl := by unfold Strand.wg; split <;> rfl
@[simp] theorem Strand.wg_lastLive (t : Strand) (r : Reg) (v : Word) : (t.wg r v).lastLive = t.lastLive := by unfold Strand.wg; split <;> rfl
@[simp] theorem Strand.wg_scratch (t : Strand) (r : Reg) (v : Word) : (t.wg r v).scratch = t.scratch := by unfold Strand.wg; split <;> rfl
@[simp] theorem Strand.wg_checkT (t : Strand) (r : Reg) (v : Word) : (t.wg r v).checkT = t.checkT := by unfold Strand.wg; split <;> rfl
@[simp] theorem Strand.wg_stalled (t : Strand) (r : Reg) (v : Word) : (t.wg r v).stalled = t.stalled := by unfold Strand.wg; split <;> rfl
@[simp] theorem Strand.wg_atYield (t : Strand) (r : Reg) (v : Word) : (t.wg r v).atYield = t.atYield := by unfold Strand.wg; split <;> rfl
@[simp] theorem Strand.wg_issued (t : Strand) (r : Reg) (v : Word) : (t.wg r v).issued = t.issued := by unfold Strand.wg; split <;> rfl
@[simp] theorem Strand.wg_hold (t : Strand) (r : Reg) (v : Word) : (t.wg r v).hold = t.hold := by unfold Strand.wg; split <;> rfl
@[simp] theorem Strand.wg_parks (t : Strand) (r : Reg) (v : Word) : (t.wg r v).parks = t.parks := by unfold Strand.wg; split <;> rfl
@[simp] theorem Strand.wg_notices (t : Strand) (r : Reg) (v : Word) : (t.wg r v).notices = t.notices := by unfold Strand.wg; split <;> rfl
@[simp] theorem Strand.wg_upcalls (t : Strand) (r : Reg) (v : Word) : (t.wg r v).upcalls = t.upcalls := by unfold Strand.wg; split <;> rfl
@[simp] theorem Strand.wg_binds (t : Strand) (r : Reg) (v : Word) : (t.wg r v).binds = t.binds := by unfold Strand.wg; split <;> rfl
@[simp] theorem Strand.wg_offer (t : Strand) (r : Reg) (v : Word) : (t.wg r v).offer = t.offer := by unfold Strand.wg; split <;> rfl
@[simp] theorem Strand.wg_unacked (t : Strand) (r : Reg) (v : Word) : (t.wg r v).unacked = t.unacked := by unfold Strand.wg; split <;> rfl
@[simp] theorem Strand.wg_taker (t : Strand) (r : Reg) (v : Word) : (t.wg r v).taker = t.taker := by unfold Strand.wg; split <;> rfl
@[simp] theorem Strand.wg_kept (t : Strand) (r : Reg) (v : Word) : (t.wg r v).kept = t.kept := by unfold Strand.wg; split <;> rfl
@[simp] theorem Strand.wg_parity (t : Strand) (r : Reg) (v : Word) : (t.wg r v).parity = t.parity := by unfold Strand.wg; split <;> rfl
@[simp] theorem Strand.wg_retry (t : Strand) (r : Reg) (v : Word) : (t.wg r v).retry = t.retry := by unfold Strand.wg; split <;> rfl
@[simp] theorem Strand.wg_taking (t : Strand) (r : Reg) (v : Word) : (t.wg r v).taking = t.taking := by unfold Strand.wg; split <;> rfl
@[simp] theorem Strand.wp_mode (t : Strand) (r : PReg) (v : Bool) : (t.wp r v).mode = t.mode := by unfold Strand.wp; split <;> rfl
@[simp] theorem Strand.wp_g (t : Strand) (r : PReg) (v : Bool) : (t.wp r v).g = t.g := by unfold Strand.wp; split <;> rfl
@[simp] theorem Strand.wp_e (t : Strand) (r : PReg) (v : Bool) : (t.wp r v).e = t.e := by unfold Strand.wp; split <;> rfl
@[simp] theorem Strand.wp_pc (t : Strand) (r : PReg) (v : Bool) : (t.wp r v).pc = t.pc := by unfold Strand.wp; split <;> rfl
@[simp] theorem Strand.wp_role (t : Strand) (r : PReg) (v : Bool) : (t.wp r v).role = t.role := by unfold Strand.wp; split <;> rfl
@[simp] theorem Strand.wp_sticky (t : Strand) (r : PReg) (v : Bool) : (t.wp r v).sticky = t.sticky := by unfold Strand.wp; split <;> rfl
@[simp] theorem Strand.wp_upvec (t : Strand) (r : PReg) (v : Bool) : (t.wp r v).upvec = t.upvec := by unfold Strand.wp; split <;> rfl
@[simp] theorem Strand.wp_uprec (t : Strand) (r : PReg) (v : Bool) : (t.wp r v).uprec = t.uprec := by unfold Strand.wp; split <;> rfl
@[simp] theorem Strand.wp_left (t : Strand) (r : PReg) (v : Bool) : (t.wp r v).left = t.left := by unfold Strand.wp; split <;> rfl
@[simp] theorem Strand.wp_live (t : Strand) (r : PReg) (v : Bool) : (t.wp r v).live = t.live := by unfold Strand.wp; split <;> rfl
@[simp] theorem Strand.wp_lastDl (t : Strand) (r : PReg) (v : Bool) : (t.wp r v).lastDl = t.lastDl := by unfold Strand.wp; split <;> rfl
@[simp] theorem Strand.wp_lastLive (t : Strand) (r : PReg) (v : Bool) : (t.wp r v).lastLive = t.lastLive := by unfold Strand.wp; split <;> rfl
@[simp] theorem Strand.wp_scratch (t : Strand) (r : PReg) (v : Bool) : (t.wp r v).scratch = t.scratch := by unfold Strand.wp; split <;> rfl
@[simp] theorem Strand.wp_checkT (t : Strand) (r : PReg) (v : Bool) : (t.wp r v).checkT = t.checkT := by unfold Strand.wp; split <;> rfl
@[simp] theorem Strand.wp_stalled (t : Strand) (r : PReg) (v : Bool) : (t.wp r v).stalled = t.stalled := by unfold Strand.wp; split <;> rfl
@[simp] theorem Strand.wp_atYield (t : Strand) (r : PReg) (v : Bool) : (t.wp r v).atYield = t.atYield := by unfold Strand.wp; split <;> rfl
@[simp] theorem Strand.wp_issued (t : Strand) (r : PReg) (v : Bool) : (t.wp r v).issued = t.issued := by unfold Strand.wp; split <;> rfl
@[simp] theorem Strand.wp_hold (t : Strand) (r : PReg) (v : Bool) : (t.wp r v).hold = t.hold := by unfold Strand.wp; split <;> rfl
@[simp] theorem Strand.wp_parks (t : Strand) (r : PReg) (v : Bool) : (t.wp r v).parks = t.parks := by unfold Strand.wp; split <;> rfl
@[simp] theorem Strand.wp_notices (t : Strand) (r : PReg) (v : Bool) : (t.wp r v).notices = t.notices := by unfold Strand.wp; split <;> rfl
@[simp] theorem Strand.wp_upcalls (t : Strand) (r : PReg) (v : Bool) : (t.wp r v).upcalls = t.upcalls := by unfold Strand.wp; split <;> rfl
@[simp] theorem Strand.wp_binds (t : Strand) (r : PReg) (v : Bool) : (t.wp r v).binds = t.binds := by unfold Strand.wp; split <;> rfl
@[simp] theorem Strand.wp_offer (t : Strand) (r : PReg) (v : Bool) : (t.wp r v).offer = t.offer := by unfold Strand.wp; split <;> rfl
@[simp] theorem Strand.wp_unacked (t : Strand) (r : PReg) (v : Bool) : (t.wp r v).unacked = t.unacked := by unfold Strand.wp; split <;> rfl
@[simp] theorem Strand.wp_taker (t : Strand) (r : PReg) (v : Bool) : (t.wp r v).taker = t.taker := by unfold Strand.wp; split <;> rfl
@[simp] theorem Strand.wp_kept (t : Strand) (r : PReg) (v : Bool) : (t.wp r v).kept = t.kept := by unfold Strand.wp; split <;> rfl
@[simp] theorem Strand.wp_parity (t : Strand) (r : PReg) (v : Bool) : (t.wp r v).parity = t.parity := by unfold Strand.wp; split <;> rfl
@[simp] theorem Strand.wp_retry (t : Strand) (r : PReg) (v : Bool) : (t.wp r v).retry = t.retry := by unfold Strand.wp; split <;> rfl
@[simp] theorem Strand.wp_taking (t : Strand) (r : PReg) (v : Bool) : (t.wp r v).taking = t.taking := by unfold Strand.wp; split <;> rfl
@[simp] theorem Strand.we_mode (t : Strand) (r : EReg) (v : Word) : (t.we r v).mode = t.mode := rfl
@[simp] theorem Strand.we_g (t : Strand) (r : EReg) (v : Word) : (t.we r v).g = t.g := rfl
@[simp] theorem Strand.we_p (t : Strand) (r : EReg) (v : Word) : (t.we r v).p = t.p := rfl
@[simp] theorem Strand.we_pc (t : Strand) (r : EReg) (v : Word) : (t.we r v).pc = t.pc := rfl
@[simp] theorem Strand.we_role (t : Strand) (r : EReg) (v : Word) : (t.we r v).role = t.role := rfl
@[simp] theorem Strand.we_sticky (t : Strand) (r : EReg) (v : Word) : (t.we r v).sticky = t.sticky := rfl
@[simp] theorem Strand.we_upvec (t : Strand) (r : EReg) (v : Word) : (t.we r v).upvec = t.upvec := rfl
@[simp] theorem Strand.we_uprec (t : Strand) (r : EReg) (v : Word) : (t.we r v).uprec = t.uprec := rfl
@[simp] theorem Strand.we_left (t : Strand) (r : EReg) (v : Word) : (t.we r v).left = t.left := rfl
@[simp] theorem Strand.we_live (t : Strand) (r : EReg) (v : Word) : (t.we r v).live = t.live := rfl
@[simp] theorem Strand.we_lastDl (t : Strand) (r : EReg) (v : Word) : (t.we r v).lastDl = t.lastDl := rfl
@[simp] theorem Strand.we_lastLive (t : Strand) (r : EReg) (v : Word) : (t.we r v).lastLive = t.lastLive := rfl
@[simp] theorem Strand.we_scratch (t : Strand) (r : EReg) (v : Word) : (t.we r v).scratch = t.scratch := rfl
@[simp] theorem Strand.we_checkT (t : Strand) (r : EReg) (v : Word) : (t.we r v).checkT = t.checkT := rfl
@[simp] theorem Strand.we_stalled (t : Strand) (r : EReg) (v : Word) : (t.we r v).stalled = t.stalled := rfl
@[simp] theorem Strand.we_atYield (t : Strand) (r : EReg) (v : Word) : (t.we r v).atYield = t.atYield := rfl
@[simp] theorem Strand.we_issued (t : Strand) (r : EReg) (v : Word) : (t.we r v).issued = t.issued := rfl
@[simp] theorem Strand.we_hold (t : Strand) (r : EReg) (v : Word) : (t.we r v).hold = t.hold := rfl
@[simp] theorem Strand.we_parks (t : Strand) (r : EReg) (v : Word) : (t.we r v).parks = t.parks := rfl
@[simp] theorem Strand.we_notices (t : Strand) (r : EReg) (v : Word) : (t.we r v).notices = t.notices := rfl
@[simp] theorem Strand.we_upcalls (t : Strand) (r : EReg) (v : Word) : (t.we r v).upcalls = t.upcalls := rfl
@[simp] theorem Strand.we_binds (t : Strand) (r : EReg) (v : Word) : (t.we r v).binds = t.binds := rfl
@[simp] theorem Strand.we_offer (t : Strand) (r : EReg) (v : Word) : (t.we r v).offer = t.offer := rfl
@[simp] theorem Strand.we_unacked (t : Strand) (r : EReg) (v : Word) : (t.we r v).unacked = t.unacked := rfl
@[simp] theorem Strand.we_taker (t : Strand) (r : EReg) (v : Word) : (t.we r v).taker = t.taker := rfl
@[simp] theorem Strand.we_kept (t : Strand) (r : EReg) (v : Word) : (t.we r v).kept = t.kept := rfl
@[simp] theorem Strand.we_parity (t : Strand) (r : EReg) (v : Word) : (t.we r v).parity = t.parity := rfl
@[simp] theorem Strand.we_retry (t : Strand) (r : EReg) (v : Word) : (t.we r v).retry = t.retry := rfl
@[simp] theorem Strand.we_taking (t : Strand) (r : EReg) (v : Word) : (t.we r v).taking = t.taking := rfl

/-! ## Registers of a strand -/

/-- g0 reads zero (R50). -/
@[simp] theorem Strand.rg_zero (t : Strand) : t.rg 0 = 0 := rfl
/-- A write of g0 is discarded (R50). -/
@[simp] theorem Strand.wg_zero (t : Strand) (v : Word) : t.wg 0 v = t := rfl
/-- p0 reads 1 (R50). -/
@[simp] theorem Strand.rp_zero (t : Strand) : t.rp 0 = true := rfl
/-- A write of p0 is discarded (R50). -/
@[simp] theorem Strand.wp_zero (t : Strand) (v : Bool) : t.wp 0 v = t := rfl
theorem Strand.rg_wg_same (t : Strand) (r : Reg) (v : Word) (h : r ≠ 0) : (t.wg r v).rg r = v := by
  unfold Strand.rg Strand.wg
  rw [if_neg h, if_neg h]
  exact SMap.get_set_same ..
theorem Strand.rg_wg_ne (t : Strand) (r q : Reg) (v : Word) (h : q ≠ r) : (t.wg r v).rg q = t.rg q := by
  by_cases hr : r = 0
  · subst hr; rfl
  · have : q.toNat ≠ r.toNat := fun e => h (BitVec.eq_of_toNat_eq e)
    unfold Strand.rg Strand.wg
    rw [if_neg hr]
    simp only [SMap.get_set_ne _ _ _ this]
theorem Strand.rg_congr {t u : Strand} (h : t.g = u.g) (r : Reg) : t.rg r = u.rg r := by simp [Strand.rg, h]
theorem Strand.rp_congr {t u : Strand} (h : t.p = u.p) (r : PReg) : t.rp r = u.rp r := by simp [Strand.rp, h]
@[simp] theorem Strand.wg_rp (t : Strand) (r : Reg) (v : Word) (q : PReg) : (t.wg r v).rp q = t.rp q := Strand.rp_congr (by simp) q
@[simp] theorem Strand.wg_re (t : Strand) (r : Reg) (v : Word) (q : EReg) : (t.wg r v).re q = t.re q := by simp [Strand.re]
@[simp] theorem Strand.wp_rg (t : Strand) (r : PReg) (v : Bool) (q : Reg) : (t.wp r v).rg q = t.rg q := Strand.rg_congr (by simp) q
@[simp] theorem Strand.wp_re (t : Strand) (r : PReg) (v : Bool) (q : EReg) : (t.wp r v).re q = t.re q := by simp [Strand.re]
theorem Strand.rp_wp_same (t : Strand) (r : PReg) (v : Bool) (h : r ≠ 0) : (t.wp r v).rp r = v := by
  have hz : (r == 0) = false := beq_eq_false_iff_ne.mpr h
  have hl : r.toNat < 8 := r.isLt
  unfold Strand.rp Strand.wp
  rw [if_neg h, hz]
  cases v <;> simp [hl]
theorem Strand.rp_wp_ne (t : Strand) (r q : PReg) (v : Bool) (h : q ≠ r) : (t.wp r v).rp q = t.rp q := by
  by_cases hr : r = 0
  · subst hr; rfl
  · have h1 : r.toNat ≠ q.toNat := fun e => h (BitVec.eq_of_toNat_eq e.symm)
    have h2 : q.toNat < 8 := q.isLt
    unfold Strand.rp Strand.wp
    rw [if_neg hr]
    cases v <;> simp [BitVec.getElem_twoPow, h2, Ne.symm h1]
@[simp] theorem Strand.re_we_same (t : Strand) (r : EReg) (v : Word) : (t.we r v).re r = v := by simp [Strand.re, Strand.we]
theorem Strand.re_we_ne (t : Strand) (r q : EReg) (v : Word) (h : q ≠ r) : (t.we r v).re q = t.re q := by
  have : q.toNat ≠ r.toNat := fun e => h (BitVec.eq_of_toNat_eq e)
  simp [Strand.re, Strand.we, SMap.get_set_ne _ _ _ this]

/-! ## Cores, strands, crews and packages after an update -/

@[simp] theorem State.core_setCore_same (s : State) (c : CoreId) (x : Core) : (s.setCore c x).core c = x := by
  simp [State.core, State.setCore]
theorem State.core_setCore_ne (s : State) {c d : CoreId} (x : Core) (h : d.key ≠ c.key) : (s.setCore c x).core d = s.core d := by
  simp [State.core, State.setCore, SMap.get_set_ne _ _ _ h]
@[simp] theorem State.core_modCore_same (s : State) (c : CoreId) (f : Core → Core) : (s.modCore c f).core c = f (s.core c) := by
  simp [State.modCore]
theorem State.core_modCore_ne (s : State) {c d : CoreId} (f : Core → Core) (h : d.key ≠ c.key) : (s.modCore c f).core d = s.core d := by
  simp [State.modCore, State.core_setCore_ne _ _ h]
@[simp] theorem Core.strand_setStrand_same (k : Core) (i : Nat) (x : Strand) : (k.setStrand i x).strand i = x := by
  simp [Core.strand, Core.setStrand]
theorem Core.strand_setStrand_ne (k : Core) {i j : Nat} (x : Strand) (h : j ≠ i) : (k.setStrand i x).strand j = k.strand j := by
  simp [Core.strand, Core.setStrand, SMap.get_set_ne _ _ _ h]
@[simp] theorem State.strand_setStrand_same (s : State) (t : StrandId) (x : Strand) : (s.setStrand t x).strand t = x := by
  simp [State.strand, State.setStrand]
@[simp] theorem State.strand_modStrand_same (s : State) (t : StrandId) (f : Strand → Strand) :
    (s.modStrand t f).strand t = f (s.strand t) := by simp [State.modStrand]
@[simp] theorem State.core_modStrand_same (s : State) (t : StrandId) (f : Strand → Strand) :
    (s.modStrand t f).core t.core = (s.core t.core).setStrand t.slot (f (s.strand t)) := by simp [State.modStrand, State.setStrand]
theorem State.core_modStrand_ne (s : State) {t : StrandId} {d : CoreId} (f : Strand → Strand) (h : d.key ≠ t.core.key) :
    (s.modStrand t f).core d = s.core d := by simp [State.modStrand, State.setStrand, State.core_modCore_ne _ _ h]
@[simp] theorem State.me_modMe (s : State) (f : Strand → Strand) : (s.modMe f).me = f s.me := by
  show (s.modStrand s.cur f).strand s.cur = _; simp [State.me]
/-- Two changes of the executing strand are one. -/
theorem State.modMe_modMe (s : State) (f h : Strand → Strand) : (s.modMe f).modMe h = s.modMe (fun t => h (f t)) := by
  simp only [State.modMe, State.modStrand, State.setStrand, State.modCore, State.setCore, State.strand, State.core, Core.strand,
    Core.setStrand, SMap.get_set_same, SMap.set_set]
@[simp] theorem State.crew_modCrew_same (s : State) (n : Nat) (f : Crew → Crew) : (s.modCrew n f).crew n = f (s.crew n) := by
  simp [State.crew, State.modCrew]
theorem State.crew_modCrew_ne (s : State) {n m : Nat} (f : Crew → Crew) (h : m ≠ n) : (s.modCrew n f).crew m = s.crew m := by
  simp [State.crew, State.modCrew, SMap.get_set_ne _ _ _ h]
@[simp] theorem State.pkg_modPkg_same (s : State) (n : Nat) (f : Pkg → Pkg) : (s.modPkg n f).pkg n = f (s.pkg n) := by
  simp [State.pkg, State.modPkg]
theorem State.pkg_modPkg_ne (s : State) {n m : Nat} (f : Pkg → Pkg) (h : m ≠ n) : (s.modPkg n f).pkg m = s.pkg m := by
  simp [State.pkg, State.modPkg, SMap.get_set_ne _ _ _ h]
@[simp] theorem State.crew_modCore (s : State) (c : CoreId) (f : Core → Core) (n : Nat) : (s.modCore c f).crew n = s.crew n := rfl
@[simp] theorem State.pkg_modCore (s : State) (c : CoreId) (f : Core → Core) (n : Nat) : (s.modCore c f).pkg n = s.pkg n := rfl
@[simp] theorem State.crew_modMe (s : State) (f : Strand → Strand) (n : Nat) : (s.modMe f).crew n = s.crew n := rfl
@[simp] theorem State.pkg_modMe (s : State) (f : Strand → Strand) (n : Nat) : (s.modMe f).pkg n = s.pkg n := rfl
@[simp] theorem State.core_modCrew (s : State) (n : Nat) (f : Crew → Crew) (c : CoreId) : (s.modCrew n f).core c = s.core c := rfl
@[simp] theorem State.pkg_modCrew (s : State) (n : Nat) (f : Crew → Crew) (k : Nat) : (s.modCrew n f).pkg k = s.pkg k := rfl
@[simp] theorem State.core_modPkg (s : State) (n : Nat) (f : Pkg → Pkg) (c : CoreId) : (s.modPkg n f).core c = s.core c := rfl
@[simp] theorem State.crew_modPkg (s : State) (n : Nat) (f : Pkg → Pkg) (k : Nat) : (s.modPkg n f).crew k = s.crew k := rfl
@[simp] theorem State.core_post (s : State) (p : Pending) (c : CoreId) : (s.post p).core c = s.core c := rfl
@[simp] theorem State.crew_post (s : State) (p : Pending) (n : Nat) : (s.post p).crew n = s.crew n := rfl
@[simp] theorem State.pkg_post (s : State) (p : Pending) (n : Nat) : (s.post p).pkg n = s.pkg n := rfl
@[simp] theorem State.core_writeBs (s : State) (k : Nat) (bs : List Byte) (c : CoreId) : (s.writeBs k bs).core c = s.core c := rfl
@[simp] theorem State.core_writeN (s : State) (k n x : Nat) (c : CoreId) : (s.writeN k n x).core c = s.core c := rfl

/-! ## Memory under the state's writes -/

theorem State.writeN_wf {s : State} (k n x : Nat) (h : s.mem.wf = true) : (s.writeN k n x).mem.wf = true := Memory.writeBytes_wf _ _ h
theorem State.writeBs_wf {s : State} (k : Nat) (bs : List Byte) (h : s.mem.wf = true) : (s.writeBs k bs).mem.wf = true :=
  Memory.writeBytes_wf _ _ h
theorem State.swrite_wf {s : State} (c : CoreId) (off n x : Nat) (h : s.mem.wf = true) : (s.swrite c off n x).mem.wf = true :=
  Memory.writeBytes_wf _ _ h
theorem State.clearSlice_wf {s : State} (c : CoreId) (h : s.mem.wf = true) : (s.clearSlice c).mem.wf = true := Memory.filter_wf _ h

/-! ## Lines as a key slot sees them -/

@[simp] theorem State.under_cores (s : State) (x k n : Nat) : (s.under x k n).cores = s.cores := rfl
@[simp] theorem State.under_crews (s : State) (x k n : Nat) : (s.under x k n).crews = s.crews := rfl
@[simp] theorem State.under_pkgs (s : State) (x k n : Nat) : (s.under x k n).pkgs = s.pkgs := rfl
@[simp] theorem State.under_agenda (s : State) (x k n : Nat) : (s.under x k n).agenda = s.agenda := rfl
@[simp] theorem State.under_turn (s : State) (x k n : Nat) : (s.under x k n).turn = s.turn := rfl
@[simp] theorem State.under_cur (s : State) (x k n : Nat) : (s.under x k n).cur = s.cur := rfl
@[simp] theorem State.under_freeN (s : State) (x k n : Nat) : (s.under x k n).freeN = s.freeN := rfl

theorem reseal_wf (m : List Byte) (q : Memory × SMap (List Byte)) (ln : Nat) (h : q.1.wf = true) : (reseal m q ln).1.wf = true := by
  unfold reseal; dsimp only; split
  · exact h
  · exact Memory.writeBytes_wf _ _ h
theorem foldl_reseal_wf (m : List Byte) (l : List Nat) (q : Memory × SMap (List Byte)) (h : q.1.wf = true) :
    (l.foldl (reseal m) q).1.wf = true := by
  induction l generalizing q with
  | nil => exact h
  | cons a l ih => exact ih _ (reseal_wf m q a h)
/-- What a key slot sees keeps the canonical form of memory. -/
theorem State.under_wf {s : State} (x k n : Nat) (h : s.mem.wf = true) : (s.under x k n).mem.wf = true := foldl_reseal_wf _ _ (s.mem, s.seals) h
/-- A line stored under the material that reads it, or that nothing has been stored to, reads as it stands. -/
theorem reseal_same (m : List Byte) (q : Memory × SMap (List Byte)) (ln : Nat) (h : q.2.get m ln = m) : (reseal m q ln).1 = q.1 := by
  unfold reseal; simp only [h, if_true]
/-- What a key slot sees rests on memory, its record of materials and the key slots alone. -/
theorem State.under_congr {s t : State} (x k n : Nat) (hm : t.mem = s.mem) (hs : t.seals = s.seals) (hp : t.pkgs = s.pkgs) :
    (t.under x k n).mem = (s.under x k n).mem ∧ (t.under x k n).seals = (s.under x k n).seals := by
  simp only [State.under, State.pkg, hm, hs, hp, and_self]

end Sys2Proof.Machine
end

