-- ==== Sys2Proof/Laws/Issue.lean ====
section
/-! SUPPORT. What issuing an instruction does, once, for every instruction: the guard, BUDGET, the PC, and how far an effect on the executing
strand reaches. -/

namespace Sys2Proof.Machine

/-! ## Reach -/

theorem SameMem.trans {s t u : State} (h : SameMem s t) (h' : SameMem t u) : SameMem s u :=
  ⟨fun a => (h'.1 a).trans (h.1 a), h'.2.trans h.2⟩

theorem OnlyStrand.refl (x : StrandId) (s : State) : OnlyStrand x s s :=
  { cores := fun _ _ => rfl, crews := fun _ => rfl, pkgs := fun _ => rfl, agenda := rfl, turn := rfl, cur := rfl, freeN := rfl,
    mem := ⟨fun _ => rfl, rfl⟩, rest := rfl, others := fun _ _ => rfl }

theorem OnlyStrand.trans {x : StrandId} {s t u : State} (h : OnlyStrand x s t) (h' : OnlyStrand x t u) : OnlyStrand x s u :=
  { cores := fun d hd => (h'.cores d hd).trans (h.cores d hd), crews := fun n => (h'.crews n).trans (h.crews n),
    pkgs := fun n => (h'.pkgs n).trans (h.pkgs n), agenda := h'.agenda.trans h.agenda, turn := h'.turn.trans h.turn,
    cur := h'.cur.trans h.cur, freeN := h'.freeN.trans h.freeN, mem := h.mem.trans h'.mem,
    rest := h'.rest.trans h.rest, others := fun k hk => (h'.others k hk).trans (h.others k hk) }

/-- A change of one strand context reaches nothing else. -/
theorem onlyStrand_modStrand (s : State) (x : StrandId) (f : Strand → Strand) : OnlyStrand x s (s.modStrand x f) :=
  { cores := fun _ hd => State.core_modStrand_ne s f hd, crews := fun _ => rfl, pkgs := fun _ => rfl, agenda := rfl, turn := rfl,
    cur := rfl, freeN := rfl, mem := ⟨fun _ => rfl, rfl⟩, rest := by rw [State.core_modStrand_same]; rfl,
    others := fun k hk => by rw [State.core_modStrand_same]; exact Core.strand_setStrand_ne _ _ hk }

theorem onlyStrand_modMe (s : State) (f : Strand → Strand) : OnlyStrand s.cur s (s.modMe f) := onlyStrand_modStrand s s.cur f

theorem OnlyCoreOf.trans {x : StrandId} {s t u : State} (h : OnlyCoreOf x s t) (h' : OnlyCoreOf x t u) : OnlyCoreOf x s u :=
  { cores := fun d hd => (h'.cores d hd).trans (h.cores d hd), crews := fun n => (h'.crews n).trans (h.crews n),
    pkgs := fun n => (h'.pkgs n).trans (h.pkgs n), agenda := h'.agenda.trans h.agenda, turn := h'.turn.trans h.turn,
    cur := h'.cur.trans h.cur, freeN := h'.freeN.trans h.freeN, mem := h.mem.trans h'.mem,
    others := fun k hk => (h'.others k hk).trans (h.others k hk) }

theorem OnlyStrand.coreOf {x : StrandId} {s t : State} (h : OnlyStrand x s t) : OnlyCoreOf x s t :=
  { cores := h.cores, crews := h.crews, pkgs := h.pkgs, agenda := h.agenda, turn := h.turn, cur := h.cur, freeN := h.freeN, mem := h.mem,
    others := h.others }

/-- A change of a core that leaves its strands alone reaches nothing outside it. -/
theorem onlyCoreOf_modCore (s : State) (x : StrandId) (f : Core → Core) (h : ∀ k, (f k).strands = k.strands) :
    OnlyCoreOf x s (s.modCore x.core f) :=
  { cores := fun _ hd => State.core_modCore_ne s f hd, crews := fun _ => rfl, pkgs := fun _ => rfl, agenda := rfl, turn := rfl,
    cur := rfl, freeN := rfl, mem := ⟨fun _ => rfl, rfl⟩,
    others := fun k _ => by rw [State.core_modCore_same]; simp only [Core.strand, h] }

/-! ## BUDGET and the PC -/

/-- What charging an instruction's issue does (R104). -/
theorem State.charge_eq (s : State) :
    s.charge = if s.cur.slot = 0 ∨ s.me.issued ≠ none then s else s.modMe fun t => { t with left := if t.left = 0 then 0 else t.left - 1 } := rfl
theorem onlyStrand_charge (s : State) : OnlyStrand s.cur s s.charge := by
  rw [State.charge_eq]; split
  · exact OnlyStrand.refl ..
  · exact onlyStrand_modMe ..
@[simp] theorem State.charge_cur (s : State) : s.charge.cur = s.cur := (onlyStrand_charge s).cur
/-- The executing strand after its instruction has issued. -/
theorem State.charge_me (s : State) : s.charge.me = { s.me with left := s.leftIssued } := by
  rw [State.charge_eq, State.leftIssued]; split
  · rfl
  · rw [State.me_modMe]
@[simp] theorem State.charge_rg (s : State) (r : Reg) : s.charge.rg r = s.rg r := by
  unfold State.rg; rw [State.charge_me]; rfl
@[simp] theorem State.charge_rp (s : State) (r : PReg) : s.charge.rp r = s.rp r := by
  unfold State.rp; rw [State.charge_me]; rfl
/-- Charging and then changing the strand is one change. -/
theorem State.charge_modMe (s : State) (f : Strand → Strand) :
    s.charge.modMe f = s.modMe fun t => f { t with left := s.leftIssued } := by
  rw [State.charge_eq, State.leftIssued]; split
  · unfold State.modMe State.modStrand State.me at *; rfl
  · rw [State.modMe_modMe]; unfold State.modMe State.modStrand State.me at *; rfl

/-! ## Issue -/

/-- An instruction whose guard holds and which its strand may issue has its effect. -/
theorem issue_of_guard {i : Instr} {g : Guard} {sup yp : Bool} {body : State → Res} {s : State} (hg : s.me.guard g = true)
    (hs : sup = true → s.cur.slot = 0) : issue i g sup yp body s = .next (finish i s yp (body (if yp then s else s.charge))) := by
  unfold issue
  have h1 : (sup && s.cur.slot != 0) = false := by cases sup <;> simp_all
  simp [h1, hg]

/-- A user or supervisor instruction that is no yield point. -/
theorem issueU_of_guard {i : Instr} {g : Guard} {body : State → Res} {s : State} (hg : s.me.guard g = true) :
    issueU i g body s = .next (finish i s false (body s.charge)) := issue_of_guard hg (by simp)

/-- A supervisor-only instruction of slot 0. -/
theorem issueS_of_guard {i : Instr} {g : Guard} {body : State → Res} {s : State} (hg : s.me.guard g = true) (hs : s.cur.slot = 0) :
    issueS i g body s = .next (finish i s false (body s.charge)) := issue_of_guard hg (fun _ => hs)

/-- A yield point. -/
theorem issueY_of_guard {i : Instr} {g : Guard} {body : State → Res} {s : State} (hg : s.me.guard g = true) :
    issueY i g body s = .next (finish i s true (body s)) := issue_of_guard hg (by simp)

/-- A guard that is false: only the PC moves, and BUDGET is lowered (R40, R104). -/
theorem issue_of_not_guard {i : Instr} {g : Guard} {sup yp : Bool} {body : State → Res} {s : State} (hg : s.me.guard g = false)
    (hs : sup = true → s.cur.slot = 0) : issue i g sup yp body s = .next s.charge.advance := by
  unfold issue
  have h1 : (sup && s.cur.slot != 0) = false := by cases sup <;> simp_all
  simp [h1, hg]

/-- A supervisor-only instruction of a user strand faults whatever its guard (R64, R69). -/
theorem issueS_of_user {i : Instr} {g : Guard} {body : State → Res} {s : State} (hs : s.cur.slot ≠ 0) :
    issueS i g body s = .next (s.charge.raiseMe (s.illegal 6 0)) := by
  simp [issueS, issue, hs]

/-- An effect on the executing strand alone completes. -/
theorem finish_ok_modMe (i : Instr) (s : State) (yp : Bool) (f : Strand → Strand) (hpc : ∀ t : Strand, (f t).pc = t.pc) :
    OnlyStrand s.cur s (finish i s yp (.ok (s.charge.modMe f)))
      ∧ (finish i s yp (.ok (s.charge.modMe f))).me = (f { s.me with left := s.leftIssued }).goesOn (nextPc s.me.pc) false := by
  show OnlyStrand s.cur s (s.charge.modMe f).advance ∧ (s.charge.modMe f).advance.me = _
  unfold State.advance
  rw [State.modMe_modMe, State.charge_modMe]
  refine ⟨onlyStrand_modMe .., ?_⟩
  rw [State.me_modMe]
  simp only [Strand.goesOn, hpc]

/-- A jump with an effect on the executing strand alone. -/
theorem finish_jump_modMe (i : Instr) (s : State) (yp : Bool) (f : Strand → Strand) (pc : Word) (check : Bool) :
    OnlyStrand s.cur s (finish i s yp (.jump (s.charge.modMe f) pc check))
      ∧ (finish i s yp (.jump (s.charge.modMe f) pc check)).me = (f { s.me with left := s.leftIssued }).goesOn pc check := by
  show OnlyStrand s.cur s ((s.charge.modMe f).modMe _) ∧ ((s.charge.modMe f).modMe _).me = _
  rw [State.modMe_modMe, State.charge_modMe]
  refine ⟨onlyStrand_modMe .., ?_⟩
  rw [State.me_modMe]
  rfl

/-- A result written to a register: the instruction completes. -/
theorem finish_put (i : Instr) (s : State) (yp : Bool) (d : Reg) (v : Word) :
    OnlyStrand s.cur s (finish i s yp (.ok (s.charge.wg d v)))
      ∧ (finish i s yp (.ok (s.charge.wg d v))).me = { s.me.wg d v with left := s.leftIssued }.goesOn (nextPc s.me.pc) false := by
  refine ⟨(finish_ok_modMe i s yp (fun t => t.wg d v) (by simp)).1, ?_⟩
  show (finish i s yp (.ok (s.charge.modMe fun t => t.wg d v))).me = _
  rw [(finish_ok_modMe i s yp (fun t => t.wg d v) (by simp)).2]
  unfold Strand.wg; split <;> rfl

/-- A result written to a predicate: the instruction completes. -/
theorem finish_putp (i : Instr) (s : State) (yp : Bool) (d : PReg) (v : Bool) :
    OnlyStrand s.cur s (finish i s yp (.ok (s.charge.wp d v)))
      ∧ (finish i s yp (.ok (s.charge.wp d v))).me = { s.me.wp d v with left := s.leftIssued }.goesOn (nextPc s.me.pc) false := by
  refine ⟨(finish_ok_modMe i s yp (fun t => t.wp d v) (by simp)).1, ?_⟩
  show (finish i s yp (.ok (s.charge.modMe fun t => t.wp d v))).me = _
  rw [(finish_ok_modMe i s yp (fun t => t.wp d v) (by simp)).2]
  unfold Strand.wp; split <;> rfl

end Sys2Proof.Machine
end

