-- ==== Sys2Proof/Laws/Raise.lean ====
section
/-! SUPPORT. Changes of one core as one update, and what a fault of a user strand does. -/

namespace Sys2Proof.Machine

/-! ## One core -/

/-- Two changes of a core are one. -/
theorem State.modCore_modCore (s : State) (c : CoreId) (f h : Core → Core) :
    (s.modCore c f).modCore c h = s.modCore c (fun k => h (f k)) := by
  simp only [State.modCore, State.core_setCore_same]
  simp only [State.setCore, SMap.set_set]

/-- A change of a strand is a change of its core. -/
theorem State.modStrand_eq (s : State) (t : StrandId) (f : Strand → Strand) :
    s.modStrand t f = s.modCore t.core (fun k => k.modStrand t.slot f) := rfl
theorem State.setStrand_eq (s : State) (t : StrandId) (x : Strand) : s.setStrand t x = s.modCore t.core (fun k => k.setStrand t.slot x) := rfl
theorem State.modMe_eq (s : State) (f : Strand → Strand) : s.modMe f = s.modCore s.cur.core (fun k => k.modStrand s.cur.slot f) := rfl
theorem State.modMyCore_eq (s : State) (f : Core → Core) : s.modMyCore f = s.modCore s.cur.core f := rfl
theorem State.me_def (s : State) : s.me = (s.core s.cur.core).strand s.cur.slot := rfl

/-- A fault of S closes S's capture unless it is VSEQ's own (R133). -/
theorem State.seqFault_eq (s : State) (t : StrandId) (d : Nat) (h : d ≠ 0x46) :
    s.seqFault t d = if (s.core t.core).seq = .capturing t.slot then s.modCore t.core fun k => k.closed t.slot else s := by
  unfold State.seqFault
  by_cases hc : (s.core t.core).seq = .capturing t.slot
  · simp only [h, hc, ne_eq, not_false_eq_true, and_self, if_true]
    simp only [State.modCore, Core.closed, hc, if_true]
  · simp [hc]

/-- A change of a core that does not change it. -/
theorem Core.closed_strand (k : Core) (n i : Nat) : (k.closed n).strand i = k.strand i := by
  unfold Core.closed; split <;> rfl
theorem Core.closed_reports (k : Core) (n : Nat) : (k.closed n).reports = k.reports := by unfold Core.closed; split <;> rfl

/-- A strand context replaced leaves the rest of its core. -/
theorem Core.setStrand_rest (k : Core) (i : Nat) (x : Strand) : (k.setStrand i x).rest = k.rest := rfl

theorem Core.closed_setStrand (k : Core) (n i : Nat) (x : Strand) : ((k.setStrand i x).closed n).rest = (k.closed n).rest := by
  unfold Core.closed
  have : (k.setStrand i x).seq = k.seq := rfl
  rw [this]; split <;> rfl

theorem Core.closed_of_rest {k k' : Core} (n : Nat) (h : k'.rest = k.rest) : (k'.closed n).rest = (k.closed n).rest := by
  have hs : k'.seq = k.seq := (congrArg Core.seq h : k'.rest.seq = k.rest.seq)
  unfold Core.closed
  rw [hs]
  split
  · exact congrArg (fun x : Core => { x with seq := .idle, run := [] }) h
  · exact h

/-- Closing a capture reaches only the core of the strand, whose strands stay. -/
theorem State.seqFault_core (s : State) (t : StrandId) (d : Nat) (h : d ≠ 0x46) :
    (s.seqFault t d).core t.core = (s.core t.core).closed t.slot ∧ (∀ c, c.key ≠ t.core.key → (s.seqFault t d).core c = s.core c)
      ∧ (s.seqFault t d).mem = s.mem ∧ (s.seqFault t d).seals = s.seals ∧ (s.seqFault t d).crews = s.crews ∧ (s.seqFault t d).pkgs = s.pkgs
      ∧ (s.seqFault t d).agenda = s.agenda ∧ (s.seqFault t d).cur = s.cur := by
  rw [State.seqFault_eq s t d h]
  split
  · exact ⟨State.core_modCore_same .., fun c hc => State.core_modCore_ne s _ hc, rfl, rfl, rfl, rfl, rfl, rfl⟩
  · rename_i hn
    exact ⟨by simp [Core.closed, hn], fun _ _ => rfl, rfl, rfl, rfl, rfl, rfl, rfl⟩

/-- What a user strand's fault does when it goes to the micro-kernel: all that Traps lists. -/
theorem traps_of_raise {i : Instr} {s : State} {r : Report} (hu : s.cur.slot ≠ 0) (hd : r.detail ≠ 0x46)
    (hc : upcallCause r.cause = false) (he : exec i s = .next (s.charge.raiseMe r)) : Traps i s r := by
  refine ⟨_, he, ?_⟩
  have hch : s.charge.cur = s.cur := s.charge_cur
  have h := onlyStrand_charge s
  have hme := s.charge_me
  generalize s.charge = u at *
  have hrep : (u.core s.cur.core).reports = (s.core s.cur.core).reports := (congrArg Core.reports h.rest : (u.core s.cur.core).rest.reports = (s.core s.cur.core).rest.reports)
  have hctx : (u.core s.cur.core).ctx = (s.core s.cur.core).ctx := (congrArg Core.ctx h.rest : (u.core s.cur.core).rest.ctx = (s.core s.cur.core).rest.ctx)
  obtain ⟨q1, q2, q3, q0, q4, q5, q6, q7⟩ := u.seqFault_core s.cur r.detail hd
  have h12 : r.cause ≠ 12 := by rintro hr; rw [hr] at hc; exact absurd hc (by decide)
  unfold State.raiseMe State.raise
  simp only [hc, hch, hu, h12, if_false, Bool.false_eq_true]
  generalize u.seqFault s.cur r.detail = v at *
  have hcx : (v.modStrand s.cur fun x => { x with issued := none, hold := .none, stalled := false, checkT := false, atYield := false, retry := none }).ctxOf s.cur
      = s.ctx := by
    have hk : (v.core s.cur.core).ctx = (s.core s.cur.core).ctx := by
      rw [q1, ← hctx]; unfold Core.closed; split <;> rfl
    simp only [State.ctxOf, State.ctx, hu, if_false, State.core_modStrand_same]
    exact hk
  unfold State.trapUser State.report
  simp only [hcx]
  have hvm : v.strand s.cur = { s.me with left := s.leftIssued } := by
    rw [← hme]; simp only [State.strand, State.me, hch, q1, Core.closed_strand]
  -- the fault's two changes of the strand are one
  have hone : ((v.modStrand s.cur fun x => { x with issued := none, hold := .none, stalled := false, checkT := false, atYield := false, retry := none }).modStrand
      s.cur fun x => { x with mode := .trapped, retry := none }) = v.modStrand s.cur Strand.stoppedAt := by
    simp only [State.modStrand, State.setStrand, State.modCore_modCore, State.strand, State.core_modCore_same, Core.setStrand,
      Core.strand, SMap.get_set_same, SMap.set_set]
    rfl
  rw [hone]
  generalize hw : v.modStrand s.cur Strand.stoppedAt = w
  have wc : w.core s.cur.core = ((u.core s.cur.core).closed s.cur.slot).setStrand s.cur.slot ({ s.me with left := s.leftIssued }.stoppedAt) := by
    rw [← hw, State.core_modStrand_same, hvm, q1]
  have wo : ∀ c, c.key ≠ s.cur.core.key → w.core c = s.core c := fun c hk => by
    rw [← hw, State.core_modStrand_ne _ _ hk, q2 c hk, h.cores c hk]
  have wag : w.agenda = s.agenda := by rw [← hw]; exact q6.trans h.agenda
  have wcur : w.cur = s.cur := by rw [← hw]; exact q7.trans h.cur
  have hpost : ∀ (y : State) (j : Instr), (y.postOnce j).mem = y.mem ∧ (y.postOnce j).seals = y.seals ∧ (y.postOnce j).cores = y.cores ∧ (y.postOnce j).crews = y.crews
      ∧ (y.postOnce j).pkgs = y.pkgs ∧ (y.postOnce j).cur = y.cur
      ∧ (y.postOnce j).agenda = (if y.agenda.any (fun p => p.step == j) then y.agenda else y.agenda ++ [{ step := j }]) := by
    intro y j; unfold State.postOnce; split <;> simp_all [State.postStep, State.post]
  obtain ⟨p1, p0, p2, p3, p4, p5, p6⟩ := hpost (w.modCore s.cur.core fun k =>
    { k with reports := k.reports ++ [{ r with slot := s.cur.slot, strand := s.cur.gid, ctx := s.ctx }] }) (.trapDelivery s.cur.core)
  generalize (w.modCore s.cur.core fun k =>
    { k with reports := k.reports ++ [{ r with slot := s.cur.slot, strand := s.cur.gid, ctx := s.ctx }] }).postOnce (.trapDelivery s.cur.core) = z at *
  have zc : z.core s.cur.core = { w.core s.cur.core with
      reports := s.myCore.reports ++ [{ r with slot := s.cur.slot, strand := s.cur.gid, ctx := s.ctx }] } := by
    have : z.core s.cur.core = ((w.modCore s.cur.core fun k =>
      { k with reports := k.reports ++ [{ r with slot := s.cur.slot, strand := s.cur.gid, ctx := s.ctx }] }).core s.cur.core) := by
      simp only [State.core, p2]
    rw [this, State.core_modCore_same]
    have hr : (w.core s.cur.core).reports = s.myCore.reports := by
      rw [wc]; exact ((Core.closed_reports ..).trans hrep)
    rw [hr]
  have zcur : z.cur = s.cur := p5.trans wcur
  refine ⟨?_, ?_, ?_, ?_, ?_, ?_, ?_, ?_, zcur⟩
  · have : z.mem = u.mem := by rw [p1]; show w.mem = u.mem; rw [← hw]; exact q3
    have seals : z.seals = u.seals := by rw [p0]; show w.seals = u.seals; rw [← hw]; exact q0
    exact ⟨fun a => by rw [this]; exact h.mem.1 a, seals.trans h.mem.2⟩
  · rw [State.me, State.strand, zcur, zc, wc]; simp only [Core.strand, Core.setStrand, SMap.get_set_same]
  · show (z.core z.cur.core).rest = _
    rw [zcur, zc, wc]
    have := Core.closed_of_rest s.cur.slot h.rest
    exact congrArg (fun x : Core =>
      { x with reports := s.myCore.reports ++ [{ r with slot := s.cur.slot, strand := s.cur.gid, ctx := s.ctx }] }) this
  · rw [p6]; show (if w.agenda.any _ then w.agenda else w.agenda ++ _) = _; rw [wag]
  · intro k hk
    show (z.core z.cur.core).strand k = _
    rw [zcur, zc, wc]
    show (((u.core s.cur.core).closed s.cur.slot).setStrand s.cur.slot _).strand k = _
    rw [Core.strand_setStrand_ne _ _ hk, Core.closed_strand]; exact h.others k hk
  · intro d hd
    have : z.core d = ((w.modCore s.cur.core fun k =>
      { k with reports := k.reports ++ [{ r with slot := s.cur.slot, strand := s.cur.gid, ctx := s.ctx }] }).core d) := by
      simp only [State.core, p2]
    rw [this, State.core_modCore_ne _ _ hd]; exact wo d hd
  · intro n
    have : z.crews = u.crews := by rw [p3]; show w.crews = _; rw [← hw]; exact q4
    simp only [State.crew, this]; exact h.crews n
  · intro n
    have : z.pkgs = u.pkgs := by rw [p4]; show w.pkgs = _; rw [← hw]; exact q5
    simp only [State.pkg, this]; exact h.pkgs n

end Sys2Proof.Machine
end

