-- ==== Sys2Proof/Tests/Slice0.lean ====
section
/-! SUPPORT. Tests: words that the spec prints, small states that meet the hypotheses of the statements, ill-formed terms, the spec's worked
examples and single steps. Expected values come from the spec or from hand calculation. -/

namespace Sys2Proof.Tests

open Sys2Proof Sys2Proof.Machine

/-- The guard that is always true. -/
def always : Guard := ⟨false, 0⟩

/-! ## Words printed in the spec (its tables of words: 03, 05 to 12, 15 to 20) -/

/-- cmp.eq p3, g8, 6 from the fields of R410: the word that the spec prints for it has gd 1 (log 30). -/
theorem test_words_scalar :
    decode 0x02000C108000000000000000#96 = .ok (.add always 3 1 2) ∧ decode 0x230100000000FFFFFFFFFFFC#96 = .ok (.br ⟨false, 1⟩ (-4))
      ∧ decode 0x2F000C800000000000000006#96 = .ok (.cmpk always .eq 3 8 6)
      ∧ decode 0x170004000000000000000054#96 = .ok (.movk always 1 84)
      ∧ decode 0x15300420C000000000000000#96 = .ok (.cmp always .le 1 2 3)
      ∧ decode 0x07100C108000000000000000#96 = .ok (.rem always true 3 1 2)
      ∧ decode 0x280000081008000000000000#96 = .ok (.yield always 8 0x81)
      ∧ decode 0x2400F4000000000000000002#96 = .ok (.call always 61 2)
      ∧ decode 0x250103D00000000000000000#96 = .ok (.ret ⟨false, 1⟩ 61)
      ∧ decode 0x230000000000FFFFFFFFFFFA#96 = .ok (.br always (-6))
      ∧ decode 0x270000700000FFFFFFFFFFFD#96 = .ok (.loop always 7 (-3)) := by decide

theorem test_words_vector :
    decode 0x4000C00C00C00C0000000000#96 = .ok (.vseqOpen always)
      ∧ decode 0x4010C00809C00C0000000000#96 = .ok (.vseqLoop always 9)
      ∧ decode 0x4100004004001C0010000000#96 = .ok (.vadd always .f32 { dst := .tile 4, a := .tile 4, b := .tile 1, c := .none, shape := 2 })
      ∧ decode 0x4100408001002C0010000000#96 = .ok (.vadd always .f32 { dst := .ring 1 0, a := .tile 1, b := .tile 2, c := .none, shape := 2 })
      ∧ decode 0x530000A004C00C0010000200#96 = .ok (.vzip always 4 .f32 { dst := .tile 10, a := .tile 4, b := .none, c := .none, shape := 2 })
      ∧ decode 0xB400003003805C0010000080#96
          = .ok (.csend always 1 { dst := .tile 3, a := .tile 3, b := .scalar 5, c := .none, shape := 2 }) := by decide

theorem test_words_tensor :
    decode 0x6000004C00C00C000007FF00#96 = .ok (.tzero always (-1) { dst := .tile 4, a := .none, b := .none, c := .none })
      ∧ decode 0x6400002001C00C0003800000#96 = .ok (.tquant always .f32 ⟨3, true⟩ false { dst := .tile 2, a := .tile 1, b := .none, c := .none })
      ∧ decode 0x6100004002003C0003980000#96
          = .ok (.tmma always ⟨3, true⟩ ⟨1, true⟩ false false { dst := .tile 4, a := .tile 2, b := .tile 3, c := .none })
      ∧ decode 0x6300005004C00C0000000000#96 = .ok (.tread always .f32 { dst := .tile 5, a := .tile 4, b := .none, c := .none })
      ∧ decode 0x6200004005C00C0000000000#96 = .ok (.tacc always { dst := .tile 4, a := .tile 5, b := .none, c := .none })
      ∧ decode 0x6C001C0021040000000F4240#96 = .ok (.tcap always 7 4 4 0b010 1000000)
      ∧ decode 0x6B0018700000440427700000#96 = .ok (.tmx always 6 7 (.mma 4 1 2 ⟨3, true⟩ ⟨3, true⟩ false false)) := by decide

theorem test_words_memory :
    decode 0x74000C000000000009841000#96 = .ok (.tdef always 3 0 0x9841000) ∧ decode 0x7A000C600000000000000000#96 = .ok (.cp always .inn .core 3 ⟨6, 0, 0⟩)
      ∧ decode 0x7E0000000000000000000009#96 = .ok (.fence always .core 0b01001)
      ∧ decode 0x7E0000000100000000000001#96 = .ok (.fence always .crew 1)
      ∧ decode 0x7000FC801800000000000000#96 = .ok (.ld always false .d 63 ⟨8, 0, 0⟩)
      ∧ decode 0x7D20FC401901000000000000#96 = .ok (.red always .add .d .crew false true 63 ⟨4, 0, 0⟩)
      ∧ decode 0x772020000000000000000000#96 = .ok (.tsetReady always 8) := by decide

theorem test_words_nets :
    decode 0x94000010C000000000000000#96 = .ok (.nset always 1 0 3) ∧ decode 0x950000604000000000000000#96 = .ok (.nlink always 6 1)
      ∧ decode 0x920000200000000000000000#96 = .ok (.nfree always 2 0) ∧ decode 0x970000000000000000000000#96 = .ok (.nnext always)
      ∧ decode 0x93001C100002000000000000#96 = .ok (.nget always 7 1 2) ∧ decode 0x910004400000000000000000#96 = .ok (.nalloc always 1 4 0)
      ∧ decode 0x900001500004000000000000#96 = .ok (.rtab always 21 4) ∧ decode 0x96000061C000000000000000#96 = .ok (.npush always 6 7)
      ∧ decode 0x980024800000000000000000#96 = .ok (.nshed always 9 8 .pcol)
      ∧ decode 0x990000800000000000000010#96 = .ok (.npool always false 0 8 16) := by decide

theorem test_words_events :
    decode 0xA0300C108003000000000000#96 = .ok (.evnew always .reduce .pkg false 3 1 2 0)
      ∧ decode 0xA01004C34001000000000000#96 = .ok (.evnew always .xfer .crew false 1 12 13 0)
      ∧ decode 0xA20000314600000000000000#96 = .ok (.evput always 3 (.both 5 6))
      ∧ decode 0xA20000100704000000000000#96 = .ok (.evput always 1 (.nocont 7))
      ∧ decode 0xA60008928000000000000000#96 = .ok (.evres always 2 9 10)
      ∧ decode 0xA50008BFF01C800000000000#96 = .ok (.offer always (some 1) (some 2) none none 7 8)
      ∧ decode 0xA50000443018500000000000#96 = .ok (.offer always (some 0) (some 1) (some 2) (some 3) 6 5)
      ∧ decode 0xA90004128001000000000000#96 = .ok (.evtimer always true false 1 1 10) := by decide

theorem test_words_fabric :
    decode 0xB0000061C105000000000000#96 = .ok (.amsend always 6 7 1 5) ∧ decode 0xB1000090000000000000000C#96 = .ok (.ambind always false 9 12)
      ∧ decode 0xB20000000000000000000000#96 = .ok (.amnext always)
      ∧ decode 0xB30020428800000000000000#96 = .ok (.append always 8 10 1 false 4 0)
      ∧ decode 0xB5000C600000000000000009#96 = .ok (.putt always false 3 6 9)
      ∧ decode 0xB7000040000100000000000C#96 = .ok (.crsload always true 4 12)
      ∧ decode 0xB80000500001000000000000#96 = .ok (.crsgo always true 5)
      ∧ decode 0xB9001C000001000000000000#96 = .ok (.crsstat always true 7)
      ∧ decode 0xC50020108300000000000000#96 = .ok (.migrate always false 8 1 2 3) := by decide

theorem test_words_system :
    decode 0xC0102010000300000000002A#96 = .ok (.syscall always 8 1 0x2A 3) ∧ decode 0xC20014000030000000000000#96 = .ok (.csrr always 5 3)
      ∧ decode 0xC23000000031000000000100#96 = .ok (.csrc always 0 3 (.imm 0x100))
      ∧ decode 0xC1000000000A000000000000#96 = .ok (.eret always 2 true false)
      ∧ decode 0xC11000000000000000000000#96 = .ok (.upret always)
      ∧ decode 0xC70024700002000000000000#96 = .ok (.smove always 9 7 2 false)
      ∧ decode 0xC80024102040000000000000#96 = .ok (.sstart always 9 1 .pkg (.entry 0 64))
      ∧ decode 0xCC0010000040000000000100#96 = .ok (.wdog always 4 64 256)
      ∧ decode 0xCD0000000003000000000028#96 = .ok (.hostirq always 3 0 40)
      ∧ decode 0xC40020000000000000000000#96 = .ok (.replay always 8) ∧ decode 0xC90000000000000000000000#96 = .ok (.sexit always none) := by decide

/-- Words that are no instruction (R69 to R71): the all-zero word; OP 0xD0; nop with a variant, with a body bit; evput.cp with a tile; lds of a
scope above 4. -/
theorem test_words_refused :
    decode 0 = .error .zero ∧ decode 0xD00000000000000000000000#96 = .error .op ∧ decode 0x011000000000000000000000#96 = .error .var
      ∧ decode 0x010000000000000000000001#96 = .error (.rsvd 0) ∧ decode 0xA20000314001000000000000#96 = .error (.rsvd 62)
      ∧ decode 0x72000C100D00000000000000#96 = .error (.rsvd 56) := by decide

/-- The encoder writes the words that the spec prints. -/
theorem test_encode :
    encode (.offer always (some 1) (some 2) none none 7 8) = 0xA50008BFF01C800000000000#96 ∧ encode (.br ⟨false, 1⟩ (-4)) = 0x230100000000FFFFFFFFFFFC#96
      ∧ encode (.sstart always 9 1 .pkg (.entry 0 64)) = 0xC80024102040000000000000#96
      ∧ encode (.tmx always 6 7 (.mma 4 1 2 ⟨3, true⟩ ⟨3, true⟩ false false)) = 0x6B0018700000440427700000#96 := by decide

/-! ## Small states -/

/-- Core ⟨0, 0, 0⟩. -/
def c0 : CoreId := ⟨0, 0, 0⟩
/-- Its neighbour in column 1. -/
def c1 : CoreId := ⟨0, 1, 0⟩
/-- A state whose executing strand stands in a slot of core c0, which serves context 1. -/
def on (slot : Nat) (x : Strand) (k : Core := {}) (p : Pkg := {}) (w : Crew := {}) : State :=
  { cores := [(0, { k with ctx := 1, strands := k.strands.set slot x })], crews := [(0, w)], pkgs := [(0, p)], cur := ⟨c0, slot⟩ }
/-- The address of an offset in the slice of core c0. -/
def own (off : Nat) : Word := BitVec.ofNat 64 (2 ^ 63 + off)
/-- A guard whose predicate p1 is clear. -/
def never : Guard := ⟨false, 1⟩
/-- The state that a step answers. -/
def got (o : Out) : State := match o with | .next t => t | _ => {}

/-! ## What the hypotheses of the statements ask, met by a state of this kind: one theorem for each statement -/

theorem witness_IntegerArithmetic : (on 1 {}).me.guard always = true ∧ (on 1 {}).me.guard ⟨true, 1⟩ = true := by decide
theorem witness_Division : (on 1 { g := [(1, 0x8000000000000000), (2, 0xFFFFFFFFFFFFFFFF)] }).me.guard always = true
    ∧ ((on 1 { g := [(1, 0x8000000000000000), (2, 0xFFFFFFFFFFFFFFFF)] }).rg 1).toInt = -2 ^ 63
    ∧ ((on 1 { g := [(1, 0x8000000000000000), (2, 0xFFFFFFFFFFFFFFFF)] }).rg 2).toInt = -1 := by decide
theorem witness_CountsAndSelection : (on 1 {}).me.guard always = true ∧ 8 ≤ (8 : BitVec 6).toNat ∧ (1 : Reg) ≠ 0
    ∧ (∀ k, k < 64 → ((on 1 {}).rg 1).getLsbD (63 - k) = false) := by decide
theorem witness_ImmediatesAndBitFields : (on 1 {}).me.guard always = true ∧ (1 : BitVec 6).toNat + (62 : BitVec 6).toNat + 1 ≤ 64
    ∧ 64 < (1 : BitVec 6).toNat + (63 : BitVec 6).toNat + 1 ∧ (0x10000 : Imm48).extractLsb' 16 32 ≠ 0
    ∧ (0x1000 : BitVec 20).extractLsb' 12 8 ≠ 0 := by decide
theorem witness_AddressesAndCoordinates : (on 1 {}).me.guard always = true ∧ 4 ≤ (4 : BitVec 3).toNat ∧ 5 ≤ (5 : BitVec 4).toNat := by decide
theorem witness_ComparisonsAndPredicates : (on 1 {}).me.guard always = true ∧ 10 ≤ (10 : BitVec 4).toNat ∧ 8 ≤ (8 : Reg).toNat := by decide
/-- A branch to the first slot of all and from it, one past the last; a loop that ends and one that goes on. -/
theorem witness_ControlTransfers :
    let s := on 1 { g := [(1, 1), (2, 2)] }
    let lin (off : Imm48) : Int := (s.me.pc.toNat / 64 * 5 + s.me.pc.toNat % 8 : Nat) + off.toInt
    s.me.guard always = true ∧ (0 ≤ lin 0 ∧ lin 0 < (2 ^ 57 / 64 * 5 : Nat)) ∧ ¬ (0 ≤ lin (-1) ∧ lin (-1) < (2 ^ 57 / 64 * 5 : Nat))
      ∧ s.rg 1 - 1 = 0 ∧ s.rg 2 - 1 ≠ 0 := by decide
theorem witness_YieldReloadsBudget : (on 1 {}).me.guard always = true ∧ (on 1 {}).cur.slot ≠ 0 ∧ (on 1 {}).me.taker = none
    ∧ (on 1 {}).me.notices = [] ∧ (1 : BitVec 12) ≠ 0 := by decide
theorem witness_ScalarFloat : (on 1 {}).me.guard always = true := by decide
theorem witness_FalseGuard : guardOf (.halt never) = some never ∧ (on 0 {}).me.guard never = false ∧ (on 0 {}).admits (.halt never) = true
    ∧ (on 1 {}).admits (.halt never) = false ∧ (on 1 {}).admits (.csrw never 0 3 (.imm 1)) = true := by decide
theorem witness_ModeChecks : (on 1 {}).cur.slot ≠ 0 ∧ supervisorOnly (.halt always) = true ∧ (on 1 {}).ctlBad 0x8000 false = true
    ∧ (on 1 {}).ctlBad 7 false = true ∧ (on 1 {}).ctlBad 2 true = true := by decide
theorem witness_IllegalWordsTrap : (on 1 {}).cur.slot ≠ 0 ∧ (7 : Nat) ≤ 7
    ∧ ((on 1 { left := 1 }).strand ⟨c0, 1⟩).overrun 1 (.error .zero) = false := by decide
theorem witness_ControlRegisters : (on 1 {}).me.guard always = true ∧ (on 1 {}).charge.csr 3 = some 0 ∧ (on 1 {}).ctlBad 3 true = false
    ∧ csrMask (on 1 {}).super 3 = some 0xF1F ∧ (on 0 {}).charge.csr 0x8101 = some 0 ∧ (on 0 {}).ctlBad 0x8101 true = false
    ∧ csrMask (on 0 {}).super 0x8101 = some 1 ∧ (on 1 {}).ctlBad 0x100 false = false := by decide

/-- A register that a user strand reads only, one of slot 0's, and one that is none. -/
theorem witness_ControlRegisterAccess : (on 1 {}).ctlBad 2 false = false ∧ (on 1 {}).ctlBad 2 true = true ∧ (on 0 {}).ctlBad 2 true = false
    ∧ (on 1 {}).ctlBad 0x8000 false = true ∧ (on 0 {}).ctlBad 0x8000 false = false ∧ (on 0 {}).ctlBad 7 false = true ∧ (on 1 {}).ctlBad 3 true = false := by
  decide

/-- A report of a user strand waits at a core whose records stand at the start of its slice. -/
theorem witness_TrapDelivery :
    let r : Report := { slot := 7, cause := 13 }
    let s := on 0 { mode := .ready } { traprec := own 0, reports := [r] }
    s.mem.wf = true ∧ InSlice s c0 0 true (s.core c0).traprec 128 c0 0 ∧ nextReport (s.core c0).reports = some r ∧ r.slot < 8
      ∧ (s.core c0).tdis = false ∧ (s.core c0).mcheck = none ∧ (s.core c0).halted = false ∧ (s.core c0).retired = false
      ∧ ((s.core c0).strand 0).issued = none ∧ ((s.core c0).strand 0).taking = none ∧ ((s.core c0).strand 0).mode = .ready ∧ (s.pkg 0).held3 = false := by
  unfold InSlice; decide

/-- The save record's INUSE clear and set, for a user strand; the trap records of slot 0, TDIS clear and set. -/
theorem witness_TrapInstruction :
    let s := on 1 { upvec := 1, uprec := own 64 }
    let used : State := { s with mem := [(sliceKey c0 (64 + 56), 1)] }
    let z := on 0 {} { traprec := own 0 }
    (s.me.guard always = true ∧ s.cur.slot ≠ 0 ∧ (on 1 {}).me.upvec = 0 ∧ s.me.upvec ≠ 0 ∧ s.mem.wf = true ∧ used.mem.wf = true)
      ∧ InSlice s c0 s.ctx false (s.me.uprec &&& ~~~(0x3F : Word)) 8 c0 64 ∧ InSlice used c0 used.ctx false (used.me.uprec &&& ~~~(0x3F : Word)) 8 c0 64
      ∧ (s.sliceWord c0 64 7).getLsbD 0 = false ∧ (used.sliceWord c0 64 7).getLsbD 0 = true
      ∧ z.cur.slot = 0 ∧ InSlice z c0 0 true z.myCore.traprec 128 c0 0 ∧ z.myCore.tdis = false
      ∧ (on 0 {} { traprec := own 0, tdis := true }).myCore.tdis = true := by
  unfold InSlice; decide

theorem witness_ExceptionReturns :
    let z := on 0 {} { traprec := own 0, tdis := true, strands := [(7, { mode := .trapped })] }
    let s := on 1 { uprec := own 64 }
    let used : State := { s with mem := [(sliceKey c0 (64 + 56), 1)] }
    (z.me.guard always = true ∧ z.cur.slot = 0 ∧ z.myCore.tdis = true ∧ (z.myCore.strand 7).mode = .trapped ∧ (z.myCore.strand 1).mode ≠ .trapped
        ∧ (on 0 {}).myCore.tdis = false)
      ∧ InSlice z c0 0 true z.myCore.traprec 128 c0 0 ∧ InSlice used c0 used.ctx used.super (used.me.uprec &&& ~~~(0x3F : Word)) 8 c0 64
      ∧ (used.sliceWord c0 64 7).getLsbD 0 = true ∧ (s.sliceWord c0 64 7).getLsbD 0 = false ∧ used.mem.wf = true := by
  unfold InSlice; decide
/-- A trapped slot that takes its fault as an upcall. -/
theorem witness_ExceptionReturns_reflect :
    let refl := on 0 {} { traprec := own 0, tdis := true, strands := [(7, { mode := .trapped, upvec := 1, uprec := own 1024 })] }
    (refl.me.guard always = true ∧ refl.cur.slot = 0 ∧ refl.myCore.tdis = true ∧ (refl.myCore.strand 7).mode = .trapped ∧ (refl.myCore.strand 7).upvec ≠ 0 ∧ refl.mem.wf = true
        ∧ (refl.sliceWord c0 1024 7).getLsbD 0 = false ∧ sliceKey c0 (0 + 1024) ≤ sliceKey c0 1024)
      ∧ InSlice refl c0 0 true refl.myCore.traprec 128 c0 0
      ∧ InSlice refl c0 refl.myCore.ctx false ((refl.myCore.strand 7).uprec &&& ~~~(0x3F : Word)) 8 c0 1024 := by
  unfold InSlice; decide

theorem witness_HaltAndDeadlines : (on 0 {}).me.guard always = true ∧ (on 0 {}).cur.slot = 0
    ∧ ((on 0 {} { reports := [{ cause := 13 }] }).core c0).reports ≠ [] ∧ ((on 0 {}).pkg 0).held3 = false
    ∧ ((on 0 {} {} { held3 := true }).pkg 0).held3 = true := by decide
theorem witness_TranslationInvalidation : (on 0 {}).me.guard always = true ∧ (on 0 {}).cur.slot = 0 ∧ (c0.crewNo = (on 0 {}).cur.core.crewNo)
    ∧ c0.crewNo / 6400 = (on 0 {}).cur.core.pkg ∧ (⟨0, 511, 199⟩ : CoreId).crewNo ≠ (on 0 {}).cur.core.crewNo := by decide
theorem witness_BattenNetwork : ((on 0 {} { halted := true }).core c0).halted = true ∧ (16383 : Nat) < 16384 ∧ (on 0 {}).mem.wf = true
    ∧ ¬ (((on 0 {}).core c0).halted = true ∨ ((on 0 {}).core c0).mcheck ≠ none) ∧ ((on 0 {}).core c0).retired = false
    ∧ ((on 0 {}).pkg 0).held3 = false ∧ ((on 0 {} {} { held3 := true }).pkg 0).held3 = true := by decide
/-- A strand whose image can be read and written again; the trap records in the slice. -/
theorem witness_BattenNetwork_strand :
    let s := on 0 {} { halted := true, traprec := own 0, strands := [(2, { live := 0xFF })] }
    (strandOfImage (imageOf ((s.core c0).strand 2) (s.ctxOf ⟨c0, 2⟩) s.freeN) (s.ctxOf ⟨c0, 2⟩)).isSome = true
      ∧ InSlice s c0 0 true (s.core c0).traprec 128 c0 0 := by
  unfold InSlice; decide

theorem witness_KeySlots :
    let s := on 0 { g := [(1, 4096), (2, 4095), (3, own 64), (4, own 8)] } {} { keys := [(5, [])] }
    (s.me.guard always = true ∧ s.cur.slot = 0 ∧ 4095 < (s.rg 1).toNat ∧ (s.rg 2).toNat ≤ 4095 ∧ (s.pkg 0).keys.has 4095 = false
        ∧ (s.pkg 0).keys.has 5 = true ∧ (s.rg 4).toNat % 64 ≠ 0 ∧ (s.rg 3).toNat % 64 = 0 ∧ (s.rg 0).toNat = 0)
      ∧ InSlice s c0 0 true (s.rg 3) 8 c0 64 := by
  unfold InSlice; decide

/-- A start message for c0 from its own slot 0. -/
def startMsg (ctx : Nat) (unit : Option Scope) (moved : Option Nat) : StartMsg :=
  ⟨⟨c0, c0, 0, 0, ctx, {}⟩, unit, false, moved, 0, 0, 64, none, none⟩
/-- All seven user slots of a core in use. -/
def full : SMap Strand := [(1, { mode := .ready }), (2, { mode := .ready }), (3, { mode := .ready }), (4, { mode := .ready }),
  (5, { mode := .ready }), (6, { mode := .ready }), (7, { mode := .ready })]

theorem witness_StrandStart :
    let s := on 0 {}
    let f := on 0 {} { strands := full }
    let q := on 0 {} { strands := full, starts := List.replicate 16 ⟨startMsg 1 none none⟩ }
    let near := on 0 {} { loadFig := [(c1.key, 0, 7)], bag := [(0, 0)] }
    (s.me.guard always = true ∧ s.cur.slot = 0 ∧ s.me.hold = .none ∧ s.pkgIn 0 0 = true ∧ c0.row < 200 ∧ (199 : BitVec 8).toNat < 200
        ∧ 200 ≤ (200 : BitVec 8).toNat ∧ (on 0 { hold := .got {} }).me.hold = .got {})
      ∧ ((s.core c0).mcheck = none ∧ (startMsg 1 none none).hdr.odd = {} ∧ s.fencedHdr (startMsg 1 none none).hdr = false ∧ ((on 0 {} { retired := true }).core c0).retired = true
        ∧ (s.core c0).retired = false ∧ (s.core c0).ctx = 1 ∧ ((s.core c0).strand 1).mode = .free)
      ∧ (∀ i, i < 8 → 1 ≤ i → ((f.core c0).strand i).mode ≠ .free) ∧ (f.core c0).starts.length < 16 ∧ 16 ≤ (q.core c0).starts.length
      ∧ near.descend c0 .crew = some c1 := by decide
theorem witness_StrandEnd :
    let z := on 0 {} { strands := [(7, { mode := .ready })] }
    (on 1 {}).me.guard always = true ∧ (on 1 {}).cur.slot ≠ 0 ∧ (on 7 {}).cur.slot < 8 ∧ (on 1 {}).myCore.starts = [] ∧ (on 0 {}).cur.slot = 0
      ∧ (z.myCore.strand 1).mode = .free ∧ (z.myCore.strand 7).mode ≠ .free ∧ (z.myCore.strand 7).offer.st = .idle := by decide

theorem witness_StrandMoves :
    let z (x : Strand) := on 0 { g := [(1, BitVec.ofNat 64 (2 ^ 63 + 2 ^ 41))] } { strands := [(2, x)] }
    let near : State := { z { mode := .ready, stalled := true } with
      cores := (z { mode := .ready, stalled := true }).cores ++ [(c1.key, { ctx := 1 })] }
    (∀ x, x ∈ [({} : Strand), { mode := .trapped }, { mode := .taken }, { mode := .ready }, { mode := .waiting, hold := .phase 40 [] }] → (z x).me.guard always = true ∧ (z x).cur.slot = 0
        ∧ (z x).me.hold = .none ∧ (z x).myCore.strand 2 = x)
      ∧ ({ mode := .waiting, hold := .phase 40 [] } : Strand).waitsAm = true
      ∧ near.strandBusy ⟨c0, 2⟩ = false ∧ near.myCore.seq = .idle ∧ near.moveTarget (near.rg 1) = some c1 ∧ c1.key ≠ c0.key
      ∧ (near.core c1).freeSlot ≠ none ∧ (near.core c1).retired = false ∧ near.pkgIn 0 c1.pkg = true ∧ (near.core c1).ctx = near.myCore.ctx
      ∧ (on 0 { hold := .got { data := [0, 2049] } }).me.hold = .got { data := [0, 2049] } ∧ strandOfGid 2049 = ⟨c1, 1⟩
      ∧ strandOfGid 2049 ≠ near.cur := by decide

theorem witness_SystemCalls :
    let h := mkHandle 7 .core .xfer false 1
    let s := on 1 { mode := .ready, e := [(0, h)] }
    let b := on 1 { mode := .ready, e := [(0, h)], binds := [(0, .data none (some 3))] } { tiles := [(3, 0x8000000000000000)] }
    (s.me.guard always = true ∧ s.me.hold = .none ∧ s.me.issued = none ∧ s.me.mode = .ready ∧ (on 1 { role := 1 }).me.role ≠ 0)
      ∧ s.myCore.offerReady [s.me.bindOf 0] = true ∧ b.myCore.offerReady [b.me.bindOf 0] = false ∧ s.me.unacked = 0 ∧ s.me.taker = none
      ∧ s.me.notices = [] ∧ (on 0 {}).cur.slot = 0 ∧ (on 0 {}).me.unacked = 0 := by decide

theorem witness_SystemCallPort :
    let m : SyscallMsg := ⟨⟨c0, c1, 1, 0, 1, {}⟩, 0, List.replicate 8 0⟩
    let s := on 0 {} {} { sys := [(0, { reqBase := 0x1000, reqLog := 4, rspBase := 0x2000, rspLog := 4 }), (1, { reqLog := 4, reqTail := 16 })] }
    let q : SysReplyMsg := ⟨c0, 1, 0, 0, [], c0⟩
    let fw := on 0 {} { forwards := [⟨1, 2, 9⟩] }
    let h := mkHandle 7 .crew .sync false 0
    let a := memKey 0 0x2000
    let ans : State := ((on 0 {} {} { sys := [(0, { rspBase := 0x2000, rspLog := 4 })] } { events :=
      [{ ev := ⟨1, .crew, 0, 7⟩, count := 2, kind := .sync, sole := false, size := 0, op := 0, fanin := 0, src := 0, map := 0, regions := [], settle := 0 }] }).writeN
        a 8 h.toNat).writeN (a + 8) 8 1
    let got : State := ans.under 0 a 128
    let e := ans.evIdOf (ans.core c0).ctx c0 h
    (m.hdr.odd = {} ∧ s.fencedHdr m.hdr = false ∧ (ringLog ((s.pkg 0).port_ 0).reqLog) = some 4 ∧ m.words.length = 8 ∧ s.mem.wf = true
        ∧ ringLog ((on 0 {}).pkg 0 |>.port_ 0).reqLog = none ∧ (((s.pkg 0).port_ 1).reqTail.toNat + 2 ^ 32 - ((s.pkg 0).port_ 1).reqHead.toNat) % 2 ^ 32 = 2 ^ 4
        ∧ ringLog ((s.pkg 0).port_ 0).rspLog = some 4 ∧ ((s.pkg 0).port_ 0).rspHead.toNat < 2 ^ 32)
      ∧ (s.core q.core).mcheck = none ∧ (s.core q.core).forwards = []
      ∧ ((fw.core q.core).forwards.find? fun f => f.old == q.gid.toNat) = some ⟨1, 2, 9⟩ ∧ fw.time q.core.pkg < 9
      ∧ (bitsN ((ans.pkg 0).port_ 0).rspBase.toNat 39 7 * 128 = 0x2000 ∧ got.readN a 8 = h.toNat ∧ got.readN (a + 8) 8 = 1 ∧ hOk h = true
        ∧ (ans.strandNow c0 1).core = c0 ∧ ans.pkgIn 0 0 = true ∧ ans.portBusy e 1 h = false
        ∧ (ans.usable (ans.homeOf c0 e) e).map (fun r => (r.kind, bitsN 1 38 32)) = some (.sync, 0))
      ∧ ((on 0 {} { mcheck := some 0xB0 }).core c0).mcheck ≠ none := by decide

/-- A word of 8 bytes put into the slice of core c0. -/
def put (s : State) (off : Nat) (v : Word) : State := s.writeN (sliceKey c0 off) 8 v.toNat
/-- An event of context 1 in the crew of core c0. -/
def ev1 : EvId := ⟨1, .crew, 0, 7⟩
/-- Its record: a SYNC of COUNT 2. -/
def rec1 : EvRec :=
  { ev := ev1, count := 2, kind := .sync, sole := false, size := 0, op := 0, fanin := 0, src := 0, map := 0, regions := [], settle := 0 }
/-- A strand's offer of it at a rank. -/
def live (slot : Nat) : LiveOffer := ⟨.strand ⟨c0, slot⟩, 0, .none, none, false, 0⟩
/-- The offer record of a strand that offers it. -/
def ofr (st : OfSt) : OfferRec := { st := st, named := [⟨0, ev1, 0, 0, false, none⟩] }
/-- Strand 1 of c0 with an offer record, and the event's record at its home. -/
def ev (r : EvRec) (o : OfferRec) : State := on 1 { mode := .waiting, offer := o } {} {} { events := [r] }

theorem witness_EventRegisters : (on 1 {}).me.guard always = true ∧ hOk ((on 1 { e := [(0, mkHandle 7 .dom .sync true 0xFFFFFF)] }).me.re 0) = true
    ∧ hKind ((on 1 { e := [(0, mkHandle 7 .dom .sync true 0xFFFFFF)] }).me.re 0) = .sync
    ∧ hKind (mkHandle 7 .core .reduce false 0) ≠ .sync ∧ hOk ((on 1 {}).me.re 0) = false := by decide

theorem witness_EventRecords :
    let h := mkHandle 7 .crew .sync false 0
    let x : Strand := { e := [(0, h)], g := [(1, 7), (2, 2), (3, own 64), (4, 64), (5, 64)] }
    let s := on 1 x
    let t := on 1 x {} {} { events := [rec1] }
    let w := s.evIdOf s.ctx c0 h
    (s.me.guard always = true ∧ evParamBad .sync false 0 0 = true ∧ evParamBad .sync false (s.rg 2) 0 = false
        ∧ evParamBad .xfer false (BitVec.ofNat 64 (2 + 4 * 2 ^ 24)) 1 = false ∧ evParamBad .xfer false (BitVec.ofNat 64 (2 + 4 * 2 ^ 24)) 2 = true)
      ∧ ((s.rg 2).toNat % 2 ^ 24 ≤ 64 ∧ (1 : Reg) ≠ 0 ∧ t.usable 0 w = some rec1 ∧ s.usable 0 w = none ∧ s.homeOf c0 (s.evIdOf s.ctx c0 (s.me.re 0)) = 0)
      ∧ s.fencedAt (crewPkg 0) s.ctx = false ∧ rec1.dying = false ∧ ({ rec1 with dying := true } : EvRec).dying = true
      ∧ w = ev1 ∧ s.homeOf c0 w = 0 ∧ (s.evRec 0 w).isSome = false ∧ (t.evRec 0 w).isSome = true ∧ s.evRec 0 w = none
      ∧ ((s.crew 0).events.filter fun r => r.inArea.isNone).length < 256
      ∧ hOk (s.me.re 0) = true ∧ t.evRec 0 w = some rec1 ∧ rec1.kind = hKind h ∧ rec1.sole = hSole h
      ∧ (s.rg 5).getLsbD 63 = false ∧ mformOk (s.rg 5) = true ∧ (s.rg 5).toNat % 64 = 0 ∧ (s.rg 4).toNat % 64 = 0 ∧ 0 < (s.rg 4).toNat
      ∧ (s.rg 4).toNat ≤ 2 ^ 40 ∧ rec1.regions.length < 4 ∧ 4 ≤ ({ rec1 with regions := List.replicate 4 (0, 0) } : EvRec).regions.length
      ∧ rec1.st ≠ .committing ∧ rec1.live = [] ∧ ({ rec1 with st := .committing } : EvRec).st = .committing
      ∧ s.rg 9 = 0 ∧ s.rg 4 ≠ 0 ∧ (s.crew 0).timers.length < 64 := by decide

theorem witness_OffersMade :
    let h := mkHandle 7 .crew .sync false 0
    let b := mkHandle 7 .crew .xfer false 1
    let s := on 1 { e := [(0, h)], g := [(1, 10000)] }
    let d := on 1 { e := [(0, b)], g := [(1, 10000)], binds := [(0, .data none (some 3))] } { tiles := [(3, 0x8000000000000000)] }
    let used := usedSlots (some 0) none none none
    let z (st : OfSt) := (ev rec1 (ofr st)).strand ⟨c0, 1⟩
    (s.me.guard always = true ∧ s.me.issued = none ∧ s.cur.slot ≠ 0 ∧ s.offerFault used (s.rg 1) = none ∧ s.me.taker = none ∧ s.me.notices = []
        ∧ s.myCore.offerReady (used.map fun p => s.me.bindOf p.2) = true ∧ d.offerFault used (d.rg 1) = none
        ∧ d.myCore.offerReady (used.map fun p => d.me.bindOf p.2) = false)
      ∧ resultOf (z (.done 3)).offer.st = some 3 ∧ resultOf (z .timedout).offer.st = some 4 ∧ (z .timedout).mode ≠ .taken
      ∧ (z .timedout).taker = none ∧ (z .timedout).offer.refused = none ∧ (z .timedout).offer.st ≠ .noticed ∧ resultOf (z .held).offer.st = none := by
  decide

theorem witness_EventEnabling :
    let m : OfferMsg := ⟨0, ev1, .strand ⟨c0, 1⟩, 0, 1, .sync, false, .none, none, false, 0⟩
    let r := { rec1 with live := [(0, live 2)] }
    (ev { rec1 with ev := ⟨2, .crew, 0, 7⟩ } (ofr .opened)).evRec 0 ev1 = none ∧ (ev r (ofr .opened)).evRec 0 ev1 = some r
      ∧ ¬ (r.sole = true ∧ r.kind = .sync ∧ 64 < r.count) ∧ r.dying = false ∧ r.st = .idle ∧ r.refusal m = none ∧ m.poll = false
      ∧ (ev r (ofr .opened)).fencedAt (crewPkg 0) 1 = false ∧ (on 1 {} {} { fenced := [1] }).fencedAt (crewPkg 0) 1 = true
      ∧ ((ev r (ofr .opened)).core c0).mcheck = none ∧ r.refusal { m with rank := 2 } = some 0x86
      ∧ ((ev r (ofr .opened)).usable 0 ev1 = some r ∧ (ev { rec1 with ev := ⟨2, .crew, 0, 7⟩ } (ofr .opened)).usable 0 ev1 = none
        ∧ ((ev r (ofr .opened)).strand ⟨c0, 1⟩).offer.serial = 0 ∧ (0 : Nat) ≠ 1)
      ∧ ((ev { r with st := .cancelled } (ofr .opened)).strand ⟨c0, 1⟩).offer.st = .opened
      ∧ ({ r with st := .settling, window := 3 } : EvRec).nextClaim = some (.strand ⟨c0, 2⟩)
      ∧ ((0, live 2) ∈ r.live ∧ (live 2).who = .strand ⟨c0, 2⟩)
      ∧ (∃ n, n ∈ ((ev r (ofr .opened)).strand ⟨c0, 1⟩).offer.named ∧ n.ev = ev1) := by decide

theorem witness_EventClaims :
    let m : ClaimMsg := ⟨0, ev1, .strand ⟨c0, 1⟩, 1, 5⟩
    let f : Claimant := ⟨1, ⟨1, .crew, 1, 9⟩, 0, 2⟩
    let e : Claimant := ⟨0, ev1, 1, 5⟩
    let heldBy (y : Claimant) : OfferRec := { ofr .held with holder := some y }
    let r := { rec1 with live := [(0, live 1), (1, live 2)], st := .claiming, attempt := 5 }
    let s := ev r (ofr .opened)
    ((s.core c0).mcheck = none ∧ (∃ n, n ∈ (s.strand ⟨c0, 1⟩).offer.named ∧ n.ev = m.ev) ∧ (s.strand ⟨c0, 1⟩).offer.st = .opened
        ∧ ((ev r (heldBy f)).strand ⟨c0, 1⟩).offer.holder = some f ∧ f.defer < m.defer ∧ ((ev r (heldBy f)).strand ⟨c0, 1⟩).offer.yielded = false)
      ∧ (∀ n, n ∈ ((ev r {}).strand ⟨c0, 1⟩).offer.named → n.ev ≠ m.ev)
      ∧ (e.home = m.home ∧ e.ev = m.ev ∧ e.attempt = m.attempt ∧ f.attempt ≠ m.attempt)
      ∧ ((heldBy e).refused = none ∧ (heldBy e).cancelReq = false ∧ (heldBy e).noticeReq = false ∧ (heldBy e).expired = false
        ∧ (heldBy e).benef = none ∧ ({ heldBy e with yielded := true } : OfferRec).yielded = true ∧ ({ heldBy e with benef := some f } : OfferRec).benef = some f)
      ∧ s.evRec 0 ev1 = some r ∧ r.st = .claiming ∧ r.attempt = m.attempt ∧ ({ r with held := [.strand ⟨c0, 1⟩] } : EvRec).nextClaim = some (.strand ⟨c0, 2⟩)
      ∧ ({ r with held := [.strand ⟨c0, 1⟩, .strand ⟨c0, 2⟩] } : EvRec).nextClaim = none ∧ (∀ p, p ∈ r.live → p.2.poll = false)
      ∧ r.waitOn = none ∧ ({ r with waitOn := some (.strand ⟨c0, 1⟩) } : EvRec).live.length = r.count
      ∧ (ev1.name.toNat < f.ev.name.toNat ∧ ({ f with defer := 1 } : Claimant).defer = m.defer)
      ∧ (({ ofr .reserved with until_ := 2048, benef := some e } : OfferRec).benef = some e ∧ f.home ≠ e.home) := by decide

theorem witness_EventOccurs :
    let r := { rec1 with live := [(0, live 1), (1, live 2)], st := .committing, occIn := [(0, live 1)] }
    let e : Claimant := ⟨0, ev1, 0, 0⟩
    let o : OfferRec := { ofr .held with holder := some e }
    let s : State := on 1 { offer := o } { strands := [(2, { offer := o })] } {} { events := [r] }
    let late : State := on 1 { offer := o, unacked := 1 } { strands := [(2, { offer := o })] } {} { events := [r] }
    s.evRec 0 ev1 = some r ∧ r.st = .committing ∧ (∀ p, p ∈ r.live → s.commits 0 r p.2 = true)
      ∧ (∀ p, p ∈ r.live → ∀ q, q ∈ r.live → (p.2.who = q.2.who → p = q) ∧ ((recCore p.2.who).key = (recCore q.2.who).key → recCore p.2.who = recCore q.2.who))
      ∧ (∃ p, p ∈ r.live ∧ (ev r o).commits 0 r p.2 = false) ∧ (∀ p, p ∈ r.occIn → s.acked p.2.who = true)
      ∧ (∃ p, p ∈ r.occIn ∧ late.acked p.2.who = false) ∧ r.kind ≠ .reduce ∧ ({ r with kind := .reduce } : EvRec).kind = .reduce
      ∧ r.parts.has 1 = false ∧ treeKids r.fan r.count 1 = [] ∧ treeKids r.fan r.count 0 = [1]
      ∧ (({ r with live := [] } : EvRec).live = [] ∧ r.count ≠ 0 ∧ r.cancelLater = false ∧ r.dying = false ∧ s.mem.wf = true)
      ∧ (r.live.length = r.count ∧ (∀ p, p ∈ r.live → (s.core (recCore p.2.who)).mcheck = none) ∧ ({ r with live := [(0, live 1)] } : EvRec).live.length ≠ r.count) := by decide
/-- An occurrence of XFER whose data goes to a tile of strand 1's core. -/
theorem witness_EventOccurs_data :
    let n : Named := ⟨0, ev1, 0, 0, false, some (.data none (some 3))⟩
    let o : OfferRec := { st := .done 0, named := [n] }
    let r := { rec1 with kind := .xfer, size := 8, st := .committing, occIn := [(1, ⟨.strand ⟨c0, 1⟩, 0, .none, some (c0, 256), false, 0⟩)] }
    let s := ev r o
    s.evRec 0 ev1 = some r ∧ r.live = [] ∧ r.kind ≠ .sync ∧ (s.rankBytes r r.src).length ≤ 8 ∧ n ∈ (s.strand ⟨c0, 1⟩).offer.named ∧ bindDest n.bind = some 3
      ∧ (s.core c0).mcheck = none ∧ 256 + 8 ≤ 131072 ∧ s.mem.wf = true := by decide

/-- A deadline at an open and a held record; a notice at a ready strand and at one that waits in an offer; a timer before and at its tick. -/
theorem witness_OffersEnd :
    let o : OfferRec := { ofr .opened with deadline := some 9 }
    let w := on 1 { mode := .waiting, offer := o, hold := .phase 0 [], uprec := own 64 }
    let tm : Timer := ⟨ev1, c0, none, 5, 0⟩
    let c := on 1 {} {} { time := 5 } { timers := [tm] }
    (o.deadline = some 9 ∧ o.st = .opened ∧ ({ o with st := .held } : OfferRec).st = .held ∧ ((on 1 { mode := .ready }).strand ⟨c0, 1⟩).offer.st = .idle)
      ∧ (w.strand ⟨c0, 1⟩).hold = .phase 0 [] ∧ InSlice w c0 (w.ctxOf ⟨c0, 1⟩) false ((w.strand ⟨c0, 1⟩).uprec &&& ~~~(0x3F : Word)) 8 c0 64
      ∧ (w.sliceWord c0 64 7).getLsbD 0 = false ∧ ((c.crew 0).timers.find? fun t => t.ev == ev1) = some tm ∧ tm.expiry ≤ c.time 0
      ∧ (on 1 {} {} { time := 4 }).time 0 < tm.expiry ∧ (c.core c0).hwrecs = [] ∧ (c.core c0).mcheck = none ∧ o.round = none := by
  unfold InSlice; decide

/-- vadd.s32 of tiles 1 and 2 with shape record h0 in the slice: 32 elements in one dimension. -/
theorem witness_VectorIssue :
    let o : VOps := { dst := .tile 0, a := .tile 1, b := .tile 2, c := .none, shape := 0 }
    let i : Instr := .vadd always .s32 o
    (∃ k, vecOf i = some (k, .s32, o)) ∧ guardOf i = some always ∧ (on 1 {}).me.guard always = true ∧ (on 1 {}).myCore.seq = .idle
      ∧ (on 1 {} { seq := .looping 2 1 0 }).myCore.seq ≠ .idle ∧ (on 1 {} { seq := .capturing 1 }).myCore.seq = .capturing 1
      ∧ (on 1 {}).myCore.vbuf.length < 16 ∧ 16 ≤ (on 1 {} { vbuf := List.replicate 16 ⟨i, 1, 1, 1, 0, [], [], [], [], none, 0, none, false⟩ }).myCore.vbuf.length := by
  exact ⟨⟨_, rfl⟩, by decide⟩

theorem witness_VectorSequencer :
    let x : Cmd := ⟨.nop always, 1, 1, 1, 0, [], [], [], [], none, 0, none, false⟩
    let s := on 1 {} { vbuf := [x] }
    (s.me.guard always = true ∧ s.myCore.seq = .idle ∧ (on 1 {} { seq := .capturing 1 }).myCore.seq = .capturing 1
        ∧ (on 1 {} { seq := .looping 1 2 0 }).myCore.seq = .looping 1 2 0)
      ∧ (s.core c0).vcur = none ∧ (s.core c0).mcheck = none ∧ (s.core c0).vbuf = x :: [] ∧ x.replay = 0
      ∧ ((on 1 {} { seq := .looping 1 1 0, run := [x] }).core c0).run = x :: [] := by decide

/-- A tile entry: STATE, FMT and BASE, shape record h0. -/
def ent (st fmt base : Nat) : Word := BitVec.ofNat 64 (st * 2 ^ 62 + fmt * 2 ^ 51 + base * 2 ^ 34)
/-- Shape record h0 of core c0 written: n elements in one dimension. -/
def sized (s : State) (n : Nat) : State := put s 0x1F008 (BitVec.ofNat 64 n)
/-- Shape record h0 of core c0 written: 16 by 16. -/
def square (s : State) : State := put (put (put s 0x1F000 0x20) 0x1F008 0x100010) 0x1F010 16
/-- Operands of vadd: tiles 1 and 2 into tile 0. -/
def vo : VOps := { dst := .tile 0, a := .tile 1, b := .tile 2, c := .none, shape := 0 }
/-- A vadd.s32 that runs. -/
def vcmd : Cmd := ⟨.vadd always .s32 vo, 1, 1, 1, 0, [.tile 0], [[.tile 1], [.tile 2], []], [], [[0, 1, 0, 0, 0, 0, 0, 0]], none, 0, none, false⟩

theorem witness_VectorCompletion :
    let s := on 1 {} { vcur := some vcmd, tiles := [(0, ent 1 0 0), (1, ent 2 0 256), (2, ent 2 0 512)] }
    let h : Shape := ⟨0, 1, (1, 1, 1, 1), (0, 0, 0), false, 0, 0, 0, 0⟩
    (s.core c0).vcur = some vcmd ∧ (s.core c0).mcheck = none ∧ vecOf vcmd.instr = some (.add, .s32, vo)
      ∧ shapeOf (vcmd.shapes.headD []) = some h ∧ (opTile (.tile 0)).isSome = true ∧ vcmd.slot < 8
      ∧ (vCompute .add .s32 vo h [[0x7FFFFFFF]] [1] []).1 = [[0x80000000]]
      ∧ VTy.fmt .s32 = none ∧ (0xFFFFFFFF : Nat) < 2 ^ VTy.s32.width ∧ VTy.isS .n8 = false := by decide

/-- Operands of tmma: plane tiles 1 and 2 into the 32 by 32 tile 0. -/
def tmo : TOps := { dst := .tile 0, a := .tile 1, b := .tile 2, c := .none }
/-- tmma of tiles of two planes. -/
def mma : Instr := .tmma always ⟨1, true⟩ ⟨1, true⟩ false false tmo

/-- A plan as numbers: 0 ready, 1 not ready, or the fault and the marked tile. -/
def kindOf : TPlan → Nat × Option Nat
  | .ok b _ _ _ _ _ => (if b then 0 else 1, none)
  | .bad e m => (e, m)

/-- tzero of an accumulator block: EMPTY, READY with the queue full, marked, and of a format that is none. -/
theorem witness_TensorIssue :
    let o : TOps := { dst := .tile 0, a := .none, b := .none, c := .none }
    let s (t : Word) := square (on 1 { g := [(1, own 0)] } { tiles := [(0, t)] })
    let cmd : Cmd := ⟨mma, 1, 1, 1, 0, [], [], [], [], none, 0, none, false⟩
    let planOf (t : Word) := (s t).tPlan c0 (.zero 0) o 0 0 0
    (s 0).me.guard always = true ∧ tenOf (.tzero always 0 o) = some (.zero 0, o) ∧ guardOf (.tzero always 0 o) = some always
      ∧ 2 ≤ (on 1 {} { mq := [cmd, cmd] }).myCore.mq.length ∧ (s 0).myCore.mq.length < 2
      ∧ kindOf (planOf (ent 0 13 0)) = (0, none) ∧ kindOf (planOf (ent 1 13 0)) = (1, none)
      ∧ kindOf (planOf (ent 0 15 0)) = (0x51, none) ∧ kindOf (planOf (ent 0 13 0 ||| 0x2000000000000000)) = (0x53, some 0)
      ∧ (s 0).me.hold = .none ∧ ((s 0).rg 2).getLsbD 63 = false ∧ ((s 0).rg 1).getLsbD 63 = true
      ∧ (s 0).sliceOf (s 0).cur.core ((s 0).rg 1) = some (c0, 0)
      ∧ (on 1 { hold := .got { status := .nack, inner := 6 } }).me.hold = .got { status := .nack, inner := 6 } := by decide

/-- A capability: its check over its low bits. -/
theorem cap_parts (t : BitVec 16) (low : BitVec 48) : (t ++ low).extractLsb' 0 48 = low ∧ (t ++ low).extractLsb' 48 16 = t := by
  constructor <;> (ext i hi; simp only [BitVec.getElem_extractLsb', BitVec.getLsbD_append]; simp [BitVec.getLsbD_eq_getElem, hi]; try omega)

/-- A capability for tiles 1 to 3 with the right to tzero, from the first tick to the last of its life, and one with a wrong check; the
target's states. -/
theorem witness_MatrixEngine :
    let z : TOps := { dst := .tile 0, a := .none, b := .none, c := .none }
    let cmd : Cmd := ⟨.tzero always 0 z, 1, 1, 1, 0, [.tile 0], [[], [], []], [0, 0, 0, 0], [[0x20, 0x100010, 16, 0, 0, 0, 0, 0], [], []], none, 0, none, false⟩
    let s := square (on 1 {} { mcur := some cmd, tiles := [(0, ent 1 13 0)] })
    let q := on 1 {} { mq := [cmd] }
    let view := (s.opView c0 [.tile 0] (cmd.shapes.getD 0 [])).getD ⟨0, 0, 0, 0, 0, 0⟩
    let fine : State × Except (Nat × Word) (List (Nat × Nat × Nat) × Nat) → Bool := fun r => match r.2 with | .ok _ => true | .error _ => false
    let low : BitVec 48 := (1 : TReg) ++ (3 : TReg) ++ (4 : BitVec 3) ++ (1 : BitVec 33)
    let low5 : BitVec 48 := (2 : TReg) ++ (3 : TReg) ++ (4 : BitVec 3) ++ (1 : BitVec 33)
    let cap (low : BitVec 48) : Word := q.capTagOf c0 1 low ++ low
    let wrong : Word := (q.capTagOf c0 1 low + 1) ++ low
    let m (cap : Word) : TmxMsg := ⟨⟨c0, c1, 1, 0, 1, {}⟩, 0, cap, .zero 1 0⟩
    let r := square (on 1 {} { remote := [m (cap low)], tiles := [(1, ent 0 13 0)] })
    let f := on 1 {} { remote := [m (cap low)] }
    (q.core c0).mq = cmd :: [] ∧ (q.core c0).mcur = none ∧ (q.core c0).mcheck = none ∧ (s.core c0).mcur = some cmd
      ∧ tenOf cmd.instr = some (.zero 0, z) ∧ cmd.slot < 8 ∧ fine (s.tCompute c0 (.zero 0) view view view false false cmd.scal cmd.ctx) = true
      ∧ (q.core c0).retired = false ∧ (q.core c0).ctx = (m (cap low)).hdr.ctx
      ∧ q.capTagOf c0 1 ((cap low).extractLsb' 0 48) = (cap low).extractLsb' 48 16
      ∧ q.capTagOf c0 1 (wrong.extractLsb' 0 48) ≠ wrong.extractLsb' 48 16
      ∧ (∀ c, c.extractLsb' 0 48 = low → capLive c (q.time 0) = true ∧ (c.extractLsb' 42 6).toNat = 1 ∧ (c.extractLsb' 36 6).toNat = 3 ∧ c.getLsbD 35 = true)
      ∧ (low5.extractLsb' 42 6).toNat = 2 ∧ ((4 : BitVec 3).getLsbD 1 = false) ∧ capLive 0 0 = false
      ∧ (q.core c0).remote.length < 4 ∧ (r.core c0).remote = m (cap low) :: [] ∧ tenOf (tmxInstr (.zero 1 0)) = some (.zero 0, { z with dst := .tile 1 })
      ∧ kindOf (r.tPlan c0 (.zero 0) { z with dst := .tile 1 } 0 0 0) = (0, none)
      ∧ kindOf (f.tPlan c0 (.zero 0) { z with dst := .tile 1 } 0 0 0) = (0x50, none) ∧ tmxTiles (.zero 1 0) = 1 :: [] := by
  intro z cmd s q view fine low low5 cap wrong m r f
  refine ⟨by decide, by decide, by decide, by decide, by decide, by decide, by decide, by decide, by decide, ?_, ?_, ?_, by decide, by decide,
    by decide, by decide, rfl, by decide, ?_, ?_, by decide⟩
  · rw [(cap_parts _ low).1, (cap_parts _ low).2]
  · rw [(cap_parts _ low).1, (cap_parts _ low).2]
    intro h
    have := congrArg BitVec.toNat h
    rw [BitVec.toNat_add] at this
    simp at this
    omega
  · intro c h
    have e : c.toNat % 2 ^ 48 = 0x43800000001 := by have := congrArg BitVec.toNat h; simpa [low] using this
    have d : (q.time 0) = 0 := rfl
    refine ⟨?_, ?_, ?_, ?_⟩
    · simp only [capLive, bitsN, d, Bool.and_eq_true, decide_eq_true_eq]; omega
    · simp [Nat.shiftRight_eq_div_pow]; omega
    · simp [Nat.shiftRight_eq_div_pow]; omega
    · simp [BitVec.getLsbD, Nat.testBit_eq_decide_div_mod_eq]; omega
  · decide
  · decide

/-- A leaf of frame 1 of package 0 under key 0 that a user strand may write, and one that it may read only. -/
def leafW1 : Word := 0x100000029
def leafR1 : Word := 0x100000021
/-- A leaf of that frame whose lines a user strand may run. -/
def leafX1 : Word := 0x100000031
/-- A strand of c0 whose data TLB holds a leaf for the page at 0x10000; package 0 has key 0, c1 serves context 1 too. -/
def mapped (leaf : Word) (x : Strand) (w : Crew := {}) (slot : Nat := 1) : State :=
  let s := on slot x { dtlb := [⟨1, 1, 5, leaf, none⟩] } { keys := [(0, [])] } w
  { s with cores := s.cores ++ [(c1.key, { ctx := 1 })] }
/-- Addresses of every kind: package memory, the own slice, one of bad form, a misaligned one, c1's slice, an unmapped page, no core's slice. -/
def places : SMap Word := [(1, 0x10000), (2, own 0), (3, 0x4000000000000000), (4, own 1), (5, BitVec.ofNat 64 (2 ^ 63 + 2 ^ 41)), (6, 0x20000),
  (7, BitVec.ofNat 64 (2 ^ 63 + 200 * 2 ^ 33)), (8, own 64), (9, own 32), (10, own 0x1FFE0)]
/-- The location of 0x10000. -/
def loc1 (leaf : Word) : Xlat := ⟨0, 0x10000, 0, leaf, 5, 1, 0x10000, none⟩
/-- A line of the crew cache. -/
def cline (dirty : Bool) (w : List Nat) : CLine := ⟨List.replicate 64 0, if dirty then 1 else 0, w, 0, (1, 0x10000), none⟩
/-- Address g[r] + 0. -/
def ma (r : Reg) : MAddr := ⟨r, 0, 0⟩

/-- A result that is a failure with a code. -/
def fails {α : Type} (r : Except Nat α) (e : Nat) : Bool := match r with | .error d => d == e | .ok _ => false
theorem fails_eq {α : Type} {r : Except Nat α} {e : Nat} (h : fails r e = true) : r = .error e := by
  cases r <;> simp_all [fails]

theorem reaches_write : Reaches (mapped leafW1 { g := places }) .w 0x10000 (loc1 leafW1) :=
  ⟨by decide, by decide, ⟨⟨1, 1, 5, leafW1, none⟩, by decide, by decide⟩, by decide, by decide, by decide, by decide, by decide, by decide, by decide, by decide, by decide⟩
theorem reaches_read : Reaches (mapped leafR1 { g := places }) .r 0x10000 (loc1 leafR1) :=
  ⟨by decide, by decide, ⟨⟨1, 1, 5, leafR1, none⟩, by decide, by decide⟩, by decide, by decide, by decide, by decide, by decide, by decide, by decide, by decide, by decide⟩
theorem own_slice : OwnSlice (mapped leafW1 { g := places }) (own 0) 0 := ⟨by decide, by decide, by decide, by decide⟩

/-- Each kind of address; the own slice and the home are reached (own_slice, reaches_write, reaches_read). -/
theorem witness_LoadsAndStores :
    let s := mapped leafW1 { g := places }
    let bare := on 1 { g := places } { dtlb := [⟨1, 1, 5, leafW1, none⟩] }
    let held := mapped leafW1 {} { lines := [(lineNo 0 0x10000, cline false [])] }
    (s.me.guard always = true ∧ mformOk (s.ea (ma 3) 3) = false ∧ mformOk (s.ea (ma 4) 3) = true ∧ (s.ea (ma 4) 3).toNat % Sz.d.bytes ≠ 0
        ∧ s.me.hold = .none ∧ (s.ea (ma 7) 3).toNat % Sz.d.bytes = 0 ∧ (s.ea (ma 7) 3).getLsbD 63 = true ∧ s.sliceOf c0 (s.ea (ma 7) 3) = none
        ∧ s.ea (ma 1) 3 = 0x10000 ∧ s.ea (ma 2) 3 = own 0)
      ∧ (s.translate c0 s.ctx false 0x20000).2 = .error 0x61 ∧ (bare.translate c0 bare.ctx false 0x20000).2 = .error 0x67
      ∧ (∃ e, tlbFind bare.myCore.dtlb bare.ctx 0x10000 (bare.time 0) = some e ∧ bare.checkLoc bare.super .r (xlatOf e 0x10000) = some 0x67)
      ∧ (c1 ≠ s.cur.core ∧ s.sliceOf c0 (s.ea (ma 5) 3) = some (c1, 0) ∧ s.sliceAllowed s.super s.ctx c1 = true
        ∧ s.myCore.busyLine (sliceKey c1 0 / 64 + 1) = false ∧ (s.ea (ma 5) 3).getLsbD 63 = true ∧ mformOk (s.ea (ma 5) 3) = true)
      ∧ (held.crew held.cur.core.crewNo).lines.has (lineNo 0 0x10000) = true ∧ (s.crew s.cur.core.crewNo).lines.has (lineNo 0 0x10000) = false
      ∧ (s.crew s.cur.core.crewNo).lines.length < 4096 ∧ s.me.unacked = 0 ∧ (on 1 { unacked := 1 }).me.unacked ≠ 0
      ∧ Scope.crew.inCrew = true ∧ Scope.reach.inCrew = false
      ∧ (mapped leafW1 { hold := .got { data := [5] } }).me.hold = .got { data := [5] } ∧ ([5] : List Word).length ≠ 8
      ∧ (mapped leafW1 { hold := .got { status := .nack, cause := 4 } }).me.hold = .got { status := .nack, cause := 4 }
      ∧ (let own := (s.pkg 0).keys.get [] 0; s.seals.get own (memKey 0 0x10000 / 64) = own
        ∧ ({ s with seals := [(memKey 0 0x10000 / 64, [1])] } : State).seals.get own (memKey 0 0x10000 / 64) ≠ own ∧ s.mem.wf = true) := by
  intro s bare held
  exact ⟨by decide, fails_eq (by decide), fails_eq (by decide), ⟨⟨1, 1, 5, leafW1, none⟩, by decide⟩, by decide⟩

theorem witness_AtomicsAndCaches :
    let s := mapped leafW1 { g := places }
    let busy := on 1 { unacked := 1 }
    let dirty := mapped leafW1 {} { lines := [(lineNo 0 0x10000, cline true [0])] }
    (s.me.guard always = true ∧ s.me.hold = .none ∧ s.rg 2 + (0 : Imm48).signExtend 64 = own 0 ∧ (own 0).toNat % Sz.d.bytes = 0
        ∧ (1 : BitVec 2).getLsbD 1 = false ∧ Scope.pkg.inCrew = false ∧ (s.crew 0).lines.has (lineNo 0 0x10000) = false)
      ∧ (255 : Nat) < 2 ^ (8 * Sz.b.bytes) ∧ busy.pathsDone 1 = false ∧ s.pathsDone 0x1F = true ∧ (s.crew 0).comb = []
      ∧ ((dirty.crew dirty.cur.core.crewNo).lines = [(lineNo 0 0x10000, cline true [0])] ∧ (cline true [0]).dirty = true
        ∧ (cline true [0]).writers.contains c0.local_ = true ∧ (dirty.pkg (lineNo 0 0x10000 / 2 ^ 34)).wakes = []
        ∧ (dirty.pkg (lineNo 0 0x10000 / 2 ^ 34)).keys.has 0 = true
        ∧ (let gone := on 1 {} {} {} { lines := [(lineNo 0 0x10000, cline true [0])] }
           gone.me.guard always = true ∧ gone.me.hold = .none ∧ gone.pathsDone 0x1F = true
           ∧ (gone.crew 0).lines = [(lineNo 0 0x10000, cline true [0])] ∧ (gone.pkg (lineNo 0 0x10000 / 2 ^ 34)).keys.has 0 = false))
      ∧ s.myCore.busyLine (memKey 0 0x10000 / 64 + 1) = false
      ∧ (s.ea (ma 5) 0).getLsbD 63 = true ∧ mformOk (s.ea (ma 5) 0) = true ∧ s.sliceOf c0 (s.ea (ma 5) 0) = some (c1, 0)
      ∧ s.sliceAllowed s.super s.ctx c1 = true ∧ (s.ea (ma 7) 0).getLsbD 63 = true ∧ s.sliceOf c0 (s.ea (ma 7) 0) = none
      ∧ (s.translate c0 s.ctx false 0x20000).2 = .error 0x61 ∧ mformOk (s.ea (ma 6) 0) = true ∧ (s.ea (ma 6) 0).getLsbD 63 = false
      ∧ (let held (b : Byte) := on 1 {} { itlb := [⟨1, 1, 5, leafX1, none⟩] } { keys := [(0, [])] }
           { lines := [(lineNo 0 0x10000, { cline true [0] with bytes := b :: List.replicate 63 0 })] }
         ((held 0).core c0).icache.any (fun l => l.ctx == (held 0).ctxOf ⟨c0, 1⟩ && l.line == 0x10000 / 64) = false
          ∧ (held 0).waitsAt c0 1 0x10000 = false ∧ (held 1).waitsAt c0 1 0x10000 = false
          ∧ (held 0).lineBytes c0 1 false 0x10000 false = (held 0, .ok (0 :: List.replicate 63 0))
          ∧ (held 1).lineBytes c0 1 false 0x10000 false = (held 1, .ok (1 :: List.replicate 63 0))
          ∧ (held 1).lineBytes c0 1 false 0x10000 true = (held 1, .ok (1 :: List.replicate 63 0))
          ∧ parityOk (0 :: List.replicate 63 0) = true ∧ parityOk (1 :: List.replicate 63 0) = false) := by
  intro s busy dirty
  refine ⟨by decide, by decide, by decide, by decide, by decide, by decide, by decide, by decide, by decide, by decide, by decide, by decide,
    by decide, fails_eq (by decide), by decide, by decide, ?_⟩
  refine ⟨by decide, by decide, by decide, ?_, ?_, ?_, by decide, by decide⟩ <;> rfl

/-- A tile that is EMPTY, one READY with a reader and one FILLING; a ring of which a slot is filled, and one that is free. -/
theorem witness_TilesAndRings :
    let s := on 1 {} { tiles := [(1, ent 2 0 0), (2, ent 1 0 0)], readers := [(1, 1)] }
    let r : Ring := ⟨3, 2, 1, 0, 1, 1⟩
    let k := (s.myCore.setRing 1 r).setRing 2 ⟨3, 2, 0, 1, 0, 1⟩
    (s.me.guard always = true ∧ tileSt (s.myCore.tile 0) = 0 ∧ s.myCore.readersOf 0 = 0 ∧ s.myCore.readersOf 1 ≠ 0
        ∧ tileSt (s.myCore.tile 2) = 1 ∧ (15 * 2 ^ 22) / 2 ^ 22 % 32 = 15)
      ∧ k.ring 1 = r ∧ r.filled + r.free = r.size ∧ (k.ring 2).filled + (k.ring 2).free ≠ (k.ring 2).size
      ∧ r.size - r.filled - r.free < 1 ∧ 1 ≤ (k.ring 2).size - (k.ring 2).filled - (k.ring 2).free ∧ (k.ring 0).size = 0
      ∧ (1 ≤ r.filled ∧ (List.range 1).map (fun j => r.first + (r.head + j) % r.size) = [4] ∧ k.readersOf 4 = 0) ∧ r.filled < 2
      ∧ (2 ^ 45 - 1) / 2 ^ 28 % 2 ^ 17 = (2 ^ 45 - 1 : Nat) / 2 ^ 28 := by decide

/-- Tiles EMPTY and READY, of FMT 15, marked and out of program space; a queue of two; a copy from and to a slice. -/
theorem witness_CopyCommands :
    let cmd : CopyCmd := ⟨.cp always .inn .core 0 (ma 8), 1, 1, 1, false, 0, own 64, 0, 8, 0, [0, 8, 0, 0, 0, 0, 0, 0], [], false, 0, none, [], none⟩
    let s (t : Word) := sized (on 1 { g := places } { tiles := [(0, t)] }) 8
    let q := sized (on 1 {} { copies := [cmd], tiles := [(0, ent 1 0 0)] }) 8
    let d := on 1 {} { copies := [{ cmd with started := true }] }
    let ws := (s 0).shapeWords c0 0
    (mformOk ((s 0).rg 3) = false ∧ mformOk ((s 0).rg 2) = true ∧ ((s 0).rg 4).toNat % 8 ≠ 0 ∧ ((s 0).rg 9).toNat % 8 = 0
        ∧ ((s 0).rg 9).toNat % 64 ≠ 0 ∧ ((s 0).rg 8).toNat % 64 = 0 ∧ ((s 0).rg 1).getLsbD 63 = false ∧ ((s 0).rg 2).getLsbD 63 = true)
      ∧ tileFmt (ent 0 15 0) = 15 ∧ tileMark (ent 0 0 0 ||| 0x2000000000000000) = true ∧ tileFmt (ent 0 0 0) ≠ 15 ∧ tileMark (ent 0 0 0) = false
      ∧ tileBytes (ent 0 0 0) ws = some (8, 0) ∧ 0x1E000 < tileBase (ent 0 0 0x1E000) + 8 ∧ ¬ 0x1E000 < tileBase (ent 0 0 0) + 8
      ∧ 0x20000 < (own 0x1FFF9).toNat % 2 ^ 17 + 8 + 0 ∧ tileSt (ent 0 0 0) = 0 ∧ tileSt (ent 2 0 0) = 2
      ∧ 2 ≤ ((on 1 {} { copies := [cmd, cmd] }).myCore.copies.filter fun y => !y.started).length ∧ (s 0).myCore.copies = []
      ∧ ((q.core c0).mcheck = none ∧ copyOf cmd.instr = some (.inn, .core, 0) ∧ (q.core c0).copies.find? (fun x => !x.started) = some cmd
        ∧ [0, 1].find? (fun p => !((q.core c0).copies.any fun x => x.started && x.place == p)) = some 0
        ∧ (tileBytes ((q.core c0).tile 0) cmd.shape).isSome = true
        ∧ tileFmt (ent 1 13 0) = 13)
      ∧ (d.core c0).copies.find? (fun x => x.started && x.place == 0) = some { cmd with started := true } ∧ d.mem.wf = true
      ∧ InSlice d c0 cmd.ctx cmd.super cmd.addr (cmd.data / 8) c0 64 := by
  unfold InSlice; decide

/-- Four nodes of c0 at 0, 64, 128 and 192, the principal ports of each pair wired and their first auxiliary ports too. -/
def nets (x : Strand) (k : Core := {}) : State :=
  let wires : List (Nat × Word) := [(8, own 64 + 4), (72, own 0 + 4), (136, own 192 + 4), (200, own 128 + 4),
    (16, own 65 + 4), (80, own 1 + 4), (144, own 193 + 4), (208, own 129 + 4)]
  wires.foldl (fun s w => put s w.1 w.2) (on 1 x k)

/-- A port name of good form. -/
abbrev portForm (m : Word) : Prop := m.toNat / 4 % 8 = 0 ∧ m.toNat % 4 ≠ 3 ∧ (m.getLsbD 63 = false ∨ m.getLsbD 62 = false)
/-- Two words of memory that do not overlap. -/
abbrev apart (p q : Nat) : Prop := p + 8 ≤ q ∨ q + 8 ≤ p

/-- A node and port names out of form; a pool never defined, one exhausted, one with slots to carve and one with a slot on its list; ports
wired pairwise. -/
theorem witness_NetNodes :
    let s := nets { g := [(1, own 1), (2, own 129), (3, own 0), (4, own 128), (5, own 64), (6, own 4), (7, own 8), (8, own 3), (9, 0xC000000000000000)] }
    let carve := put (put s (poolOff 0) (own 64)) (poolOff 0 + 0x10) 0x100000002
    let full := put s (poolOff 0 + 0x10) 0x200000002
    let listed := put carve (poolOff 0 + 8) (own 256)
    (s.me.guard always = true ∧ s.me.hold = .none ∧ (s.rg 6).toNat % 64 ≠ 0 ∧ (s.rg 5).toNat % 64 = 0 ∧ (s.rg 7).toNat % 32 ≠ 0
        ∧ (s.rg 9).getLsbD 63 = true ∧ (s.rg 9).getLsbD 62 = true ∧ (s.rg 3).toNat % 32 = 0 ∧ (s.rg 3).getLsbD 62 = false)
      ∧ (s.sread c0 (poolOff 0 + 0x10) 4 = 0 ∧ full.sread c0 (poolOff 0 + 0x10) 4 = 2 ∧ full.sread c0 (poolOff 0 + 0x14) 4 = 2
        ∧ full.sread c0 (poolOff 0 + 8) 8 = 0 ∧ carve.sread c0 (poolOff 0 + 0x10) 4 = 2 ∧ carve.sread c0 (poolOff 0 + 0x14) 4 = 1
        ∧ carve.sread c0 (poolOff 0) 8 + 32 * 1 = (own 96).toNat ∧ carve.mem.wf = true ∧ listed.sread c0 (poolOff 0 + 8) 8 = (own 256).toNat)
      ∧ InSlice carve c0 carve.ctx carve.super (own 96) 4 c0 96 ∧ InSlice listed c0 listed.ctx listed.super (own 256) 4 c0 256
      ∧ InSlice s c0 s.ctx s.super (s.rg 3 + BitVec.ofNat 64 (8 * 3)) 1 c0 24
      ∧ s.me.unacked = 0 ∧ s.mem.wf = true ∧ (∀ p, p ∈ (s.crew 0).lines → p.2.dirty = false) ∧ (on 1 { unacked := 1 }).me.unacked ≠ 0
      ∧ (portForm (s.rg 1) ∧ portForm (s.rg 2) ∧ s.rg 1 ≠ s.rg 2 ∧ ¬ portForm (s.rg 8) ∧ ¬ portForm (s.rg 6))
      ∧ InSlice s c0 s.ctx s.super (portAddr (s.rg 1)) 1 c0 16 ∧ InSlice s c0 s.ctx s.super (portAddr (s.rg 2)) 1 c0 144
      ∧ (portTag (s.sliceWord c0 16 0) = 1 ∧ portName (s.sliceWord c0 16 0) = own 65 ∧ portIdx (own 65) ≠ 3 ∧ portIdx (s.rg 2) ≠ 0
        ∧ portTag (s.sliceWord c0 144 0) = 1 ∧ portName (s.sliceWord c0 144 0) = own 193 ∧ s.sliceWord c0 80 0 = s.rg 1 + 4
        ∧ s.sliceWord c0 208 0 = s.rg 2 + 4 ∧ portName (s.sliceWord c0 16 0) ≠ s.rg 2)
      ∧ InSlice s c0 s.ctx s.super (portAddr (own 65)) 1 c0 80 ∧ InSlice s c0 s.ctx s.super (portAddr (own 193)) 1 c0 208
      ∧ (apart (sliceKey c0 16) (sliceKey c0 144) ∧ apart (sliceKey c0 16) (sliceKey c0 80) ∧ apart (sliceKey c0 144) (sliceKey c0 80)
        ∧ apart (sliceKey c0 16) (sliceKey c0 208) ∧ apart (sliceKey c0 144) (sliceKey c0 208) ∧ apart (sliceKey c0 80) (sliceKey c0 208))
      ∧ (portForm (s.rg 3) ∧ portForm (s.rg 4) ∧ portTag (s.sliceWord c0 8 0) = 1 ∧ portName (s.sliceWord c0 8 0) = own 64
        ∧ portIdx (own 64) = 0 ∧ portIdx (s.rg 4) = 0 ∧ s.sliceWord c0 72 0 = s.rg 3 + 4 ∧ s.pairOwner (s.rg 4, own 64) = c0 ∧ s.myCore.bag.length < 512)
      ∧ InSlice s c0 s.ctx s.super (portAddr (s.rg 3)) 1 c0 8 ∧ InSlice s c0 s.ctx s.super (portAddr (s.rg 4)) 1 c0 136
      ∧ InSlice s c0 s.ctx s.super (portAddr (own 64)) 1 c0 72
      ∧ s.pairOwner (BitVec.ofNat 64 (2 ^ 63 + 2 ^ 41), BitVec.ofNat 64 (2 ^ 63 + 2 ^ 41 + 32)) = c1 ∧ c1 ≠ c0 := by
  intro s carve full listed
  and_intros <;> decide

/-- A strand of ROLE interaction with nothing in its bag, and with a pair whose rule its cache holds; a core whose strand waits on the bag. -/
theorem witness_NetWork :
    let s := on 1 { role := 1, g := [(1, 1)] } { rulebase := own 4096 + 4 }
    let b := on 1 { role := 1 } { rulebase := own 4096 + 4, bag := [(own 64, own 0)], rules := [(0, [0x4001000000, 0])] }
    let w := on 0 {} { strands := [(1, { mode := .waiting, hold := .phase 30 [] })], bag := [(own 0, own 64)] }
    let m (ctx : Nat) : PairMsg := ⟨⟨c0, c1, 1, 0, ctx, {}⟩, [(own 0, own 64)]⟩
    let two : State := { b with cores := b.cores ++ [((neighbour c0 .pcol).key, { ctx := 1 })] }
    (s.me.guard always = true ∧ s.me.hold = .none ∧ s.me.role = 1 ∧ (on 1 {}).me.role ≠ 1 ∧ (on 1 {} { rulebase := 3 }).myCore.rulebase.toNat % 32 < 4
        ∧ 20 < (on 1 {} { rulebase := 21 }).myCore.rulebase.toNat % 32 ∧ s.myCore.rulebase.toNat % 32 = 4 ∧ s.me.taker = none ∧ s.me.notices = []
        ∧ s.cur.slot ≠ 0 ∧ s.myCore.bag = [] ∧ s.myCore.spillTail ≤ s.myCore.spillHead)
      ∧ (b.myCore.bag = (own 64, own 0) :: [] ∧ (b.myCore.popped + 1) % 256 ≠ 0 ∧ b.myCore.rules.find? (fun e => e.1 == 0) = some (0, [0x4001000000, 0]))
      ∧ InSlice b c0 b.ctx b.super (own 64) 1 c0 64 ∧ InSlice b c0 b.ctx b.super (own 0) 1 c0 0 ∧ nodeType (b.sliceWord c0 64 0) = 0
      ∧ (∃ i j r, ruleOf 0x4001000000 0 = .ok (i, j, r) ∧ r.kind = 0)
      ∧ ((two.core (neighbour c0 .pcol)).retired = false ∧ (two.core (neighbour c0 .pcol)).ctx = two.ctx ∧ (two.core (neighbour c0 .pcol)).bag.length < 512
        ∧ two.myCore.bag ≠ [] ∧ (s.core (neighbour c0 .pcol)).ctx ≠ s.ctx ∧ (s.rg 1).toNat ≠ 0 ∧ b.myCore.bag ≠ [] ∧ (s.rg 2).toNat = 0)
      ∧ ((w.core c0).users.filter fun u => u.2.waitsNet) = (1, { mode := .waiting, hold := .phase 30 [] }) :: []
      ∧ (w.core c0).bag.getLast? = some (own 0, own 64)
      ∧ (w.core c0).mcheck = none ∧ w.fencedHdr (m 1).hdr = false ∧ (w.core c0).retired = false ∧ (w.core c0).ctx = (m 1).hdr.ctx
      ∧ (w.core c0).bag.length < 512 ∧ (w.core c0).ctx ≠ (m 2).hdr.ctx ∧ ((on 0 {} { mcheck := some 1 }).core c0).mcheck ≠ none
      ∧ 512 ≤ ((on 0 {} { bag := List.replicate 512 (0, 0) }).core c0).bag.length := by
  intro s b w m two
  refine ⟨by decide, by decide, ?_, ?_, by decide, ⟨_, _, _, rfl, rfl⟩, by decide, by decide, by decide, by decide, by decide, by decide,
    by decide, by decide, by decide, by decide, ?_⟩
  · unfold InSlice; decide
  · unfold InSlice; decide
  · show 512 ≤ (List.replicate 512 ((0 : Word), (0 : Word))).length
    exact Nat.le_of_eq List.length_replicate.symm

/-- A message to a free message strand, to one busy, to a full inbox and a full ring; an unbound slot and a queue with room and without. -/
theorem witness_Messages :
    let m : AmMsg := ⟨⟨c0, c1, 1, 0, 1, {}⟩, 64, [1, 2, 3, 4, 5, 6], 7, own 0, none⟩
    let u : AmMsg := { m with hword := 1 }
    let s := on 1 { g := [(1, own 0), (2, 0x4000000000000000), (3, BitVec.ofNat 64 (2 ^ 63 + 200 * 2 ^ 33)), (4, 8)] } { handlertab := own 4096 }
    let free := on 0 {} { strands := [(1, { mode := .waiting, hold := .phase 40 [], role := 2 })] }
    let next := on 0 {} { strands := [(1, { mode := .waiting, hold := .phase 40 [], role := 2 })], inbox := [m] }
    let busy := on 0 {} { strands := [(1, { mode := .ready, role := 2 })], handlertab := own 4096 }
    let full := on 0 {} { inbox := List.replicate 16 m }
    let overf := on 0 {} { inbox := List.replicate 16 m, ovfTail := 64 }
    let pend (n : Nat) := on 0 {} {} { pendMsgs := [(1, List.replicate n (u, 0))] }
    (s.me.guard always = true ∧ s.me.hold = .none ∧ mformOk (s.rg 2) = false ∧ mformOk (s.rg 3) = true ∧ (s.rg 3).getLsbD 63 = true
        ∧ s.sliceOf c0 (s.rg 3) = none ∧ s.sliceOf c0 (s.rg 1) = some (c0, 0) ∧ s.me.role ≠ 2 ∧ (on 1 { role := 2 }).me.role = 2
        ∧ s.me.taker = none ∧ s.me.notices = [] ∧ (s.rg 4).toNat % 64 ≠ 0 ∧ (s.rg 1).toNat % 64 = 0 ∧ s.pending 0 1 = [] ∧ s.mem.wf = true
        ∧ (on 1 { hold := .got { status := .retry } }).me.hold = .got { status := .retry })
      ∧ InSlice s c0 s.ctx s.super (s.myCore.handlertab + BitVec.ofNat 64 (8 * 2047)) 1 c0 (4096 + 8 * 2047)
      ∧ ((free.core c0).mcheck = none ∧ free.fencedHdr m.hdr = false ∧ (free.core c0).retired = false ∧ c0.row < 200 ∧ (free.core c0).ctx = m.hdr.ctx
        ∧ m.hword.getLsbD 0 = false ∧ m.hword.toNat / 2 % 32 = 0 ∧ (2 : Word).toNat / 2 % 32 ≠ 0 ∧ (4097 : Word).toNat / 2 ^ 12 ≠ 0)
      ∧ ((free.core c0).inbox = [] ∧ m.hdr.odd = {} ∧ (free.core c0).freeMsgStrand = some 1
        ∧ (next.core c0).inbox = m :: [] ∧ (next.core c0).freeMsgStrand = some 1)
      ∧ ((busy.core c0).freeMsgStrand = none ∧ (busy.core c0).inbox.length < 16) ∧ ((full.core c0).freeMsgStrand = none ∧ 16 ≤ (full.core c0).inbox.length
        ∧ (full.core c0).ovfTail - (full.core c0).ovfHead < 64 ∧ 64 ≤ (overf.core c0).ovfTail - (overf.core c0).ovfHead)
      ∧ u.hword.getLsbD 0 = true ∧ u.hword.toNat / 2 ^ 12 = 0
      ∧ InSlice busy c0 u.hdr.ctx (u.hdr.ctx == 0) ((busy.core c0).handlertab + BitVec.ofNat 64 (8 * (u.hword.toNat / 2 % 2048))) 1 c0 4096
      ∧ (busy.sliceWord c0 4096 0).toNat / 4 % 16 = 0 ∧ (busy.sliceWord c0 4096 0).getLsbD 0 = false
      ∧ ((pend 15).pending 0 1).length < 16 ∧ 16 ≤ ((pend 16).pending 0 1).length ∧ (u, 0) ∈ (pend 1).pending 0 1 := by
  refine ⟨by decide, ?_, by decide, by decide, by decide, by decide, by decide, by decide, ?_, by decide⟩ <;> (unfold InSlice; decide)

/-- A ring of 64 bytes at 128 whose descriptor stands at 64: empty, with its tail at 32, and with 56 bytes taken. -/
def ringed (tail head : Word) : State := put (put (put (on 0 {}) 64 (BitVec.ofNat 64 (128 + 64 * 2 ^ 17))) 72 tail) 80 head

/-- Addresses and answers of append; a record that fits, one that wraps, one that does not fit, and a descriptor of all zeros; csend and tile
transfers at their target. -/
theorem witness_RemoteWrites :
    let s := on 1 { g := places }
    let m : AppendMsg := ⟨⟨c0, c1, 1, 0, 1, {}⟩, 64, [1, 2, 3]⟩
    let e := ringed 0 0
    let w := ringed 40 40
    let f := ringed 56 0
    let k : CsendMsg := ⟨⟨c0, c1, 1, 0, 1, {}⟩, 0, 128, 0, 1, [0x3F800000]⟩
    let t : TileMsg := ⟨⟨c0, c1, 1, 0, 1, {}⟩, false, false, 0, 0, 8, List.replicate 8 1, 0, false⟩
    let r (st : Nat) := sized (on 0 {} { tiles := [(0, ent st 0 0)] }) 8
    (s.me.guard always = true ∧ s.me.hold = .none ∧ mformOk (s.rg 3) = false ∧ mformOk (s.rg 1) = true ∧ (s.rg 1).getLsbD 63 = false
        ∧ (s.rg 9).getLsbD 63 = true ∧ (s.rg 9).toNat % 64 ≠ 0 ∧ s.sliceOf c0 (s.rg 8) = some (c0, 64) ∧ (s.rg 8).toNat % 64 = 0
        ∧ s.me.unacked = 0 ∧ (s.crew 0).lines = [] ∧ (on 1 { hold := .got { status := .full } }).me.hold = .got { status := .full })
      ∧ ((e.core c0).mcheck = none ∧ e.fencedHdr m.hdr = false ∧ e.sliceAllowed (m.hdr.slot == 0) m.hdr.ctx c0 = true ∧ m.row.length ≤ 8 ∧ e.mem.wf = true
        ∧ e.sread c0 64 8 / 2 ^ 34 = 0 ∧ e.sread c0 64 8 / 2 ^ 17 % 2 ^ 17 = 64 ∧ e.sread c0 64 8 % 2 ^ 17 = 128 ∧ m.off + 32 ≤ 128)
      ∧ (0 + 32 ≤ 64 ∧ 32 ≤ 64 - (e.sread c0 72 4 + 2 ^ 32 - e.sread c0 80 4) % 2 ^ 32)
      ∧ (64 < w.sread c0 72 4 % 64 + 32 ∧ w.sread c0 72 4 % 64 + 8 ≤ 64 ∧ 64 - 40 + 32 ≤ 64 - (w.sread c0 72 4 + 2 ^ 32 - w.sread c0 80 4) % 2 ^ 32)
      ∧ 64 - (f.sread c0 72 4 + 2 ^ 32 - f.sread c0 80 4) % 2 ^ 32 < 32 ∧ s.sread c0 64 8 / 2 ^ 17 % 2 ^ 17 = 0
      ∧ e.sliceAllowed (k.hdr.slot == 0) k.hdr.ctx c0 = true ∧ e.sliceAllowed (k.hdr.slot == 0) 2 c0 = false ∧ k.hdr.odd = {} ∧ (e.core c0).retired = false
      ∧ ((on 0 {} { readers := [(0, 1)] }).core c0).readersOf 0 ≠ 0 ∧ (e.core c0).ctx = k.hdr.ctx ∧ k.off % 128 = 0 ∧ k.off + k.total ≤ 0x1E000 ∧ 0x1E000 < 0x1E000 + k.total
      ∧ ((r 0).core c0).ctx = t.hdr.ctx ∧ (r 0).fencedHdr t.hdr = false
      ∧ tileBytes (((r 0).core c0).tile 0) ((r 0).shapeWords c0 (tileShape (((r 0).core c0).tile 0))) = some (8, 0)
      ∧ (shapeOf ((r 0).shapeWords c0 0)).map Shape.count = some 8 ∧ tileFmt (((r 0).core c0).tile 0) = t.fmt
      ∧ tileSt (((r 0).core c0).tile 0) = 0 ∧ tileSt (((r 2).core c0).tile 0) = 2 ∧ ((r 0).core c0).readersOf 0 = 0 := by
  intro s m e w f k t r
  and_intros <;> decide

/-- Course slots: not loaded, loaded and idle, running with a start queued; a runnable empty op, COPY op and START op, and a started COPY op. -/
theorem witness_Courses :
    let y : Course := { image := own 4096, ctx := 1, loaded := true, deps0 := [0, 1], deps := [(0, 0), (1, 1)] }
    let at_ (c : Course) (ws : List Word) : State := ws.zipIdx.foldl (fun s w => put s (4096 + 8 * w.2) w.1) (on 1 { g := places } { courses := [(0, c)] })
    let run : Course := { y with st := 1, bases := List.replicate 8 (own 0) }
    let copy : List Word := [0x1000000000000000, 0, 64, 8]
    let start : List Word := [0x3000000000000000, 0, 0, 0]
    let s := at_ run [0, 0, 0, 0]
    let going := at_ { run with started := [(0, copy)] } copy
    let msg (ctx slot : Nat) : CourseMsg := ⟨⟨c0, c1, noSlot, 0, ctx, {}⟩, slot, []⟩
    let full := at_ { run with queued := some ([], none) } []
    (s.me.guard always = true ∧ s.me.hold = .none ∧ (s.myCore.course 0).busy = true ∧ (s.myCore.course 1).busy = false ∧ (s.rg 9).toNat % 64 ≠ 0
        ∧ (s.rg 2).toNat % 64 = 0 ∧ s.sliceHolds c0 0 [0, 0, 0, 0] ∧ (s.myCore.course 1).loaded = false ∧ ((at_ y []).myCore.course 0).busy = false
        ∧ ((at_ y []).myCore.course 0).loaded = true ∧ (full.myCore.course 0).busy = true ∧ (full.myCore.course 0).queued ≠ none
        ∧ (s.myCore.course 0).queued = none)
      ∧ InSlice s c0 s.ctx (s.ctx == 0) (s.rg 2) 8 c0 0
      ∧ ((s.core c0).mcheck = none ∧ run.queued = none ∧ run.st = 1 ∧ run.runnable 0 = true
        ∧ ((s.core c0).copies.filter CopyCmd.started).length + ((s.core c0).courses.foldl (fun n x => n + x.2.started.length + x.2.old.length) 0) < 2)
      ∧ InSlice s c0 run.ctx (run.ctx == 0) (run.image + BitVec.ofNat 64 (32 * 0)) 4 c0 4096
      ∧ (List.range 4).map (s.sliceWord c0 4096) = [0, 0, 0, 0] ∧ (List.range 4).map ((at_ run start).sliceWord c0 4096) = start
      ∧ (opOf 2 [0, 0, 0, 0]).map Op.kind = some 0 ∧ opOf 2 copy = some ⟨1, [], 0, 0, 64, 8⟩ ∧ opOf 2 start = some ⟨3, [], 0, 0, 0, 0⟩
      ∧ (opAddr run.bases 0).getLsbD 63 = true ∧ s.sliceOf c0 (opAddr run.bases 0) = some (c0, 0)
      ∧ ((going.core c0).course 0).started.has 0 = true ∧ ((going.core c0).course 0).old = [] ∧ (going.core c0).reqs = [] ∧ ((going.core c0).course 0).started.get [] 0 = copy
      ∧ InSlice going c0 1 false (opAddr run.bases 0) 1 c0 0 ∧ InSlice going c0 1 false (opAddr run.bases 64) 1 c0 64 ∧ going.mem.wf = true
      ∧ run.doneOps.length + 1 < run.deps0.length ∧ s.fencedHdr (msg 1 0).hdr = false ∧ (s.core c0).retired = false ∧ (s.core c0).ctx = 1
      ∧ (s.core c0).ctx ≠ (msg 2 0).hdr.ctx ∧ ((s.core c0).course (msg 1 1).slot).loaded = false := by
  intro y at_ run copy start s going msg full
  and_intros <;> first | decide | (unfold State.sliceHolds; decide)

/-- A request of core c1 to an offset of c0's slice, or to 0x10000 of package 0 with a locator that lapses at a tick. -/
def req (tgt : MemTgt) (op : ReqOp) (len : Nat) (lexp : BitVec 32 := 0) : MemReq := ⟨c1, 1, 5, 1, false, tgt, op, own 0, lexp, false, 3, len, 0⟩

/-- Well-formed and malformed requests; slices and homes that take them and that do not; the requests whose replies come back. -/
theorem witness_MemoryPackets :
    let s := on 0 {} {} { keys := [(0, [])], time := 1 }
    let dead := on 0 {} { mcheck := some 1 }
    let fenced := on 0 {} {} { fenced := [1] }
    let m := req (.slice c0 0) (.ld 8) 2
    let bad := { m with sub := 4 }
    let h (e : BitVec 32) := req (.mem 0 0x10000 0) (.st (List.replicate 8 1)) 3 e
    let late (e : BitVec 32) := (s.time 0 % 2 ^ 32 + 2 ^ 32 - e.toNat) % 2 ^ 32
    let a : ReplyMsg := { dst := c0, rtag := 5, status := .ack }
    let asks (u : ReqUse) (p : Instr) : State := on 1 { mode := .waiting, hold := .wait 5 } { reqs := [(5, ⟨1, u, p, c1, 0, 0, [], 0⟩)] }
    let fills : State := on 1 { mode := .waiting, hold := .wait 5 } { reqs := [(5, ⟨1, .strand, .ldPacket (h 1), c1, 0, 0, [1, 0, 0x10000], 0⟩)] }
    (m.sub < 4 ∧ m.len = 2 ∧ m.rsvd = 0 ∧ ¬ bad.sub < 4 ∧ (dead.core c0).mcheck ≠ none ∧ (s.core c0).mcheck = none
        ∧ fenced.fencedAt 0 1 = true ∧ s.fencedAt 0 1 = false ∧ s.sliceAllowed m.super m.ctx c0 = true ∧ s.sliceAllowed m.super 2 c0 = false
        ∧ 131064 + opBytes m.op ≤ 131072)
      ∧ (1 ≤ late 0 ∧ late 0 ≤ 2 ^ 31 ∧ late 1 = 0 ∧ 2 ^ 31 < late 2 ∧ (s.pkg 0).wakes = [] ∧ (s.pkg 0).frameReserved (0x10000 / 2 ^ 16) = false
        ∧ (s.pkg 0).keys.has 0 = true ∧ (s.pkg 0).keys.has 1 = false ∧ (h 1).fwd = false)
      ∧ ((asks .strand (.ldPacket m)).core a.dst).reqs.find? (fun q => q.1 == a.rtag) = some (5, ⟨1, .strand, .ldPacket m, c1, 0, 0, [], 0⟩)
      ∧ (fills.core c0).reqs.find? (fun q => q.1 == a.rtag) = some (5, ⟨1, .strand, .ldPacket (h 1), c1, 0, 0, [1, 0, 0x10000], 0⟩)
      ∧ ([1, 0, 0x10000] : List Nat).getD 0 0 = 1 ∧ (fills.crew c0.crewNo).lines.has (lineNo 0 0x10000) = false ∧ fills.isVoid c0 5 = false
      ∧ (m.tgt = .slice c0 0 ∧ pktPairs (.ldPacket m) = [])
      ∧ ([] : List Nat).getD 0 0 ≠ 1 ∧ (((asks .strand (.ldPacket m)).core c0).strand 1).hold = .wait 5
      ∧ (((asks .strand (.ldPacket m)).core c0).strand 1).mode = .waiting
      ∧ ((asks (.store 1) (.stPacket (req (.slice c1 0) (.st []) 3))).core a.dst).reqs.find? (fun q => q.1 == a.rtag)
          = some (5, ⟨1, .store 1, .stPacket (req (.slice c1 0) (.st []) 3), c1, 0, 0, [], 0⟩)
      ∧ s.time 0 + 64 ≤ 0 + 10000 ∧ 0 + 10000 < (on 0 {} {} { time := 10000 }).time 0 + 64 := by
  intro s dead fenced m bad h late a asks fills
  and_intros <;> decide

/-- A packet at its core's router and at another, and one for the next package at its port switch; a port in each state, and both ends of a link. -/
theorem witness_RoutersAndPorts :
    let p (d : CoreId) : Pending := { step := .stop c0, route := .router 0 0 0 d 0 }
    let far : CoreId := ⟨1, 0, 0⟩
    let w := switchOf 0 0
    let ld : Pending := { step := .ldPacket (req (.slice far 0) (.ld 8) 2), route := .router 0 w.col w.row far 0 }
    let s (q : Pending) (l : SMap Port) : State := { on 0 {} {} { boot := [(0, 0x10000000)], ports := l } with agenda := [] ++ [q] ++ [] }
    let st (l : SMap Port) (i : Nat) : LinkSt := (((s ld l).pkg 0).port (portNo ((s ld l).outDir 0 1).1 i)).st
    let failed : SMap Port := (List.range 6).map fun i => (i, { st := .failed })
    let l : Pending := { step := .stop c0, route := .link 0 0 c0 0 }
    let one (x : LinkSt) : State := s l [(0, { st := x })]
    let k := ((one .active).pkg 0).port 0
    let sum : Port := { st := .summary, lanes := 4, speed := 224 }
    let ends : State := { on 0 {} with pkgs := [(0, { boot := [(0, 0x10000000)], ports := [(0, sum)] }), (1, { ports := [(6, sum)] })] }
    ((p c0).route = .router 0 0 0 c0 0 ∧ (p c1).route = .router 0 0 0 c1 0 ∧ ¬ (c1.col = 0 ∧ c1.row = 0) ∧ far.pkg ≠ 0)
      ∧ (((s ld []).outDir 0 far.pkg).1 = 0)
      ∧ (∀ i, i < 6 → st failed i = .failed) ∧ (st [] 0 ≠ .failed ∧ ∀ i, i < 6 → st [] i ≠ .active)
      ∧ (∀ j, j < 6 → (st [(0, { st := .active })] j = .active ↔ j = 0)) ∧ ((s ld []).pkg 0).flows = []
      ∧ k.st = .active ∧ k.crcRun < 63 ∧ k.authRun < 15 ∧ k.authAt.length < 63 ∧ (((one .down).pkg 0).port 0).st = .down
      ∧ (let two (p : SMap Byte) : State := { on 0 {} with pkgs := [(0, { boot := [(0, 0x10000000)], domain := [0, 1], policy := p }), (1, {})] }
         (one .down).authentic 0 0 3 = true ∧ (two []).authentic 0 0 3 = false ∧ (two [(0, 0x80)]).authentic 0 0 3 = true)
      ∧ (∀ q, q ∈ (s (p c0) []).agenda → q.route = .router 0 0 0 c0 0)
      ∧ (((one .train).pkg 0).port 0).st = .train ∧ (((one .train).pkg 0).port 0).attempt < 3 ∧ ((one .train).pkg 0).held3 = false
      ∧ (((ends.pkg 0).port 0).st = .summary ∧ (ends.farPkg 0 0, farPort 0) = (1, 6) ∧ ((ends.pkg 1).port 6).st = .summary
        ∧ ((ends.pkg 1).port 6).attempt = ((ends.pkg 0).port 0).attempt ∧ ((ends.pkg 1).port 6).lanes = ((ends.pkg 0).port 0).lanes) := by
  intro p far w ld s st failed l one k sum ends
  and_intros <;> decide

/-- Package memory words of 8 bytes written: a context entry of context 1, four levels of tables and a leaf for the page at 0x10000. -/
def tabled (leaf : Word) (s : State) : State :=
  let l : List (Nat × Word) := [(0x40, 0x100000000001), (0x100000, 0x110000000001), (0x110000, 0x120000000001), (0x120000, 0x130000000001),
    (0x130000, 0x140000000001), (0x140008, leaf)]
  l.foldl (fun s w => s.writeN (memKey 0 w.1) 8 w.2.toNat) s
/-- A leaf of frame 2 with the migration right and without it. -/
def leafM : Word := 0x2000000AB
def leafN : Word := 0x20000002B
/-- A page that has begun to migrate from frame 2 to frame 3 of package 0. -/
def wake1 (cut : Bool) (armed : Option Nat) (released : Bool) (asker : Option StrandId) (copied : Nat := 0) : Wake :=
  ⟨2, false, 0, 3, 0, copied, cut, 0x10000, 1, asker, armed, released, false⟩

theorem walk_leaf : (tabled leafM (on 0 {} {} { keys := [(0, [])] })).walk 0 1 0x10000 = .ok (leafM, 5) := by rfl

/-- Locators of good and bad form, pages that may and may not migrate, and wakes at every point of their release. -/
theorem witness_PageMigration :
    let s (ws : List Wake) := on 0 { g := [(1, 0x10000), (2, 0x300000000), (3, 1), (4, 0x200000000), (5, 1)] } {} { keys := [(0, [])], wakes := ws }
    let t := tabled leafM (s [])
    let old := on 0 {} { strands := [(1, { mode := .waiting, hold := .phase 51 [0, 2] })] } { keys := [(0, [])], wakes := [wake1 false none false (some ⟨c0, 1⟩) 1023] }
    (t.me.guard always = true ∧ t.cur.slot = 0 ∧ t.me.hold = .none ∧ (t.rg 5).toNat % 2 ^ 20 ≠ 0 ∧ (t.rg 2).toNat / 2 ^ 56 = 0
        ∧ (t.rg 2).toNat % 2 ^ 20 = 0 ∧ (t.rg 3).toNat < 2 ^ 16 ∧ leafM.getLsbD 7 = true ∧ leafN.getLsbD 7 = false ∧ leafHome leafM = 0 ∧ leafFrame leafM = 2
        ∧ (t.wakeAt 0 (2 * 2 ^ 16)).isSome = false ∧ ((s [wake1 false none false none]).wakeAt 0 (2 * 2 ^ 16)).isSome = true
        ∧ (t.pkg 0).keys.has (leafKey leafM) = true ∧ (t.pkg 1).keys.has (leafKey leafM) = false)
      ∧ ((s []).walk 0 1 0x10000) = .error 0x61
      ∧ (on 0 { hold := .phase 50 [4] }).me.hold = .phase 50 [4]
      ∧ ((s []).pkg 0).wakes.find? (fun w => w.oldFrame == (t.rg 4).toNat / 2 ^ 32 % 2 ^ 24 && w.cut) = none
      ∧ (∀ w, w ∈ [wake1 true none false none, wake1 true (some 0) false none, wake1 true (some 0) true none] →
          ((s [w]).pkg 0).wakes.find? (fun w => w.oldFrame == 2 && w.cut) = some w)
      ∧ (old.pkg 0).wakes.find? (fun y => y.oldFrame == 2 && !y.cut) = some (wake1 false none false (some ⟨c0, 1⟩) 1023) ∧ (old.core c0).mcheck = none
      ∧ ((old.pkg 0).keys.has 0 && !(old.pkg 0).held3) = true ∧ 1024 ≤ 1023 + 1 ∧ ((on 0 {}).pkg 0).keys.has 0 = false
      ∧ (old.strand ⟨c0, 1⟩).hold = .phase 51 [0, 2] ∧ (old.strand ⟨c0, 1⟩).mode = .waiting := by
  intro s t old
  refine ⟨by decide, fails_eq (by decide), ?_⟩
  decide

/-- A request relayed to the page of a query is on its way, and none is. -/
theorem witness_PageMigration_open :
    let m : MemReq := { src := c0, slot := 1, rtag := 0, ctx := 1, super := false, tgt := .mem 0 (0x20000 + 8) 0, op := .ld 8, va := 0,
                        lexp := 0, fwd := true, sub := 3, len := 2, rsvd := 0 }
    let s : State := { ({} : State) with agenda := [{ step := .ldPacket m }] }
    s.relaysOpen 0 2 false = true ∧ s.relaysOpen 0 3 false = false ∧ s.relaysOpen 0 1 false = false := by decide

/-- A load of an unmapped page with a park slot free and with four taken; a parked store to a slice; events of a context; a lead; load figures. -/
theorem witness_FaultService :
    let s (x : Strand) := mapped leafW1 { x with g := places }
    let pk : Park := ⟨.st, own 64, .d, .core, 7, 0, 0, 0, true⟩
    let four : SMap Park := [(0, pk), (1, pk), (2, pk), (3, pk)]
    let r := on 0 { g := [(1, 1)] } { strands := [(1, { parks := [(0, pk)] })] }
    let e := on 0 { g := [(1, 1)] } {} {} { events := [rec1] }
    let e' : State := { e with cores := [] }
    let n := on 0 {} { loadFig := [(c1.key, 0, 7)], bag := List.replicate 20 (0, 0) }
    ((s {}).me.guard always = true ∧ (s {}).me.hold = .none ∧ (s {}).cur.slot ≠ 0 ∧ mformOk ((s {}).ea (ma 6) 3) = true
        ∧ ((s {}).ea (ma 6) 3).toNat % Sz.d.bytes = 0 ∧ ((s {}).ea (ma 6) 3).getLsbD 63 = false ∧ (s {}).me.freePark = some 0
        ∧ (s { parks := four }).me.freePark = none ∧ ((s {}).crew 0).fbuf = [] ∧ (s {}).me.upvec = 0)
      ∧ ((s {}).translate c0 (s {}).ctx false ((s {}).ea (ma 6) 3).toNat).2 = .error 0x61
      ∧ (r.parkedOf 0 = [4 * StrandId.gid ⟨c0, 1⟩ + 0] ∧ strandOfGid (StrandId.gid ⟨c0, 1⟩) = ⟨c0, 1⟩ ∧ (r.strand ⟨c0, 1⟩).parks.find? (fun q => q.1 == 0) = some (0, pk) ∧ pk.kind = .st ∧ r.me.hold = .none ∧ (on 0 {}).parkedOf 0 = [] ∧ mformOk pk.addr = true ∧ pk.addr.getLsbD 63 = true ∧ r.sliceOf c0 pk.addr = some (c0, 64)
        ∧ (r.core c0).reqs = [] ∧ r.sees c0 c0 (r.core c0).ctx = true
        ∧ r.sliceAllowed false (r.core c0).ctx c0 = true ∧ r.mem.wf = true)
      ∧ ((r.rg 2).toNat % 2 ^ 16 = 0 ∧ (r.rg 1).toNat % 2 ^ 16 = 1 ∧ (∀ w, w ∈ r.crews → (r.crew w.1).events = [] ∧ (r.crew w.1).timers = [])
        ∧ (∀ k, k ∈ r.cores → (r.core (coreOfKey k.1)).ctx ≠ 2) ∧ (∀ k, k ∈ e'.cores → (e'.core (coreOfKey k.1)).ctx ≠ 1)
        ∧ e'.crews = [(0, { events := [rec1] })] ∧ rec1.ev.ctx = 1 ∧ rec1.live = [] ∧ rec1.held = [] ∧ rec1.st = .idle ∧ e'.cur.slot = 0)
      ∧ ((r.crew 0).lead = 0 ∧ (r.crew 0).lead ≠ 1 ∧ (r.core (crewCore 0 0)).retired = false)
      ∧ (c1 ∈ neighbours c0 ∧ (n.core c0).loadFig = [(c1.key, 0, 7)] ∧ 0 + (n.pkg 0).shedT < (n.core c0).load ∧ 0 + 4 ≤ (n.core c0).load
        ∧ (n.core c1).retired = false ∧ (n.core c0).bag ≠ [] ∧ (n.core c0).spillTail ≤ (n.core c0).spillHead ∧ (n.core c0).retired = false
        ∧ (n.core c0).mcheck = none ∧ (n.pkg 0).held3 = false ∧ (n.core c0).halted = false ∧ (r.core c0).loadFig = []) := by
  intro s pk four r e e' n
  refine ⟨by decide, fails_eq (by decide), ?_⟩
  and_intros <;> decide

/-- Packages at each phase; fields in range and out of it. Which way a phase goes is a free value: either branch of the statement applies. -/
theorem witness_BringUp :
    let s (n : Nat) := on 0 {} {} { phase := n }
    let lock : State := on 0 {} {} { boot := [(0x38, 1)] }
    let src : State := { s 5 with pkgs := [(0, { phase := 5 }), (1, { aligned := true, time := 100 })] }
    ((s 0).pkg 0).phase = 0 ∧ ((s 1).pkg 0).phase = 1 ∧ ((s 2).pkg 0).phase = 2 ∧ ((s 3).pkg 0).phase = 3 ∧ ((s 4).pkg 0).phase = 4 ∧ ((s 5).pkg 0).phase = 5 ∧ ((s 6).pkg 0).phase = 6
      ∧ (Config.freeOutcome (s 0).freeN = true ∨ Config.freeOutcome (s 0).freeN = false)
      ∧ ({ ports := [(0, { st := .active })] } : Pkg).portsSettled = true ∧ ({ ports := [(0, {})] } : Pkg).portsSettled = false
      ∧ (src.pkg 0).aligned = false ∧ src.time 1 + 10 / 2 < 2 ^ 64 ∧ (src.pkg 1).aligned = true ∧ (src.pkg 2).aligned = false
      ∧ ((s 5).pkgNeighbours 0 = [] ∧ (1, 1) ∉ (s 5).pkgNeighbours 0) ∧ (lock.pkg 0).isLocked = true ∧ ((s 0).pkg 0).isLocked = false
      ∧ (500 % 25 = 0 ∧ 500 ≤ 500 ∧ 4000 ≤ 4000 ∧ 510 % 25 ≠ 0) ∧ (List.replicate 32 (0 : Byte)).length = 32 := by
  intro s lock src
  refine ⟨by decide, by decide, by decide, by decide, by decide, by decide, by decide, ?_, by decide⟩
  cases Config.freeOutcome (s 0).freeN <;> simp

/-- Beacons, strokes, reset requests, clocks and control-core addresses on each side of their limits. -/
theorem witness_PackageServices :
    let p : Pkg := { phase := 7, aligned := true, time := 200000, keys := [(0, [])], boot := [(0, 0x10000000)], slewAt := 100000, ccHeld := false }
    let s : State := { on 0 {} with pkgs := [(0, p), (1, p)] }
    let near := (s.pkgNeighbours 0).map Prod.snd
    let held : State := { s with agenda := [{ step := .frameMapWrite 0 5 false 1, chan := windowChan 0 }] }
    (p.aligned = true ∧ p.slewAt + 100000 ≤ s.time 0 ∧ s.rootHops 0 < s.rootHops 1 ∧ s.time 0 < (200001 : Word).toNat ∧ (199999 : Word).toNat < s.time 0)
      ∧ (1 ∈ near ∧ ({ strokeSeen := [2] } : Pkg).strokeSeen.contains 2 = true ∧ (({} : Pkg).port (portNo 2 0)).st ≠ .failed
        ∧ ({ strokeMiss := [(2, 2)] } : Pkg).strokeMiss.get 0 2 + 1 = 3 ∧ 2 ∉ ({} : Pkg).strokeSeen)
      ∧ (0 < ({ resetIgnore := 10000000 } : Pkg).resetIgnore ∧ p.resetIgnore ≤ s.time 0
        ∧ 3 ≤ (([(2, 200000), (3, 200000), (4, 200000)] : List (Nat × Nat)).filter fun r => r.1 != 1 && decide (s.time 0 ≤ r.2 + 1000000)).length)
      ∧ (p.bootWord 0x20 / 2 ^ 32 % 2 ^ 12 = 1000 ∧ 1000 < p.clock ∧ ({ clock := 1000 } : Pkg).clock ≤ 1000 ∧ p.bootWord 0x20 % 2 ^ 13 = 4000)
      ∧ leafKres 0x140 = true ∧ leafKres 0x29 = false ∧ (s.pkg 0).frameReserved 0 = false ∧ (s.pkg (leafHome 0x29)).keys.has (leafKey 0x29) = true
      ∧ (({ ports := [(0, { st := .failed })] } : Pkg).port 0).st = .failed ∧ (p.port 0).st ≠ .failed
      ∧ (p.held3 = false ∧ ({ boot := [(0x10, 0x10000000000)] } : Pkg).inDump 0 = true ∧ leafKey 0x29 = 0 ∧ ({} : Pkg).keys.has 0 = false)
      ∧ (p.ccHeld = false ∧ p.isLocked = false ∧ ({ boot := [(0x38, 1)] } : Pkg).isLocked = true ∧ p.boot.has 0 = true
        ∧ (s.agenda.filter fun q => q.chan == windowChan 0) = []
        ∧ (held.agenda.filter fun q => q.chan == windowChan 0).map Pending.step = [.frameMapWrite 0 5 false 1])
      ∧ (({} : Pkg).phase < 7 ∧ 7 ≤ p.phase ∧ (s.pkg 0).wakes = [] ∧ s.pkgIn 0 1 = true ∧ s.pkgIn 0 2 = false
        ∧ (2 ^ 52 + 2 ^ 40) / 2 ^ 52 % 16 = 1 ∧ (2 ^ 52 + 2 ^ 40) / 2 ^ 40 % 2 ^ 12 = 1 ∧ (2 * 2 ^ 52 + 0x21020) / 2 ^ 52 % 16 = 2
        ∧ (2 * 2 ^ 52 + 0x21020) % 2 ^ 52 = 0x20020 + 0x1000 * 1) := by
  intro p s near held
  and_intros <;> decide

/-! ## Further forms of the statements -/

/-- A message at a target with four commands waiting. -/
theorem witness_MatrixEngine_full :
    let m : TmxMsg := ⟨⟨c0, c1, 1, 0, 1, {}⟩, 0, 0, .zero 1 0⟩
    let s := on 1 {} { remote := List.replicate 4 m }
    4 ≤ (s.core c0).remote.length ∧ m.hdr.odd = {} ∧ s.fencedHdr m.hdr = false ∧ (s.core c0).mcheck = none
      ∧ ((on 1 {} { mcheck := some 1 }).core c0).mcheck ≠ none := by decide

/-- A home in another package, and one combining entry of the strand, which its home takes and does not take. -/
theorem witness_AtomicsAndCaches_further :
    let leaf : Word := 0x100100029
    let s : State := { on 1 { g := places } { dtlb := [⟨1, 1, 5, leaf, none⟩] } with pkgs := [(0, {}), (1, { keys := [(0, [])] })] }
    let x : Xlat := ⟨1, 0x10000, 0, leaf, 5, 1, 0x10000, none⟩
    let f : Comb := ⟨1, 0, 0x10000, 0, .add, .d, 0, 5, .pkg, [(c0.key, 1, .pkg)], c0.key, 0x10000, none⟩
    let e (p : Pkg) := on 1 {} {} p { comb := [f] }
    (s.me.guard always = true ∧ s.me.hold = .none ∧ x.pkg ≠ c0.pkg ∧ (s.crew c0.crewNo).comb = [] ∧ (s.crew c0.crewNo).lines.has (lineNo 1 0x10000) = false
        ∧ s.checkLoc s.super .w x = none ∧ s.rg 1 = 0x10000 ∧ tlbFind s.myCore.dtlb s.ctx 0x10000 (s.time 0) = some ⟨1, 1, 5, leaf, none⟩
        ∧ x = xlatOf ⟨1, 1, 5, leaf, none⟩ 0x10000 ∧ s.waitsFor c0 (.mem x) s.ctx 0x10000 = false)
      ∧ ((e {}).me.guard always = true ∧ ((e {}).crew c0.crewNo).comb = [f] ∧ (c0.key, (e {}).cur.slot, f.scope) ∈ f.users ∧ f.scope.inCrew = false
        ∧ f.lease = none ∧ f.pkg = crewPkg c0.crewNo ∧ ((e {}).pkg f.pkg).wakes = [] ∧ ((e {}).crew c0.crewNo).lines = [] ∧ (e {}).pathsDone 1 = true)
      ∧ (((e { keys := [(0, [])] }).pkg f.pkg).keys.has f.key = true ∧ (e { keys := [(0, [])] }).fencedAt f.pkg f.ctx = false)
      ∧ ((e {}).pkg f.pkg).keys.has f.key = false ∧ isWait 0x61 = false
      ∧ (FFmt.f32.value 0x7FC00000).isNan = true := by decide

/-- A copy's address that is a multiple of 8, with no request of its core out. -/
theorem witness_CopyCommands_further : (own 64).toNat % 8 = 0 ∧ ((on 1 {} {}).core c0).reqs = [] ∧ (2051 : Nat) < 2053 := by decide

/-- Ports 1 and 3 of c0 at 16 and 144, principal ports at 8 and 136, with their words, an end at 256 and a port at 80. -/
def ported (f h : Word) : State :=
  put (put (on 1 { g := [(1, own 1), (2, own 129), (4, own 128)] }) 16 f) 144 h
/-- A port with a reserved tag; FREE and OUTLET ends; a link to a port that is redirected on, from the lesser and from the greater name. -/
theorem witness_NetNodes_ends :
    let free := ported (own 256 + 12) (own 320 + 12)
    let outlet := put (ported (own 256 + 16) 0) (256 + 16) 2
    let link := put (ported (own 65 + 4) (own 256 + 12)) 80 (own 1 + 4)
    let step := put (ported (own 65 + 4) 0) 80 (own 193 + 8)
    let back := put (put (ported 0 (own 65 + 4)) 80 (own 193 + 8)) 208 (own 65 + 4)
    (5 ≤ portTag 28 ∧ portTag 0 = 0 ∧ portTag 8 = 2 ∧ ¬ (5 ≤ portTag 8) ∧ portIdx (own 128) = 0)
      ∧ (portTag (free.sliceWord c0 16 0) = 3 ∧ portTag (free.sliceWord c0 144 0) = 3 ∧ portIdx (free.sliceWord c0 16 0) = 0 ∧ portIdx (free.sliceWord c0 144 0) = 0
        ∧ portName (free.sliceWord c0 16 0) = own 256 ∧ portName (free.sliceWord c0 144 0) = own 320)
      ∧ (portTag (outlet.sliceWord c0 16 0) = 4 ∧ portIdx (outlet.sliceWord c0 16 0) = 0 ∧ portName (outlet.sliceWord c0 16 0) = own 256
        ∧ (outlet.sliceWord c0 256 2).toNat % 4 ≠ 0)
      ∧ (portTag (link.sliceWord c0 16 0) = 1 ∧ portName (link.sliceWord c0 16 0) = own 65 ∧ portTag (link.sliceWord c0 144 0) = 3
        ∧ link.sliceWord c0 80 0 = own 1 + 4)
      ∧ (portTag (step.sliceWord c0 80 0) = 2 ∧ portIdx (step.sliceWord c0 80 0) ≠ 3 ∧ portName (step.sliceWord c0 80 0) ≠ own 1
        ∧ portName (step.sliceWord c0 80 0) ≠ own 65 ∧ (own 1).toNat < (own 65).toNat)
      ∧ ((own 65).toNat < (own 129).toNat ∧ portName (back.sliceWord c0 144 0) = own 65 ∧ portTag (back.sliceWord c0 80 0) = 2
        ∧ portTag (back.sliceWord c0 208 0) = 1)
      ∧ (apart (sliceKey c0 16) (sliceKey c0 256) ∧ apart (sliceKey c0 144) (sliceKey c0 320) ∧ apart (sliceKey c0 80) (sliceKey c0 208))
      ∧ free.me.unacked = 0 ∧ free.mem.wf = true ∧ back.mem.wf = true ∧ 0 < free.myCore.bagRoom := by
  intro free outlet link step back
  and_intros <;> decide
theorem witness_NetNodes_slices :
    let s := ported 0 0
    InSlice s c0 s.ctx s.super (portAddr (own 1)) 1 c0 16 ∧ InSlice s c0 s.ctx s.super (portAddr (own 129)) 1 c0 144
      ∧ InSlice s c0 s.ctx s.super (own 256) 3 c0 256 ∧ InSlice s c0 s.ctx s.super (own 320) 1 c0 320
      ∧ InSlice s c0 s.ctx s.super (portAddr (own 65)) 1 c0 80 ∧ InSlice s c0 s.ctx s.super (portAddr (own 193)) 1 c0 208 := by
  intro s
  and_intros <;> decide

/-- Pairs that come back to a core in whose bag a strand waits; a full bag. -/
theorem witness_NetWork_back :
    let r : Answer := { data := [0, own 0, own 64] }
    let s := on 1 { role := 1, hold := .got r } { strands := [(2, { mode := .waiting, hold := .phase 30 [] })] }
    s.me.hold = .got r ∧ r.malformed = false ∧ s.myCore.spillTail ≤ s.myCore.spillHead ∧ pairsOf r.data.tail = [(own 0, own 64)]
      ∧ s.myCore.bag.length + (pairsOf r.data.tail).length ≤ 512 ∧ (s.myCore.users.any fun u => u.2.waitsNet) = true
      ∧ ((on 1 {}).myCore.users.any fun u => u.2.waitsNet) = false ∧ 0 < (on 1 {}).myCore.bagRoom ∧ (on 1 {} { spillTail := 1024 }).myCore.bagRoom = 0 := by decide

/-- A tile transfer and an append at a machine-checked core; an append's line that waits for nothing. -/
theorem witness_RemoteWrites_further :
    ((on 0 {} { mcheck := some 1 }).core c0).mcheck ≠ none ∧ (on 1 {}).myCore.busyLine (sliceKey c1 64 / 64 + 1) = false
      ∧ (tileFmt (ent 1 13 0) = 13 ∧ (2050 : Nat) ≤ 2051 ∧ 7 < 2048 ∧ 7 % 8 = 7) := by decide

/-- A strand with a store out; bases that make a COPY's addresses misaligned, and aligned. -/
theorem witness_Courses_further :
    (on 1 { unacked := 1 }).me.unacked ≠ 0 ∧ (opAddr (List.replicate 8 (own 4)) 0).toNat % 8 ≠ 0 ∧ (opAddr (List.replicate 8 (own 0)) 0).toNat % 8 = 0
      ∧ (opAddr (List.replicate 8 (own 0)) 64).toNat % 8 = 0 := by decide

/-- A reply at a machine-checked core; one that is STALE or REROUTE. -/
theorem witness_MemoryPackets_further :
    let m := req (.slice c0 0) (.ld 8) 2
    let s (k : Option Nat) := on 1 { mode := .waiting, hold := .wait 5 } { reqs := [(5, ⟨1, .strand, .ldPacket m, c1, 0, 0, [], 0⟩)], mcheck := k }
    ((s (some 1)).core c0).mcheck ≠ none ∧ ((s none).core c0).mcheck = none
      ∧ ((s (some 1)).core c0).reqs.find? (fun q => q.1 == 5) = some (5, ⟨1, .strand, .ldPacket m, c1, 0, 0, [], 0⟩)
      ∧ ((s none).strand ⟨c0, 1⟩).hold = .wait 5 ∧ ((s none).strand ⟨c0, 1⟩).mode = .waiting := by decide

/-- A page that migrates to package 1: a way whose ports do not work yet, one that works, and one that has failed. -/
theorem witness_PageMigration_ways :
    let p (st : LinkSt) : Pkg := { boot := [(0, 0x10000000)], keys := [(0, [])], ports := (List.range 36).map fun i => (i, { st := st }) }
    let s (st : LinkSt) : State := { on 0 {} with pkgs := [(0, p st), (1, p st)] }
    ((s .down).severed 0 1 = false ∧ (s .down).severed 1 0 = false ∧ (s .down).blocked 0 1 = true)
      ∧ ((s .active).severed 0 1 = false ∧ (s .active).blocked 0 1 = false ∧ (s .active).blocked 1 0 = false)
      ∧ (s .failed).severed 0 1 = true ∧ (wake1 false none false (some ⟨c0, 1⟩) 5).copied ≠ 0 := by decide

/-- A root beside an aligned neighbour; a FAILED port of a direction; tags of one domain and of two; a leaf that may not be written. -/
theorem witness_PackageServices_further :
    let s (k : Nat) : State := { on 0 {} with pkgs := [(0, { phase := 5, boot := [(0, 0x10000000)], resetKey := some 1 }), (1, { aligned := true, resetKey := some k })] }
    ((0, 1) ∈ (s 1).pkgNeighbours 0 ∧ ((s 1).pkg 1).aligned = true ∧ ((s 1).pkg 0).aligned = false)
      ∧ ((s 1).farPkg 0 (portNo 0 0) = 1 ∧ (s 1).farPkg 0 (portNo 2 0) = 0)
      ∧ ((s 1).pkg 1).resetKey = ((s 1).pkg 0).resetKey ∧ (s 1).tagValid 1 0 = true ∧ (s 2).tagValid 1 0 = false
      ∧ (({ ports := [(0, { st := .failed })] } : Pkg).port (portNo 0 0)).st = .failed ∧ leafW 0x21 = false ∧ leafW 0x29 = true ∧ (7 : Nat) < 8 := by decide

/-- In a core whose crew holds nothing, nothing waits for a port and no line has another copy: what the statements about caches, fences, moves,
requests and the two phases of a commit ask of ports. -/
theorem quiet_crew (w : Nat) : (on 1 {}).crew w = {} := by cases w <;> rfl
theorem witness_quiet :
    (∀ w f, (on 1 {}).stuckCombs w f = false) ∧ (∀ w l, l ∈ ((on 1 {}).crew w).lines → (on 1 {}).stuckLine w l = false)
      ∧ (∀ w, ((on 1 {}).crew w).comb = [] ∧ (((on 1 {}).crew w).lines.map Prod.fst).Nodup) ∧ (on 1 {}).stuckWrites c0 = false
      ∧ (on 1 {}).fenceStuck ⟨c0, 1⟩ .pkg true = false ∧ (on 1 {}).moveStuck ⟨c0, 1⟩ = false ∧ (on 1 {}).aliases 0 (loc1 leafW1) = []
      ∧ (on 1 {}).stuckAt 0 (loc1 leafW1) = false ∧ (on 1 {}).blocked 0 0 = false ∧ (on 1 {}).phaseStuck 1 [] (.strand ⟨c0, 1⟩) = false
      ∧ ((on 1 {}).core c0).battenIn = [] ∧ ((on 1 {}).crew 0).replays = [] := by
  refine ⟨fun w f => ?_, fun w l h => ?_, fun w => ?_, by decide, by decide, by decide, by decide, by decide, by decide, by decide, by decide, by decide⟩
  · rw [State.stuckCombs, quiet_crew]; rfl
  · rw [quiet_crew] at h; cases h
  · rw [quiet_crew]; exact ⟨rfl, List.nodup_nil⟩

/-- A start that no core with a lower load takes on, with a unit, or that has no unit left; a strand held with an access parked. -/
theorem witness_StrandStart_descent :
    (on 0 {}).descend c0 .pkg = none ∧ (∃ sc, some Scope.pkg = some sc ∧ (on 0 {}).descend c0 sc = none)
      ∧ (let x : Strand := { mode := .taken, taker := some false, parks := [(0, ⟨.st, own 0, .d, .core, 0, 0, 0, 0, false⟩)] }
         x.mode = .taken ∧ x.taker = some false ∧ x.issued = none ∧ x.parks ≠ []) := by
  refine ⟨by decide, ⟨.pkg, rfl, by decide⟩, by decide⟩

/-- A replay that waits behind another; a network interface's record of a context. -/
theorem witness_FaultService_further :
    let w : StrandId := ⟨c1, 0⟩
    let s : State := { on 0 {} {} {} { replays := [w] } with
      cores := (on 0 {}).cores ++ [(c1.key, { ctx := 1, strands := [(0, { hold := .phase 1 [], issued := some (.replay always 1) })] })] }
    (s.crew 0).replays = [w] ∧ w ≠ s.cur ∧ s.inReplay w = true ∧ ¬ s.cur ∈ ([] : List StrandId) ∧ ((on 0 {}).crew 0).replays = [] := by decide

/-- An event whose regions are those of its commit, with a line at home in them, and one that has none. -/
theorem witness_EventOccurs_regions :
    let r : EvRec := { rec1 with regions := [(0x10000, 64)], regIn := [(0x10000, 64)] }
    let l := cline true [0]
    r.regIn = r.regions ∧ inRegions 1 r.regions l.src = true ∧ l.lease = none
      ∧ ((on 1 {} {} {} { lines := [(0x400, l)] }).wayTo (crewPkg 0) (0x400 / 2 ^ 34) (0x400 % 2 ^ 34 * 64)).any isWait = false := by decide

set_option maxRecDepth 8000 in
/-- Codebook words in the own slice; a tile whose extents agree. -/
theorem witness_MatrixEngine_values :
    let s := on 1 {}
    (own 0).getLsbD 63 = true ∧ 0 + 1024 ≤ 131072 ∧ s.sliceAllowed (1 == 0) 1 c0 = true
      ∧ (∀ n, n < 256 → let x := own 0 + BitVec.ofNat 64 (4 * n)
          x.getLsbD 63 = true ∧ mformOk x = true ∧ s.sliceOf c0 x = some (c0, 0 + 4 * n))
      ∧ fmtOfCode 6 = some .f32 ∧ (32 : Nat) % 32 = 0 := by decide

/-- Values of each kind: NaN, infinite and finite; five elements in one dimension; two places that are apart. -/
theorem witness_VectorCompletion_values :
    (FFmt.f32.value 0x7FC00000).isNan = true ∧ FFmt.f32.value 0x7F800000 = .inf false ∧ FFmt.f32.value 0 = .fin false 0 (-149)
      ∧ ((⟨0, 1, (5, 1, 1, 1), (0, 0, 0), false, 0, 0, 0, 0⟩ : Shape).ext = (5, 1, 1, 1)) ∧ (∀ v, v ∈ [1, 2, 3, 4, 5, 6, 7, 8] → v < 2 ^ 8)
      ∧ ((⟨0, 1, (5, 1, 1, 1), (0, 0, 0), false, 0, 0, 0, 0⟩ : Shape).place 0 1 4).2 + 4
          ≤ ((⟨0, 1, (5, 1, 1, 1), (0, 0, 0), false, 0, 0, 0, 0⟩ : Shape).place 0 2 4).2 := by decide

/-- Words of the header of a tensor of eight bytes at offset 512 of c0's slice; of a header with a reserved bit; one that leaves the slice. -/
def hdrWords (base : Word) (fmt : Nat) (n : Word) : List Word := [base, 0, 0, n, 0, BitVec.ofNat 64 (fmt * 2 ^ 48), 0, 0]
/-- A header at offset 64 of c0's slice, with tile 0 of eight bytes, and a cpx that waits. -/
def cpxOf (ws : List Word) (x : Option Answer) (start : Bool) (i : Instr) (tile : Word) : State :=
  ws.zipIdx.foldl (fun s w => put s (64 + 8 * w.2) w.1)
    (sized (on 1 {} { tiles := [(0, tile)], copies := [⟨i, 1, 1, 1, false, 0, own 64, 0, 8, 0, [0, 8, 0, 0, 0, 0, 0, 0], [], start, 0, none,
      if start then ws else [], x⟩] }) 8)
set_option maxRecDepth 8000 in
/-- A cpx whose header fits, has a reserved bit, is of another count, leaves its slice; a putt and a gett; answers of each kind. -/
theorem witness_CopyCommands_start :
    let cpx : Instr := .cpx always .inn .core 0 (ma 8)
    let ok := hdrWords (own 512) 0 8
    let s := cpxOf ok none false cpx (ent 1 0 0)
    let putt : Instr := .putt always true 0 8 1
    let p := cpxOf [] none false putt (ent 3 0 0)
    let cmd (i : Instr) : CopyCmd := ⟨i, 1, 1, 1, false, 0, own 64, 0, 8, 0, [0, 8, 0, 0, 0, 0, 0, 0], [], false, 0, none, [], none⟩
    (copyOf cpx = some (.inn, .core, 1) ∧ copyOf putt = some (.outr, .pkg, 2) ∧ (s.core c0).mcheck = none ∧ (s.core c0).reqs = [])
      ∧ ((s.core c0).copies.filter CopyCmd.started).length + ((s.core c0).courses.foldl (fun n x => n + x.2.started.length + x.2.old.length) 0) < 2
      ∧ (s.core c0).copies.find? (fun x => !x.started) = some (cmd cpx) ∧ [0, 1].find? (fun p => !((s.core c0).copies.any fun x => x.started && x.place == p)) = some 0
      ∧ (tileBytes (ent 1 0 0) (cmd cpx).shape).isSome = true ∧ (List.range 8).map (s.sliceWord c0 64) = ok
      ∧ (thdrOf ok).isSome = true ∧ thdrOf [0, 0, 0, 8, 0, 2 ^ 63, 0, 0] = none
      ∧ (thdrOf ok).map (fun h => cpxCheck h 0 (cmd cpx).shape true) = some none ∧ (thdrOf ok).map THdr.leaves = some false
      ∧ (thdrOf (hdrWords (own 0x1FFFC) 0 8)).map (fun h => (cpxCheck h 0 (cmd cpx).shape true, h.leaves)) = some (none, true)
      ∧ (thdrOf (hdrWords (own 512) 0 7)).map (fun h => cpxCheck h 0 (cmd cpx).shape true) = some (some 0x6A)
      ∧ (thdrOf (hdrWords (own 512) 15 8)).map (fun h => cpxCheck h 0 (cmd cpx).shape true) = some (some 0x69)
      ∧ (p.core c0).copies.find? (fun x => !x.started) = some (cmd putt) ∧ p.sliceOf c0 (cmd putt).addr = some (c0, 64)
      ∧ p.sliceOf c0 (BitVec.ofNat 64 (2 ^ 63 + 200 * 2 ^ 33)) = none := by decide
theorem witness_CopyCommands_header :
    let s := cpxOf (hdrWords (own 512) 0 8) none false (.cpx always .inn .core 0 (ma 8)) (ent 1 0 0)
    InSlice s c0 1 false (own 64) 8 c0 64 := by
  refine ⟨by decide, by decide, by decide, by decide⟩
set_option maxRecDepth 8000 in
/-- The elements of a cpx that runs lie in a slice: bytes, halves of a byte, blocks, and an accumulator. -/
theorem witness_CopyCommands_moves :
    let cpx : Instr := .cpx always .inn .core 0 (ma 8)
    let s := cpxOf (hdrWords (own 512) 0 8) none true cpx (ent 1 0 0)
    let a (st : ReplyStatus) : Option Answer := some { status := st }
    ((s.core c0).copies.find? (fun x => x.started && x.place == 0)).isSome = true ∧ s.sees c0 c0 1 = true ∧ s.sliceAllowed false 1 c0 = true
      ∧ (∀ m, m < 8 → mformOk (own 512 + BitVec.ofNat 64 m) = true ∧ s.sliceOf c0 (own 512 + BitVec.ofNat 64 m) = some (c0, 512 + m))
      ∧ (shapeOf [0, 8, 0, 0, 0, 0, 0, 0]).map (fun h => (h.split, h.count)) = some (false, 8)
      ∧ (thdrOf (hdrWords (own 512) 11 8)).map (fun h => (h.fmt, h.count, h.off 3)) = some (11, 8, 3)
      ∧ (thdrOf [own 512, 0, 0x40, 0x10020, 0, 2 ^ 53 + 16 * 2 ^ 48 + 1, 0, 0]).map (fun h => (isPlane h.fmt, h.k % 32, h.soff)) = some (true, 0, 64)
      ∧ (thdrOf [own 512, 0, 0x800, 0x100010, 0, 2 ^ 53 + 13 * 2 ^ 48 + 16, 0, 0]).map (fun h => (h.fmt, h.count, h.soff)) = some (13, 256, 0x800)
      ∧ (thdrOf (hdrWords (own 512) 0 8)).map (fun h => s.cpxFar ⟨cpx, 1, 1, 1, false, 0, own 64, 0, 8, 0, [0, 8, 0, 0, 0, 0, 0, 0], [], true, 0, none, [], none⟩ c0
          (ent 1 0 0) == none && h.base == own 512) = some true
      ∧ ((a .ack).map Answer.status = some .ack ∧ (a .nack).map Answer.status = some .nack ∧ (a .retry).map Answer.status = some .retry) := by decide

/-- The peer of a putt before and after it has accepted; a READY tile with one reader and with two. -/
theorem witness_RemoteWrites_tiles :
    let k (st n : Nat) : Core := { tiles := [(0, ent st 0 0)], readers := [(0, n)] }
    (tileSt ((k 0 0).tile 0) = 0 ∧ (k 0 0).readersOf 0 = 0 ∧ tileSt ((k 1 0).tile 0) = 1 ∧ tileSt ((k 2 1).tile 0) = 2 ∧ (k 2 1).readersOf 0 ≤ 1
      ∧ 1 < (k 2 2).readersOf 0) ∧ tileBytes (ent 0 0 0) [0, 8, 0, 0, 0, 0, 0, 0] = some (8, 0) ∧ tileBytes (ent 0 0 0) [0, 0, 0, 0, 0, 0, 0, 0] = none := by decide

/-- A request that is behind another to a page that settles, and one that is not. -/
theorem witness_MemoryPackets_order :
    let m := req (.mem 0 0x10000 0) (.ld 8) 2
    let r (n : Nat) : Req := ⟨1, .strand, .ldPacket m, c1, 0, 0, [0, 0, 0, 0, 1, 1], n⟩
    let k : Core := { reqs := [(5, r 1), (4, r 0)], settling := [(1, 1)] }
    (r 1).page = some (1, 1) ∧ (1, 1) ∈ k.settling ∧ (4, r 0) ∈ k.reqs ∧ (r 0).page = some (1, 1) ∧ (r 0).seq < (r 1).seq
      ∧ (on 1 {}).aliases c0.crewNo ((r 0).loc c0 0 0x10000) = [] := by decide

/-- A line of a page that a stack controller's map reserves, and one of a page that none does. -/
theorem witness_PageMigration_reserved :
    let w := wake1 false none false (some ⟨c0, 1⟩) 0
    w.kres = false ∧ w.copied = 0 ∧ ((on 0 {}).pkg 0).frameReserved (w.oldFrame + w.copied / 1024) = false := by decide

/-- A control core's way to package 1 works or waits for a port; the windows of the system-call ports with nothing pending. -/
theorem witness_PackageServices_ways :
    let p (st : LinkSt) : Pkg := { boot := [(0, 0x10000000)], keys := [(0, [])], ports := (List.range 36).map fun i => (i, { st := st }) }
    let s (st : LinkSt) : State := { on 0 {} with pkgs := [(0, p st), (1, p st)] }
    ((s .active).pkgIn 0 1 = true ∧ (s .active).severed 0 1 = false ∧ (s .active).blocked 0 1 = false ∧ (s .down).blocked 0 1 = true ∧ (s .failed).severed 0 1 = true)
      ∧ ((s .active).pkg 1).keys.has 0 = true ∧ ((s .active).pkg 1).wakes = [] ∧ ((s .active).agenda.filter fun q => q.chan == windowChan 0).map Pending.step = []
      ∧ (2 ^ 53 + 0x20000 + 0x1000 * 1 + 0x18) / 2 ^ 52 % 16 = 2 ∧ (2 ^ 53 + 0x20000) % 2 ^ 52 = 0x20000 + 0x1000 * 0 + 0 := by decide

/-- Values of word 0x18 within and outside FLOWGAP's range. -/
theorem witness_BringUp_block : 500 ≤ (500 : Nat) ∧ (500 : Nat) ≤ 1000000 ∧ (499 : Nat) < 500 ∧ ({ boot := [(0x38, 1)] } : Pkg).isLocked = true
    ∧ ({} : Pkg).isLocked = false := by decide

/-- A strand whose trap has had to wait is taken on first; an agenda with nothing urgent. -/
theorem witness_IssueChecks_taking :
    let s : State := { on 1 { taking := some { cause := 13 } } with turn := some ⟨c0, 1⟩ }
    s.turn = some ⟨c0, 1⟩ ∧ (s.strand ⟨c0, 1⟩).taking = some { cause := 13 } ∧ (on 1 {}).agenda = [] := by decide

/-- The word of add g3, g1, g2, fetched next by slot 0 of c0 after reset. -/
def fetched : State := State.reset.withFetchWord 96 0x02000C108000000000000000

set_option maxRecDepth 4000 in
/-- The next instruction of slot 0. When every strand may move, which one does is a free value: whether the choice falls on a strand cannot be
shown of any state, which is the model's intent. -/
theorem witness_StepRunsDecoded :
    let x := fetched.strand ⟨c0, 0⟩
    let bs := lineWith 0 0x02000C108000000000000000
    x.issued = none ∧ x.taking = none ∧ x.upcalls = [] ∧ pcFormOk x.pc = true ∧ (fetched.core c0).cachedLine (fetched.ctxOf ⟨c0, 0⟩) x.pc = some bs ∧ lineOk bs = true
      ∧ x.checkT = false ∧ decode (lineSlot bs (x.pc.toNat % 8)) = .ok (.add always 3 1 2) ∧ (⟨c0, 0⟩ : StrandId).slot = 0
      ∧ fetched.turn = some ⟨c0, 0⟩ := by
  intro x bs
  have h : lineSlot bs (x.pc.toNat % 8) = 0x02000C108000000000000000#96 := by decide
  rw [h]
  exact ⟨rfl, rfl, rfl, by decide, by decide, by decide, rfl, by decide, rfl, rfl⟩

theorem witness_IssueChecks :
    let bs := lineWith 0 0x02000C108000000000000000
    let zero := lineWith 0 0
    let rsvd := bs.set 60 1
    let clear := bs.set 62 0
    let s (x : Strand) (l : List ILine) : State := { on 1 x { icache := l } with turn := some ⟨c0, 1⟩ }
    ((s {} []).turn = some ⟨c0, 1⟩ ∧ pcFormOk 5 = false ∧ pcFormOk 4 = true ∧ pcFormOk 8 = false ∧ ((s {} []).core c0).cachedLine 1 0 = none
        ∧ ((s {} [⟨1, 0, bs⟩]).core c0).cachedLine 1 0 = some bs ∧ lineOk bs = true ∧ lineOk rsvd = false
        ∧ lineTarget clear 0 = false ∧ lineOk clear = true ∧ ((s { checkT := true } []).strand ⟨c0, 1⟩).checkT = true)
      ∧ decode (lineSlot bs 0) = .ok (.add always 3 1 2) ∧ yieldGuard (.add always 3 1 2) = none ∧ ((s {} []).strand ⟨c0, 1⟩).left = 0
      ∧ (1 : Nat) ≠ 0 ∧ decode (lineSlot zero 0) = .error .zero ∧ ((s { issued := some (.nnext always) } []).strand ⟨c0, 1⟩).issued = some (.nnext always)
      ∧ ((s { upcalls := [{ cause := 13 }] } []).strand ⟨c0, 1⟩).upcalls = { cause := 13 } :: [] := by
  intro bs zero rsvd clear s
  have h : lineSlot bs 0 = 0x02000C108000000000000000#96 := by decide
  have h' : lineSlot zero 0 = 0 := by decide
  rw [h, h']
  and_intros <;> first | rfl | decide

theorem witness_DecodeEncode : (Instr.add always 3 1 2).encodable = true ∧ (Instr.add always 3 1 2).wf = true := by decide
theorem witness_WordsHaveOneMeaning : decode 0x02000C108000000000000000#96 = .ok (.add always 3 1 2) := by decide
theorem witness_EveryStepKeepsMemory : State.reset.mem.wf = true ∧ (put (on 1 {}) 0 0x0100).mem.wf = true := by decide

/-! ## Ill-formed terms, one for each operand rule -/

theorem wf_scalar : (Instr.ext always false 1 2 1 63).wf = false ∧ (Instr.ext always false 1 2 0 63).wf = true ∧ (Instr.ins always 1 2 32 32).wf = false
    ∧ (Instr.call always 0 1).wf = false ∧ (Instr.loop always 0 1).wf = false ∧ (Instr.yield always 0 0).wf = false
    ∧ (Instr.fadd always .f8a false 1 2 3).wf = false ∧ (Instr.fcmp always .eq .f4 1 2 3).wf = false := by decide

/-- A vector operation's type, its kinds of operands, its destination and its mode bits. -/
theorem wf_vector :
    let o : VOps := { dst := .tile 4, a := .tile 1, b := .tile 2, c := .none, shape := 0 }
    let one : VOps := { o with b := .none }
    (Instr.vadd always .f32 o).wf = true ∧ (Instr.vadd always .f8a o).wf = false ∧ (Instr.vadd always .f32 { o with c := .tile 3 }).wf = false
      ∧ (Instr.vadd always .f32 { o with dst := .scalar 1 }).wf = false ∧ (Instr.vadd always .f32 { o with dst := .ring 0 1 }).wf = false
      ∧ (Instr.vadd always .f32 { o with hi := true }).wf = false ∧ (Instr.vadd always .f32 { o with sat := true }).wf = false
      ∧ (Instr.vadd always .s32 { o with rtz := true }).wf = false ∧ (Instr.vadd always .f32 { o with adva := true }).wf = false
      ∧ (Instr.vfma always .f32 o).wf = false ∧ (Instr.vabs always .n32 one).wf = false ∧ (Instr.vclmul always .s32 o).wf = false
      ∧ (Instr.vpopc always .f32 one).wf = false ∧ (Instr.viota always .f32 { o with a := .scalar 1, b := .scalar 2 }).wf = false
      ∧ (Instr.vred always .and .f32 one).wf = false ∧ (Instr.vcmp always .un .s32 o).wf = false ∧ (Instr.vsfu always .exp2 .s32 one).wf = false
      ∧ (Instr.vsel always .f32 o).wf = false ∧ (Instr.vbcast always .f32 o).wf = false ∧ (Instr.vperm always .f32 one).wf = false
      ∧ (Instr.vexpand always .f32 one).wf = false ∧ (Instr.vdot always .f32 one).wf = false ∧ (Instr.vamax always .s32 one).wf = false
      ∧ (Instr.vmax always .f32 { o with rtz := true }).wf = false ∧ (Instr.vcvt always .f16 .f32 { one with hi := true }).wf = false
      ∧ (Instr.vzip always 1 .f32 one).wf = false ∧ (Instr.vzip always 4 .f32 { one with a := .tile 61 }).wf = false
      ∧ (Instr.vunzip always 4 .f32 { one with dst := .tile 61 }).wf = false
      ∧ (Instr.csend always 8 { one with dst := .none, b := .scalar 5 }).wf = false
      ∧ (Instr.csend always 1 { one with dst := .tile 2, b := .scalar 5 }).wf = false := by decide

theorem wf_tensor :
    let o : TOps := { dst := .tile 4, a := .tile 1, b := .tile 2, c := .none }
    (Instr.tmma always ⟨1, true⟩ ⟨1, true⟩ false false o).wf = true ∧ (Instr.tmma always ⟨1, true⟩ ⟨1, true⟩ false false { o with b := .none }).wf = false
      ∧ (Instr.tzero always 1 { o with a := .scalar 1, b := .none }).wf = false ∧ (Instr.tacc always o).wf = false
      ∧ (Instr.treadBlk always ⟨0, true⟩ { o with b := .scalar 1 }).wf = false ∧ (Instr.thad always false false o).wf = false
      ∧ (Instr.tcap always 1 5 4 1 1).wf = false ∧ (Instr.tcap always 1 4 5 0 1).wf = false ∧ (Instr.tcap always 1 4 5 1 0).wf = false
      ∧ (Instr.tcap always 1 4 5 1 0x100000000).wf = false := by decide

theorem wf_memory : (Instr.rdef always 0 60 5).wf = false ∧ (Instr.rdef always 0 60 4).wf = true ∧ (Instr.qadvHead always 0 0).wf = false
    ∧ (Instr.qadvTail always 0 65).wf = false ∧ (Instr.atom always .add .h .core 0 false 1 (ma 2)).wf = false
    ∧ (Instr.atom always .fadd .d .core 0 false 1 (ma 2)).wf = false ∧ (Instr.atom always .cas .w .core 0 true 1 (ma 2)).wf = false
    ∧ (Instr.red always .swap .w .core false false 1 (ma 2)).wf = false ∧ (Instr.fence always .core 0).wf = false
    ∧ (Instr.pref always 0 .reach (ma 2)).wf = false := by decide

theorem wf_nets_events : (Instr.rtab always 1 3).wf = false ∧ (Instr.rtab always 1 21).wf = false ∧ (Instr.npool always false 0 1 0).wf = false
    ∧ (Instr.npool always false 0 1 0x100000000).wf = false ∧ (Instr.evnew always .gather .core false 1 2 3 4).wf = false
    ∧ (Instr.evnew always .sync .core false 1 2 3 4).wf = false ∧ (Instr.offer always (some 1) (some 1) none none 7 8).wf = false
    ∧ (Instr.offer always none none none none 7 8).wf = false ∧ (Instr.evtimer always true true 1 2 3).wf = false := by decide

theorem wf_fabric_system : (Instr.amsend always 1 2 59 0).wf = false ∧ (Instr.append always 1 10 6 false 4 0).wf = false
    ∧ (Instr.append always 1 59 5 false 4 0).wf = false ∧ (Instr.crsload always false 1 0).wf = false ∧ (Instr.crsload always false 1 1025).wf = false
    ∧ (Instr.syscall always 8 0 1 2).wf = false ∧ (Instr.syscall always 8 59 1 2).wf = false ∧ (Instr.eret always 2 true true).wf = false
    ∧ (Instr.eret always 0 true false).wf = false ∧ (Instr.smove always 9 7 0 false).wf = false ∧ (Instr.smoveHold always 9 0).wf = false
    ∧ (Instr.smoveRelease always 9 0).wf = false ∧ (Instr.sstart always 9 1 .pkg (.entry 3 64)).wf = false
    ∧ (Instr.sstart always 9 1 .pkg (.entry 0 0)).wf = false ∧ (Instr.hostirq always 0 7 1).wf = false ∧ (Instr.hostirq always 0 0 0).wf = false := by
  decide

/-- Hardware steps at places that do not exist: a core below the last row, a package, a port, a crew, a slot. -/
theorem wf_places : (Instr.stop ⟨0, 0, 200⟩).wf = false ∧ (Instr.stop ⟨0, 512, 0⟩).wf = false ∧ (Instr.stop ⟨4095, 511, 199⟩).wf = true
    ∧ (Instr.tamper 4096).wf = false ∧ (Instr.portReset 0 36).wf = false ∧ (Instr.crewleadWrite (4096 * 6400) 0).wf = false
    ∧ (Instr.instructionLineFill ⟨c0, 8⟩ 0).wf = false ∧ (Instr.flitRoute 0 0 200).wf = false ∧ (Instr.controlCoreAccess 0 8 (.load 0)).wf = false
    ∧ (Instr.ldPacket (req (.slice c0 131072) (.ld 8) 2)).wf = false ∧ (Instr.pcieInboundRequest 0 2 0 none).wf = false
    ∧ (Instr.illegalInstruction 8 0).wf = false ∧ (Instr.bagPop ⟨4096, 0, 0⟩).wf = false ∧ (Instr.offerResult (.hw ⟨0, 0, 200⟩ .copy 0)).wf = false := by
  decide

/-! ## Examples that the spec works out -/

/-- The f4 conversions printed below R83, and 0.2 (0x3E4C_CCCD). -/
theorem test_f4_conversion :
    let to4 (x : Nat) : Nat × Nat := FFmt.ofValue .f4 false false (FFmt.value .f32 x)
    FFmt.value .f4 (to4 0x40A00000).1 = FFmt.value .f4 6 ∧ (to4 0x40E00000) = (7, flOF ||| flNX) ∧ to4 0x3E4CCCCD = (0, flUF ||| flNX) := by decide
set_option maxRecDepth 4000 in
/-- The quantised block below R89: code 126, 6 and −1, NX. -/
theorem test_quantise :
    let q := quantBlock ⟨3, true⟩ ([0x40400000, 0xBF333333].map (FFmt.value .f32) ++ List.replicate 30 (FFmt.value .f32 0))
    q.1 = 126 ∧ q.2.1.take 3 = [6, -1, 0] ∧ q.2.2 = flNX := by decide
/-- The code decoded below R93. -/
theorem test_codebook : (cbDecode 0x2A5B 0x20135402).1 = [-3, 1, -5, -6, 4, -2, 1, 3] := by decide
/-- fadd.f32 of 1.0 and 1.5 · 2^−24, to nearest and toward zero (below R119). -/
theorem test_fadd :
    let x := FFmt.value .f32 0x3F800000
    let y := FFmt.value .f32 0x33C00000
    FFmt.addV .f32 false false x y = (0x3F800001, flNX) ∧ FFmt.addV .f32 true false x y = (0x3F800000, flNX) := by decide
/-- The sum of the row below R139: 1.0 with NX. -/
theorem test_reduce :
    let o : VOps := { dst := .tile 0, a := .tile 1, b := .none, c := .none, shape := 0 }
    vCompute (.red .add) .f32 o ⟨6, 1, (4, 1, 1, 1), (0, 0, 0), false, 0, 0, 0, 0⟩ [[0x3F800000, 0x4B800000, 0x3F800000, 0xCB800000]] [] []
      = ([[0x3F800000]], flNX) := by decide
/-- The running sum of the same row: 1.0, 2^24, 2^24, 0.0. -/
theorem test_scan :
    let o : VOps := { dst := .tile 0, a := .tile 1, b := .none, c := .none, shape := 0 }
    vCompute (.scan .add) .f32 o ⟨6, 1, (4, 1, 1, 1), (0, 0, 0), false, 0, 0, 0, 0⟩ [[0x3F800000, 0x4B800000, 0x3F800000, 0xCB800000]] [] []
      = ([[0x3F800000, 0x4B800000, 0x4B800000, 0]], flNX) := by decide
/-- The selection below R170: −4.0, then 4.0, then 0.5; the NaN is not selected. -/
theorem test_topk :
    let r := ([0x3F000000, 0xC0800000, 0x7FC00000, 0x40800000, 0x80000000] : List Nat).zipIdx.foldl (fun l p => topIns false 6 p l) []
    r.take 3 = [(0xC0800000, 1), (0x40800000, 3), (0x3F000000, 0)] := by decide
/-- The core at column 300, row 130 (below R13): crew 4,171, crew-local index 8, reach 12. -/
theorem test_places : (⟨0, 300, 130⟩ : CoreId).crewNo = 4171 ∧ (⟨0, 300, 130⟩ : CoreId).local_ = 8 ∧ (⟨0, 300, 130⟩ : CoreId).reach = 12 := by decide

/-! ## Single steps -/

/-- The state after an instruction. -/
def ran (i : Instr) (s : State) : State := got (exec i s)
/-- A user strand with values in g1, g2 and g3. -/
def regs (a b : Word) (c : Word := 0) : State := on 1 { g := [(1, a), (2, b), (3, c)], left := 9 }
/-- g4 after an instruction. -/
def g4 (i : Instr) (s : State) : Word := (ran i s).rg 4

theorem test_add_wraps : g4 (.add always 4 1 2) (regs 0xFFFFFFFFFFFFFFFF 2) = 1 ∧ (ran (.add always 0 1 2) (regs 1 2)).rg 0 = 0
    ∧ (ran (.add always 4 1 2) (regs 1 2)).me.pc = 1 ∧ (ran (.add always 4 1 2) (regs 1 2)).me.left = 8 := by decide
theorem test_sub_borrows : g4 (.sub always 4 1 2) (regs 1 2) = 0xFFFFFFFFFFFFFFFF := by decide
theorem test_mul_halves : g4 (.mul always 4 1 2) (regs 0x100000000 0x100000001) = 0x100000000 ∧ g4 (.mulh always .n 4 1 2) (regs 0xFFFFFFFFFFFFFFFF 2) = 1
    ∧ g4 (.mulh always .s 4 1 2) (regs 0xFFFFFFFFFFFFFFFF 2) = 0xFFFFFFFFFFFFFFFF
    ∧ g4 (.mulh always .sn 4 1 2) (regs 0xFFFFFFFFFFFFFFFF 0xFFFFFFFFFFFFFFFF) = 0xFFFFFFFFFFFFFFFF := by decide
/-- Worked below R109: −7 by 2 is −3, −1 left; 84 by 36 leaves 12. -/
theorem test_division : g4 (.div always false 4 1 2) (regs 0xFFFFFFFFFFFFFFF9 2) = 0xFFFFFFFFFFFFFFFD
    ∧ g4 (.rem always false 4 1 2) (regs 0xFFFFFFFFFFFFFFF9 2) = 0xFFFFFFFFFFFFFFFF ∧ g4 (.rem always true 4 1 2) (regs 84 36) = 12 := by decide
theorem test_shifts : g4 (.sar always 4 1 2) (regs 0x8000000000000000 63) = 0xFFFFFFFFFFFFFFFF ∧ g4 (.shr always 4 1 2) (regs 0x8000000000000000 63) = 1
    ∧ g4 (.shl always 4 1 2) (regs 1 64) = 1 ∧ g4 (.rot always 4 1 2) (regs 0x8000000000000001 1) = 3 := by decide
theorem test_counts : g4 (.clz always 4 1) (regs 0 0) = 64 ∧ g4 (.clz always 4 1) (regs 1 0) = 63 ∧ g4 (.popc always 4 1) (regs 0xFF00 0) = 8 := by decide
theorem test_selection : g4 (.min always false 4 1 2) (regs 0xFFFFFFFFFFFFFFFF 1) = 0xFFFFFFFFFFFFFFFF ∧ g4 (.max always true 4 1 2) (regs 0xFFFFFFFFFFFFFFFF 1)
      = 0xFFFFFFFFFFFFFFFF ∧ g4 (.sel always 4 1 2 1) (regs 5 6) = 6 ∧ g4 (.sel always 4 1 2 0) (regs 5 6) = 5 := by decide
theorem test_andn : g4 (.andn always 4 1 2) (regs 0xFF 0x0F) = 0xF0 := by decide
theorem test_compare : (ran (.cmp always .lt 1 1 2) (regs 0xFFFFFFFFFFFFFFFF 1)).rp 1 = true ∧ (ran (.cmp always .lo 1 1 2) (regs 0xFFFFFFFFFFFFFFFF 1)).rp 1 = false
    ∧ (ran (.cmpk always .eq 0 1 6) (regs 7 0)).rp 0 = true := by decide
theorem test_constants : g4 (.movk always 4 0xFFFFFFFFFFFF) (regs 0 0) = 0xFFFFFFFFFFFF ∧ g4 (.movh always 4 1 0xABCD) (regs 0x1234 0) = 0xABCD000000001234
    ∧ g4 (.addk always 4 1 0xFFFFFFFFFFFF) (regs 5 0) = 4 := by decide
theorem test_fields : g4 (.ext always true 4 1 4 3) (regs 0xF0 0) = 0xFFFFFFFFFFFFFFFF ∧ g4 (.ext always false 4 1 4 3) (regs 0xF0 0) = 15
    ∧ g4 (.ins always 4 1 60 3) (regs 0xF 0) = 0xF000000000000000 := by decide
/-- The addresses of the example below R116. -/
theorem test_coord : g4 (.coord always true 4 1 2) (regs 1 0x1E000) = 0xC00002000001E000 ∧ g4 (.coord always true 4 1 2) (regs 0x1FF 0x1E000) = 0xC003FE000001E000
    ∧ g4 (.decoord always .col 4 1) (regs 0xC003FE000001E000 0) = 0xFFFFFFFFFFFFFFFF := by decide
/-- A branch counts slots, five to a line: from slot 4 of a line −4 is its slot 0, +1 the next line's slot 0. -/
theorem test_branch : (ran (.br always (-4)) (on 1 { pc := 68 })).me.pc = 64 ∧ (ran (.br always 1) (on 1 { pc := 68 })).me.pc = 128
    ∧ (ran (.call always 5 2) (on 1 { pc := 3 })).rg 5 = 4 ∧ (ran (.call always 5 2) (on 1 { pc := 3 })).me.pc = 64 := by decide
theorem test_loop : (ran (.loop always 1 (-1)) (on 1 { g := [(1, 1)], pc := 1 })).me.pc = 2 ∧ (ran (.loop always 1 (-1)) (on 1 { g := [(1, 2)], pc := 1 })).me.pc = 0
    ∧ (ran (.loop always 1 (-1)) (on 1 { g := [(1, 2)], pc := 1 })).rg 1 = 1 := by decide
theorem test_guard : (ran (.add never 4 1 2) (regs 1 2)).rg 4 = 0 ∧ (ran (.add never 4 1 2) (regs 1 2)).me.pc = 1 := by decide
theorem test_yield : (ran (.yield always 8 0x81) (on 1 { left := 1 })).me.left = 8 ∧ (ran (.yield always 8 0x81) (on 1 { left := 1 })).me.live = 0x81 := by decide

theorem test_store_load : (ran (.st always .w 2 (ma 1)) (regs (own 8) 0x1122334455667788)).mem = [(2 ^ 52 + 8, 0x88), (2 ^ 52 + 9, 0x77), (2 ^ 52 + 10, 0x66), (2 ^ 52 + 11, 0x55)]
    ∧ g4 (.ld always true .h 4 (ma 1)) (put (regs (own 8) 0) 8 0xFF80) = 0xFFFFFFFFFFFFFF80
    ∧ g4 (.ld always false .h 4 (ma 1)) (put (regs (own 8) 0) 8 0xFF80) = 0xFF80 := by decide
theorem test_atom : g4 (.atom always .add .w .core 0 false 4 ⟨1, 2, 0⟩) (put (regs (own 8) 3) 8 0xFFFFFFFF) = 0xFFFFFFFF
    ∧ (ran (.atom always .add .w .core 0 false 4 ⟨1, 2, 0⟩) (put (regs (own 8) 3) 8 0xFFFFFFFF)).sread c0 8 8 = 2 := by decide
/-- The entry that the descriptor below R210 gives: READY, shape 2, format 6, base 0x1000. -/
theorem test_tdef : let w := (ran (.tdef always 3 0 0x9841000) (regs 0 0)).myCore.tile 3
    tileSt w = 2 ∧ tileShape w = 2 ∧ tileFmt w = 6 ∧ tileBase w = 0x1000 := by decide
theorem test_ring : (ran (.rdef always 1 3 2) (regs 0 0)).myCore.ring 1 = ⟨3, 2, 0, 0, 0, 2⟩ := by decide
theorem test_park : (ran (.ld always false .d 4 (ma 6)) (mapped leafW1 { g := places, left := 9 })).me.mode = .trapped := by decide

theorem test_nget : g4 (.nget always 4 1 1) (put (regs (own 0) 0) 8 0x42) = 0x42 := by decide
theorem test_nset : (ran (.nset always 1 1 2) (regs (own 0) 7)).sread c0 8 8 = 7 := by decide
theorem test_npush : (ran (.npush always 1 2) (regs (own 0) (own 32))).myCore.bag = [(own 0, own 32)] := by decide

theorem test_evnew : ((ran (.evnew always .sync .crew false 0 1 2 0) (regs 7 2)).crew 0).events.map (fun r => (r.ev, r.count)) = [(ev1, 2)]
    ∧ hOk ((ran (.evnew always .sync .crew false 0 1 2 0) (regs 7 2)).me.re 0) = true := by decide
theorem test_offer : (ran (.offer always (some 0) none none none 1 2) (on 1 { e := [(0, mkHandle 7 .crew .sync false 0)], g := [(1, 10000)] })).me.mode = .waiting := by
  decide
theorem test_amsend_waits : (ran (.amsend always 1 2 3 7) (regs (own 0) 64)).me.hold = .wait 0 := by decide

theorem test_trap_user : (ran (.trap always false 5) (on 1 {})).me.mode = .trapped ∧ (ran (.trap always false 5) (on 1 {})).myCore.reports.length = 1 := by decide
theorem test_csr : g4 (.csrr always 4 3) (on 1 { sticky := 0x11 }) = 0x11 ∧ (ran (.csrw always 0 3 (.imm 0xFFFF)) (on 1 {})).me.sticky = 0xF1F
    ∧ (ran (.csrc always 0 3 (.imm 0x10)) (on 1 { sticky := 0x11 })).me.sticky = 1 := by decide
/-- A user strand that issues halt traps; slot 0 runs it. -/
theorem test_privilege : (ran (.halt always) (on 1 {})).me.mode = .trapped ∧ (ran (.halt always) (on 1 {})).myCore.reports.map (fun r => r.cause) = [1] := by decide
theorem test_tlbi : (ran (.tlbi always .all false 0 0) (on 0 {} { dtlb := [⟨1, 1, 5, leafW1, none⟩] })).myCore.dtlb = [] := by decide
theorem test_sexit : (ran (.sexit always none) (on 1 { mode := .ready })).me.mode = .free := by decide
/-- The word stored by withFetchWord runs as the first instruction after reset. -/
theorem test_first_step : (got (step (State.reset.withFetchWord 96 0x170004000000000000000054))).rg 1 = 84 := by decide

end Sys2Proof.Tests
end

section
/-! What registers, tile entries and boot fields read while nothing is listed in their maps, and from that the state after cold reset (R370). -/

namespace Sys2Proof.Machine

/-! ## Registers of a strand and of a core that were never written -/

theorem Strand.rg_of_g_nil {x : Strand} (h : x.g = []) (r : Reg) : x.rg r = 0 := by simp [Strand.rg, h]
theorem Strand.rp_of_p_zero {x : Strand} (h : x.p = 0) (r : PReg) : x.rp r = (r == 0) := by simp [Strand.rp, h]
theorem Strand.re_of_e_nil {x : Strand} (h : x.e = []) (e : EReg) : x.re e = eReset := by simp [Strand.re, h]
theorem Core.tile_of_tiles_nil {k : Core} (h : k.tiles = []) (n : Nat) : k.tile n = 0 := by simp [Core.tile, h]
theorem Core.ring_of_rings_nil {k : Core} (h : k.rings = []) (q : Nat) : k.ring q = ⟨0, 0, 0, 0, 0, 0⟩ := by
  simp [Core.ring, h, ringOf, bitsN]

/-! ## The boot configuration that was never written (R371) -/

theorem Pkg.bootWord_of_boot_nil {p : Pkg} (h : p.boot = []) (off : Nat) : p.bootWord off = (bootReset off).toNat := by
  simp [Pkg.bootWord, h]
theorem Pkg.isLocked_of_boot_nil {p : Pkg} (h : p.boot = []) : p.isLocked = false := by
  simp [Pkg.isLocked, Pkg.bootWord_of_boot_nil h, bootReset]
theorem Pkg.shedT_of_boot_nil {p : Pkg} (h : p.boot = []) : p.shedT = 16 := by
  simp [Pkg.shedT, Pkg.bootWord_of_boot_nil h, bootReset, bitsN]
theorem Pkg.flowGap_of_boot_nil {p : Pkg} (h : p.boot = []) : p.flowGap = 2000 := by
  simp [Pkg.flowGap, Pkg.bootWord_of_boot_nil h, bootReset, bitsN]
theorem Pkg.ctxTab_of_boot_nil {p : Pkg} (h : p.boot = []) : p.ctxTab = 0 := by
  simp [Pkg.ctxTab, Pkg.bootWord_of_boot_nil h, bootReset, bitsN]
/-- FMIN, in the upper half of word 0x20, is 1,000, and PLIMIT, in its low bits, is 4,000. -/
theorem Pkg.governor_of_boot_nil {p : Pkg} (h : p.boot = []) :
    p.bootWord 0x20 / 2 ^ 32 = 1000 ∧ p.bootWord 0x20 % 2 ^ 13 = 4000 := by
  simp [Pkg.bootWord_of_boot_nil h, bootReset]

/-! ## DEVID (R57) -/

theorem stepping_field_lt : max 1 Config.stepping.toNat < 2 ^ 8 := Nat.max_lt.2 ⟨by decide, Config.stepping.isLt⟩

/-- A stepping takes 8 bits, so no field of DEVID runs into the next. -/
theorem devid_toNat : devid.toNat = 0x4858 * 2 ^ 48 + 0x7102 * 2 ^ 32 + max 1 Config.stepping.toNat * 2 ^ 24 := by
  have hstep := stepping_field_lt
  unfold devid
  rw [BitVec.toNat_ofNat]
  exact Nat.mod_eq_of_lt (by linarith)

theorem devid_fields :
    devid.toNat / 2 ^ 48 = 0x4858 ∧ devid.toNat / 2 ^ 32 % 2 ^ 16 = 0x7102 ∧ devid.toNat % 2 ^ 24 = 0 := by
  rw [devid_toNat]
  have hstep := stepping_field_lt
  omega

/-! ## The parts of the state after reset -/

theorem State.reset_strand (t : StrandId) : State.reset.strand t = {} := rfl
theorem State.reset_core (c : CoreId) : State.reset.core c = {} := rfl
theorem State.reset_crew (n : Nat) : State.reset.crew n = {} := rfl
theorem State.reset_pkg (n : Nat) : State.reset.pkg n = {} := rfl
theorem State.reset_mem_read (a : Nat) : State.reset.mem.read a = 0 := rfl
theorem State.reset_sent_bringUpPhase : Sent (.bringUpPhase 0) State.reset := ⟨_, List.mem_singleton_self _, rfl⟩

/-- Settles O59: strands, cores, crews and packages are unlisted at reset, so each is at its default, whose maps list nothing. -/
theorem resetState : Obligations.ResetState := by
  obtain ⟨hvendor, hpart, hlow⟩ := devid_fields
  refine ⟨fun t => ?strand, fun c => ?core, fun n => ?crew, fun n => ?pkg, hvendor, hpart, hlow,
    State.reset_sent_bringUpPhase, by rw [State.reset_pkg], rfl⟩
  case strand =>
    rw [State.reset_strand]
    exact ⟨Strand.rg_of_g_nil rfl, Strand.rp_of_p_zero rfl, Strand.re_of_e_nil rfl, rfl, rfl, rfl, rfl, rfl, rfl, rfl, rfl⟩
  case core =>
    rw [State.reset_core]
    exact ⟨Core.tile_of_tiles_nil rfl, Core.ring_of_rings_nil rfl, by simp, rfl, rfl, fun off _ => State.reset_mem_read _⟩
  case crew =>
    rw [State.reset_crew]
    exact ⟨rfl, rfl, rfl, rfl⟩
  case pkg =>
    rw [State.reset_pkg]
    have hboot : ({} : Pkg).boot = [] := rfl
    obtain ⟨hfmin, hplimit⟩ := Pkg.governor_of_boot_nil hboot
    exact ⟨rfl, rfl, Pkg.isLocked_of_boot_nil hboot, Pkg.shedT_of_boot_nil hboot, Pkg.flowGap_of_boot_nil hboot, hfmin, hplimit,
      Pkg.ctxTab_of_boot_nil hboot, by rw [Pkg.bootWord_of_boot_nil hboot]; rfl, fun _ => rfl⟩

end Sys2Proof.Machine
end

section
/-! SUPPORT. The values of the scalar instructions as numbers and as bits: sums, products and shifts modulo 2^64, division toward zero, counts,
bit fields and addresses. -/

namespace Sys2Proof.Machine

/-! ## Numbers and bit vectors -/

theorem bitsN_toNat {n : Nat} (x : BitVec n) {hi lo w : Nat} (h : hi + 1 - lo = w) : bitsN x.toNat hi lo = (x.extractLsb' lo w).toNat := by
  rw [bitsN, h, BitVec.extractLsb'_toNat, Nat.shiftRight_eq_div_pow]

/-- sext(x, n) of R9 is the n low bits of x as a signed word. -/
theorem sextN_eq_toInt (x : Nat) {n : Nat} (hn : 0 < n) : sextN x n = (BitVec.ofNat n x).toInt := by
  obtain ⟨k, rfl⟩ : ∃ k, n = k + 1 := ⟨n - 1, by omega⟩
  have hcond : 2 * (x % 2 ^ (k + 1)) < 2 ^ (k + 1) ↔ x % 2 ^ (k + 1) < 2 ^ k := by
    rw [Nat.pow_succ' (n := k)]; omega
  rw [sextN, BitVec.toInt_eq_toNat_cond, BitVec.toNat_ofNat, Nat.add_sub_cancel]
  simp only [hcond]

theorem ofI_sextN (x : Nat) {n : Nat} (hn : 0 < n) : ofI (sextN x n) = (BitVec.ofNat n x).signExtend 64 := by
  rw [ofI, sextN_eq_toInt x hn]; rfl

theorem toNat_append_eq_add {m n : Nat} (x : BitVec m) (y : BitVec n) : (x ++ y).toNat = x.toNat * 2 ^ n + y.toNat := by
  rw [BitVec.toNat_append, ← Nat.shiftLeft_add_eq_or_of_lt y.isLt, Nat.shiftLeft_eq]

/-! ## Arithmetic -/

theorem mul_eq_ofNat (x y : Word) : x * y = BitVec.ofNat 64 (x.toNat * y.toNat) := by
  rw [BitVec.ofNat_mul]; simp
theorem sub_eq_ofInt (x y : Word) : x - y = BitVec.ofInt 64 ((x.toNat : Int) - y.toNat) := by
  rw [Int.sub_eq_add_neg, BitVec.ofInt_add, BitVec.ofInt_neg, BitVec.ofInt_natCast, BitVec.ofInt_natCast, BitVec.sub_eq_add_neg]; simp
theorem mulhVal_n (x y : Word) : mulhVal .n x y = BitVec.ofNat 64 (x.toNat * y.toNat / 2 ^ 64) := by
  rw [← BitVec.ofInt_natCast]; rfl

/-! ## Shifts -/

theorem toNat_low6 (y : Word) : (y.extractLsb' 0 6).toNat = y.toNat % 64 := by
  rw [BitVec.extractLsb'_toNat]; rfl
theorem shl_eq_ofNat (x : Word) (n : Nat) : x <<< n = BitVec.ofNat 64 (x.toNat * 2 ^ n) := by
  apply BitVec.eq_of_toNat_eq
  rw [BitVec.toNat_shiftLeft, BitVec.toNat_ofNat, Nat.shiftLeft_eq]
theorem shr_eq_ofNat (x : Word) (n : Nat) : x >>> n = BitVec.ofNat 64 (x.toNat / 2 ^ n) := by
  apply BitVec.eq_of_toNat_eq
  rw [BitVec.toNat_ushiftRight, Nat.shiftRight_eq_div_pow, BitVec.toNat_ofNat, Nat.mod_eq_of_lt (lt_of_le_of_lt (Nat.div_le_self ..) x.isLt)]
theorem sar_eq_ofInt (x : Word) (n : Nat) : x.sshiftRight n = BitVec.ofInt 64 (x.toInt / 2 ^ n) := by
  rw [BitVec.sshiftRight_eq, Int.shiftRight_eq_div_pow]; push_cast; rfl
/-- The bits that a rotation brings round fill the zeros of the shift. -/
theorem rotateLeft_eq_ofNat (x : Word) {n : Nat} (hn : n < 64) :
    x.rotateLeft n = BitVec.ofNat 64 (x.toNat * 2 ^ n + x.toNat / 2 ^ (64 - n)) := by
  have hlow : x.toNat / 2 ^ (64 - n) < 2 ^ n := by
    rw [Nat.div_lt_iff_lt_mul (by positivity), ← Nat.pow_add, Nat.add_sub_cancel' hn.le]; exact x.isLt
  rw [BitVec.rotateLeft_def, Nat.mod_eq_of_lt hn, ← Nat.shiftLeft_eq, Nat.shiftLeft_add_eq_or_of_lt hlow, BitVec.ofNat_or, Nat.shiftLeft_eq,
    ← shl_eq_ofNat, ← shr_eq_ofNat]

/-! ## Division (R109) -/

/-- The quotient of R109 from the magnitudes and the sign is the one rounded toward zero. -/
theorem signed_natAbs_div (x y : Int) :
    (if x * y < 0 then -((x.natAbs / y.natAbs : Nat) : Int) else ((x.natAbs / y.natAbs : Nat) : Int)) = x.tdiv y := by
  have habs : (x.tdiv y).natAbs = x.natAbs / y.natAbs := Int.natAbs_tdiv x y
  rw [← habs]
  split
  case isTrue hneg =>
    have : x.tdiv y ≤ 0 := by
      rcases mul_neg_iff.1 hneg with ⟨hx, hy⟩ | ⟨hx, hy⟩
      · exact Int.tdiv_nonpos_of_nonneg_of_nonpos hx.le hy.le
      · have hflip : 0 ≤ (-x).tdiv y := Int.tdiv_nonneg (neg_nonneg.2 hx.le) hy.le
        rw [Int.neg_tdiv] at hflip
        omega
    omega
  case isFalse hpos =>
    have : 0 ≤ x.tdiv y := by
      rcases mul_nonneg_iff.1 (not_lt.1 hpos) with ⟨hx, hy⟩ | ⟨hx, hy⟩
      · exact Int.tdiv_nonneg hx hy
      · exact Int.tdiv_nonneg_of_nonpos_of_nonpos hx hy
    omega

theorem divRem_eq (unsigned : Bool) (a b : Nat) {x y : Int} (hx : intVal (!unsigned) 64 a = x) (hy : intVal (!unsigned) 64 b = y) :
    divRem (!unsigned) a b =
      (if y = 0 then 2 ^ 64 - 1 else if unsigned = false ∧ x = -2 ^ 63 ∧ y = -1 then -2 ^ 63 else x.tdiv y,
        if y = 0 then x else if unsigned = false ∧ x = -2 ^ 63 ∧ y = -1 then 0 else x.tmod y) := by
  simp only [divRem, signed_natAbs_div, ← Int.tmod_def, hx, hy, Bool.not_eq_true', Nat.cast_pow, Nat.cast_ofNat]
  split_ifs <;> rfl

/-- A register read as signed, or as it is (.n). -/
theorem intVal_not (unsigned : Bool) (x : Word) : intVal (!unsigned) 64 x.toNat = if unsigned then (x.toNat : Int) else x.toInt := by
  cases unsigned
  case false => rw [Bool.not_false, intVal, if_pos rfl, sextN_eq_toInt _ (by decide), BitVec.ofNat_toNat, BitVec.setWidth_eq]; rfl
  case true => rw [Bool.not_true, intVal, if_neg (by decide), zextN, Nat.mod_eq_of_lt x.isLt]; rfl

/-! ## Counts (R110) -/

theorem popN_eq_countP (n x : Nat) : popN n x = (List.range n).countP x.testBit := by
  induction n generalizing x with
  | zero => rfl
  | succ n ih =>
    have hbit : x % 2 = if x.testBit 0 then 1 else 0 := by
      rcases Nat.mod_two_eq_zero_or_one x with h | h <;> simp [h]
    rw [List.range_succ_eq_map, List.countP_cons, List.countP_map, popN, ih, hbit, Nat.add_comm]
    congr 2
    funext k
    exact (Nat.testBit_succ x k).symm

theorem clz64_of_ne_zero {x : Nat} (h : x ≠ 0) : clz64 x = 63 - x.log2 := if_neg h
theorem clz64_le (x : Nat) : clz64 x ≤ 64 := by unfold clz64; split <;> omega
theorem getLsbD_above_clz64 (x : Word) {k : Nat} (hk : k < clz64 x.toNat) : x.getLsbD (63 - k) = false := by
  by_cases h : x.toNat = 0
  · have : x = 0 := BitVec.eq_of_toNat_eq h
    simp [this]
  · rw [clz64_of_ne_zero h] at hk
    exact Nat.testBit_lt_two_pow (lt_of_lt_of_le Nat.lt_log2_self (Nat.pow_le_pow_right (by decide) (by omega)))
theorem getLsbD_at_clz64 (x : Word) (hn : clz64 x.toNat < 64) : x.getLsbD (63 - clz64 x.toNat) = true := by
  have h : x.toNat ≠ 0 := by rintro h; simp [clz64, h] at hn
  have hlt : x.toNat.log2 < 64 := (Nat.log2_lt h).2 x.isLt
  rw [clz64_of_ne_zero h, Nat.sub_sub_self (by omega)]
  exact Nat.testBit_log2 h

/-! ## Bit fields (R113) -/

theorem extVal_false (x : Word) (lo w : Nat) : extVal false x lo w = (x.extractLsb' lo w).setWidth 64 := by
  apply BitVec.eq_of_toNat_eq
  simp [extVal, zextN, BitVec.extractLsb'_toNat, Nat.shiftRight_eq_div_pow]
theorem extVal_true (x : Word) (lo : Nat) {w : Nat} (hw : 0 < w) : extVal true x lo w = (x.extractLsb' lo w).signExtend 64 := by
  rw [extVal, if_pos rfl, ofI_sextN _ hw, ← Nat.shiftRight_eq_div_pow]; rfl
/-- Within the field the inserted bits, outside it those that were there. -/
theorem getLsbD_insVal (d a : Word) {lo w k : Nat} (hk : k < 64) :
    (insVal d a lo w).getLsbD k = if lo ≤ k ∧ k < lo + w then a.getLsbD (k - lo) else d.getLsbD k := by
  have hmask : (BitVec.ofNat 64 (2 ^ w - 1) <<< lo).getLsbD k = decide (lo ≤ k ∧ k < lo + w) := by
    rw [BitVec.getLsbD_shiftLeft, BitVec.getLsbD_ofNat, Nat.testBit_two_pow_sub_one]
    by_cases hlo : lo ≤ k
    · have hsub : k - lo < w ↔ k < lo + w := by omega
      simp [hk, hlo, hsub, show ¬ k < lo by omega, show k - lo < 64 by omega]
    · simp [hlo, show k < lo by omega]
  simp only [insVal, BitVec.getLsbD_or, BitVec.getLsbD_and, BitVec.getLsbD_not, hmask, BitVec.getLsbD_shiftLeft]
  by_cases h : lo ≤ k ∧ k < lo + w
  · simp [h, hk, show ¬ k < lo by omega]
  · simp [h, hk]

/-! ## Immediates and addresses (R48, R112, R115, R116) -/

theorem addk_eq_ofInt (x : Word) (imm : Imm48) : x + imm.signExtend 64 = BitVec.ofInt 64 (x.toNat + imm.toInt) := by
  rw [BitVec.ofInt_add, BitVec.ofInt_natCast, BitVec.ofNat_toNat, BitVec.setWidth_eq]; rfl
theorem ea48_eq_ofInt (base idx : Word) (k : Nat) (disp : Imm48) :
    ea48 base idx k disp = BitVec.ofInt 64 (base.toNat + idx.toNat * 2 ^ k + disp.toInt) := by
  rw [ea48, BitVec.ofInt_add, BitVec.ofInt_add, shl_eq_ofNat, ← BitVec.ofInt_natCast 64 (_ * _), BitVec.ofInt_natCast 64 base.toNat]
  simp [BitVec.signExtend]

theorem coordVal_eq (rel : Bool) (x y : Word) :
    coordVal rel x y = (1 : BitVec 1) ++ BitVec.ofBool rel ++ x.extractLsb' 32 12 ++ x.extractLsb' 0 9 ++ x.extractLsb' 16 8 ++ (0 : BitVec 16)
      ++ y.extractLsb' 0 17 := by
  rw [coordVal, bitsN_toNat x (w := 12) rfl, bitsN_toNat x (w := 9) rfl, bitsN_toNat x (w := 8) rfl, bitsN_toNat y (w := 17) rfl]
  refine Eq.trans (congrArg (BitVec.ofNat 64) ?_) ((BitVec.ofNat_toNat 64 _).trans (BitVec.setWidth_eq _))
  simp only [toNat_append_eq_add]
  cases rel <;> simp <;> ring

theorem decoordVal_unsigned (x : Word) {hi lo w : Nat} (h : hi + 1 - lo = w) :
    BitVec.ofNat 64 (bitsN x.toNat hi lo) = (x.extractLsb' lo w).setWidth 64 := by
  rw [bitsN_toNat x h, BitVec.ofNat_toNat]
theorem decoordVal_signed (x : Word) {hi lo w : Nat} (h : hi + 1 - lo = w) (hw : 0 < w) :
    ofI (sextN (bitsN x.toNat hi lo) w) = (x.extractLsb' lo w).signExtend 64 := by
  rw [bitsN_toNat x h, ofI_sextN _ hw, BitVec.ofNat_toNat, BitVec.setWidth_eq]

end Sys2Proof.Machine
end

section
/-! SUPPORT. How the decoder reads the packed words of OPs 0x01 to 0x2F, by the form of their rows (R59, R69). -/

namespace Sys2Proof

/-! ## Decoding a packed word -/

theorem decode_packG (op : BitVec 8) (var : BitVec 4) (g : Guard) (d a b c : BitVec 6) (m : BitVec 8) :
    decode (packG op var g d a b c m) = decodeOp op.toNat (packG op var g d a b c m) := by rw [decode, fOp_packG]
theorem decode_packK (op : BitVec 8) (var : BitVec 4) (g : Guard) (d a : BitVec 6) (m : BitVec 20) (i : Imm48) :
    decode (packK op var g d a m i) = decodeOp op.toNat (packK op var g d a m i) := by rw [decode, fOp_packK]
theorem decode_packM (op : BitVec 8) (var : BitVec 4) (g : Guard) (d a b : BitVec 6) (size scope : BitVec 3) (ord m : BitVec 4) (i : Imm48) :
    decode (packM op var g d a b size scope ord m i) = decodeOp op.toNat (packM op var g d a b size scope ord m i) := by
  rw [decode, fOp_packM]

@[simp] theorem zf_zero (pos n : Nat) : zf pos 0#n = (pos, false) := by simp [zf]
theorem zf_of_ne {n : Nat} {x : BitVec n} (h : x ≠ 0) (pos : Nat) : zf pos x = (pos, true) := by simpa [zf] using h
@[simp] theorem firstBad_nil : firstBad [] = none := rfl
@[simp] theorem firstBad_passed (p : Nat) (l : List (Nat × Bool)) : firstBad ((p, false) :: l) = firstBad l := rfl
@[simp] theorem firstBad_failed (p : Nat) (l : List (Nat × Bool)) : firstBad ((p, true) :: l) = some p := rfl
theorem exists_firstBad {l : List (Nat × Bool)} (h : ∃ x ∈ l, x.2 = true) : ∃ p, firstBad l = some p := by
  induction l with
  | nil => simp at h
  | cons x l ih =>
    obtain ⟨p, _ | _⟩ := x
    · exact ih (by simpa using h)
    · exact ⟨p, rfl⟩
theorem checked_of_rsvd {rs os : List (Nat × Bool)} {i : Instr} {p : Nat} (h : firstBad rs = some p) : checked rs os i = .error (.rsvd p) := by
  rw [checked, h]
theorem overP_of_ge {x : BitVec 6} (h : 8 ≤ x.toNat) : overP x = true := by
  have hx := x.isLt
  rw [overP, bne_iff_ne]
  intro hzero
  have hdiv : x.toNat / 8 % 8 = 0 := by
    simpa [BitVec.extractLsb'_toNat, Nat.shiftRight_eq_div_pow] using congrArg BitVec.toNat hzero
  omega

theorem Cond.of_eq_none {v : BitVec 4} (h : 10 ≤ v.toNat) : Cond.of v = none := by
  unfold Cond.of; split <;> simp_all
theorem CoordField.of_eq_none {v : BitVec 4} (h : 5 ≤ v.toNat) : CoordField.of v = none := by
  unfold CoordField.of; split <;> simp_all

section
variable {op : BitVec 8} (g : Guard)

/-- A row of three g registers and VAR 0. -/
theorem decode_dGGG {mk : Guard → Reg → Reg → Reg → Instr} (hrow : ∀ w, decodeOp op.toNat w = dGGG w mk) (d a b : Reg) :
    decode (packG op 0 g d a b 0 0) = .ok (mk g d a b) := by
  simp [decode_packG, hrow, dGGG, var0, g3, checked]
/-- A row of three g registers of which VAR chooses between two forms. -/
theorem decode_dGGG2 {mk : Guard → Bool → Reg → Reg → Reg → Instr} (hrow : ∀ w, decodeOp op.toNat w = dGGG2 w mk) (n : Bool) (d a b : Reg) :
    decode (packG op (if n then 1 else 0) g d a b 0 0) = .ok (mk g n d a b) := by
  cases n <;> simp [decode_packG, hrow, dGGG2, var01, g3, checked]
theorem decode_dPPP {mk : Guard → PReg → PReg → PReg → Instr} (hrow : ∀ w, decodeOp op.toNat w = dPPP w mk) (d p q : PReg) :
    decode (packG op 0 g (ofP d) (ofP p) (ofP q) 0 0) = .ok (mk g d p q) := by
  simp [decode_packG, hrow, dPPP, var0, g3, checked]
/-- The highest field outside p0 to p7 is the one reported (R69). -/
theorem decode_dPPP_operand {mk : Guard → PReg → PReg → PReg → Instr} (hrow : ∀ w, decodeOp op.toNat w = dPPP w mk) (d p q : PReg)
    {r : BitVec 6} (hr : 8 ≤ r.toNat) :
    decode (packG op 0 g r (ofP p) (ofP q) 0 0) = .error (.operand 74) ∧ decode (packG op 0 g (ofP d) r (ofP q) 0 0) = .error (.operand 68)
      ∧ decode (packG op 0 g (ofP d) (ofP p) r 0 0) = .error (.operand 62) := by
  simp [decode_packG, hrow, dPPP, var0, g3, checked, overP_of_ge hr]
end

theorem decode_mulh (g : Guard) (k : MulhKind) (d a b : Reg) : decode (packG 0x05 k.code g d a b 0 0) = .ok (.mulh g k d a b) := by
  simp [decode_packG, decodeOp, decodeScalar, g3, checked, varOf]

theorem decode_movh (g : Guard) (d a : Reg) (h : BitVec 16) : decode (packK 0x18 0 g d a 0 ((0 : BitVec 32) ++ h)) = .ok (.movh g d a h) := by
  have hlow : ((0 : BitVec 32) ++ h).extractLsb' 0 16 = h := BitVec.extractLsb'_append_eq_right
  have hzero : ((0 : BitVec 32) ++ h).extractLsb' 16 32 = 0 := BitVec.extractLsb'_append_eq_left
  generalize (0 : BitVec 32) ++ h = i at hlow hzero ⊢
  subst hlow
  simp [decode_packK, decodeOp, decodeScalar, var0, checked, fBits_packK_i, hzero]
theorem decode_sel (g : Guard) (d a b : Reg) (p : PReg) : decode (packG 0x14 0 g d a b (ofP p) 0) = .ok (.sel g d a b p) := by
  simp [decode_packG, decodeOp, decodeScalar, var0, checked]

/-! ## ext and ins (R113) -/

theorem decode_ext (g : Guard) (sx : Bool) (d a : Reg) (m : BitVec 20) (i : Imm48) :
    decode (packK 0x19 (if sx then 1 else 0) g d a m i) = dField (packK 0x19 (if sx then 1 else 0) g d a m i) fun g => .ext g sx := by
  cases sx <;> simp [decode_packK, decodeOp, decodeScalar, var01]
theorem decode_ins (g : Guard) (d a : Reg) (m : BitVec 20) (i : Imm48) :
    decode (packK 0x1A 0 g d a m i) = dField (packK 0x1A 0 g d a m i) .ins := by
  simp [decode_packK, decodeOp, decodeScalar, var0]

section
variable {op : BitVec 8} {var : BitVec 4} {g : Guard} {d a : Reg} {mk : Guard → Reg → Reg → BitVec 6 → BitVec 6 → Instr}
  (hrow : ∀ m i, decode (packK op var g d a m i) = dField (packK op var g d a m i) mk)
include hrow

theorem decode_dField_imm {i : Imm48} (h : i ≠ 0) : decode (packK op var g d a 0 i) = .error (.rsvd 0) := by
  simp [hrow, dField, checked, fBits_packK_m, zf_of_ne h]
theorem decode_dField_rsvd {m : BitVec 20} (h : m.extractLsb' 12 8 ≠ 0) : decode (packK op var g d a m 0) = .error (.rsvd 60) := by
  simp [hrow, dField, checked, fBits_packK_m, zf_of_ne h]

/-- mod[19:0] of ext and ins holds zero, w - 1 and lo. -/
theorem decode_dField (lo w1 : BitVec 6) :
    decode (packK op var g d a ((0 : BitVec 8) ++ w1 ++ lo) 0) =
      if lo.toNat + (w1.toNat + 1) ≤ 64 then .ok (mk g d a lo w1) else .error (.operand 54) := by
  have hlo : ((0 : BitVec 8) ++ w1 ++ lo).extractLsb' 0 6 = lo := BitVec.extractLsb'_append_eq_right
  have hw1 : ((0 : BitVec 8) ++ w1 ++ lo).extractLsb' 6 6 = w1 := by
    rw [BitVec.extractLsb'_append_eq_of_le (by decide)]; exact BitVec.extractLsb'_append_eq_right
  have hzero : ((0 : BitVec 8) ++ w1 ++ lo).extractLsb' 12 8 = 0 := by
    rw [BitVec.extractLsb'_append_eq_of_le (by decide)]; exact BitVec.extractLsb'_append_eq_left
  rw [hrow]
  generalize (0 : BitVec 8) ++ w1 ++ lo = m at hlo hw1 hzero ⊢
  subst hlo hw1
  by_cases h : 64 < (m.extractLsb' 0 6).toNat + (m.extractLsb' 6 6).toNat + 1
  · rw [if_neg (by omega)]
    simp [dField, checked, fBits_packK_m, hzero, h, -BitVec.extractLsb'_toNat]
  · rw [if_pos (by omega)]
    simp [dField, checked, fBits_packK_m, hzero, h, -BitVec.extractLsb'_toNat]
end

/-! ## Addresses and coordinates (R114 to R116) -/

theorem decode_lea (g : Guard) (d : Reg) (m : MAddr) (z : Sz) :
    decode (packM 0x1B 0 g d m.base m.idx z.code 0 0 0 m.disp) = .ok (.lea g d m z) := by
  simp [decode_packM, decodeOp, decodeScalar, var0, checked, fAddr]
theorem decode_lea_rsvd (g : Guard) (d a b : Reg) (disp : Imm48) {size scope : BitVec 3} {ord md : BitVec 4}
    (h : 4 ≤ size.toNat ∨ scope ≠ 0 ∨ ord ≠ 0 ∨ md ≠ 0) : ∃ p, decode (packM 0x1B 0 g d a b size scope ord md disp) = .error (.rsvd p) := by
  have hbad : ∃ x ∈ [(59, decide (4 ≤ size.toNat)), zf 56 scope, zf 52 ord, zf 48 md], x.2 = true := by
    simpa [zf] using h
  obtain ⟨p, hp⟩ := exists_firstBad hbad
  refine ⟨p, ?_⟩
  rw [decode_packM]
  show var0 _ (checked _ [] _) = _
  rw [var0, fVar_packM, if_pos rfl]
  exact checked_of_rsvd (by simpa only [fSize_packM, fScope_packM, fOrd_packM, fMod4_packM] using hp)
theorem decode_decoord (g : Guard) (f : CoordField) (d a : Reg) : decode (packG 0x1D f.code g d a 0 0 0) = .ok (.decoord g f d a) := by
  simp [decode_packG, decodeOp, decodeScalar, varOf, g2, checked]

/-! ## Comparisons and predicates (R117, R118, R410) -/

section
variable (g : Guard) (cc : Cond) (d p : PReg) (a b : Reg) (imm : Imm48)

theorem decode_cmp : decode (packG 0x15 cc.code g (ofP d) a b 0 0) = .ok (.cmp g cc d a b) := by
  simp [decode_packG, decodeOp, decodeScalar, varOf, g3, checked]
theorem decode_cmpk : decode (packK 0x2F cc.code g (ofP d) a 0 imm) = .ok (.cmpk g cc d a imm) := by
  simp [decode_packK, decodeOp, decodeScalar, varOf, checked]
theorem decode_pnot : decode (packG 0x21 0 g (ofP d) (ofP p) 0 0 0) = .ok (.pnot g d p) := by
  simp [decode_packG, decodeOp, decodeScalar, var0, g2, checked]
theorem decode_pmov_pp : decode (packG 0x22 0 g (ofP d) (ofP p) 0 0 0) = .ok (.pmov g (.pp d p)) := by
  simp [decode_packG, decodeOp, decodeScalar, g2, checked]
theorem decode_pmov_pg : decode (packG 0x22 1 g (ofP d) a 0 0 0) = .ok (.pmov g (.pg d a)) := by
  simp [decode_packG, decodeOp, decodeScalar, g2, checked]
theorem decode_pmov_gp : decode (packG 0x22 2 g a (ofP p) 0 0 0) = .ok (.pmov g (.gp a p)) := by
  simp [decode_packG, decodeOp, decodeScalar, g2, checked]

theorem decode_cmp_var {v : BitVec 4} (h : 10 ≤ v.toNat) (e : BitVec 6) : decode (packG 0x15 v g e a b 0 0) = .error .var := by
  simp [decode_packG, decodeOp, decodeScalar, varOf, Cond.of_eq_none h]
theorem decode_cmpk_var {v : BitVec 4} (h : 10 ≤ v.toNat) (e : BitVec 6) : decode (packK 0x2F v g e a 0 imm) = .error .var := by
  simp [decode_packK, decodeOp, decodeScalar, varOf, Cond.of_eq_none h]

variable {e : BitVec 6} (he : 8 ≤ e.toNat)
include he

theorem decode_cmp_operand : decode (packG 0x15 cc.code g e a b 0 0) = .error (.operand 74) := by
  simp [decode_packG, decodeOp, decodeScalar, varOf, g3, checked, overP_of_ge he]
theorem decode_cmpk_operand : decode (packK 0x2F cc.code g e a 0 imm) = .error (.operand 74) := by
  simp [decode_packK, decodeOp, decodeScalar, varOf, checked, overP_of_ge he]
theorem decode_pnot_operand : decode (packG 0x21 0 g e (ofP p) 0 0 0) = .error (.operand 74)
    ∧ decode (packG 0x21 0 g (ofP d) e 0 0 0) = .error (.operand 68) := by
  simp [decode_packG, decodeOp, decodeScalar, var0, g2, checked, overP_of_ge he]
theorem decode_pmov_operand : decode (packG 0x22 0 g e (ofP p) 0 0 0) = .error (.operand 74)
    ∧ decode (packG 0x22 0 g (ofP d) e 0 0 0) = .error (.operand 68) ∧ decode (packG 0x22 1 g e a 0 0 0) = .error (.operand 74)
    ∧ decode (packG 0x22 2 g a e 0 0 0) = .error (.operand 68) := by
  simp [decode_packG, decodeOp, decodeScalar, g2, checked, overP_of_ge he]
end

/-! ## Transfers of control (R122, R123) -/

section
variable (g : Guard) (a : Reg) (off : Imm48)
theorem decode_nop : decode (packG 0x01 0 g 0 0 0 0 0) = .ok (.nop g) := by simp [decode_packG, decodeOp, decodeScalar, var0, checked]
theorem decode_br : decode (packK 0x23 0 g 0 0 0 off) = .ok (.br g off) := by simp [decode_packK, decodeOp, decodeScalar, var0, checked]
theorem decode_ret : decode (packK 0x25 0 g 0 a 0 0) = .ok (.ret g a) := by simp [decode_packK, decodeOp, decodeScalar, var0, checked]
theorem decode_jr : decode (packK 0x26 0 g 0 a 0 0) = .ok (.jr g a) := by simp [decode_packK, decodeOp, decodeScalar, var0, checked]
/-- g0 can be no link register and no loop counter. -/
theorem decode_call : decode (packK 0x24 0 g a 0 0 off) = if a = 0 then .error (.operand 74) else .ok (.call g a off) := by
  by_cases h : a = 0#6
  · simp [decode_packK, decodeOp, decodeScalar, var0, checked, h]
  · simp [decode_packK, decodeOp, decodeScalar, var0, checked, h, beq_false_of_ne h]
theorem decode_loop : decode (packK 0x27 0 g 0 a 0 off) = if a = 0 then .error (.operand 68) else .ok (.loop g a off) := by
  by_cases h : a = 0#6
  · simp [decode_packK, decodeOp, decodeScalar, var0, checked, h]
  · simp [decode_packK, decodeOp, decodeScalar, var0, checked, h, beq_false_of_ne h]
end

/-! ## yield (R107) -/

/-- mod[19:0] of yield holds the live mask above the deadline. -/
theorem decode_yield (g : Guard) (dl : BitVec 12) (live : BitVec 8) :
    decode (packK 0x28 0 g 0 0 (live ++ dl) 0) = if dl = 0 then .error (.operand 48) else .ok (.yield g dl live) := by
  have hdl : (live ++ dl).extractLsb' 0 12 = dl := BitVec.extractLsb'_append_eq_right
  have hlive : (live ++ dl).extractLsb' 12 8 = live := BitVec.extractLsb'_append_eq_left
  generalize live ++ dl = m at hdl hlive ⊢
  subst hdl hlive
  by_cases h : m.extractLsb' 0 12 = 0#12
  · simp [decode_packK, decodeOp, decodeScalar, var0, checked, fBits_packK_m, h]
  · simp [decode_packK, decodeOp, decodeScalar, var0, checked, fBits_packK_m, h, beq_false_of_ne h]

end Sys2Proof
end

section
/-! SUPPORT. What a scalar instruction with a true guard comes to: a result in one register or predicate, flags in STICKY, a transfer of control, or
the end of a yield point. -/

namespace Sys2Proof.Machine

/-! ## BUDGET and the other fields of a strand -/

theorem Strand.wg_withLeft (t : Strand) (d : Reg) (v : Word) (l : BitVec 12) : { t with left := l }.wg d v = { t.wg d v with left := l } := by
  unfold Strand.wg; split <;> rfl
theorem Strand.wp_withLeft (t : Strand) (d : PReg) (v : Bool) (l : BitVec 12) : { t with left := l }.wp d v = { t.wp d v with left := l } := by
  unfold Strand.wp; split <;> rfl

/-- The executing strand with flags or-ed into STICKY (R103). -/
def State.flagged (s : State) (fl : Nat) : Strand := { s.me with sticky := s.me.sticky ||| BitVec.ofNat 64 fl }

/-! ## Completion -/

section
variable {i : Instr} {g : Guard} {s : State}

theorem completes_of_finish {body : State → Res} {x : Strand} (hg : s.me.guard g = true) (he : exec i s = issueU i g body s)
    (hf : OnlyStrand s.cur s (finish i s false (body s.charge))
      ∧ (finish i s false (body s.charge)).me = { x with left := s.leftIssued }.goesOn (nextPc s.me.pc) false) : Completes i s x :=
  ⟨_, he.trans (issueU_of_guard hg), hf⟩

/-- An instruction without an effect. -/
theorem completes_unchanged (hg : s.me.guard g = true) (he : exec i s = issueU i g (fun t => .ok t) s) : Completes i s s.me := by
  refine completes_of_finish hg he ?_
  show OnlyStrand s.cur s s.charge.advance ∧ s.charge.advance.me = _
  unfold State.advance
  rw [State.charge_modMe]
  exact ⟨onlyStrand_modMe .., State.me_modMe ..⟩

/-- An instruction whose effect is a value in a g register. -/
theorem completes_put (v : State → Word) {d : Reg} {r : Word} (hg : s.me.guard g = true)
    (he : exec i s = issueU i g (fun t => t.put d (v t)) s) (hv : v s.charge = r) : Completes i s (s.me.wg d r) :=
  completes_of_finish hg he (hv ▸ finish_put i s false d (v s.charge))

/-- An instruction whose effect is a value in a predicate. -/
theorem completes_putp (v : State → Bool) {d : PReg} {r : Bool} (hg : s.me.guard g = true)
    (he : exec i s = issueU i g (fun t => t.putp d (v t)) s) (hv : v s.charge = r) : Completes i s (s.me.wp d r) :=
  completes_of_finish hg he (hv ▸ finish_putp i s false d (v s.charge))

/-- A value of one g register. -/
theorem completes_unary (f : Word → Word) {d a : Reg} {r : Word} (hg : s.me.guard g = true)
    (he : exec i s = issueU i g (fun t => t.put d (f (t.rg a))) s) (hv : f (s.rg a) = r) : Completes i s (s.me.wg d r) :=
  completes_put _ hg he (by rw [State.charge_rg, hv])

/-- A value of two g registers. -/
theorem completes_binary (f : Word → Word → Word) {d a b : Reg} {r : Word} (hg : s.me.guard g = true)
    (he : exec i s = issueU i g (fun t => t.put d (f (t.rg a) (t.rg b))) s) (hv : f (s.rg a) (s.rg b) = r) : Completes i s (s.me.wg d r) :=
  completes_put _ hg he (by rw [State.charge_rg, State.charge_rg, hv])

/-- A value of two predicates. -/
theorem completes_binary_pred (f : Bool → Bool → Bool) {d p q : PReg} {r : Bool} (hg : s.me.guard g = true)
    (he : exec i s = issueU i g (fun t => t.putp d (f (t.rp p) (t.rp q))) s) (hv : f (s.rp p) (s.rp q) = r) : Completes i s (s.me.wp d r) :=
  completes_putp _ hg he (by rw [State.charge_rp, State.charge_rp, hv])

theorem finish_flag_put (fl : Nat) (d : Reg) (v : Word) :
    OnlyStrand s.cur s (finish i s false (.ok ((s.charge.flag fl).wg d v)))
      ∧ (finish i s false (.ok ((s.charge.flag fl).wg d v))).me
          = { (s.flagged fl).wg d v with left := s.leftIssued }.goesOn (nextPc s.me.pc) false := by
  have hone : (s.charge.flag fl).wg d v = s.charge.modMe fun t => { t with sticky := t.sticky ||| BitVec.ofNat 64 fl }.wg d v :=
    State.modMe_modMe ..
  rw [hone, ← Strand.wg_withLeft]
  exact finish_ok_modMe i s false _ fun t => Strand.wg_pc ..

theorem finish_flag_putp (fl : Nat) (d : PReg) (v : Bool) :
    OnlyStrand s.cur s (finish i s false (.ok ((s.charge.flag fl).wp d v)))
      ∧ (finish i s false (.ok ((s.charge.flag fl).wp d v))).me
          = { (s.flagged fl).wp d v with left := s.leftIssued }.goesOn (nextPc s.me.pc) false := by
  have hone : (s.charge.flag fl).wp d v = s.charge.modMe fun t => { t with sticky := t.sticky ||| BitVec.ofNat 64 fl }.wp d v :=
    State.modMe_modMe ..
  rw [hone, ← Strand.wp_withLeft]
  exact finish_ok_modMe i s false _ fun t => Strand.wp_pc ..

/-- A float result and its flags. -/
theorem completes_putf (v : State → Nat × Nat) {d : Reg} {r : Nat × Nat} (hg : s.me.guard g = true)
    (he : exec i s = issueU i g (fun t => t.putf d (v t)) s) (hv : v s.charge = r) :
    Completes i s ((s.flagged r.2).wg d (BitVec.ofNat 64 r.1)) :=
  completes_of_finish hg he (hv ▸ finish_flag_put ..)

/-! ## Transfers of control -/

theorem jumps_of_finish {body : State → Res} {x : Strand} {pc : Word} (hg : s.me.guard g = true) (he : exec i s = issueU i g body s)
    (hf : OnlyStrand s.cur s (finish i s false (body s.charge))
      ∧ (finish i s false (body s.charge)).me = { x with left := s.leftIssued }.goesOn pc true) : Jumps i s x pc :=
  ⟨_, he.trans (issueU_of_guard hg), hf⟩

theorem finish_jump (pc : Word) :
    OnlyStrand s.cur s (finish i s false (.jump s.charge pc true))
      ∧ (finish i s false (.jump s.charge pc true)).me = { s.me with left := s.leftIssued }.goesOn pc true := by
  show OnlyStrand s.cur s (s.charge.modMe _) ∧ (s.charge.modMe _).me = _
  rw [State.charge_modMe]
  exact ⟨onlyStrand_modMe .., State.me_modMe ..⟩

theorem finish_jump_wg (l : Reg) (v pc : Word) :
    OnlyStrand s.cur s (finish i s false (.jump (s.charge.wg l v) pc true))
      ∧ (finish i s false (.jump (s.charge.wg l v) pc true)).me = { s.me.wg l v with left := s.leftIssued }.goesOn pc true := by
  rw [← Strand.wg_withLeft]
  exact finish_jump_modMe i s false (fun t => t.wg l v) pc true

theorem State.branch_of_some {t : State} {off : Imm48} {pc : Word} (h : branchTo s.me.pc off = some pc) : s.branch t off = .jump t pc true := by
  rw [State.branch, h]
theorem State.branch_of_none {t : State} {off : Imm48} (h : branchTo s.me.pc off = none) : s.branch t off = .fault s (s.fault 0x12) := by
  rw [State.branch, h]

@[simp] theorem State.charge_me_pc : s.charge.me.pc = s.me.pc := by rw [State.charge_me]

/-- A PC-alignment fault is raised at once, precise at the instruction. -/
theorem finish_fault_align : finish i s false (.fault s.charge (s.charge.fault 0x12)) = s.charge.raiseMe (s.fault 0x12) := by
  have hpc : s.charge.fault 0x12 = s.fault 0x12 := by rw [State.fault, State.charge_me_pc]; rfl
  rw [hpc]; rfl
end

theorem branchTo_of_inside {pc : Word} {off : Imm48} (h0 : 0 ≤ slotLinear pc + off.toInt)
    (h1 : slotLinear pc + off.toInt < (2 ^ 57 / 64 * 5 : Nat)) : branchTo pc off = some (slotPc (slotLinear pc + off.toInt).toNat) :=
  if_neg (by omega)
theorem branchTo_of_outside {pc : Word} {off : Imm48}
    (h : ¬ (0 ≤ slotLinear pc + off.toInt ∧ slotLinear pc + off.toInt < (2 ^ 57 / 64 * 5 : Nat))) : branchTo pc off = none :=
  if_pos (by omega)

section
variable {g : Guard} {s : State} {off : Imm48} {pc : Word} (hg : s.me.guard g = true)
include hg

theorem jumps_br (h : branchTo s.me.pc off = some pc) : Jumps (.br g off) s s.me pc :=
  jumps_of_finish (body := fun t => t.branch t off) hg rfl (by
    rw [State.branch_of_some (by rwa [State.charge_me_pc])]; exact finish_jump pc)
theorem jumps_call (l : Reg) (h : branchTo s.me.pc off = some pc) : Jumps (.call g l off) s (s.me.wg l (nextPc s.me.pc)) pc :=
  jumps_of_finish (body := fun t => t.branch (t.wg l (nextPc t.me.pc)) off) hg rfl (by
    rw [State.branch_of_some (by rwa [State.charge_me_pc]), State.charge_me_pc]; exact finish_jump_wg l _ pc)
theorem jumps_reg {i : Instr} (a : Reg) (he : exec i s = issueU i g (fun t => .jump t (t.rg a) true) s) : Jumps i s s.me (s.rg a) :=
  jumps_of_finish hg he (by rw [State.charge_rg]; exact finish_jump _)

theorem raises_of_body {i : Instr} {body : State → Res} (he : exec i s = issueU i g body s)
    (hb : body s.charge = .fault s.charge (s.charge.fault 0x12)) : exec i s = .next (s.charge.raiseMe (s.fault 0x12)) := by
  rw [he, issueU_of_guard hg, hb, finish_fault_align]
end

/-- What loop does once issued: its counter, less one, decides. -/
def loopBody (a : Reg) (off : Imm48) (t : State) : Res :=
  if t.rg a - 1 = 0 then .ok (t.wg a (t.rg a - 1)) else t.branch (t.wg a (t.rg a - 1)) off

theorem exec_loop (g : Guard) (a : Reg) (off : Imm48) (s : State) : exec (.loop g a off) s = issueU (.loop g a off) g (loopBody a off) s := rfl

theorem loopBody_of_zero {s : State} {a : Reg} {off : Imm48} (h : s.rg a - 1 = 0) : loopBody a off s.charge = .ok (s.charge.wg a 0) := by
  rw [loopBody, State.charge_rg, if_pos h, h]
theorem loopBody_of_ne_zero {s : State} {a : Reg} {off : Imm48} (h : s.rg a - 1 ≠ 0) :
    loopBody a off s.charge = s.charge.branch (s.charge.wg a (s.rg a - 1)) off := by
  rw [loopBody, State.charge_rg, if_neg h]

/-! ## The end of a yield point (R104, R335) -/

/-- A deadline, or the core's ceiling for the executing strand's role where that is less (R104). -/
def State.capped (s : State) (dl : BitVec 12) : BitVec 12 := if s.myCore.ceiling s.me.role < dl then s.myCore.ceiling s.me.role else dl

theorem State.reload_cur {s : State} (hu : s.cur.slot ≠ 0) (dl : BitVec 12) (live : BitVec 8) :
    s.reload s.cur dl live = s.modMe fun x => { x with left := s.capped dl, live := live } := if_neg hu
theorem State.deliverNotice_of_nil {s : State} {t : StrandId} (h : (s.strand t).notices = []) : s.deliverNotice t = s := by
  rw [State.deliverNotice, h]
/-- With no move pending and no notice queued a yield point ends between instructions. -/
theorem State.yieldEnd_of_idle {s : State} (ht : s.me.taker = none) (hn : s.me.notices = []) :
    s.yieldEnd s.cur = s.modMe fun x => { x with atYield := true } := by
  have hend : s.yieldEnd s.cur = (s.modMe fun x => { x with atYield := true }).deliverNotice s.cur := by
    rw [State.yieldEnd, show (s.strand s.cur).taker = none from ht]; rfl
  rw [hend]
  refine State.deliverNotice_of_nil ?_
  exact (congrArg Strand.notices (State.me_modMe s fun x => { x with atYield := true })).trans hn

/-- What a yield does to its strand before the yield point ends: BUDGET, the values it keeps and the PC. -/
def Strand.yielded (x : Strand) (left : BitVec 12) (dl : BitVec 12) (live : BitVec 8) : Strand :=
  { x with left := left, live := live, lastDl := dl, lastLive := live }.goesOn (nextPc x.pc) false

/-- The state in which a yield comes to the end of its yield point. -/
def State.yieldBody (s : State) (dl : BitVec 12) (live : BitVec 8) : State :=
  ((s.reload s.cur dl live).modMe fun x => { x with lastDl := dl, lastLive := live }).advance

theorem State.yieldBody_eq {s : State} (hu : s.cur.slot ≠ 0) (dl : BitVec 12) (live : BitVec 8) :
    s.yieldBody dl live = s.modMe fun x => x.yielded (s.capped dl) dl live := by
  rw [State.yieldBody, State.reload_cur hu, State.modMe_modMe, State.advance, State.modMe_modMe]; rfl

theorem exec_yield {g : Guard} {dl : BitVec 12} {live : BitVec 8} {s : State} (hg : s.me.guard g = true) :
    exec (.yield g dl live) s = .next ((s.yieldBody dl live).yieldEnd (s.yieldBody dl live).cur) := by
  have he : exec (.yield g dl live) s =
      issueY (.yield g dl live) g (fun t => .placed ((t.yieldBody dl live).yieldEnd (t.yieldBody dl live).cur)) s := rfl
  rw [he, issueY_of_guard hg]; rfl

end Sys2Proof.Machine
end

section
/-! The scalar statements (R107 to R123, R410), settled. -/

namespace Sys2Proof.Machine

/-- Settles O1: each instruction completes with its operation on two registers, whose value is the table's by the word facts above. -/
theorem integerArithmetic : Obligations.IntegerArithmetic := by
  intro g d a b s hg x y n
  have hn : y.toNat % 64 = n := (toNat_low6 y).symm
  have hlt : y.toNat % 64 < 64 := Nat.mod_lt _ (by decide)
  refine ⟨⟨?add, ?sub, ?mul, ?mulh, ?mulhn, ?mulhsn⟩, ⟨?and, ?or, ?xor, ?andn, ?shl, ?shr, ?sar, ?rot⟩, ⟨?min, ?minn, ?max, ?maxn⟩, ?words⟩
  case add => exact completes_binary (· + ·) hg rfl (BitVec.add_def ..)
  case sub => exact completes_binary (· - ·) hg rfl (sub_eq_ofInt ..)
  case mul => exact completes_binary (· * ·) hg rfl (mul_eq_ofNat ..)
  case mulh => exact completes_binary (mulhVal .s) hg rfl rfl
  case mulhn => exact completes_binary (mulhVal .n) hg rfl (mulhVal_n ..)
  case mulhsn => exact completes_binary (mulhVal .sn) hg rfl rfl
  case and => exact completes_binary (· &&& ·) hg rfl rfl
  case or => exact completes_binary (· ||| ·) hg rfl rfl
  case xor => exact completes_binary (· ^^^ ·) hg rfl rfl
  case andn => exact completes_binary (fun u v => u &&& ~~~v) hg rfl rfl
  case shl => exact completes_binary (fun u v => u <<< (v.toNat % 64)) hg rfl (hn ▸ shl_eq_ofNat ..)
  case shr => exact completes_binary (fun u v => u >>> (v.toNat % 64)) hg rfl (hn ▸ shr_eq_ofNat ..)
  case sar => exact completes_binary (fun u v => u.sshiftRight (v.toNat % 64)) hg rfl (hn ▸ sar_eq_ofInt ..)
  case rot => exact completes_binary (fun u v => u.rotateLeft (v.toNat % 64)) hg rfl (hn ▸ rotateLeft_eq_ofNat x hlt)
  case min => exact completes_binary (minVal false) hg rfl (by simp [minVal, si, x, y])
  case minn => exact completes_binary (minVal true) hg rfl (by simp [minVal, x, y])
  case max => exact completes_binary (maxVal false) hg rfl (by simp [maxVal, si, x, y])
  case maxn => exact completes_binary (maxVal true) hg rfl (by simp [maxVal, x, y])
  case words =>
    exact ⟨decode_dGGG g (fun _ => rfl) .., decode_dGGG g (fun _ => rfl) .., decode_dGGG g (fun _ => rfl) .., decode_mulh g .s d a b,
      decode_mulh g .n d a b, decode_mulh g .sn d a b, decode_dGGG g (fun _ => rfl) .., decode_dGGG g (fun _ => rfl) ..,
      decode_dGGG g (fun _ => rfl) .., decode_dGGG g (fun _ => rfl) .., decode_dGGG g (fun _ => rfl) ..,
      decode_dGGG g (fun _ => rfl) .., decode_dGGG g (fun _ => rfl) .., decode_dGGG g (fun _ => rfl) ..,
      decode_dGGG2 g (fun _ => rfl) false d a b, decode_dGGG2 g (fun _ => rfl) true d a b,
      decode_dGGG2 g (fun _ => rfl) false d a b, decode_dGGG2 g (fun _ => rfl) true d a b⟩

/-- Settles O2: quotient and remainder are those of division toward zero, the two exceptions apart. -/
theorem division : Obligations.Division := by
  intro g unsigned d a b s hg x y q r
  have hqr : divRem (!unsigned) (s.rg a).toNat (s.rg b).toNat = (q, r) := divRem_eq unsigned _ _ (intVal_not ..) (intVal_not ..)
  refine ⟨?_, ?_, decode_dGGG2 g (fun _ => rfl) unsigned d a b, decode_dGGG2 g (fun _ => rfl) unsigned d a b⟩
  · exact completes_binary (fun u v => ofI (divRem (!unsigned) u.toNat v.toNat).1) hg rfl (by rw [hqr]; rfl)
  · exact completes_binary (fun u v => ofI (divRem (!unsigned) u.toNat v.toNat).2) hg rfl (by rw [hqr]; rfl)

/-- Settles O3: clz is 63 less the place of the highest one bit, popc counts place by place. -/
theorem countsAndSelection : Obligations.CountsAndSelection := by
  intro g d a b p s hg
  refine ⟨⟨clz64 (s.rg a).toNat, clz64_le _, fun k hk => getLsbD_above_clz64 _ hk, getLsbD_at_clz64 _, ?clz⟩, ?popc, ?sel, ?wclz,
    ?wpopc, ?rsvd, ?wsel, ?operand⟩
  case clz => exact completes_unary (fun u => BitVec.ofNat 64 (clz64 u.toNat)) hg rfl rfl
  case popc => exact completes_unary (fun u => BitVec.ofNat 64 (popN 64 u.toNat)) hg rfl (by rw [popN_eq_countP]; rfl)
  case sel => exact completes_put (fun t => if t.rp p then t.rg a else t.rg b) hg rfl (by simp only [State.charge_rp, State.charge_rg])
  case wclz => simp [decode_packG, decodeOp, decodeScalar, var0, g2, checked]
  case wpopc => simp [decode_packG, decodeOp, decodeScalar, var0, g2, checked]
  case rsvd =>
    intro hb
    simp [decode_packG, decodeOp, decodeScalar, var0, g2, checked, zf_of_ne hb]
  case wsel => exact decode_sel g d a b p
  case operand =>
    intro c hc
    simp [decode_packG, decodeOp, decodeScalar, var0, checked, overP_of_ge hc]

/-- Settles O4: the values are those of the bit-field facts above; a word of ext or ins is read by dField, whose one operand check is at bit 54. -/
theorem immediatesAndBitFields : Obligations.ImmediatesAndBitFields := by
  intro g d a imm h lo w1 s hg x w
  have hext := decode_ext g false d a
  have hextsx := decode_ext g true d a
  have hins := decode_ins g d a
  refine ⟨?addk, ?movk, ?movh, fun hfit => ⟨?ext, ?extsx, ?ins, ?wext, ?wextsx, ?wins⟩, fun hover => ⟨?oext, ?oextsx, ?oins⟩,
    ?waddk, ?wmovk, decode_movh g d a h, fun m hm => ⟨?maddk, ?mmovk, ?mmovh⟩, fun ha => ?amovk, fun hi => ?imovh, fun hi => ⟨?iext, ?iextsx, ?iins⟩,
    fun m hm => ⟨?mext, ?mextsx, ?mins⟩⟩
  case addk => exact completes_unary (fun u => u + imm.signExtend 64) hg rfl (addk_eq_ofInt ..)
  case movk => exact completes_put (fun _ => imm.setWidth 64) hg rfl (BitVec.ofNat_toNat ..).symm
  case movh => exact completes_unary (fun u => h ++ u.setWidth 48) hg rfl (by rw [BitVec.setWidth_eq_extractLsb' (by decide)])
  case ext => exact completes_unary (fun u => extVal false u lo.toNat w) hg rfl (extVal_false ..)
  case extsx => exact completes_unary (fun u => extVal true u lo.toNat w) hg rfl (extVal_true _ _ (Nat.succ_pos _))
  case ins =>
    exact ⟨insVal (s.rg d) x lo.toNat w, fun k hk => getLsbD_insVal _ _ hk, completes_binary (fun u v => insVal u v lo.toNat w) hg rfl rfl⟩
  case wext => exact (decode_dField hext lo w1).trans (if_pos hfit)
  case wextsx => exact (decode_dField hextsx lo w1).trans (if_pos hfit)
  case wins => exact (decode_dField hins lo w1).trans (if_pos hfit)
  case oext => exact (decode_dField hext lo w1).trans (if_neg (not_le.2 hover))
  case oextsx => exact (decode_dField hextsx lo w1).trans (if_neg (not_le.2 hover))
  case oins => exact (decode_dField hins lo w1).trans (if_neg (not_le.2 hover))
  case waddk => simp [decode_packK, decodeOp, decodeScalar, var0, checked]
  case wmovk => simp [decode_packK, decodeOp, decodeScalar, var0, checked]
  case maddk => simp [decode_packK, decodeOp, decodeScalar, var0, checked, zf_of_ne hm]
  case mmovk => simp [decode_packK, decodeOp, decodeScalar, var0, checked, zf_of_ne hm]
  case mmovh => simp [decode_packK, decodeOp, decodeScalar, var0, checked, zf_of_ne hm]
  case amovk => simp [decode_packK, decodeOp, decodeScalar, var0, checked, zf_of_ne ha]
  case imovh => simp [decode_packK, decodeOp, decodeScalar, var0, checked, fBits_packK_i, zf_of_ne hi]
  case iext => exact decode_dField_imm hext hi
  case iextsx => exact decode_dField_imm hextsx hi
  case iins => exact decode_dField_imm hins hi
  case mext => exact decode_dField_rsvd hext hm
  case mextsx => exact decode_dField_rsvd hextsx hm
  case mins => exact decode_dField_rsvd hins hm

/-- Settles O5: the addresses are sums modulo 2^64 and fields side by side; of the reserved fields of lea some one is first. -/
theorem addressesAndCoordinates : Obligations.AddressesAndCoordinates := by
  intro g d a b m z s hg x k
  have hlog : z.log = k := by cases z <;> rfl
  have hcode : BitVec.ofNat 3 k = z.code := by cases z <;> rfl
  refine ⟨?lea, fun rel => ?coord, ?col, ?row, ?pkg, ?off, ?relflag, ?wlea, fun _ _ _ _ h => decode_lea_rsvd g d _ _ _ h,
    decode_dGGG2 g (fun _ => rfl) false d a b, decode_dGGG2 g (fun _ => rfl) true d a b, decode_decoord g .col d a, decode_decoord g .row d a,
    decode_decoord g .pkg d a, decode_decoord g .off d a, decode_decoord g .relflag d a, fun v hv => ?var⟩
  case lea => exact completes_binary (fun u v => ea48 u v z.log m.disp) hg rfl (hlog ▸ ea48_eq_ofInt ..)
  case coord => exact completes_binary (coordVal rel) hg rfl (coordVal_eq ..)
  case col => exact completes_unary (decoordVal .col) hg rfl (by rw [decoordVal, decoordVal_signed x rfl (by decide), decoordVal_unsigned x rfl])
  case row => exact completes_unary (decoordVal .row) hg rfl (by rw [decoordVal, decoordVal_signed x rfl (by decide), decoordVal_unsigned x rfl])
  case pkg => exact completes_unary (decoordVal .pkg) hg rfl (decoordVal_unsigned x rfl)
  case off => exact completes_unary (decoordVal .off) hg rfl (decoordVal_unsigned x rfl)
  case relflag => exact completes_unary (decoordVal .relflag) hg rfl rfl
  case wlea => rw [hcode]; exact decode_lea g d m z
  case var => simp [decode_packG, decodeOp, decodeScalar, varOf, CoordField.of_eq_none hv]

/-- Settles O6: each condition of VAR is the comparison that condHolds makes; a field that names no predicate fails its own operand check. -/
theorem comparisonsAndPredicates : Obligations.ComparisonsAndPredicates := by
  intro g cc d p q gd a b imm s hg holds code f
  have hcond (u v : Word) : condHolds cc u v = holds u v := by
    cases cc
    case ne => exact decide_not.symm
    all_goals rfl
  have hcode : code = cc.code := by cases cc <;> rfl
  have himm : imm.signExtend 64 = BitVec.ofInt 64 imm.toInt := rfl
  rw [hcode]
  refine ⟨⟨?cmp, ?cmpk, ?pand, ?por, ?pxor, ?pnot, ?pp, ?pg, ?gp⟩, ⟨decode_cmp g cc d a b, decode_cmpk g cc d a imm,
    decode_dPPP g (fun _ => rfl) .., decode_dPPP g (fun _ => rfl) .., decode_dPPP g (fun _ => rfl) ..,
    decode_pnot g d p, decode_pmov_pp g d p, decode_pmov_pg g d a, decode_pmov_gp g p gd⟩, fun v hv => ⟨decode_cmp_var g a b hv _, decode_cmpk_var g a imm hv _⟩, fun hgd => ?operands⟩
  case cmp => exact completes_putp (fun t => condHolds cc (t.rg a) (t.rg b)) hg rfl (by rw [State.charge_rg, State.charge_rg, hcond])
  case cmpk => exact completes_putp (fun t => condHolds cc (t.rg a) (imm.signExtend 64)) hg rfl (by rw [State.charge_rg, hcond, himm])
  case pand => exact completes_binary_pred (· && ·) hg rfl rfl
  case por => exact completes_binary_pred (· || ·) hg rfl rfl
  case pxor => exact completes_binary_pred (· != ·) hg rfl rfl
  case pnot => exact completes_putp (fun t => !t.rp p) hg rfl (by rw [State.charge_rp])
  case pp => exact completes_putp (fun t => t.rp p) hg rfl (State.charge_rp ..)
  case pg => exact completes_putp (fun t => t.rg a != 0) hg rfl (by rw [State.charge_rg]; exact decide_not.symm)
  case gp => exact completes_put (fun t => if t.rp p then 1 else 0) hg rfl (by rw [State.charge_rp])
  case operands =>
    obtain ⟨pand74, pand68, pand62⟩ := decode_dPPP_operand g (op := 0x1E) (mk := .pand) (fun _ => rfl) d p q hgd
    obtain ⟨por74, por68, por62⟩ := decode_dPPP_operand g (op := 0x1F) (mk := .por) (fun _ => rfl) d p q hgd
    obtain ⟨pxor74, pxor68, pxor62⟩ := decode_dPPP_operand g (op := 0x20) (mk := .pxor) (fun _ => rfl) d p q hgd
    obtain ⟨pnot74, pnot68⟩ := decode_pnot_operand g d p hgd
    obtain ⟨pp74, pp68, pg74, gp68⟩ := decode_pmov_operand g d p a hgd
    exact ⟨decode_cmp_operand g cc a b hgd, decode_cmpk_operand g cc a imm hgd, pand74, pand68, pand62, por74, por68, por62, pxor74, pxor68,
      pxor62, pnot74, pnot68, pp74, pp68, pg74, gp68⟩

/-- Settles O7: inside the PC range branchTo answers the target and the link or counter is written, outside it the body faults before either. -/
theorem controlTransfers : Obligations.ControlTransfers := by
  intro g l a off s hg lin target inside v
  have hin (h : inside) : branchTo s.me.pc off = some target := branchTo_of_inside h.1 h.2
  have hout (h : ¬ inside) : branchTo s.charge.me.pc off = none := by rw [State.charge_me_pc]; exact branchTo_of_outside h
  refine ⟨completes_unchanged hg rfl, jumps_reg hg a rfl, jumps_reg hg a rfl, fun h => jumps_br hg (hin h), fun h => jumps_call hg l (hin h),
    fun hv => ?last, fun hv h => ?on, fun h => ⟨?outBr, ?outCall, fun hv => ?outLoop⟩, decode_nop g, decode_br g off,
    fun hl => (decode_call g l off).trans (if_neg hl), (decode_call g 0 off).trans (if_pos rfl), decode_ret g a, decode_jr g a,
    fun ha => (decode_loop g a off).trans (if_neg ha), (decode_loop g 0 off).trans (if_pos rfl)⟩
  case last => exact completes_of_finish hg (exec_loop ..) (by rw [loopBody_of_zero hv]; exact finish_put ..)
  case on =>
    refine jumps_of_finish hg (exec_loop ..) ?_
    rw [loopBody_of_ne_zero hv, State.branch_of_some (by rw [State.charge_me_pc]; exact hin h)]
    exact finish_jump_wg ..
  case outBr => exact raises_of_body (body := fun t => t.branch t off) hg rfl (State.branch_of_none (hout h))
  case outCall => exact raises_of_body (body := fun t => t.branch (t.wg l (nextPc t.me.pc)) off) hg rfl (State.branch_of_none (hout h))
  case outLoop => exact raises_of_body hg (exec_loop ..) ((loopBody_of_ne_zero hv).trans (State.branch_of_none (hout h)))

/-- Settles O8: with nothing queued and no move pending the yield point ends with the strand where yieldBody leaves it. -/
theorem yieldReloadsBudget : Obligations.YieldReloadsBudget := by
  intro g dl live s hg
  refine ⟨fun hu ht hn => ?_, fun hdl => (decode_yield g dl live).trans (if_neg hdl), (decode_yield g 0 live).trans (if_pos rfl)⟩
  have hme : (s.yieldBody dl live).me = s.me.yielded (s.capped dl) dl live := by rw [State.yieldBody_eq hu, State.me_modMe]
  have hend := State.yieldEnd_of_idle (s := s.yieldBody dl live) (by rw [hme]; exact ht) (by rw [hme]; exact hn)
  refine ⟨_, (exec_yield hg).trans (congrArg _ hend), ?_, ?_⟩
  · rw [State.yieldBody_eq hu, State.modMe_modMe]
    exact onlyStrand_modMe ..
  · rw [State.me_modMe, hme]; rfl

/-- Settles O9: the flags and the result are two changes of the executing strand, made as one. -/
theorem scalarFloat : Obligations.ScalarFloat := by
  intro g f rtz d a b c p cc cv s hg x y z flagged put
  refine ⟨?add, ?sub, ?mul, ?fma, ?cmp, ?cvt⟩
  case add =>
    exact completes_putf (fun t => f.addV rtz false (fval f (t.rg a)) (fval f (t.rg b))) hg rfl (by rw [State.charge_rg, State.charge_rg])
  case sub =>
    exact completes_putf (fun t => f.addV rtz false (fval f (t.rg a)) (fval f (t.rg b)).negate) hg rfl (by rw [State.charge_rg, State.charge_rg])
  case mul =>
    exact completes_putf (fun t => f.mulR rtz false (fval f (t.rg a)) (fval f (t.rg b))) hg rfl (by rw [State.charge_rg, State.charge_rg])
  case fma =>
    exact completes_putf (fun t => f.fmaR rtz false (fval f (t.rg a)) (fval f (t.rg b)) (fval f (t.rg c))) hg rfl
      (by rw [State.charge_rg, State.charge_rg, State.charge_rg])
  case cmp =>
    refine completes_of_finish (body := fun t => .ok ((t.flag (fcmpVal cc (fval f (t.rg a)) (fval f (t.rg b))).2).wp p
      (fcmpVal cc (fval f (t.rg a)) (fval f (t.rg b))).1)) hg rfl ?_
    rw [State.charge_rg, State.charge_rg]
    exact finish_flag_putp ..
  case cvt =>
    refine completes_of_finish (body := fun t => .ok ((t.flag (fcvtVal cv rtz (t.rg a)).2).wg d (fcvtVal cv rtz (t.rg a)).1)) hg rfl ?_
    rw [State.charge_rg]
    exact finish_flag_put ..

end Sys2Proof.Machine
end

section
/-! SUPPORT. What issuing an instruction does to its core, and what taking and giving back operands leaves of a core. -/

namespace Sys2Proof.Machine

/-! ## What a core holds beside its tiles and rings -/

/-- A core without the fields that taking and giving back operands may change. -/
def Core.beside (k : Core) : Core := { k with tiles := [], readers := [], deferred := [], rings := [] }

/-- What every step of a fold keeps, the fold keeps. -/
theorem foldl_keeps {α β γ : Type} (P : α → γ) {f : α → β → α} (h : ∀ a b, P (f a b) = P a) (l : List β) (a : α) :
    P (l.foldl f a) = P a := by
  induction l generalizing a with
  | nil => rfl
  | cons b l ih => exact (ih _).trans (h a b)

/-- The slots of a destination ring taken (R129). -/
def Core.takeSlots (c : Core) (p : POp) : Core :=
  match p.spec with
  | .ring _ q => c.setRing q.toNat
    { c.ring q.toNat with tail := ((c.ring q.toNat).tail + p.k) % (c.ring q.toNat).size, free := (c.ring q.toNat).free - p.k }
  | _ => c

/-- The tiles of the destination, its ring's slots, and then the readers of the sources that are no destination. -/
theorem Core.take_eq (c : Core) (p : POp) (d srcs : List Opnd) :
    c.take p d srcs = (opTiles srcs).foldl (fun c t => if (opTiles d).contains t then c else c.addReader t)
      (((opTiles d).foldl (fun c t => c.tileTo t tFilling) c).takeSlots p) := rfl

theorem Core.tileTo_beside (k : Core) (t st : Nat) : (k.tileTo t st).beside = k.beside := rfl
theorem Core.takeSlots_beside (k : Core) (p : POp) : (k.takeSlots p).beside = k.beside := by
  unfold Core.takeSlots; cases p.spec <;> rfl
theorem Core.takeSlots_rest (k : Core) (p : POp) : (k.takeSlots p).rest = k.rest.takeSlots p := by
  unfold Core.takeSlots; cases p.spec <;> rfl
theorem Core.takeSlots_tile (k : Core) (p : POp) (x : Nat) : (k.takeSlots p).tile x = k.tile x := by
  unfold Core.takeSlots; cases p.spec <;> rfl

theorem Core.take_beside (k : Core) (p : POp) (d srcs : List Opnd) : (k.take p d srcs).beside = k.beside := by
  rw [Core.take_eq, foldl_keeps Core.beside (fun c t => by split <;> rfl), Core.takeSlots_beside,
    foldl_keeps Core.beside fun c t => c.tileTo_beside t tFilling]

theorem Core.take_strands (k : Core) (p : POp) (d srcs : List Opnd) : (k.take p d srcs).strands = k.strands :=
  (congrArg Core.strands (k.take_beside p d srcs) :)
theorem Core.take_vbuf (k : Core) (p : POp) (d srcs : List Opnd) : (k.take p d srcs).vbuf = k.vbuf :=
  (congrArg Core.vbuf (k.take_beside p d srcs) :)
theorem Core.take_run (k : Core) (p : POp) (d srcs : List Opnd) : (k.take p d srcs).run = k.run :=
  (congrArg Core.run (k.take_beside p d srcs) :)

/-- The operands are taken whatever the strand contexts are. -/
theorem Core.take_rest (k : Core) (p : POp) (d srcs : List Opnd) : (k.take p d srcs).rest = k.rest.take p d srcs := by
  have htiles : (opTiles d).foldl (fun c t => c.tileTo t tFilling) k.rest = ((opTiles d).foldl (fun c t => c.tileTo t tFilling) k).rest :=
    List.foldl_hom Core.rest (fun _ _ => rfl)
  rw [Core.take_eq, Core.take_eq, htiles, ← Core.takeSlots_rest]
  exact (List.foldl_hom Core.rest fun c t => by split <;> rfl).symm

/-! ## States of tiles -/

theorem tileSt_tileWith (w : Word) {st : Nat} (h : st < 4) (mark : Bool) : tileSt (tileWith w st mark) = st := by
  rw [tileSt, bitsN_toNat _ (w := 2) rfl, tileWith, BitVec.extractLsb'_or, BitVec.extractLsb'_and,
    show (0x1FFFFFFFFFFFFFFF#64).extractLsb' 62 2 = 0#2 by decide, BitVec.and_zero, BitVec.zero_or]
  interval_cases st <;> cases mark <;> rfl

theorem Core.tile_tileTo (k : Core) (t st x : Nat) :
    (k.tileTo t st).tile x = if x = t then tileWith (k.tile t) st (tileMark (k.tile t)) else k.tile x := SMap.get_set ..

theorem Core.tile_foldl_tileTo_of_not_mem (st : Nat) {l : List Nat} {x : Nat} (h : x ∉ l) (k : Core) :
    (l.foldl (fun c t => c.tileTo t st) k).tile x = k.tile x := by
  induction l generalizing k with
  | nil => rfl
  | cons t l ih =>
    rw [List.mem_cons, not_or] at h
    rw [List.foldl_cons, ih h.2, Core.tile_tileTo, if_neg h.1]

theorem Core.tileSt_foldl_tileTo {st : Nat} (hst : st < 4) {l : List Nat} {x : Nat} (h : x ∈ l) (k : Core) :
    tileSt ((l.foldl (fun c t => c.tileTo t st) k).tile x) = st := by
  induction l generalizing k with
  | nil => cases h
  | cons t l ih =>
    by_cases hl : x ∈ l
    · exact ih hl _
    · obtain rfl : x = t := by simpa [hl] using h
      rw [List.foldl_cons, Core.tile_foldl_tileTo_of_not_mem st hl, Core.tile_tileTo, if_pos rfl, tileSt_tileWith _ hst]

/-- Only the destination's tiles change at issue; they are FILLING (R129, R130). -/
theorem Core.take_tile (k : Core) (p : POp) (d srcs : List Opnd) (x : Nat) :
    (k.take p d srcs).tile x = ((opTiles d).foldl (fun c t => c.tileTo t tFilling) k).tile x := by
  rw [Core.take_eq, foldl_keeps (Core.tile · x) (fun c t => by split <;> rfl), Core.takeSlots_tile]
theorem Core.tileSt_take_of_mem {d : List Opnd} {x : Nat} (h : x ∈ opTiles d) (k : Core) (p : POp) (srcs : List Opnd) :
    tileSt ((k.take p d srcs).tile x) = tFilling := by
  rw [Core.take_tile]; exact Core.tileSt_foldl_tileTo (by decide) h k
theorem Core.take_tile_of_not_mem {d : List Opnd} {x : Nat} (h : x ∉ opTiles d) (k : Core) (p : POp) (srcs : List Opnd) :
    (k.take p d srcs).tile x = k.tile x := by
  rw [Core.take_tile]; exact Core.tile_foldl_tileTo_of_not_mem _ h k

/-! ## What the count of an instruction leaves -/

section
variable (s : State)

theorem State.charge_myCore_rest : s.charge.myCore.rest = s.myCore.rest := by
  rw [State.myCore, State.charge_cur]; exact (onlyStrand_charge s).rest
@[simp] theorem State.charge_seq : s.charge.myCore.seq = s.myCore.seq := (congrArg Core.seq s.charge_myCore_rest :)
@[simp] theorem State.charge_vbuf : s.charge.myCore.vbuf = s.myCore.vbuf := (congrArg Core.vbuf s.charge_myCore_rest :)
@[simp] theorem State.charge_run : s.charge.myCore.run = s.myCore.run := (congrArg Core.run s.charge_myCore_rest :)
@[simp] theorem State.charge_ctx : s.charge.ctx = s.ctx := by
  have hctx : s.charge.myCore.ctx = s.myCore.ctx := (congrArg Core.ctx s.charge_myCore_rest :)
  rw [State.myCore, State.charge_cur] at hctx
  rw [State.ctx, State.ctx, State.ctxOf, State.ctxOf, State.charge_cur, hctx]; rfl
@[simp] theorem State.charge_fault (d : Nat) : s.charge.fault d = s.fault d := by rw [State.fault, State.charge_me]; rfl
@[simp] theorem State.charge_scalarOf (sp : Spec) : s.charge.scalarOf sp = s.scalarOf sp := by
  cases sp with
  | scalar g => exact State.charge_rg s g
  | _ => rfl
end

/-! ## Issue of an instruction that acts on its core -/

theorem isWait_of_lt {d : Nat} (h : d < 256) : isWait d = false := by
  rw [isWait, Bool.or_eq_false_iff, beq_eq_false_iff_ne, decide_eq_false_iff_not, dWait, dRetry]
  omega

theorem State.me_modMyCore (s : State) {f : Core → Core} (hf : ∀ k, (f k).strands = k.strands) : (s.modMyCore f).me = s.me := by
  rw [State.modMyCore_eq, State.me_def, State.modCore_cur, State.core_modCore_same, Core.strand, hf]; rfl

section
variable {i : Instr} {g : Guard} {s : State} {body : State → Res} (hg : s.me.guard g = true) (he : exec i s = issueU i g body s)
include hg he

theorem stalls_of_body (hb : body s.charge = .stall) : Stalls i s := by
  refine ⟨_, he.trans (issueU_of_guard hg), ?_⟩
  rw [hb]
  exact ⟨onlyStrand_modMe .., State.me_modMe ..⟩

/-- A fault of a code of the spec is raised at once. -/
theorem raises_of_fault {t : State} {r : Report} (hb : body s.charge = .fault t r) (hr : r.detail < 256) : exec i s = .next (t.raiseMe r) := by
  rw [he, issueU_of_guard hg, hb, finish, if_neg (by rw [isWait_of_lt hr]; decide)]; rfl

/-- An instruction whose effect is a change of its core, one that neither touches nor reads the strand contexts. -/
theorem completesCore_of_body {f : Core → Core} (hb : body s.charge = .ok (s.charge.modMyCore f)) (hs : ∀ k, (f k).strands = k.strands)
    (hr : ∀ k, (f k).rest = f k.rest) : CompletesCore i s (f s.myCore) s.me := by
  refine ⟨_, he.trans (issueU_of_guard hg), ?_⟩
  rw [hb]
  show OnlyCoreOf s.cur s (s.charge.modMyCore f).advance ∧ (s.charge.modMyCore f).advance.myCore.rest = _ ∧ (s.charge.modMyCore f).advance.me = _
  have hcore : OnlyCoreOf s.cur s.charge (s.charge.modMyCore f) := by
    rw [State.modMyCore_eq, State.charge_cur]; exact onlyCoreOf_modCore s.charge s.cur f hs
  have hmod : OnlyStrand s.cur (s.charge.modMyCore f) (s.charge.modMyCore f).advance := by
    have h := onlyStrand_modMe (s.charge.modMyCore f) fun t =>
      { t with pc := nextPc t.pc, issued := none, hold := .none, stalled := false, checkT := false, atYield := false, retry := none }
    rwa [State.modMyCore_cur, State.charge_cur] at h
  refine ⟨(onlyStrand_charge s).coreOf.trans (hcore.trans hmod.coreOf), ?_, ?_⟩
  · calc (s.charge.modMyCore f).advance.myCore.rest
        = ((s.charge.modMyCore f).core s.cur.core).rest := by
          rw [State.myCore, hmod.cur, State.modMyCore_cur, State.charge_cur]; exact hmod.rest
      _ = (f s.charge.myCore).rest := by rw [State.modMyCore_eq, State.charge_cur, State.core_modCore_same, State.myCore, State.charge_cur]
      _ = (f s.myCore).rest := by rw [hr, hr, State.charge_myCore_rest]
  · rw [State.advance, State.me_modMe, State.me_modMyCore _ hs, State.charge_me]; rfl
end

end Sys2Proof.Machine
end

section
/-! The vector sequencer's issue, capture and replay (R128 to R135), settled. -/

namespace Sys2Proof.Machine

/-! ## Issue of a vector instruction -/

theorem exec_eq_execVec {i : Instr} {g : Guard} {k : VKind} {t : VTy} {o : VOps} (s : State) (hv : vecOf i = some (k, t, o))
    (hg : guardOf i = some g) : exec i s = execVec i g s := by
  cases i
  case vadd | vsub | vmul | vfma | vmax | vmin | vabs | vneg | vcvt | vred | vscan | vclmul | vcmp | vsel | vpopc | vbcast | viota | vperm
    | vzip | vunzip | vsfu | vcompact | vexpand | vdot | vamax | csend => cases hg; rfl
  all_goals cases hv

/-- The body that execVec issues. -/
theorem execVec_eq {i : Instr} {k : VKind} {t : VTy} {o : VOps} (g : Guard) (s : State) (hv : vecOf i = some (k, t, o)) :
    execVec i g s = issueU i g (fun u => u.vIssue i k t o) s := by
  rw [execVec, hv]

/-- A plan that fails names a code of R135. -/
theorem State.vPlan_bad_detail {s : State} {c : CoreId} {k : VKind} {t : VTy} {o : VOps} {ws : List Word} {va vb vc : Word} {d m : Nat}
    {mark : Option Nat} (h : s.vPlan c k t o ws va vb vc = .bad d m mark) : d < 256 := by
  unfold State.vPlan at h
  dsimp only at h
  split at h
  · cases h; decide
  · split at h
    · cases h; decide
    · split at h
      · split at h
        · cases h; decide
        · split at h
          · cases h; decide
          · cases h
      · cases h; decide

theorem State.vFault_detail_lt {s : State} {d : Nat} (mark : Option Nat) (h : d < 256) : (s.vFault d mark).detail < 256 := by
  cases mark with
  | none => exact h
  | some t =>
    rw [State.vFault, State.markFault]
    split
    · exact Nat.mod_lt _ (by decide)
    · exact (by decide : 0x44 < 256)

/-- The command that a vector instruction enters into the buffer. -/
def State.vCmd (s : State) (i : Instr) (o : VOps) (ws : List Word) (d a b c : List Opnd) : Cmd :=
  ⟨i, s.cur.slot, s.cur.gid, s.ctx, s.me.pc, d, [a, b, c], [s.scalarOf o.a, s.scalarOf o.b, s.scalarOf o.c], [ws], none, 0, none, false⟩

/-- The core once a vector instruction has issued: its operands taken, its command in the buffer and, in a capture, in the run. -/
def Core.vTaken (c : Core) (p : POp) (d srcs : List Opnd) (cmd : Cmd) (mine : Bool) : Core :=
  { c.take p d srcs with vbuf := (c.take p d srcs).vbuf ++ [cmd], run := if mine then (c.take p d srcs).run ++ [cmd] else (c.take p d srcs).run }

section
variable {s : State} {i : Instr} {k : VKind} {t : VTy} {o : VOps}

theorem State.vIssue_of_other (hidle : s.myCore.seq ≠ .idle) (hmine : s.myCore.seq ≠ .capturing s.cur.slot) : s.vIssue i k t o = .stall := by
  simp [State.vIssue, hidle, hmine]

theorem State.vIssue_of_full (hown : s.myCore.seq = .idle ∨ s.myCore.seq = .capturing s.cur.slot) (hfull : 16 ≤ s.myCore.vbuf.length) :
    s.vIssue i k t o = .stall := by
  rcases hown with h | h <;> simp [State.vIssue, h, hfull]

theorem State.vIssue_of_run_full (hroom : s.myCore.vbuf.length < 16) (hmine : s.myCore.seq = .capturing s.cur.slot)
    (hrun : 16 ≤ s.myCore.run.length) :
    s.vIssue i k t o = .fault (s.modMyCore fun c => { c with seq := .idle, run := [] }) (s.fault 0x46) := by
  simp [State.vIssue, hmine, hrun, Nat.not_le.2 hroom]

/-- Once the sequencer admits the instruction, its plan decides. -/
theorem State.vIssue_of_admitted (hown : s.myCore.seq = .idle ∨ s.myCore.seq = .capturing s.cur.slot) (hroom : s.myCore.vbuf.length < 16)
    (hrun : s.myCore.seq = .idle ∨ s.myCore.run.length < 16) :
    s.vIssue i k t o =
      match s.vPlan s.cur.core k t o (s.shapeWords s.cur.core o.shape.toNat) (s.scalarOf o.a) (s.scalarOf o.b) (s.scalarOf o.c) with
      | .bad d _ mark => .fault s (s.vFault d mark)
      | .ok false _ _ _ _ _ => .stall
      | .ok true ws d a b c =>
        .ok (s.modMyCore fun x => x.vTaken (vPOps k o).1 d (a ++ b ++ c) (s.vCmd i o ws d a b c) (s.myCore.seq == .capturing s.cur.slot)) := by
  have hother : ¬ (s.myCore.seq != .idle && !(s.myCore.seq == .capturing s.cur.slot)) = true := by rcases hown with h | h <;> simp [h]
  have hlast : ¬ ((s.myCore.seq == .capturing s.cur.slot) && decide (16 ≤ s.myCore.run.length)) = true := by
    rcases hrun with h | h
    · simp [h]
    · simp [Nat.not_le.2 h]
  unfold State.vIssue
  dsimp only
  rw [if_neg hother, if_neg (Nat.not_le.2 hroom), if_neg hlast]
  rfl
end

theorem Core.vTaken_eq (c : Core) (p : POp) (d srcs : List Opnd) (cmd : Cmd) (mine : Bool) :
    c.vTaken p d srcs cmd mine = { c.take p d srcs with vbuf := c.vbuf ++ [cmd], run := if mine then c.run ++ [cmd] else c.run } := by
  rw [Core.vTaken, Core.take_vbuf, Core.take_run]
theorem Core.vTaken_strands (c : Core) (p : POp) (d srcs : List Opnd) (cmd : Cmd) (mine : Bool) :
    (c.vTaken p d srcs cmd mine).strands = c.strands := Core.take_strands ..
theorem Core.vTaken_rest (c : Core) (p : POp) (d srcs : List Opnd) (cmd : Cmd) (mine : Bool) :
    (c.vTaken p d srcs cmd mine).rest = c.rest.vTaken p d srcs cmd mine := by
  rw [Core.vTaken_eq, Core.vTaken_eq, ← Core.take_rest]; rfl

theorem State.charge_vCmd (s : State) (i : Instr) (o : VOps) (ws : List Word) (d a b c : List Opnd) :
    s.charge.vCmd i o ws d a b c = s.vCmd i o ws d a b c := by
  simp only [State.vCmd, State.charge_cur, State.charge_ctx, State.charge_me_pc, State.charge_scalarOf]

/-- Settles O34: the sequencer's owner, the buffer, the run and then the plan decide, as vIssue takes them in turn. -/
theorem vectorIssue : Obligations.VectorIssue := by
  intro i g k t o s hv hgi hg u c mine plan
  have he : exec i s = issueU i g (fun u => u.vIssue i k t o) s := (exec_eq_execVec s hv hgi).trans (execVec_eq g s hv)
  have hslot : s.charge.cur.slot = s.cur.slot := by rw [State.charge_cur]
  refine ⟨fun hidle hmine => ?other, fun hown => ⟨fun hfull => ?full, fun hroom => ⟨fun hmine hrun => ?last, fun hrun => ?admitted⟩⟩⟩
  case other =>
    exact stalls_of_body hg he (State.vIssue_of_other (by rwa [State.charge_seq]) (by rwa [State.charge_seq, hslot]))
  all_goals have hown' : s.charge.myCore.seq = .idle ∨ s.charge.myCore.seq = .capturing s.charge.cur.slot := by rwa [State.charge_seq, hslot]
  case full => exact stalls_of_body hg he (State.vIssue_of_full hown' (by rwa [State.charge_vbuf]))
  all_goals have hroom' : s.charge.myCore.vbuf.length < 16 := by rwa [State.charge_vbuf]
  case last =>
    rw [← State.charge_fault]
    exact raises_of_fault hg he (State.vIssue_of_run_full hroom' (by rwa [State.charge_seq, hslot]) (by rwa [State.charge_run]))
      (by decide : 0x46 < 256)
  have hissue := State.vIssue_of_admitted (i := i) (k := k) (t := t) (o := o) hown' hroom' (by rwa [State.charge_seq, State.charge_run])
  have hplan : s.charge.vPlan s.charge.cur.core k t o (s.charge.shapeWords s.charge.cur.core o.shape.toNat) (s.charge.scalarOf o.a)
      (s.charge.scalarOf o.b) (s.charge.scalarOf o.c) = plan := by
    simp only [State.charge_scalarOf, State.charge_cur]; rfl
  rw [hplan] at hissue
  refine ⟨fun d m mark hbad => ?bad, fun ws d a b cc hwait => ?wait, fun ws d a b cc hready => ?ready⟩
  case bad =>
    rw [hbad] at hissue
    exact raises_of_fault hg he hissue (State.vFault_detail_lt mark (State.vPlan_bad_detail hbad))
  case wait =>
    rw [hwait] at hissue
    exact stalls_of_body hg he hissue
  case ready =>
    intro cmd taken
    rw [hready] at hissue
    refine ⟨?_, fun x hx => Core.tileSt_take_of_mem hx .., fun x hx => Core.take_tile_of_not_mem hx ..⟩
    have h := completesCore_of_body hg he hissue (fun _ => Core.vTaken_strands ..) (fun _ => Core.vTaken_rest ..)
    simp only [Core.vTaken_eq, State.charge_vCmd, State.charge_seq, hslot, beq_iff_eq] at h
    exact h

/-! ## vseq (R133, R147) -/

/-- What vseq.open comes to. -/
def State.vseqOpenRes (s : State) : Res :=
  match s.myCore.seq with
  | .idle => .ok (s.modMyCore fun c => { c with seq := .capturing s.cur.slot, run := [] })
  | .capturing x => if x = s.cur.slot then .fault s (s.fault 0x46) else .stall
  | .looping x _ _ => if x = s.cur.slot then .fault s (s.fault 0x46) else .stall
/-- What vseq.loop comes to. -/
def State.vseqLoopRes (a : Reg) (s : State) : Res :=
  if s.myCore.seq = .capturing s.cur.slot then
    .ok (s.modMyCore fun c => { c with seq := if (s.rg a).toNat % 2 ^ 32 = 0 then .idle else .looping s.cur.slot ((s.rg a).toNat % 2 ^ 32) 0 })
  else .fault s (s.fault 0x46)
/-- What vseq.stop comes to. -/
def State.vseqStopRes (s : State) : Res :=
  match s.myCore.seq with
  | .capturing x => if x = s.cur.slot then .ok (s.modMyCore fun c => { c with seq := .idle, run := [] }) else .fault s (s.fault 0x46)
  | .looping x _ _ => if x = s.cur.slot then .ok (s.modMyCore fun c => { c with seq := .idle }) else .fault s (s.fault 0x46)
  | .idle => .fault s (s.fault 0x46)

theorem exec_vseqOpen (g : Guard) (s : State) : exec (.vseqOpen g) s = issueU (.vseqOpen g) g State.vseqOpenRes s := rfl
theorem exec_vseqLoop (g : Guard) (a : Reg) (s : State) : exec (.vseqLoop g a) s = issueU (.vseqLoop g a) g (State.vseqLoopRes a) s := rfl
theorem exec_vseqStop (g : Guard) (s : State) : exec (.vseqStop g) s = issueU (.vseqStop g) g State.vseqStopRes s := rfl

section
variable {g : Guard} {s : State} (hg : s.me.guard g = true)
include hg

/-- An instruction that changes the sequencer's state, and perhaps its run, alone. -/
theorem completesCore_of_seq {i : Instr} {body : State → Res} (he : exec i s = issueU i g body s) (q : SeqState)
    (hb : body s.charge = .ok (s.charge.modMyCore fun c => { c with seq := q })) : CompletesCore i s { s.myCore with seq := q } s.me :=
  completesCore_of_body hg he hb (fun _ => rfl) (fun _ => rfl)
theorem completesCore_of_seq_run {i : Instr} {body : State → Res} (he : exec i s = issueU i g body s) (q : SeqState)
    (hb : body s.charge = .ok (s.charge.modMyCore fun c => { c with seq := q, run := [] })) :
    CompletesCore i s { s.myCore with seq := q, run := [] } s.me :=
  completesCore_of_body hg he hb (fun _ => rfl) (fun _ => rfl)
/-- VSEQ (R135). -/
theorem raises_vseq {i : Instr} {body : State → Res} (he : exec i s = issueU i g body s)
    (hb : body s.charge = .fault s.charge (s.charge.fault 0x46)) : exec i s = .next (s.charge.raiseMe (s.fault 0x46)) := by
  rw [← State.charge_fault]
  exact raises_of_fault hg he hb (by decide : 0x46 < 256)
end

/-! ## The sequencer's own steps -/

theorem onlyCore_modCore (s : State) (c : CoreId) (f : Core → Core) : OnlyCore c s (s.modCore c f) :=
  { cores := fun _ hd => State.core_modCore_ne s f hd, crews := fun _ => rfl, pkgs := fun _ => rfl, agenda := rfl, turn := rfl, cur := rfl,
    freeN := rfl }
theorem sameMem_modCore (s : State) (c : CoreId) (f : Core → Core) : SameMem s (s.modCore c f) := ⟨fun _ => rfl, rfl⟩

/-- A step that changes one core alone. -/
theorem answers_modCore {i : Instr} {s : State} {c : CoreId} {f : Core → Core} (he : exec i s = .next (s.modCore c f)) :
    Answers i s fun t => t.core c = f (s.core c) ∧ SameMem s t ∧ OnlyCore c s t :=
  ⟨_, he, State.core_modCore_same .., sameMem_modCore .., onlyCore_modCore ..⟩

theorem exec_vectorInstructionStart {s : State} {c : CoreId} {cmd : Cmd} {rest : List Cmd} (hcur : (s.core c).vcur = none)
    (hrun : (s.core c).mcheck = none) (hbuf : (s.core c).vbuf = cmd :: rest) (hnew : cmd.replay = 0) :
    exec (.vectorInstructionStart c) s = .next (s.modCore c fun k => { k with vcur := some cmd, vbuf := rest }) := by
  show execVectorInstructionStart c s = _
  simp [execVectorInstructionStart, hbuf, hcur, hrun, Core.enginesRun, hnew]

/-- A replay that resolves has taken its operands, a change of its core alone. -/
theorem State.vReplayResolve_some {s u : State} {c : CoreId} {cmd cmd' : Cmd} (h : s.vReplayResolve c cmd = some (u, some cmd')) :
    ∃ f, u = s.modCore c f := by
  unfold State.vReplayResolve at h
  split at h
  · cases h
  · split at h
    · obtain ⟨_, _, hu⟩ := Option.map_eq_some_iff.1 h
      cases hu
    · cases h
    · cases h; exact ⟨_, rfl⟩

section
variable {s : State} {c : CoreId} {slot left done : Nat} (hcur : (s.core c).vcur = none) (hrun : (s.core c).mcheck = none)
  (hseq : (s.core c).seq = .looping slot left done) (hbuf : (s.core c).vbuf = [])
include hcur hrun hseq hbuf

theorem exec_replayStart_of_nil (hempty : (s.core c).run = []) :
    exec (.replayStart c) s = .next (s.modCore c fun k => { k with seq := .idle }) := by
  show execReplayStart c s = _
  simp [execReplayStart, hcur, hrun, hseq, hbuf, hempty, Core.enginesRun]

theorem exec_replayStart_of_resolved {cmd cmd' : Cmd} {rest : List Cmd} {u : State} (hcmd : (s.core c).run = cmd :: rest)
    (hres : s.vReplayResolve c (s.replayed c (done + 1) cmd) = some (u, some cmd')) :
    exec (.replayStart c) s = .next (u.modCore c fun k =>
      { k with vcur := some cmd', vbuf := rest.map (s.replayed c (done + 1)),
               seq := if left ≤ 1 then .idle else .looping slot (left - 1) (done + 1) }) := by
  show execReplayStart c s = _
  simp [execReplayStart, hcur, hrun, hseq, hbuf, hcmd, hres, Core.enginesRun]
end

/-- Settles O35: each vseq form by the state of the sequencer, then the two steps of the sequencer itself. -/
theorem vectorSequencer : Obligations.VectorSequencer := by
  intro g a c s
  refine ⟨fun hg => ?instr, ?steps⟩
  case instr =>
    have hslot : s.charge.cur.slot = s.cur.slot := by rw [State.charge_cur]
    refine ⟨fun hidle => ?opened, fun hown => ?owned, fun x hx hother => ?other, fun hcap => ⟨?loop, ?stop⟩,
      fun hcap => ⟨?badLoop, fun hloop => ?badStop⟩, fun l d hloop => ?abandon⟩
    case opened => exact completesCore_of_seq_run hg (exec_vseqOpen g s) _ (by simp only [State.vseqOpenRes, State.charge_seq, hidle, hslot])
    case owned =>
      refine raises_vseq hg (exec_vseqOpen g s) ?_
      rcases hown with h | ⟨l, d, h⟩ <;> simp only [State.vseqOpenRes, State.charge_seq, h, hslot, if_true]
    case other =>
      refine stalls_of_body hg (exec_vseqOpen g s) ?_
      rcases hother with h | ⟨l, d, h⟩ <;> simp only [State.vseqOpenRes, State.charge_seq, h, hslot, if_neg hx]
    case loop =>
      exact completesCore_of_seq hg (exec_vseqLoop g a s) _ (by simp only [State.vseqLoopRes, State.charge_seq, hcap, hslot, if_true, State.charge_rg])
    case stop => exact completesCore_of_seq_run hg (exec_vseqStop g s) _ (by simp only [State.vseqStopRes, State.charge_seq, hcap, hslot, if_true])
    case badLoop => exact raises_vseq hg (exec_vseqLoop g a s) (by simp only [State.vseqLoopRes, State.charge_seq, hslot, if_neg hcap])
    case badStop =>
      refine raises_vseq hg (exec_vseqStop g s) ?_
      simp only [State.vseqStopRes, State.charge_seq, hslot]
      cases hq : s.myCore.seq with
      | idle => rfl
      | capturing x => exact if_neg fun h => hcap (by rw [hq, h])
      | looping x l d => exact if_neg fun h => hloop l d (by rw [hq, h])
    case abandon => exact completesCore_of_seq hg (exec_vseqStop g s) _ (by simp only [State.vseqStopRes, State.charge_seq, hloop, hslot, if_true])
  case steps =>
    intro k hcur hrun
    refine ⟨fun cmd rest hbuf hnew => ?start, fun slot left done cmd rest u cmd' hseq hbuf hcmd hres => ?replay,
      fun slot left done hseq hbuf hempty => ?nothing⟩
    case start => exact answers_modCore (exec_vectorInstructionStart hcur hrun hbuf hnew)
    case replay =>
      obtain ⟨f, rfl⟩ := State.vReplayResolve_some hres
      refine ⟨_, exec_replayStart_of_resolved hcur hrun hseq hbuf hcmd hres, ?_⟩
      dsimp only
      rw [State.core_modCore_same]
      exact ⟨rfl, rfl, rfl, fun _ => rfl, rfl⟩
    case nothing => exact answers_modCore (exec_replayStart_of_nil hcur hrun hseq hbuf hempty)

end Sys2Proof.Machine
end

section
/-! SUPPORT. Elements written to a slice: which bytes change, what reads back, and the completion of a vector command (R125, R131). -/

namespace Sys2Proof.Machine

/-! ## Bytes and numbers in memory -/

theorem Memory.readBytes_congr {m m' : Memory} {a n : Nat} (h : ∀ i, i < n → m.read (a + i) = m'.read (a + i)) :
    m.readBytes a n = m'.readBytes a n := by
  induction n generalizing a with
  | zero => rfl
  | succ n ih =>
    rw [Memory.readBytes, Memory.readBytes, show m.read a = m'.read a from h 0 (Nat.succ_pos n)]
    congr 1
    exact ih fun i hi => by simpa only [Nat.add_assoc, Nat.add_comm 1 i] using h (i + 1) (by omega)

/-- A written run reads back. -/
theorem Memory.readBytes_writeBytes {m : Memory} (hm : m.wf = true) (a : Nat) (bs : List Byte) : (m.writeBytes a bs).readBytes a bs.length = bs := by
  induction bs generalizing m a with
  | nil => rfl
  | cons b bs ih =>
    have hfirst := Memory.read_writeBytes_inside a 0 (b :: bs) hm (Nat.succ_pos _)
    exact congrArg₂ List.cons hfirst (ih (Memory.write_wf a b hm) (a + 1))

theorem State.readN_writeN_same {s : State} (hm : s.mem.wf = true) (k n x : Nat) : (s.writeN k n x).readN k n = x % 2 ^ (8 * n) := by
  have h := Memory.readBytes_writeBytes hm k (leBytes n x)
  rw [leBytes_length] at h
  rw [State.readN, State.writeN, h, leNat_leBytes, show 256 = 2 ^ 8 from rfl, ← Nat.pow_mul]

theorem State.read_writeN_of_outside (s : State) {a k n : Nat} (x : Nat) (h : a < k ∨ k + n ≤ a) : (s.writeN k n x).mem.read a = s.mem.read a :=
  Memory.read_writeBytes_of_outside _ _ _ _ (by rwa [leBytes_length])

theorem State.readN_congr {s t : State} {k n : Nat} (h : ∀ a, k ≤ a → a < k + n → t.mem.read a = s.mem.read a) : t.readN k n = s.readN k n :=
  congrArg leNat (Memory.readBytes_congr fun _ hi => h _ (Nat.le_add_right ..) (Nat.add_lt_add_left hi k))

/-! ## Numbers written in turn to a slice -/

/-- The i-th of a list of numbers goes to the n bytes of core c's slice at the offset of i, in ascending order. -/
def State.putRun (s : State) (c : CoreId) (n : Nat) (off : Nat → Nat) (vs : List Nat) (i : Nat) : State :=
  (vs.zipIdx i).foldl (fun s p => s.swrite c (off p.2) n p.1) s

section
variable {c : CoreId} {n : Nat} {off : Nat → Nat}

theorem State.putRun_cons (s : State) (v : Nat) (vs : List Nat) (i : Nat) :
    s.putRun c n off (v :: vs) i = (s.swrite c (off i) n v).putRun c n off vs (i + 1) := rfl

theorem State.read_putRun_of_outside (s : State) {vs : List Nat} {i a : Nat}
    (h : ∀ m, m < vs.length → a < sliceKey c (off (i + m)) ∨ sliceKey c (off (i + m)) + n ≤ a) :
    (s.putRun c n off vs i).mem.read a = s.mem.read a := by
  induction vs generalizing s i with
  | nil => rfl
  | cons v vs ih =>
    rw [State.putRun_cons, ih _ fun m hm => by simpa only [Nat.add_assoc, Nat.add_comm 1 m] using h (m + 1) (Nat.succ_lt_succ hm)]
    exact s.read_writeN_of_outside v (h 0 (Nat.succ_pos _))

/-- A number that no later one lies over reads back (R125). -/
theorem State.readN_putRun {s : State} (hs : s.mem.wf = true) {vs : List Nat} {i m : Nat} (hm : m < vs.length)
    (hover : ∀ j, m < j → j < vs.length → off (i + j) + n ≤ off (i + m) ∨ off (i + m) + n ≤ off (i + j)) :
    (s.putRun c n off vs i).readN (sliceKey c (off (i + m))) n = vs.getD m 0 % 2 ^ (8 * n) := by
  induction vs generalizing s i m with
  | nil => cases hm
  | cons v vs ih =>
    rw [State.putRun_cons]
    cases m with
    | zero =>
      rw [State.readN_congr (s := s.swrite c (off i) n v) fun a hlo hhi => ?_]
      · exact State.readN_writeN_same hs ..
      · refine State.read_putRun_of_outside _ fun j hj => ?_
        have := hover (j + 1) (Nat.succ_pos j) (Nat.succ_lt_succ hj)
        rw [Nat.add_assoc, Nat.add_comm 1 j]
        simp only [Nat.add_zero, sliceKey] at this hlo hhi ⊢
        omega
    | succ m =>
      rw [show i + (m + 1) = i + 1 + m by omega]
      refine ih (State.swrite_wf c _ n v hs) (Nat.lt_of_succ_lt_succ hm) fun j hj hlen => ?_
      simpa only [Nat.add_assoc, Nat.add_comm 1] using hover (j + 1) (Nat.succ_lt_succ hj) (Nat.succ_lt_succ hlen)

/-- The state without its memory. -/
def State.sansMem (s : State) : State := { s with mem := [] }

theorem State.sansMem_putRun (s : State) (vs : List Nat) (i : Nat) : (s.putRun c n off vs i).sansMem = s.sansMem :=
  foldl_keeps State.sansMem (fun (u : State) (p : Nat × Nat) => (rfl : (u.swrite c (off p.2) n p.1).sansMem = u.sansMem)) ..
end

/-! ## Elements of a shape that is not split -/

theorem farElem_of_not_split {h : Shape} (hs : h.split = false) (l : List (Lay × List Opnd)) : farElem h l = none := by
  rw [farElem, hs]; rfl
theorem Lay.place_near {h : Shape} (hs : h.split = false) (l : Lay) (base m : Nat) : (l.place h base m).1 = false := by
  unfold Lay.place
  split
  · rfl
  · simp [Shape.place, hs]

/-- The base of the tile that an operand names. -/
def State.opBase (s : State) (c : CoreId) (o : Opnd) : Nat := match opTile o with | some t => tileBase ((s.core c).tile t) | none => 0

theorem State.opBase_of_isSome {s : State} {c : CoreId} {o : Opnd} (h : (opTile o).isSome = true) :
    s.opBase c o = tileBase ((s.core c).tile ((opTile o).getD 0)) := by
  obtain ⟨t, ht⟩ := Option.isSome_iff_exists.1 h
  rw [State.opBase, ht]; rfl

theorem State.putElems_eq {h : Shape} (hs : h.split = false) (s : State) (c : CoreId) (l : Lay) (o : Opnd) (vs : List Nat) :
    s.putElems c h l o vs = s.putRun c l.size (fun m => (l.place h (s.opBase c o) m).2) vs 0 := by
  have hstep : (fun (u : State) (p : Nat × Nat) =>
      u.swrite (if (l.place h (s.opBase c o) p.2).1 then h.farCore c else c) (l.place h (s.opBase c o) p.2).2 l.size p.1)
      = fun u p => u.swrite c (l.place h (s.opBase c o) p.2).2 l.size p.1 := by
    funext u p
    rw [Lay.place_near hs, if_neg Bool.false_ne_true]
  exact congrArg (fun f => vs.zipIdx.foldl f s) hstep

/-- Only the bytes of the elements' places change. -/
theorem State.read_putElems_of_outside {h : Shape} (hs : h.split = false) (s : State) (c : CoreId) (l : Lay) (o : Opnd) {vs : List Nat} {a : Nat}
    (hout : ∀ m, m < vs.length → a < sliceKey c (l.place h (s.opBase c o) m).2 ∨ sliceKey c (l.place h (s.opBase c o) m).2 + l.size ≤ a) :
    (s.putElems c h l o vs).mem.read a = s.mem.read a := by
  rw [State.putElems_eq hs]
  exact s.read_putRun_of_outside fun m hm => by simpa only [Nat.zero_add] using hout m hm

/-- An element that no later one lies over reads back (R125). -/
theorem State.readN_putElems {h : Shape} (hs : h.split = false) {s : State} (hm : s.mem.wf = true) (c : CoreId) (l : Lay) (o : Opnd) {vs : List Nat}
    {m : Nat} (hlt : m < vs.length)
    (hover : ∀ n, m < n → n < vs.length → (l.place h (s.opBase c o) n).2 + l.size ≤ (l.place h (s.opBase c o) m).2
      ∨ (l.place h (s.opBase c o) m).2 + l.size ≤ (l.place h (s.opBase c o) n).2) :
    (s.putElems c h l o vs).readN (sliceKey c (l.place h (s.opBase c o) m).2) l.size = vs.getD m 0 % 2 ^ (8 * l.size) := by
  rw [State.putElems_eq hs]
  simpa only [Nat.zero_add] using State.readN_putRun (off := fun m => (l.place h (s.opBase c o) m).2) (i := 0) hm hlt
    fun n hn hlen => by simpa only [Nat.zero_add] using hover n hn hlen

theorem State.sansMem_putElems {h : Shape} (hs : h.split = false) (s : State) (c : CoreId) (l : Lay) (o : Opnd) (vs : List Nat) :
    (s.putElems c h l o vs).sansMem = s.sansMem := by
  rw [State.putElems_eq hs]; exact State.sansMem_putRun ..

/-! ## Operands given back (R131) -/

theorem foldl_of_fixed {α β : Type} {f : α → β → α} {a : α} {l : List β} (h : ∀ b ∈ l, f a b = a) : l.foldl f a = a := by
  induction l with
  | nil => rfl
  | cons b l ih => rw [List.foldl_cons, h b (List.mem_cons_self ..), ih fun x hx => h x (List.mem_cons_of_mem _ hx)]

theorem Core.untake_beside (k : Core) (d srcs : List Opnd) : (k.untake d srcs).beside = k.beside :=
  foldl_keeps Core.beside (fun c t => by split <;> rfl) ..

/-- Without ADV bits completion gives the readers back and makes the destinations READY. -/
theorem Core.complete_of_not_adv (k : Core) {p : POp} {ps : List POp} (hp : p.adv = false) (hps : ∀ q ∈ ps, q.adv = false) (d srcs : List Opnd) :
    k.complete p ps d srcs = (opTiles d).foldl (fun c t => c.tileTo t tReady) (k.untake d srcs) := by
  have hsrc (c : Core) : ps.foldl (fun c p => match p.spec with | .ring _ q => if p.adv then c.releaseN q.toNat p.k else c | _ => c) c = c := by
    refine foldl_of_fixed fun q hq => ?_
    rw [hps q hq]
    cases q.spec <;> rfl
  unfold Core.complete
  dsimp only
  rw [hp]
  refine (hsrc _).trans ?_
  cases p.spec <;> rfl

/-! ## Completion of a vector command -/

/-- The elements of an operand of one tile or one scalar; none for another. -/
def State.elemsOne (s : State) (c : CoreId) (h : Shape) (l : Lay) (xs : List Opnd) : List Nat := match xs with | [x] => s.elems c h l x | _ => []

/-- What a vector command computes from its sources as they stand. -/
def State.vResult (s : State) (c : CoreId) (cmd : Cmd) (k : VKind) (t : VTy) (o : VOps) (h : Shape) : List (List Nat) × Nat :=
  vCompute k t o h ((cmd.srcs.getD 0 []).map fun x => s.elems c h (vLays k t h).2.1 x)
    (s.elemsOne c h (vLays k t h).2.2.1 (cmd.srcs.getD 1 [])) (s.elemsOne c h (vLays k t h).2.2.2 (cmd.srcs.getD 2 []))

/-- A core whose vector command completes. -/
def Core.vCompleted (x : Core) (k : VKind) (o : VOps) (cmd : Cmd) : Core :=
  { x.complete (vPOps k o).1 [(vPOps k o).2.1, (vPOps k o).2.2.1, (vPOps k o).2.2.2] cmd.dst
      (cmd.srcs.getD 0 [] ++ cmd.srcs.getD 1 [] ++ cmd.srcs.getD 2 []) with vcur := none }

theorem exec_vectorCompletion {s : State} {c : CoreId} {cmd : Cmd} {k : VKind} {t : VTy} {o : VOps} {h : Shape}
    (hcur : (s.core c).vcur = some cmd) (hrun : (s.core c).mcheck = none) (hv : vecOf cmd.instr = some (k, t, o))
    (hh : shapeOf (cmd.shapes.headD []) = some h) (hk : ∀ n, k ≠ .csend n) (hs : h.split = false) :
    exec (.vectorCompletion c) s = .next (((((cmd.dst.zip (s.vResult c cmd k t o h).1).foldl
      (fun u p => u.putElems c h (vLays k t h).1 p.1 p.2) s).modCore c fun x => x.vCompleted k o cmd).cmdFlags c cmd.slot (s.vResult c cmd k t o h).2)) := by
  show execVectorCompletion c s = _
  simp only [execVectorCompletion, hcur, hv, hh, Core.enginesRun, hrun, farElem_of_not_split hs]
  cases k with
  | csend n => exact absurd rfl (hk n)
  | _ => rfl

section
variable (x : Core) {k : VKind} {o : VOps} (cmd : Cmd) (hd : o.advd = false) (ha : o.adva = false) (hb : o.advb = false) (hc : o.advc = false)
include hd ha hb hc

theorem Core.complete_vPOps (d srcs : List Opnd) :
    x.complete (vPOps k o).1 [(vPOps k o).2.1, (vPOps k o).2.2.1, (vPOps k o).2.2.2] d srcs
      = (opTiles d).foldl (fun c t => c.tileTo t tReady) (x.untake d srcs) :=
  Core.complete_of_not_adv x hd (by simp [vPOps, ha, hb, hc]) d srcs

theorem Core.vCompleted_strands : (x.vCompleted k o cmd).strands = x.strands := by
  have h : ((opTiles cmd.dst).foldl (fun c t => c.tileTo t tReady)
      (x.untake cmd.dst (cmd.srcs.getD 0 [] ++ cmd.srcs.getD 1 [] ++ cmd.srcs.getD 2 []))).beside = x.beside :=
    (foldl_keeps Core.beside (fun c t => c.tileTo_beside t tReady) ..).trans (x.untake_beside ..)
  rw [Core.vCompleted, Core.complete_vPOps x hd ha hb hc]
  exact (congrArg Core.strands h :)

theorem Core.tileSt_vCompleted {n : Nat} (hn : n ∈ opTiles cmd.dst) : tileSt ((x.vCompleted k o cmd).tile n) = tReady := by
  rw [Core.vCompleted, Core.complete_vPOps x hd ha hb hc]
  exact Core.tileSt_foldl_tileTo (by decide) hn _
end

/-- The core once its vector command has completed and the flags have gone to the strand of a slot. -/
theorem State.core_vCompleted_flagOf (s : State) {k : VKind} {o : VOps} (hd : o.advd = false) (ha : o.adva = false) (hb : o.advb = false)
    (hc : o.advc = false) (c : CoreId) (cmd : Cmd) (slot fl : Nat) :
    ((s.modCore c fun x => x.vCompleted k o cmd).flagOf ⟨c, slot⟩ fl).core c = ((s.core c).vCompleted k o cmd).setStrand slot
      { (s.core c).strand slot with sticky := ((s.core c).strand slot).sticky ||| BitVec.ofNat 64 fl } := by
  have hstrand : (s.modCore c fun x => x.vCompleted k o cmd).strand ⟨c, slot⟩ = (s.core c).strand slot := by
    rw [State.strand, State.core_modCore_same, Core.strand, Core.vCompleted_strands _ cmd hd ha hb hc]; rfl
  have h := State.core_modStrand_same (s.modCore c fun x => x.vCompleted k o cmd) ⟨c, slot⟩ fun x =>
    { x with sticky := x.sticky ||| BitVec.ofNat 64 fl }
  rw [hstrand, State.core_modCore_same] at h
  exact h

/-- STICKY bits of a command go to the strand of its slot. -/
theorem State.cmdFlags_of_lt {slot : Nat} (h : slot < 8) (s : State) (c : CoreId) (fl : Nat) : s.cmdFlags c slot fl = s.flagOf ⟨c, slot⟩ fl :=
  if_neg (Nat.ne_of_lt h)

/-- A state that differs in memory alone. -/
theorem onlyCore_of_sansMem {s u : State} (c : CoreId) (h : u.sansMem = s.sansMem) : OnlyCore c s u := by
  have hcores : u.cores = s.cores := (congrArg State.cores h :)
  have hcrews : u.crews = s.crews := (congrArg State.crews h :)
  have hpkgs : u.pkgs = s.pkgs := (congrArg State.pkgs h :)
  exact { cores := fun d _ => by rw [State.core, hcores]; rfl, crews := fun n => by rw [State.crew, hcrews]; rfl,
          pkgs := fun n => by rw [State.pkg, hpkgs]; rfl, agenda := (congrArg State.agenda h :), turn := (congrArg State.turn h :),
          cur := (congrArg State.cur h :), freeN := (congrArg State.freeN h :) }

theorem OnlyCore.trans {c : CoreId} {s t u : State} (h : OnlyCore c s t) (h' : OnlyCore c t u) : OnlyCore c s u :=
  { cores := fun d hd => (h'.cores d hd).trans (h.cores d hd), crews := fun n => (h'.crews n).trans (h.crews n),
    pkgs := fun n => (h'.pkgs n).trans (h.pkgs n), agenda := h'.agenda.trans h.agenda, turn := h'.turn.trans h.turn,
    cur := h'.cur.trans h.cur, freeN := h'.freeN.trans h.freeN }

/-- The completion of a command with one destination tile, one list of results and no ADV bits: what stands in memory, in the core, and that
nothing else changes. -/
theorem vectorCompletion_next {s : State} {c : CoreId} {cmd : Cmd} {k : VKind} {t : VTy} {o : VOps} {h : Shape} {d : Opnd} {vs : List Nat}
    (hcur : (s.core c).vcur = some cmd) (hrun : (s.core c).mcheck = none) (hv : vecOf cmd.instr = some (k, t, o))
    (hh : shapeOf (cmd.shapes.headD []) = some h) (hk : ∀ n, k ≠ .csend n) (hs : h.split = false) (hdst : cmd.dst = [d]) (hslot : cmd.slot < 8)
    (hd : o.advd = false) (ha : o.adva = false) (hb : o.advb = false) (hc : o.advc = false) (hr : (s.vResult c cmd k t o h).1 = [vs]) :
    ∃ u, exec (.vectorCompletion c) s = .next u ∧ u.mem = (s.putElems c h (vLays k t h).1 d vs).mem
      ∧ u.core c = ((s.core c).vCompleted k o cmd).setStrand cmd.slot { (s.core c).strand cmd.slot with
          sticky := ((s.core c).strand cmd.slot).sticky ||| BitVec.ofNat 64 (s.vResult c cmd k t o h).2 }
      ∧ OnlyCore c s u := by
  have hsans := State.sansMem_putElems hs s c (vLays k t h).1 d vs
  have hcore : (s.putElems c h (vLays k t h).1 d vs).core c = s.core c :=
    congrArg (fun x => SMap.get ({} : Core) x c.key) (congrArg State.cores hsans :)
  have hex := exec_vectorCompletion hcur hrun hv hh hk hs
  rw [hdst, hr, State.cmdFlags_of_lt hslot] at hex
  have hflag := State.core_vCompleted_flagOf (s.putElems c h (vLays k t h).1 d vs) (k := k) hd ha hb hc c cmd cmd.slot (s.vResult c cmd k t o h).2
  rw [hcore] at hflag
  exact ⟨_, hex, rfl, hflag,
    (onlyCore_of_sansMem c hsans).trans ((onlyCore_modCore ..).trans (onlyStrand_modStrand _ ⟨c, cmd.slot⟩ _).toOnlyCore)⟩

end Sys2Proof.Machine
end

section
/-! SUPPORT. Results gathered with their flags, and elements of the integer types: their values, clamping, carry-less products and the integer
dot product (R86, R99, R137, R143). -/

namespace Sys2Proof.Machine

/-! ## Results with flags -/

theorem withFlags_fst (l : List (Nat × Nat)) : (withFlags l).1 = l.map Prod.fst := rfl
theorem withFlags_singleton (p : Nat × Nat) : withFlags [p] = ([p.1], p.2) := by simp [withFlags]

/-- A flag is raised where some result raises it. -/
theorem testBit_withFlags (l : List (Nat × Nat)) (i : Nat) : (withFlags l).2.testBit i = true ↔ ∃ p ∈ l, p.2.testBit i = true := by
  have hfold (a : Nat) : (l.foldl (fun f p => f ||| p.2) a).testBit i = (a.testBit i || l.any fun p => p.2.testBit i) := by
    induction l generalizing a with
    | nil => simp
    | cons p l ih => rw [List.foldl_cons, ih, Nat.testBit_or, List.any_cons, Bool.or_assoc]
  rw [withFlags, hfold, Nat.zero_testBit, Bool.false_or, List.any_eq_true]

theorem getD_map_range {α : Type} (f : Nat → α) {n m : Nat} (h : m < n) (d : α) : ((List.range n).map f).getD m d = f m := by
  simp [List.getD_eq_getElem?_getD, h]

/-! ## Integer types -/

/-- Of a value of w bits the upper half is negative in a signed type. -/
theorem vIv_of_lt {t : VTy} {x : Nat} (hx : x < 2 ^ t.width) :
    vIv t x = if t.isS = true ∧ 2 ^ (t.width - 1) ≤ x then (x : Int) - 2 ^ t.width else x := by
  rw [vIv, intVal, sextN, zextN, Nat.mod_eq_of_lt hx]
  cases t.isS
  · rfl
  · by_cases hlow : x < 2 ^ (t.width - 1)
    · simp [hlow, Nat.not_le.2 hlow]
    · simp [hlow, Nat.not_lt.1 hlow]

theorem vIv_inj {t : VTy} {x y : Nat} (hx : x < 2 ^ t.width) (hy : y < 2 ^ t.width) : vIv t x = vIv t y ↔ x = y := by
  refine ⟨fun h => ?_, fun h => by rw [h]⟩
  rw [vIv_of_lt hx, vIv_of_lt hy] at h
  zify at hx hy
  split_ifs at h <;> omega

theorem wrapN_eq (e : Int) (w : Nat) : wrapN e w = (e % 2 ^ w).toNat := by rw [wrapN]; push_cast; rfl

theorem intMin_eq (sg : Bool) (w : Nat) : intMin sg w = if sg then -2 ^ (w - 1) else 0 := by cases sg <;> simp [intMin]
theorem intMax_eq (sg : Bool) (w : Nat) : intMax sg w = if sg then 2 ^ (w - 1) - 1 else 2 ^ w - 1 := by cases sg <;> simp [intMax]
theorem intMin_le_intMax (sg : Bool) (w : Nat) : intMin sg w ≤ intMax sg w := by
  have hhalf : (0 : Int) < 2 ^ (w - 1) := by positivity
  have hfull : (0 : Int) < 2 ^ w := by positivity
  rw [intMin_eq, intMax_eq]
  split <;> omega

/-- An exact result wrapped, or under SAT clamped with VSAT (R86). -/
theorem intOut_eq (sat sg : Bool) (w : Nat) (e : Int) :
    intOut sat sg w e =
      (((if sat = true ∧ e < intMin sg w then intMin sg w else if sat = true ∧ intMax sg w < e then intMax sg w else e) % 2 ^ w).toNat,
        if sat = true ∧ (e < intMin sg w ∨ intMax sg w < e) then 0x800 else 0) := by
  cases sat
  · simp [intOut, wrapN_eq]
  · by_cases hlo : e < intMin sg w
    · simp [intOut, wrapN_eq, clampI, hlo, hlo.ne', flVSAT]
    · by_cases hhi : intMax sg w < e
      · simp [intOut, wrapN_eq, clampI, hlo, hhi, hhi.ne, flVSAT]
      · simp [intOut, wrapN_eq, clampI, hlo, hhi]

/-- The same by cases, as R86 words it. -/
theorem intOut_cases (sat sg : Bool) (w : Nat) (e : Int) :
    if sat = true ∧ e < intMin sg w then intOut sat sg w e = ((intMin sg w % 2 ^ w).toNat, 0x800)
    else if sat = true ∧ intMax sg w < e then intOut sat sg w e = ((intMax sg w % 2 ^ w).toNat, 0x800)
    else intOut sat sg w e = ((e % 2 ^ w).toNat, 0) := by
  by_cases hlo : sat = true ∧ e < intMin sg w
  · rw [if_pos hlo, intOut_eq, if_pos hlo, if_pos ⟨hlo.1, .inl hlo.2⟩]
  · by_cases hhi : sat = true ∧ intMax sg w < e
    · rw [if_neg hlo, if_pos hhi, intOut_eq, if_neg hlo, if_pos hhi, if_pos ⟨hhi.1, .inr hhi.2⟩]
    · have hin : ¬ (sat = true ∧ (e < intMin sg w ∨ intMax sg w < e)) :=
        fun ⟨hs, hout⟩ => hout.elim (fun h => hlo ⟨hs, h⟩) fun h => hhi ⟨hs, h⟩
      rw [if_neg hlo, if_neg hhi, intOut_eq, if_neg hlo, if_neg hhi, if_neg hin]

theorem intOut_fst_eq_max_min (sat sg : Bool) (w : Nat) (e : Int) :
    (intOut sat sg w e).1 = ((if sat = true then max (intMin sg w) (min (intMax sg w) e) else e) % 2 ^ w).toNat := by
  have hle := intMin_le_intMax sg w
  rw [intOut_eq]
  cases sat
  · simp
  · have hclamp : (if e < intMin sg w then intMin sg w else if intMax sg w < e then intMax sg w else e)
        = max (intMin sg w) (min (intMax sg w) e) := by split_ifs <;> omega
    simp [hclamp]

theorem testBit_intOut_snd (sat sg : Bool) (w : Nat) (e : Int) :
    (intOut sat sg w e).2.testBit 11 = true ↔ sat = true ∧ (e < intMin sg w ∨ intMax sg w < e) := by
  have hbit : Nat.testBit 0x800 11 = true := by decide
  rw [intOut_eq]
  dsimp only
  split <;> simp [*]

/-! ## One element (R137, R138, R142, R143) -/

/-- A condition of vcmp on integers (R142). -/
def condInt (cc : VCond) (a b : Int) : Bool :=
  match cc with
  | .eq => decide (a = b) | .ne => decide (a ≠ b) | .un => false
  | .lt => decide (a < b) | .le => decide (a ≤ b) | .gt => decide (b < a) | .ge => decide (b ≤ a)

section
variable (cc : VCond) (t src : VTy) (o : VOps) (x y z : Nat)
theorem vElem_cmp : vElem (.cmp cc) t o x y z = (if (vCmp cc t o.ftz x y).1 then 1 else 0, (vCmp cc t o.ftz x y).2) := by
  unfold vElem; split <;> rfl
theorem vElem_max : vElem .max t o x y z = vMaxMin true t o.ftz x y := by unfold vElem; split <;> rfl
theorem vElem_min : vElem .min t o x y z = vMaxMin false t o.ftz x y := by unfold vElem; split <;> rfl
theorem vElem_cvt : vElem (.cvt src) t o x y z = vCvt t src o x := by unfold vElem; split <;> rfl
theorem vElem_sel : vElem .sel t o x y z = (if x = 0 then z else y, 0) := by unfold vElem; split <;> rfl
end

section
variable {t : VTy} (ht : t.fmt = none) (o : VOps) (x y z : Nat)
include ht
theorem vElem_add_int : vElem .add t o x y z = intOut o.sat t.isS t.width (vIv t x + vIv t y) := by rw [vElem, ht]
theorem vElem_sub_int : vElem .sub t o x y z = intOut o.sat t.isS t.width (vIv t x - vIv t y) := by rw [vElem, ht]
theorem vElem_mul_int : vElem .mul t o x y z = intOut o.sat t.isS t.width (vIv t x * vIv t y) := by rw [vElem, ht]
theorem vElem_fma_int : vElem .fma t o x y z = intOut o.sat t.isS t.width (vIv t x * vIv t y + vIv t z) := by rw [vElem, ht]
theorem vElem_abs_int : vElem .abs t o x y z = intOut o.sat t.isS t.width (vIv t x).natAbs := by rw [vElem, ht]
theorem vElem_neg_int : vElem .neg t o x y z = intOut o.sat t.isS t.width (-(vIv t x)) := by rw [vElem, ht]
theorem vElem_popc_int : vElem .popc t o x y z = (popN t.width x, 0) := by rw [vElem, ht]
theorem vElem_clmul_int : vElem .clmul t o x y z =
    (if o.hi then clmulN t.width x y / 2 ^ t.width % 2 ^ t.width else clmulN t.width x y % 2 ^ t.width, 0) := by rw [vElem, ht]
theorem vMaxMin_int (mx ftz : Bool) : vMaxMin mx t ftz x y =
    (if mx then (if vIv t x < vIv t y then y else x) else (if vIv t x < vIv t y then x else y), 0) := by
  rw [vMaxMin, ht]; simp only [decide_eq_true_eq]
theorem vCmp_int (cc : VCond) (ftz : Bool) : vCmp cc t ftz x y = (condInt cc (vIv t x) (vIv t y), 0) := by
  rw [vCmp, ht]; cases cc <;> rfl
theorem vCvt_int {d : VTy} (hd : d.fmt = none) : vCvt d t o x = intOut (o.sat && decide (d.width ≤ t.width)) d.isS d.width (vIv t x) := by
  rw [vCvt, hd, ht]
end

/-! ## viota (R143) -/

section
variable (t : VTy) (o : VOps) (h : Shape) (x y : Nat) (c : List Nat)

/-- Element m of viota, exact: a + m · b narrowed to the type. -/
def vIotaElem (t : VTy) (o : VOps) (x y m : Nat) : Nat × Nat := intOut o.sat t.isS t.width (vIv t x + m * vIv t y)

theorem vCompute_iota : vCompute .iota t o h [[x]] [y] c =
    ([((List.range h.count).map (vIotaElem t o x y)).map Prod.fst], (withFlags ((List.range h.count).map (vIotaElem t o x y))).2) := rfl

theorem getD_vCompute_iota {m : Nat} (hm : m < h.count) : ((vCompute .iota t o h [[x]] [y] c).1.getD 0 []).getD m 0 =
    ((if o.sat = true then max (intMin t.isS t.width) (min (intMax t.isS t.width) (vIv t x + m * vIv t y)) else vIv t x + m * vIv t y)
      % 2 ^ t.width).toNat := by
  rw [vCompute_iota, List.getD_cons_zero, List.map_map, getD_map_range _ hm, Function.comp, vIotaElem, intOut_fst_eq_max_min]

theorem testBit_vCompute_iota : (vCompute .iota t o h [[x]] [y] c).2.testBit 11 = true ↔
    o.sat = true ∧ ∃ n, n < h.count ∧ (vIv t x + n * vIv t y < intMin t.isS t.width ∨ intMax t.isS t.width < vIv t x + n * vIv t y) := by
  rw [vCompute_iota]
  simp only [testBit_withFlags, List.mem_map, List.mem_range, exists_exists_and_eq_and, vIotaElem, testBit_intOut_snd]
  exact ⟨fun ⟨n, hn, hs, hout⟩ => ⟨hs, n, hn, hout⟩, fun ⟨hs, n, hn, hout⟩ => ⟨n, hn, hs, hout⟩⟩
end

/-! ## Carry-less products (R143) -/

theorem testBit_twice (a i : Nat) : (2 * a).testBit i = (decide (1 ≤ i) && a.testBit (i - 1)) := by
  simpa [Nat.mul_comm] using Nat.testBit_mul_two_pow a i 1
theorem xor_parity (x : Bool) (c : Nat) : (x ^^ (c % 2 == 1)) = ((c + if x then 1 else 0) % 2 == 1) := by
  rcases Nat.mod_two_eq_zero_or_one c with h | h <;> cases x <;> simp [h, Nat.add_mod]

/-- Bit i of the carry-less product of a with the low n bits of b is the parity of the pairs of bits that meet there. -/
theorem testBit_clmulN (n a b i : Nat) :
    (clmulN n a b).testBit i = ((List.range n).countP (fun k => decide (k ≤ i) && a.testBit (i - k) && b.testBit k) % 2 == 1) := by
  induction n generalizing a b with
  | zero => simp [clmulN]
  | succ n ih =>
    have hfirst : (if b % 2 = 1 then a else 0).testBit i = (decide (0 ≤ i) && a.testBit (i - 0) && b.testBit 0) := by
      rw [Nat.testBit_zero]; split <;> simp [*]
    have hrest (k : Nat) : (decide (k ≤ i) && (2 * a).testBit (i - k) && (b / 2).testBit k)
        = (decide (k + 1 ≤ i) && a.testBit (i - (k + 1)) && b.testBit (k + 1)) := by
      have hle : (decide (k ≤ i) && decide (1 ≤ i - k)) = decide (k + 1 ≤ i) := by rw [Bool.eq_iff_iff]; simp; omega
      rw [Nat.testBit_succ, testBit_twice, ← Bool.and_assoc (decide (k ≤ i)), hle, Nat.sub_sub]
    rw [clmulN, Nat.testBit_xor, ih, hfirst, xor_parity, List.range_succ_eq_map, List.countP_cons, List.countP_map]
    simp only [hrest]
    rfl

/-- Whichever factor's bits are run through. -/
theorem testBit_clmulN_comm {w a b : Nat} (ha : a < 2 ^ w) (hb : b < 2 ^ w) (i : Nat) :
    (clmulN w a b).testBit i = (((List.range w).filter fun j => decide (j ≤ i) && a.testBit j && b.testBit (i - j)).length % 2 == 1) := by
  have hcard (p : Nat → Bool) : ((List.range w).filter p).length = ((Finset.range w).filter fun k => p k = true).card := by
    simp [Finset.card, Finset.filter, Finset.range, Multiset.range]
  have hlow {x k : Nat} (hx : x < 2 ^ w) (hk : x.testBit k = true) : k < w := by
    by_contra hge
    rw [Nat.testBit_lt_two_pow (lt_of_lt_of_le hx (Nat.pow_le_pow_right (by decide) (Nat.not_lt.1 hge)))] at hk
    cases hk
  rw [testBit_clmulN, List.countP_eq_length_filter, hcard, hcard]
  congr 2
  refine Finset.card_nbij' (i - ·) (i - ·) (fun k hk => ?_) (fun k hk => ?_) (fun k hk => ?_) (fun k hk => ?_)
  all_goals simp only [Finset.coe_filter, Finset.mem_range, Set.mem_ofPred_eq, Bool.and_eq_true, decide_eq_true_eq] at hk ⊢
  · obtain ⟨hkw, ⟨hki, hak⟩, hbk⟩ := hk
    exact ⟨hlow ha hak, ⟨Nat.sub_le .., hak⟩, by rwa [Nat.sub_sub_self hki]⟩
  · obtain ⟨hkw, ⟨hki, hak⟩, hbk⟩ := hk
    exact ⟨hlow hb hbk, ⟨Nat.sub_le .., by rwa [Nat.sub_sub_self hki]⟩, hbk⟩
  · exact Nat.sub_sub_self hk.2.1.1
  · exact Nat.sub_sub_self hk.2.1.1

/-- The half of the product that vclmul gives (R143). -/
theorem testBit_vclmul {w x y : Nat} (hx : x < 2 ^ w) (hy : y < 2 ^ w) (hi : Bool) {i : Nat} (h : i < w) :
    (if hi then clmulN w x y / 2 ^ w % 2 ^ w else clmulN w x y % 2 ^ w).testBit i =
      (((List.range w).filter fun j => decide (j ≤ (if hi then i + w else i)) && x.testBit j && y.testBit ((if hi then i + w else i) - j)).length % 2
        == 1) := by
  rw [← testBit_clmulN_comm hx hy]
  cases hi
  · simp [Nat.testBit_mod_two_pow, h]
  · simp [Nat.testBit_mod_two_pow, h, Nat.testBit_div_two_pow]

/-! ## Rows of five elements (R98, R99, R139) -/

section
variable {h : Shape} {n : Nat} (hext : h.ext = (n, 1, 1, 1))
include hext
theorem Shape.row_of_ext : h.row = n := congrArg Prod.fst hext
theorem Shape.rows_of_ext : h.rows = 1 := by simp [Shape.rows, hext]
theorem Shape.count_of_ext : h.count = n := by simp [Shape.count, hext]
end

/-- The pairwise tree over five values (R98). -/
theorem pairTree_five {α : Type} (op : α → α → α) (a b c d e : α) :
    pairTree op 21 [a, b, c, d, e] = some (op (op (op a b) (op c d)) e) := rfl

section
variable (t : VTy) (o : VOps) {h : Shape} (hext : h.ext = (5, 1, 1, 1))

/-- The pairwise tree of the products of vdot over five elements. -/
def vDotFive (t : VTy) (o : VOps) (p : Nat → Nat × Nat) : Nat × Nat :=
  vDotAdd t o (vDotAdd t o (vDotAdd t o (p 0) (p 1)) (vDotAdd t o (p 2) (p 3))) (p 4)

theorem rowsOf_range_five : rowsOf 5 1 ((List.range 5).map id) = [[0, 1, 2, 3, 4]] := rfl

include hext
/-- vdot of one row of five: the tree of the products, and then the accumulating operand. -/
theorem vCompute_dot_five (xs ys : List Nat) (z : Nat) :
    let tree := vDotFive t o fun m => vDotProd t o (xs.getD m 0) (ys.getD m 0)
    vCompute .dot t o h [xs] ys [] = ([[tree.1]], tree.2)
      ∧ vCompute .dot t o h [xs] ys [z] = ([[(vDotAdd t o tree (z, 0)).1]], (vDotAdd t o tree (z, 0)).2) := by
  simp only [vCompute, Shape.row_of_ext hext, Shape.rows_of_ext hext, Shape.count_of_ext hext, rowsOf_range_five, List.map_cons, List.map_nil,
    List.zipIdx_cons, List.zipIdx_nil, pairTree_five, Option.getD_some, List.headD_cons, withFlags_singleton, vDotFive]
  exact ⟨rfl, rfl⟩
end

/-- Products and sums of vdot on integers are exact modulo 2^32 (R99). -/
theorem vDotProd_int {t : VTy} (ht : t.fmt = none) (o : VOps) (x y : Nat) : vDotProd t o x y = (wrapN (vIv t x * vIv t y) 32, 0) := by
  rw [vDotProd, ht]
theorem wrapN_add_mod (a : Int) (n w : Nat) : (wrapN a w + n) % 2 ^ w = wrapN (a + n) w := by
  have hpos : (0 : Int) < 2 ^ w := by positivity
  have ha := Int.emod_nonneg a hpos.ne'
  have hsum := Int.emod_nonneg (a + n) hpos.ne'
  rw [wrapN_eq, wrapN_eq]
  zify
  rw [Int.toNat_of_nonneg ha, Int.toNat_of_nonneg hsum, Int.emod_add_emod]
theorem vDotAdd_int_nat {t : VTy} (ht : t.fmt = none) (o : VOps) (a : Int) (n : Nat) :
    vDotAdd t o (wrapN a 32, 0) (n, 0) = (wrapN (a + n) 32, 0) := by
  rw [vDotAdd, ht]; exact congrArg (·, 0) (wrapN_add_mod a n 32)
theorem vDotAdd_int {t : VTy} (ht : t.fmt = none) (o : VOps) (a b : Int) :
    vDotAdd t o (wrapN a 32, 0) (wrapN b 32, 0) = (wrapN (a + b) 32, 0) := by
  have hpos : (0 : Int) < 2 ^ 32 := by decide
  rw [vDotAdd_int_nat ht, wrapN_eq, wrapN_eq, wrapN_eq, Int.toNat_of_nonneg (Int.emod_nonneg b hpos.ne'), Int.add_emod_emod]

/-- The tree of five integer products is their sum modulo 2^32. -/
theorem vDotFive_int {t : VTy} (ht : t.fmt = none) (o : VOps) (x y : Nat → Nat) :
    vDotFive t o (fun m => vDotProd t o (x m) (y m)) = (wrapN (vIv t (x 0) * vIv t (y 0) + vIv t (x 1) * vIv t (y 1)
      + vIv t (x 2) * vIv t (y 2) + vIv t (x 3) * vIv t (y 3) + vIv t (x 4) * vIv t (y 4)) 32, 0) := by
  simp only [vDotFive, vDotProd_int ht, vDotAdd_int ht, Int.add_assoc]

end Sys2Proof.Machine
end

section
/-! SUPPORT. Elements of the float types: sums, products, comparisons and signs of values, and the greatest magnitude of a block (R80 to R85, R137,
R141, R142). -/

namespace Sys2Proof.Machine

/-! ## NaN operands (R83) -/

theorem FV.exists_nan {a : FV} (h : a.isNan = true) : ∃ s, a = .nan s := by
  cases a with
  | nan s => exact ⟨s, rfl⟩
  | _ => cases h
theorem FV.isSig_of_not_isNan {a : FV} (h : a.isNan = false) : a.isSig = false := by
  cases a with
  | nan s => cases h
  | _ => rfl
theorem FV.isNan_of_isSig {a : FV} (h : a.isSig = true) : a.isNan = true := by
  cases a with
  | nan s => rfl
  | _ => cases h
theorem FV.isNan_negate (a : FV) : a.negate.isNan = a.isNan := by cases a <;> rfl
theorem FV.isSig_negate (a : FV) : a.negate.isSig = a.isSig := by cases a <;> rfl

section
variable {a b : FV} (h : a.isNan = true ∨ b.isNan = true)
include h

theorem FFmt.addV_of_isNan (f : FFmt) (rtz ftz : Bool) : f.addV rtz ftz a b = f.nanOut (a.isSig || b.isSig) := by
  rcases h with h | h <;> obtain ⟨s, rfl⟩ := FV.exists_nan h
  · rfl
  · cases a <;> rfl
theorem mulV_of_isNan : mulV a b = some (.nan (a.isSig || b.isSig)) := by
  rcases h with h | h <;> obtain ⟨s, rfl⟩ := FV.exists_nan h
  · rfl
  · cases a <;> rfl
theorem FFmt.mulR_of_isNan (f : FFmt) (rtz ftz : Bool) : f.mulR rtz ftz a b = f.nanOut (a.isSig || b.isSig) := by
  rw [FFmt.mulR, mulV_of_isNan h]
theorem FFmt.fmaR_of_isNan (f : FFmt) (rtz ftz : Bool) (c : FV) : (f.fmaR rtz ftz a b c).1 = f.canon := by
  rw [FFmt.fmaR, mulV_of_isNan h]; rfl
theorem FV.lt_of_isNan : FV.lt a b = false := by
  rcases h with h | h <;> obtain ⟨s, rfl⟩ := FV.exists_nan h
  · rfl
  · cases a <;> rfl
theorem FV.eq_of_isNan : FV.eq a b = false := by
  rcases h with h | h <;> obtain ⟨s, rfl⟩ := FV.exists_nan h
  · rfl
  · cases a <;> rfl
end

/-! ## Finite operands (R80, R82) -/

section
variable {f : FFmt} {rtz ftz n1 n2 : Bool} {m1 m2 : Nat} {e1 e2 : Int}
theorem FFmt.mulR_fin : f.mulR rtz ftz (.fin n1 m1 e1) (.fin n2 m2 e2) = f.round rtz ftz (n1 != n2) (m1 * m2) (e1 + e2) := rfl
theorem FFmt.addV_fin {s e : Int} (h : (s, e) = finSum n1 m1 e1 n2 m2 e2) (hs : s ≠ 0) :
    f.addV rtz ftz (.fin n1 m1 e1) (.fin n2 m2 e2) = f.round rtz ftz (decide (s < 0)) s.natAbs e := by
  rw [FFmt.addV, ← h]; exact if_neg hs
theorem FFmt.fmaR_fin {c : FV} :
    f.fmaR rtz ftz (.fin n1 m1 e1) (.fin n2 m2 e2) c = f.addV rtz ftz (.fin (n1 != n2) (m1 * m2) (e1 + e2)) c := rfl
end

section
variable (n1 n2 : Bool) (m1 m2 : Nat) (e1 e2 : Int)
theorem signedScale_not (n : Bool) (m k : Nat) : signedScale (!n) m k = -signedScale n m k := by cases n <;> simp [signedScale]
/-- The difference the other way round. -/
theorem finSum_swap : (finSum n2 m2 e2 (!n1) m1 e1).1 = -(finSum n1 m1 e1 (!n2) m2 e2).1 := by
  have he : (if e2 ≤ e1 then e2 else e1) = if e1 ≤ e2 then e1 else e2 := by split_ifs <;> omega
  simp only [finSum, he, signedScale_not]
  ring
end

/-! ## Elements of a float type -/

section
variable {t : VTy} {f : FFmt} (ht : t.fmt = some f) (o : VOps) (x y z : Nat)
include ht

theorem vElem_add_float : vElem .add t o x y z = f.addV o.rtz o.ftz (f.input o.ftz x) (f.input o.ftz y) := by rw [vElem, ht]
theorem vElem_sub_float : vElem .sub t o x y z = f.addV o.rtz o.ftz (f.input o.ftz x) (f.input o.ftz y).negate := by rw [vElem, ht]
theorem vElem_mul_float : vElem .mul t o x y z = f.mulR o.rtz o.ftz (f.input o.ftz x) (f.input o.ftz y) := by rw [vElem, ht]
theorem vElem_fma_float : vElem .fma t o x y z = f.fmaR o.rtz o.ftz (f.input o.ftz x) (f.input o.ftz y) (f.input o.ftz z) := by rw [vElem, ht]
theorem vElem_abs_float : vElem .abs t o x y z = (vSign f o.ftz x fun _ => false, 0) := by rw [vElem, ht]
theorem vElem_neg_float : vElem .neg t o x y z = (vSign f o.ftz x fun n => !n, 0) := by rw [vElem, ht]
theorem vElem_sfu_float (fn : SFn) : vElem (.sfu fn) t o x y z = sfu fn f o.ftz x := by rw [vElem, ht]
theorem vMaxMin_float (mx ftz : Bool) : vMaxMin mx t ftz x y =
    ((f.ofValue false ftz (fMaxMin mx (f.input ftz x) (f.input ftz y)).1).1, (fMaxMin mx (f.input ftz x) (f.input ftz y)).2) := by
  rw [vMaxMin, ht]
theorem vDotProd_float : vDotProd t o = fun i j => FFmt.mulR .f32 o.rtz o.ftz (f.input o.ftz i) (f.input o.ftz j) := by
  funext i j; rw [vDotProd, ht]
theorem vDotAdd_float : vDotAdd t o = fun i j =>
    ((FFmt.addV .f32 o.rtz o.ftz (FFmt.input .f32 o.ftz i.1) (FFmt.input .f32 o.ftz j.1)).1,
      i.2 ||| j.2 ||| (FFmt.addV .f32 o.rtz o.ftz (FFmt.input .f32 o.ftz i.1) (FFmt.input .f32 o.ftz j.1)).2) := by
  funext i j; rw [vDotAdd, ht]
/-- A conversion to the same type copies but for a signalling NaN (R138). -/
theorem vCvt_self_float (hz : o.ftz = false) : vCvt t t o x = if (f.value x).isSig then f.nanOut true else (x, 0) := by
  have hread : vRead t o.ftz x = x := by rw [vRead, ht, hz]; rfl
  rw [vCvt, ht, hread]; exact if_pos rfl
theorem vCvt_float {d : VTy} {fd : FFmt} (hd : d.fmt = some fd) (hne : d ≠ t) : vCvt d t o x = fd.ofValue o.rtz o.ftz (f.input o.ftz x) := by
  rw [vCvt, hd, ht]; exact if_neg hne
end

theorem fMaxMin_of_ordered {a b : FV} (ha : a.isNan = false) (hb : b.isNan = false) (hz : ¬ (a.isZero = true ∧ b.isZero = true)) (mx : Bool) :
    fMaxMin mx a b = (if mx then (if FV.lt a b then b else a) else (if FV.lt b a then b else a), 0) := by
  have hzero : (a.isZero && b.isZero) = false := by rwa [← Bool.not_eq_true, Bool.and_eq_true]
  cases mx <;> simp [fMaxMin, ha, hb, hzero]

/-! ## Signs (R137) -/

theorem vSign_abs (f : FFmt) (ftz : Bool) (x : Nat) :
    vSign f ftz x (fun _ => false) = if ftz = true ∧ f.isSub x = true then 0 else x % 2 ^ (f.width - 1) := by
  simp [vSign, FFmt.signed]
theorem FFmt.width_pos (f : FFmt) : 0 < f.width := by cases f <;> decide
theorem vSign_neg (f : FFmt) {x : Nat} (hx : x < 2 ^ f.width) :
    vSign f false x (fun n => !n) = (x + 2 ^ (f.width - 1)) % 2 ^ f.width := by
  have hfull : 2 ^ f.width = 2 * 2 ^ (f.width - 1) := by rw [← Nat.pow_succ', Nat.succ_eq_add_one, Nat.sub_add_cancel (FFmt.width_pos f)]
  rw [hfull] at hx ⊢
  simp only [vSign, FFmt.signed, Bool.false_and, Bool.false_eq_true, if_false]
  generalize 2 ^ (f.width - 1) = half at hx ⊢
  by_cases hlow : x < half
  · rw [Nat.div_eq_of_lt hlow, Nat.mod_eq_of_lt hlow, Nat.mod_eq_of_lt (show x + half < 2 * half by omega)]; rfl
  · have hdiv : x / half = 1 := Nat.div_eq_of_lt_le (by omega) (by omega)
    have hmod : x % half = x - half := by rw [Nat.mod_eq_sub_mod (by omega), Nat.mod_eq_of_lt (by omega)]
    rw [hdiv, hmod, show x + half = x - half + 2 * half by omega, Nat.add_mod_right, Nat.mod_eq_of_lt (show x - half < 2 * half by omega)]
    rfl

/-! ## Comparisons (R142) -/

/-- A condition of vcmp on float values that are no NaN (R142). -/
def condOrdered (cc : VCond) (a b : FV) : Bool :=
  match cc with
  | .eq => FV.eq a b | .ne => !FV.eq a b | .un => false
  | .lt => FV.lt a b | .le => FV.lt a b || FV.eq a b | .gt => FV.lt b a | .ge => FV.lt b a || FV.eq a b

section
variable {t : VTy} {f : FFmt} (ht : t.fmt = some f) (ftz : Bool) (x y : Nat)
include ht

theorem vCmp_un_float : vCmp .un t ftz x y =
    ((f.input ftz x).isNan || (f.input ftz y).isNan, if (f.input ftz x).isSig || (f.input ftz y).isSig then flNV else 0) := by
  rw [vCmp, ht]

section
variable (h : (f.input ftz x).isNan = true ∨ (f.input ftz y).isNan = true)
include h
theorem vCmp_order_of_isNan {cc : VCond} (hcc : cc ∈ [VCond.lt, .le, .gt, .ge]) : vCmp cc t ftz x y = (false, flNV) := by
  have hun : ((f.input ftz x).isNan || (f.input ftz y).isNan) = true := by rwa [Bool.or_eq_true]
  rw [vCmp, ht]
  simp only [FV.lt_of_isNan h, FV.lt_of_isNan h.symm, FV.eq_of_isNan h, hun]
  simp only [List.mem_cons, List.not_mem_nil, or_false] at hcc
  rcases hcc with rfl | rfl | rfl | rfl <;> rfl
theorem vCmp_eq_of_isNan : vCmp .eq t ftz x y = (false, if (f.input ftz x).isSig || (f.input ftz y).isSig then flNV else 0) := by
  rw [vCmp, ht]; simp only [FV.eq_of_isNan h]
theorem vCmp_ne_of_isNan : vCmp .ne t ftz x y = (true, if (f.input ftz x).isSig || (f.input ftz y).isSig then flNV else 0) := by
  rw [vCmp, ht]; simp only [FV.eq_of_isNan h, Bool.not_false, Bool.or_true]
end

theorem vCmp_of_not_isNan (hx : (f.input ftz x).isNan = false) (hy : (f.input ftz y).isNan = false) (cc : VCond) :
    vCmp cc t ftz x y = (condOrdered cc (f.input ftz x) (f.input ftz y), 0) := by
  rw [vCmp, ht]
  simp only [hx, hy, FV.isSig_of_not_isNan hx, FV.isSig_of_not_isNan hy]
  cases cc <;> rfl
end

section
variable (n1 n2 : Bool) (m1 m2 : Nat) (e1 e2 : Int)
theorem FV.eq_fin_iff : FV.eq (.fin n1 m1 e1) (.fin n2 m2 e2) = true ↔ (finSum n1 m1 e1 (!n2) m2 e2).1 = 0 := decide_eq_true_iff
theorem FV.lt_fin_iff : FV.lt (.fin n1 m1 e1) (.fin n2 m2 e2) = true ↔ (finSum n1 m1 e1 (!n2) m2 e2).1 < 0 := decide_eq_true_iff
theorem FV.gt_fin_iff : FV.lt (.fin n2 m2 e2) (.fin n1 m1 e1) = true ↔ 0 < (finSum n1 m1 e1 (!n2) m2 e2).1 := by
  rw [FV.lt_fin_iff, finSum_swap]; exact neg_lt_zero
end

/-! ## Blocks of 32 (R141) -/

/-- Block j of a row. -/
def block32 (l : List Nat) (j : Nat) : List Nat := (l.drop (32 * j)).take 32

theorem blocks32_eq (n : Nat) (l : List Nat) : blocks32 n l = (List.range n).map (block32 l) := by
  induction n generalizing l with
  | zero => rfl
  | succ n ih =>
    have hdrop : block32 (l.drop 32) = block32 l ∘ Nat.succ := by
      funext j
      rw [block32, Function.comp, block32, List.drop_drop, Nat.mul_succ, Nat.add_comm]
    rw [blocks32, ih, List.range_succ_eq_map, List.map_cons, List.map_map, hdrop]; rfl

theorem mem_block32 {l : List Nat} {j x : Nat} :
    x ∈ block32 l j ↔ ∃ k, (32 * j ≤ k ∧ k < 32 * j + 32 ∧ k < l.length) ∧ l.getD k 0 = x := by
  rw [block32, List.mem_iff_getElem]
  simp only [List.length_take, List.length_drop, List.getElem_take, List.getElem_drop, lt_min_iff]
  constructor
  · rintro ⟨i, ⟨hlow, hlen⟩, rfl⟩
    exact ⟨32 * j + i, ⟨by omega, by omega, by omega⟩, List.getD_eq_getElem _ _ (by omega)⟩
  · rintro ⟨k, ⟨hlow, hhigh, hlen⟩, rfl⟩
    refine ⟨k - 32 * j, ⟨by omega, by omega⟩, ?_⟩
    rw [List.getD_eq_getElem _ _ hlen]
    congr 1
    omega

theorem exists_mem_block32 {l : List Nat} {p : Nat → Prop} :
    (∃ j, j < (l.length + 31) / 32 ∧ ∃ x ∈ block32 l j, p x) ↔ ∃ k, k < l.length ∧ p (l.getD k 0) := by
  constructor
  · rintro ⟨j, -, x, hx, hp⟩
    obtain ⟨k, ⟨-, -, hlen⟩, rfl⟩ := mem_block32.1 hx
    exact ⟨k, hlen, hp⟩
  · rintro ⟨k, hlen, hp⟩
    exact ⟨k / 32, by omega, _, mem_block32.2 ⟨k, ⟨by omega, by omega, hlen⟩, rfl⟩, hp⟩

/-- The greatest of a list and a start value. -/
theorem foldl_max_spec (l : List Nat) (a : Nat) :
    (l.foldl max a = a ∨ l.foldl max a ∈ l) ∧ a ≤ l.foldl max a ∧ ∀ x ∈ l, x ≤ l.foldl max a := by
  induction l generalizing a with
  | nil => simp
  | cons b l ih =>
    obtain ⟨hmem, hstart, hle⟩ := ih (max a b)
    rw [List.foldl_cons]
    refine ⟨?_, (le_max_left a b).trans hstart, fun x hx => ?_⟩
    · rcases hmem with h | h
      · rw [h]
        rcases max_choice a b with hm | hm <;> simp [hm]
      · exact .inr (List.mem_cons_of_mem _ h)
    · rcases List.mem_cons.1 hx with rfl | hx
      · exact (le_max_right a x).trans hstart
      · exact hle x hx

section
variable (f : FFmt) (ftz : Bool) (bl : List Nat)

theorem testBit_vAmaxBlock : (vAmaxBlock f ftz bl).2.testBit 4 = true ↔ ∃ x ∈ bl, (f.input ftz x).isSig = true := by
  have hsig : (bl.map (f.input ftz)).any FV.isSig = true ↔ ∃ x ∈ bl, (f.input ftz x).isSig = true := by simp
  have hnan : (bl.map (f.input ftz)).any FV.isSig = true → (bl.map (f.input ftz)).any FV.isNan = true := by
    simp only [List.any_eq_true]
    exact fun ⟨v, hv, hs⟩ => ⟨v, hv, FV.isNan_of_isSig hs⟩
  rw [← hsig, vAmaxBlock]
  by_cases hs : (bl.map (f.input ftz)).any FV.isSig = true
  · simp only [hs, hnan hs, if_true, iff_true]; decide
  · simp only [hs]
    split <;> simp

theorem vAmaxBlock_of_isNan (h : ∃ x ∈ bl, (f.input ftz x).isNan = true) : (vAmaxBlock f ftz bl).1 = f.canon := by
  have hany : (bl.map (f.input ftz)).any FV.isNan = true := by simpa using h
  rw [vAmaxBlock, hany]; rfl

theorem vAmaxBlock_of_not_isNan (h : ∀ x ∈ bl, (f.input ftz x).isNan = false) (hne : bl ≠ []) :
    (∃ x ∈ bl, (vAmaxBlock f ftz bl).1 = vSign f ftz x fun _ => false)
      ∧ ∀ x ∈ bl, (vSign f ftz x fun _ => false) ≤ (vAmaxBlock f ftz bl).1 := by
  have hany : (bl.map (f.input ftz)).any FV.isNan = false := by simpa using h
  have hval : (vAmaxBlock f ftz bl).1 = (bl.map fun x => vSign f ftz x fun _ => false).foldl max 0 := by rw [vAmaxBlock, hany]; rfl
  obtain ⟨hmem, -, hle⟩ := foldl_max_spec (bl.map fun x => vSign f ftz x fun _ => false) 0
  rw [← hval] at hmem hle
  have hle' (x : Nat) (hx : x ∈ bl) := hle _ (List.mem_map_of_mem hx)
  refine ⟨?_, hle'⟩
  rcases hmem with hzero | hmem
  · obtain ⟨x, hx⟩ := List.exists_mem_of_ne_nil bl hne
    exact ⟨x, hx, le_antisymm (hzero.trans_le (Nat.zero_le _)) (hle' x hx)⟩
  · obtain ⟨x, hx, hv⟩ := List.mem_map.1 hmem
    exact ⟨x, hx, hv.symm⟩
end

/-- vamax of one row. -/
theorem vCompute_amax_row {t : VTy} {f : FFmt} (ht : t.fmt = some f) (o : VOps) {h : Shape} {l : List Nat} (hext : h.ext = (l.length, 1, 1, 1))
    (b c : List Nat) :
    vCompute .amax t o h [l] b c =
      ([(withFlags ((List.range ((l.length + 31) / 32)).map (vAmaxBlock f o.ftz ∘ block32 l))).1],
        (withFlags ((List.range ((l.length + 31) / 32)).map (vAmaxBlock f o.ftz ∘ block32 l))).2) := by
  have hrow : rowsOf l.length 1 l = [l] := by rw [rowsOf, List.take_length]; rfl
  simp only [vCompute, ht, Shape.row_of_ext hext, Shape.rows_of_ext hext, List.headD_cons, hrow, List.flatMap_cons, List.flatMap_nil, List.append_nil,
    blocks32_eq, List.map_map]

section
variable {t : VTy} {f : FFmt} (ht : t.fmt = some f) (o : VOps) {h : Shape} {l : List Nat} (hext : h.ext = (l.length, 1, 1, 1)) (b c : List Nat)
include ht hext

theorem length_vCompute_amax : ((vCompute .amax t o h [l] b c).1.getD 0 []).length = (l.length + 31) / 32 := by
  simp [vCompute_amax_row ht o hext, withFlags_fst]
theorem getD_vCompute_amax {j : Nat} (hj : j < (l.length + 31) / 32) :
    ((vCompute .amax t o h [l] b c).1.getD 0 []).getD j 0 = (vAmaxBlock f o.ftz (block32 l j)).1 := by
  rw [vCompute_amax_row ht o hext, List.getD_cons_zero, withFlags_fst, List.map_map, getD_map_range _ hj]; rfl
theorem testBit_vCompute_amax :
    (vCompute .amax t o h [l] b c).2.testBit 4 = true ↔ ∃ k, k < l.length ∧ (f.input o.ftz (l.getD k 0)).isSig = true := by
  rw [vCompute_amax_row ht o hext, testBit_withFlags]
  simp only [List.mem_map, List.mem_range, exists_exists_and_eq_and, Function.comp, testBit_vAmaxBlock]
  exact exists_mem_block32

/-- A block that holds a NaN gives the canonical NaN. -/
theorem getD_vCompute_amax_of_isNan {j : Nat} (hj : j < (l.length + 31) / 32)
    (hnan : ∃ k, (32 * j ≤ k ∧ k < 32 * j + 32 ∧ k < l.length) ∧ (f.input o.ftz (l.getD k 0)).isNan = true) :
    ((vCompute .amax t o h [l] b c).1.getD 0 []).getD j 0 = f.canon := by
  obtain ⟨k, hk, hn⟩ := hnan
  rw [getD_vCompute_amax ht o hext b c hj]
  exact vAmaxBlock_of_isNan _ _ _ ⟨_, mem_block32.2 ⟨k, hk, rfl⟩, hn⟩

/-- A block without a NaN gives the greatest of its magnitudes. -/
theorem getD_vCompute_amax_of_not_isNan {j : Nat} (hj : j < (l.length + 31) / 32)
    (hnum : ∀ k, 32 * j ≤ k ∧ k < 32 * j + 32 ∧ k < l.length → (f.input o.ftz (l.getD k 0)).isNan = false) :
    (∃ k, (32 * j ≤ k ∧ k < 32 * j + 32 ∧ k < l.length)
      ∧ ((vCompute .amax t o h [l] b c).1.getD 0 []).getD j 0 = vSign f o.ftz (l.getD k 0) fun _ => false)
    ∧ ∀ k, 32 * j ≤ k ∧ k < 32 * j + 32 ∧ k < l.length →
        (vSign f o.ftz (l.getD k 0) fun _ => false) ≤ ((vCompute .amax t o h [l] b c).1.getD 0 []).getD j 0 := by
  have hne : block32 l j ≠ [] := List.ne_nil_of_mem (mem_block32.2 ⟨32 * j, ⟨le_rfl, by omega, by omega⟩, rfl⟩)
  obtain ⟨⟨x, hx, hval⟩, hle⟩ := vAmaxBlock_of_not_isNan f o.ftz (block32 l j) (fun x hx => by
    obtain ⟨k, hk, rfl⟩ := mem_block32.1 hx; exact hnum k hk) hne
  obtain ⟨k, hk, rfl⟩ := mem_block32.1 hx
  rw [getD_vCompute_amax ht o hext b c hj]
  exact ⟨⟨k, hk, hval⟩, fun k hk => hle _ (mem_block32.2 ⟨k, hk, rfl⟩)⟩
end

end Sys2Proof.Machine
end

section
/-! SUPPORT. Where the gathering instructions place their elements, reductions and running results of a row, and vcompact and vexpand (R139, R143 to
R145). -/

namespace Sys2Proof.Machine

/-! ## Placement (R143 to R145) -/

section
variable (t : VTy) (o : VOps) (h : Shape) (as_ : List (List Nat)) (b c : List Nat) {m : Nat}

theorem vCompute_elementwise {k : VKind} (hk : k ∈ [VKind.add, .sub, .mul, .fma, .max, .min, .abs, .neg, .clmul, .sel, .popc]) :
    (vCompute k t o h as_ b c).1 =
      [((List.range h.count).map fun m => vElem k t o ((as_.headD []).getD m 0) (b.getD m 0) (c.getD m 0)).map Prod.fst] := by
  simp only [List.mem_cons, List.not_mem_nil, or_false] at hk
  rcases hk with rfl | rfl | rfl | rfl | rfl | rfl | rfl | rfl | rfl | rfl | rfl <;> rfl

theorem getD_vCompute_elementwise (hm : m < h.count) {k : VKind}
    (hk : k ∈ [VKind.add, .sub, .mul, .fma, .max, .min, .abs, .neg, .clmul, .sel, .popc]) :
    ((vCompute k t o h as_ b c).1.getD 0 []).getD m 0 = (vElem k t o ((as_.headD []).getD m 0) (b.getD m 0) (c.getD m 0)).1 := by
  rw [vCompute_elementwise t o h as_ b c hk, List.getD_cons_zero, List.map_map, getD_map_range _ hm]; rfl

theorem getD_vCompute_bcast (hm : m < h.count) : ((vCompute .bcast t o h as_ b c).1.getD 0 []).getD m 0 = (as_.headD []).headD 0 :=
  List.getD_replicate _ hm

theorem getD_vCompute_perm (hm : m < b.length) : ((vCompute .perm t o h as_ b c).1.getD 0 []).getD m 0 =
    if b.getD m 0 < h.count then (as_.headD []).getD (b.getD m 0) 0 else 0 := by
  show (b.map fun i => if i < h.count then (as_.headD []).getD i 0 else 0).getD m 0 = _
  rw [List.getD_eq_getElem _ _ (by rwa [List.length_map]), List.getElem_map, List.getD_eq_getElem _ _ hm]

theorem getD_vCompute_unzip (hm : m < h.count) {k j : Nat} (hj : j < k) :
    ((vCompute (.unzip k) t o h as_ b c).1.getD j []).getD m 0 = (as_.headD []).getD (m * k + j) 0 := by
  show (((List.range k).map fun j => (List.range h.count).map fun m => (as_.headD []).getD (m * k + j) 0).getD j []).getD m 0 = _
  rw [getD_map_range _ hj, getD_map_range _ hm]

theorem getD_vCompute_zip (hm : m < h.count) {k j : Nat} (hj : j < k) :
    ((vCompute (.zip k) t o h as_ b c).1.getD 0 []).getD (m * k + j) 0 = (as_.getD j []).getD m 0 := by
  have hlt : m * k + j < k * h.count :=
    calc m * k + j < m * k + k := Nat.add_lt_add_left hj _
      _ = k * (m + 1) := by ring
      _ ≤ k * h.count := Nat.mul_le_mul_left k hm
  have hpos : 0 < k := Nat.zero_lt_of_lt hj
  show ((List.range (k * h.count)).map fun i => (as_.getD (i % k) []).getD (i / k) 0).getD (m * k + j) 0 = _
  rw [getD_map_range _ hlt, Nat.mul_comm m k, Nat.mul_add_mod, Nat.mod_eq_of_lt hj, Nat.mul_add_div hpos, Nat.div_eq_of_lt hj, Nat.add_zero]
end

/-! ## Reductions and running results (R98, R139) -/

section
variable (op : VRedOp) (t : VTy) (o : VOps)

theorem vRedOne_add (p q : Nat) : vRedOne .add t o (p, 0) (q, 0) = vElem .add t o p q 0 := by simp [vRedOne]
theorem vRedOne_max (p q : Nat) : vRedOne .max t o (p, 0) (q, 0) = vElem .max t o p q 0 := by simp [vRedOne, vElem_max]
theorem vRedOne_min (p q : Nat) : vRedOne .min t o (p, 0) (q, 0) = vElem .min t o p q 0 := by simp [vRedOne, vElem_min]
theorem vRedOne_and (p q : Nat) : vRedOne .and t o (p, 0) (q, 0) = (p &&& q, 0) := by simp [vRedOne]
theorem vRedOne_or (p q : Nat) : vRedOne .or t o (p, 0) (q, 0) = (p ||| q, 0) := by simp [vRedOne]
theorem vRedOne_xor (p q : Nat) : vRedOne .xor t o (p, 0) (q, 0) = (p ^^^ q, 0) := by simp [vRedOne]

variable {h : Shape} (hext : h.ext = (5, 1, 1, 1)) (x y z w v : Nat) (b c : List Nat)
include hext

theorem vCompute_red_five :
    let tree := vTree op t o [x, y, z, w, v]
    vCompute (.red op) t o h [[x, y, z, w, v]] b c = ([[tree.1]], tree.2) := by
  have hrow : rowsOf 5 1 [x, y, z, w, v] = [[x, y, z, w, v]] := rfl
  simp only [vCompute, Shape.row_of_ext hext, Shape.rows_of_ext hext, List.headD_cons, hrow, List.map_cons, List.map_nil, withFlags_singleton]

theorem vCompute_scan_five : (vCompute (.scan op) t o h [[x, y, z, w, v]] b c).1 =
    [vRead t o.ftz x :: (vScanRow op t o (vRead t o.ftz x, 0) [y, z, w, v]).map Prod.fst] := by
  have hrow : rowsOf 5 1 [x, y, z, w, v] = [[x, y, z, w, v]] := rfl
  simp only [vCompute, Shape.row_of_ext hext, Shape.rows_of_ext hext, List.headD_cons, hrow, withFlags_fst, List.flatMap_cons, List.flatMap_nil,
    List.append_nil, List.map_cons]
end

/-! ## Packing by a mask (R144) -/

theorem vCompact_cons (x m : Nat) {a b : List Nat} (hlen : a.length = b.length) :
    vCompact (x :: a) (m :: b) = if m = 0 then vCompact a b ++ [0] else x :: vCompact a b := by
  have hle : (((a.zip b).filter fun p => p.2 != 0).map Prod.fst).length ≤ a.length := by
    rw [List.length_map]
    exact (List.length_filter_le ..).trans (by rw [List.length_zip, hlen, Nat.min_self])
  by_cases hm : m = 0
  · rw [if_pos hm]
    rw [vCompact, vCompact, List.zip_cons_cons, List.filter_cons_of_neg (by simp [hm])]
    rw [List.length_cons, Nat.succ_sub hle, List.replicate_succ', List.append_assoc]
  · rw [if_neg hm]
    simp [vCompact, hm]

theorem vExpand_cons (x m : Nat) (a b c : List Nat) :
    vExpand (x :: a) (m :: b) c = if m = 0 then c.headD 0 :: vExpand (x :: a) b c.tail else x :: vExpand a b c.tail := rfl

end Sys2Proof.Machine
end

section
/-! The completion of a vector command (R125, R131, R137 to R146), settled. -/

namespace Sys2Proof.Machine

/-- Settles O36: the completion step by its one next state, the integer and float elements by the equations of vElem and vCompute for their types. -/
theorem vectorCompletion : Obligations.VectorCompletion := by
  refine ⟨?completion, ?integers, ?floats, ?select, ?placed, ?rows, ?packed⟩
  case completion =>
    intro c s cmd k t o h d hcur hrun hv hh hk hs hdst hsome hslot hd ha hb hc op lays one r vs base hr
    have hbase : s.opBase c d = base := State.opBase_of_isSome hsome
    obtain ⟨u, hex, hmem, hcore, honly⟩ := vectorCompletion_next hcur hrun hv hh hk hs hdst hslot hd ha hb hc hr
    refine ⟨u, hex, fun a hout => ?outside, hmem, fun hm m hlt hover => ?inside, ?ready, ?idle, ?sticky, fun n hn => ?others, honly⟩
    case outside =>
      rw [hmem]
      exact State.read_putElems_of_outside hs s c _ d (by rwa [hbase])
    case inside =>
      rw [State.readN, hmem, ← hbase]
      exact State.readN_putElems hs hm c _ d hlt (by rwa [hbase])
    case ready =>
      obtain ⟨n, hn⟩ := Option.isSome_iff_exists.1 hsome
      rw [hcore]
      exact Core.tileSt_vCompleted _ cmd hd ha hb hc (by simp [hdst, opTiles, hn])
    case idle => rw [hcore]; rfl
    case sticky => rw [hcore, Core.strand_setStrand_same]; rfl
    case others =>
      rw [hcore, Core.strand_setStrand_ne _ _ hn, Core.strand, Core.vCompleted_strands _ cmd hd ha hb hc]; rfl
  case integers =>
    intro t o x y z ht hx hy hz w sv lo hi bits gives
    have hsv {v : Nat} (hv : v < 2 ^ w) : vIv t v = sv v := vIv_of_lt hv
    have hlo : intMin t.isS w = lo := intMin_eq ..
    have hhi : intMax t.isS w = hi := intMax_eq ..
    have hgives (e : Int) : gives (intOut o.sat t.isS w e) o.sat e := by
      have h := intOut_cases o.sat t.isS w e
      rwa [hlo, hhi] at h
    have hcmp (cc : VCond) := (vElem_cmp cc t o x y z).trans (congrArg (fun r : Bool × Nat => (if r.1 then 1 else 0, r.2)) (vCmp_int ht x y cc o.ftz))
    rw [hsv hx, hsv hy] at hcmp
    rw [vElem_add_int ht, vElem_sub_int ht, vElem_mul_int ht, vElem_fma_int ht, vElem_abs_int ht, vElem_neg_int ht, vElem_max, vElem_min,
      vMaxMin_int ht, vMaxMin_int ht, hsv hx, hsv hy, hsv hz]
    refine ⟨hgives _, hgives _, hgives _, hgives _, hgives _, hgives _, rfl, rfl, ?eq, ?ne, ?lt, ?le, ?gt, ?ge, ?popc, fun i hi => ?clmul,
      fun h c m hm => ?iota, fun h x1 x2 x3 x4 y1 y2 y3 y4 hext hlt => ?dot, fun d q hd => ?cvt⟩
    case eq => exact (hcmp .eq).trans (by simp only [condInt, decide_eq_true_eq, ← hsv hx, ← hsv hy, vIv_inj hx hy])
    case ne =>
      refine (hcmp .ne).trans ?_
      by_cases h : x = y
      · simp [condInt, h]
      · simp [condInt, h, ← hsv hx, ← hsv hy, vIv_inj hx hy]
    case lt => exact (hcmp .lt).trans (by simp only [condInt, decide_eq_true_eq])
    case le => exact (hcmp .le).trans (by simp only [condInt, decide_eq_true_eq])
    case gt => exact (hcmp .gt).trans (by simp only [condInt, decide_eq_true_eq])
    case ge => exact (hcmp .ge).trans (by simp only [condInt, decide_eq_true_eq])
    case popc => rw [vElem_popc_int ht, popN_eq_countP, List.countP_eq_length_filter]
    case clmul => rw [vElem_clmul_int ht]; exact testBit_vclmul hx hy o.hi hi
    case iota =>
      have hval := getD_vCompute_iota t o h x y c hm
      have hflag := testBit_vCompute_iota t o h x y c
      rw [hsv hx, hsv hy, hlo, hhi] at hval
      rw [hlo, hhi] at hflag
      simp only [hsv hx, hsv hy] at hflag
      exact ⟨hval, hflag⟩
    case dot =>
      intro sum
      obtain ⟨hsum, hacc⟩ := vCompute_dot_five t o hext [x, x1, x2, x3, x4] [y, y1, y2, y3, y4] z
      have hv {v : Nat} (hmem : v ∈ [x1, x2, x3, x4, y1, y2, y3, y4]) : vIv t v = sv v := hsv (hlt v hmem)
      have htree := vDotFive_int ht o (fun m => [x, x1, x2, x3, x4].getD m 0) fun m => [y, y1, y2, y3, y4].getD m 0
      simp only [List.getD_cons_zero, List.getD_cons_succ, hsv hx, hsv hy] at htree
      rw [hv, hv, hv, hv, hv, hv, hv, hv] at htree
      · rw [htree, wrapN_eq] at hsum
        rw [htree, vDotAdd_int_nat ht, wrapN_eq] at hacc
        exact ⟨hsum, hacc⟩
      all_goals simp
    case cvt =>
      intro dlo dhi narrow
      have hout := intOut_eq (q.sat && decide (d.width ≤ w)) d.isS d.width (sv x)
      rw [intMin_eq, intMax_eq] at hout
      rw [vElem_cvt, vCvt_int ht q x hd, hsv hx]
      simpa only [Bool.and_eq_true, decide_eq_true_eq] using hout
  case floats =>
    intro t f o x y z ht a b c nan
    have hcmp (cc : VCond) := vElem_cmp cc t o x y z
    refine ⟨fun n1 m1 e1 n2 m2 e2 ha hb => ?finite, fun hnan => ?nan, fun ha hb hz => ?order, fun hftz hx => ?signs, fun d fd hd hne => ?convert,
      fun hnan => ?nanCmp, fun ha hb => ?cmp, fun h x1 x2 x3 x4 y1 y2 y3 y4 hext => ?dot, fun h l b c hext => ?amax, ?un,
      fun fn => vElem_sfu_float ht ..⟩
    case finite =>
      rw [vElem_mul_float ht, vElem_add_float ht, vElem_sub_float ht, vElem_fma_float ht, show f.input o.ftz x = _ from ha,
        show f.input o.ftz y = _ from hb]
      refine ⟨FFmt.mulR_fin, fun s e hsum hs => FFmt.addV_fin hsum hs, fun s e hsum hs => FFmt.addV_fin hsum hs, fun n3 m3 e3 s e hc hsum hs => ?_⟩
      rw [show f.input o.ftz z = _ from hc, FFmt.fmaR_fin]
      exact FFmt.addV_fin hsum hs
    case nan =>
      intro fl
      have hout : f.nanOut (a.isSig || b.isSig) = nan fl := by
        cases ha : a.isSig <;> cases hb : b.isSig <;> simp [nan, fl, FFmt.nanOut, flNV, ha, hb]
      rw [vElem_mul_float ht, vElem_add_float ht, vElem_sub_float ht, vElem_fma_float ht, ← hout]
      refine ⟨FFmt.addV_of_isNan hnan .., ?_, FFmt.mulR_of_isNan hnan .., FFmt.fmaR_of_isNan hnan ..⟩
      rw [FFmt.addV_of_isNan (by rwa [FV.isNan_negate]), FV.isSig_negate]
    case order =>
      rw [vElem_max, vElem_min, vMaxMin_float ht, vMaxMin_float ht, fMaxMin_of_ordered ha hb hz, fMaxMin_of_ordered ha hb hz]
      exact ⟨rfl, rfl⟩
    case signs =>
      rw [vElem_abs_float ht, vElem_neg_float ht, vElem_cvt, vCvt_self_float ht o x hftz, hftz, vSign_abs, vSign_neg f hx]
      exact ⟨rfl, rfl, rfl⟩
    case convert => rw [vElem_cvt, vCvt_float ht o x hd hne]
    case nanCmp =>
      have hsig : (if a.isSig || b.isSig then flNV else 0) = if a.isSig = true ∨ b.isSig = true then 0x10 else 0 := by
        simp only [Bool.or_eq_true, flNV]
      rw [hcmp, hcmp, vCmp_eq_of_isNan ht _ _ _ hnan, vCmp_ne_of_isNan ht _ _ _ hnan, hsig]
      refine ⟨fun cc hcc => ?_, rfl, rfl⟩
      rw [hcmp, vCmp_order_of_isNan ht _ _ _ hnan hcc]; rfl
    case un =>
      rw [hcmp, vCmp_un_float ht]
      simp only [Bool.or_eq_true, flNV]
      rfl
    case cmp =>
      intro less same
      refine ⟨fun n1 m1 e1 n2 m2 e2 ha hb => ?fin, fun n1 n2 ha hb => ?inf, fun n1 n2 m2 e2 ha hb => ?mixed, fun cc => ?value⟩
      case fin =>
        intro v
        simp only [same, less, ha, hb]
        exact ⟨FV.eq_fin_iff .., FV.lt_fin_iff .., FV.gt_fin_iff ..⟩
      case inf => simp [same, less, ha, hb, FV.eq, FV.lt]
      case mixed => simp [same, less, ha, hb, FV.eq, FV.lt]
      case value =>
        have h := vCmp_of_not_isNan ht o.ftz x y ha hb cc
        refine ⟨(vCmp cc t o.ftz x y).1, (hcmp cc).trans (by rw [h]), ?_⟩
        rw [h]
        cases cc <;> simp [condOrdered, same, less, a, b]
    case dot =>
      have h := vCompute_dot_five t o hext [x, x1, x2, x3, x4] [y, y1, y2, y3, y4] z
      simp only [vDotFive, vDotProd_float ht, vDotAdd_float ht] at h
      exact h
    case amax =>
      intro r v mag mine
      refine ⟨length_vCompute_amax ht o hext b c, testBit_vCompute_amax ht o hext b c,
        fun j hj => ⟨getD_vCompute_amax_of_isNan ht o hext b c hj, fun hnum => ?_⟩⟩
      have hmax := getD_vCompute_amax_of_not_isNan ht o hext b c hj hnum
      simp only [vSign_abs] at hmax
      exact hmax
  case select => exact fun t o x y z => vElem_sel ..
  case placed =>
    intro t o h as_ b c m hm a out
    exact ⟨fun k hk => getD_vCompute_elementwise t o h as_ b c hm hk, getD_vCompute_bcast t o h as_ b c hm, getD_vCompute_perm t o h as_ b c,
      fun k j hj => ⟨getD_vCompute_unzip t o h as_ b c hm hj, getD_vCompute_zip t o h as_ b c hm hj⟩⟩
  case rows =>
    intro op t o h x y z w v b c hext r e tree
    refine ⟨vCompute_red_five op t o hext x y z w v b c, vCompute_scan_five op t o hext x y z w v b c, ?add, ?xor, ?and, ?or, ?max, ?min⟩
    case add => rintro p q rfl; exact vRedOne_add t o p q
    case xor => rintro p q rfl; exact vRedOne_xor t o p q
    case and => rintro p q rfl; exact vRedOne_and t o p q
    case or => rintro p q rfl; exact vRedOne_or t o p q
    case max => rintro p q rfl; exact vRedOne_max t o p q
    case min => rintro p q rfl; exact vRedOne_min t o p q
  case packed => exact fun a b c x m hlen => ⟨vCompact_cons x m hlen, vExpand_cons x m a b c⟩

end Sys2Proof.Machine
end

section
/-! SUPPORT. Issue of an instruction that changes its core and its strand, or that sends a request and waits, and what the count of an instruction
leaves of what capabilities and slice addresses rest on (R21, R172, R188, R283). -/

namespace Sys2Proof.Machine

/-! ## What the count of an instruction leaves -/

section
variable (s : State)

@[simp] theorem State.charge_mq : s.charge.myCore.mq = s.myCore.mq := (congrArg Core.mq s.charge_myCore_rest :)
@[simp] theorem State.charge_shellbase : s.charge.myCore.shellbase = s.myCore.shellbase := (congrArg Core.shellbase s.charge_myCore_rest :)
@[simp] theorem State.charge_capGen : s.charge.myCore.capGen = s.myCore.capGen := (congrArg Core.capGen s.charge_myCore_rest :)
@[simp] theorem State.charge_nextTag : s.charge.myCore.nextTag = s.myCore.nextTag := (congrArg Core.nextTag s.charge_myCore_rest :)
@[simp] theorem State.charge_reqs : s.charge.myCore.reqs = s.myCore.reqs := (congrArg Core.reqs s.charge_myCore_rest :)
@[simp] theorem State.charge_hold : s.charge.me.hold = s.me.hold := by rw [State.charge_me]
@[simp] theorem State.charge_pkg (n : Nat) : s.charge.pkg n = s.pkg n := (onlyStrand_charge s).pkgs n
@[simp] theorem State.charge_illegal (d arg : Nat) : s.charge.illegal d arg = s.illegal d arg := by
  rw [State.illegal, State.charge_fault, State.illegal]
theorem State.charge_time (n : Nat) : s.charge.time n = s.time n := by rw [State.time, State.charge_pkg, State.time]
theorem State.charge_sliceOf (c : CoreId) (a : Word) : s.charge.sliceOf c a = s.sliceOf c a := by
  have hextent : s.charge.extent = s.extent := funext fun _ => by rw [State.extent, State.charge_pkg, State.extent]
  have hin : s.charge.pkgIn = s.pkgIn := funext fun _ => funext fun _ => by rw [State.pkgIn, hextent, State.pkgIn]
  unfold State.sliceOf
  rw [hextent, hin]
theorem State.charge_capTagOf (ctx : Nat) (low : BitVec 48) : s.charge.capTagOf s.cur.core ctx low = s.capTagOf s.cur.core ctx low := by
  have hgen : (s.charge.core s.cur.core).capGen = (s.core s.cur.core).capGen := by
    have h := s.charge_capGen
    rwa [State.myCore, State.charge_cur] at h
  rw [State.capTagOf, hgen, State.capTagOf]
end

theorem State.markFault_detail_lt (s : State) (t : Nat) {d : Nat} (h : d < 256) : (s.markFault t d).detail < 256 := by
  rw [State.markFault]
  split
  · exact Nat.mod_lt _ (by decide)
  · exact h

/-! ## Issue of an instruction that changes its core and its strand -/

section
variable {i : Instr} {g : Guard} {s : State} {body : State → Res} (hg : s.me.guard g = true) (he : exec i s = issueU i g body s)
include hg he

/-- An instruction whose effect is a change of its core, as in completesCore_of_body, and a value in a g register. -/
theorem completesCore_of_body_wg {f : Core → Core} {d : Reg} {v : Word} (hb : body s.charge = .ok ((s.charge.modMyCore f).wg d v))
    (hs : ∀ k, (f k).strands = k.strands) (hr : ∀ k, (f k).rest = f k.rest) : CompletesCore i s (f s.myCore) (s.me.wg d v) := by
  have hcore : OnlyCoreOf s.cur s.charge (s.charge.modMyCore f) := by
    rw [State.modMyCore_eq, State.charge_cur]; exact onlyCoreOf_modCore s.charge s.cur f hs
  have hone : ((s.charge.modMyCore f).wg d v).advance =
      (s.charge.modMyCore f).modMe fun t => (t.wg d v).goesOn (nextPc t.pc) false := by
    rw [State.advance, State.wg, State.modMe_modMe]
    simp only [Strand.goesOn, Strand.wg_pc]
  have hmod := onlyStrand_modMe (s.charge.modMyCore f) fun t => (t.wg d v).goesOn (nextPc t.pc) false
  rw [State.modMyCore_cur, State.charge_cur] at hmod
  refine ⟨_, he.trans (issueU_of_guard hg), ?_⟩
  rw [hb]
  show OnlyCoreOf s.cur s ((s.charge.modMyCore f).wg d v).advance ∧ _ ∧ ((s.charge.modMyCore f).wg d v).advance.me = _
  rw [finish, hone]
  refine ⟨(onlyStrand_charge s).coreOf.trans (hcore.trans hmod.coreOf), ?_, ?_⟩
  · calc ((s.charge.modMyCore f).modMe fun t => (t.wg d v).goesOn (nextPc t.pc) false).myCore.rest
        = ((s.charge.modMyCore f).core s.cur.core).rest := by
          rw [State.myCore, hmod.cur, State.modMyCore_cur, State.charge_cur]; exact hmod.rest
      _ = (f s.charge.myCore).rest := by rw [State.modMyCore_eq, State.charge_cur, State.core_modCore_same, State.myCore, State.charge_cur]
      _ = (f s.myCore).rest := by rw [hr, hr, State.charge_myCore_rest]
  · rw [State.me_modMe, State.me_modMyCore _ hs, State.charge_me, Strand.wg_withLeft]

end

/-! ## Issue of an instruction that sends a request (R283) -/

theorem SMap.has_set_same {α : Type} (m : SMap α) (k : Nat) (v : α) : (m.set k v).has k = true := by
  induction m with
  | nil => simp [SMap.set, SMap.has]
  | cons p r ih =>
    unfold SMap.set
    split_ifs <;> simp [SMap.has, ih]

/-- A core that has entered a request under its next tag. -/
def Core.entered (k : Core) (r : Req) : Core :=
  { k with nextTag := tagAfter (k.reqs.set k.nextTag r) k.nextTag, reqs := k.reqs.set k.nextTag r, reqNo := k.reqNo + 1 }

/-- A strand whose instruction waits for the answer to a request. -/
def Strand.asking (x : Strand) (i : Instr) (tag : Nat) : Strand :=
  { x with hold := .wait tag, mode := .waiting, issued := some i, stalled := false, checkT := false, atYield := false }

/-- Asking is a change of the core, a packet on its way and a strand that waits. -/
theorem finish_ask (i : Instr) (s u : State) (yp : Bool) (dst : CoreId) (line : Nat) (mk : Nat → Instr) :
    ∃ r, finish i s yp (u.ask dst line mk) =
      ((u.modMyCore fun k => k.entered r).send u.cur.core dst (mk u.myCore.nextTag)).modMe fun t => t.asking i u.myCore.nextTag :=
  ⟨_, State.modMe_modMe ..⟩

theorem State.send_sent (s : State) (src dst : CoreId) (i : Instr) : Sent i (s.send src dst i) :=
  ⟨_, List.mem_append_right _ (List.mem_singleton_self _), rfl⟩

/-- A request entered at the executing core under its next tag and sent: its strand waits for the answer. -/
theorem asks_of_body {i : Instr} {g : Guard} {s : State} {body : State → Res} {dst : CoreId} {line : Nat} {mk : Nat → Instr}
    (hg : s.me.guard g = true) (he : exec i s = issueU i g body s) (hb : body s.charge = s.charge.ask dst line mk) : Asks i s mk := by
  obtain ⟨r, hask⟩ := finish_ask i s s.charge false dst line mk
  rw [State.charge_nextTag] at hask
  have hsent := State.send_sent (s.charge.modMyCore fun k => k.entered r) s.charge.cur.core dst (mk s.myCore.nextTag)
  have hme : ((s.charge.modMyCore fun k => k.entered r).send s.charge.cur.core dst (mk s.myCore.nextTag)).me = { s.me with left := s.leftIssued } :=
    (State.me_modMyCore s.charge (f := fun k => k.entered r) fun _ => rfl).trans s.charge_me
  have hcore : ((s.charge.modMyCore fun k => k.entered r).send s.charge.cur.core dst (mk s.myCore.nextTag)).myCore = s.charge.myCore.entered r :=
    State.core_modCore_same s.charge s.charge.cur.core fun k => k.entered r
  generalize (s.charge.modMyCore fun k => k.entered r).send s.charge.cur.core dst (mk s.myCore.nextTag) = u at hask hsent hme hcore
  have hwaits : (u.modMe fun t => t.asking i s.myCore.nextTag).me = { s.me with left := s.leftIssued }.asking i s.myCore.nextTag := by
    rw [State.me_modMe, hme]
  have hrest : (u.modMe fun t => t.asking i s.myCore.nextTag).myCore.rest = (s.charge.myCore.entered r).rest :=
    (onlyStrand_modMe u _).rest.trans (congrArg Core.rest hcore)
  have hreqs : (u.modMe fun t => t.asking i s.myCore.nextTag).myCore.reqs = s.myCore.reqs.set s.myCore.nextTag r :=
    (congrArg Core.reqs hrest).trans (show s.charge.myCore.reqs.set s.charge.myCore.nextTag r = _ by rw [State.charge_reqs, State.charge_nextTag])
  have hnext : (u.modMe fun t => t.asking i s.myCore.nextTag).myCore.nextTag = tagAfter (s.myCore.reqs.set s.myCore.nextTag r) s.myCore.nextTag :=
    (congrArg Core.nextTag hrest).trans
      (show tagAfter (s.charge.myCore.reqs.set s.charge.myCore.nextTag r) s.charge.myCore.nextTag = _ by rw [State.charge_reqs, State.charge_nextTag])
  refine ⟨_, he.trans (issueU_of_guard hg), ?_⟩
  rw [hb, hask]
  beta_reduce
  rw [hwaits, hreqs]
  exact ⟨rfl, rfl, rfl, rfl, rfl, rfl, rfl, hnext, SMap.has_set_same .., hsent⟩

end Sys2Proof.Machine
end

section
/-! Issue of the tensor instructions (R154 to R158, R173 to R175), settled. -/

namespace Sys2Proof.Machine

/-! ## Issue of a tensor command -/

theorem exec_eq_execTen {i : Instr} {g : Guard} {k : TKind} {o : TOps} (s : State) (ht : tenOf i = some (k, o)) (hg : guardOf i = some g) :
    exec i s = execTen i g s := by
  cases i
  case tzero | tmma | tacc | tread | treadBlk | tquant | tdequant | tplane | tunplane | tcbdec | thad | ttopk => cases hg; rfl
  all_goals cases ht

/-- The body that execTen issues. -/
theorem execTen_eq {i : Instr} {k : TKind} {o : TOps} (g : Guard) (s : State) (ht : tenOf i = some (k, o)) :
    execTen i g s = issueU i g (fun u => u.tIssue i k o) s := by
  rw [execTen, ht]

/-- A plan fails with a code of R157, or it resolves the operands and is ready where the operand conditions hold. -/
theorem State.tPlan_cases (s : State) (c : CoreId) (k : TKind) (o : TOps) (va vb vc : Word) :
    (∃ e mark, s.tPlan c k o va vb vc = .bad e mark ∧ e < 256)
      ∨ ∃ ws d a b cc, s.tPlan c k o va vb vc = .ok ((s.core c).tensorReady k o) ws d a b cc := by
  unfold State.tPlan
  dsimp only
  split
  · split_ifs
    · exact .inl ⟨_, _, rfl, by decide⟩
    · exact .inl ⟨_, _, rfl, by decide⟩
    · split
      · exact .inl ⟨_, _, rfl, by decide⟩
      · exact .inl ⟨_, _, rfl, by decide⟩
    · split
      · exact .inl ⟨_, _, rfl, by decide⟩
      · exact .inr ⟨_, _, _, _, _, rfl⟩
  · exact .inl ⟨_, _, rfl, by decide⟩

theorem State.tPlan_bad_detail {s : State} {c : CoreId} {k : TKind} {o : TOps} {va vb vc : Word} {d : Nat} {mark : Option Nat}
    (h : s.tPlan c k o va vb vc = .bad d mark) : d < 256 := by
  rcases s.tPlan_cases c k o va vb vc with ⟨e, m, hbad, hlt⟩ | ⟨ws, d', a, b, cc, hok⟩
  · cases h.symm.trans hbad; exact hlt
  · cases h.symm.trans hok
/-- A command that is ready to issue meets the operand conditions of R154. -/
theorem State.tensorReady_of_tPlan_ok {s : State} {c : CoreId} {k : TKind} {o : TOps} {va vb vc : Word} {ready : Bool} {ws : List (List Word)}
    {d a b cc : List Opnd} (h : s.tPlan c k o va vb vc = .ok ready ws d a b cc) : (s.core c).tensorReady k o = ready := by
  rcases s.tPlan_cases c k o va vb vc with ⟨e, m, hbad, -⟩ | ⟨ws', d', a', b', cc', hok⟩
  · cases h.symm.trans hbad
  · cases h.symm.trans hok; rfl

/-- The fault of a plan that fails: that of the marked tile, or the code of the check. -/
def State.tFault (s : State) (d : Nat) (mark : Option Nat) : Report := match mark with | some t => s.markFault t 0x53 | none => s.fault d

theorem State.tFault_detail_lt (s : State) {d : Nat} (mark : Option Nat) (h : d < 256) : (s.tFault d mark).detail < 256 := by
  cases mark with
  | none => exact h
  | some t => exact s.markFault_detail_lt t (by decide)

/-- The command that a tensor instruction enters into the queue. -/
def State.tCmd (s : State) (i : Instr) (o : TOps) (ws : List (List Word)) (d a b c : List Opnd) : Cmd :=
  ⟨i, s.cur.slot, s.cur.gid, s.ctx, s.me.pc, d, [a, b, c], [s.scalarOf o.a, s.scalarOf o.b, s.scalarOf o.c, s.myCore.shellbase], ws, none, 0, none,
    false⟩

/-- The core once a tensor command has entered the queue: its operands are taken. -/
def Core.tTaken (c : Core) (p : POp) (d srcs : List Opnd) (cmd : Cmd) : Core := { c.take p d srcs with mq := c.mq ++ [cmd] }

theorem Core.tTaken_strands (c : Core) (p : POp) (d srcs : List Opnd) (cmd : Cmd) : (c.tTaken p d srcs cmd).strands = c.strands :=
  Core.take_strands ..
theorem Core.tTaken_rest (c : Core) (p : POp) (d srcs : List Opnd) (cmd : Cmd) : (c.tTaken p d srcs cmd).rest = c.rest.tTaken p d srcs cmd := by
  rw [Core.tTaken, Core.tTaken, ← Core.take_rest]; rfl

theorem State.charge_tCmd (s : State) (i : Instr) (o : TOps) (ws : List (List Word)) (d a b c : List Opnd) :
    s.charge.tCmd i o ws d a b c = s.tCmd i o ws d a b c := by
  simp only [State.tCmd, State.charge_cur, State.charge_ctx, State.charge_me_pc, State.charge_scalarOf, State.charge_shellbase]

section
variable {s : State} {i : Instr} {k : TKind} {o : TOps}

theorem State.tIssue_of_full (hfull : 2 ≤ s.myCore.mq.length) : s.tIssue i k o = .stall := if_pos hfull

variable (hroom : s.myCore.mq.length < 2)
include hroom

theorem State.tIssue_of_bad {d : Nat} {mark : Option Nat}
    (hp : s.tPlan s.cur.core k o (s.scalarOf o.a) (s.scalarOf o.b) (s.scalarOf o.c) = .bad d mark) :
    s.tIssue i k o = .fault s (s.tFault d mark) := by
  simp only [State.tIssue, if_neg (Nat.not_le.2 hroom), hp]; rfl

theorem State.tIssue_of_wait {ws : List (List Word)} {d a b c : List Opnd}
    (hp : s.tPlan s.cur.core k o (s.scalarOf o.a) (s.scalarOf o.b) (s.scalarOf o.c) = .ok false ws d a b c) : s.tIssue i k o = .stall := by
  simp only [State.tIssue, if_neg (Nat.not_le.2 hroom), hp]

theorem State.tIssue_of_ready {ws : List (List Word)} {d a b c : List Opnd}
    (hp : s.tPlan s.cur.core k o (s.scalarOf o.a) (s.scalarOf o.b) (s.scalarOf o.c) = .ok true ws d a b c) :
    s.tIssue i k o = .ok (s.modMyCore fun x => x.tTaken ⟨o.dst, o.advd, 1⟩ d (a ++ b ++ c) (s.tCmd i o ws d a b c)) := by
  simp only [State.tIssue, if_neg (Nat.not_le.2 hroom), hp]; rfl
end

/-! ## tcap (R173) -/

/-- The low 48 bits of a capability that tcap makes: tiles, rights and expiry. -/
def State.capLow (s : State) (first last : TReg) (rights : BitVec 3) (life : Imm48) : BitVec 48 :=
  first ++ last ++ rights ++ BitVec.ofNat 33 (s.time s.cur.core.pkg + life.toNat)
/-- The capability: its tag over its low bits. -/
def State.newCap (s : State) (low : BitVec 48) : Word := s.capTagOf s.cur.core s.ctx low ++ low
/-- A core that has minted a capability for a context. -/
def Core.mints (k : Core) (ctx : Nat) (cap : Word) : Core :=
  { k with minted := (k.capGen, ctx, cap) :: k.minted.filter fun m => m != (k.capGen, ctx, cap) }
/-- What tcap comes to. -/
def State.tcapRes (d : Reg) (first last : TReg) (rights : BitVec 3) (life : Imm48) (s : State) : Res :=
  .ok ((s.modMyCore fun k => k.mints s.ctx (s.newCap (s.capLow first last rights life))).wg d (s.newCap (s.capLow first last rights life)))

theorem exec_tcap (g : Guard) (d : Reg) (first last : TReg) (rights : BitVec 3) (life : Imm48) (s : State) :
    exec (.tcap g d first last rights life) s = issueU (.tcap g d first last rights life) g (State.tcapRes d first last rights life) s := by
  show execTcap g d first last rights life s = _
  unfold execTcap State.tcapRes State.newCap State.capLow Core.mints
  simp only [BitVec.setWidth_eq]

theorem State.charge_capLow (s : State) (first last : TReg) (rights : BitVec 3) (life : Imm48) :
    s.charge.capLow first last rights life = s.capLow first last rights life := by
  rw [State.capLow, State.charge_time, State.charge_cur, State.capLow]
theorem State.charge_newCap (s : State) (low : BitVec 48) : s.charge.newCap low = s.newCap low := by
  rw [State.newCap, State.charge_cur, State.charge_ctx, State.charge_capTagOf, State.newCap]

/-! ## tmx (R174, R175) -/

/-- What tmx comes to. -/
def State.tmxRes (a cap : Reg) (cmd : TmxCmd) (s : State) : Res :=
  match s.me.hold with
  | .got r => match r.status with
    | .ack => .ok s
    | .nack => .fault s { s.fault 0x55 with inner := r.inner }
    | _ => .fault s { s.fault 0x55 with inner := 7 }
  | .wait _ => .hold s
  | _ =>
    if !(s.rg a).getLsbD 63 then .fault s (s.illegal 5 74)
    else match s.sliceOf s.cur.core (s.rg a) with
      | some (t, _) => s.ask t 0 fun tag => .tmxArrival ⟨⟨t, s.cur.core, s.cur.slot, tag, s.ctx, {}⟩, BitVec.ofNat 32 s.cur.gid, s.rg cap, cmd⟩
      | none => .fault s { s.fault 0x55 with inner := 1 }

theorem exec_tmx (g : Guard) (a cap : Reg) (cmd : TmxCmd) (s : State) :
    exec (.tmx g a cap cmd) s = issueU (.tmx g a cap cmd) g (State.tmxRes a cap cmd) s := rfl

/-- Settles O37: the queue and then the plan decide a command's issue; tcap is one change of its core and its strand; tmx asks or takes its answer. -/
theorem tensorIssue : Obligations.TensorIssue := by
  intro i g k o d a cap first last rights life cmd r x off s hg u c
  refine ⟨fun ht hgi => ?command, ?tcap, fun hold => ⟨fun hform => ?illegal, fun hform hslice => ?asks⟩, fun hgot => ⟨fun hack => ?ack, fun hnack => ?nack⟩⟩
  case command =>
    intro plan
    have he : exec i s = issueU i g (fun u => u.tIssue i k o) s := (exec_eq_execTen s ht hgi).trans (execTen_eq g s ht)
    have hplan : s.charge.tPlan s.charge.cur.core k o (s.charge.scalarOf o.a) (s.charge.scalarOf o.b) (s.charge.scalarOf o.c) = plan := by
      simp only [State.charge_scalarOf, State.charge_cur]; rfl
    refine ⟨fun hfull => stalls_of_body hg he (State.tIssue_of_full (by rwa [State.charge_mq])), fun hroom => ?_⟩
    have hroom' : s.charge.myCore.mq.length < 2 := by rwa [State.charge_mq]
    refine ⟨fun e mark hbad => ?bad, fun ws d a b cc hwait => ?wait, fun ws d a b cc hready => ?ready⟩
    case bad =>
      have h := raises_of_fault hg he (State.tIssue_of_bad hroom' (hplan.trans hbad)) (State.tFault_detail_lt _ mark (State.tPlan_bad_detail hbad))
      rw [h]
      cases mark with
      | none => rw [State.tFault, State.charge_fault]
      | some t => rfl
    case wait => exact stalls_of_body hg he (State.tIssue_of_wait hroom' (hplan.trans hwait))
    case ready =>
      have h := completesCore_of_body hg he (State.tIssue_of_ready hroom' (hplan.trans hready)) (fun _ => Core.tTaken_strands ..)
        (fun _ => Core.tTaken_rest ..)
      rwa [State.charge_tCmd] at h
  case tcap =>
    intro low new_
    have hb : State.tcapRes d first last rights life s.charge = .ok ((s.charge.modMyCore fun k => k.mints s.ctx new_).wg d new_) := by
      rw [State.tcapRes, State.charge_capLow, State.charge_newCap, State.charge_ctx]; rfl
    exact completesCore_of_body_wg hg (exec_tcap ..) hb (fun _ => rfl) (fun _ => rfl)
  case illegal =>
    refine raises_of_fault hg (exec_tmx ..) (t := s.charge) (r := s.illegal 5 74) ?_ (by decide : 5 < 256)
    simp only [State.tmxRes, State.charge_hold, hold, State.charge_rg, hform, State.charge_illegal]
    rfl
  case asks =>
    refine asks_of_body hg (exec_tmx ..) (dst := x) (line := 0) ?_
    simp only [State.tmxRes, State.charge_hold, hold, State.charge_rg, hform, State.charge_sliceOf, State.charge_cur, hslice, State.charge_ctx]
    rfl
  all_goals have hgot' : s.charge.me.hold = .got r := by rw [State.charge_hold, hgot]
  case ack =>
    have hb : State.tmxRes a cap cmd s.charge = .ok s.charge := by simp only [State.tmxRes, hgot', hack]
    exact completes_unchanged hg (by rw [exec_tmx, issueU_of_guard hg, issueU_of_guard hg, hb])
  case nack =>
    refine raises_of_fault hg (exec_tmx ..) (t := s.charge) ?_ (by decide : 0x55 < 256)
    simp only [State.tmxRes, hgot', hnack, State.charge_fault]

end Sys2Proof.Machine
end

section
/-! SUPPORT. The steps of the matrix engine: start and completion of a command, the checks of a remote command at its target and its entry into
the queue (R153, R154, R156, R175, R176). -/

namespace Sys2Proof.Machine

/-! ## Bytes written in turn -/

/-- The writes of a command made in turn. -/
def State.putTW (s : State) (c : CoreId) (ws : List TW) : State := ws.foldl (fun v w => v.swrite c w.1 w.2.1 w.2.2) s

theorem State.core_putTW (s : State) (c d : CoreId) (ws : List TW) : (s.putTW c ws).core d = s.core d :=
  foldl_keeps (State.core · d) (fun (u : State) (w : TW) => (rfl : (u.swrite c w.1 w.2.1 w.2.2).core d = u.core d)) ..

theorem State.read_putTW_of_outside (s : State) {c : CoreId} {ws : List TW} {a : Nat}
    (h : ∀ w, w ∈ ws → a < sliceKey c w.1 ∨ sliceKey c w.1 + w.2.1 ≤ a) : (s.putTW c ws).mem.read a = s.mem.read a := by
  induction ws generalizing s with
  | nil => rfl
  | cons w ws ih =>
    exact (ih (s.swrite c w.1 w.2.1 w.2.2) fun v hv => h v (List.mem_cons_of_mem _ hv)).trans
      (s.read_writeN_of_outside w.2.2 (h w (List.mem_cons_self ..)))

/-! ## Start and completion (R153, R154, R156) -/

theorem exec_matrixCommandStart {s : State} {c : CoreId} {cmd : Cmd} {rest : List Cmd} (hq : (s.core c).mq = cmd :: rest)
    (hcur : (s.core c).mcur = none) (hrun : (s.core c).mcheck = none) :
    exec (.matrixCommandStart c) s = .next (s.modCore c fun k => { k with mcur := some cmd, mq := rest }) := by
  show execMatrixCommandStart c s = _
  simp [execMatrixCommandStart, hq, hcur, hrun]

/-- The view of an operand's tile in a command under its record. -/
def State.cmdView (s : State) (c : CoreId) (cmd : Cmd) (l : List Opnd) (n : Nat) : TV :=
  (s.opView c l (cmd.shapes.getD n [])).getD ⟨0, 0, 0, 0, 0, 0⟩

/-- What a tensor command computes from its operands as they stand. -/
def State.tResult (s : State) (c : CoreId) (cmd : Cmd) (k : TKind) : State × Except (Nat × Word) (List TW × Nat) :=
  s.tCompute c k (s.cmdView c cmd cmd.dst 0) (s.cmdView c cmd (cmd.srcs.getD 0 []) 1) (s.cmdView c cmd (cmd.srcs.getD 1 []) 2)
    (!(cmd.srcs.getD 0 []).isEmpty) (!(cmd.srcs.getD 1 []).isEmpty) cmd.scal cmd.ctx

/-- A core whose tensor command completes. -/
def Core.tCompleted (x : Core) (o : TOps) (cmd : Cmd) : Core :=
  { x.complete ⟨o.dst, o.advd, 1⟩ [⟨o.a, o.adva, 1⟩, ⟨o.b, o.advb, 1⟩, ⟨o.c, o.advc, 1⟩] cmd.dst
      (cmd.srcs.getD 0 [] ++ cmd.srcs.getD 1 [] ++ cmd.srcs.getD 2 []) with mcur := none }

theorem exec_matrixCommandCompletion {s u : State} {c : CoreId} {cmd : Cmd} {k : TKind} {o : TOps} {ws : List TW} {fl : Nat}
    (hcur : (s.core c).mcur = some cmd) (hrun : (s.core c).mcheck = none) (ht : tenOf cmd.instr = some (k, o))
    (hr : s.tResult c cmd k = (u, .ok (ws, fl))) :
    exec (.matrixCommandCompletion c) s = .next (((u.putTW c ws).modCore c fun x => x.tCompleted o cmd).cmdFlags c cmd.slot fl) := by
  unfold State.tResult State.cmdView at hr
  show execMatrixCommandCompletion c s = _
  simp only [execMatrixCommandCompletion, hcur, hrun, ht, hr]
  rfl

section
variable (x : Core) {o : TOps} (cmd : Cmd) (hd : o.advd = false) (ha : o.adva = false) (hb : o.advb = false) (hc : o.advc = false)
include hd ha hb hc

/-- Without ADV bits completion gives the readers back and makes the destinations READY. -/
theorem Core.tCompleted_eq : x.tCompleted o cmd = { (opTiles cmd.dst).foldl (fun c t => c.tileTo t tReady)
    (x.untake cmd.dst (cmd.srcs.getD 0 [] ++ cmd.srcs.getD 1 [] ++ cmd.srcs.getD 2 [])) with mcur := none } := by
  rw [Core.tCompleted, Core.complete_of_not_adv x hd (by simp [ha, hb, hc])]

theorem Core.tCompleted_strands : (x.tCompleted o cmd).strands = x.strands := by
  have h : ((opTiles cmd.dst).foldl (fun c t => c.tileTo t tReady)
      (x.untake cmd.dst (cmd.srcs.getD 0 [] ++ cmd.srcs.getD 1 [] ++ cmd.srcs.getD 2 []))).beside = x.beside :=
    (foldl_keeps Core.beside (fun c t => c.tileTo_beside t tReady) ..).trans (x.untake_beside ..)
  rw [Core.tCompleted_eq x cmd hd ha hb hc]
  exact (congrArg Core.strands h :)

theorem Core.tileSt_tCompleted {n : Nat} (hn : n ∈ opTiles cmd.dst) : tileSt ((x.tCompleted o cmd).tile n) = tReady := by
  rw [Core.tCompleted_eq x cmd hd ha hb hc]
  exact Core.tileSt_foldl_tileTo (by decide) hn _
end

/-- A core changed, and then flags of one of its strands. -/
theorem State.core_modCore_flagOf (s : State) (c : CoreId) (f : Core → Core) (slot fl : Nat) :
    ((s.modCore c f).flagOf ⟨c, slot⟩ fl).core c = (f (s.core c)).setStrand slot
      { (f (s.core c)).strand slot with sticky := ((f (s.core c)).strand slot).sticky ||| BitVec.ofNat 64 fl } := by
  have h := State.core_modStrand_same (s.modCore c f) ⟨c, slot⟩ fun x => { x with sticky := x.sticky ||| BitVec.ofNat 64 fl }
  rwa [State.strand, State.core_modCore_same] at h

/-- The completion of a command without ADV bits: what stands in memory, in its tiles and in its strand. -/
theorem answers_matrixCommandCompletion {s u : State} {c : CoreId} {cmd : Cmd} {k : TKind} {o : TOps} {ws : List TW} {fl : Nat}
    (hcur : (s.core c).mcur = some cmd) (hrun : (s.core c).mcheck = none) (ht : tenOf cmd.instr = some (k, o)) (hslot : cmd.slot < 8)
    (hd : o.advd = false) (ha : o.adva = false) (hb : o.advb = false) (hc : o.advc = false) (hr : s.tResult c cmd k = (u, .ok (ws, fl))) :
    Answers (.matrixCommandCompletion c) s fun t => (t.core c).mcur = none ∧ t.mem = (u.putTW c ws).mem
      ∧ (∀ a, (∀ w, w ∈ ws → a < sliceKey c w.1 ∨ sliceKey c w.1 + w.2.1 ≤ a) → t.mem.read a = u.mem.read a)
      ∧ (∀ x, x ∈ opTiles cmd.dst → tileSt ((t.core c).tile x) = 2)
      ∧ ((t.core c).strand cmd.slot).sticky = ((u.core c).strand cmd.slot).sticky ||| BitVec.ofNat 64 fl := by
  have hcore := State.core_modCore_flagOf (u.putTW c ws) c (fun x => x.tCompleted o cmd) cmd.slot fl
  rw [State.core_putTW] at hcore
  refine ⟨_, exec_matrixCommandCompletion hcur hrun ht hr, ?_⟩
  rw [State.cmdFlags_of_lt hslot]
  beta_reduce
  rw [hcore, Core.strand_setStrand_same]
  refine ⟨rfl, rfl, fun a hout => State.read_putTW_of_outside u hout, fun x hx => Core.tileSt_tCompleted _ cmd hd ha hb hc hx, ?_⟩
  have hstrand : ((u.core c).tCompleted o cmd).strand cmd.slot = (u.core c).strand cmd.slot := by
    rw [Core.strand, Core.tCompleted_strands _ cmd hd ha hb hc]; rfl
  rw [hstrand]

/-! ## A remote command at its target (R175) -/

/-- An answer is a packet on its way and changes nothing else. -/
theorem answers_reply {i : Instr} {s : State} {h : Hdr} {st : ReplyStatus} {inner : Nat} (he : exec i s = .next (s.answer h st 0 inner [])) :
    Answers i s fun t => Sent (.reply { src := h.target, dst := h.src, rtag := h.rtag, status := st, inner := inner }) t ∧ t.cores = s.cores
      ∧ SameMem s t :=
  ⟨_, he, State.send_sent .., rfl, fun _ => rfl, rfl⟩

/-- The checks of R175 that follow those of the core, in their order. -/
def State.tmxChecks (s : State) (m : TmxMsg) : Out :=
  if (s.core m.hdr.target).ctx ≠ m.hdr.ctx then .next (s.answer m.hdr .nack 0 2 [])
  else if !s.capGood m.hdr.target m.hdr.ctx m.cap then .next (s.answer m.hdr .nack 0 3 [])
  else if !capLive m.cap (s.time m.hdr.target.pkg) then .next (s.answer m.hdr .nack 0 4 [])
  else if (tmxTiles m.cmd).any fun t => decide (t.toNat < bitsN m.cap.toNat 47 42) || decide (bitsN m.cap.toNat 41 36 < t.toNat) then
    .next (s.answer m.hdr .nack 0 5 [])
  else if !m.cap.getLsbD (tmxRight m.cmd) then .next (s.answer m.hdr .nack 0 6 [])
  else if 4 ≤ (s.core m.hdr.target).remote.length then .next (s.answer m.hdr .retry 0 0 [])
  else .next ((s.modCore m.hdr.target fun k => { k with remote := k.remote ++ [m] }).answer m.hdr .ack 0 0 [])

section
variable {m : TmxMsg} {s : State} (hodd : m.hdr.odd = {}) (hopen : s.fencedHdr m.hdr = false)

theorem exec_tmxArrival_of_retired (hret : (s.core m.hdr.target).retired = true) :
    exec (.tmxArrival m) s = .next (s.answer m.hdr .nack 0 1 []) := by
  show execTmxArrival m s = _
  simp [execTmxArrival, hret]

theorem exec_tmxArrival_of_mcheck (hret : (s.core m.hdr.target).retired = false) (hm : (s.core m.hdr.target).mcheck ≠ none) :
    exec (.tmxArrival m) s = .next (s.answer m.hdr .retry 0 0 []) := by
  show execTmxArrival m s = _
  have hdead : (s.core m.hdr.target).dead = true := Option.isSome_iff_ne_none.2 hm
  simp [execTmxArrival, hret, State.receive, hdead]

include hodd hopen
theorem exec_tmxArrival_of_runs (hret : (s.core m.hdr.target).retired = false) (hm : (s.core m.hdr.target).mcheck = none) :
    exec (.tmxArrival m) s = s.tmxChecks m := by
  show execTmxArrival m s = _
  have hdead : (s.core m.hdr.target).dead = false := by rw [Core.dead, hm]; rfl
  have hmade : oddCause m.hdr.odd = none := by rw [hodd]; rfl
  unfold execTmxArrival State.receive State.wellMade State.tmxChecks
  simp only [hret, hdead, hmade, hopen, Bool.false_eq_true, if_false]
end

/-- The tag check of R175 (log 8). -/
theorem State.capGood_iff (s : State) (c : CoreId) (ctx : Nat) (cap : Word) : s.capGood c ctx cap = true ↔
    s.capTagOf c ctx (cap.extractLsb' 0 48) = cap.extractLsb' 48 16 ∧ (s.core c).capOld ctx cap = false := by
  simp [State.capGood]

/-- The tile check of R175. -/
theorem tmxTiles_within_iff (l : List TReg) (cap : Word) :
    (l.any fun t => decide (t.toNat < bitsN cap.toNat 47 42) || decide (bitsN cap.toNat 41 36 < t.toNat)) = false ↔
      ∀ x, x ∈ l → (cap.extractLsb' 42 6).toNat ≤ x.toNat ∧ x.toNat ≤ (cap.extractLsb' 36 6).toNat := by
  rw [bitsN_toNat cap (w := 6) rfl, bitsN_toNat cap (w := 6) rfl, List.any_eq_false]
  simp only [Bool.or_eq_true, decide_eq_true_eq, not_or, Nat.not_lt]

/-! ## Entry of a remote command (R176) -/

/-- The command that the head of the remote buffer enters into the queue. -/
def remoteCmd (m : TmxMsg) (ws : List (List Word)) (d a b c : List Opnd) : Cmd :=
  ⟨tmxInstr m.cmd, noSlot, m.gid.toNat, m.hdr.ctx, m.gid.setWidth 64, d, [a, b, c], [0, 0, 0, 0], ws, none, 0, some m.gid.toNat, false⟩

section
variable {s : State} {c : CoreId} {q : TmxMsg} {rest : List TmxMsg} {kind : TKind} {o : TOps} (hq : (s.core c).remote = q :: rest)
  (hroom : (s.core c).mq.length < 2) (hrun : (s.core c).mcheck = none) (ht : tenOf (tmxInstr q.cmd) = some (kind, o))
include hq hroom hrun ht

theorem exec_remoteCommandEntry_of_ready {ws : List (List Word)} {d a b cc : List Opnd} (hp : s.tPlan c kind o 0 0 0 = .ok true ws d a b cc) :
    exec (.remoteCommandEntry c) s = .next (s.modCore c fun k =>
      { k.take ⟨o.dst, false, 1⟩ d (a ++ b ++ cc) with remote := rest, mq := k.mq ++ [remoteCmd q ws d a b cc] }) := by
  have hready := State.tensorReady_of_tPlan_ok hp
  show execRemoteCommandEntry c s = _
  have hopen : ¬ (2 ≤ (s.core c).mq.length ∨ (s.core c).mcheck.isSome = true) := by simp [Nat.not_le.2 hroom, hrun]
  simp only [execRemoteCommandEntry, hq, if_neg hopen, ht, hready, hp, Bool.not_true, Bool.false_eq_true, if_false]
  rfl

theorem exec_remoteCommandEntry_of_bad {e : Nat} {mark : Option Nat} {x : TReg} {l : List TReg} (hp : s.tPlan c kind o 0 0 0 = .bad e mark)
    (hready : (s.core c).tensorReady kind o = true) (hx : tmxTiles q.cmd = x :: l) :
    exec (.remoteCommandEntry c) s = .next (s.modCore c fun k =>
      { k.markTile x.toNat tEmpty ⟨4, e, 0, 0, q.gid.setWidth 64, 0⟩ with remote := rest }) := by
  show execRemoteCommandEntry c s = _
  have hopen : ¬ (2 ≤ (s.core c).mq.length ∨ (s.core c).mcheck.isSome = true) := by simp [Nat.not_le.2 hroom, hrun]
  simp only [execRemoteCommandEntry, hq, if_neg hopen, ht, hready, hp, hx, Bool.not_true, Bool.false_eq_true, if_false]
end

theorem tileMark_tileWith (w : Word) {st : Nat} (h : st < 4) (mark : Bool) : tileMark (tileWith w st mark) = mark := by
  rw [tileMark, tileWith, BitVec.getLsbD_or, BitVec.getLsbD_and, show (0x1FFFFFFFFFFFFFFF#64).getLsbD 61 = false by decide, Bool.and_false,
    Bool.false_or]
  interval_cases st <;> cases mark <;> rfl

theorem Core.tile_markTile (k : Core) (t st : Nat) (d : Deferred) : (k.markTile t st d).tile t = tileWith (k.tile t) st true :=
  SMap.get_set_same ..

end Sys2Proof.Machine
end

section
/-! SUPPORT. Lists put together of blocks, flags gathered over them, and numbers put together of bits. -/

namespace Sys2Proof.Machine

/-! ## Flags gathered over a list -/

/-- A bit of an accumulated number that each step may raise. -/
theorem testBit_foldl_of_step {β : Type} {f : Nat → β → Nat} {p : β → Bool} {x : Nat}
    (h : ∀ a b, (f a b).testBit x = (a.testBit x || p b)) (l : List β) (a : Nat) : (l.foldl f a).testBit x = (a.testBit x || l.any p) := by
  induction l generalizing a with
  | nil => simp
  | cons b l ih => rw [List.foldl_cons, ih, h, List.any_cons, Bool.or_assoc]

theorem testBit_foldl_or {β : Type} (g : β → Nat) (l : List β) (a x : Nat) :
    (l.foldl (fun f b => f ||| g b) a).testBit x = (a.testBit x || l.any fun b => (g b).testBit x) :=
  testBit_foldl_of_step (f := fun f b => f ||| g b) (fun _ _ => Nat.testBit_or ..) l a

/-- Flags gathered over rows of rows. -/
theorem testBit_foldl_foldl_or (f : Nat → Nat → Nat) (n m x : Nat) :
    ((List.range n).foldl (fun a i => (List.range m).foldl (fun a j => a ||| f i j) a) 0).testBit x = true
      ↔ ∃ i j, i < n ∧ j < m ∧ (f i j).testBit x = true := by
  rw [testBit_foldl_of_step (p := fun i => (List.range m).any fun j => (f i j).testBit x) fun a i => testBit_foldl_or ..]
  simp only [Nat.zero_testBit, Bool.false_or, List.any_eq_true, List.mem_range]
  exact ⟨fun ⟨i, hi, j, hj, h⟩ => ⟨i, j, hi, hj, h⟩, fun ⟨i, j, hi, hj, h⟩ => ⟨i, hi, j, hj, h⟩⟩

/-! ## Lists of blocks of one length -/

theorem length_flatMap_range {α : Type} {f : Nat → List α} {m : Nat} (h : ∀ q, (f q).length = m) (n : Nat) :
    ((List.range n).flatMap f).length = n * m := by
  simp [List.length_flatMap, h]

/-- Element l of block q. -/
theorem getD_flatMap_range {α : Type} {f : Nat → List α} {m : Nat} (h : ∀ q, (f q).length = m) {n q l : Nat} (hq : q < n) (hl : l < m) (d : α) :
    ((List.range n).flatMap f).getD (q * m + l) d = (f q).getD l d := by
  induction n with
  | zero => cases hq
  | succ n ih =>
    have hlen := length_flatMap_range h n
    rw [List.range_succ, List.flatMap_append, List.flatMap_singleton]
    rcases Nat.lt_succ_iff_lt_or_eq.1 hq with hlt | rfl
    · have hbound : q * m + l < n * m :=
        calc q * m + l < q * m + m := Nat.add_lt_add_left hl _
          _ = (q + 1) * m := (Nat.succ_mul q m).symm
          _ ≤ n * m := Nat.mul_le_mul_right m hlt
      rw [List.getD_append _ _ _ _ (by rwa [hlen]), ih hlt]
    · rw [List.getD_append_right _ _ _ _ (by rw [hlen]; exact Nat.le_add_right ..), hlen, Nat.add_sub_cancel_left]

theorem zipIdx_eq_map_range {α : Type} (q : List α) (d : α) : q.zipIdx = (List.range q.length).map fun i => (q.getD i d, i) := by
  apply List.ext_getElem
  · simp
  · intro i h1 h2
    rw [List.length_zipIdx] at h1
    simp [h1]

/-! ## Numbers put together of bits -/

/-- A number of n bits given in turn. -/
def bitSum (b : Nat → Nat) (n : Nat) : Nat := (List.range n).foldl (fun x j => x + b j * 2 ^ j) 0

theorem bitSum_succ (b : Nat → Nat) (n : Nat) : bitSum b (n + 1) = bitSum b n + b n * 2 ^ n := by
  rw [bitSum, List.range_succ, List.foldl_append]; rfl

theorem bitSum_lt {b : Nat → Nat} (hb : ∀ j, b j < 2) (n : Nat) : bitSum b n < 2 ^ n := by
  induction n with
  | zero => exact Nat.one_pos
  | succ n ih =>
    have : b n * 2 ^ n ≤ 1 * 2 ^ n := Nat.mul_le_mul_right _ (Nat.le_of_lt_succ (hb n))
    rw [bitSum_succ, Nat.pow_succ]
    omega

theorem testBit_bitSum {b : Nat → Nat} (hb : ∀ j, b j < 2) {n k : Nat} (hk : k < n) : (bitSum b n).testBit k = decide (b k = 1) := by
  induction n with
  | zero => cases hk
  | succ n ih =>
    rw [bitSum_succ, Nat.add_comm, Nat.mul_comm, Nat.testBit_two_pow_mul_add _ (bitSum_lt hb n)]
    rcases Nat.lt_succ_iff_lt_or_eq.1 hk with hlt | rfl
    · rw [if_pos hlt, ih hlt]
    · rw [if_neg (lt_irrefl k), Nat.sub_self]
      have := hb k
      interval_cases b k <;> rfl

/-! ## Fields of words -/

theorem bit_eq_testBit (x i : Nat) : decide (x / 2 ^ i % 2 = 1) = x.testBit i := (Nat.testBit_eq_decide_div_mod_eq ..).symm
theorem bitsN_one (x i : Nat) : bitsN x i i = x / 2 ^ i % 2 := by rw [bitsN, Nat.add_sub_cancel_left, Nat.pow_one]
theorem wrapN_eq_toNat (x : Int) (n : Nat) : wrapN x n = (BitVec.ofInt n x).toNat := (BitVec.toNat_ofInt ..).symm
theorem clampI_eq {lo hi : Int} (h : lo ≤ hi) (x : Int) : clampI x lo hi = max lo (min hi x) := by
  unfold clampI
  split_ifs <;> omega

end Sys2Proof.Machine
end

section
/-! SUPPORT. Where the engine's tiles hold their elements: what a plane or packed element reads, and what the writes of a block of planes, of packed
elements and of a 16 × 16 tile put where (R74 to R77, R150 to R152). -/

namespace Sys2Proof.Machine

/-! ## Plane integers (R75) -/

theorem planeLeast_eq (pl : Plane) : planeLeast pl = intMin pl.signed (pl.p1.toNat + 1) := by
  rw [planeLeast, intMin_eq, Nat.add_sub_cancel]
theorem planeGreatest_eq (pl : Plane) : planeGreatest pl = intMax pl.signed (pl.p1.toNat + 1) := by
  rw [planeGreatest, intMax_eq, Nat.add_sub_cancel]

theorem intVal_eq_toInt (x : Nat) {n : Nat} (hn : 0 < n) : intVal true n x = (BitVec.ofNat n x).toInt := sextN_eq_toInt x hn
theorem ofInt_intVal (sg : Bool) {n : Nat} (hn : 0 < n) (x : Nat) : BitVec.ofInt n (intVal sg n x) = BitVec.ofNat n x := by
  cases sg
  · exact (BitVec.ofInt_natCast ..).trans (BitVec.eq_of_toNat_eq (by simp [zextN]))
  · rw [intVal_eq_toInt x hn, BitVec.ofInt_toInt]

theorem intVal_mem (sg : Bool) {n : Nat} (hn : 0 < n) (x : Nat) : intMin sg n ≤ intVal sg n x ∧ intVal sg n x ≤ intMax sg n := by
  cases sg
  · have hlt : ((x % 2 ^ n : Nat) : Int) < 2 ^ n := by exact_mod_cast Nat.mod_lt x (by positivity)
    rw [intMin_eq, intMax_eq]
    exact ⟨Int.natCast_nonneg _, Int.le_sub_one_of_lt hlt⟩
  · rw [intVal_eq_toInt x hn, intMin_eq, intMax_eq]
    exact ⟨BitVec.le_toInt _, Int.le_sub_one_of_lt BitVec.toInt_lt⟩

section
variable (s : State) (c : CoreId) (v : TV) (pl : Plane) (kd : Bool) (o r : Nat)

theorem State.planeElem_eq : s.planeElem c v pl kd o r = intVal pl.signed (pl.p1.toNat + 1)
    (bitSum (fun j => s.sread c (v.base + (o * v.nb kd + r / 32) * (pl.p1.toNat + 1) * 4 + 4 * j) 4 / 2 ^ (r % 32) % 2) (pl.p1.toNat + 1)) := rfl

theorem State.planeElem_mem : planeLeast pl ≤ s.planeElem c v pl kd o r ∧ s.planeElem c v pl kd o r ≤ planeGreatest pl := by
  rw [planeLeast_eq, planeGreatest_eq, State.planeElem_eq]
  exact intVal_mem _ (Nat.succ_pos _) _

/-- Bit j of a plane integer stands in the word of plane j of its block (R75). -/
theorem State.getLsbD_planeElem {j : Nat} (hj : j < pl.p1.toNat + 1) :
    (BitVec.ofInt (pl.p1.toNat + 1) (s.planeElem c v pl kd o r)).getLsbD j
      = (s.sread c (v.base + ((o * v.nb kd + r / 32) * (pl.p1.toNat + 1) + j) * 4) 4).testBit (r % 32) := by
  rw [State.planeElem_eq, ofInt_intVal _ (Nat.succ_pos _), BitVec.getLsbD_ofNat, testBit_bitSum (fun _ => Nat.mod_lt _ Nat.two_pos) hj, bit_eq_testBit]
  simp only [hj, decide_true, Bool.true_and]
  congr 2
  ring
end

/-! ## Blocks of planes (R76) -/

/-- The writes hold a block of 32 plane integers q and its scale code, and as many others as the tile's blocks need. -/
def HoldsBlock (d : TV) (ws : List TW) (pl : Plane) (kd : Bool) (o kb code : Nat) (q : Nat → Int) : Prop :=
  let p := pl.p1.toNat + 1
  (∀ j, j < p → ∃ w, w < 2 ^ 32 ∧ (d.base + ((o * d.nb kd + kb) * p + j) * 4, 4, w) ∈ ws ∧ ∀ k, k < 32 → w.testBit k = (BitVec.ofInt p (q k)).getLsbD j)
    ∧ (d.sc + o * d.nb kd + kb, 1, code) ∈ ws ∧ ws.length = d.o kd * d.nb kd * (p + 1)

/-- Only the low bits of the integers count. -/
theorem HoldsBlock.congr {d : TV} {ws : List TW} {pl : Plane} {kd : Bool} {o kb code : Nat} {q q' : Nat → Int}
    (h : HoldsBlock d ws pl kd o kb code q)
    (hq : ∀ k, k < 32 → BitVec.ofInt (pl.p1.toNat + 1) (q k) = BitVec.ofInt (pl.p1.toNat + 1) (q' k)) : HoldsBlock d ws pl kd o kb code q' := by
  obtain ⟨hplanes, hscale, hlen⟩ := h
  refine ⟨fun j hj => ?_, hscale, hlen⟩
  obtain ⟨w, hlt, hmem, hbits⟩ := hplanes j hj
  exact ⟨w, hlt, hmem, fun k hk => by rw [hbits k hk, hq k hk]⟩

/-- The word of a plane: bit j of each of 32 integers. -/
def planeWord (p : Nat) (q : List Int) (j : Nat) : Nat := bitSum (fun k => wrapN (q.getD k 0) p / 2 ^ j % 2) q.length

theorem blockWrites_eq (d : TV) (pl : Plane) (kd : Bool) (o kb : Nat) (q : List Int) : blockWrites d pl kd o kb q =
    (List.range (pl.p1.toNat + 1)).map fun j =>
      (d.base + ((o * d.nb kd + kb) * (pl.p1.toNat + 1) + j) * 4, 4, planeWord (pl.p1.toNat + 1) q j) := by
  rw [blockWrites, zipIdx_eq_map_range q 0]
  simp only [List.foldl_map, planeWord, bitSum]

theorem testBit_planeWord {p : Nat} {q : List Int} {j k : Nat} (hk : k < q.length) :
    (planeWord p q j).testBit k = (BitVec.ofInt p (q.getD k 0)).getLsbD j := by
  rw [planeWord, testBit_bitSum (fun _ => Nat.mod_lt _ Nat.two_pos) hk, bit_eq_testBit, wrapN_eq_toNat]; rfl

section
variable {d : TV} {kd : Bool}

theorem mem_overBlocks {f : Nat → Nat → List TW × Nat} {w : TW} :
    w ∈ (overBlocks d kd f).1 ↔ ∃ o kb, o < d.o kd ∧ kb < d.nb kd ∧ w ∈ (f o kb).1 := by
  simp only [overBlocks, List.mem_flatMap, List.mem_map, List.mem_range]
  constructor
  · rintro ⟨_, ⟨o, ho, kb, hkb, rfl⟩, hw⟩
    exact ⟨o, kb, ho, hkb, hw⟩
  · rintro ⟨o, kb, ho, hkb, hw⟩
    exact ⟨_, ⟨o, ho, kb, hkb, rfl⟩, hw⟩

theorem testBit_overBlocks {f : Nat → Nat → List TW × Nat} {x : Nat} :
    (overBlocks d kd f).2.testBit x = true ↔ ∃ o kb, o < d.o kd ∧ kb < d.nb kd ∧ (f o kb).2.testBit x = true := by
  rw [overBlocks, testBit_foldl_or]
  simp only [Nat.zero_testBit, Bool.false_or, List.any_flatMap, List.any_map, List.any_eq_true, List.mem_range, Function.comp]
  exact ⟨fun ⟨o, ho, kb, hkb, h⟩ => ⟨o, kb, ho, hkb, h⟩, fun ⟨o, kb, ho, hkb, h⟩ => ⟨o, ho, kb, hkb, h⟩⟩

theorem length_overBlocks {f : Nat → Nat → List TW × Nat} {n : Nat} (h : ∀ o kb, (f o kb).1.length = n) :
    (overBlocks d kd f).1.length = d.o kd * d.nb kd * n := by
  have hrow (o : Nat) : ((List.range (d.nb kd)).flatMap fun kb => (f o kb).1).length = d.nb kd * n := length_flatMap_range (h o) _
  have hall := length_flatMap_range hrow (d.o kd)
  simpa only [overBlocks, List.flatMap_assoc, List.flatMap_map, Nat.mul_assoc] using hall

/-- A conversion of every block of a tile holds each block that it writes (R76). -/
theorem holdsBlock_overBlocks {pl : Plane} {code fl : Nat → Nat → Nat} {q : Nat → Nat → List Int} (hq : ∀ o kb, (q o kb).length = 32) {o kb : Nat}
    (ho : o < d.o kd) (hkb : kb < d.nb kd) :
    HoldsBlock d (overBlocks d kd fun o kb => (blockWrites d pl kd o kb (q o kb) ++ [scaleWrite d kd o kb (code o kb)], fl o kb)).1 pl kd o kb
      (code o kb) fun k => (q o kb).getD k 0 := by
  refine ⟨fun j hj => ⟨planeWord (pl.p1.toNat + 1) (q o kb) j, ?_, ?_, fun k hk => ?_⟩, ?_, length_overBlocks fun o kb => ?_⟩
  · rw [planeWord, hq]
    exact bitSum_lt (fun _ => Nat.mod_lt _ Nat.two_pos) 32
  · refine mem_overBlocks.2 ⟨o, kb, ho, hkb, List.mem_append_left _ ?_⟩
    rw [blockWrites_eq]
    exact List.mem_map.2 ⟨j, List.mem_range.2 hj, rfl⟩
  · exact testBit_planeWord (by rwa [hq])
  · exact mem_overBlocks.2 ⟨o, kb, ho, hkb, List.mem_append_right _ (List.mem_singleton_self _)⟩
  · simp [blockWrites_eq]
end

/-! ## Packed elements (R74, R152) -/

/-- The writes are those of every packed element of a tile, f4 two to a byte. -/
def HoldsPacked (d : TV) (ws : List TW) (el : Nat → Nat → Nat) : Prop :=
  (d.fmt = 11 → ws.length = d.e0 * d.e1 / 2 ∧ ∀ m, m < d.e0 * d.e1 / 2 →
    (d.base + m, 1, el (2 * m / d.e0) (2 * m % d.e0) + 16 * el ((2 * m + 1) / d.e0) ((2 * m + 1) % d.e0)) ∈ ws)
  ∧ (d.fmt ≠ 11 → ws.length = d.e1 * d.e0 ∧ ∀ i1 i0, i1 < d.e1 → i0 < d.e0 →
    (d.base + (i1 * d.s1 + i0) * (fmtBits d.fmt / 8), fmtBits d.fmt / 8, el i1 i0) ∈ ws)

theorem holdsPacked_packWrites (d : TV) (el : Nat → Nat → Nat) : HoldsPacked d (packWrites d el) el := by
  constructor
  · intro hf
    rw [packWrites, if_pos hf]
    exact ⟨by simp, fun m hm => List.mem_map.2 ⟨m, List.mem_range.2 hm, rfl⟩⟩
  · intro hf
    rw [packWrites, if_neg hf]
    exact ⟨by simp, fun i1 i0 h1 h0 => List.mem_flatMap.2 ⟨i1, List.mem_range.2 h1, List.mem_map.2 ⟨i0, List.mem_range.2 h0, rfl⟩⟩⟩

/-- Only the elements of the tile count. -/
theorem HoldsPacked.congr {d : TV} {ws : List TW} {el el' : Nat → Nat → Nat} (h : HoldsPacked d ws el)
    (he : ∀ i1 i0, i1 < d.e1 → i0 < d.e0 → el i1 i0 = el' i1 i0) : HoldsPacked d ws el' := by
  obtain ⟨hpairs, hwhole⟩ := h
  refine ⟨fun hf => ?_, fun hf => ?_⟩
  · obtain ⟨hlen, hmem⟩ := hpairs hf
    refine ⟨hlen, fun m hm => ?_⟩
    have hpos : 0 < d.e0 := Nat.pos_of_ne_zero fun h0 => by rw [h0] at hm; omega
    have hat (n : Nat) (hn : n < d.e0 * d.e1) : el (n / d.e0) (n % d.e0) = el' (n / d.e0) (n % d.e0) :=
      he _ _ (Nat.div_lt_of_lt_mul hn) (Nat.mod_lt _ hpos)
    rw [← hat (2 * m) (by omega), ← hat (2 * m + 1) (by omega)]
    exact hmem m hm
  · obtain ⟨hlen, hmem⟩ := hwhole hf
    exact ⟨hlen, fun i1 i0 h1 h0 => he i1 i0 h1 h0 ▸ hmem i1 i0 h1 h0⟩

/-! ## Tiles of 16 × 16 (R151) -/

theorem mem_grid16 {p : Nat × Nat} : p ∈ grid16 ↔ p.1 < 16 ∧ p.2 < 16 := by
  simp only [grid16, List.mem_flatMap, List.mem_map, List.mem_range]
  exact ⟨fun ⟨i, hi, j, hj, h⟩ => h ▸ ⟨hi, hj⟩, fun ⟨h1, h2⟩ => ⟨p.1, h1, p.2, h2, rfl⟩⟩
theorem length_grid16 : grid16.length = 256 := by rw [grid16, length_flatMap_range (m := 16) (by simp)]

/-- What an element of the grid writes. -/
theorem mem_map_grid16 (f : Nat × Nat → TW) {i j : Nat} (hi : i < 16) (hj : j < 16) : f (i, j) ∈ grid16.map f :=
  List.mem_map_of_mem (mem_grid16.2 ⟨hi, hj⟩)

theorem any_grid16 {f : Nat × Nat → Bool} : grid16.any f = true ↔ ∃ i j, i < 16 ∧ j < 16 ∧ f (i, j) = true := by
  simp only [List.any_eq_true, mem_grid16]
  exact ⟨fun ⟨p, ⟨h1, h2⟩, h⟩ => ⟨p.1, p.2, h1, h2, h⟩, fun ⟨i, j, hi, hj, h⟩ => ⟨(i, j), ⟨hi, hj⟩, h⟩⟩

end Sys2Proof.Machine
end

section
/-! SUPPORT. Exact values compared as rationals, and the quantisation of a block of 32 of them to a plane type (R81, R89). -/

namespace Sys2Proof.Machine

/-! ## Scaled magnitudes -/

/-- m · 2^i as a rational. -/
def scaledRat (m : Nat) (i : Int) : ℚ := m * 2 ^ i

theorem mul_two_zpow_sub (m : Nat) {i k : Int} (h : k ≤ i) : ((m * 2 ^ (i - k).toNat : Nat) : ℚ) * 2 ^ k = scaledRat m i := by
  have hexp : i = ((i - k).toNat : Int) + k := by omega
  rw [scaledRat, hexp, zpow_add₀ two_ne_zero, zpow_natCast, Int.toNat_of_nonneg (by omega), sub_add_cancel]
  push_cast
  ring

theorem scaledAbove_iff (m : Nat) (i : Int) (n : Nat) (j : Int) : ScaledAbove m i n j ↔ scaledRat n j < scaledRat m i := by
  have hpos : (0 : ℚ) < 2 ^ (min i j) := by positivity
  rw [ScaledAbove, ← mul_two_zpow_sub m (min_le_left i j), ← mul_two_zpow_sub n (min_le_right i j), mul_lt_mul_iff_left₀ hpos]
  exact Nat.cast_lt.symm

theorem scaledGt_iff (m : Nat) (i : Int) (n : Nat) (j : Int) : scaledGt m i n j = true ↔ scaledRat n j < scaledRat m i := by
  rw [← scaledAbove_iff, ScaledAbove, scaledGt]
  split
  case isTrue h => simp [min_eq_right h]
  case isFalse h => simp [min_eq_left (not_le.1 h).le]

theorem scaledRat_zero (m : Nat) : scaledRat m 0 = m := by simp [scaledRat]
theorem scaledRat_add (m : Nat) (i j : Int) : scaledRat m (i + j) = scaledRat m i * 2 ^ j := by
  rw [scaledRat, scaledRat, zpow_add₀ two_ne_zero, mul_assoc]
theorem scaledRat_of_zero (i : Int) : scaledRat 0 i = 0 := by simp [scaledRat]
theorem scaledRat_pos {m : Nat} (h : m ≠ 0) (i : Int) : 0 < scaledRat m i := by
  have : (0 : ℚ) < m := by exact_mod_cast Nat.pos_of_ne_zero h
  unfold scaledRat
  positivity
theorem scaledRat_lt_iff {m : Nat} (h : m ≠ 0) (i j : Int) : scaledRat m i < scaledRat m j ↔ i < j := by
  have : (0 : ℚ) < m := by exact_mod_cast Nat.pos_of_ne_zero h
  rw [scaledRat, scaledRat, mul_lt_mul_iff_right₀ this, zpow_lt_zpow_iff_right₀ one_lt_two]

/-! ## The exponent of a block (R89) -/

theorem natCast_lt_zpow_log2 (n : Nat) : (n : ℚ) < 2 ^ ((Nat.log2 n : Int) + 1) := by
  have h : n < 2 ^ (Nat.log2 n + 1) := Nat.lt_log2_self
  exact_mod_cast (show (n : ℚ) < ((2 ^ (Nat.log2 n + 1) : Nat) : ℚ) from Nat.cast_lt.2 h)
theorem zpow_log2_le_natCast {n : Nat} (h : n ≠ 0) : (2 : ℚ) ^ (Nat.log2 n : Int) ≤ n := by
  have h : 2 ^ Nat.log2 n ≤ n := Nat.log2_self_le h
  exact_mod_cast (show ((2 ^ Nat.log2 n : Nat) : ℚ) ≤ n from Nat.cast_le.2 h)

/-- From a start that is too small, with enough steps, the least exponent is found. -/
theorem leastD_spec {q m : Nat} (n : Nat) {d : Int} (hlow : scaledRat q (d - 1) < m) (hhigh : (m : ℚ) ≤ scaledRat q (d + n)) :
    scaledRat q (leastD q m n d - 1) < m ∧ (m : ℚ) ≤ scaledRat q (leastD q m n d) := by
  induction n generalizing d with
  | zero => exact ⟨hlow, by simpa [leastD] using hhigh⟩
  | succ n ih =>
    rw [leastD]
    split
    case isTrue h =>
      rw [scaledGt_iff, scaledRat_zero] at h
      refine ih (by simpa using h) ?_
      rwa [show d + 1 + (n : Int) = d + ((n + 1 : Nat) : Int) by push_cast; ring]
    case isFalse h =>
      rw [scaledGt_iff, scaledRat_zero, not_lt] at h
      exact ⟨hlow, h⟩

/-- The least power of two by which qref reaches m. -/
theorem leastD_log2_spec {q m : Nat} (hq : q ≠ 0) (hm : m ≠ 0) :
    let d := leastD q m 12 ((Nat.log2 m : Int) - (Nat.log2 q : Int) - 2)
    scaledRat q (d - 1) < m ∧ (m : ℚ) ≤ scaledRat q d := by
  have hlow := zpow_log2_le_natCast hm
  have hhigh := (natCast_lt_zpow_log2 m).le
  generalize hlm : (Nat.log2 m : Int) = lm at *
  generalize hlq : (Nat.log2 q : Int) = lq at *
  have hqlow := zpow_log2_le_natCast hq
  have hqhigh := natCast_lt_zpow_log2 q
  rw [hlq] at hqlow hqhigh
  refine leastD_spec 12 ?_ ?_
  · calc scaledRat q (lm - lq - 2 - 1) < 2 ^ (lq + 1) * 2 ^ (lm - lq - 2 - 1) := by unfold scaledRat; gcongr
      _ = 2 ^ (lm - 2) := by rw [← zpow_add₀ two_ne_zero]; congr 1; ring
      _ ≤ 2 ^ lm := zpow_le_zpow_right₀ one_le_two (by omega)
      _ ≤ m := hlow
  · calc (m : ℚ) ≤ 2 ^ (lm + 1) := hhigh
      _ ≤ 2 ^ (lm + 10) := zpow_le_zpow_right₀ one_le_two (by omega)
      _ = 2 ^ lq * 2 ^ (lm - lq - 2 + (12 : Nat)) := by rw [← zpow_add₀ two_ne_zero]; congr 1; push_cast; ring
      _ ≤ scaledRat q (lm - lq - 2 + (12 : Nat)) := by unfold scaledRat; gcongr

/-- Two exponents at which multiples of q first reach a value are one. -/
theorem scaledRat_first_unique {q : Nat} (hq : q ≠ 0) {v : ℚ} {c d : Int} (hc : scaledRat q (c - 1) < v ∧ v ≤ scaledRat q c)
    (hd : scaledRat q (d - 1) < v ∧ v ≤ scaledRat q d) : c = d := by
  have h1 := (scaledRat_lt_iff hq _ _).1 (hc.1.trans_le hd.2)
  have h2 := (scaledRat_lt_iff hq _ _).1 (hd.1.trans_le hc.2)
  omega

/-! ## The limits of a plane type (R75, R89) -/

theorem planeLim_eq (pl : Plane) : planeLim pl =
    (planeLeast pl, planeGreatest pl, if pl.signed = true ∧ pl.p1 = 0 then 1 else (planeGreatest pl).toNat) := by
  have hall : ∀ (p1 : BitVec 3) (sg : Bool), planeLim ⟨p1, sg⟩ = (planeLeast ⟨p1, sg⟩, planeGreatest ⟨p1, sg⟩,
      if sg = true ∧ p1 = 0 then 1 else (planeGreatest ⟨p1, sg⟩).toNat) := by decide
  exact hall pl.p1 pl.signed

theorem planeLim_qref_ne_zero (pl : Plane) : (planeLim pl).2.2 ≠ 0 := by
  have hall : ∀ (p1 : BitVec 3) (sg : Bool), (planeLim ⟨p1, sg⟩).2.2 ≠ 0 := by decide
  exact hall pl.p1 pl.signed

theorem planeLeast_le_planeGreatest (pl : Plane) : planeLeast pl ≤ planeGreatest pl := by
  rw [planeLeast_eq, planeGreatest_eq]; exact intMin_le_intMax ..

/-! ## Rounding to the nearest integer (R80) -/

theorem roundNat_nearest (m : Nat) (k : Int) :
    roundNat false m k = (nearestEven m k, decide (k < 0 ∧ m % 2 ^ (-k).toNat ≠ 0)) := by
  unfold roundNat scaleDown nearestEven
  by_cases hk : 0 ≤ k
  · simp [hk, not_lt.2 hk]
  · have hneg : k < 0 := not_le.1 hk
    simp only [hk, if_false, hneg, true_and, Bool.false_eq_true]
    generalize 2 ^ (-k).toNat = z
    generalize m % z = r
    generalize m / z = w
    have hcond : ((if 2 * r < z then 0 else if 2 * r = z then 1 else 2) = 2 ∨ (if 2 * r < z then 0 else if 2 * r = z then 1 else 2) = 1 ∧ w % 2 = 1)
        ↔ (z < 2 * r ∨ 2 * r = z ∧ w % 2 = 1) := by
      rcases lt_trichotomy (2 * r) z with h | h | h
      · simp [h, h.ne, h.le]
      · simp [h]
      · simp [h, h.ne', not_lt.2 h.le]
    rw [if_congr hcond rfl rfl]
    split_ifs <;> rfl

/-! ## A block quantised (R89) -/

/-- No finite value. -/
def FV.nonFin : FV → Bool
  | .fin _ _ _ => false
  | _ => true

/-- The greatest magnitude of a block, the first of those. -/
def amaxOf (xs : List FV) : Nat × Int :=
  xs.foldl (fun m x => match x with
    | .fin _ a e => if scaledGt a e m.1 m.2 then (a, e) else m
    | _ => m) (0, 0)

/-- The scale code of R89 before it is capped. -/
def quantExp (pl : Plane) (a : Nat × Int) : Int :=
  127 + leastD (planeLim pl).2.2 a.1 12 ((Nat.log2 a.1 : Int) - (Nat.log2 (planeLim pl).2.2 : Int) - 2) + a.2
/-- The scale code. -/
def quantCode (c : Int) : Nat := if c < 0 then 0 else if 254 < c then 254 else c.toNat

/-- One value of a block under a scale code, and its flags. -/
def quantOne (pl : Plane) (code : Nat) (capped : Bool) : FV → Int × Nat
  | .fin n m e =>
    let (v, ix) := finInt false n m (e - ((code : Int) - 127))
    let q := clampI v (planeLim pl).1 (planeLim pl).2.1
    (q, (if ix ∨ q ≠ v then flNX else 0) ||| (if q ≠ v ∧ capped then flOF else 0))
  | _ => (0, 0)

theorem quantBlock_of_nonFin (pl : Plane) {xs : List FV} (h : xs.any FV.nonFin = true) : quantBlock pl xs = (255, xs.map fun _ => 0, flQNONFIN) :=
  if_pos h
theorem quantBlock_of_zero (pl : Plane) {xs : List FV} (h : xs.any FV.nonFin = false) (hz : (amaxOf xs).1 = 0) :
    quantBlock pl xs = (0, xs.map fun _ => 0, 0) :=
  (if_neg (ne_true_of_eq_false h)).trans (if_pos hz)
theorem quantBlock_of_ne_zero (pl : Plane) {xs : List FV} (h : xs.any FV.nonFin = false) (hz : (amaxOf xs).1 ≠ 0) :
    quantBlock pl xs =
      let c := quantExp pl (amaxOf xs)
      let rs := xs.map (quantOne pl (quantCode c) (decide (254 < c)))
      (quantCode c, rs.map Prod.fst, rs.foldl (fun f r => f ||| r.2) (if c < 0 then flQUNDER else 0)) :=
  (if_neg (ne_true_of_eq_false h)).trans (if_neg hz)

end Sys2Proof.Machine
end

section
/-! SUPPORT. The quantisation of R89, in the words of the rule: which scale code, which plane integers and which flags a block gives. -/

namespace Sys2Proof.Machine

/-! ## The greatest magnitude of a block -/

/-- One more value of a block taken into account. -/
def amaxStep (m : Nat × Int) (x : FV) : Nat × Int :=
  match x with
  | .fin _ a e => if scaledGt a e m.1 m.2 then (a, e) else m
  | _ => m

theorem amaxStep_fin (a : Nat × Int) (n : Bool) (m : Nat) (e : Int) :
    amaxStep a (.fin n m e) = if scaledGt m e a.1 a.2 then (m, e) else a := rfl

theorem amaxStep_cases (a : Nat × Int) (x : FV) : amaxStep a x = a ∨ ∃ n, x = .fin n (amaxStep a x).1 (amaxStep a x).2 := by
  cases x with
  | fin n m e =>
    rw [amaxStep_fin]
    split
    · exact .inr ⟨n, rfl⟩
    · exact .inl rfl
  | nan sig => exact .inl rfl
  | inf neg => exact .inl rfl

theorem le_amaxStep_fin (a : Nat × Int) (n : Bool) (m : Nat) (e : Int) :
    scaledRat m e ≤ scaledRat (amaxStep a (.fin n m e)).1 (amaxStep a (.fin n m e)).2 := by
  rw [amaxStep_fin]
  split
  case isTrue => exact le_rfl
  case isFalse h => exact not_lt.1 fun hlt => h ((scaledGt_iff ..).2 hlt)

theorem le_amaxStep (a : Nat × Int) (x : FV) : scaledRat a.1 a.2 ≤ scaledRat (amaxStep a x).1 (amaxStep a x).2 := by
  cases x with
  | fin n m e =>
    rw [amaxStep_fin]
    split
    case isTrue h => exact ((scaledGt_iff ..).1 h).le
    case isFalse => exact le_rfl
  | nan sig => exact le_rfl
  | inf neg => exact le_rfl

theorem foldl_amaxStep_spec (xs : List FV) (a : Nat × Int) :
    let r := xs.foldl amaxStep a
    scaledRat a.1 a.2 ≤ scaledRat r.1 r.2 ∧ (∀ n m e, FV.fin n m e ∈ xs → scaledRat m e ≤ scaledRat r.1 r.2)
      ∧ (r = a ∨ ∃ n, FV.fin n r.1 r.2 ∈ xs) := by
  induction xs generalizing a with
  | nil => exact ⟨le_rfl, fun _ _ _ h => absurd h List.not_mem_nil, .inl rfl⟩
  | cons x xs ih =>
    obtain ⟨hstart, hall, hmem⟩ := ih (amaxStep a x)
    rw [List.foldl_cons]
    refine ⟨(le_amaxStep a x).trans hstart, fun n m e h => ?_, ?_⟩
    · rcases List.mem_cons.1 h with rfl | h
      · exact (le_amaxStep_fin a n m e).trans hstart
      · exact hall n m e h
    · rcases hmem with h | ⟨n, h⟩
      · rw [h]
        exact (amaxStep_cases a x).imp_right fun ⟨n, hn⟩ => ⟨n, hn ▸ List.mem_cons_self ..⟩
      · exact .inr ⟨n, List.mem_cons_of_mem _ h⟩

theorem amaxOf_eq_foldl (xs : List FV) : amaxOf xs = xs.foldl amaxStep (0, 0) := rfl

theorem scaledRat_le_amaxOf {xs : List FV} {n : Bool} {m : Nat} {e : Int} (h : FV.fin n m e ∈ xs) :
    scaledRat m e ≤ scaledRat (amaxOf xs).1 (amaxOf xs).2 := (foldl_amaxStep_spec xs (0, 0)).2.1 n m e h

theorem amaxOf_mem {xs : List FV} (h : (amaxOf xs).1 ≠ 0) : ∃ n, FV.fin n (amaxOf xs).1 (amaxOf xs).2 ∈ xs :=
  (foldl_amaxStep_spec xs (0, 0)).2.2.resolve_left fun h0 => h (by rw [amaxOf_eq_foldl, h0])

theorem amaxOf_ne_zero {xs : List FV} {n : Bool} {m : Nat} {e : Int} (h : FV.fin n m e ∈ xs) (hm : m ≠ 0) : (amaxOf xs).1 ≠ 0 := fun h0 => by
  have := (scaledRat_pos hm e).trans_le (scaledRat_le_amaxOf h)
  rw [h0, scaledRat_of_zero] at this
  exact lt_irrefl 0 this

/-- The exponent of R89 is the least by which the greatest plane integer reaches the greatest magnitude. -/
theorem quantExp_eq (pl : Plane) {a : Nat × Int} (ha : a.1 ≠ 0) {c : Int}
    (hlow : scaledRat (planeLim pl).2.2 (c - 1) < scaledRat a.1 a.2) (hhigh : scaledRat a.1 a.2 ≤ scaledRat (planeLim pl).2.2 c) :
    quantExp pl a = c + 127 := by
  have hq := planeLim_qref_ne_zero pl
  have hpow : (0 : ℚ) < 2 ^ a.2 := by positivity
  obtain ⟨hl, hh⟩ := leastD_log2_spec hq ha
  unfold quantExp
  generalize leastD (planeLim pl).2.2 a.1 12 ((Nat.log2 a.1 : Int) - (Nat.log2 (planeLim pl).2.2 : Int) - 2) = d at hl hh ⊢
  have hd : scaledRat (planeLim pl).2.2 (d + a.2 - 1) < scaledRat a.1 a.2 ∧ scaledRat a.1 a.2 ≤ scaledRat (planeLim pl).2.2 (d + a.2) := by
    rw [show d + a.2 - 1 = d - 1 + a.2 by ring, scaledRat_add, scaledRat_add]
    exact ⟨mul_lt_mul_of_pos_right hl hpow, mul_le_mul_of_nonneg_right hh hpow.le⟩
  rw [scaledRat_first_unique hq ⟨hlow, hhigh⟩ hd]
  ring

/-! ## One value -/

theorem quantOne_fin (pl : Plane) (code : Nat) (capped n : Bool) (m : Nat) (e : Int) :
    let v : Int := (if n = true then -1 else 1) * (nearestEven m (e - ((code : Int) - 127)) : Int)
    let q : Int := max (planeLeast pl) (min (planeGreatest pl) v)
    quantOne pl code capped (.fin n m e) =
      (q, (if (e < (code : Int) - 127 ∧ m % 2 ^ ((code : Int) - 127 - e).toNat ≠ 0) ∨ q ≠ v then flNX else 0) ||| if q ≠ v ∧ capped then flOF else 0) := by
  intro v q
  have hv : (if n = true then -(nearestEven m (e - ((code : Int) - 127)) : Int) else (nearestEven m (e - ((code : Int) - 127)) : Int)) = v := by
    simp only [v]; split <;> ring
  have hexp : -(e - ((code : Int) - 127)) = (code : Int) - 127 - e := by ring
  have hneg : e - ((code : Int) - 127) < 0 ↔ e < (code : Int) - 127 := sub_neg
  simp only [quantOne, finInt, roundNat_nearest, planeLim_eq, hv, hexp, hneg, clampI_eq (planeLeast_le_planeGreatest pl), decide_eq_true_eq]
  rfl

/-- Which bits NX and OF raise. -/
theorem testBit_NX_OF (A B : Prop) [Decidable A] [Decidable B] :
    (((if A then flNX else 0) ||| if B then flOF else 0).testBit 0 = true ↔ A) ∧ (((if A then flNX else 0) ||| if B then flOF else 0).testBit 2 = true ↔ B)
      ∧ ((if A then flNX else 0) ||| if B then flOF else 0).testBit 9 = false := by
  by_cases hA : A <;> by_cases hB : B <;> simp only [hA, hB, if_true, if_false, iff_true, iff_false] <;> decide

theorem testBit_QUNDER (A : Prop) [Decidable A] (b : Nat) : (if A then flQUNDER else 0).testBit b = true ↔ A ∧ b = 9 := by
  by_cases hA : A
  · rw [if_pos hA, show flQUNDER = 2 ^ 9 from rfl, Nat.testBit_two_pow]
    simp only [hA, true_and, decide_eq_true_eq]
    exact eq_comm
  · simp [hA]

/-! ## The block -/

/-- The 32 values of a block. -/
def block32Of (x : Nat → FV) : List FV := (List.range 32).map x

section
variable (pl : Plane) (x : Nat → FV)

theorem mem_block32Of {y : FV} : y ∈ block32Of x ↔ ∃ k, k < 32 ∧ x k = y := by simp [block32Of]

theorem length_quantBlock (xs : List FV) : (quantBlock pl xs).2.1.length = xs.length := by
  by_cases h : xs.any FV.nonFin = true
  · rw [quantBlock_of_nonFin pl h, List.length_map]
  · have h' := eq_false_of_ne_true h
    by_cases hz : (amaxOf xs).1 = 0
    · rw [quantBlock_of_zero pl h' hz, List.length_map]
    · simp [quantBlock_of_ne_zero pl h' hz]

theorem FV.nonFin_iff (y : FV) : FV.nonFin y = true ↔ ∀ n m e, y ≠ .fin n m e := by
  cases y <;> simp [FV.nonFin]

theorem any_nonFin_block32Of : (block32Of x).any FV.nonFin = true ↔ ∃ k, k < 32 ∧ ∀ n m e, x k ≠ .fin n m e := by
  simp only [List.any_eq_true, mem_block32Of, FV.nonFin_iff]
  exact ⟨fun ⟨_, ⟨k, hk, h⟩, hne⟩ => ⟨k, hk, h ▸ hne⟩, fun ⟨k, hk, hne⟩ => ⟨_, ⟨k, hk, rfl⟩, hne⟩⟩

theorem not_any_nonFin {x : Nat → FV} (h : ∀ k, k < 32 → ∃ n m e, x k = .fin n m e) : (block32Of x).any FV.nonFin = false := by
  refine eq_false_of_ne_true fun hany => ?_
  obtain ⟨k, hk, hne⟩ := (any_nonFin_block32Of x).1 hany
  obtain ⟨n, m, e, he⟩ := h k hk
  exact hne n m e he

theorem amaxOf_block32Of_zero {x : Nat → FV} (h : ∀ k, k < 32 → ∃ n e, x k = .fin n 0 e) : (amaxOf (block32Of x)).1 = 0 := by
  by_contra hne
  obtain ⟨n, hmem⟩ := amaxOf_mem hne
  obtain ⟨k, hk, hx⟩ := (mem_block32Of x).1 hmem
  obtain ⟨n', e, he⟩ := h k hk
  rw [he, FV.fin.injEq] at hx
  exact hne hx.2.1.symm

/-- The greatest magnitude that the block's fold finds is that of any value which no other exceeds. -/
theorem amaxOf_block32Of_eq {x : Nat → FV} {neg : Nat → Bool} {m : Nat → Nat} {e : Nat → Int} {top : Nat}
    (hx : ∀ k, k < 32 → x k = .fin (neg k) (m k) (e k)) (htop : top < 32) (hm : m top ≠ 0)
    (hmax : ∀ k, k < 32 → ¬ ScaledAbove (m k) (e k) (m top) (e top)) :
    (amaxOf (block32Of x)).1 ≠ 0 ∧ scaledRat (amaxOf (block32Of x)).1 (amaxOf (block32Of x)).2 = scaledRat (m top) (e top) := by
  have hmem : FV.fin (neg top) (m top) (e top) ∈ block32Of x := (mem_block32Of x).2 ⟨top, htop, hx top htop⟩
  have hne := amaxOf_ne_zero hmem hm
  obtain ⟨n, hfound⟩ := amaxOf_mem hne
  obtain ⟨k, hk, hxk⟩ := (mem_block32Of x).1 hfound
  rw [hx k hk, FV.fin.injEq] at hxk
  obtain ⟨-, hmk, hek⟩ := hxk
  have hle := hmax k hk
  rw [scaledAbove_iff, not_lt, hmk, hek] at hle
  exact ⟨hne, le_antisymm hle (scaledRat_le_amaxOf hmem)⟩

/-- The scale code is capped to 0 and 254. -/
theorem quantCode_cast (c : Int) : (quantCode c : Int) = if c < 0 then 0 else if 254 < c then 254 else c := by
  unfold quantCode
  split_ifs <;> omega

theorem quantised_quantBlock :
    Quantised pl x (quantBlock pl (block32Of x)).1 (fun k => (quantBlock pl (block32Of x)).2.1.getD k 0) (quantBlock pl (block32Of x)).2.2 := by
  refine ⟨fun hnon => ?nonFinite, fun hzero => ?zeros, fun neg m e top c hx htop hm hmax hhigh hlow => ?scaled⟩
  case nonFinite =>
    rw [quantBlock_of_nonFin pl ((any_nonFin_block32Of x).2 hnon)]
    exact ⟨rfl, fun k hk => by simp [block32Of, hk], rfl⟩
  case zeros =>
    rw [quantBlock_of_zero pl (not_any_nonFin fun k hk => (hzero k hk).imp fun n ⟨e, h⟩ => ⟨0, e, h⟩) (amaxOf_block32Of_zero hzero)]
    exact ⟨rfl, fun k hk => by simp [block32Of, hk], rfl⟩
  case scaled =>
    obtain ⟨hne, hval⟩ := amaxOf_block32Of_eq hx htop hm hmax
    have hqref : (planeLim pl).2.2 = if pl.signed = true ∧ pl.p1 = 0 then 1 else (planeGreatest pl).toNat := by rw [planeLim_eq]
    rw [← hqref, scaledAbove_iff, ← hval] at hhigh hlow
    have hexp : quantExp pl (amaxOf (block32Of x)) = c + 127 := quantExp_eq pl hne hlow (not_lt.1 hhigh)
    rw [quantBlock_of_ne_zero pl (not_any_nonFin fun k hk => ⟨_, _, _, hx k hk⟩) hne, hexp]
    intro k0 v clamped
    have hcode : (quantCode (c + 127) : Int) = k0 := quantCode_cast _
    have hone (k : Nat) (hk : k < 32) : quantOne pl (quantCode (c + 127)) (decide (254 < c + 127)) (x k) =
        (max (planeLeast pl) (min (planeGreatest pl) (v k)),
          (if (e k < k0 - 127 ∧ m k % 2 ^ (k0 - 127 - e k).toNat ≠ 0) ∨ max (planeLeast pl) (min (planeGreatest pl) (v k)) ≠ v k then flNX else 0)
            ||| if max (planeLeast pl) (min (planeGreatest pl) (v k)) ≠ v k ∧ 254 < c + 127 then flOF else 0) := by
      rw [hx k hk, quantOne_fin, hcode]
      simp only [decide_eq_true_eq]
      rfl
    have hq (k : Nat) (hk : k < 32) : (((block32Of x).map (quantOne pl (quantCode (c + 127)) (decide (254 < c + 127)))).map Prod.fst).getD k 0
        = max (planeLeast pl) (min (planeGreatest pl) (v k)) := by
      rw [block32Of, List.map_map, List.map_map, getD_map_range _ hk, Function.comp, Function.comp, hone k hk]
    have hflag (b : Nat) : (((block32Of x).map (quantOne pl (quantCode (c + 127)) (decide (254 < c + 127)))).foldl (fun f r => f ||| r.2)
          (if c + 127 < 0 then flQUNDER else 0)).testBit b = true
        ↔ (if c + 127 < 0 then flQUNDER else 0).testBit b = true ∨ ∃ k, k < 32 ∧
          ((quantOne pl (quantCode (c + 127)) (decide (254 < c + 127)) (x k)).2).testBit b = true := by
      rw [testBit_foldl_or]
      simp only [Bool.or_eq_true, List.any_eq_true, List.mem_map, mem_block32Of, exists_exists_and_eq_and]
    have hbits (k : Nat) (hk : k < 32) := testBit_NX_OF
      ((e k < k0 - 127 ∧ m k % 2 ^ (k0 - 127 - e k).toNat ≠ 0) ∨ max (planeLeast pl) (min (planeGreatest pl) (v k)) ≠ v k)
      (max (planeLeast pl) (min (planeGreatest pl) (v k)) ≠ v k ∧ 254 < c + 127)
    have hclamped (k : Nat) (hk : k < 32) : clamped k ↔ max (planeLeast pl) (min (planeGreatest pl) (v k)) ≠ v k := not_congr (by rw [← hq k hk])
    refine ⟨hcode, hq, ?_, ?_, ?_⟩
    · rw [hflag, testBit_QUNDER]
      refine ⟨fun h => h.elim And.left fun ⟨k, hk, hbit⟩ => ?_, fun h => .inl ⟨h, rfl⟩⟩
      rw [hone k hk, (hbits k hk).2.2] at hbit
      cases hbit
    · rw [hflag, testBit_QUNDER]
      refine ⟨fun h => ?_, fun ⟨hcap, k, hk, hcl⟩ => .inr ⟨k, hk, ?_⟩⟩
      · obtain ⟨k, hk, hbit⟩ := h.resolve_left (by simp)
        rw [hone k hk, (hbits k hk).2.1] at hbit
        exact ⟨hbit.2, k, hk, (hclamped k hk).2 hbit.1⟩
      · rw [hone k hk, (hbits k hk).2.1]
        exact ⟨(hclamped k hk).1 hcl, hcap⟩
    · rw [hflag, testBit_QUNDER]
      refine ⟨fun h => ?_, fun ⟨k, hk, h⟩ => .inr ⟨k, hk, ?_⟩⟩
      · obtain ⟨k, hk, hbit⟩ := h.resolve_left (by simp)
        rw [hone k hk, (hbits k hk).1] at hbit
        exact ⟨k, hk, hbit.symm.imp_left (hclamped k hk).2⟩
      · rw [hone k hk, (hbits k hk).1]
        exact h.symm.imp_right (hclamped k hk).1
end

end Sys2Proof.Machine
end

section
/-! SUPPORT. What tzero, tmma, tacc and tread write: accumulator elements, their sums and their rounding (R77, R91, R92, R160 to R163). -/

namespace Sys2Proof.Machine

/-! ## What a command gives -/

/-- A command computes its writes and flags without changing the state, and they satisfy P. -/
def State.Gives (s : State) (c : CoreId) (d a b : TV) (hasA hasB : Bool) (scal : List Word) (ctx : Nat) (k : TKind) (P : List TW → Nat → Prop) : Prop :=
  ∃ ws fl, s.tCompute c k d a b hasA hasB scal ctx = (s, .ok (ws, fl)) ∧ P ws fl

/-- The flags are those that the elements raise. -/
def FlagsOf (fl n m : Nat) (f : Nat → Nat → Nat) : Prop := ∀ x, fl.testBit x = true ↔ ∃ i j, i < n ∧ j < m ∧ (f i j).testBit x = true

/-- The writes hold the words of a 16 × 16 tile. -/
def HoldsGrid (d : TV) (ws : List TW) (w : Nat → Nat → Nat) : Prop := ∀ i j, i < 16 → j < 16 → (d.base + (16 * i + j) * 8, 8, w i j) ∈ ws

theorem holdsGrid_map (d : TV) (w : Nat → Nat → Nat) :
    HoldsGrid d (grid16.map fun p => (d.base + (16 * p.1 + p.2) * 8, 8, w p.1 p.2)) w :=
  fun _ _ hi hj => mem_map_grid16 (fun p => (d.base + (16 * p.1 + p.2) * 8, 8, w p.1 p.2)) hi hj

/-- Flags gathered over the elements of a 16 × 16 tile. -/
theorem testBit_grid16 (f : Nat → Nat → Nat) (x : Nat) :
    (grid16.foldl (fun a p => a ||| f p.1 p.2) 0).testBit x = true ↔ ∃ i j, i < 16 ∧ j < 16 ∧ (f i j).testBit x = true := by
  rw [testBit_foldl_or, Nat.zero_testBit, Bool.false_or, any_grid16]

/-! ## Accumulator elements (R77, R91) -/

theorem accVal_eq (w : Nat) : accVal w = (BitVec.ofNat 56 w).toInt := sextN_eq_toInt w (by decide)
theorem State.accExp_eq (s : State) (c : CoreId) (v : TV) : s.accExp c v = (BitVec.ofNat 16 (s.sread c v.sc 2)).toInt := sextN_eq_toInt _ (by decide)
theorem accPack_eq (x : Int) (nf satm : Bool) :
    accPack x nf satm = (BitVec.ofInt 56 x).toNat + (if nf then 2 ^ 56 else 0) + if satm then 2 ^ 57 else 0 := by
  rw [accPack, wrapN_eq_toNat]
theorem bit_beq_one (x i : Nat) : (bitsN x i i == 1) = x.testBit i := by rw [bitsN_one, ← bit_eq_testBit]; rfl
theorem accNf_eq (w : Nat) : accNf w = w.testBit 56 := bit_beq_one w 56
theorem accSatm_eq (w : Nat) : accSatm w = w.testBit 57 := bit_beq_one w 57
theorem shiftI_eq (x k : Int) : shiftI x k = if 0 ≤ k then x * 2 ^ k.toNat else x / 2 ^ (-k).toNat := by
  rw [shiftI, Int.fdiv_eq_ediv_of_nonneg _ (by positivity)]

/-- The value of an accumulator add clamped to 56 bits (R91). -/
def accCap (x : Int) : Int := max (-(2 ^ 55)) (min (2 ^ 55 - 1) x)
theorem accClamp_eq (x : Int) : accClamp x = (accCap x, accCap x != x) := by
  rw [accClamp, clampI_eq (by decide)]; rfl

theorem testBit_flag (A : Prop) [Decidable A] (n b : Nat) : (if A then 2 ^ n else 0).testBit b = true ↔ A ∧ n = b := by
  by_cases hA : A
  · rw [if_pos hA, Nat.testBit_two_pow]; simp [hA]
  · simp [hA]

section
variable (s : State) (c : CoreId) (d a b : TV) (hasA hasB : Bool) (scal : List Word) (ctx : Nat)

/-! ## tzero (R160) -/

theorem sextN_low (x : Word) : sextN x.toNat 11 = (x.extractLsb' 0 11).toInt := by
  rw [sextN_eq_toInt _ (by decide)]
  congr 1

theorem gives_zero (e : BitVec 11) : s.Gives c d a b hasA hasB scal ctx (.zero e) fun ws fl => fl = 0 ∧ ws.length = 257 ∧ HoldsGrid d ws (fun _ _ => 0)
    ∧ (d.sc, 8, (BitVec.ofInt 16 (if hasA then ((scal.getD 0 0).extractLsb' 0 11).toInt else e.toInt)).toNat) ∈ ws := by
  refine ⟨_, _, rfl, rfl, ?_, fun i j hi hj => List.mem_append_left _ (holdsGrid_map d (fun _ _ => 0) i j hi hj), List.mem_append_right _ ?_⟩
  · rw [List.length_append, List.length_map, length_grid16]; rfl
  · rw [← sextN_low, ← wrapN_eq_toNat, List.mem_singleton]

/-! ## tacc (R162) -/

/-- The sum of an element of tacc, the source aligned to the destination's exponent. -/
def State.accSum (i j : Nat) : Int := accVal (s.accWord c d i j) + shiftI (accVal (s.accWord c a i j)) (s.accExp c a - s.accExp c d)

/-- The word of an element of tacc. -/
def State.accOut (i j : Nat) : Nat :=
  accPack (accCap (s.accSum c d a i j)) ((s.accWord c a i j).testBit 56 || (s.accWord c d i j).testBit 56)
    ((s.accWord c d i j).testBit 57 || accCap (s.accSum c d a i j) != s.accSum c d a i j)

theorem tCompute_acc : s.tCompute c .acc d a b hasA hasB scal ctx =
    (s, .ok (grid16.map fun p => (d.base + (16 * p.1 + p.2) * 8, 8, s.accOut c d a p.1 p.2),
      grid16.foldl (fun f p => f ||| if accCap (s.accSum c d a p.1 p.2) ≠ s.accSum c d a p.1 p.2 then 2 ^ 8 else 0) 0)) := by
  rw [State.tCompute]
  simp only [accClamp_eq, accNf_eq, accSatm_eq, List.map_map, List.foldl_map, bne_iff_ne]
  rfl

theorem gives_acc : s.Gives c d a b hasA hasB scal ctx .acc fun ws fl => ws.length = 256 ∧ HoldsGrid d ws (s.accOut c d a)
    ∧ (fl.testBit 8 = true ↔ ∃ i j, i < 16 ∧ j < 16 ∧ accCap (s.accSum c d a i j) ≠ s.accSum c d a i j) := by
  refine ⟨_, _, tCompute_acc .., by rw [List.length_map, length_grid16], holdsGrid_map d _, ?_⟩
  rw [testBit_grid16 fun i j => if accCap (s.accSum c d a i j) ≠ s.accSum c d a i j then 2 ^ 8 else 0]
  simp only [testBit_flag, and_true]

/-! ## tread (R163) -/

/-- The rounded value of an element of tread, or the canonical NaN of one with NF (R92). -/
def State.readOut (f : FFmt) (i j : Nat) : Nat × Nat :=
  if (s.accWord c a i j).testBit 56 then (f.canon, 2 ^ 4)
  else f.round false false (decide (accVal (s.accWord c a i j) < 0)) (accVal (s.accWord c a i j)).natAbs (s.accExp c a)

/-- An accumulator element as an exact value. -/
theorem accFv_eq (w : Nat) (e : Int) : accFv w e = if w.testBit 56 then .nan false else .fin (decide (accVal w < 0)) (accVal w).natAbs e := by
  rw [accFv, accNf_eq]

/-- What tread makes of an exact value. -/
def readFv (f : FFmt) (v : FV) : Nat × Nat :=
  match v with
  | .nan _ => (f.canon, flNV)
  | v => f.ofValue false false v

theorem readFv_accFv (f : FFmt) (i j : Nat) : readFv f (accFv (s.accWord c a i j) (s.accExp c a)) = s.readOut c a f i j := by
  rw [accFv_eq, State.readOut]
  by_cases h : (s.accWord c a i j).testBit 56 = true
  · rw [if_pos h, if_pos h]; rfl
  · rw [if_neg h, if_neg h]; rfl

theorem tCompute_read (f : FFmt) : s.tCompute c (.read f) d a b hasA hasB scal ctx =
    (s, .ok (grid16.map fun p => (d.off p.1 p.2, fmtBits d.fmt / 8, (s.readOut c a f p.1 p.2).1),
      grid16.foldl (fun x p => x ||| (s.readOut c a f p.1 p.2).2) 0)) := by
  have h : s.tCompute c (.read f) d a b hasA hasB scal ctx =
      (s, .ok ((grid16.map fun p => (p, readFv f (accFv (s.accWord c a p.1 p.2) (s.accExp c a)))).map
          fun q => (d.off q.1.1 q.1.2, fmtBits d.fmt / 8, q.2.1),
        (grid16.map fun p => (p, readFv f (accFv (s.accWord c a p.1 p.2) (s.accExp c a)))).foldl (fun f q => f ||| q.2.2) 0)) := rfl
  rw [h, List.map_map, List.foldl_map]
  simp only [readFv_accFv]
  rfl

theorem gives_read (f : FFmt) : s.Gives c d a b hasA hasB scal ctx (.read f) fun ws fl => ws.length = 256
    ∧ (∀ i j, i < 16 → j < 16 → (d.off i j, fmtBits d.fmt / 8, (s.readOut c a f i j).1) ∈ ws)
    ∧ FlagsOf fl 16 16 fun i j => (s.readOut c a f i j).2 := by
  refine ⟨_, _, tCompute_read .., by rw [List.length_map, length_grid16], fun i j hi hj => ?_,
    fun x => testBit_grid16 (fun i j => (s.readOut c a f i j).2) x⟩
  exact mem_map_grid16 (fun p => (d.off p.1 p.2, fmtBits d.fmt / 8, (s.readOut c a f p.1 p.2).1)) hi hj
end

/-! ## tmma (R91, R161) -/

section
variable (s : State) (c : CoreId) (pa pb : Plane) (ha hb : Bool) (d a b : TV) (i j : Nat)

/-- The exact sum of products of a block, shifted by its scale codes, the destination's exponent and the half-unit bits. -/
def State.mmaTerm (kb : Nat) : Int :=
  shiftI ((List.range 32).foldl (fun p k => p + s.planeElem c a pa false i (32 * kb + k) * s.planeElem c b pb true j (32 * kb + k)) 0)
    ((s.scaleOf c a false i kb : Int) - 127 + (s.scaleOf c b true j kb - 127) - s.accExp c d - (if ha then 1 else 0) - if hb then 1 else 0)

/-- The running sum once a block is added, not clamped. -/
def State.mmaSum (v : Int) (kb : Nat) : Int := v + s.mmaTerm c pa pb ha hb d a b i j kb

/-- A block whose scale code is that of a NaN. -/
def State.mmaNan (kb : Nat) : Bool := decide (s.scaleOf c a false i kb = 255 ∨ s.scaleOf c b true j kb = 255)

/-- One block added to an element: its value, NF, SATM and the flags so far. -/
def State.mmaStep (x : Int × Bool × Bool × Nat) (kb : Nat) : Int × Bool × Bool × Nat :=
  if s.mmaNan c a b i j kb = true then (x.1, true, x.2.2.1, x.2.2.2 ||| flNV)
  else
    let e := s.mmaSum c pa pb ha hb d a b i j x.1 kb
    (accCap e, x.2.1, x.2.2.1 || accCap e != e, x.2.2.2 ||| if accCap e != e then flSAT else 0)

/-- An element once n blocks have been added, in ascending order. -/
def State.mmaRun (n : Nat) : Int × Bool × Bool × Nat :=
  (List.range n).foldl (s.mmaStep c pa pb ha hb d a b i j)
    (accVal (s.accWord c d i j), (s.accWord c d i j).testBit 56, (s.accWord c d i j).testBit 57, 0)

theorem State.mmaRun_succ (n : Nat) :
    s.mmaRun c pa pb ha hb d a b i j (n + 1) = s.mmaStep c pa pb ha hb d a b i j (s.mmaRun c pa pb ha hb d a b i j n) n := by
  rw [State.mmaRun, List.range_succ, List.foldl_append]; rfl

theorem State.mmaElem_eq : s.mmaElem c pa pb ha hb d a b i j =
    (accPack (s.mmaRun c pa pb ha hb d a b i j (a.nb false)).1 (s.mmaRun c pa pb ha hb d a b i j (a.nb false)).2.1
      (s.mmaRun c pa pb ha hb d a b i j (a.nb false)).2.2.1, (s.mmaRun c pa pb ha hb d a b i j (a.nb false)).2.2.2) := by
  have hstep : (fun (x : Int × Bool × Bool × Nat) (kb : Nat) =>
      if s.scaleOf c a false i kb = 255 ∨ s.scaleOf c b true j kb = 255 then (x.1, true, x.2.2.1, x.2.2.2 ||| flNV)
      else
        let (v, sat) := accClamp (x.1 + shiftI ((List.range 32).foldl (fun p k =>
          p + s.planeElem c a pa false i (32 * kb + k) * s.planeElem c b pb true j (32 * kb + k)) 0)
            (((s.scaleOf c a false i kb : Int) - 127) + ((s.scaleOf c b true j kb : Int) - 127) - s.accExp c d
              - ((if ha then 1 else 0) + if hb then 1 else 0)))
        (v, x.2.1, x.2.2.1 || sat, x.2.2.2 ||| (if sat then flSAT else 0))) = s.mmaStep c pa pb ha hb d a b i j := by
    funext x kb
    simp only [State.mmaStep, State.mmaSum, State.mmaNan, decide_eq_true_eq, State.mmaTerm, accClamp_eq, ← sub_sub]
    rfl
  rw [State.mmaElem, State.mmaRun, ← accNf_eq, ← accSatm_eq, ← hstep]

/-- The block added clamps. -/
def State.mmaSat (kb : Nat) : Bool :=
  !s.mmaNan c a b i j kb && accCap (s.mmaSum c pa pb ha hb d a b i j (s.mmaRun c pa pb ha hb d a b i j kb).1 kb)
    != s.mmaSum c pa pb ha hb d a b i j (s.mmaRun c pa pb ha hb d a b i j kb).1 kb

/-- The flags that a block adds: NV of a NaN's scale code, or SAT. -/
theorem State.mmaRun_flags_succ (n : Nat) : (s.mmaRun c pa pb ha hb d a b i j (n + 1)).2.2.2 = (s.mmaRun c pa pb ha hb d a b i j n).2.2.2
    ||| ((if s.mmaNan c a b i j n = true then 2 ^ 4 else 0) ||| if s.mmaSat c pa pb ha hb d a b i j n = true then 2 ^ 8 else 0) := by
  rw [State.mmaRun_succ, State.mmaStep]
  by_cases h : s.mmaNan c a b i j n = true
  · simp [State.mmaSat, h, flNV]
  · simp [State.mmaSat, h, flSAT]

theorem State.testBit_mmaRun_nv (n : Nat) : (s.mmaRun c pa pb ha hb d a b i j n).2.2.2.testBit 4 = true ↔ ∃ kb, kb < n ∧ s.mmaNan c a b i j kb = true := by
  induction n with
  | zero => simp [State.mmaRun]
  | succ n ih =>
    rw [State.mmaRun_flags_succ, Nat.testBit_or, Nat.testBit_or, Bool.or_eq_true, Bool.or_eq_true, ih, testBit_flag, testBit_flag, Nat.exists_lt_succ_right]
    simp

theorem State.testBit_mmaRun_sat (n : Nat) : (s.mmaRun c pa pb ha hb d a b i j n).2.2.2.testBit 8 = true ↔
    ∃ kb, kb < n ∧ s.mmaSat c pa pb ha hb d a b i j kb = true := by
  induction n with
  | zero => simp [State.mmaRun]
  | succ n ih =>
    rw [State.mmaRun_flags_succ, Nat.testBit_or, Nat.testBit_or, Bool.or_eq_true, Bool.or_eq_true, ih, testBit_flag, testBit_flag, Nat.exists_lt_succ_right]
    simp
end

section
variable (s : State) (c : CoreId) (pa pb : Plane) (ha hb : Bool) (d a b : TV) (hasA hasB : Bool) (scal : List Word) (ctx : Nat)

theorem tCompute_mma : s.tCompute c (.mma pa pb ha hb) d a b hasA hasB scal ctx =
    (s, .ok (grid16.map fun p => (d.base + (16 * p.1 + p.2) * 8, 8, (s.mmaElem c pa pb ha hb d a b p.1 p.2).1),
      grid16.foldl (fun f p => f ||| (s.mmaElem c pa pb ha hb d a b p.1 p.2).2) 0)) := by
  rw [State.tCompute]
  simp only [List.map_map, List.foldl_map]
  rfl

/-- The value, NF and SATM of an element once n blocks have been added. -/
def State.mmaAt (i j n : Nat) : Int × Bool × Bool :=
  let r := s.mmaRun c pa pb ha hb d a b i j n
  (r.1, r.2.1, r.2.2.1)

theorem State.mmaAt_zero (i j : Nat) : s.mmaAt c pa pb ha hb d a b i j 0
    = (accVal (s.accWord c d i j), (s.accWord c d i j).testBit 56, (s.accWord c d i j).testBit 57) := by
  simp only [State.mmaAt, State.mmaRun, List.range_zero, List.foldl_nil]

/-- tmma adds the blocks in ascending order, each clamped (R91). -/
theorem State.mmaAt_succ (i j n : Nat) :
    let f := s.mmaAt c pa pb ha hb d a b i j
    let e := s.mmaSum c pa pb ha hb d a b i j (f n).1 n
    f (n + 1) = if s.scaleOf c a false i n = 255 ∨ s.scaleOf c b true j n = 255 then ((f n).1, true, (f n).2.2)
      else (accCap e, (f n).2.1, (f n).2.2 || accCap e != e) := by
  simp only [State.mmaAt, State.mmaRun_succ, State.mmaStep, State.mmaNan, decide_eq_true_eq, apply_ite Prod.fst, apply_ite Prod.snd]
  by_cases h : s.scaleOf c a false i n = 255 ∨ s.scaleOf c b true j n = 255
  · simp only [if_pos h]
  · simp only [if_neg h]

theorem State.mmaSat_iff (i j kb : Nat) :
    let e := s.mmaSum c pa pb ha hb d a b i j (s.mmaAt c pa pb ha hb d a b i j kb).1 kb
    s.mmaSat c pa pb ha hb d a b i j kb = true ↔ s.scaleOf c a false i kb ≠ 255 ∧ s.scaleOf c b true j kb ≠ 255 ∧ accCap e ≠ e := by
  simp [State.mmaSat, State.mmaNan, State.mmaAt, and_assoc]

theorem gives_mma : s.Gives c d a b hasA hasB scal ctx (.mma pa pb ha hb) fun ws fl => ws.length = 256
    ∧ HoldsGrid d ws (fun i j => let r := s.mmaAt c pa pb ha hb d a b i j (a.e0 / 32); accPack r.1 r.2.1 r.2.2)
    ∧ (fl.testBit 4 = true ↔ ∃ i j kb, i < 16 ∧ j < 16 ∧ kb < a.e0 / 32 ∧ (s.scaleOf c a false i kb = 255 ∨ s.scaleOf c b true j kb = 255))
    ∧ (fl.testBit 8 = true ↔ ∃ i j kb, i < 16 ∧ j < 16 ∧ kb < a.e0 / 32 ∧
      let e := s.mmaSum c pa pb ha hb d a b i j (s.mmaAt c pa pb ha hb d a b i j kb).1 kb
      s.scaleOf c a false i kb ≠ 255 ∧ s.scaleOf c b true j kb ≠ 255 ∧ accCap e ≠ e) := by
  have hnb : a.nb false = a.e0 / 32 := rfl
  refine ⟨_, _, tCompute_mma .., by rw [List.length_map, length_grid16], fun i j hi hj => ?_, ?_, ?_⟩
  · have h := holdsGrid_map d (fun i j => (s.mmaElem c pa pb ha hb d a b i j).1) i j hi hj
    simp only [State.mmaElem_eq, hnb] at h ⊢
    exact h
  · rw [testBit_grid16 fun i j => (s.mmaElem c pa pb ha hb d a b i j).2]
    simp only [State.mmaElem_eq, State.testBit_mmaRun_nv, exists_and_left, State.mmaNan, decide_eq_true_eq, hnb]
  · rw [testBit_grid16 fun i j => (s.mmaElem c pa pb ha hb d a b i j).2]
    simp only [State.mmaElem_eq, State.testBit_mmaRun_sat, exists_and_left, State.mmaSat_iff, hnb]
end

end Sys2Proof.Machine
end

section
/-! SUPPORT. What the conversions write: tread.blk, tquant, tdequant, tplane and tunplane (R75, R76, R86, R89, R90, R163 to R167). -/

namespace Sys2Proof.Machine

/-- Tiles of the same extents have the same reduction extent, and the same outer one. -/
theorem extents_congr {v w : TV} (h0 : v.e0 = w.e0) (h1 : v.e1 = w.e1) (kd : Bool) : v.k kd = w.k kd ∧ v.o kd = w.o kd := by
  cases kd
  · exact ⟨h0, h1⟩
  · exact ⟨h1, h0⟩

/-- Flags gathered over the blocks of a tile, given those of each element. -/
theorem flagsOf_overBlocks {d : TV} {kd : Bool} {F : Nat → Nat → List TW × Nat} {g : Nat → Nat → Nat}
    (h : ∀ o kb x, o < d.o kd → kb < d.nb kd → ((F o kb).2.testBit x = true ↔ ∃ k, k < 32 ∧ (g o (32 * kb + k)).testBit x = true)) :
    FlagsOf (overBlocks d kd F).2 (d.o kd) (32 * d.nb kd) g := by
  intro x
  rw [testBit_overBlocks]
  constructor
  · rintro ⟨o, kb, ho, hkb, hx⟩
    obtain ⟨k, hk, hx⟩ := (h o kb x ho hkb).1 hx
    exact ⟨o, 32 * kb + k, ho, by omega, hx⟩
  · rintro ⟨o, r, ho, hr, hx⟩
    have hkb : r / 32 < d.nb kd := by omega
    refine ⟨o, r / 32, ho, hkb, (h o (r / 32) x ho hkb).2 ⟨r % 32, Nat.mod_lt _ (by decide), ?_⟩⟩
    rwa [Nat.div_add_mod]

/-- Flags gathered over 32 elements. -/
theorem testBit_block32 (g : Nat → Nat) (x : Nat) :
    ((List.range 32).foldl (fun f k => f ||| g k) 0).testBit x = true ↔ ∃ k, k < 32 ∧ (g k).testBit x = true := by
  rw [testBit_foldl_or, Nat.zero_testBit, Bool.false_or]
  simp only [List.any_eq_true, List.mem_range]

section
variable (s : State) (c : CoreId) (d a b : TV) (hasA hasB : Bool) (scal : List Word) (ctx : Nat) (pl : Plane) (kd : Bool)

/-! ## Quantisation (R89) -/

/-- The writes and flags of a quantised block. -/
def quantWrites (x : Nat → Nat → Nat → FV) (o kb : Nat) : List TW × Nat :=
  let r := quantBlock pl (block32Of (x o kb))
  (blockWrites d pl kd o kb r.2.1 ++ [scaleWrite d kd o kb r.1], r.2.2)

/-- A tile of blocks holds each of them quantised. -/
theorem quantised_overBlocks (x : Nat → Nat → Nat → FV) : ∃ (code f : Nat → Nat → Nat) (q : Nat → Nat → Nat → Int),
    FlagsOf (overBlocks d kd (quantWrites d pl kd x)).2 (d.o kd) (d.nb kd) f
      ∧ ∀ o kb, o < d.o kd → kb < d.nb kd → HoldsBlock d (overBlocks d kd (quantWrites d pl kd x)).1 pl kd o kb (code o kb) (q o kb)
        ∧ Quantised pl (x o kb) (code o kb) (q o kb) (f o kb) := by
  refine ⟨fun o kb => (quantBlock pl (block32Of (x o kb))).1, fun o kb => (quantBlock pl (block32Of (x o kb))).2.2,
    fun o kb k => (quantBlock pl (block32Of (x o kb))).2.1.getD k 0, fun _ => testBit_overBlocks, fun o kb ho hkb => ⟨?_, quantised_quantBlock pl (x o kb)⟩⟩
  exact holdsBlock_overBlocks (q := fun o kb => (quantBlock pl (block32Of (x o kb))).2.1) (fun o kb => (length_quantBlock pl _).trans (by simp [block32Of])) ho hkb

/-- The element j of block row i of tread.blk: of the first source, of the second where there is one, or zero (R163). -/
def State.readBlkElem (i _kb j : Nat) : FV :=
  if j < 16 then accFv (s.accWord c a i j) (s.accExp c a)
  else if hasB then accFv (s.accWord c b i (j - 16)) (s.accExp c b) else .fin false 0 0

theorem gives_readBlk : s.Gives c d a b hasA hasB scal ctx (.readBlk pl) fun ws fl => ∃ (code f : Nat → Nat → Nat) (q : Nat → Nat → Nat → Int),
    FlagsOf fl (d.o false) (d.nb false) f ∧ ∀ i kb, i < d.o false → kb < d.nb false → HoldsBlock d ws pl false i kb (code i kb) (q i kb)
      ∧ Quantised pl (s.readBlkElem c a b hasB i kb) (code i kb) (q i kb) (f i kb) :=
  ⟨_, _, rfl, quantised_overBlocks d pl false (s.readBlkElem c a b hasB)⟩

/-- Element r of outer index o of a packed tile. -/
def State.packAt (v : TV) (kd : Bool) (o r : Nat) : Nat := s.packElem c v (if kd then r else o) (if kd then o else r)
theorem State.packElem_idx (v : TV) (o r : Nat) : s.packElem c v (idx kd o r).1 (idx kd o r).2 = s.packAt c v kd o r := by
  cases kd <;> rfl

theorem gives_quant (f : FFmt) : s.Gives c d a b hasA hasB scal ctx (.quant f pl kd) fun ws fl => ∃ (code g : Nat → Nat → Nat) (q : Nat → Nat → Nat → Int),
    FlagsOf fl (d.o kd) (d.nb kd) g ∧ ∀ o kb, o < d.o kd → kb < d.nb kd → HoldsBlock d ws pl kd o kb (code o kb) (q o kb)
      ∧ Quantised pl (fun k => f.value (s.packAt c a kd o (32 * kb + k))) (code o kb) (q o kb) (g o kb) := by
  simp only [← State.packElem_idx]
  exact ⟨_, _, rfl, quantised_overBlocks d pl kd fun o kb k => f.value (s.packElem c a (idx kd o (32 * kb + k)).1 (idx kd o (32 * kb + k)).2)⟩

/-! ## Packed results (R166, R167) -/

/-- Packed elements and their flags. -/
theorem gives_packed {k : TKind} (el : Nat → Nat → Nat × Nat) (h : s.tCompute c k d a b hasA hasB scal ctx = (s, .ok (packWrites d fun i1 i0 => (el i1 i0).1,
      (List.range d.e1).foldl (fun x i1 => (List.range d.e0).foldl (fun x i0 => x ||| (el i1 i0).2) x) 0))) :
    s.Gives c d a b hasA hasB scal ctx k fun ws fl => HoldsPacked d ws (fun i1 i0 => (el i1 i0).1) ∧ FlagsOf fl d.e1 d.e0 fun i1 i0 => (el i1 i0).2 :=
  ⟨_, _, h, holdsPacked_packWrites d _, fun _ => testBit_foldl_foldl_or ..⟩

/-- The outer index and the reduction position of packed element (i1, i0). -/
def tilePlace (kd : Bool) (i1 i0 : Nat) : Nat × Nat := if kd then (i0, i1) else (i1, i0)

theorem gives_dequant (f : FFmt) : s.Gives c d a b hasA hasB scal ctx (.dequant f pl kd) fun ws fl =>
    let r (i1 i0 : Nat) : Nat × Nat := dequantElem f (s.scaleOf c a kd (tilePlace kd i1 i0).1 ((tilePlace kd i1 i0).2 / 32))
      (s.planeElem c a pl kd (tilePlace kd i1 i0).1 (tilePlace kd i1 i0).2)
    HoldsPacked d ws (fun i1 i0 => (r i1 i0).1) ∧ FlagsOf fl d.e1 d.e0 fun i1 i0 => (r i1 i0).2 :=
  gives_packed s c d a b hasA hasB scal ctx _ (by cases kd <;> rfl)

/-- A plane integer clamped to the destination's type. -/
def clampTo (sat : Bool) (lo hi v : Int) : Int := if sat then max lo (min hi v) else v

theorem intOut_eq_clampTo (sat sg : Bool) (w : Nat) (v : Int) : intOut sat sg w v =
    ((BitVec.ofInt w (clampTo sat (intMin sg w) (intMax sg w) v)).toNat, if clampTo sat (intMin sg w) (intMax sg w) v = v then 0 else 2 ^ 11) := by
  cases sat
  · simp [intOut, clampTo, wrapN_eq_toNat]
  · simp only [intOut, clampTo, if_true, clampI_eq (intMin_le_intMax sg w), wrapN_eq_toNat]; rfl

theorem gives_unplane (sat : Bool) : s.Gives c d a b hasA hasB scal ctx (.unplane pl kd sat) fun ws fl =>
    let w := fmtBits d.fmt
    let v (i1 i0 : Nat) : Int := s.planeElem c a pl kd (tilePlace kd i1 i0).1 (tilePlace kd i1 i0).2
    let x (i1 i0 : Nat) : Int := clampTo sat (intMin (fmtSigned d.fmt) w) (intMax (fmtSigned d.fmt) w) (v i1 i0)
    HoldsPacked d ws (fun i1 i0 => (BitVec.ofInt w (x i1 i0)).toNat) ∧ FlagsOf fl d.e1 d.e0 fun i1 i0 => if x i1 i0 = v i1 i0 then 0 else 2 ^ 11 := by
  have h := gives_packed s c d a b hasA hasB scal ctx (k := .unplane pl kd sat)
    (fun i1 i0 => intOut sat (fmtSigned d.fmt) (fmtBits d.fmt) (s.planeElem c a pl kd (tilePlace kd i1 i0).1 (tilePlace kd i1 i0).2)) (by cases kd <;> rfl)
  simpa only [intOut_eq_clampTo] using h

/-! ## tplane (R166) -/

/-- A packed integer of a format (R74). -/
theorem intVal_fmtSigned (fmt x : Nat) : intVal (fmtSigned fmt) (fmtBits fmt) x =
    if fmt ≤ 2 then (BitVec.ofNat (fmtBits fmt) x).toInt else (x % 2 ^ fmtBits fmt : Nat) := by
  by_cases h : fmt ≤ 2
  · have hbits : 0 < fmtBits fmt := by interval_cases fmt <;> decide
    rw [if_pos h, fmtSigned, decide_eq_true h, intVal_eq_toInt x hbits]
  · rw [if_neg h, fmtSigned, decide_eq_false h]; rfl

/-- A packed integer of a tile. -/
def State.packInt (o r : Nat) : Int := intVal (fmtSigned a.fmt) (fmtBits a.fmt) (s.packAt c a kd o r)

/-- An integer as a plane integer: wrapped or clamped, with its flag. -/
def planeOf (sat : Bool) (v : Int) : Int × Nat :=
  if sat then (clampI v (planeLim pl).1 (planeLim pl).2.1, if clampI v (planeLim pl).1 (planeLim pl).2.1 = v then 0 else flVSAT)
  else (intVal pl.signed (pl.p1.toNat + 1) (wrapN v (pl.p1.toNat + 1)), 0)

theorem ofInt_planeOf (sat : Bool) (v : Int) : BitVec.ofInt (pl.p1.toNat + 1) (planeOf pl sat v).1
    = BitVec.ofInt (pl.p1.toNat + 1) (clampTo sat (planeLeast pl) (planeGreatest pl) v) := by
  cases sat
  · simp only [planeOf, clampTo, Bool.false_eq_true, if_false]
    rw [ofInt_intVal _ (Nat.succ_pos _), wrapN_eq_toNat, BitVec.ofNat_toNat, BitVec.setWidth_eq]
  · simp only [planeOf, clampTo, if_true, planeLim_eq, clampI_eq (planeLeast_le_planeGreatest pl)]

theorem planeOf_flags (sat : Bool) (v : Int) : (planeOf pl sat v).2 = if clampTo sat (planeLeast pl) (planeGreatest pl) v = v then 0 else 2 ^ 11 := by
  cases sat
  · simp [planeOf, clampTo]
  · simp only [planeOf, clampTo, if_true, planeLim_eq, clampI_eq (planeLeast_le_planeGreatest pl)]; rfl

/-- The writes and flags of a block of tplane. -/
def State.planeWrites (sat : Bool) (o kb : Nat) : List TW × Nat :=
  let rs := (List.range 32).map fun k => planeOf pl sat (s.packInt c a kd o (32 * kb + k))
  (blockWrites d pl kd o kb (rs.map Prod.fst) ++ [scaleWrite d kd o kb 127], rs.foldl (fun f r => f ||| r.2) 0)

theorem tCompute_plane (sat : Bool) : s.tCompute c (.plane pl kd sat) d a b hasA hasB scal ctx = (s, .ok (overBlocks d kd (s.planeWrites c d a pl kd sat))) := by
  cases kd <;> rfl

theorem gives_plane (sat : Bool) : s.Gives c d a b hasA hasB scal ctx (.plane pl kd sat) fun ws fl =>
    let q (o r : Nat) : Int := clampTo sat (planeLeast pl) (planeGreatest pl) (s.packInt c a kd o r)
    (∀ o kb, o < d.o kd → kb < d.nb kd → HoldsBlock d ws pl kd o kb 127 fun k => q o (32 * kb + k))
    ∧ FlagsOf fl (d.o kd) (32 * d.nb kd) fun o r => if q o r = s.packInt c a kd o r then 0 else 2 ^ 11 := by
  refine ⟨_, _, tCompute_plane .., fun o kb ho hkb => ?_, flagsOf_overBlocks fun o kb x _ _ => ?_⟩
  · have h := holdsBlock_overBlocks (d := d) (kd := kd) (pl := pl) (code := fun _ _ => 127) (fl := fun o kb => (s.planeWrites c d a pl kd sat o kb).2)
      (q := fun o kb => ((List.range 32).map fun k => planeOf pl sat (s.packInt c a kd o (32 * kb + k))).map Prod.fst) (by simp) ho hkb
    refine HoldsBlock.congr h fun k hk => ?_
    rw [← ofInt_planeOf]
    simp [hk]
  · simp only [State.planeWrites, List.foldl_map, ← planeOf_flags]
    exact testBit_block32 (fun k => (planeOf pl sat (s.packInt c a kd o (32 * kb + k))).2) x
end

end Sys2Proof.Machine
end

section
/-! SUPPORT. What tcbdec writes, with the shell table in the core's own slice (R93, R168). -/

namespace Sys2Proof.Machine

/-! ## Bytes of the slice -/

theorem length_readBytes (m : Memory) (k n : Nat) : (m.readBytes k n).length = n := by
  induction n generalizing k with
  | zero => rfl
  | succ n ih => rw [Memory.readBytes, List.length_cons, ih]

theorem leNat_lt_pow_length (bs : List Byte) : leNat bs < 256 ^ bs.length := by
  induction bs with
  | nil => exact Nat.one_pos
  | cons x bs ih =>
    have hx := x.isLt
    rw [leNat, List.length_cons, Nat.pow_succ]
    omega

theorem State.sread_lt (s : State) (c : CoreId) (off n : Nat) : s.sread c off n < 256 ^ n := by
  have h := leNat_lt_pow_length (s.mem.readBytes (sliceKey c off) n)
  rwa [length_readBytes] at h

/-! ## The shell table -/

/-- A read of the core's own slice. -/
theorem State.readPlain_own {s : State} {q : Asker} {ctx off n : Nat} {super : Bool} {a : Word} (hslice : a.getLsbD 63 = true) (hform : mformOk a = true)
    (hat : s.sliceOf q.core a = some (q.core, off)) (hmay : s.sliceAllowed super ctx q.core = true) (hoff : off + n ≤ 131072) :
    s.readPlain q ctx super a n = (s, .ok (s.sread q.core off n)) := by
  have hwait : s.waitsAt q.core ctx a = false := by simp [State.waitsAt, hslice, hat]
  have hplace : s.sliceAt q ctx super a n = .ok (q.core, off) := by simp [State.sliceAt, hat, hmay, hoff]
  simp [State.readPlain, hwait, State.readAt, hform, hslice, hplace]

/-- The table of words read, where every read succeeds and changes nothing. -/
theorem State.shellRead_ok {s : State} {q : Asker} {ctx : Nat} {base : Word} {w : Nat → Nat} (ns : List Nat) (m : SMap Nat)
    (h : ∀ n, n ∈ ns → s.readPlain q ctx (ctx == 0) (base + BitVec.ofNat 64 (4 * n)) 4 = (s, .ok (w n))) :
    ∃ tab, s.shellRead q ctx base ns m = (s, .ok tab) ∧ ∀ n, tab.get 0 n = if n ∈ ns then w n else m.get 0 n := by
  induction ns generalizing m with
  | nil => exact ⟨m, rfl, fun n => by simp⟩
  | cons x ns ih =>
    obtain ⟨tab, hrun, hget⟩ := ih (m.set x (w x)) fun n hn => h n (List.mem_cons_of_mem _ hn)
    refine ⟨tab, ?_, fun n => ?_⟩
    · simp only [State.shellRead, h x List.mem_cons_self, hrun]
    · rw [hget, SMap.get_set]
      by_cases hn : n ∈ ns
      · simp [hn]
      · by_cases hx : n = x
        · simp [hx]
        · simp [hn, hx]

/-! ## A code (R93) -/

/-- Half-unit lane l of a code with its base vector's word, not limited. -/
def cbLane (w x l : Nat) : Int :=
  let m : Int := (w / 2 ^ (4 * l) % 16 + x % 2 : Nat)
  if (if l < 7 then x.testBit (l + 1) else ((List.range 7).countP fun i => x.testBit (i + 1)) % 2 == 1) then -m else m

theorem foldl_bits_eq_countP (x n : Nat) : (List.range n).foldl (fun k l => k + bitsN x (l + 1) (l + 1)) 0 = (List.range n).countP fun i => x.testBit (i + 1) := by
  induction n with
  | zero => rfl
  | succ n ih =>
    rw [List.range_succ, List.foldl_append, List.countP_append, ih, List.foldl_cons, List.foldl_nil, bitsN_one, List.countP_singleton, ← bit_eq_testBit]
    have h := Nat.mod_lt (x / 2 ^ (n + 1)) Nat.two_pos
    simp only [decide_eq_true_eq]
    split_ifs
    · omega
    · omega

theorem bitsN_nibble (w l : Nat) : bitsN w (4 * l + 3) (4 * l) = w / 2 ^ (4 * l) % 16 := by
  rw [bitsN, show 4 * l + 3 + 1 - 4 * l = 4 by omega]; rfl

/-- The eight lanes of a code, at most 15 half-units, and NX where one is limited. -/
theorem cbDecode_eq (x w : Nat) : cbDecode x w = ((List.range 8).map fun l => min 15 (cbLane w x l),
    (List.range 8).foldl (fun f l => f ||| if 15 < cbLane w x l then 1 else 0) 0) := by
  have hlane (l : Nat) : (if 15 < cbLane w x l then ((15 : Int), flNX) else (cbLane w x l, 0)) = (min 15 (cbLane w x l), if 15 < cbLane w x l then 1 else 0) := by
    split_ifs with h
    · rw [min_eq_left h.le]; rfl
    · rw [min_eq_right (not_lt.1 h)]
  have hv (l : Nat) : (if (if l < 7 then bitsN x (l + 1) (l + 1) else ((List.range 7).foldl (fun n l => n + bitsN x (l + 1) (l + 1)) 0) % 2) = 1
      then -((bitsN w (4 * l + 3) (4 * l) + x % 2 : Nat) : Int) else ((bitsN w (4 * l + 3) (4 * l) + x % 2 : Nat) : Int)) = cbLane w x l := by
    rw [foldl_bits_eq_countP, bitsN_nibble, bitsN_one, cbLane]
    by_cases hl : l < 7
    · simp only [if_pos hl, ← bit_eq_testBit, decide_eq_true_eq]
    · simp only [if_neg hl, beq_iff_eq]
  simp only [cbDecode, hv, hlane, List.map_map, List.foldl_map, Function.comp_def]

theorem length_cbDecode (x w : Nat) : (cbDecode x w).1.length = 8 := by rw [cbDecode_eq, List.length_map, List.length_range]

/-! ## The tile -/

section
variable (s : State) (c : CoreId) (d a b : TV) (hasA hasB : Bool) (scal : List Word) (ctx : Nat) (pl : Plane) (kd : Bool)

/-- Code x of outer index o. -/
def State.cbCode (o x : Nat) : Nat := s.sread c (a.base + (o * (a.k kd / 8) + x) * 2) 2

theorem State.cbCode_base_lt (o x : Nat) : s.cbCode c a kd o x / 256 < 256 := by
  have h := s.sread_lt c (a.base + (o * (a.k kd / 8) + x) * 2) 2
  exact Nat.div_lt_of_lt_mul h

/-- The base vectors of a tile's codes. -/
def State.cbBases : List Nat := ((List.range (a.o kd)).flatMap fun o => (List.range (a.k kd / 8)).map fun x => s.cbCode c a kd o x / 256).eraseDups

theorem State.mem_cbBases {n : Nat} : n ∈ s.cbBases c a kd ↔ ∃ o x, o < a.o kd ∧ x < a.k kd / 8 ∧ s.cbCode c a kd o x / 256 = n := by
  simp only [State.cbBases, List.mem_eraseDups, List.mem_flatMap, List.mem_map, List.mem_range]
  exact ⟨fun ⟨o, ho, x, hx, h⟩ => ⟨o, x, ho, hx, h⟩, fun ⟨o, x, ho, hx, h⟩ => ⟨o, ho, x, hx, h⟩⟩

/-- The writes and flags of a block of tcbdec with a table of base vectors. -/
def State.cbWrites (tab : SMap Nat) (o kb : Nat) : List TW × Nat :=
  let rs := (List.range 4).map fun q => cbDecode (s.cbCode c a kd o (4 * kb + q)) (tab.get 0 (s.cbCode c a kd o (4 * kb + q) / 256))
  (blockWrites d pl kd o kb (rs.flatMap Prod.fst) ++ [scaleWrite d kd o kb (s.scaleOf c a kd o kb)], rs.foldl (fun f r => f ||| r.2) 0)

theorem tCompute_cbdec {tab : SMap Nat}
    (h : s.shellRead ⟨c, ((s.core c).mcur.map Cmd.retry).getD none⟩ ctx (scal.getD 3 0) (s.cbBases c a kd) [] = (s, .ok tab)) :
    s.tCompute c (.cbdec pl kd) d a b hasA hasB scal ctx = (s, .ok (overBlocks d kd (s.cbWrites c d a pl kd tab))) := by
  simp only [State.cbBases, State.cbCode] at h
  rw [State.tCompute]
  simp only [h]
  rfl

/-- Half-unit k of outer index o, not limited, with the table's words at an offset of the slice. -/
def State.cbElem (off o k : Nat) : Int :=
  let x := s.cbCode c a kd o (k / 8)
  cbLane (s.sread c (off + 4 * (x / 256)) 4) x (k % 8)

/-- The half-units and flags of a code with the table's words at an offset of the slice. -/
def State.cbCodeOut (off o x : Nat) : List Int × Nat :=
  ((List.range 8).map fun l => min 15 (cbLane (s.sread c (off + 4 * (s.cbCode c a kd o x / 256)) 4) (s.cbCode c a kd o x) l),
    (List.range 8).foldl (fun f l => f ||| if 15 < cbLane (s.sread c (off + 4 * (s.cbCode c a kd o x / 256)) 4) (s.cbCode c a kd o x) l then 1 else 0) 0)

theorem State.cbElem_add (off o x : Nat) {l : Nat} (hl : l < 8) : s.cbElem c a kd off o (8 * x + l)
    = cbLane (s.sread c (off + 4 * (s.cbCode c a kd o x / 256)) 4) (s.cbCode c a kd o x) l := by
  rw [State.cbElem, show (8 * x + l) / 8 = x by omega, show (8 * x + l) % 8 = l by omega]

theorem State.getD_cbCodeOut (off o x : Nat) {l : Nat} (hl : l < 8) : (s.cbCodeOut c a kd off o x).1.getD l 0 = min 15 (s.cbElem c a kd off o (8 * x + l)) := by
  rw [State.cbElem_add _ _ _ _ _ _ _ hl, State.cbCodeOut]
  simp [hl]

theorem State.testBit_cbCodeOut (off o x y : Nat) : (s.cbCodeOut c a kd off o x).2.testBit y = true
    ↔ ∃ l, l < 8 ∧ (if 15 < s.cbElem c a kd off o (8 * x + l) then 1 else 0).testBit y = true := by
  rw [State.cbCodeOut, testBit_foldl_or, Nat.zero_testBit, Bool.false_or]
  simp only [List.any_eq_true, List.mem_range]
  exact exists_congr fun l => and_congr_right fun hl => by rw [State.cbElem_add _ _ _ _ _ _ _ hl]

/-- A block of tcbdec, its four codes decoded. -/
theorem State.cbWrites_eq (tab : SMap Nat) (o kb : Nat) : s.cbWrites c d a pl kd tab o kb =
    (blockWrites d pl kd o kb ((List.range 4).flatMap fun q => (cbDecode (s.cbCode c a kd o (4 * kb + q)) (tab.get 0 (s.cbCode c a kd o (4 * kb + q) / 256))).1)
        ++ [scaleWrite d kd o kb (s.scaleOf c a kd o kb)],
      (List.range 4).foldl (fun f q => f ||| (cbDecode (s.cbCode c a kd o (4 * kb + q)) (tab.get 0 (s.cbCode c a kd o (4 * kb + q) / 256))).2) 0) := by
  rw [State.cbWrites, List.flatMap_map, List.foldl_map]

theorem gives_cbdec (off : Nat) (hoff : off + 1024 ≤ 131072) (hmay : s.sliceAllowed (ctx == 0) ctx c = true)
    (hat : ∀ n, n < 256 → let x := scal.getD 3 0 + BitVec.ofNat 64 (4 * n)
      x.getLsbD 63 = true ∧ mformOk x = true ∧ s.sliceOf c x = some (c, off + 4 * n)) :
    s.Gives c d a b hasA hasB scal ctx (.cbdec pl kd) fun ws fl => a.e0 = d.e0 → a.e1 = d.e1 →
      (∀ o kb, o < d.o kd → kb < d.nb kd → HoldsBlock d ws pl kd o kb (s.sread c (a.sc + o * d.nb kd + kb) 1) fun k => min 15 (s.cbElem c a kd off o (32 * kb + k)))
      ∧ FlagsOf fl (d.o kd) (32 * d.nb kd) fun o k => if 15 < s.cbElem c a kd off o k then 1 else 0 := by
  obtain ⟨tab, hrun, hget⟩ := s.shellRead_ok (q := ⟨c, ((s.core c).mcur.map Cmd.retry).getD none⟩) (ctx := ctx) (base := scal.getD 3 0)
    (w := fun n => s.sread c (off + 4 * n) 4) (s.cbBases c a kd) [] fun n hn => by
      obtain ⟨o, x, -, -, hx⟩ := (s.mem_cbBases c a kd).1 hn
      have hn' : n < 256 := hx ▸ s.cbCode_base_lt c a kd o x
      obtain ⟨h63, hform, hplace⟩ := hat n hn'
      exact State.readPlain_own h63 hform hplace hmay (by omega)
  refine ⟨_, _, tCompute_cbdec s c d a b hasA hasB scal ctx pl kd hrun, fun h0 h1 => ?_⟩
  obtain ⟨hlen, hout⟩ := extents_congr h0 h1 kd
  have hcode {o kb q : Nat} (ho : o < d.o kd) (hkb : kb < d.nb kd) (hq : q < 4) :
      cbDecode (s.cbCode c a kd o (4 * kb + q)) (tab.get 0 (s.cbCode c a kd o (4 * kb + q) / 256)) = s.cbCodeOut c a kd off o (4 * kb + q) := by
    have hx : 4 * kb + q < a.k kd / 8 := by
      have hkb' : kb < d.k kd / 32 := hkb
      omega
    rw [hget, if_pos ((s.mem_cbBases c a kd).2 ⟨o, _, hout ▸ ho, hx, rfl⟩), cbDecode_eq]; rfl
  constructor
  · intro o kb ho hkb
    have hnb : a.nb kd = d.nb kd := congrArg (· / 32) hlen
    have hscale : s.sread c (a.sc + o * d.nb kd + kb) 1 = s.scaleOf c a kd o kb := by rw [State.scaleOf, hnb]
    rw [hscale, funext₂ (s.cbWrites_eq c d a pl kd tab)]
    refine HoldsBlock.congr (holdsBlock_overBlocks (fun o kb => length_flatMap_range (fun q => length_cbDecode _ _) 4) ho hkb) fun k hk => congrArg _ ?_
    have hk8 : k / 8 < 4 := by omega
    have hl := Nat.mod_lt k (show 8 > 0 by decide)
    calc _ = ((List.range 4).flatMap fun q => (cbDecode (s.cbCode c a kd o (4 * kb + q)) (tab.get 0 (s.cbCode c a kd o (4 * kb + q) / 256))).1).getD
            (k / 8 * 8 + k % 8) 0 := by rw [Nat.div_add_mod']
      _ = (s.cbCodeOut c a kd off o (4 * kb + k / 8)).1.getD (k % 8) 0 := by
        rw [getD_flatMap_range (fun q => length_cbDecode _ _) hk8 hl, hcode ho hkb hk8]
      _ = min 15 (s.cbElem c a kd off o (32 * kb + k)) := by
        rw [State.getD_cbCodeOut _ _ _ _ _ _ _ hl, show 8 * (4 * kb + k / 8) + k % 8 = 32 * kb + k by omega]
  · refine flagsOf_overBlocks fun o kb y ho hkb => ?_
    rw [State.cbWrites_eq, testBit_foldl_or, Nat.zero_testBit, Bool.false_or]
    simp only [List.any_eq_true, List.mem_range]
    constructor
    · rintro ⟨q, hq, hy⟩
      rw [hcode ho hkb hq, State.testBit_cbCodeOut] at hy
      obtain ⟨l, hl, hy⟩ := hy
      exact ⟨8 * q + l, by omega, by rwa [show 32 * kb + (8 * q + l) = 8 * (4 * kb + q) + l by ring]⟩
    · rintro ⟨k, hk, hy⟩
      have hq : k / 8 < 4 := by omega
      refine ⟨k / 8, hq, ?_⟩
      rw [hcode ho hkb hq, State.testBit_cbCodeOut]
      exact ⟨k % 8, Nat.mod_lt _ (by decide), by rwa [show 8 * (4 * kb + k / 8) + k % 8 = 32 * kb + k by omega]⟩
end

end Sys2Proof.Machine
end

section
/-! SUPPORT. What thad writes: the stages of the transform, its constant and the keyed signs (R95 to R97, R169). -/

namespace Sys2Proof.Machine

/-! ## A block of the transform -/

/-- The sign of a keyed position flipped; a NaN stays what it is (R95). -/
theorem hadSign_eq (neg : Bool) (x : Nat) :
    hadSign neg x = if neg = true ∧ (FFmt.value .f32 x).isNan = false then (if x < 2 ^ 31 then x + 2 ^ 31 else x - 2 ^ 31) else x := by
  simp only [hadSign, Bool.and_eq_true, Bool.not_eq_true']

theorem keyedNeg_mod (seed : Word) (b k : Nat) : keyedNeg seed (b % 2 ^ 32) k = (mix64 (seed ^^^ BitVec.ofNat 64 (b % 2 ^ 32 * 2 ^ 32 + k))).getLsbD 63 := by
  rw [keyedNeg, Nat.mod_mod]

/-- The keyed sign of position k of a block (R95). -/
theorem hadSign_keyedNeg (seed : Word) (b k x : Nat) : hadSign (keyedNeg seed (b % 2 ^ 32) k) x =
    if (mix64 (seed ^^^ BitVec.ofNat 64 (b % 2 ^ 32 * 2 ^ 32 + k))).getLsbD 63 = true ∧ (FFmt.value .f32 x).isNan = false then
      (if x < 2 ^ 31 then x + 2 ^ 31 else x - 2 ^ 31) else x := by
  rw [hadSign_eq, keyedNeg_mod]

section
variable (inv : Bool) (seed : Word) (b : Nat) (x : Nat → Nat)

/-- A block of 32 elements and its flags after n stages. -/
def hadAt : Nat → List (Nat × Nat)
  | 0 => (List.range 32).map fun k => (if inv then x k else hadSign (keyedNeg seed b k) (x k), 0)
  | n + 1 => hadStage (2 ^ n) (hadAt n)

/-- The product of a transformed element with the constant (R97). -/
def hadScale (v : Nat) : Nat × Nat := FFmt.mulR .f32 false false (FFmt.value .f32 v) (FFmt.value .f32 0x3E3504F3)

/-- Element k of a block's result. -/
def hadOut (k : Nat) : Nat × Nat :=
  let e := (hadAt inv seed b x 5).getD k (0, 0)
  (if inv then hadSign (keyedNeg seed b k) (hadScale e.1).1 else (hadScale e.1).1, e.2 ||| (hadScale e.1).2)

theorem length_hadAt (n : Nat) : (hadAt inv seed b x n).length = 32 := by
  cases n <;> simp [hadAt, hadStage]

/-- A list of 32 by its elements. -/
theorem eq_map_range_getD {α : Type} {v : List α} (h : v.length = 32) (z : α) : v = (List.range 32).map fun k => v.getD k z := by
  apply List.ext_getElem
  · simp [h]
  · intro i h1 h2
    simp [h1]

theorem map_of_length {α β : Type} {v : List α} (h : v.length = 32) (z : α) (f : α → β) : v.map f = (List.range 32).map fun k => f (v.getD k z) := by
  conv_lhs => rw [eq_map_range_getD h z]
  exact List.map_map

theorem map_zipIdx_of_length {α β : Type} {v : List α} (h : v.length = 32) (z : α) (f : α × Nat → β) :
    v.zipIdx.map f = (List.range 32).map fun k => f (v.getD k z, k) := by
  rw [zipIdx_eq_map_range v z, h, List.map_map]; rfl

theorem foldl_hadStage : [1, 2, 4, 8, 16].foldl (fun v h => hadStage h v) (hadAt inv seed b x 0) = hadAt inv seed b x 5 := by
  simp only [List.foldl_cons, List.foldl_nil, hadAt]
  norm_num

theorem hadBlock_eq : hadBlock inv seed b ((List.range 32).map x) = (List.range 32).map (hadOut inv seed b x) := by
  have hlen : ((List.range 32).map fun k => (x k, 0)).length = 32 := by simp
  have hscale : ((hadAt inv seed b x 5).map fun e => ((hadScale e.1).1, e.2 ||| (hadScale e.1).2)) = (List.range 32).map fun k =>
      let e := (hadAt inv seed b x 5).getD k (0, 0); ((hadScale e.1).1, e.2 ||| (hadScale e.1).2) := map_of_length (length_hadAt inv seed b x 5) (0, 0) _
  cases inv
  · have hsigns : (((List.range 32).map fun k => (x k, 0)).zipIdx.map fun e => (hadSign (keyedNeg seed b e.2) e.1.1, e.1.2)) = hadAt false seed b x 0 := by
      rw [map_zipIdx_of_length hlen (0, 0)]
      exact List.map_congr_left fun k hk => by simp [List.mem_range.1 hk]
    rw [hadBlock]
    simp only [List.map_map, Function.comp_def, Bool.false_eq_true, if_false]
    rw [hsigns, foldl_hadStage]
    exact hscale
  · have hstages : [1, 2, 4, 8, 16].foldl (fun v h => hadStage h v) ((List.range 32).map fun k => (x k, 0)) = hadAt true seed b x 5 :=
      foldl_hadStage true seed b x
    rw [hadBlock]
    simp only [List.map_map, Function.comp_def, if_true]
    rw [hstages]
    have h := congrArg (fun v : List (Nat × Nat) => v.zipIdx.map fun e => (hadSign (keyedNeg seed b e.2) e.1.1, e.1.2)) hscale
    refine h.trans ?_
    rw [map_zipIdx_of_length (by simp) (0, 0)]
    exact List.map_congr_left fun k hk => by simp [List.mem_range.1 hk, hadOut]

theorem hadAt_zero {k : Nat} (hk : k < 32) : (hadAt inv seed b x 0).getD k (0, 0) = (if inv then x k else hadSign (keyedNeg seed b k) (x k), 0) := by
  simp [hadAt, hk]

/-- A stage of the transform: sums and differences over a stride of 2 ^ n. -/
theorem hadAt_succ (n : Nat) {k : Nat} (hk : k < 32) :
    let v := hadAt inv seed b x n
    let j := if k / 2 ^ n % 2 = 0 then k else k - 2 ^ n
    let p := v.getD j (0, 0)
    let q := v.getD (j + 2 ^ n) (0, 0)
    let r := FFmt.addV .f32 false false (FFmt.value .f32 p.1) (if j = k then FFmt.value .f32 q.1 else (FFmt.value .f32 q.1).negate)
    (hadAt inv seed b x (n + 1)).getD k (0, 0) = (r.1, p.2 ||| q.2 ||| r.2) := by
  simp only [hadAt, hadStage]
  simp [hk, eq_comm]
end

/-! ## The tile -/

section
variable (s : State) (c : CoreId) (d a b : TV) (hasA hasB : Bool) (scal : List Word) (ctx : Nat) (inv kd : Bool)

/-- Element k of block kb of outer index o of thad's result. -/
def State.hadElem (o kb k : Nat) : Nat × Nat :=
  hadOut inv (scal.getD 1 0) (((scal.getD 2 0).toNat + kb) % 2 ^ 32) (fun k => s.packAt c a kd o (32 * kb + k)) k

/-- Element k of block kb of outer index o after n stages of thad, with its flags. -/
def State.hadTile (o kb n k : Nat) : Nat × Nat :=
  (hadAt inv (scal.getD 1 0) (((scal.getD 2 0).toNat + kb) % 2 ^ 32) (fun k => s.packAt c a kd o (32 * kb + k)) n).getD k (0, 0)

theorem State.hadTile_zero (o kb : Nat) {k : Nat} (hk : k < 32) : s.hadTile c a scal inv kd o kb 0 k =
    (if inv then s.packAt c a kd o (32 * kb + k)
      else hadSign (keyedNeg (scal.getD 1 0) (((scal.getD 2 0).toNat + kb) % 2 ^ 32) k) (s.packAt c a kd o (32 * kb + k)), 0) := hadAt_zero _ _ _ _ hk

theorem State.hadTile_succ (o kb n : Nat) {k : Nat} (hk : k < 32) :
    let v := s.hadTile c a scal inv kd o kb n
    let j := if k / 2 ^ n % 2 = 0 then k else k - 2 ^ n
    let y := FFmt.value .f32 (v (j + 2 ^ n)).1
    let r := FFmt.addV .f32 false false (FFmt.value .f32 (v j).1) (if j = k then y else y.negate)
    s.hadTile c a scal inv kd o kb (n + 1) k = (r.1, (v j).2 ||| (v (j + 2 ^ n)).2 ||| r.2) := hadAt_succ _ _ _ _ n hk

theorem State.hadElem_eq (o kb k : Nat) : s.hadElem c a scal inv kd o kb k =
    (if inv then hadSign (keyedNeg (scal.getD 1 0) (((scal.getD 2 0).toNat + kb) % 2 ^ 32) k) (hadScale (s.hadTile c a scal inv kd o kb 5 k).1).1
      else (hadScale (s.hadTile c a scal inv kd o kb 5 k).1).1,
      (s.hadTile c a scal inv kd o kb 5 k).2 ||| (hadScale (s.hadTile c a scal inv kd o kb 5 k).1).2) := rfl

/-- The blocks of thad's result. -/
def State.hadBlocks : List (List (Nat × Nat)) :=
  (List.range (a.o kd)).flatMap fun o => (List.range (a.nb kd)).map fun kb => (List.range 32).map (s.hadElem c a scal inv kd o kb)

/-- The flags gathered over blocks. -/
def hadFlags (l : List (List (Nat × Nat))) : Nat := l.foldl (fun f y => y.foldl (fun f e => f ||| e.2) f) 0

theorem tCompute_had : s.tCompute c (.had inv kd) d a b hasA hasB scal ctx =
    (s, .ok (packWrites d fun i1 i0 => (((s.hadBlocks c a scal inv kd).getD ((idx kd i1 i0).1 * a.nb kd + (idx kd i1 i0).2 / 32) []).getD ((idx kd i1 i0).2 % 32) (0, 0)).1,
      hadFlags (s.hadBlocks c a scal inv kd))) := by
  have hblock (o kb : Nat) : hadBlock inv (scal.getD 1 0) (((scal.getD 2 0).toNat + kb) % 2 ^ 32)
      ((List.range 32).map fun k => s.packElem c a (idx kd o (32 * kb + k)).1 (idx kd o (32 * kb + k)).2) = (List.range 32).map (s.hadElem c a scal inv kd o kb) := by
    simp only [State.packElem_idx, hadBlock_eq]; rfl
  rw [State.tCompute]
  simp only [hblock]
  rfl

theorem State.getD_hadBlocks {o kb : Nat} (ho : o < a.o kd) (hkb : kb < a.nb kd) :
    (s.hadBlocks c a scal inv kd).getD (o * a.nb kd + kb) [] = (List.range 32).map (s.hadElem c a scal inv kd o kb) := by
  rw [State.hadBlocks, getD_flatMap_range (fun _ => by simp) ho hkb]
  simp [hkb]

theorem State.testBit_hadBlocks (x : Nat) : (hadFlags (s.hadBlocks c a scal inv kd)).testBit x = true
    ↔ ∃ o r, o < a.o kd ∧ r < 32 * a.nb kd ∧ (s.hadElem c a scal inv kd o (r / 32) (r % 32)).2.testBit x = true := by
  rw [hadFlags, testBit_foldl_of_step (p := fun y : List (Nat × Nat) => y.any fun e => e.2.testBit x) fun f y => testBit_foldl_or ..]
  simp only [Nat.zero_testBit, Bool.false_or, State.hadBlocks, List.any_flatMap, List.any_map, List.any_eq_true, List.mem_range, Function.comp]
  constructor
  · rintro ⟨o, ho, kb, hkb, k, hk, hx⟩
    exact ⟨o, 32 * kb + k, ho, by omega, by rwa [show (32 * kb + k) / 32 = kb by omega, show (32 * kb + k) % 32 = k by omega]⟩
  · rintro ⟨o, r, ho, hr, hx⟩
    exact ⟨o, ho, r / 32, by omega, r % 32, Nat.mod_lt _ (by decide), hx⟩

theorem gives_had (h0 : a.e0 = d.e0) (h1 : a.e1 = d.e1) (h32 : d.k kd % 32 = 0) : s.Gives c d a b hasA hasB scal ctx (.had inv kd) fun ws fl =>
    HoldsPacked d ws (fun i1 i0 => (s.hadElem c a scal inv kd (tilePlace kd i1 i0).1 ((tilePlace kd i1 i0).2 / 32) ((tilePlace kd i1 i0).2 % 32)).1)
    ∧ FlagsOf fl (d.o kd) (32 * d.nb kd) fun o r => (s.hadElem c a scal inv kd o (r / 32) (r % 32)).2 := by
  obtain ⟨hlen, hout⟩ := extents_congr h0 h1 kd
  have hnb : a.nb kd = d.nb kd := congrArg (· / 32) hlen
  refine ⟨_, _, tCompute_had .., HoldsPacked.congr (holdsPacked_packWrites d _) fun i1 i0 hi1 hi0 => ?_, fun x => ?_⟩
  · obtain ⟨ho, hk⟩ : (tilePlace kd i1 i0).1 < d.o kd ∧ (tilePlace kd i1 i0).2 < d.k kd := by cases kd <;> simp [tilePlace, TV.o, TV.k, hi1, hi0]
    have hkb : (tilePlace kd i1 i0).2 / 32 < d.nb kd := by rw [TV.nb]; omega
    rw [show idx kd i1 i0 = tilePlace kd i1 i0 from rfl, State.getD_hadBlocks _ _ _ _ _ _ (hout ▸ ho) (hnb ▸ hkb)]
    simp [Nat.mod_lt (tilePlace kd i1 i0).2 (show 0 < 32 by decide)]
  · rw [State.testBit_hadBlocks, hout, hnb]
end

end Sys2Proof.Machine
end

section
/-! SUPPORT. What ttopk writes: the order of ranks, and the elements put into it (R170). -/

namespace Sys2Proof.Machine

/-! ## The order of values -/

/-- A finite value as a rational number. -/
def signedRat (n : Bool) (m : Nat) (e : Int) : ℚ := if n then -scaledRat m e else scaledRat m e

theorem signedScale_mul (n : Bool) (m : Nat) {e k : Int} (h : k ≤ e) : (signedScale n m (e - k).toNat : ℚ) * 2 ^ k = signedRat n m e := by
  cases n
  · simpa [signedScale, signedRat] using mul_two_zpow_sub m h
  · simpa [signedScale, signedRat] using mul_two_zpow_sub m h

theorem signedRat_not (n : Bool) (m : Nat) (e : Int) : signedRat (!n) m e = -signedRat n m e := by cases n <;> simp [signedRat]

theorem finSum_lt_iff (n1 : Bool) (m1 : Nat) (e1 : Int) (n2 : Bool) (m2 : Nat) (e2 : Int) :
    (finSum n1 m1 e1 (!n2) m2 e2).1 < 0 ↔ signedRat n1 m1 e1 < signedRat n2 m2 e2 := by
  have hmin : (if e1 ≤ e2 then e1 else e2) = min e1 e2 := (min_def ..).symm
  have hpos : (0 : ℚ) < 2 ^ min e1 e2 := by positivity
  have hsum : ((finSum n1 m1 e1 (!n2) m2 e2).1 : ℚ) * 2 ^ min e1 e2 = signedRat n1 m1 e1 - signedRat n2 m2 e2 := by
    simp only [finSum, hmin]
    push_cast
    rw [add_mul, signedScale_mul _ _ (min_le_left ..), signedScale_mul _ _ (min_le_right ..), signedRat_not, sub_eq_add_neg]
  rw [← sub_neg (a := signedRat n1 m1 e1), ← hsum, mul_neg_iff]
  simp [hpos, hpos.not_gt]

/-- The place of a value among all: a NaN first, then minus infinity, the finite values and infinity. -/
def FV.rank : FV → ℤ ×ₗ ℚ
  | .nan _ => toLex (0, 0)
  | .inf true => toLex (1, 0)
  | .fin n m e => toLex (2, signedRat n m e)
  | .inf false => toLex (3, 0)

theorem better_iff_rank (x y : FV) : (if y.isNan then !x.isNan else FV.lt y x) = true ↔ FV.rank y < FV.rank x := by
  have hlt (i j : ℤ) (p q : ℚ) : (toLex (i, p) : ℤ ×ₗ ℚ) < toLex (j, q) ↔ i < j ∨ i = j ∧ p < q := Prod.Lex.toLex_lt_toLex
  match y, x with
  | .nan _, .nan _ => simp [FV.isNan, FV.rank]
  | .nan _, .inf n => cases n <;> simp [FV.isNan, FV.rank, hlt]
  | .nan _, .fin _ _ _ => simp [FV.isNan, FV.rank, hlt]
  | .inf n, .nan _ => cases n <;> simp [FV.isNan, FV.rank, hlt, FV.lt]
  | .inf n, .inf n' => cases n <;> cases n' <;> simp [FV.isNan, FV.rank, hlt, FV.lt]
  | .inf n, .fin _ _ _ => cases n <;> simp [FV.isNan, FV.rank, hlt, FV.lt]
  | .fin _ _ _, .nan _ => simp [FV.isNan, FV.rank, hlt, FV.lt]
  | .fin _ _ _, .inf n => cases n <;> simp [FV.isNan, FV.rank, hlt, FV.lt]
  | .fin n m e, .fin n' m' e' => simp [FV.isNan, FV.rank, hlt, FV.lt, finSum_lt_iff]

/-! ## The rank of an element -/

/-- The value that ranks an element: itself, or its magnitude. -/
def topValue (up : Bool) (v : FV) : FV :=
  if up then v else match v with
    | .fin _ m e => .fin false m e
    | .inf _ => .inf false
    | .nan s => .nan s

/-- The rank of an element. -/
def topRank (up : Bool) (fmt x : Nat) : ℤ ×ₗ ℚ :=
  match fmtOfCode fmt with
  | some f => FV.rank (topValue up (f.value x))
  | none => toLex (0, if up then (sextN x 32 : ℚ) else (((sextN x 32).natAbs : Nat) : ℚ))

theorem topBetter_of_float {fmt : Nat} {f : FFmt} (h : fmtOfCode fmt = some f) (up : Bool) (x y : Nat) :
    topBetter up fmt x y = if (topValue up (f.value y)).isNan then !(topValue up (f.value x)).isNan else FV.lt (topValue up (f.value y)) (topValue up (f.value x)) := by
  rw [topBetter, h]; rfl

theorem topBetter_of_int {fmt : Nat} (h : fmtOfCode fmt = none) (up : Bool) (x y : Nat) :
    topBetter up fmt x y = if up then decide (sextN y 32 < sextN x 32) else decide ((sextN y 32).natAbs < (sextN x 32).natAbs) := by
  rw [topBetter, h]

theorem topBetter_iff_rank (up : Bool) (fmt x y : Nat) : topBetter up fmt x y = true ↔ topRank up fmt y < topRank up fmt x := by
  cases h : fmtOfCode fmt with
  | some f => rw [topBetter_of_float h, better_iff_rank, topRank, topRank, h]
  | none =>
    rw [topBetter_of_int h, topRank, topRank, h]
    cases up
    · simp only [Bool.false_eq_true, if_false, decide_eq_true_eq, Prod.Lex.toLex_lt_toLex, lt_self_iff_false, false_or, true_and, Nat.cast_lt]
    · simp only [if_true, decide_eq_true_eq, Prod.Lex.toLex_lt_toLex, lt_self_iff_false, false_or, true_and, Int.cast_lt]

theorem topBetter_int32 (up : Bool) (x y : Nat) : topBetter up 2 x y = true ↔
    if up then (BitVec.ofNat 32 y).toInt < (BitVec.ofNat 32 x).toInt else (BitVec.ofNat 32 y).toInt.natAbs < (BitVec.ofNat 32 x).toInt.natAbs := by
  rw [topBetter_of_int rfl, sextN_eq_toInt x (by decide), sextN_eq_toInt y (by decide)]
  cases up
  · exact decide_eq_true_iff
  · exact decide_eq_true_iff

/-- The greater of two values by magnitude. -/
theorem magnitude_better_iff (x y : FV) : (if (topValue false y).isNan then !(topValue false x).isNan else FV.lt (topValue false y) (topValue false x)) = true
    ↔ x.isNan = false ∧ (y.isNan = true ∨ y.isNan = false
      ∧ (∀ m e n i s1 s2, x = .fin s1 m e → y = .fin s2 n i → ScaledAbove m e n i) ∧ ∀ s1, y ≠ .inf s1) := by
  match x, y with
  | .nan _, .nan _ => simp [topValue, FV.isNan]
  | .nan _, .inf _ => simp [topValue, FV.isNan, FV.lt]
  | .nan _, .fin _ _ _ => simp [topValue, FV.isNan, FV.lt]
  | .inf _, .nan _ => simp [topValue, FV.isNan]
  | .inf _, .inf _ => simp [topValue, FV.isNan, FV.lt]
  | .inf _, .fin _ _ _ => simp [topValue, FV.isNan, FV.lt]
  | .fin _ _ _, .nan _ => simp [topValue, FV.isNan]
  | .fin _ _ _, .inf _ => simp [topValue, FV.isNan, FV.lt]
  | .fin s1 m e, .fin s2 n i =>
    have hlt : FV.lt (.fin false n i) (.fin false m e) = true ↔ ScaledAbove m e n i := by
      rw [FV.lt_fin_iff, finSum_lt_iff, scaledAbove_iff]; rfl
    have hall : (∀ m' e' n' i' s1' s2', FV.fin s1 m e = .fin s1' m' e' → FV.fin s2 n i = .fin s2' n' i' → ScaledAbove m' e' n' i') ↔ ScaledAbove m e n i :=
      ⟨fun h => h m e n i s1 s2 rfl rfl, fun h _ _ _ _ _ _ hx hy => by cases hx; cases hy; exact h⟩
    rw [hall]
    simp [topValue, FV.isNan, hlt]

/-- The greater of two values. -/
theorem value_better_iff (x y : FV) : (if y.isNan then !x.isNan else FV.lt y x) = true
    ↔ x.isNan = false ∧ (y.isNan = true ∨ y.isNan = false ∧ FV.lt y x = true) := by
  cases hy : y.isNan
  · cases hx : x.isNan
    · simp
    · simp [FV.lt_of_isNan (.inr hx)]
  · simp

theorem topBetter_float_iff {fmt : Nat} {f : FFmt} (hf : fmtOfCode fmt = some f) (up : Bool) (x y : Nat) : topBetter up fmt x y = true ↔
    (f.value x).isNan = false ∧ ((f.value y).isNan = true ∨ ((f.value y).isNan = false ∧ (up = true → FV.lt (f.value y) (f.value x) = true)
      ∧ (up = false → ∀ m e n i s1 s2, f.value x = .fin s1 m e → f.value y = .fin s2 n i → ScaledAbove m e n i)
      ∧ (up = false → ∀ s1, f.value y ≠ .inf s1))) := by
  rw [topBetter_of_float hf]
  cases up
  · simpa only [forall_const, Bool.false_eq_true, false_implies, true_and] using magnitude_better_iff (f.value x) (f.value y)
  · simpa only [forall_const, Bool.true_eq_false, false_implies, and_true, topValue, if_true] using value_better_iff (f.value x) (f.value y)

/-! ## The elements in descending rank -/

section
variable (up : Bool) (fmt : Nat)

/-- The element x stands before y: y is not of greater rank, and of equal rank the lower index comes first. -/
def TopBefore (x y : Nat × Nat) : Prop := topBetter up fmt y.1 x.1 = false ∧ (topBetter up fmt x.1 y.1 = false → x.2 < y.2)

theorem topBefore_iff {x y : Nat × Nat} : TopBefore up fmt x y ↔
    topRank up fmt y.1 ≤ topRank up fmt x.1 ∧ (topRank up fmt x.1 ≤ topRank up fmt y.1 → x.2 < y.2) := by
  simp only [TopBefore, ← Bool.not_eq_true, topBetter_iff_rank, not_lt]

theorem topIns_perm (x : Nat × Nat) (l : List (Nat × Nat)) : (topIns up fmt x l).Perm (x :: l) := by
  induction l with
  | nil => exact .refl _
  | cons y r ih =>
    rw [topIns]
    split
    · exact .refl _
    · exact (ih.cons y).trans (.swap x y r)

theorem topIns_pairwise {x : Nat × Nat} {l : List (Nat × Nat)} (h : l.Pairwise (TopBefore up fmt)) (hx : ∀ y, y ∈ l → y.2 < x.2) :
    (topIns up fmt x l).Pairwise (TopBefore up fmt) := by
  induction l with
  | nil => exact List.pairwise_singleton ..
  | cons y r ih =>
    obtain ⟨hy, hr⟩ := List.pairwise_cons.1 h
    rw [topIns]
    split
    case isTrue hbetter =>
      have hlt := (topBetter_iff_rank ..).1 hbetter
      refine List.pairwise_cons.2 ⟨fun z hz => (topBefore_iff ..).2 ?_, h⟩
      have hzy : topRank up fmt z.1 ≤ topRank up fmt y.1 := by
        rcases List.mem_cons.1 hz with rfl | hz
        · exact le_rfl
        · exact ((topBefore_iff ..).1 (hy z hz)).1
      exact ⟨(hzy.trans_lt hlt).le, fun hle => absurd (hzy.trans_lt hlt) hle.not_gt⟩
    case isFalse hbetter =>
      refine List.pairwise_cons.2 ⟨fun z hz => ?_, ih hr fun z hz => hx z (List.mem_cons_of_mem _ hz)⟩
      rcases List.mem_cons.1 ((topIns_perm up fmt x r).mem_iff.1 hz) with rfl | hz
      · exact ⟨eq_false_of_ne_true hbetter, fun _ => hx y List.mem_cons_self⟩
      · exact hy z hz

/-- The first n elements of a row in descending rank. -/
def topRow (f : Nat → Nat) (n : Nat) : List (Nat × Nat) := ((List.range n).map fun i => (f i, i)).foldl (fun l x => topIns up fmt x l) []

theorem topRow_succ (f : Nat → Nat) (n : Nat) : topRow up fmt f (n + 1) = topIns up fmt (f n, n) (topRow up fmt f n) := by
  rw [topRow, List.range_succ, List.map_append, List.foldl_append]; rfl

theorem topRow_perm (f : Nat → Nat) (n : Nat) : (topRow up fmt f n).Perm ((List.range n).map fun i => (f i, i)) := by
  induction n with
  | zero => exact .refl _
  | succ n ih =>
    rw [topRow_succ, List.range_succ, List.map_append]
    exact (topIns_perm ..).trans ((ih.cons _).trans (List.perm_append_singleton ..).symm)

theorem topRow_pairwise (f : Nat → Nat) (n : Nat) : (topRow up fmt f n).Pairwise (TopBefore up fmt) := by
  induction n with
  | zero => exact .nil
  | succ n ih =>
    rw [topRow_succ]
    refine topIns_pairwise up fmt ih fun y hy => ?_
    obtain ⟨i, hi, rfl⟩ := List.mem_map.1 ((topRow_perm up fmt f n).mem_iff.1 hy)
    exact List.mem_range.1 hi
end

/-! ## The tile -/

section
variable (s : State) (c : CoreId) (d a b : TV) (hasA hasB : Bool) (scal : List Word) (ctx : Nat) (up : Bool) (kk : Nat)

/-- The writes of a row of ttopk. -/
def topWrites (l : List (Nat × Nat)) (i1 : Nat) : List TW := (List.range kk).flatMap fun j =>
  [(d.off i1 (2 * j), 4, (l.getD j (0, 0xFFFFFFFF)).2), (d.off i1 (2 * j + 1), 4, (l.getD j (0, 0xFFFFFFFF)).1)]

/-- A row of ttopk. -/
def State.topRowOf (i1 : Nat) : List (Nat × Nat) := topRow up a.fmt (s.packElem c a i1) a.e0

theorem tCompute_topk : s.tCompute c (.topk up kk) d a b hasA hasB scal ctx =
    (s, .ok ((List.range a.e1).flatMap fun i1 => topWrites d kk (s.topRowOf c a up i1) i1, 0)) := by
  have hrows : ((List.range a.e1).map (s.topRowOf c a up)).zipIdx.flatMap (fun r => topWrites d kk r.1 r.2)
      = (List.range a.e1).flatMap fun i1 => topWrites d kk (s.topRowOf c a up i1) i1 := by
    rw [zipIdx_eq_map_range _ [], List.flatMap_map, List.length_map, List.length_range]
    exact List.flatMap_congr fun i1 hi1 => by simp [List.mem_range.1 hi1]
  rw [← hrows]
  rfl

theorem gives_topk : s.Gives c d a b hasA hasB scal ctx (.topk up kk) fun ws fl => fl = 0 ∧ ws.length = a.e1 * (2 * kk)
    ∧ ∀ i1, i1 < a.e1 → ∀ j, j < kk → (d.off i1 (2 * j), 4, ((s.topRowOf c a up i1).getD j (0, 0xFFFFFFFF)).2) ∈ ws
      ∧ (d.off i1 (2 * j + 1), 4, ((s.topRowOf c a up i1).getD j (0, 0xFFFFFFFF)).1) ∈ ws := by
  refine ⟨_, _, tCompute_topk .., rfl, ?_, fun i1 hi1 j hj => ?_⟩
  · exact length_flatMap_range (fun i1 => (length_flatMap_range (m := 2) (fun _ => rfl) kk).trans (mul_comm kk 2)) a.e1
  · simp only [topWrites, List.mem_flatMap, List.mem_range]
    exact ⟨⟨i1, hi1, j, hj, List.mem_cons_self⟩, ⟨i1, hi1, j, hj, List.mem_cons_of_mem _ List.mem_cons_self⟩⟩
end

end Sys2Proof.Machine
end

section
/-! SUPPORT. The checks of a remote command in their order (R175) and its entry into the queue (R176), and what settles O38. -/

namespace Sys2Proof.Machine

/-! ## A remote command at its target (R175) -/

section
variable {m : TmxMsg} {s : State} (hodd : m.hdr.odd = {}) (hopen : s.fencedHdr m.hdr = false)

/-- The capability was minted here for the context and its key is the present one. -/
def State.capGenuine (s : State) (m : TmxMsg) : Prop :=
  s.capTagOf m.hdr.target m.hdr.ctx (m.cap.extractLsb' 0 48) = m.cap.extractLsb' 48 16 ∧ (s.core m.hdr.target).capOld m.hdr.ctx m.cap = false

/-- The tiles of the command lie within those of the capability. -/
def tmxWithin (m : TmxMsg) : Prop :=
  ∀ x, x ∈ tmxTiles m.cmd → (m.cap.extractLsb' 42 6).toNat ≤ x.toNat ∧ x.toNat ≤ (m.cap.extractLsb' 36 6).toNat

theorem State.capGood_eq_false_iff : s.capGood m.hdr.target m.hdr.ctx m.cap = false ↔ ¬ s.capGenuine m := by
  rw [← Bool.not_eq_true, State.capGood_iff]; rfl

/-- The command names a tile outside those of its capability. -/
def tmxStrays (m : TmxMsg) : Bool :=
  (tmxTiles m.cmd).any fun t => decide (t.toNat < bitsN m.cap.toNat 47 42) || decide (bitsN m.cap.toNat 41 36 < t.toNat)
theorem tmxStrays_eq_false_iff : tmxStrays m = false ↔ tmxWithin m := tmxTiles_within_iff ..
theorem tmxStrays_iff : tmxStrays m = true ↔ ¬ tmxWithin m := by rw [← tmxStrays_eq_false_iff, Bool.not_eq_false]

/-- The checks of R175, each with its refusal. -/
theorem State.tmxChecks_eq : s.tmxChecks m =
    if (s.core m.hdr.target).ctx ≠ m.hdr.ctx then .next (s.answer m.hdr .nack 0 2 [])
    else if s.capGood m.hdr.target m.hdr.ctx m.cap = false then .next (s.answer m.hdr .nack 0 3 [])
    else if capLive m.cap (s.time m.hdr.target.pkg) = false then .next (s.answer m.hdr .nack 0 4 [])
    else if tmxStrays m = true then .next (s.answer m.hdr .nack 0 5 [])
    else if m.cap.getLsbD (tmxRight m.cmd) = false then .next (s.answer m.hdr .nack 0 6 [])
    else if 4 ≤ (s.core m.hdr.target).remote.length then .next (s.answer m.hdr .retry 0 0 [])
    else .next ((s.modCore m.hdr.target fun k => { k with remote := k.remote ++ [m] }).answer m.hdr .ack 0 0 []) := by
  simp only [State.tmxChecks, Bool.not_eq_true']; rfl

section
variable (hctx : (s.core m.hdr.target).ctx = m.hdr.ctx)

theorem State.tmxChecks_of_ctx (h : (s.core m.hdr.target).ctx ≠ m.hdr.ctx) : s.tmxChecks m = .next (s.answer m.hdr .nack 0 2 []) := by
  rw [State.tmxChecks_eq, if_pos h]

include hctx
theorem State.tmxChecks_of_not_genuine (h : ¬ s.capGenuine m) : s.tmxChecks m = .next (s.answer m.hdr .nack 0 3 []) := by
  rw [State.tmxChecks_eq, if_neg (not_not.2 hctx), if_pos (State.capGood_eq_false_iff.2 h)]

variable (hgood : s.capGenuine m)
include hgood
theorem State.tmxChecks_of_not_live (h : ¬ capLive m.cap (s.time m.hdr.target.pkg) = true) : s.tmxChecks m = .next (s.answer m.hdr .nack 0 4 []) := by
  rw [State.tmxChecks_eq, if_neg (not_not.2 hctx), if_neg (State.capGood_eq_false_iff.not.2 (not_not.2 hgood)), if_pos (eq_false_of_ne_true h)]

variable (hlive : capLive m.cap (s.time m.hdr.target.pkg) = true)
include hlive
theorem State.tmxChecks_of_live : s.tmxChecks m =
    if tmxStrays m = true then .next (s.answer m.hdr .nack 0 5 [])
    else if m.cap.getLsbD (tmxRight m.cmd) = false then .next (s.answer m.hdr .nack 0 6 [])
    else if 4 ≤ (s.core m.hdr.target).remote.length then .next (s.answer m.hdr .retry 0 0 [])
    else .next ((s.modCore m.hdr.target fun k => { k with remote := k.remote ++ [m] }).answer m.hdr .ack 0 0 []) := by
  rw [State.tmxChecks_eq, if_neg (not_not.2 hctx), if_neg (State.capGood_eq_false_iff.not.2 (not_not.2 hgood)), if_neg (ne_false_of_eq_true hlive)]

theorem State.tmxChecks_of_strays (h : ¬ tmxWithin m) : s.tmxChecks m = .next (s.answer m.hdr .nack 0 5 []) := by
  rw [State.tmxChecks_of_live hctx hgood hlive, if_pos (tmxStrays_iff.2 h)]

variable (hin : tmxWithin m)
include hin
theorem State.tmxChecks_of_no_right (h : m.cap.getLsbD (tmxRight m.cmd) = false) : s.tmxChecks m = .next (s.answer m.hdr .nack 0 6 []) := by
  rw [State.tmxChecks_of_live hctx hgood hlive, if_neg (tmxStrays_iff.not.2 (not_not.2 hin)), if_pos h]

variable (hright : m.cap.getLsbD (tmxRight m.cmd) = true)
include hright
theorem State.tmxChecks_of_full (h : 4 ≤ (s.core m.hdr.target).remote.length) : s.tmxChecks m = .next (s.answer m.hdr .retry 0 0 []) := by
  rw [State.tmxChecks_of_live hctx hgood hlive, if_neg (tmxStrays_iff.not.2 (not_not.2 hin)), if_neg (ne_false_of_eq_true hright), if_pos h]

theorem State.tmxChecks_of_room (h : (s.core m.hdr.target).remote.length < 4) : s.tmxChecks m =
    .next ((s.modCore m.hdr.target fun k => { k with remote := k.remote ++ [m] }).answer m.hdr .ack 0 0 []) := by
  rw [State.tmxChecks_of_live hctx hgood hlive, if_neg (tmxStrays_iff.not.2 (not_not.2 hin)), if_neg (ne_false_of_eq_true hright), if_neg h.not_ge]
end

theorem answers_refusal {i : Instr} {h : Hdr} {st : ReplyStatus} (he : exec i s = .next (s.answer h st 0 0 [])) :
    Answers i s fun t => t.cores = s.cores ∧ SameMem s t ∧ Sent (.reply { src := h.target, dst := h.src, rtag := h.rtag, status := st }) t := by
  obtain ⟨t, ht, hsent, hcores, hmem⟩ := answers_reply he
  exact ⟨t, ht, hcores, hmem, hsent⟩

/-- A command that passes every check is buffered and acknowledged. -/
theorem answers_buffered {i : Instr} (he : exec i s = .next ((s.modCore m.hdr.target fun k => { k with remote := k.remote ++ [m] }).answer m.hdr .ack 0 0 [])) :
    Answers i s fun t => (t.core m.hdr.target).remote = (s.core m.hdr.target).remote ++ [m] ∧ SameMem s t
      ∧ Sent (.reply { src := m.hdr.target, dst := m.hdr.src, rtag := m.hdr.rtag, status := .ack }) t := by
  refine ⟨_, he, ?_, ⟨fun _ => rfl, rfl⟩, State.send_sent ..⟩
  exact congrArg Core.remote (State.core_modCore_same s m.hdr.target fun k => { k with remote := k.remote ++ [m] })
end

/-! ## Entry of a remote command (R176) -/

section
variable {s : State} {c : CoreId} {q : TmxMsg} {rest : List TmxMsg} {kind : TKind} {o : TOps} (hq : (s.core c).remote = q :: rest)
  (hroom : (s.core c).mq.length < 2) (hrun : (s.core c).mcheck = none) (ht : tenOf (tmxInstr q.cmd) = some (kind, o))
include hq hroom hrun ht

theorem answers_remoteCommandEntry_of_ready {ws : List (List Word)} {d a b cc : List Opnd} (hp : s.tPlan c kind o 0 0 0 = .ok true ws d a b cc) :
    Answers (.remoteCommandEntry c) s fun t => SameMem s t ∧ (t.core c).remote = rest ∧ (t.core c).mq.length = (s.core c).mq.length + 1
      ∧ (t.core c).mq.take (s.core c).mq.length = (s.core c).mq ∧ (∀ x, x ∈ opTiles d → tileSt ((t.core c).tile x) = 1) := by
  obtain ⟨t, he, hcore, hmem, -⟩ := answers_modCore (exec_remoteCommandEntry_of_ready hq hroom hrun ht hp)
  refine ⟨t, he, hmem, ?_⟩
  rw [hcore]
  exact ⟨rfl, List.length_append, List.take_left, fun x hx => Core.tileSt_take_of_mem hx _ _ _⟩

theorem answers_remoteCommandEntry_of_bad {e : Nat} {mark : Option Nat} {x : TReg} {l : List TReg} (hp : s.tPlan c kind o 0 0 0 = .bad e mark)
    (hready : (s.core c).tensorReady kind o = true) (hx : tmxTiles q.cmd = x :: l) :
    Answers (.remoteCommandEntry c) s fun t => SameMem s t ∧ (t.core c).remote = rest ∧ (t.core c).mq = (s.core c).mq
      ∧ tileMark ((t.core c).tile x.toNat) = true ∧ tileSt ((t.core c).tile x.toNat) = 0 := by
  obtain ⟨t, he, hcore, hmem, -⟩ := answers_modCore (exec_remoteCommandEntry_of_bad hq hroom hrun ht hp hready hx)
  have htile : (t.core c).tile x.toNat = tileWith ((s.core c).tile x.toNat) tEmpty true :=
    (congrArg (Core.tile · x.toNat) hcore).trans (Core.tile_markTile (s.core c) _ _ ⟨4, e, 0, 0, q.gid.setWidth 64, 0⟩)
  refine ⟨t, he, hmem, ?_, ?_, ?_, ?_⟩
  · rw [hcore]
  · rw [hcore]; rfl
  · rw [htile, tileMark_tileWith _ (by decide)]
  · rw [htile, tileSt_tileWith _ (by decide)]; rfl
end

end Sys2Proof.Machine
end

section
/-! What settles O38: the engine's steps by their lemmas, and what each command writes once the statement's functions are known as the model's. -/

namespace Sys2Proof.Machine

/-- Settles O38: each step of the engine by the lemma of its instruction, the checks of R175 one after another; each command by what `State.tCompute`
gives for it, in terms of the places its writes fill and the flags its elements raise. -/
theorem matrixEngine : Obligations.MatrixEngine := by
  refine ⟨fun c m s => ⟨?start, ?completion, ?arrival, ?entry⟩, fun c d a b hasA hasB scal ctx s => ?values⟩
  case start => exact fun cmd rest hq hcur hrun => answers_modCore (exec_matrixCommandStart hq hcur hrun)
  case completion =>
    intro cmd kind o hcur hrun ht hslot hd ha hb hc op view u ws fl hr
    exact answers_matrixCommandCompletion hcur hrun ht hslot hd ha hb hc hr
  case arrival =>
    intro h n hodd hopen refuses genuine lives within
    refine ⟨fun hret => answers_reply (exec_tmxArrival_of_retired hret), fun hret hm => answers_refusal (exec_tmxArrival_of_mcheck hret hm), fun hret hm => ?_⟩
    have hexec := exec_tmxArrival_of_runs hodd hopen hret hm
    exact ⟨fun hctx => answers_reply (hexec.trans (State.tmxChecks_of_ctx hctx)),
      fun hctx hgood => answers_reply (hexec.trans (State.tmxChecks_of_not_genuine hctx hgood)),
      fun hctx hgood hlive => answers_reply (hexec.trans (State.tmxChecks_of_not_live hctx hgood hlive)),
      fun hctx hgood hlive hin => answers_reply (hexec.trans (State.tmxChecks_of_strays hctx hgood hlive hin)),
      fun hctx hgood hlive hin hright => answers_reply (hexec.trans (State.tmxChecks_of_no_right hctx hgood hlive hin hright)),
      fun hctx hgood hlive hin hright hfull => answers_refusal (hexec.trans (State.tmxChecks_of_full hctx hgood hlive hin hright hfull)),
      fun hctx hgood hlive hin hright hroom => answers_buffered (hexec.trans (State.tmxChecks_of_room hctx hgood hlive hin hright hroom))⟩
  case entry =>
    intro q rest kind o hq hroom hrun ht
    exact ⟨fun ws d a b cc hp => answers_remoteCommandEntry_of_ready hq hroom hrun ht hp,
      fun e mark x l hp hready hx => answers_remoteCommandEntry_of_bad hq hroom hrun ht hp hready hx⟩
  case values =>
    intro out flags acc val exp word clamp scaled exactly grid blocks outer block packs place elem int
    have hval : val = accVal := funext fun w => (accVal_eq w).symm
    have hexp : exp = s.accExp c := funext fun v => (s.accExp_eq c v).symm
    have hword : word = accPack := funext₃ fun x nf satm => (accPack_eq x nf satm).symm
    have hscaled : scaled = shiftI := funext₂ fun x k => (shiftI_eq x k).symm
    have hexact : exactly = fun v i j => accFv (s.accWord c v i j) (s.accExp c v) := funext₃ fun v i j => by
      rw [accFv_eq, ← hval, ← hexp]; rfl
    have hint : int = fun fmt x => intVal (fmtSigned fmt) (fmtBits fmt) x := funext₂ fun fmt x => (intVal_fmtSigned fmt x).symm
    clear_value int exactly scaled word exp val
    subst hval hexp hword hscaled hexact hint
    refine ⟨⟨fun v i1 i0 => rfl, fun v pl kd o r j => ?planes⟩, fun e => gives_zero s c d a b hasA hasB scal ctx e, fun pa pb ha hb => ?mma,
      ?acc, ?read, ?readBlk, ?quant, ?dequant, ?plane, ?unplane, ?cbdec, ?had, ?topk, ?better⟩
    case planes => exact ⟨(s.planeElem_mem c v pl kd o r).1, (s.planeElem_mem c v pl kd o r).2, s.getLsbD_planeElem c v pl kd o r⟩
    case mma =>
      obtain ⟨ws, fl, h, hlen, hgrid, hnv, hsat⟩ := gives_mma s c pa pb ha hb d a b hasA hasB scal ctx
      refine ⟨ws, fl, h, hlen, s.mmaAt c pa pb ha hb d a b, fun i j hi hj => ⟨?_, fun kb hkb => ?_⟩, ?_, ?_, ?_⟩
      · exact s.mmaAt_zero c pa pb ha hb d a b i j
      · exact s.mmaAt_succ c pa pb ha hb d a b i j kb
      · exact hgrid
      · exact hnv
      · exact hsat
    case acc => exact gives_acc s c d a b hasA hasB scal ctx
    case read => exact gives_read s c d a b hasA hasB scal ctx
    case readBlk => exact gives_readBlk s c d a b hasA hasB scal ctx
    case quant => exact fun f pl kd => gives_quant s c d a b hasA hasB scal ctx pl kd f
    case dequant => exact fun f pl kd => gives_dequant s c d a b hasA hasB scal ctx pl kd f
    case plane => exact fun pl kd sat => gives_plane s c d a b hasA hasB scal ctx pl kd sat
    case cbdec => exact fun kd off _ hoff hmay hat => gives_cbdec s c d a b hasA hasB scal ctx ⟨4, true⟩ kd off hoff hmay hat
    case unplane =>
      intro pl kd sat
      have h := gives_unplane s c d a b hasA hasB scal ctx pl kd sat
      simp only [intMin_eq, intMax_eq, fmtSigned, decide_eq_true_eq] at h
      exact h
    case had =>
      intro inv kd h0 h1 h32
      obtain ⟨ws, fl, h, hpacks, hflags⟩ := gives_had s c d a b hasA hasB scal ctx inv kd h0 h1 h32
      simp only [State.hadElem_eq, hadSign_keyedNeg] at hpacks hflags
      refine ⟨ws, fl, h, fun o kb n k => (s.hadTile c a scal inv kd o kb n k).1, fun o kb n k => (s.hadTile c a scal inv kd o kb n k).2,
        fun o kb k ho hkb hk => ?_, hpacks, hflags⟩
      have hstart := s.hadTile_zero c a scal inv kd o kb hk
      rw [hadSign_keyedNeg] at hstart
      refine ⟨congrArg Prod.fst hstart, congrArg Prod.snd hstart, fun n hn => ?_⟩
      have hstage := s.hadTile_succ c a scal inv kd o kb n hk
      exact ⟨(congrArg Prod.fst hstage :), (congrArg Prod.snd hstage :)⟩
    case topk =>
      intro up kk
      obtain ⟨ws, fl, h, hfl, hlen, hmem⟩ := gives_topk s c d a b hasA hasB scal ctx up kk
      exact ⟨ws, fl, h, hfl, hlen, fun i1 hi1 => ⟨s.topRowOf c a up i1, topRow_perm .., topRow_pairwise .., hmem i1 hi1⟩⟩
    case better =>
      exact fun up x y => ⟨topBetter_int32 up x y, fun f fmt hf => topBetter_float_iff hf up x y⟩

end Sys2Proof.Machine
end

section
/-! SUPPORT. The fields of tile entries and of ring registers, and what the tile and ring instructions do once issued (R209 to R213). -/

namespace Sys2Proof.Machine

/-! ## Fields of a tile entry -/

/-- The low 61 bits of an entry, which hold SHAPE, FMT, BASE and SCALES, keep their values when its STATE and FMARK are replaced. -/
theorem bitsN_tileWith (w : Word) (st : Nat) (mark : Bool) {hi lo : Nat} (h : hi < 61) :
    bitsN (tileWith w st mark).toNat hi lo = bitsN w.toNat hi lo := by
  rw [bitsN_toNat _ rfl, bitsN_toNat _ rfl]
  congr 1
  refine BitVec.eq_of_getLsbD_eq fun i hi' => ?_
  have hlow : lo + i < 61 := by omega
  have hmask : (0x1FFFFFFFFFFFFFFF#64).getLsbD (lo + i) = true := by
    rw [show (0x1FFFFFFFFFFFFFFF#64) = BitVec.ofNat 64 (2 ^ 61 - 1) by rfl, BitVec.getLsbD_ofNat, Nat.testBit_two_pow_sub_one]
    simp [hlow, show lo + i < 64 by omega]
  have hstate : (BitVec.ofNat 64 (st * 2 ^ 62 + if mark then 2 ^ 61 else 0)).getLsbD (lo + i) = false := by
    have heq : (st * 2 ^ 62 + if mark then 2 ^ 61 else 0) = 2 ^ 61 * (st * 2 + if mark then 1 else 0) := by split <;> ring
    rw [BitVec.getLsbD_ofNat, heq, Nat.testBit_two_pow_mul]
    simp [Nat.not_le.2 hlow]
  simp only [BitVec.getLsbD_extractLsb', tileWith, BitVec.getLsbD_or, BitVec.getLsbD_and, hmask, hstate, Bool.and_true, Bool.or_false]

@[simp] theorem tileShape_tileWith (w : Word) (st : Nat) (mark : Bool) : tileShape (tileWith w st mark) = tileShape w :=
  bitsN_tileWith w st mark (by decide)
@[simp] theorem tileFmt_tileWith (w : Word) (st : Nat) (mark : Bool) : tileFmt (tileWith w st mark) = tileFmt w :=
  bitsN_tileWith w st mark (by decide)
@[simp] theorem tileBase_tileWith (w : Word) (st : Nat) (mark : Bool) : tileBase (tileWith w st mark) = tileBase w :=
  bitsN_tileWith w st mark (by decide)
@[simp] theorem tileScales_tileWith (w : Word) (st : Nat) (mark : Bool) : tileScales (tileWith w st mark) = tileScales w :=
  bitsN_tileWith w st mark (by decide)

theorem tileMark_eq_bitsN (w : Word) : tileMark w = decide (bitsN w.toNat 61 61 = 1) := by
  rw [tileMark, BitVec.getLsbD, Nat.testBit_eq_decide_div_mod_eq]; rfl

/-- A number of fields that do not run into each other has them as its bits. -/
theorem tileEntry_fields {ready shape fmt base scales : Nat} (hr : ready < 2) (hs : shape < 2 ^ 5) (hf : fmt < 2 ^ 5) (hb : base < 2 ^ 17)
    (hc : scales < 2 ^ 17) :
    let w := BitVec.ofNat 64 (ready * 2 ^ 63 + shape * 2 ^ 56 + fmt * 2 ^ 51 + base * 2 ^ 34 + scales * 2 ^ 17)
    tileSt w = 2 * ready ∧ tileMark w = false ∧ tileShape w = shape ∧ tileFmt w = fmt ∧ tileBase w = base ∧ tileScales w = scales := by
  intro w
  have hw : w.toNat = ready * 2 ^ 63 + shape * 2 ^ 56 + fmt * 2 ^ 51 + base * 2 ^ 34 + scales * 2 ^ 17 := by
    rw [BitVec.toNat_ofNat]; exact Nat.mod_eq_of_lt (by omega)
  rw [tileMark_eq_bitsN]
  simp only [tileSt, tileShape, tileFmt, tileBase, tileScales, bitsN, hw, Nat.reduceAdd, Nat.reduceSub, decide_eq_false_iff_not]
  refine ⟨?_, ?_, ?_, ?_, ?_, ?_⟩ <;> omega

/-- The entry that a descriptor of 45 bits describes (R210). -/
theorem tdefEntry_fields {e : Nat} (h : e < 2 ^ 45) :
    let w := tdefEntry e
    tileSt w = (if e.testBit 27 then 2 else 0) ∧ tileMark w = false ∧ tileShape w = e / 2 ^ 17 % 32 ∧ tileFmt w = e / 2 ^ 22 % 32
      ∧ tileBase w = e % 2 ^ 17 ∧ tileScales w = e / 2 ^ 28 := by
  obtain ⟨hst, hmark, hshape, hfmt, hbase, hscales⟩ := tileEntry_fields (ready := bitsN e 27 27) (shape := bitsN e 21 17) (fmt := bitsN e 26 22)
    (base := bitsN e 16 0) (scales := bitsN e 44 28) (Nat.mod_lt _ (by decide)) (Nat.mod_lt _ (by decide)) (Nat.mod_lt _ (by decide))
    (Nat.mod_lt _ (by decide)) (Nat.mod_lt _ (by decide))
  have hready : 2 * bitsN e 27 27 = if e.testBit 27 then 2 else 0 := by
    simp only [bitsN, Nat.testBit_eq_decide_div_mod_eq, decide_eq_true_eq, Nat.reduceAdd, Nat.reduceSub]
    split <;> omega
  refine ⟨hst.trans hready, hmark, hshape, hfmt, hbase.trans ?_, hscales.trans ?_⟩
  · simp [bitsN]
  · exact Nat.mod_eq_of_lt (by simp only [Nat.reduceAdd, Nat.reduceSub]; omega)

/-! ## Tiles and rings of a core -/

theorem Core.tile_setTile (k : Core) (t st : Nat) (mark : Bool) (y : Nat) :
    (k.setTile t st mark).tile y = if y = t then tileWith (k.tile t) st mark else k.tile y := SMap.get_set ..
theorem Core.tile_defTile (k : Core) (t : Nat) (w : Word) (y : Nat) : (k.defTile t w).tile y = if y = t then w else k.tile y := SMap.get_set ..
@[simp] theorem Core.tile_setRing (k : Core) (q : Nat) (r : Ring) (y : Nat) : (k.setRing q r).tile y = k.tile y := rfl

theorem Core.tileFree_iff (k : Core) (t : Nat) :
    k.tileFree t = true ↔ k.readersOf t = 0 ∧ (tileSt (k.tile t) = 0 ∨ tileSt (k.tile t) = 2) := by
  simp [Core.tileFree, tEmpty, tReady]
theorem Core.tileFree_eq_false_iff (k : Core) (t : Nat) :
    k.tileFree t = false ↔ ¬ (k.readersOf t = 0 ∧ (tileSt (k.tile t) = 0 ∨ tileSt (k.tile t) = 2)) := by
  rw [← Core.tileFree_iff, Bool.not_eq_true]

/-- The fields of a ring register that fit their bits read as they were written (R52). -/
theorem ringOf_word {r : Ring} (h0 : r.first < 64) (h1 : r.size < 128) (h2 : r.head < 64) (h3 : r.tail < 64) (h4 : r.filled < 128)
    (h5 : r.free < 128) : ringOf r.word = r := by
  obtain ⟨first, size, head, tail, filled, free⟩ := r
  have hw : (Ring.word ⟨first, size, head, tail, filled, free⟩).toNat =
      first + size * 2 ^ 6 + head * 2 ^ 13 + tail * 2 ^ 19 + filled * 2 ^ 25 + free * 2 ^ 32 := by
    rw [Ring.word, BitVec.toNat_ofNat]; exact Nat.mod_eq_of_lt (by dsimp only at *; omega)
  simp only [ringOf, hw, bitsN, Nat.reduceAdd, Nat.reduceSub, Ring.mk.injEq]
  dsimp only at *
  refine ⟨?_, ?_, ?_, ?_, ?_, ?_⟩ <;> omega

theorem Core.ring_setRing_same (k : Core) (q : Nat) (r : Ring) : (k.setRing q r).ring q = ringOf r.word := by
  rw [Core.ring, Core.setRing, SMap.get_set_same]

/-- The tiles of a list emptied (R213). -/
theorem Core.foldl_tileTo_strands (l : List Nat) (st : Nat) (k : Core) : (l.foldl (fun c t => c.tileTo t st) k).strands = k.strands :=
  foldl_keeps Core.strands (f := fun (c : Core) t => c.tileTo t st) (fun _ _ => rfl) l k
theorem Core.foldl_tileTo_rest (l : List Nat) (st : Nat) (k : Core) :
    (l.foldl (fun c t => c.tileTo t st) k).rest = l.foldl (fun c t => c.tileTo t st) k.rest :=
  (List.foldl_hom Core.rest fun _ _ => rfl).symm

/-! ## What the count of an instruction leaves of tiles and rings -/

@[simp] theorem State.charge_tile (s : State) (t : Nat) : s.charge.myCore.tile t = s.myCore.tile t :=
  (congrArg (Core.tile · t) s.charge_myCore_rest :)
@[simp] theorem State.charge_readersOf (s : State) (t : Nat) : s.charge.myCore.readersOf t = s.myCore.readersOf t :=
  (congrArg (Core.readersOf · t) s.charge_myCore_rest :)
@[simp] theorem State.charge_tileFree (s : State) (t : Nat) : s.charge.myCore.tileFree t = s.myCore.tileFree t :=
  (congrArg (Core.tileFree · t) s.charge_myCore_rest :)
@[simp] theorem State.charge_rings (s : State) : s.charge.myCore.rings = s.myCore.rings := (congrArg Core.rings s.charge_myCore_rest :)
@[simp] theorem State.charge_ring (s : State) (q : Nat) : s.charge.myCore.ring q = s.myCore.ring q :=
  (congrArg (Core.ring · q) s.charge_myCore_rest :)

/-! ## The instructions once issued -/

section
variable {g : Guard} {s : State}

/-- An instruction that acts on its tile once the tile is free, and waits until then (R211). -/
theorem stalls_of_not_tileFree {i : Instr} {x : Nat} {f : Core → Core} (hg : s.me.guard g = true)
    (he : exec i s = issueU i g (fun t => if t.myCore.tileFree x then .ok (t.modMyCore f) else .stall) s) (h : s.myCore.tileFree x = false) :
    Stalls i s :=
  stalls_of_body hg he (if_neg (by rw [State.charge_tileFree, h]; decide))
/-- The same instruction when the tile is free. -/
theorem completesCore_of_tileFree {i : Instr} {x : Nat} {f : Core → Core} (hg : s.me.guard g = true)
    (he : exec i s = issueU i g (fun t => if t.myCore.tileFree x then .ok (t.modMyCore f) else .stall) s) (h : s.myCore.tileFree x = true)
    (hs : ∀ k, (f k).strands = k.strands) (hr : ∀ k, (f k).rest = f k.rest) : CompletesCore i s (f s.myCore) s.me :=
  completesCore_of_body hg he (if_pos (by rw [State.charge_tileFree, h])) hs hr

/-- The descriptor of tdef (R210, log 59). -/
def State.descriptor (s : State) (a : Reg) (i : Imm48) : Nat := (i ||| (s.rg a).setWidth 48).toNat

/-- The descriptor has a bit above 44 or the reserved FMT 15. -/
def badDescriptor (d : Nat) : Prop := bitsN d 47 45 ≠ 0 ∨ bitsN d 26 22 = 15

theorem badDescriptor_iff (s : State) (a : Reg) (i : Imm48) :
    badDescriptor (s.descriptor a i) ↔ s.descriptor a i / 2 ^ 45 ≠ 0 ∨ s.descriptor a i / 2 ^ 22 % 32 = 15 := by
  have hlt : s.descriptor a i < 2 ^ 48 := BitVec.isLt _
  simp only [badDescriptor, bitsN, Nat.reduceAdd, Nat.reduceSub]
  omega

/-- What tdef does once issued. -/
def tdefBody (t : TReg) (a : Reg) (i : Imm48) (s : State) : Res :=
  if bitsN (s.descriptor a i) 47 45 ≠ 0 ∨ bitsN (s.descriptor a i) 26 22 = 15 then .fault s (s.fault 0x69)
  else if !s.myCore.tileFree t.toNat then .stall
  else .ok (s.modMyCore fun c => c.defTile t.toNat (tdefEntry (s.descriptor a i)))

theorem exec_tdef (g : Guard) (t : TReg) (a : Reg) (i : Imm48) (s : State) :
    exec (.tdef g t a i) s = issueU (.tdef g t a i) g (tdefBody t a i) s := rfl

@[simp] theorem State.charge_descriptor (a : Reg) (i : Imm48) : s.charge.descriptor a i = s.descriptor a i := by
  rw [State.descriptor, State.charge_rg, State.descriptor]
theorem tdefBody_of_bad {t : TReg} {a : Reg} {i : Imm48} (h : badDescriptor (s.descriptor a i)) :
    tdefBody t a i s.charge = .fault s.charge (s.fault 0x69) := by
  rw [badDescriptor] at h
  rw [tdefBody, State.charge_descriptor, if_pos h, State.charge_fault]
theorem tdefBody_of_good {t : TReg} {a : Reg} {i : Imm48} (h : ¬ badDescriptor (s.descriptor a i)) :
    tdefBody t a i s.charge = if !s.myCore.tileFree t.toNat then .stall
      else .ok (s.charge.modMyCore fun c => c.defTile t.toNat (tdefEntry (s.descriptor a i))) := by
  rw [badDescriptor] at h
  rw [tdefBody, State.charge_descriptor, if_neg h, State.charge_tileFree]

/-- The head of a ring advanced by n slots, whose tiles the list names (R213). -/
def Core.advanceHead (k : Core) (q : Nat) (r : Ring) (n : Nat) (tiles : List Nat) : Core :=
  (tiles.foldl (fun c t => c.tileTo t tEmpty) k).setRing q { r with head := (r.head + n) % r.size, filled := r.filled - n, free := r.free + n }

theorem Core.advanceHead_strands (k : Core) (q : Nat) (r : Ring) (n : Nat) (tiles : List Nat) :
    (k.advanceHead q r n tiles).strands = k.strands := Core.foldl_tileTo_strands tiles tEmpty k
theorem Core.advanceHead_rest (k : Core) (q : Nat) (r : Ring) (n : Nat) (tiles : List Nat) :
    (k.advanceHead q r n tiles).rest = k.rest.advanceHead q r n tiles := by
  rw [Core.advanceHead, Core.advanceHead, ← Core.foldl_tileTo_rest]; rfl

/-- The tiles of the first n slots of a ring from its head on. -/
def Ring.headTiles (r : Ring) (n : Nat) : List Nat := (List.range n).map (r.slotTile r.head)

/-- What qadv.head does once issued. -/
def qadvHeadBody (q : QReg) (k : Imm48) (s : State) : Res :=
  if (s.myCore.ring q.toNat).size = 0 ∨ (s.myCore.ring q.toNat).filled < k.toNat then .fault s (s.fault 0x6D)
  else if ((s.myCore.ring q.toNat).headTiles k.toNat).any fun t => s.myCore.readersOf t != 0 then .stall
  else .ok (s.modMyCore fun c => c.advanceHead q.toNat (s.myCore.ring q.toNat) k.toNat ((s.myCore.ring q.toNat).headTiles k.toNat))

theorem exec_qadvHead (g : Guard) (q : QReg) (k : Imm48) (s : State) :
    exec (.qadvHead g q k) s = issueU (.qadvHead g q k) g (qadvHeadBody q k) s := rfl

theorem qadvHeadBody_of_short {q : QReg} {k : Imm48} (h : (s.myCore.ring q.toNat).size = 0 ∨ (s.myCore.ring q.toNat).filled < k.toNat) :
    qadvHeadBody q k s.charge = .fault s.charge (s.fault 0x6D) := by
  rw [qadvHeadBody, State.charge_ring, if_pos h, State.charge_fault]
theorem qadvHeadBody_of_filled {q : QReg} {k : Imm48} (h0 : (s.myCore.ring q.toNat).size ≠ 0) (hn : k.toNat ≤ (s.myCore.ring q.toNat).filled) :
    qadvHeadBody q k s.charge = if ∃ t, t ∈ (s.myCore.ring q.toNat).headTiles k.toNat ∧ s.myCore.readersOf t ≠ 0 then .stall
      else .ok (s.charge.modMyCore fun c =>
        c.advanceHead q.toNat (s.myCore.ring q.toNat) k.toNat ((s.myCore.ring q.toNat).headTiles k.toNat)) := by
  have hcount : ¬ ((s.myCore.ring q.toNat).size = 0 ∨ (s.myCore.ring q.toNat).filled < k.toNat) := by omega
  simp only [qadvHeadBody, State.charge_ring, if_neg hcount, State.charge_readersOf, List.any_eq_true, bne_iff_ne]

/-- What qadv.tail does once issued. -/
def qadvTailBody (q : QReg) (k : Imm48) (s : State) : Res :=
  if (s.myCore.ring q.toNat).size = 0 ∨ (s.myCore.ring q.toNat).size - (s.myCore.ring q.toNat).filled - (s.myCore.ring q.toNat).free < k.toNat
  then .fault s (s.fault 0x6D)
  else .ok (s.modMyCore fun c => c.setRing q.toNat { s.myCore.ring q.toNat with filled := (s.myCore.ring q.toNat).filled + k.toNat })

theorem exec_qadvTail (g : Guard) (q : QReg) (k : Imm48) (s : State) :
    exec (.qadvTail g q k) s = issueU (.qadvTail g q k) g (qadvTailBody q k) s := rfl

/-- What rdef does once issued. -/
def rdefBody (q : QReg) (first : TReg) (size : BitVec 7) (s : State) : Res :=
  if (s.myCore.ring q.toNat).filled + (s.myCore.ring q.toNat).free = (s.myCore.ring q.toNat).size
  then .ok (s.modMyCore fun c => c.setRing q.toNat ⟨first.toNat, size.toNat, 0, 0, 0, size.toNat⟩)
  else .stall

theorem exec_rdef (g : Guard) (q : QReg) (first : TReg) (size : BitVec 7) (s : State) :
    exec (.rdef g q first size) s = issueU (.rdef g q first size) g (rdefBody q first size) s := rfl

/-- What tset.ready does once issued. -/
def tsetReadyBody (t : TReg) (s : State) : Res :=
  if tileSt (s.myCore.tile t.toNat) = tEmpty then .ok (s.modMyCore fun c => c.setTile t.toNat tReady false) else .stall

theorem exec_tsetReady (g : Guard) (t : TReg) (s : State) :
    exec (.tsetReady g t) s = issueU (.tsetReady g t) g (tsetReadyBody t) s := rfl
end

end Sys2Proof.Machine
end

section
/-! The statement on tiles and rings (R209 to R213), settled. -/

namespace Sys2Proof.Machine

/-- Settles O41: each instruction does to its tile or ring what its body says once its operand condition holds, and the fields of the entry and of
the ring register are those written. -/
theorem tilesAndRings : Obligations.TilesAndRings := by
  intro g t a d i q size s hg k x free desc bad r n fault
  have hbad : bad ↔ badDescriptor (s.descriptor a i) := (badDescriptor_iff s a i).symm
  have hfree : free ↔ s.myCore.tileFree t.toNat = true := (Core.tileFree_iff ..).symm
  have hbusy : ¬ free ↔ s.myCore.tileFree t.toNat = false := (Core.tileFree_eq_false_iff ..).symm
  refine ⟨fun h => ?tdefBad, fun h => ?waits, fun h => ?acts, fun h => ?readyWaits, fun h => ?ready, ?tstatTile, ?tstatRing,
    fun e he => tdefEntry_fields he, fun w st hst => ?entry, fun h => ?rdefWaits, fun h => ?rdef, fun h => ?tailShort, fun h0 h => ?tail,
    fun h => ?headShort, fun h0 h => ?head, fun y h0 h1 h2 h3 h4 h5 => (Core.ring_setRing_same ..).trans (ringOf_word h0 h1 h2 h3 h4 h5)⟩
  case tdefBad => exact raises_of_fault hg (exec_tdef ..) (tdefBody_of_bad (hbad.1 h)) (by decide : 0x69 < 256)
  case waits =>
    rw [hbusy] at h
    refine ⟨fun hgood => ?_, stalls_of_not_tileFree hg rfl h, stalls_of_not_tileFree hg rfl h⟩
    exact stalls_of_body hg (exec_tdef ..) (by rw [tdefBody_of_good (mt hbad.2 hgood), h]; rfl)
  case acts =>
    rw [hfree] at h
    refine ⟨fun hgood => ?_, completesCore_of_tileFree (f := fun c => c.defTile t.toNat 0) hg rfl h (fun _ => rfl) fun _ => rfl,
      completesCore_of_tileFree (f := fun c => c.setTile t.toNat tEmpty false) hg rfl h (fun _ => rfl) fun _ => rfl⟩
    exact completesCore_of_body (f := fun c => c.defTile t.toNat (tdefEntry (s.descriptor a i))) hg (exec_tdef ..)
      (by rw [tdefBody_of_good (mt hbad.2 hgood), h]; rfl) (fun _ => rfl) fun _ => rfl
  case readyWaits => exact stalls_of_body hg (exec_tsetReady ..) (if_neg (by rw [State.charge_tile]; exact h))
  case ready =>
    exact completesCore_of_body (f := fun c => c.setTile t.toNat tReady false) hg (exec_tsetReady ..)
      (if_pos (by rw [State.charge_tile]; exact h)) (fun _ => rfl) fun _ => rfl
  case tstatTile => exact completes_put (fun u => u.myCore.tile t.toNat) hg rfl (State.charge_tile s t.toNat)
  case tstatRing =>
    exact completes_put (fun u => u.myCore.rings.get 0 q.toNat) hg rfl (by rw [State.charge_rings])
  case entry =>
    intro e
    have hdef : (k.defTile x w).tile x = w := (Core.tile_defTile ..).trans (if_pos rfl)
    have hset : e.tile x = tileWith w st false := by rw [Core.tile_setTile, if_pos rfl, hdef]
    refine ⟨hdef, ?_⟩
    rw [hset]
    refine ⟨tileSt_tileWith w hst false, tileMark_tileWith w hst false, tileShape_tileWith .., tileFmt_tileWith .., tileBase_tileWith ..,
      tileScales_tileWith .., fun y hy => ?_⟩
    rw [Core.tile_setTile, if_neg hy, Core.tile_defTile, if_neg hy]
  case rdefWaits => exact stalls_of_body hg (exec_rdef ..) (if_neg (by rw [State.charge_ring]; exact h))
  case rdef =>
    exact completesCore_of_body (f := fun c => c.setRing q.toNat ⟨x, size.toNat, 0, 0, 0, size.toNat⟩) hg (exec_rdef ..)
      (if_pos (by rw [State.charge_ring]; exact h)) (fun _ => rfl) fun _ => rfl
  case tailShort =>
    exact raises_of_fault hg (exec_qadvTail ..) (by rw [qadvTailBody, State.charge_ring, if_pos h, State.charge_fault]) (by decide : 0x6D < 256)
  case tail =>
    exact completesCore_of_body (f := fun c => c.setRing q.toNat { r with filled := r.filled + n }) hg (exec_qadvTail ..)
      (by rw [qadvTailBody, State.charge_ring, if_neg (not_or.2 ⟨h0, Nat.not_lt.2 h⟩)]) (fun _ => rfl) fun _ => rfl
  case headShort => exact raises_of_fault hg (exec_qadvHead ..) (qadvHeadBody_of_short h) (by decide : 0x6D < 256)
  case head =>
    intro tiles
    refine ⟨fun hread => stalls_of_body hg (exec_qadvHead ..) ((qadvHeadBody_of_filled h0 h).trans (if_pos hread)), fun hread => ?_⟩
    have hnone : ¬ ∃ y, y ∈ tiles ∧ s.myCore.readersOf y ≠ 0 := fun ⟨y, hy, hne⟩ => hne (hread y hy)
    refine ⟨?_, fun y hy => Core.tileSt_foldl_tileTo (by decide) hy k, fun y hy => Core.tile_foldl_tileTo_of_not_mem 0 hy k⟩
    exact completesCore_of_body (f := fun c => c.advanceHead q.toNat r n tiles) hg (exec_qadvHead ..)
      ((qadvHeadBody_of_filled h0 h).trans (if_neg hnone)) (fun _ => Core.advanceHead_strands ..) fun _ => Core.advanceHead_rest ..

end Sys2Proof.Machine
end

section
/-! A store at a wide scope whose bytes are a context-table entry (R180, R200, R316), and the expiry of a forwarding entry of a free slot (R333): two
states that the statements on scalar stores and on fault service do not foresee. -/

namespace Sys2Proof.Machine

/-! ## A store that makes a lapsed line an alias of the line stored to -/

/-- A virtual address of context 5 that the tables at address 0 of package 0 lead to physical address 320: index 1 of level 1, whose table is the same
one, and index 2 of level 2, a leaf of frame 0. Physical address 320 holds the context-table entry of context 5. -/
def selfMapped : Nat := 2 ^ 45 + 2 * 2 ^ 35 + 320

/-- A dirty line of the crew cache filled for that address under a lease that has lapsed: byte 8 of it is to be written back. -/
def lapsedLine : CLine := ⟨List.replicate 64 0xFF, 0x100, [], 0, (5, selfMapped), some 1⟩

/-- The leaf of page 1 of context 1: frame 0 of package 0 under key 0, writable for user strands. -/
def pageZeroLeaf : TlbE := ⟨1, 1, 5, 0x29, none⟩

/-- Strand 1 of core 0 is to store 1 at 320, where no valid context entry stands yet, while the crew cache holds the lapsed line under another
locator. -/
def lapsedState : State :=
  { mem := [(8, 1), (16, 3)]
    cores := [(0, { ctx := 1, dtlb := [pageZeroLeaf], strands := [(1, { g := [(1, 0x10140), (2, 1)] })] })]
    crews := [(0, { lines := [(100, lapsedLine)] })]
    pkgs := [(0, { keys := [(0, [])], time := 2 })]
    cur := ⟨⟨0, 0, 0⟩, 1⟩ }

/-- The store: sts.pkg of g2 at g1. -/
def lapsedStore : Instr := .sts ⟨false, 0⟩ .d .pkg false 2 ⟨1, 0, 0⟩

/-- Before the store the walk for the lapsed line fails, so no line of the cache stands for the line at 320. -/
theorem reaches_lapsedState : Reaches lapsedState .w 0x10140 (xlatOf pageZeroLeaf 0x10140) where
  form := by decide
  virt := by decide
  hit := ⟨pageZeroLeaf, by decide, rfl⟩
  ok := by decide
  home := by decide
  open_ := by decide
  comb := by decide
  calm := by decide
  lone := by decide
  flow := by decide
  free := by decide
  kept := by decide

/-- A byte of memory after a step that goes on. -/
def byteAfter (i : Instr) (s : State) (b : Nat) : Option Byte := match exec i s with | .next t => some (t.mem.read b) | _ => none

theorem byteAfter_of_next {i : Instr} {s t : State} (h : exec i s = .next t) (b : Nat) : byteAfter i s b = some (t.mem.read b) := by
  rw [byteAfter, h]

/-- Once 1 stands at 320 the walk succeeds and leads to the line stored to: the cache, which keeps one copy of a line, writes the dirty byte back
there. -/
theorem byteAfter_lapsedStore : byteAfter lapsedStore lapsedState 328 = some 0xFF := by decide

/-- Refutes O39: in a state that reaches the location of an sts at package scope, byte 328, outside the eight bytes stored at 320,
changes from 0 to 0xFF. -/
theorem not_loadsAndStores : ¬ Obligations.LoadsAndStores := by
  intro h
  obtain ⟨-, -, haligned, -⟩ := h ⟨false, 0⟩ false false false .d .pkg 0 2 ⟨1, 0, 0⟩ lapsedState (by decide)
  obtain ⟨-, -, -, -, -, -, hstore⟩ := haligned (by decide) (by decide)
  obtain ⟨-, hwide⟩ := hstore _ reaches_lapsedState (by decide) (by decide)
  obtain ⟨t, hnext, -, ⟨houtside, -⟩, -⟩ := hwide (by decide) rfl
  have hsame : t.mem.read 328 = 0 := (houtside 328 (by decide)).trans (by decide)
  have hwritten : byteAfter lapsedStore lapsedState 328 = some (t.mem.read 328) := byteAfter_of_next hnext 328
  rw [byteAfter_lapsedStore, hsame] at hwritten
  exact absurd hwritten (by decide)

/-! ## The expiry of a forwarding entry whose slot is free -/

/-- A forwarding entry of strand 1 of core 0, which has ended, at its tick. -/
def freeForward : State := { cores := [(0, { forwards := [⟨1, 9, 0⟩] })] }

/-- The entries of core 0 after a step that goes on. -/
def forwardsAfter (i : Instr) (s : State) : Option (List Forward) := match exec i s with | .next t => some (t.core ⟨0, 0, 0⟩).forwards | _ => none

theorem forwardsAfter_of_next {i : Instr} {s t : State} (h : exec i s = .next t) : forwardsAfter i s = some (t.core ⟨0, 0, 0⟩).forwards := by
  rw [forwardsAfter, h]

/-- The entry stands until another strand has the slot. -/
theorem forwardsAfter_freeForward : forwardsAfter (.forwardingExpiry ⟨0, 0, 0⟩ 1) freeForward = some [⟨1, 9, 0⟩] := by decide

/-- Refutes O51: the statement removes every expired entry, where the model keeps the one of a slot that is free. -/
theorem not_faultService : ¬ Obligations.FaultService := by
  intro h
  obtain ⟨-, -, hcrew, -⟩ := h
  obtain ⟨-, -, hexpiry, -⟩ := hcrew 0 0 ⟨0, 0, 0⟩ 1 freeForward
  obtain ⟨t, hnext, -, hforwards⟩ := hexpiry
  have hkept := (forwardsAfter_of_next hnext).symm.trans forwardsAfter_freeForward
  rw [hforwards] at hkept
  exact absurd hkept (by decide)

end Sys2Proof.Machine
end

section
/-! SUPPORT. What an access reads beside the cores: translation, wakes, ways and the crew cache depend on memory, crews and packages alone, so the count of
an instruction leaves them as they are. -/

namespace Sys2Proof.Machine

/-! ## States with the same memory, crews and packages -/

/-- Two states agree on memory and what its lines are stored under, on crews and on packages. -/
structure State.SameStore (s t : State) : Prop where
  mem   : t.mem = s.mem
  seals : t.seals = s.seals
  crews : t.crews = s.crews
  pkgs  : t.pkgs = s.pkgs

section
variable {s t : State} (h : s.SameStore t)
include h

theorem State.SameStore.crew (n : Nat) : t.crew n = s.crew n := by rw [State.crew, h.crews, State.crew]
theorem State.SameStore.pkg (n : Nat) : t.pkg n = s.pkg n := by rw [State.pkg, h.pkgs, State.pkg]
theorem State.SameStore.time (n : Nat) : t.time n = s.time n := by rw [State.time, h.pkg, State.time]
theorem State.SameStore.extent (n : Nat) : t.extent n = s.extent n := by rw [State.extent, h.pkg, State.extent]
theorem State.SameStore.outDir (a b : Nat) : t.outDir a b = s.outDir a b := by rw [State.outDir, h.extent, State.outDir]
theorem State.SameStore.severedBy (n a b : Nat) : t.severedBy n a b = s.severedBy n a b := by
  induction n generalizing a with
  | zero => rfl
  | succ n ih => rw [State.severedBy, h.pkg, h.outDir, ih, State.severedBy]
theorem State.SameStore.severed (a b : Nat) : t.severed a b = s.severed a b := h.severedBy 24 a b
theorem State.SameStore.blockedBy (n a b : Nat) : t.blockedBy n a b = s.blockedBy n a b := by
  induction n generalizing a with
  | zero => rfl
  | succ n ih => rw [State.blockedBy, h.pkg, h.outDir, ih, State.blockedBy]
theorem State.SameStore.blocked (a b : Nat) : t.blocked a b = s.blocked a b := by
  rw [State.blocked, h.severed, h.blockedBy, State.blocked]
theorem State.SameStore.way (a b : Nat) : t.way a b = s.way a b := by rw [State.way, h.severed, h.blocked, State.way]
theorem State.SameStore.wakeKey (p a : Nat) : t.wakeKey p a = s.wakeKey p a := by
  cases s; cases t; obtain ⟨rfl, rfl, rfl, rfl⟩ := h; rfl
theorem State.SameStore.homeKey (p a : Nat) : t.homeKey p a = s.homeKey p a := by rw [State.homeKey, h.wakeKey, State.homeKey]
theorem State.SameStore.wayTo (o p a : Nat) : t.wayTo o p a = s.wayTo o p a := by
  rw [State.wayTo, h.way, h.wakeKey, h.way, State.wayTo]
theorem State.SameStore.under (slot k n : Nat) : (s.under slot k n).SameStore (t.under slot k n) := by
  cases s; cases t; obtain ⟨rfl, rfl, rfl, rfl⟩ := h; exact ⟨rfl, rfl, rfl, rfl⟩
theorem State.SameStore.walkBy {w w' : Nat → Option Nat} (hw : w' = w) (p c v : Nat) : t.walkBy w' p c v = s.walkBy w p c v := by
  subst hw
  cases s; cases t; obtain ⟨rfl, rfl, rfl, rfl⟩ := h; rfl
theorem State.SameStore.anew (crew : Nat) (x : Xlat) : t.anew crew x = s.anew crew x := by
  cases s; cases t; obtain ⟨rfl, rfl, rfl, rfl⟩ := h; rfl
theorem State.SameStore.backTo (crew ln : Nat) (l : CLine) : t.backTo crew ln l = s.backTo crew ln l := by
  cases s; cases t; obtain ⟨rfl, rfl, rfl, rfl⟩ := h; rfl
theorem State.SameStore.awaits (crew : Nat) (x : Xlat) : t.awaits crew x = s.awaits crew x := by
  rw [State.awaits, h.anew, State.awaits]
  cases s.anew crew x with
  | none => rfl
  | some y => simp only [h.wayTo]
theorem State.SameStore.aliases (crew : Nat) (x : Xlat) : t.aliases crew x = s.aliases crew x := by
  cases s; cases t; obtain ⟨rfl, rfl, rfl, rfl⟩ := h; rfl
theorem State.SameStore.combHome (crew : Nat) (e : Comb) : t.combHome crew e = s.combHome crew e := by
  cases s; cases t; obtain ⟨rfl, rfl, rfl, rfl⟩ := h; rfl
theorem State.SameStore.stuckLine (crew : Nat) (p : Nat × CLine) : t.stuckLine crew p = s.stuckLine crew p := by
  rw [State.stuckLine, h.awaits, State.stuckLine]
theorem State.SameStore.stuckAt (crew : Nat) (x : Xlat) : t.stuckAt crew x = s.stuckAt crew x := by
  simp only [State.stuckAt, h.homeKey, h.crew, h.stuckLine, h.backTo, h.combHome, h.awaits]
theorem State.SameStore.stuckWrites (c : CoreId) : t.stuckWrites c = s.stuckWrites c := by
  simp only [State.stuckWrites, h.crew, h.stuckLine]
theorem State.SameStore.lineHome (ln : Nat) : t.lineHome ln = s.lineHome ln := h.homeKey ..
theorem State.SameStore.homeLine (ln : Nat) : t.homeLine ln = s.homeLine ln := by
  rw [State.homeLine, h.homeKey, State.homeLine]
theorem State.SameStore.checkLoc (super : Bool) (need : Need) (x : Xlat) : t.checkLoc super need x = s.checkLoc super need x := by
  simp only [State.checkLoc, h.pkg]
theorem State.SameStore.fencedAt (p ctx : Nat) : t.fencedAt p ctx = s.fencedAt p ctx := by rw [State.fencedAt, h.pkg, State.fencedAt]
theorem State.SameStore.fencedFor (o p ctx : Nat) : t.fencedFor o p ctx = s.fencedFor o p ctx := by
  rw [State.fencedFor, h.fencedAt, State.fencedFor]
theorem State.SameStore.lineRead (crew p a n : Nat) : t.lineRead crew p a n = s.lineRead crew p a n := by
  rw [State.lineRead, h.crew, State.lineRead]
theorem State.SameStore.sliceOf (c : CoreId) (a : Word) : t.sliceOf c a = s.sliceOf c a := by
  cases s; cases t; obtain ⟨rfl, rfl, rfl, rfl⟩ := h; rfl
end

/-! ## The count of an instruction -/

theorem State.sameStore_charge (s : State) : s.SameStore s.charge := by
  rw [State.charge_eq]; split <;> exact ⟨rfl, rfl, rfl, rfl⟩

theorem State.charge_core_rest (s : State) (c : CoreId) : (s.charge.core c).rest = (s.core c).rest := by
  by_cases hk : c.key = s.cur.core.key
  · have hsame (t : State) : t.core c = t.core s.cur.core := by rw [State.core, hk, State.core]
    rw [hsame, hsame s]; exact (onlyStrand_charge s).rest
  · rw [(onlyStrand_charge s).cores c hk]

@[simp] theorem State.charge_super (s : State) : s.charge.super = s.super := by rw [State.super, State.charge_cur, State.super]
@[simp] theorem State.charge_ea (s : State) (m : MAddr) (k : Nat) : s.charge.ea m k = s.ea m k := by
  simp only [State.ea, State.charge_rg]
@[simp] theorem State.charge_unacked (s : State) : s.charge.me.unacked = s.me.unacked := by rw [State.charge_me]
theorem State.charge_sliceAllowed (s : State) (super : Bool) (ctx : Nat) (c : CoreId) :
    s.charge.sliceAllowed super ctx c = s.sliceAllowed super ctx c := by
  have hretired : (s.charge.core c).retired = (s.core c).retired := (congrArg Core.retired (s.charge_core_rest c) :)
  have hctx : (s.charge.core c).ctx = (s.core c).ctx := (congrArg Core.ctx (s.charge_core_rest c) :)
  rw [State.sliceAllowed, hretired, hctx, State.sliceAllowed]
theorem State.charge_lexp (s : State) (c : CoreId) (ctx va : Nat) : s.charge.lexp c ctx va = s.lexp c ctx va := by
  have hdtlb : (s.charge.core c).dtlb = (s.core c).dtlb := (congrArg Core.dtlb (s.charge_core_rest c) :)
  rw [State.lexp, hdtlb, State.charge_time, State.lexp]
theorem State.charge_waitsFor (s : State) (c : CoreId) (loc : Loc) (ctx va : Nat) :
    s.charge.waitsFor c loc ctx va = s.waitsFor c loc ctx va := by
  have hreqs : (s.charge.core c).reqs = (s.core c).reqs := (congrArg Core.reqs (s.charge_core_rest c) :)
  have hsettles : (s.charge.core c).settles = (s.core c).settles := (congrArg Core.settles (s.charge_core_rest c) :)
  have hbusy : (s.charge.core c).busyLine = (s.core c).busyLine := (congrArg Core.busyLine (s.charge_core_rest c) :)
  cases loc with
  | slice t off => rw [State.waitsFor, State.waitsFor, hbusy]
  | mem x => simp only [State.waitsFor, State.busyMem, hreqs, hsettles, s.sameStore_charge.homeKey, s.sameStore_charge.homeLine]

/-- An error of translation changes nothing, and translation reads no strand. -/
theorem State.charge_translate_snd (s : State) (c : CoreId) (ctx : Nat) (fetch : Bool) (va : Nat) :
    (s.charge.translate c ctx fetch va).2 = (s.translate c ctx fetch va).2 := by
  have hdtlb : (s.charge.core c).dtlb = (s.core c).dtlb := (congrArg Core.dtlb (s.charge_core_rest c) :)
  have hitlb : (s.charge.core c).itlb = (s.core c).itlb := (congrArg Core.itlb (s.charge_core_rest c) :)
  have hway : s.charge.way c.pkg = s.way c.pkg := funext fun p => s.sameStore_charge.way c.pkg p
  simp only [State.translate, hdtlb, hitlb, State.charge_time, s.sameStore_charge.crew, s.sameStore_charge.walkBy hway]
  repeat' split
  all_goals rfl

/-! ### Requests in flight of all cores -/

theorem SMap.get_eq_or_mem {α : Type} (d : α) (m : SMap α) (k : Nat) : m.get d k = d ∨ (k, m.get d k) ∈ m := by
  induction m with
  | nil => exact Or.inl rfl
  | cons p r ih =>
    rw [SMap.get]
    split
    · next h => subst h; exact Or.inr (List.mem_cons_self ..)
    · exact ih.imp_right (List.mem_cons_of_mem _)
theorem SMap.mem_set {α : Type} {m : SMap α} {k : Nat} {v : α} {p : Nat × α} (h : p ∈ m.set k v) : p = (k, v) ∨ p ∈ m := by
  induction m with
  | nil => exact Or.inl (List.mem_singleton.1 h)
  | cons q r ih =>
    rw [SMap.set] at h
    split at h
    · exact List.mem_cons.1 h
    · split at h
      · exact (List.mem_cons.1 h).imp_right (List.mem_cons_of_mem _)
      · rcases List.mem_cons.1 h with rfl | h
        · exact Or.inr (List.mem_cons_self ..)
        · exact (ih h).imp_right (List.mem_cons_of_mem _)

/-- No request of a crew's cores satisfies f, so that none is kept from the cache. -/
theorem State.keepers_eq_nil_iff {s : State} {crew : Nat} {f : Req → Bool} : s.keepers crew f = [] ↔
    ∀ k ∈ s.cores, (coreOfKey k.1).crewNo = crew → ∀ r ∈ k.2.reqs, ¬ (r.2.data.getD 0 0 ≠ 0 ∧ f r.2 = true) := by
  simp only [State.keepers, List.flatMap_eq_nil_iff]
  refine forall₂_congr fun k _ => ?_
  by_cases hk : (coreOfKey k.1).crewNo = crew
  · simp [hk, List.filter_eq_nil_iff]
  · simp [hk]

theorem State.charge_keepers_eq_nil {s : State} {crew : Nat} {f : Req → Bool} (h : s.keepers crew f = []) : s.charge.keepers crew f = [] := by
  rw [State.keepers_eq_nil_iff] at h ⊢
  intro k hk hcrew r hr
  have hcores : k ∈ s.cores ∨ k.1 = s.cur.core.key ∧ k.2.reqs = (s.core s.cur.core).reqs := by
    rw [State.charge_eq] at hk
    split at hk
    · exact Or.inl hk
    · rcases SMap.mem_set hk with rfl | hk
      · exact Or.inr ⟨rfl, rfl⟩
      · exact Or.inl hk
  rcases hcores with hk | ⟨hkey, hreqs⟩
  · exact h k hk hcrew r hr
  · rw [hreqs] at hr
    rcases SMap.get_eq_or_mem ({} : Core) s.cores s.cur.core.key with hget | hget
    · rw [State.core, hget] at hr; cases hr
    · exact h _ hget (by rwa [← hkey]) r hr

/-! ## What the statements assume of an address -/

theorem Reaches.charge {s : State} {need : Need} {a : Word} {x : Xlat} (h : Reaches s need a x) : Reaches s.charge need a x where
  form := h.form
  virt := h.virt
  hit := by
    have hdtlb : s.charge.myCore.dtlb = s.myCore.dtlb := (congrArg Core.dtlb s.charge_myCore_rest :)
    rw [hdtlb, State.charge_ctx, State.charge_cur, State.charge_time]; exact h.hit
  ok := by rw [State.charge_super, s.sameStore_charge.checkLoc]; exact h.ok
  home := by rw [State.charge_cur]; exact h.home
  open_ := by rw [State.charge_ctx, s.sameStore_charge.fencedFor]; exact h.open_
  comb := by rw [State.charge_cur, s.sameStore_charge.crew]; exact h.comb
  calm := by rw [State.charge_pkg]; exact h.calm
  lone := by rw [State.charge_cur, s.sameStore_charge.aliases]; exact h.lone
  flow := by rw [State.charge_cur, s.sameStore_charge.stuckAt]; exact h.flow
  free := by rw [State.charge_cur, State.charge_ctx, State.charge_waitsFor]; exact h.free
  kept := by
    rw [State.charge_cur]
    refine State.charge_keepers_eq_nil ?_
    simp only [s.sameStore_charge.lineHome]
    exact h.kept

theorem OwnSlice.charge {s : State} {a : Word} {off : Nat} (h : OwnSlice s a off) : OwnSlice s.charge a off where
  form := h.form
  slice := h.slice
  names := by rw [State.charge_cur, State.charge_sliceOf]; exact h.names
  may := by rw [State.charge_cur, State.charge_super, State.charge_ctx, State.charge_sliceAllowed]; exact h.may

end Sys2Proof.Machine
end

section
/-! SUPPORT. An access whose home is the core's own package and where nothing stands in its way: it is translated, arrives, and finds the crew cache
as it is (R198 to R204). -/

namespace Sys2Proof.Machine

/-! ## Sparse maps -/

theorem SMap.find?_of_not_has {α : Type} {m : SMap α} {k : Nat} (h : m.has k = false) : m.find? (fun p => p.1 == k) = none := by
  induction m with
  | nil => rfl
  | cons p r ih =>
    rw [SMap.has, Bool.or_eq_false_iff, beq_eq_false_iff_ne] at h
    rw [List.find?_cons_of_neg (by simpa using Ne.symm h.1), ih h.2]
theorem SMap.any_of_not_has {α : Type} {m : SMap α} {k : Nat} (h : m.has k = false) (f : α → Bool) : m.any (fun p => p.1 == k && f p.2) = false := by
  rw [List.any_eq_false]
  intro p hp
  have := List.find?_eq_none.1 (SMap.find?_of_not_has h) p hp
  simp_all
theorem SMap.del_of_not_has {α : Type} {m : SMap α} {k : Nat} (h : m.has k = false) : m.del k = m := by
  rw [SMap.del, List.filter_eq_self]
  intro p hp
  have := List.find?_eq_none.1 (SMap.find?_of_not_has h) p hp
  simp_all
theorem SMap.find?_set_same {α : Type} (m : SMap α) (k : Nat) (v : α) : (m.set k v).find? (fun p => p.1 == k) = some (k, v) := by
  induction m with
  | nil => simp [SMap.set]
  | cons p r ih =>
    unfold SMap.set
    split_ifs with hlt heq
    · simp
    · simp
    · rw [List.find?_cons_of_neg (by simpa using Ne.symm heq), ih]

/-! ## A package without wakes, and the way to oneself -/

section
variable {s : State} {p : Nat}

theorem State.severed_self (s : State) (p : Nat) : s.severed p p = false := by simp [State.severed, State.severedBy]
theorem State.blocked_self (s : State) (p : Nat) : s.blocked p p = false := by simp [State.blocked, State.blockedBy]
theorem State.way_self (s : State) (p : Nat) : s.way p p = none := by simp [State.way, State.severed_self, State.blocked_self]

variable (hcalm : (s.pkg p).wakes = [])
include hcalm

theorem State.wakeAt_of_calm (a : Nat) : s.wakeAt p a = none := by rw [State.wakeAt, hcalm]; rfl
theorem State.wakeKey_of_calm (a : Nat) : s.wakeKey p a = (p, a) := by
  rw [State.wakeKey, State.wakeWalk, State.wakeAt_of_calm hcalm]
theorem State.homeKey_of_calm (a : Nat) : s.homeKey p a = memKey p a := by rw [State.homeKey, State.wakeKey_of_calm hcalm]
theorem State.wayTo_of_calm (o a : Nat) : s.wayTo o p a = s.way o p := by
  rw [State.wayTo, State.wakeKey_of_calm hcalm, State.way_self]
  cases s.way o p <;> rfl
theorem State.chase_of_calm {x : Xlat} (hx : x.pkg = p) (c : CoreId) (ctx va : Nat) : s.chase c ctx va x = (s, x) := by
  rw [State.chase, State.chaseBy, hx, State.wakeAt_of_calm hcalm]
end

/-- What an access that arrives at a home in its own package without wakes meets there, in order: a fence of the context, what its crew still has to
send, a reserved frame, an empty key slot. -/
theorem State.arrive_of_calm {s : State} {c : CoreId} {ctx va : Nat} {x : Xlat} (hhome : x.pkg = c.pkg) (hcalm : (s.pkg x.pkg).wakes = []) :
    s.arrive c ctx va x = if s.fencedFor c.pkg x.pkg ctx then (s, .error 0x93) else if s.stuckAt c.crewNo x then (s, .error dWait)
      else if (s.pkg x.pkg).frameReserved (x.pa / 2 ^ 16) then (s.alarm2 x.pkg ctx, .error dMKERNEL)
      else if !(s.pkg x.pkg).keys.has x.key then (s, .error dMKEY) else (s, .ok x) := by
  rw [State.arrive]
  split
  · rfl
  next hopen =>
    have hway : s.wayTo c.pkg x.pkg x.pa = none := by rw [State.wayTo_of_calm hcalm, ← hhome, State.way_self]
    rw [Bool.not_eq_true] at hopen
    simp only [State.chase_of_calm hcalm rfl, State.wakeKey_of_calm hcalm, hway, hopen, Bool.or_self, Bool.false_eq_true, if_false]

theorem State.reserved_and_key_of_checkLoc {s : State} {super : Bool} {need : Need} {x : Xlat} (h : s.checkLoc super need x = none) :
    (s.pkg x.pkg).frameReserved (x.pa / 2 ^ 16) = false ∧ (s.pkg x.pkg).keys.has x.key = true := by
  unfold State.checkLoc at h
  split at h
  · cases h
  · next _ =>
    split at h
    · cases h
    · next hres =>
      split at h
      · cases h
      · next hkey => simp_all

/-! ## A crew cache without combining entries, and a line that is absent -/

section
variable {s : State} {crew : Nat}

theorem State.flushCombs_of_nil (h : (s.crew crew).comb = []) (f : Comb → Bool) : s.flushCombs crew f = s := by
  rw [State.flushCombs, h]; rfl
theorem State.flushAt_of_nil (h : (s.crew crew).comb = []) (p a n : Nat) : s.flushAt crew p a n = s := State.flushCombs_of_nil h _
theorem State.soleLine_of_nil {x : Xlat} (h : s.aliases crew x = []) : s.soleLine crew x = s := by rw [State.soleLine, h]; rfl

theorem State.cleanLine_of_absent {ln : Nat} (h : (s.crew crew).lines.has ln = false) : s.cleanLine crew ln = s := by
  rw [State.cleanLine, SMap.find?_of_not_has h]
theorem State.evictLine_of_absent {ln : Nat} (h : (s.crew crew).lines.has ln = false) : s.evictLine crew ln = s.dropLine crew ln := by
  rw [State.evictLine, State.cleanLine_of_absent h, State.dropCleaned, SMap.any_of_not_has h CLine.dirty]; rfl
theorem State.voidLine_of_nil {ln : Nat}
    (h : s.keepers crew (fun r => s.lineHome (lineNo (r.data.getD 1 0) (r.data.getD 2 0)) == s.lineHome ln) = []) : s.voidLine crew ln = s := by
  rw [State.voidLine, State.voidFills, State.voidReqs, h]; rfl
/-- A line absent and in no flight: evicting it leaves its crew as it is. -/
theorem State.evictLine_of_absent_of_nil {ln : Nat} (h : (s.crew crew).lines.has ln = false)
    (hk : s.keepers crew (fun r => s.lineHome (lineNo (r.data.getD 1 0) (r.data.getD 2 0)) == s.lineHome ln) = []) :
    s.evictLine crew ln = s.modCrew crew fun k => k := by
  rw [State.evictLine_of_absent h, State.dropLine, State.voidLine_of_nil hk, State.modCrew, SMap.del_of_not_has h]; rfl

theorem State.crew_modCrew_id (s : State) (n m : Nat) : (s.modCrew n fun k => k).crew m = s.crew m := by
  by_cases hm : m = n
  · subst hm; exact State.crew_modCrew_same ..
  · exact State.crew_modCrew_ne s _ hm

/-- The line of a location, as its home holds it under its key slot. -/
def State.fetched (s : State) (x : Xlat) : CLine :=
  ⟨(s.under x.key (memKey x.pkg (x.pa / 64 * 64)) 64).mem.readBytes (memKey x.pkg (x.pa / 64 * 64)) 64, 0, [], x.key, (x.ctx, x.va / 64 * 64), x.lease⟩

theorem State.fillLine_of_present {x : Xlat} (hl : s.aliases crew x = []) (h : (s.crew crew).lines.has (lineNo x.pkg x.pa) = true) :
    s.fillLine crew x = s := by
  simp only [State.fillLine, State.soleLine_of_nil hl, h, if_true]
theorem State.fillLine_of_absent {x : Xlat} (hl : s.aliases crew x = []) (h : (s.crew crew).lines.has (lineNo x.pkg x.pa) = false)
    (hroom : (s.crew crew).lines.length < 4096) (hcalm : (s.pkg x.pkg).wakes = []) :
    s.fillLine crew x = s.modCrew crew fun k => { k with lines := k.lines.set (lineNo x.pkg x.pa) (s.fetched x) } := by
  simp only [State.fillLine, State.soleLine_of_nil hl, h, Bool.false_eq_true, if_false, hroom, if_true, State.homeKey_of_calm hcalm]
  rfl
end

/-! ## Bytes of a line -/

theorem Memory.drop_readBytes (m : Memory) (a n j : Nat) : (m.readBytes a n).drop j = m.readBytes (a + j) (n - j) := by
  induction j generalizing a n with
  | zero => rfl
  | succ j ih =>
    cases n with
    | zero => rw [Nat.zero_sub]; rfl
    | succ n => rw [Memory.readBytes, List.drop_succ_cons, ih, Nat.add_sub_add_right, Nat.add_assoc, Nat.add_comm 1 j]
theorem Memory.take_readBytes (m : Memory) {a n j : Nat} (h : j ≤ n) : (m.readBytes a n).take j = m.readBytes a j := by
  induction j generalizing a n with
  | zero => rw [List.take_zero]; rfl
  | succ j ih =>
    cases n with
    | zero => omega
    | succ n => rw [Memory.readBytes, List.take_succ_cons, ih (by omega)]; rfl
/-- Bytes of a run of memory are those of memory. -/
theorem leNat_take_drop_readBytes (m : Memory) {a n j k : Nat} (h : j + n ≤ k) :
    leNat (((m.readBytes a k).drop j).take n) = leNat (m.readBytes (a + j) n) := by
  rw [Memory.drop_readBytes, Memory.take_readBytes m (by omega)]

/-- Bytes within a line are seen as their line is. -/
theorem State.under_within (s : State) (slot : Nat) {k n : Nat} (hn : 0 < n) (h : k % 64 + n ≤ 64) :
    s.under slot k n = s.under slot (64 * (k / 64)) 64 := by
  have hline : 64 * (k / 64) / 64 = k / 64 := by omega
  have hcount : (k + n + 63) / 64 - k / 64 = (64 * (k / 64) + 64 + 63) / 64 - k / 64 := by omega
  have hpkg : 64 * (k / 64) / 2 ^ 40 = k / 2 ^ 40 := by omega
  simp only [State.under, hline, hcount, hpkg]

/-- n bytes of a fetched line are those that the home's key slot sees. -/
theorem State.leNat_fetched (s : State) {x : Xlat} {n : Nat} (hn : 0 < n) (h : x.pa % 64 + n ≤ 64) :
    leNat (((s.fetched x).bytes.drop (x.pa % 64)).take n) = (s.under x.key (memKey x.pkg x.pa) n).readN (memKey x.pkg x.pa) n := by
  have hkey : memKey x.pkg (x.pa / 64 * 64) = 64 * (memKey x.pkg x.pa / 64) := by simp only [memKey]; omega
  have hplace : 64 * (memKey x.pkg x.pa / 64) + x.pa % 64 = memKey x.pkg x.pa := by simp only [memKey]; omega
  have hin : memKey x.pkg x.pa % 64 + n ≤ 64 := by simp only [memKey]; omega
  rw [State.fetched, leNat_take_drop_readBytes _ (by omega), hkey, hplace, State.readN, s.under_within x.key hn hin]

theorem take_drop_putBytes {l bs : List Byte} {off : Nat} (h : off ≤ l.length) : ((putBytes l off bs).drop off).take bs.length = bs := by
  rw [putBytes, List.append_assoc, List.drop_append_of_le_length (by simp [h]), List.drop_take, Nat.sub_self, List.take_zero, List.nil_append,
    List.take_left]

theorem State.lineRead_of_find {s : State} {crew p a n ln : Nat} {l : CLine}
    (h : (s.crew crew).lines.find? (fun q => q.1 == lineNo p a) = some (ln, l)) : s.lineRead crew p a n = leNat ((l.bytes.drop (a % 64)).take n) := by
  rw [State.lineRead, h]
/-- What is written to a present line reads back. -/
theorem State.lineRead_lineWrite {s : State} {crew p a n ln who v : Nat} {l : CLine}
    (h : (s.crew crew).lines.find? (fun q => q.1 == lineNo p a) = some (ln, l)) (hlen : a % 64 ≤ l.bytes.length) :
    (s.lineWrite crew p a n v who).lineRead crew p a n = v % 2 ^ (8 * n) := by
  have hln : ln = lineNo p a := by simpa using List.find?_some h
  subst hln
  rw [State.lineWrite, State.lineRead_of_find (l := { l with
    bytes := putBytes l.bytes (a % 64) (leBytes n v), mask := l.mask ||| maskOf (a % 64) n,
    writers := if l.writers.contains who then l.writers else l.writers ++ [who] }) (ln := lineNo p a)]
  · have hbytes := take_drop_putBytes (bs := leBytes n v) hlen
    rw [leBytes_length] at hbytes
    rw [hbytes, leNat_leBytes, show 256 = 2 ^ 8 from rfl, ← Nat.pow_mul]
  · rw [State.crew_modCrew_same, h]
    exact SMap.find?_set_same ..

/-! ## An address that is reached -/

theorem sixteen_le_pageBits (l : Nat) : 16 ≤ pageBits l := by
  unfold pageBits; split <;> decide
theorem xlatOf_pa_mod (e : TlbE) (va : Nat) : (xlatOf e va).pa % 64 = va % 64 := by
  obtain ⟨k, hk⟩ := Nat.exists_eq_add_of_le (sixteen_le_pageBits e.level)
  have hdvd : 64 ∣ 2 ^ pageBits e.level := by rw [hk, Nat.pow_add]; exact Dvd.dvd.mul_right (by decide) _
  have hlow : va % 2 ^ pageBits e.level % 64 = va % 64 := Nat.mod_mod_of_dvd _ hdvd
  show (leafFrame e.leaf * 2 ^ 16 + va % 2 ^ pageBits e.level) % 64 = va % 64
  omega

theorem bytes_pos (z : Sz) : 0 < z.bytes := by cases z <;> decide
theorem mod_add_bytes_le (z : Sz) {a : Nat} (h : a % z.bytes = 0) : a % 64 + z.bytes ≤ 64 := by
  cases z <;> simp only [Sz.bytes] at h ⊢ <;> omega

section
variable {u : State} {need : Need} {a : Word} {x : Xlat} (h : Reaches u need a x)
include h

theorem Reaches.translate : ∃ e, u.translate u.cur.core u.ctx false a.toNat = (u, .ok e) ∧ x = xlatOf e a.toNat := by
  obtain ⟨e, he, hx⟩ := h.hit
  refine ⟨e, ?_, hx⟩
  rw [State.myCore] at he
  simp only [State.translate, Bool.false_eq_true, if_false, he]
theorem Reaches.locate : u.locate u.cur.core u.ctx u.super false need a.toNat = (u, .ok x) := by
  obtain ⟨e, he, hx⟩ := h.translate
  have hok := h.ok
  rw [hx] at hok
  simp only [State.locate, he, hok, hx]
theorem Reaches.resolve : u.resolve u.cur.core u.ctx u.super need a = (u, .ok (.mem x)) := by
  simp only [State.resolve, h.virt, Bool.false_eq_true, if_false, h.locate]
theorem Reaches.arrive : u.arrive u.cur.core u.ctx a.toNat x = (u, .ok x) := by
  obtain ⟨hres, hkey⟩ := State.reserved_and_key_of_checkLoc h.ok
  have hopen := h.open_
  rw [State.arrive_of_calm h.home h.calm, ← h.home, hopen, h.flow, hres, hkey]; rfl
theorem Reaches.homeKey (pa : Nat) : u.homeKey x.pkg pa = memKey x.pkg pa := State.homeKey_of_calm h.calm pa
theorem Reaches.flushAt (n : Nat) : u.flushAt u.cur.core.crewNo x.pkg x.pa n = u := State.flushAt_of_nil h.comb ..
theorem Reaches.evictAt (hmiss : (u.crew u.cur.core.crewNo).lines.has (lineNo x.pkg x.pa) = false) :
    u.evictAt u.cur.core.crewNo x = u.modCrew u.cur.core.crewNo fun k => k := by
  rw [State.evictAt, State.soleLine_of_nil h.lone, State.evictLine_of_absent_of_nil hmiss h.kept]
theorem Reaches.fillLine (hmiss : (u.crew u.cur.core.crewNo).lines.has (lineNo x.pkg x.pa) = false)
    (hroom : (u.crew u.cur.core.crewNo).lines.length < 4096) :
    u.fillLine u.cur.core.crewNo x =
      u.modCrew u.cur.core.crewNo fun k => { k with lines := k.lines.set (lineNo x.pkg x.pa) (u.fetched x) } :=
  State.fillLine_of_absent h.lone hmiss hroom h.calm
theorem Reaches.within {z : Sz} (hz : a.toNat % z.bytes = 0) : x.pa % 64 + z.bytes ≤ 64 := by
  obtain ⟨e, -, rfl⟩ := h.hit
  rw [xlatOf_pa_mod]
  exact mod_add_bytes_le z hz
end

theorem OwnSlice.resolve {u : State} {a : Word} {off : Nat} (h : OwnSlice u a off) (need : Need) :
    u.resolve u.cur.core u.ctx u.super need a = (u, .ok (.slice u.cur.core off)) := by
  simp only [State.resolve, h.slice, if_true, h.names, h.may]

end Sys2Proof.Machine
end

section
/-! SUPPORT. What an access that reaches its location comes to (R198 to R204): the state that it leaves beside its strand, the strand, and how far that
reaches. -/

namespace Sys2Proof.Machine

/-! ## Completion with an effect on memory and the crews -/

/-- A state without memory and crews. -/
def State.sansStore (s : State) : State := { s with mem := [], seals := [], crews := [] }

/-- The instruction completes: it has turned the state into w, and its strand, which is x, goes on. -/
def Leaves (i : Instr) (s w : State) (x : Strand) : Prop := Answers i s fun t => OnlyStrand s.cur w t ∧ t.me = s.after x

section
variable {i : Instr} {g : Guard} {s w : State} {body : State → Res} {x : Strand}

theorem State.me_of_sansStore {u : State} (h : w.sansStore = u.sansStore) : w.me = u.me := (congrArg State.me h :)

/-- An effect on memory and crews, and then on the executing strand. -/
theorem leaves_of_body (hg : s.me.guard g = true) (he : exec i s = issueU i g body s) (f : Strand → Strand) (hb : body s.charge = .ok (w.modMe f))
    (hw : w.sansStore = s.charge.sansStore) (hf : f { s.me with left := s.leftIssued } = { x with left := s.leftIssued })
    (hpc : x.pc = s.me.pc) : Leaves i s w x := by
  have hcur : w.cur = s.cur := (congrArg State.cur hw :).trans s.charge_cur
  have hme : w.me = { s.me with left := s.leftIssued } := (State.me_of_sansStore hw).trans s.charge_me
  refine ⟨_, he.trans (issueU_of_guard hg), ?_⟩
  rw [hb, ← hcur]
  show OnlyStrand w.cur w (w.modMe f).advance ∧ (w.modMe f).advance.me = _
  rw [State.advance, State.modMe_modMe]
  refine ⟨onlyStrand_modMe .., ?_⟩
  rw [State.me_modMe, hme, hf]
  show _ = ({ x with left := s.leftIssued } : Strand).goesOn (nextPc s.me.pc) false
  rw [← hpc]; rfl

/-- An effect on memory and crews alone: the strand goes on. -/
theorem answers_of_ok (hg : s.me.guard g = true) (he : exec i s = issueU i g body s) (hb : body s.charge = .ok w)
    (hw : w.sansStore = s.charge.sansStore) : Answers i s fun t => OnlyStrand s.cur w t ∧ t.me = s.after s.me ∧ t.mem = w.mem := by
  refine ⟨_, he.trans (issueU_of_guard hg), ?_⟩
  have hcur : w.cur = s.cur := (congrArg State.cur hw :).trans s.charge_cur
  have hme : w.me = { s.me with left := s.leftIssued } := (State.me_of_sansStore hw).trans s.charge_me
  rw [hb, ← hcur]
  show OnlyStrand w.cur w w.advance ∧ w.advance.me = _ ∧ _
  refine ⟨onlyStrand_modMe .., ?_, rfl⟩
  rw [State.advance, State.me_modMe, hme]; rfl
theorem leaves_of_ok (hg : s.me.guard g = true) (he : exec i s = issueU i g body s) (hb : body s.charge = .ok w)
    (hw : w.sansStore = s.charge.sansStore) : Leaves i s w s.me := by
  obtain ⟨t, ht, honly, hme, -⟩ := answers_of_ok hg he hb hw
  exact ⟨t, ht, honly, hme⟩

/-- An access done: its result, where it has one, in the destination. -/
theorem leaves_of_accDone (hg : s.me.guard g = true) (he : exec i s = issueU i g body s) {p : Park} {v : Option Word}
    (hb : body s.charge = w.accDone p v) (hw : w.sansStore = s.charge.sansStore) : Leaves i s w (v.elim s.me (s.me.wg p.dst)) := by
  cases v with
  | none => exact leaves_of_ok hg he hb hw
  | some v => exact leaves_of_body hg he (fun t => t.wg p.dst v) hb hw (Strand.wg_withLeft ..) (Strand.wg_pc ..)

theorem Leaves.completes (h : Leaves i s w x) (hw : OnlyStrand s.cur s w) : Completes i s x := by
  obtain ⟨t, ht, honly, hme⟩ := h
  exact ⟨t, ht, hw.trans honly, hme⟩

/-- What an effect on memory and crews leaves of the rest of the state. -/
theorem onlyCoreOf_fields {h t : State} (hw : w.sansStore = s.charge.sansStore) (hcrew : ∀ n, w.crew n = h.crew n)
    (hh : h.sansStore = s.sansStore) (ht : OnlyStrand s.cur w t) : OnlyCore s.cur.core h t ∧ (t.core s.cur.core).rest = (h.core s.cur.core).rest
      ∧ ∀ k, k ≠ s.cur.slot → (t.core s.cur.core).strand k = (h.core s.cur.core).strand k := by
  have hcharge := onlyStrand_charge s
  have hcore (d : CoreId) : w.core d = s.charge.core d := (congrArg (State.core · d) hw :)
  have hcore' (d : CoreId) : h.core d = s.core d := (congrArg (State.core · d) hh :)
  have hpkg (n : Nat) : w.pkg n = s.charge.pkg n := (congrArg (State.pkg · n) hw :)
  have hpkg' (n : Nat) : h.pkg n = s.pkg n := (congrArg (State.pkg · n) hh :)
  have hagenda : w.agenda = s.charge.agenda := (congrArg State.agenda hw :)
  have hagenda' : h.agenda = s.agenda := (congrArg State.agenda hh :)
  have hturn : w.turn = s.charge.turn := (congrArg State.turn hw :)
  have hturn' : h.turn = s.turn := (congrArg State.turn hh :)
  have hcur : w.cur = s.charge.cur := (congrArg State.cur hw :)
  have hcur' : h.cur = s.cur := (congrArg State.cur hh :)
  have hfree : w.freeN = s.charge.freeN := (congrArg State.freeN hw :)
  have hfree' : h.freeN = s.freeN := (congrArg State.freeN hh :)
  refine ⟨⟨fun d hd => ?_, fun n => ?_, fun n => ?_, ?_, ?_, ?_, ?_⟩, ?_, fun k hk => ?_⟩
  · rw [ht.cores d hd, hcore, hcharge.cores d hd, hcore']
  · rw [ht.crews, hcrew]
  · rw [ht.pkgs, hpkg, hcharge.pkgs, hpkg']
  · rw [ht.agenda, hagenda, hcharge.agenda, hagenda']
  · rw [ht.turn, hturn, hcharge.turn, hturn']
  · rw [ht.cur, hcur, hcharge.cur, hcur']
  · rw [ht.freeN, hfree, hcharge.freeN, hfree']
  · rw [ht.rest, hcore, hcharge.rest, hcore']
  · rw [ht.others k hk, hcore, hcharge.others k hk, hcore']

/-- n bytes of memory stored at a key, in the state h that the access sees. -/
theorem Leaves.storesAt {h : State} {k n v : Nat} (hl : Leaves i s w x) (hw : w.sansStore = s.charge.sansStore) (hcrew : ∀ m, w.crew m = h.crew m)
    (hh : h.sansStore = s.sansStore) (hmem : w.mem = (h.writeN k n v).mem) (hseals : w.seals = h.seals) :
    Answers i s fun t => StoresAt s.cur k n h t ∧ t.me = s.after x ∧ (h.mem.wf = true → t.readN k n = v % 2 ^ (8 * n)) := by
  obtain ⟨t, ht, honly, hme⟩ := hl
  obtain ⟨hcore, hrest, hothers⟩ := onlyCoreOf_fields hw hcrew hh honly
  have hread (a : Nat) : t.mem.read a = (h.writeN k n v).mem.read a := (honly.mem.1 a).trans (by rw [hmem])
  refine ⟨t, ht, { hcore with mem := ⟨fun b hb => ?_, honly.mem.2.trans hseals⟩, rest := hrest, others := hothers }, hme, fun hwf => ?_⟩
  · rw [hread, State.read_writeN_of_outside _ _ hb]
  · rw [State.readN_congr fun a _ _ => hread a, State.readN_writeN_same hwf]
end

/-! ## The way of an access to its location -/

section
variable {u : State} {p : Park}

theorem State.access_of_new (hform : mformOk p.addr = true) (halign : p.addr.toNat % p.sz.bytes = 0) (hhold : u.me.hold = .none) :
    u.access p = u.accGo p none := by
  simp [State.access, hform, halign, hhold]

/-- Nothing of the strand or its core has to be done before a .rel access: it carries none, or works in the crew cache with every store of the strand
acknowledged (R201). -/
theorem State.accGo_of_resolved {loc : Loc} {base : Option Nat} (hres : u.resolve u.cur.core u.ctx u.super p.kind.need p.addr = (u, .ok loc))
    (hrel : p.kind.rel = false ∨ (p.wide = false ∧ u.me.unacked = 0)) : u.accGo p base = u.accTo p loc base := by
  simp only [State.accGo, hres]
  rcases hrel with h | ⟨hw, hu⟩
  · simp [h]
  · simp [hw, hu]

theorem State.accTo_own (off : Nat) (base : Option Nat) :
    u.accTo p (.slice u.cur.core off) base =
      (u.perform u.cur.core u.cur.slot u.ctx p (.slice u.cur.core off) base).1.accDone p
        (u.perform u.cur.core u.cur.slot u.ctx p (.slice u.cur.core off) base).2 := by
  simp only [State.accTo, if_true]

/-- An access to a home in the core's own package is performed at once. -/
theorem State.accTo_of_reaches {x : Xlat} {base : Option Nat} (h : Reaches u p.kind.need p.addr x) :
    u.accTo p (.mem x) base =
      (u.perform u.cur.core u.cur.slot u.ctx p (.mem x) base).1.accDone p (u.perform u.cur.core u.cur.slot u.ctx p (.mem x) base).2 := by
  simp only [State.accTo, h.free, Bool.false_eq_true, if_false, h.home, if_true, h.arrive, ite_self]

/-- An access to the own slice. -/
theorem State.access_own {off : Nat} (h : OwnSlice u p.addr off) (halign : p.addr.toNat % p.sz.bytes = 0) (hhold : u.me.hold = .none)
    (hrel : p.kind.rel = false ∨ (p.wide = false ∧ u.me.unacked = 0)) :
    u.access p = (u.perform u.cur.core u.cur.slot u.ctx p (.slice u.cur.core off) none).1.accDone p
      (u.perform u.cur.core u.cur.slot u.ctx p (.slice u.cur.core off) none).2 := by
  rw [State.access_of_new h.form halign hhold, State.accGo_of_resolved (h.resolve _) hrel, State.accTo_own]

/-- An access to a home that the core reaches. -/
theorem State.access_home {x : Xlat} (h : Reaches u p.kind.need p.addr x) (halign : p.addr.toNat % p.sz.bytes = 0) (hhold : u.me.hold = .none)
    (hrel : p.kind.rel = false ∨ (p.wide = false ∧ u.me.unacked = 0)) :
    u.access p = (u.perform u.cur.core u.cur.slot u.ctx p (.mem x) none).1.accDone p
      (u.perform u.cur.core u.cur.slot u.ctx p (.mem x) none).2 := by
  rw [State.access_of_new h.form halign hhold, State.accGo_of_resolved h.resolve hrel, State.accTo_of_reaches h]
end

/-! ## Atomic operations at their location (R202, R203, R204) -/

/-- The word of n bytes of memory that an atom returns. -/
theorem State.readN_lt (s : State) (k n : Nat) : s.readN k n < 2 ^ (8 * n) := by
  have h := leNat_lt_pow_length (s.mem.readBytes k n)
  rwa [length_readBytes, show 256 = 2 ^ 8 from rfl, ← Nat.pow_mul] at h

section
variable {u : State} {x : Xlat} {need : Need} {a : Word}

/-- An atomic at its home, a line of which is not in the crew cache. -/
theorem State.memAtom_wide (h : Reaches u need a x) (hmiss : (u.crew u.cur.core.crewNo).lines.has (lineNo x.pkg x.pa) = false) (who : Nat)
    (op : AtomOp) (n v e : Nat) :
    u.memAtom u.cur.core.crewNo who true x op n v e =
      ((((u.modCrew u.cur.core.crewNo fun k => k).under x.key (memKey x.pkg x.pa) n).writeN (memKey x.pkg x.pa) n
        (atomNew op n ((u.under x.key (memKey x.pkg x.pa) n).readN (memKey x.pkg x.pa) n) v e)),
        (u.under x.key (memKey x.pkg x.pa) n).readN (memKey x.pkg x.pa) n) := by
  have hhome : (u.modCrew u.cur.core.crewNo fun k => k).homeKey x.pkg x.pa = memKey x.pkg x.pa := State.homeKey_of_calm h.calm _
  simp only [State.memAtom, h.flushAt, if_true, h.evictAt hmiss, hhome]
  rfl

/-- An atomic in the crew cache, whose line is fetched first. -/
theorem State.memAtom_inCrew (h : Reaches u need a x) (hmiss : (u.crew u.cur.core.crewNo).lines.has (lineNo x.pkg x.pa) = false)
    (hroom : (u.crew u.cur.core.crewNo).lines.length < 4096) {n : Nat} (hn : 0 < n) (hin : x.pa % 64 + n ≤ 64) (who : Nat) (op : AtomOp) (v e : Nat) :
    u.memAtom u.cur.core.crewNo who false x op n v e =
      ((u.modCrew u.cur.core.crewNo fun k => { k with lines := k.lines.set (lineNo x.pkg x.pa) (u.fetched x) }).lineWrite u.cur.core.crewNo x.pkg x.pa n
        (atomNew op n ((u.under x.key (memKey x.pkg x.pa) n).readN (memKey x.pkg x.pa) n) v e) who,
        (u.under x.key (memKey x.pkg x.pa) n).readN (memKey x.pkg x.pa) n) := by
  have hread : (u.modCrew u.cur.core.crewNo fun k => { k with lines := k.lines.set (lineNo x.pkg x.pa) (u.fetched x) }).lineRead
      u.cur.core.crewNo x.pkg x.pa n = (u.under x.key (memKey x.pkg x.pa) n).readN (memKey x.pkg x.pa) n := by
    rw [State.lineRead_of_find (l := u.fetched x) (ln := lineNo x.pkg x.pa), u.leNat_fetched hn hin]
    rw [State.crew_modCrew_same]
    exact SMap.find?_set_same ..
  simp only [State.memAtom, h.flushAt, Bool.false_eq_true, if_false, h.fillLine hmiss hroom, hread]

/-- A .c operation that opens an entry toward a home. -/
theorem State.memComb_opens (h : Reaches u need a x) (hmiss : (u.crew u.cur.core.crewNo).lines.has (lineNo x.pkg x.pa) = false) (slot ctx : Nat)
    {sc : Scope} (hsc : sc.inCrew = false) (op : AtomOp) (sz : Sz) (v : Nat) :
    u.memComb u.cur.core slot ctx sc x op sz v none =
      ((u.modCrew u.cur.core.crewNo fun k => k).modCrew u.cur.core.crewNo fun k => { k with comb := k.comb ++
          [⟨ctx, x.pkg, x.pa, x.key, op, sz, BitVec.ofNat 64 ((u.under x.key (memKey x.pkg x.pa) sz.bytes).readN (memKey x.pkg x.pa) sz.bytes),
            BitVec.ofNat 64 (atomNew op sz.bytes (atomIdentity op sz.bytes) v 0), sc, [(u.cur.core.key, slot, sc)], u.cur.core.key, x.va, x.lease⟩] },
        (u.under x.key (memKey x.pkg x.pa) sz.bytes).readN (memKey x.pkg x.pa) sz.bytes) := by
  have hhome : (u.modCrew u.cur.core.crewNo fun k => k).homeKey x.pkg x.pa = memKey x.pkg x.pa := State.homeKey_of_calm h.calm _
  have hfind : u.combFind u.cur.core.crewNo ctx x op sz = none := by rw [State.combFind, h.comb]; rfl
  have hroom : (u.crew u.cur.core.crewNo).comb.length < 64 := by rw [h.comb]; decide
  simp only [State.memComb, State.flushOthers, State.flushCombs_of_nil h.comb, hfind, hroom, if_true, State.combBase, hsc, Bool.false_eq_true,
    if_false, h.evictAt hmiss, hhome]
  rfl
end

end Sys2Proof.Machine
end

section
/-! SUPPORT. atom and red at the own slice, at a home and in the crew cache (R202 to R204). -/

namespace Sys2Proof.Machine

theorem State.charge_mem (s : State) : s.charge.mem = s.mem := s.sameStore_charge.mem
theorem State.charge_seals (s : State) : s.charge.seals = s.seals := s.sameStore_charge.seals

/-- What a key slot sees is the same before and after the count of an instruction, whatever the crews hold. -/
theorem State.under_of_store {s w : State} (hm : w.mem = s.mem) (hs : w.seals = s.seals) (hp : w.pkgs = s.pkgs) (slot k n : Nat) :
    (w.under slot k n).mem = (s.under slot k n).mem ∧ (w.under slot k n).seals = (s.under slot k n).seals := State.under_congr slot k n hm hs hp

theorem State.charge_under_readN (s : State) (slot k n a m : Nat) : (s.charge.under slot k n).readN a m = (s.under slot k n).readN a m := by
  rw [State.readN, (s.sameStore_charge.under slot k n).mem, State.readN]

theorem State.charge_readN (s : State) (k n : Nat) : s.charge.readN k n = s.readN k n := by rw [State.readN, State.charge_mem, State.readN]

theorem State.writeN_mem (s : State) (k n v : Nat) : (s.writeN k n v).mem = s.mem.writeBytes k (leBytes n v) := rfl

theorem State.mem_charge_writeN (s : State) (k n v : Nat) : (s.charge.writeN k n v).mem = (s.writeN k n v).mem := by
  rw [State.writeN_mem, State.writeN_mem, State.charge_mem]
theorem State.seals_charge_writeN (s : State) (k n v : Nat) : (s.charge.writeN k n v).seals = s.seals := s.charge_seals
theorem State.crew_charge_writeN (s : State) (k n v m : Nat) : (s.charge.writeN k n v).crew m = s.crew m := s.sameStore_charge.crew m


section
variable (s : State) (crew slot k n v : Nat)

theorem State.sansStore_writeN : (s.writeN k n v).sansStore = s.sansStore := rfl
theorem State.sansStore_under : (s.under slot k n).sansStore = s.sansStore := rfl
theorem State.sansStore_modCrew (f : Crew → Crew) : (s.modCrew crew f).sansStore = s.sansStore := rfl

/-- The count of an instruction and a crew put back as it is change nothing that a key slot sees. -/
theorem State.under_charge_modCrew : ((s.charge.modCrew crew fun c => c).under slot k n).mem = (s.under slot k n).mem
    ∧ ((s.charge.modCrew crew fun c => c).under slot k n).seals = (s.under slot k n).seals :=
  State.under_of_store s.charge_mem s.charge_seals s.sameStore_charge.pkgs slot k n
theorem State.mem_charge_under_writeN : (((s.charge.modCrew crew fun c => c).under slot k n).writeN k n v).mem = ((s.under slot k n).writeN k n v).mem := by
  rw [State.writeN_mem, State.writeN_mem, (s.under_charge_modCrew crew slot k n).1]
theorem State.seals_charge_under_writeN :
    (((s.charge.modCrew crew fun c => c).under slot k n).writeN k n v).seals = (s.under slot k n).seals :=
  (s.under_charge_modCrew crew slot k n).2
theorem State.sansStore_charge_under_writeN :
    (((s.charge.modCrew crew fun c => c).under slot k n).writeN k n v).sansStore = s.charge.sansStore := by
  rw [State.sansStore_writeN, State.sansStore_under, State.sansStore_modCrew]
theorem State.crew_charge_under_writeN (m : Nat) :
    (((s.charge.modCrew crew fun c => c).under slot k n).writeN k n v).crew m = (s.under slot k n).crew m :=
  (State.crew_modCrew_id ..).trans (s.sameStore_charge.crew m)
end

/-- An operation performed at a slice. -/
theorem State.perform_slice {u : State} {c t : CoreId} {slot ctx off v : Nat} {p : Park} {base : Option Nat}
    (h : p.newVal (u.readN (sliceKey t off) p.sz.bytes) = some v) : u.perform c slot ctx p (.slice t off) base =
      (u.writeN (sliceKey t off) p.sz.bytes v, p.kind.result p.sz.bytes (u.readN (sliceKey t off) p.sz.bytes)) := by
  simp only [State.perform, State.sread, h, State.swrite]

theorem zextN_of_lt {x w : Nat} (h : x < 2 ^ w) : zextN x w = x := Nat.mod_eq_of_lt h

section
variable {g : Guard} {op : AtomOp} {sz : Sz} {sc : Scope} {s : State} {m : MAddr} {x : Xlat}

/-- The access of an atom. -/
def State.atomPark (s : State) (op : AtomOp) (sz : Sz) (sc : Scope) (ord : BitVec 2) (cb : Bool) (d : Reg) (m : MAddr) : Park :=
  s.acc (.atom op ord cb) sz sc (s.rg m.base + m.disp.signExtend 64) (s.rg m.idx) (s.rg d) d

theorem exec_atom (g : Guard) (op : AtomOp) (sz : Sz) (sc : Scope) (ord : BitVec 2) (cb : Bool) (d : Reg) (m : MAddr) (s : State) :
    exec (.atom g op sz sc ord cb d m) s = issueU (.atom g op sz sc ord cb d m) g (fun s => s.access (s.atomPark op sz sc ord cb d m)) s := rfl

/-- The access of a red. -/
def State.redPark (s : State) (op : AtomOp) (sz : Sz) (sc : Scope) (rel cb : Bool) (v : Reg) (m : MAddr) : Park :=
  s.acc (.red op rel cb) sz sc (s.ea m sz.log) (s.rg v) 0 0

theorem exec_red (g : Guard) (op : AtomOp) (sz : Sz) (sc : Scope) (rel cb : Bool) (v : Reg) (m : MAddr) (s : State) :
    exec (.red g op sz sc rel cb v m) s = issueU (.red g op sz sc rel cb v m) g (fun s => s.access (s.redPark op sz sc rel cb v m)) s := rfl

/-- An atom or red of an operation on n bytes at a key, in the state h that it sees, with its operands: what it stores, and its strand. -/
def Swaps (i : Instr) (s h : State) (k n : Nat) (op : AtomOp) (w e : Nat) (me : Strand) : Prop :=
  Answers i s fun t => StoresAt s.cur k n h t ∧ t.me = s.after me
    ∧ (s.mem.wf = true → t.readN k n = atomNew op n (h.readN k n) w e % 2 ^ (8 * n))

section
variable {i : Instr} {body : State → Res} {p : Park} (hg : s.me.guard g = true) (he : exec i s = issueU i g body s) (hb : body s.charge = s.charge.access p)
  (hhold : s.me.hold = .none) (halign : p.addr.toNat % p.sz.bytes = 0)
  (hrel : p.kind.rel = false ∨ (p.wide = false ∧ s.me.unacked = 0))
include hg he hb hhold halign hrel

/-- An atomic access to the own slice. -/
theorem swaps_own {off : Nat} (hown : OwnSlice s p.addr off)
    (hnew : ∀ old, p.newVal old = some (atomNew op p.sz.bytes old p.data.toNat p.expect.toNat)) :
    Swaps i s s (sliceKey s.cur.core off) p.sz.bytes op p.data.toNat p.expect.toNat
      ((p.kind.result p.sz.bytes (s.readN (sliceKey s.cur.core off) p.sz.bytes)).elim s.me (s.me.wg p.dst)) := by
  have haccess := State.access_own hown.charge halign (by rwa [State.charge_hold]) (by rwa [State.charge_unacked])
  rw [State.perform_slice (hnew _), State.charge_cur, State.charge_readN] at haccess
  dsimp only at haccess
  generalize sliceKey s.cur.core off = k at haccess ⊢
  have hl := leaves_of_accDone hg he (hb.trans haccess) rfl
  obtain ⟨t, ht, hstores, hme, hread⟩ := hl.storesAt (h := s) rfl (fun _ => State.crew_charge_writeN ..) rfl
    (State.mem_charge_writeN ..) (State.seals_charge_writeN ..)
  exact ⟨t, ht, hstores, hme, hread⟩

/-- An atomic access to a home whose line the crew cache does not hold. -/
theorem swaps_home (hreach : Reaches s p.kind.need p.addr x) (hmiss : (s.crew s.cur.core.crewNo).lines.has (lineNo x.pkg x.pa) = false)
    (hwide : p.wide = true) (hkind : (∃ o, p.kind = .atom op o false) ∨ ∃ r, p.kind = .red op r false) :
    Swaps i s (s.under x.key (memKey x.pkg x.pa) p.sz.bytes) (memKey x.pkg x.pa) p.sz.bytes op p.data.toNat p.expect.toNat
      ((p.kind.result p.sz.bytes ((s.under x.key (memKey x.pkg x.pa) p.sz.bytes).readN (memKey x.pkg x.pa) p.sz.bytes)).elim s.me (s.me.wg p.dst)) := by
  have hreach' := hreach.charge
  have haccess := State.access_home hreach' halign (by rwa [State.charge_hold]) (by rwa [State.charge_unacked])
  have hatom := State.memAtom_wide hreach' (by rwa [State.charge_cur, s.sameStore_charge.crew]) s.cur.core.local_ op p.sz.bytes p.data.toNat
    p.expect.toNat
  rw [State.charge_under_readN] at hatom
  have hperform : s.charge.perform s.charge.cur.core s.charge.cur.slot s.charge.ctx p (.mem x) none =
      ((s.charge.memAtom s.charge.cur.core.crewNo s.cur.core.local_ true x op p.sz.bytes p.data.toNat p.expect.toNat).1,
        p.kind.result p.sz.bytes (s.charge.memAtom s.charge.cur.core.crewNo s.cur.core.local_ true x op p.sz.bytes p.data.toNat p.expect.toNat).2) := by
    rcases hkind with ⟨o, hk⟩ | ⟨r, hk⟩ <;> simp only [State.perform, hk, hwide, Bool.false_eq_true, if_false, State.charge_cur]
  rw [hperform, hatom] at haccess
  dsimp only at haccess
  generalize memKey x.pkg x.pa = k at haccess ⊢
  have hsans := s.sansStore_charge_under_writeN s.charge.cur.core.crewNo x.key k p.sz.bytes
    (atomNew op p.sz.bytes ((s.under x.key k p.sz.bytes).readN k p.sz.bytes) p.data.toNat p.expect.toNat)
  have hl := leaves_of_accDone hg he (hb.trans haccess) hsans
  obtain ⟨t, ht, hstores, hme, hread⟩ := hl.storesAt (h := s.under x.key k p.sz.bytes) hsans (fun m => s.crew_charge_under_writeN _ _ _ _ _ m)
    (s.sansStore_under ..) (s.mem_charge_under_writeN ..) (s.seals_charge_under_writeN ..)
  exact ⟨t, ht, hstores, hme, fun hwf => hread (State.under_wf _ _ _ hwf)⟩
end

theorem result_atom (op : AtomOp) (o : BitVec 2) (cb : Bool) {n old : Nat} (h : old < 2 ^ (8 * n)) :
    (AccKind.atom op o cb).result n old = some (BitVec.ofNat 64 old) := by
  rw [AccKind.result, zextN_of_lt h]
end

end Sys2Proof.Machine
end

section
/-! SUPPORT. atom and red toward a home beyond the core or the package: a packet goes out, which an atom waits for (R202, R203, R283). -/

namespace Sys2Proof.Machine

/-! ## Requests -/

/-- What a request for an operation at a location sends under a tag. -/
def State.asksFor (u : State) (a : Park) (loc : Loc) (op : ReqOp) : Nat → Instr :=
  reqPacket u.cur.core u.cur.slot u.ctx u.super loc.tgt op a.addr (u.lexp u.cur.core u.ctx a.addr.toNat) a.wide a.sz.bytes

/-- A state with a request of the executing core entered and sent. -/
def State.asked (u : State) (r : Req) (dst : CoreId) (mk : Nat → Instr) : State :=
  (u.modMyCore fun k => k.entered r).send u.cur.core dst (mk u.myCore.nextTag)

theorem State.asked_me (u : State) (r : Req) (dst : CoreId) (mk : Nat → Instr) : (u.asked r dst mk).me = u.me :=
  State.me_modMyCore u (f := fun k => k.entered r) fun _ => rfl
theorem State.asked_myCore (u : State) (r : Req) (dst : CoreId) (mk : Nat → Instr) : (u.asked r dst mk).myCore = u.myCore.entered r :=
  State.core_modCore_same u u.cur.core fun k => k.entered r
theorem State.asked_sent (u : State) (r : Req) (dst : CoreId) (mk : Nat → Instr) : Sent (mk u.myCore.nextTag) (u.asked r dst mk) :=
  State.send_sent ..
theorem State.asked_mem (u : State) (r : Req) (dst : CoreId) (mk : Nat → Instr) : (u.asked r dst mk).mem = u.mem := rfl
theorem State.asked_seals (u : State) (r : Req) (dst : CoreId) (mk : Nat → Instr) : (u.asked r dst mk).seals = u.seals := rfl

section
variable {i : Instr} {s u : State} {a : Park} {loc : Loc} {o : AtomOp} {n : Nat} {v e : Word}

/-- An operation asked of a home: its strand waits for the answer. -/
theorem finish_sendReq_wait (i : Instr) (s u : State) (yp : Bool) (a : Park) (loc : Loc) (o : AtomOp) (n : Nat) (v e : Word) (q : Bool) :
    ∃ r, finish i s yp (u.sendReq a loc (.atom o n v e q) .nothing false) =
      (u.asked r loc.dst (u.asksFor a loc (.atom o n v e q))).modMe fun t => t.asking i u.myCore.nextTag := by
  cases loc <;> exact ⟨_, State.modMe_modMe ..⟩
/-- An operation posted to a home: its strand goes on, with one more unacknowledged. -/
theorem sendReq_posted (u : State) (a : Park) (loc : Loc) (o : AtomOp) (n : Nat) (v e : Word) (q : Bool) :
    ∃ r, u.sendReq a loc (.atom o n v e q) .nothing true =
      .ok ((u.asked r loc.dst (u.asksFor a loc (.atom o n v e q))).modMe fun t => { t with unacked := t.unacked + 1 }) := by
  cases loc <;> exact ⟨_, rfl⟩
end

section
variable {i : Instr} {g : Guard} {s w : State} {body : State → Res} {a : Park} {loc : Loc} {o : AtomOp} {n : Nat} {v e : Word} {q : Bool}

/-- The packet depends on the cores and the tick alone. -/
theorem State.asksFor_of_sansStore (hw : w.sansStore = s.charge.sansStore) (a : Park) (loc : Loc) (op : ReqOp) : w.asksFor a loc op = s.asksFor a loc op := by
  have hlexp : w.lexp s.cur.core s.ctx a.addr.toNat = s.charge.lexp s.cur.core s.ctx a.addr.toNat :=
    (congrArg (State.lexp · s.cur.core s.ctx a.addr.toNat) hw :)
  have hcur : w.cur = s.cur := (congrArg State.cur hw :).trans s.charge_cur
  have hctx : w.ctx = s.ctx := (congrArg State.ctx hw :).trans s.charge_ctx
  have hsuper : w.super = s.super := (congrArg State.super hw :).trans s.charge_super
  rw [State.asksFor, hcur, hctx, hsuper, hlexp, State.charge_lexp, State.asksFor]

variable (hg : s.me.guard g = true) (he : exec i s = issueU i g body s) (hw : w.sansStore = s.charge.sansStore)
include hg he hw

theorem asks_of_sendReq (hb : body s.charge = w.sendReq a loc (.atom o n v e q) .nothing false) : Asks i s (s.asksFor a loc (.atom o n v e q)) := by
  obtain ⟨r, hsend⟩ := finish_sendReq_wait i s w false a loc o n v e q
  have hcore : w.myCore = s.charge.myCore := (congrArg State.myCore hw :)
  have htag : w.myCore.nextTag = s.myCore.nextTag := (congrArg Core.nextTag hcore).trans s.charge_nextTag
  have hcharge : w.myCore.reqs = s.myCore.reqs := (congrArg Core.reqs hcore).trans s.charge_reqs
  rw [State.asksFor_of_sansStore hw, htag] at hsend
  have hsent := w.asked_sent r loc.dst (s.asksFor a loc (.atom o n v e q))
  have hme : (w.asked r loc.dst (s.asksFor a loc (.atom o n v e q))).me = { s.me with left := s.leftIssued } :=
    (State.asked_me ..).trans ((State.me_of_sansStore hw).trans s.charge_me)
  have hentered := w.asked_myCore r loc.dst (s.asksFor a loc (.atom o n v e q))
  rw [htag] at hsent
  generalize w.asked r loc.dst (s.asksFor a loc (.atom o n v e q)) = u at hsend hsent hme hentered
  have hwaits : (u.modMe fun t => t.asking i s.myCore.nextTag).me = { s.me with left := s.leftIssued }.asking i s.myCore.nextTag := by
    rw [State.me_modMe, hme]
  have hrest : (u.modMe fun t => t.asking i s.myCore.nextTag).myCore.rest = (w.myCore.entered r).rest :=
    (onlyStrand_modMe u _).rest.trans (congrArg Core.rest hentered)
  have hreqs : (u.modMe fun t => t.asking i s.myCore.nextTag).myCore.reqs = s.myCore.reqs.set s.myCore.nextTag r :=
    (congrArg Core.reqs hrest).trans (show w.myCore.reqs.set w.myCore.nextTag r = _ by rw [hcharge, htag])
  have hnext : (u.modMe fun t => t.asking i s.myCore.nextTag).myCore.nextTag = tagAfter (s.myCore.reqs.set s.myCore.nextTag r) s.myCore.nextTag :=
    (congrArg Core.nextTag hrest).trans (show tagAfter (w.myCore.reqs.set w.myCore.nextTag r) w.myCore.nextTag = _ by rw [hcharge, htag])
  refine ⟨_, he.trans (issueU_of_guard hg), ?_⟩
  rw [hb, hsend]
  beta_reduce
  rw [hwaits, hreqs]
  exact ⟨rfl, rfl, rfl, rfl, rfl, rfl, rfl, hnext, SMap.has_set_same .., hsent⟩

theorem posts_of_sendReq (hb : body s.charge = w.sendReq a loc (.atom o n v e q) .nothing true) (hm : w.mem = s.mem) (hs : w.seals = s.seals) :
    Answers i s fun t => SameMem s t ∧ t.me = s.after { s.me with unacked := s.me.unacked + 1 }
      ∧ Sent (s.asksFor a loc (.atom o n v e q) s.myCore.nextTag) t := by
  obtain ⟨r, hsend⟩ := sendReq_posted w a loc o n v e q
  have hcore : w.myCore = s.charge.myCore := (congrArg State.myCore hw :)
  have htag : w.myCore.nextTag = s.myCore.nextTag := (congrArg Core.nextTag hcore).trans s.charge_nextTag
  rw [State.asksFor_of_sansStore hw] at hsend
  have hsent := w.asked_sent r loc.dst (s.asksFor a loc (.atom o n v e q))
  have hme : (w.asked r loc.dst (s.asksFor a loc (.atom o n v e q))).me = { s.me with left := s.leftIssued } :=
    (State.asked_me ..).trans ((State.me_of_sansStore hw).trans s.charge_me)
  have hmem := (w.asked_mem r loc.dst (s.asksFor a loc (.atom o n v e q))).trans hm
  have hseals := (w.asked_seals r loc.dst (s.asksFor a loc (.atom o n v e q))).trans hs
  rw [htag] at hsent
  generalize w.asked r loc.dst (s.asksFor a loc (.atom o n v e q)) = u at hsend hsent hme hmem hseals
  refine ⟨_, he.trans (issueU_of_guard hg), ?_⟩
  rw [hb, hsend]
  show SameMem s (u.modMe _).advance ∧ (u.modMe _).advance.me = _ ∧ Sent _ (u.modMe _).advance
  rw [State.advance, State.modMe_modMe]
  refine ⟨⟨fun b => ?_, ((onlyStrand_modMe u _).mem.2).trans hseals⟩, ?_, hsent⟩
  · rw [(onlyStrand_modMe u _).mem.1, hmem]
  · rw [State.me_modMe, hme]; rfl
end

/-! ## The way of an access to another core's slice, or to a home in another package -/

section
variable {u : State} {p : Park}

theorem State.resolve_slice {need : Need} {a : Word} {t : CoreId} {off : Nat} (hslice : a.getLsbD 63 = true) (hnames : u.sliceOf u.cur.core a = some (t, off))
    (hmay : u.sliceAllowed u.super u.ctx t = true) : u.resolve u.cur.core u.ctx u.super need a = (u, .ok (.slice t off)) := by
  simp only [State.resolve, hslice, if_true, hnames, hmay]

theorem State.resolve_hit {need : Need} {a : Word} {x : Xlat} {l : TlbE} (hvirt : a.getLsbD 63 = false)
    (hhit : tlbFind u.myCore.dtlb u.ctx a.toNat (u.time u.cur.core.pkg) = some l) (hx : x = xlatOf l a.toNat)
    (hok : u.checkLoc u.super need x = none) : u.resolve u.cur.core u.ctx u.super need a = (u, .ok (.mem x)) := by
  rw [State.myCore] at hhit
  subst hx
  simp only [State.resolve, hvirt, Bool.false_eq_true, if_false, State.locate, State.translate, hhit, hok]

/-- The access is an atom, or where it is posted a red; cb: it combines. -/
def Park.Atomic (p : Park) (posted cb : Bool) : Prop := if posted then ∃ o r, p.kind = .red o r cb else ∃ o r, p.kind = .atom o r cb

theorem State.accTo_remote_slice {t : CoreId} {off : Nat} {posted cb : Bool} (hp : p.Atomic posted cb) (hother : t ≠ u.cur.core)
    (hidle : u.myCore.busyLine (Loc.slice t off).line = false) :
    u.accTo p (.slice t off) none = u.sendReq p (.slice t off) p.reqOp .nothing posted := by
  rw [State.myCore] at hidle
  have hwaits : u.waitsFor u.cur.core (.slice t off) u.ctx p.addr.toNat = false := by rw [State.waitsFor, hidle, Bool.and_false]
  cases posted <;> obtain ⟨o, r, hk⟩ := hp <;> simp only [State.accTo, hother, if_false, hwaits, Bool.false_eq_true, hk]

theorem State.accTo_remote_home {x : Xlat} {posted : Bool} (hp : p.Atomic posted false) (hwide : p.wide = true) (hother : x.pkg ≠ u.cur.core.pkg)
    (hmiss : (u.crew u.cur.core.crewNo).lines.has (lineNo x.pkg x.pa) = false) (hcomb : (u.crew u.cur.core.crewNo).comb = [])
    (hlone : u.aliases u.cur.core.crewNo x = []) (hflow : u.stuckAt u.cur.core.crewNo x = false)
    (hfree : u.waitsFor u.cur.core (.mem x) u.ctx p.addr.toNat = false) :
    u.accTo p (.mem x) none = (u.dropLine u.cur.core.crewNo (lineNo x.pkg x.pa)).sendReq p (.mem x) p.reqOp .nothing posted := by
  cases posted <;> obtain ⟨o, r, hk⟩ := hp <;>
    simp only [State.accTo, hother, if_false, hfree, Bool.false_eq_true, hk, State.soleLine_of_nil hlone, AccKind.comb, State.flushAt_of_nil hcomb,
      hwide, Bool.not_true, Bool.false_and, hflow, if_true, State.evictLine_of_absent hmiss]
end

theorem State.sameMem_voidReqs (s : State) (crew : Nat) (f : Req → Bool) :
    (s.voidReqs crew f).sansStore = s.sansStore ∧ (s.voidReqs crew f).mem = s.mem ∧ (s.voidReqs crew f).seals = s.seals := by
  unfold State.voidReqs
  split <;> exact ⟨rfl, rfl, rfl⟩
/-- Dropping a line changes its crew alone. -/
theorem State.dropLine_crewOnly (s : State) (crew ln : Nat) :
    (s.dropLine crew ln).sansStore = s.sansStore ∧ (s.dropLine crew ln).mem = s.mem ∧ (s.dropLine crew ln).seals = s.seals :=
  s.sameMem_voidReqs crew _

end Sys2Proof.Machine
end

section
/-! SUPPORT. The clauses of atom and red (R202 to R204). -/

namespace Sys2Proof.Machine

section
variable {g : Guard} {op : AtomOp} {sz : Sz} {sc : Scope} {ord : BitVec 2} {rel cb : Bool} {d v : Reg} {m : MAddr} {x : Xlat} {s : State}

theorem State.charge_atomPark (s : State) (op : AtomOp) (sz : Sz) (sc : Scope) (ord : BitVec 2) (cb : Bool) (d : Reg) (m : MAddr) :
    s.charge.atomPark op sz sc ord cb d m = s.atomPark op sz sc ord cb d m := by
  simp only [State.atomPark, State.acc, State.charge_rg, State.charge_me]
theorem State.charge_redPark (s : State) (op : AtomOp) (sz : Sz) (sc : Scope) (rel cb : Bool) (v : Reg) (m : MAddr) :
    s.charge.redPark op sz sc rel cb v m = s.redPark op sz sc rel cb v m := by
  simp only [State.redPark, State.acc, State.charge_ea, State.charge_rg, State.charge_me]

theorem atom_body (s : State) (op : AtomOp) (sz : Sz) (sc : Scope) (ord : BitVec 2) (cb : Bool) (d : Reg) (m : MAddr) :
    s.charge.access (s.charge.atomPark op sz sc ord cb d m) = s.charge.access (s.atomPark op sz sc ord cb d m) := by rw [State.charge_atomPark]
theorem red_body (s : State) (op : AtomOp) (sz : Sz) (sc : Scope) (rel cb : Bool) (v : Reg) (m : MAddr) :
    s.charge.access (s.charge.redPark op sz sc rel cb v m) = s.charge.access (s.redPark op sz sc rel cb v m) := by rw [State.charge_redPark]

theorem wide_atomPark (h : sc.inCrew = false) : (s.atomPark op sz sc ord cb d m).wide = true := by
  simp [State.atomPark, State.acc, Park.wide, h]
theorem wide_redPark (h : sc.inCrew = false) : (s.redPark op sz sc rel cb v m).wide = true := by
  simp [State.redPark, State.acc, Park.wide, h]
theorem not_wide_atomPark (h : sc.inCrew = true) : (s.atomPark op sz sc ord cb d m).wide = false := by
  simp [State.atomPark, State.acc, Park.wide, h]
theorem not_wide_redPark (h : sc.inCrew = true) : (s.redPark op sz sc rel cb v m).wide = false := by
  simp [State.redPark, State.acc, Park.wide, h]

/-- The entry that a .c operation on n bytes opens (R204). -/
def State.opened (s : State) (x : Xlat) (op : AtomOp) (sz : Sz) (sc : Scope) (v : Nat) : Comb :=
  ⟨s.ctx, x.pkg, x.pa, x.key, op, sz, BitVec.ofNat 64 ((s.under x.key (memKey x.pkg x.pa) sz.bytes).readN (memKey x.pkg x.pa) sz.bytes),
    BitVec.ofNat 64 (atomNew op sz.bytes (atomIdentity op sz.bytes) v 0), sc, [(s.cur.core.key, s.cur.slot, sc)], s.cur.core.key, x.va, x.lease⟩

theorem State.lineWrite_crewOnly (s : State) (crew p a n v who : Nat) : (s.lineWrite crew p a n v who).sansStore = s.sansStore
    ∧ (s.lineWrite crew p a n v who).mem = s.mem ∧ (s.lineWrite crew p a n v who).seals = s.seals := ⟨rfl, rfl, rfl⟩

/-- Where an atom stores, the destination gets the old value. -/
theorem Swaps.atom {i : Instr} {h : State} {k w e : Nat}
    (hs : Swaps i s h k sz.bytes op w e (((AccKind.atom op ord cb).result sz.bytes (h.readN k sz.bytes)).elim s.me (s.me.wg d))) :
    Swaps i s h k sz.bytes op w e (s.me.wg d (BitVec.ofNat 64 (h.readN k sz.bytes))) := by
  rwa [result_atom op ord cb (h.readN_lt ..)] at hs

variable (hg : s.me.guard g = true) (hhold : s.me.hold = .none)
include hg hhold

theorem atom_own {off : Nat} (hown : OwnSlice s (s.rg m.base + m.disp.signExtend 64) off)
    (halign : (s.rg m.base + m.disp.signExtend 64).toNat % sz.bytes = 0) (hord : ord.getLsbD 1 = false ∨ (sc.inCrew = true ∧ s.me.unacked = 0)) :
    Swaps (.atom g op sz sc ord cb d m) s s (sliceKey s.cur.core off) sz.bytes op (s.rg m.idx).toNat (s.rg d).toNat
      (s.me.wg d (BitVec.ofNat 64 (s.readN (sliceKey s.cur.core off) sz.bytes))) :=
  (swaps_own (p := s.atomPark op sz sc ord cb d m) hg (exec_atom ..) (atom_body ..) hhold halign
    (hord.imp id fun h => ⟨not_wide_atomPark h.1, h.2⟩) hown fun _ => rfl).atom

theorem red_own {off : Nat} (hown : OwnSlice s (s.ea m sz.log) off) (halign : (s.ea m sz.log).toNat % sz.bytes = 0)
    (hrel : rel = false ∨ (sc.inCrew = true ∧ s.me.unacked = 0)) :
    Swaps (.red g op sz sc rel cb v m) s s (sliceKey s.cur.core off) sz.bytes op (s.rg v).toNat 0 s.me :=
  swaps_own (p := s.redPark op sz sc rel cb v m) hg (exec_red ..) (red_body ..) hhold halign
    (hrel.imp id fun h => ⟨not_wide_redPark h.1, h.2⟩) hown fun _ => rfl

theorem atom_home (hsc : sc.inCrew = false) (hmiss : (s.crew s.cur.core.crewNo).lines.has (lineNo x.pkg x.pa) = false)
    (hreach : Reaches s .w (s.rg m.base + m.disp.signExtend 64) x) (halign : (s.rg m.base + m.disp.signExtend 64).toNat % sz.bytes = 0)
    (hord : ord.getLsbD 1 = false) :
    Swaps (.atom g op sz sc ord false d m) s (s.under x.key (memKey x.pkg x.pa) sz.bytes) (memKey x.pkg x.pa) sz.bytes op (s.rg m.idx).toNat (s.rg d).toNat
      (s.me.wg d (BitVec.ofNat 64 ((s.under x.key (memKey x.pkg x.pa) sz.bytes).readN (memKey x.pkg x.pa) sz.bytes))) :=
  (swaps_home (p := s.atomPark op sz sc ord false d m) hg (exec_atom ..) (atom_body ..) hhold halign (Or.inl hord) hreach hmiss (wide_atomPark hsc)
    (Or.inl ⟨ord, rfl⟩)).atom

theorem red_home (hsc : sc.inCrew = false) (hmiss : (s.crew s.cur.core.crewNo).lines.has (lineNo x.pkg x.pa) = false)
    (hreach : Reaches s .w (s.ea m sz.log) x) (halign : (s.ea m sz.log).toNat % sz.bytes = 0) (hrel : rel = false) :
    Swaps (.red g op sz sc rel false v m) s (s.under x.key (memKey x.pkg x.pa) sz.bytes) (memKey x.pkg x.pa) sz.bytes op (s.rg v).toNat 0 s.me :=
  swaps_home (p := s.redPark op sz sc rel false v m) hg (exec_red ..) (red_body ..) hhold halign (Or.inl hrel) hreach hmiss (wide_redPark hsc)
    (Or.inr ⟨rel, rfl⟩)

theorem atom_combines (hsc : sc.inCrew = false) (hmiss : (s.crew s.cur.core.crewNo).lines.has (lineNo x.pkg x.pa) = false)
    (hreach : Reaches s .w (s.rg m.base + m.disp.signExtend 64) x) (halign : (s.rg m.base + m.disp.signExtend 64).toNat % sz.bytes = 0)
    (hord : ord.getLsbD 1 = false) :
    Answers (.atom g op sz sc ord true d m) s fun t => SameMem s t
      ∧ t.me = s.after (s.me.wg d (BitVec.ofNat 64 ((s.under x.key (memKey x.pkg x.pa) sz.bytes).readN (memKey x.pkg x.pa) sz.bytes)))
      ∧ (t.crew s.cur.core.crewNo).comb = [s.opened x op sz sc (s.rg m.idx).toNat] := by
  have hreach' := hreach.charge
  have haccess := State.access_home (p := s.atomPark op sz sc ord true d m) hreach' halign (by rwa [State.charge_hold]) (Or.inl hord)
  have hcomb := State.memComb_opens hreach' (by rwa [State.charge_cur, s.sameStore_charge.crew]) s.charge.cur.slot s.charge.ctx hsc op sz (s.rg m.idx).toNat
  rw [State.charge_under_readN] at hcomb
  have hperform : s.charge.perform s.charge.cur.core s.charge.cur.slot s.charge.ctx (s.atomPark op sz sc ord true d m) (.mem x) none =
      ((s.charge.memComb s.charge.cur.core s.charge.cur.slot s.charge.ctx sc x op sz (s.rg m.idx).toNat none).1,
        (AccKind.atom op ord true).result sz.bytes (s.charge.memComb s.charge.cur.core s.charge.cur.slot s.charge.ctx sc x op sz (s.rg m.idx).toNat none).2) :=
    rfl
  rw [hperform, hcomb] at haccess
  dsimp only at haccess
  rw [result_atom op ord true (State.readN_lt ..), State.charge_cur, State.charge_ctx] at haccess
  obtain ⟨t, ht, honly, hme⟩ := leaves_of_accDone hg (exec_atom ..) ((atom_body ..).trans haccess)
    ((State.sansStore_modCrew ..).trans (State.sansStore_modCrew ..))
  refine ⟨t, ht, ⟨fun b => ?_, ?_⟩, hme, ?_⟩
  · rw [honly.mem.1, State.modCrew_mem, State.modCrew_mem, State.charge_mem]
  · rw [honly.mem.2, State.modCrew_seals, State.modCrew_seals, State.charge_seals]
  · rw [honly.crews, State.crew_modCrew_same, State.crew_modCrew_id, s.sameStore_charge.crew, hreach.comb]; rfl

theorem atom_inCrew (hreach : Reaches s .w (s.rg m.base + m.disp.signExtend 64) x) (halign : (s.rg m.base + m.disp.signExtend 64).toNat % sz.bytes = 0)
    (hord : ord.getLsbD 1 = false) (hsc : sc.inCrew = true) (hmiss : (s.crew s.cur.core.crewNo).lines.has (lineNo x.pkg x.pa) = false)
    (hroom : (s.crew s.cur.core.crewNo).lines.length < 4096) :
    Answers (.atom g op sz sc ord false d m) s fun t => SameMem s t
      ∧ t.me = s.after (s.me.wg d (BitVec.ofNat 64 ((s.under x.key (memKey x.pkg x.pa) sz.bytes).readN (memKey x.pkg x.pa) sz.bytes)))
      ∧ t.lineRead s.cur.core.crewNo x.pkg x.pa sz.bytes =
        atomNew op sz.bytes ((s.under x.key (memKey x.pkg x.pa) sz.bytes).readN (memKey x.pkg x.pa) sz.bytes) (s.rg m.idx).toNat (s.rg d).toNat
          % 2 ^ (8 * sz.bytes) := by
  have hreach' := hreach.charge
  have haccess := State.access_home (p := s.atomPark op sz sc ord false d m) hreach' halign (by rwa [State.charge_hold]) (Or.inl hord)
  have hatom := State.memAtom_inCrew hreach' (by rwa [State.charge_cur, s.sameStore_charge.crew]) (by rwa [State.charge_cur, s.sameStore_charge.crew])
    (bytes_pos sz) (hreach.within halign) s.charge.cur.core.local_ op (s.rg m.idx).toNat (s.rg d).toNat
  rw [State.charge_under_readN] at hatom
  have hperform : s.charge.perform s.charge.cur.core s.charge.cur.slot s.charge.ctx (s.atomPark op sz sc ord false d m) (.mem x) none =
      ((s.charge.memAtom s.charge.cur.core.crewNo s.charge.cur.core.local_ (s.atomPark op sz sc ord false d m).wide x op sz.bytes (s.rg m.idx).toNat (s.rg d).toNat).1,
        (AccKind.atom op ord false).result sz.bytes
          (s.charge.memAtom s.charge.cur.core.crewNo s.charge.cur.core.local_ (s.atomPark op sz sc ord false d m).wide x op sz.bytes (s.rg m.idx).toNat (s.rg d).toNat).2) :=
    rfl
  rw [hperform, not_wide_atomPark hsc, hatom] at haccess
  dsimp only at haccess
  rw [result_atom op ord false (State.readN_lt ..), State.charge_cur] at haccess
  obtain ⟨hsans, hmem, hseals⟩ := State.lineWrite_crewOnly (s.charge.modCrew s.cur.core.crewNo fun k =>
      { k with lines := k.lines.set (lineNo x.pkg x.pa) (s.charge.fetched x) }) s.cur.core.crewNo x.pkg x.pa sz.bytes
    (atomNew op sz.bytes ((s.under x.key (memKey x.pkg x.pa) sz.bytes).readN (memKey x.pkg x.pa) sz.bytes) (s.rg m.idx).toNat (s.rg d).toNat)
    s.cur.core.local_
  obtain ⟨t, ht, honly, hme⟩ := leaves_of_accDone hg (exec_atom ..) ((atom_body ..).trans haccess) (hsans.trans (State.sansStore_modCrew ..))
  refine ⟨t, ht, ⟨fun b => ?_, ?_⟩, hme, ?_⟩
  · rw [honly.mem.1, hmem, State.modCrew_mem, State.charge_mem]
  · rw [honly.mem.2, hseals, State.modCrew_seals, State.charge_seals]
  · rw [State.lineRead, honly.crews]
    refine State.lineRead_lineWrite (l := s.charge.fetched x) (ln := lineNo x.pkg x.pa) ?_ ?_
    · rw [State.crew_modCrew_same]; exact SMap.find?_set_same ..
    · rw [State.fetched, length_readBytes]; omega
end

end Sys2Proof.Machine
end

section
/-! SUPPORT. The clauses of atom and red toward other cores and packages (R203), and what an operation stores (R202). -/

namespace Sys2Proof.Machine

section
variable {g : Guard} {op : AtomOp} {sz : Sz} {sc : Scope} {ord : BitVec 2} {rel cb : Bool} {d v : Reg} {m : MAddr} {x : Xlat} {s : State}

/-- The packet of an operation asked of a home. -/
def State.asksAtom (s : State) (op : AtomOp) (tgt : MemTgt) (b : Word) (q : ReqOp) (tag : Nat) : Instr :=
  .atomPacket ⟨s.cur.core, s.cur.slot, tag, s.ctx, s.super, tgt, q, b, s.lexp s.cur.core s.ctx b.toNat, false, atomNum op, if op = .cas then 4 else 3, 0⟩

section
variable {p : Park} {posted cb : Bool}

/-- An access to another core's slice sends itself. -/
theorem access_remote_slice {t : CoreId} {off : Nat} (hp : p.Atomic posted cb) (hhold : s.me.hold = .none) (hother : t ≠ s.cur.core)
    (hform : mformOk p.addr = true) (hslice : p.addr.getLsbD 63 = true) (halign : p.addr.toNat % p.sz.bytes = 0)
    (hnames : s.sliceOf s.cur.core p.addr = some (t, off)) (hmay : s.sliceAllowed s.super s.ctx t = true)
    (hidle : s.myCore.busyLine (Loc.slice t off).line = false) (hrel : p.kind.rel = false) :
    s.charge.access p = s.charge.sendReq p (.slice t off) p.reqOp .nothing posted := by
  rw [State.access_of_new hform halign (by rwa [State.charge_hold]),
    State.accGo_of_resolved (State.resolve_slice hslice (by rwa [State.charge_cur, State.charge_sliceOf])
      (by rwa [State.charge_super, State.charge_ctx, State.charge_sliceAllowed])) (Or.inl hrel),
    State.accTo_remote_slice hp (by rwa [State.charge_cur])]
  rwa [show s.charge.myCore.busyLine = s.myCore.busyLine from (congrArg Core.busyLine s.charge_myCore_rest :)]

/-- An access to a home in another package sends itself, the line dropped from the crew cache. -/
theorem access_remote_home {l : TlbE} (hp : p.Atomic posted false) (hhold : s.me.hold = .none) (hwide : p.wide = true) (hother : x.pkg ≠ s.cur.core.pkg)
    (hmiss : (s.crew s.cur.core.crewNo).lines.has (lineNo x.pkg x.pa) = false) (hcomb : (s.crew s.cur.core.crewNo).comb = [])
    (hok : s.checkLoc s.super p.kind.need x = none) (hlone : s.aliases s.cur.core.crewNo x = []) (hflow : s.stuckAt s.cur.core.crewNo x = false)
    (hform : mformOk p.addr = true) (hvirt : p.addr.getLsbD 63 = false) (halign : p.addr.toNat % p.sz.bytes = 0) (hrel : p.kind.rel = false)
    (hhit : tlbFind s.myCore.dtlb s.ctx p.addr.toNat (s.time s.cur.core.pkg) = some l) (hx : x = xlatOf l p.addr.toNat)
    (hfree : s.waitsFor s.cur.core (.mem x) s.ctx p.addr.toNat = false) :
    s.charge.access p = (s.charge.dropLine s.charge.cur.core.crewNo (lineNo x.pkg x.pa)).sendReq p (.mem x) p.reqOp .nothing posted := by
  have hdtlb : s.charge.myCore.dtlb = s.myCore.dtlb := (congrArg Core.dtlb s.charge_myCore_rest :)
  rw [State.access_of_new hform halign (by rwa [State.charge_hold]),
    State.accGo_of_resolved (State.resolve_hit hvirt (by rwa [hdtlb, State.charge_ctx, State.charge_cur, State.charge_time]) hx
      (by rwa [State.charge_super, s.sameStore_charge.checkLoc])) (Or.inl hrel)]
  refine State.accTo_remote_home hp hwide ?_ ?_ ?_ ?_ ?_ ?_
  · rwa [State.charge_cur]
  · rwa [State.charge_cur, s.sameStore_charge.crew]
  · rwa [State.charge_cur, s.sameStore_charge.crew]
  · rwa [State.charge_cur, s.sameStore_charge.aliases]
  · rwa [State.charge_cur, s.sameStore_charge.stuckAt]
  · rwa [State.charge_cur, State.charge_ctx, State.charge_waitsFor]
end

variable (hg : s.me.guard g = true) (hhold : s.me.hold = .none)
include hg hhold

theorem atom_remote_slice {t : CoreId} {off : Nat} (hother : t ≠ s.cur.core) (hform : mformOk (s.rg m.base + m.disp.signExtend 64) = true)
    (hslice : (s.rg m.base + m.disp.signExtend 64).getLsbD 63 = true) (halign : (s.rg m.base + m.disp.signExtend 64).toNat % sz.bytes = 0)
    (hnames : s.sliceOf s.cur.core (s.rg m.base + m.disp.signExtend 64) = some (t, off)) (hmay : s.sliceAllowed s.super s.ctx t = true)
    (hidle : s.myCore.busyLine (Loc.slice t off).line = false) (hord : ord.getLsbD 1 = false) :
    Asks (.atom g op sz sc ord cb d m) s
      (s.asksAtom op (.slice t off) (s.rg m.base + m.disp.signExtend 64) (.atom op sz.bytes (s.rg m.idx) (s.rg d) false)) :=
  asks_of_sendReq (a := s.atomPark op sz sc ord cb d m) (loc := .slice t off) hg (exec_atom ..) rfl
    ((atom_body ..).trans (access_remote_slice (posted := false) ⟨op, ord, rfl⟩ hhold hother hform hslice halign hnames hmay hidle hord))

theorem red_remote_slice {t : CoreId} {off : Nat} (hother : t ≠ s.cur.core) (hform : mformOk (s.ea m sz.log) = true)
    (hslice : (s.ea m sz.log).getLsbD 63 = true) (halign : (s.ea m sz.log).toNat % sz.bytes = 0)
    (hnames : s.sliceOf s.cur.core (s.ea m sz.log) = some (t, off)) (hmay : s.sliceAllowed s.super s.ctx t = true)
    (hidle : s.myCore.busyLine (Loc.slice t off).line = false) (hrel : rel = false) :
    Answers (.red g op sz sc rel cb v m) s fun w => SameMem s w ∧ w.me = s.after { s.me with unacked := s.me.unacked + 1 }
      ∧ Sent (s.asksAtom op (.slice t off) (s.ea m sz.log) (.atom op sz.bytes (s.rg v) 0 true) s.myCore.nextTag) w :=
  posts_of_sendReq (a := s.redPark op sz sc rel cb v m) (loc := .slice t off) hg (exec_red ..) rfl
    ((red_body ..).trans (access_remote_slice (posted := true) ⟨op, rel, rfl⟩ hhold hother hform hslice halign hnames hmay hidle hrel))
    s.charge_mem s.charge_seals

section
variable {l : TlbE} (hother : x.pkg ≠ s.cur.core.pkg) (hsc : sc.inCrew = false) (hmiss : (s.crew s.cur.core.crewNo).lines.has (lineNo x.pkg x.pa) = false)
  (hcomb : (s.crew s.cur.core.crewNo).comb = []) (hok : s.checkLoc s.super .w x = none) (hlone : s.aliases s.cur.core.crewNo x = [])
  (hflow : s.stuckAt s.cur.core.crewNo x = false)
include hother hsc hmiss hcomb hok hlone hflow

theorem atom_remote_home (hform : mformOk (s.rg m.base + m.disp.signExtend 64) = true) (hvirt : (s.rg m.base + m.disp.signExtend 64).getLsbD 63 = false)
    (halign : (s.rg m.base + m.disp.signExtend 64).toNat % sz.bytes = 0) (hord : ord.getLsbD 1 = false)
    (hhit : tlbFind s.myCore.dtlb s.ctx (s.rg m.base + m.disp.signExtend 64).toNat (s.time s.cur.core.pkg) = some l)
    (hx : x = xlatOf l (s.rg m.base + m.disp.signExtend 64).toNat)
    (hfree : s.waitsFor s.cur.core (.mem x) s.ctx (s.rg m.base + m.disp.signExtend 64).toNat = false) :
    Asks (.atom g op sz sc ord false d m) s
      (s.asksAtom op (.mem x.pkg x.pa x.key) (s.rg m.base + m.disp.signExtend 64) (.atom op sz.bytes (s.rg m.idx) (s.rg d) false)) :=
  asks_of_sendReq (a := s.atomPark op sz sc ord false d m) (loc := .mem x) hg (exec_atom ..) (State.dropLine_crewOnly ..).1
    ((atom_body ..).trans (access_remote_home (posted := false) ⟨op, ord, rfl⟩ hhold (wide_atomPark hsc) hother hmiss hcomb hok hlone hflow hform hvirt
      halign hord hhit hx hfree))

theorem red_remote_home (hform : mformOk (s.ea m sz.log) = true) (hvirt : (s.ea m sz.log).getLsbD 63 = false)
    (halign : (s.ea m sz.log).toNat % sz.bytes = 0) (hrel : rel = false)
    (hhit : tlbFind s.myCore.dtlb s.ctx (s.ea m sz.log).toNat (s.time s.cur.core.pkg) = some l) (hx : x = xlatOf l (s.ea m sz.log).toNat)
    (hfree : s.waitsFor s.cur.core (.mem x) s.ctx (s.ea m sz.log).toNat = false) :
    Answers (.red g op sz sc rel false v m) s fun w => SameMem s w ∧ w.me = s.after { s.me with unacked := s.me.unacked + 1 }
      ∧ Sent (s.asksAtom op (.mem x.pkg x.pa x.key) (s.ea m sz.log) (.atom op sz.bytes (s.rg v) 0 true) s.myCore.nextTag) w :=
  posts_of_sendReq (a := s.redPark op sz sc rel false v m) (loc := .mem x) hg (exec_red ..) (State.dropLine_crewOnly ..).1
    ((red_body ..).trans (access_remote_home (posted := true) ⟨op, rel, rfl⟩ hhold (wide_redPark hsc) hother hmiss hcomb hok hlone hflow hform hvirt
      halign hrel hhit hx hfree))
    ((State.dropLine_crewOnly ..).2.1.trans s.charge_mem) ((State.dropLine_crewOnly ..).2.2.trans s.charge_seals)
end
end

end Sys2Proof.Machine
end

section
/-! SUPPORT. What an atomic operation stores (R202). -/

namespace Sys2Proof.Machine

theorem atomNew_fadd {y w : Nat} (hy : y < 2 ^ 32) (hw : w < 2 ^ 32) (e : Nat) :
    atomNew .fadd 4 y w e = (FFmt.addV .f32 false false (FFmt.value .f32 y) (FFmt.value .f32 w)).1 := by
  have hy' : zextN y (8 * 4) = y := zextN_of_lt hy
  have hw' : zextN w (8 * 4) = w := zextN_of_lt hw
  simp only [atomNew, hy', hw']

/-- fadd is the sum rounded to nearest. -/
theorem atomNew_fadd_fin {y w : Nat} (hy : y < 2 ^ 32) (hw : w < 2 ^ 32) {n1 n2 : Bool} {m1 m2 : Nat} {e1 e2 z e : Int}
    (h1 : FFmt.value .f32 y = .fin n1 m1 e1) (h2 : FFmt.value .f32 w = .fin n2 m2 e2) (hz : (z, e) = finSum n1 m1 e1 n2 m2 e2) (hne : z ≠ 0) :
    atomNew .fadd 4 y w 0 = (FFmt.round .f32 false false (decide (z < 0)) z.natAbs e).1 := by
  rw [atomNew_fadd hy hw, h1, h2, FFmt.addV_fin hz hne]
theorem atomNew_fadd_nan {y w : Nat} (hy : y < 2 ^ 32) (hw : w < 2 ^ 32)
    (h : (FFmt.value .f32 y).isNan = true ∨ (FFmt.value .f32 w).isNan = true) : atomNew .fadd 4 y w 0 = 0x7FC00000 := by
  rw [atomNew_fadd hy hw, FFmt.addV_of_isNan h]; rfl

section
variable {n o w q : Nat} (ho : o < 2 ^ (8 * n)) (hw : w < 2 ^ (8 * n))
include ho hw

theorem atomNew_of_lt (hq : q < 2 ^ (8 * n)) : atomNew .swap n o w q = w ∧ atomNew .cas n o w q = (if o = q then w else o)
    ∧ atomNew .add n o w q = (o + w) % 2 ^ (8 * n) ∧ atomNew .and n o w q = o &&& w ∧ atomNew .or n o w q = o ||| w ∧ atomNew .xor n o w q = o ^^^ w := by
  simp only [atomNew, zextN_of_lt ho, zextN_of_lt hw, zextN_of_lt hq, and_self]
theorem atomNew_unsigned : atomNew .maxn n o w q = max o w ∧ atomNew .minn n o w q = min o w := by
  simp only [atomNew, zextN_of_lt ho, zextN_of_lt hw]
  constructor <;> split <;> omega
/-- max and min choose by the signed values. -/
theorem atomNew_signed (hn : 0 < n) :
    (BitVec.ofNat (8 * n) (atomNew .max n o w q)).toInt = max (BitVec.ofNat (8 * n) o).toInt (BitVec.ofNat (8 * n) w).toInt
    ∧ (BitVec.ofNat (8 * n) (atomNew .min n o w q)).toInt = min (BitVec.ofNat (8 * n) o).toInt (BitVec.ofNat (8 * n) w).toInt := by
  have hbits : 0 < 8 * n := by omega
  simp only [atomNew, zextN_of_lt ho, zextN_of_lt hw, sextN_eq_toInt _ hbits]
  constructor <;> split <;> omega
end

end Sys2Proof.Machine
end

section
/-! SUPPORT. pref, iflush, tlbprobe and the fill of an instruction line (R206 to R208, R30). -/

namespace Sys2Proof.Machine

section
variable {i : Instr} {g : Guard} {s : State} {body : State → Res}

/-- An instruction without an effect. -/
theorem completes_of_ok (hg : s.me.guard g = true) (he : exec i s = issueU i g body s) (hb : body s.charge = .ok s.charge) : Completes i s s.me :=
  (leaves_of_ok hg he hb rfl).completes (onlyStrand_charge s)
/-- An instruction that writes one register. -/
theorem completes_of_wg {d : Reg} {v : Word} (hg : s.me.guard g = true) (he : exec i s = issueU i g body s) (hb : body s.charge = .ok (s.charge.wg d v)) :
    Completes i s (s.me.wg d v) :=
  (leaves_of_body hg he (fun t => t.wg d v) hb rfl (Strand.wg_withLeft ..) (Strand.wg_pc ..)).completes (onlyStrand_charge s)
end

section
variable {g : Guard} {psz : BitVec 3} {sc : Scope} {d v b : Reg} {disp : Imm48} {m : MAddr} {x : Xlat} {s : State}

theorem ofNat_two_pow_62 : BitVec.ofNat 64 (2 ^ 62) = (2 ^ 62 : Word) := by norm_num; rfl
theorem ofNat_two_pow_62_add_one : BitVec.ofNat 64 (2 ^ 62 + 1) = (2 ^ 62 + 1 : Word) := by norm_num; rfl
theorem ofNat_two_pow_63 : BitVec.ofNat 64 (2 ^ 63) = (2 ^ 63 : Word) := by norm_num; rfl

/-- What pref does. -/
def State.prefetch (s : State) (a : Word) : Res :=
  if a.getLsbD 63 then .ok s
  else match s.probe .r a with
    | (s, .error _) => .ok s
    | (s, .ok x) =>
      let c := s.cur.core
      if s.waitsAt c s.ctx a then .ok s
      else match s.arrive c s.ctx a.toNat x with
        | (s', .ok x) => .ok (s'.fillLine c.crewNo x)
        | (_, .error _) => .ok s
theorem exec_pref (g : Guard) (psz : BitVec 3) (sc : Scope) (m : MAddr) (s : State) :
    exec (.pref g psz sc m) s = issueU (.pref g psz sc m) g (fun s => s.prefetch (s.ea m psz.toNat)) s := rfl

/-- A core whose instruction cache holds no line of a range any more. -/
def iflushed (n a : Nat) (k : Core) : Core :=
  { k with icache := if 2 ^ 24 ≤ n then [] else
      k.icache.filter fun x => !(decide (0 < n) && decide (64 * x.line < a + n) && decide (a < 64 * x.line + 64)) }
theorem exec_iflush (g : Guard) (v b : Reg) (disp : Imm48) (s : State) :
    exec (.iflush g v b disp) s = issueU (.iflush g v b disp) g
      (fun s => .ok (s.modMyCore (iflushed (s.rg v).toNat (s.rg b + disp.signExtend 64).toNat))) s := rfl

/-- What tlbprobe does. -/
def State.tlbProbe (s : State) (d : Reg) (a : Word) : Res :=
  if a.getLsbD 63 then
    let good := mformOk a && match s.sliceOf s.cur.core a with
      | some (t, _) => s.sliceAllowed s.super s.ctx t
      | none => false
    .ok (s.wg d (BitVec.ofNat 64 (2 ^ 62 + if good then 1 else 0)))
  else
    let (s, r) := s.probe .r a
    match r with
    | .error e => if isWait e then .fault s (s.fault e) else .ok (s.wg d (probeVal r))
    | .ok _ => .ok (s.wg d (probeVal r))
theorem exec_tlbprobe (g : Guard) (psz : BitVec 3) (d : Reg) (m : MAddr) (s : State) :
    exec (.tlbprobe g psz d m) s = issueU (.tlbprobe g psz d m) g (fun s => s.tlbProbe d (s.ea m psz.toNat)) s := rfl

theorem Reaches.waitsAt {need : Need} {a : Word} (h : Reaches s need a x) : s.waitsAt s.cur.core s.ctx a = false := by
  obtain ⟨e, he, hx⟩ := h.translate
  have hfree := h.free
  rw [State.waitsFor] at hfree
  simp only [State.waitsAt, h.virt, Bool.false_eq_true, if_false, he]
  rw [← hx, hfree, h.home, State.blocked_self, Bool.or_false]
theorem Reaches.probe {need : Need} {a : Word} (h : Reaches s need a x) : s.probe need a = (s, .ok x) := by
  obtain ⟨e, he, hx⟩ := h.translate
  have hok := h.ok
  rw [hx] at hok
  simp [State.probe, h.form, he, hok, hx]
/-- A translation that ends in an error changes nothing. -/
theorem State.translate_of_error {c : CoreId} {ctx va r : Nat} (h : (s.translate c ctx false va).2 = .error r) :
    s.translate c ctx false va = (s, .error r) := by
  unfold State.translate at h ⊢
  dsimp only at h ⊢
  split at h
  · cases h
  · split at h
    · cases h
    · split at h
      · cases h
      · split at h
        · cases h; rfl
        · cases h
theorem State.probe_of_error {a : Word} {r : Nat} (need : Need) (hform : mformOk a = true)
    (herr : (s.translate s.cur.core s.ctx false a.toNat).2 = .error r) : s.probe need a = (s, .error r) := by
  simp [State.probe, hform, State.translate_of_error herr]

variable (hg : s.me.guard g = true)
include hg

/-! ## Slices -/


theorem pref_slice (hslice : (s.ea m psz.toNat).getLsbD 63 = true) : Completes (.pref g psz sc m) s s.me :=
  completes_of_ok hg (exec_pref ..) (by rw [State.charge_ea, State.prefetch, if_pos hslice])

theorem tlbprobe_slice (hslice : (s.ea m psz.toNat).getLsbD 63 = true) :
    let good := mformOk (s.ea m psz.toNat) = true ∧ ∃ t off, s.sliceOf s.cur.core (s.ea m psz.toNat) = some (t, off) ∧ s.sliceAllowed s.super s.ctx t = true
    (good → Completes (.tlbprobe g psz d m) s (s.me.wg d (2 ^ 62 + 1))) ∧ (¬ good → Completes (.tlbprobe g psz d m) s (s.me.wg d (2 ^ 62))) := by
  have hcharge : s.charge.tlbProbe d (s.charge.ea m psz.toNat) =
      .ok (s.charge.wg d (BitVec.ofNat 64 (2 ^ 62 + if mformOk (s.ea m psz.toNat) && (match s.sliceOf s.cur.core (s.ea m psz.toNat) with
        | some (t, _) => s.sliceAllowed s.super s.ctx t
        | none => false) then 1 else 0))) := by
    rw [State.charge_ea, State.tlbProbe, if_pos hslice]
    simp only [State.charge_cur, State.charge_sliceOf, State.charge_super, State.charge_ctx, State.charge_sliceAllowed]
  constructor
  · rintro ⟨hform, t, off, hnames, hmay⟩
    refine completes_of_wg hg (exec_tlbprobe ..) (hcharge.trans ?_)
    simp only [hform, hnames, hmay, Bool.and_self, if_true, ofNat_two_pow_62_add_one]
  · intro hbad
    refine completes_of_wg hg (exec_tlbprobe ..) (hcharge.trans ?_)
    rw [if_neg]
    · rw [Nat.add_zero, ofNat_two_pow_62]
    · intro h
      obtain ⟨hform, h⟩ := Bool.and_eq_true_iff.1 h
      split at h
      · next t off hnames => exact hbad ⟨hform, t, off, hnames, h⟩
      · cases h

/-! ## Addresses that translate, and those that do not -/

theorem tlbprobe_hit (hreach : Reaches s .r (s.ea m psz.toNat) x) : Completes (.tlbprobe g psz d m) s
    (s.me.wg d ((x.leaf.extractLsb' 0 56).setWidth 64 + BitVec.ofNat 64 (sizeCode x.level) <<< 56)) := by
  have hval : probeVal (.ok x) = (x.leaf.extractLsb' 0 56).setWidth 64 + BitVec.ofNat 64 (sizeCode x.level) <<< 56 := by
    apply BitVec.eq_of_toNat_eq
    simp only [probeVal, bitsN, BitVec.toNat_ofNat, BitVec.toNat_add, BitVec.toNat_setWidth, BitVec.extractLsb'_toNat, BitVec.toNat_shiftLeft,
      Nat.shiftRight_eq_div_pow, Nat.shiftLeft_eq]
    omega
  refine completes_of_wg hg (exec_tlbprobe ..) ?_
  rw [State.charge_ea, State.tlbProbe, if_neg (by rw [hreach.virt]; decide)]
  simp only [hreach.charge.probe, hval]

theorem tlbprobe_error {r : Nat} (hform : mformOk (s.ea m psz.toNat) = true) (hvirt : (s.ea m psz.toNat).getLsbD 63 = false)
    (herr : (s.translate s.cur.core s.ctx false (s.ea m psz.toNat).toNat).2 = .error r) (hr : isWait r = false) :
    Completes (.tlbprobe g psz d m) s (s.me.wg d (2 ^ 63 + BitVec.ofNat 64 r)) := by
  have hval : probeVal (.error r) = 2 ^ 63 + BitVec.ofNat 64 r := by
    rw [probeVal, BitVec.ofNat_add, ofNat_two_pow_63]
  refine completes_of_wg hg (exec_tlbprobe ..) ?_
  rw [State.charge_ea, State.tlbProbe, if_neg (by rw [hvirt]; decide), State.probe_of_error .r hform (by rwa [State.charge_cur, State.charge_ctx, State.charge_translate_snd])]
  simp only [hr, Bool.false_eq_true, if_false, hval]

theorem pref_error {r : Nat} (hform : mformOk (s.ea m psz.toNat) = true) (hvirt : (s.ea m psz.toNat).getLsbD 63 = false)
    (herr : (s.translate s.cur.core s.ctx false (s.ea m psz.toNat).toNat).2 = .error r) : Completes (.pref g psz sc m) s s.me := by
  refine completes_of_ok hg (exec_pref ..) ?_
  rw [State.charge_ea, State.prefetch, if_neg (by rw [hvirt]; decide), State.probe_of_error .r hform (by rwa [State.charge_cur, State.charge_ctx, State.charge_translate_snd])]

theorem iflush_drops : CompletesCore (.iflush g v b disp) s
    { s.myCore with icache := if 2 ^ 24 ≤ (s.rg v).toNat then [] else s.myCore.icache.filter fun l => !(decide (0 < (s.rg v).toNat)
        && decide (64 * l.line < (s.rg b + disp.signExtend 64).toNat + (s.rg v).toNat) && decide ((s.rg b + disp.signExtend 64).toNat < 64 * l.line + 64)) } s.me :=
  completesCore_of_body (f := iflushed (s.rg v).toNat (s.rg b + disp.signExtend 64).toNat) hg (exec_iflush ..) (by rw [State.charge_rg, State.charge_rg])
    (fun _ => rfl) (fun _ => rfl)

/-- A prefetched line is in the crew cache. -/
theorem pref_fills (hreach : Reaches s .r (s.ea m psz.toNat) x) (hroom : (s.crew s.cur.core.crewNo).lines.length < 4096) :
    Answers (.pref g psz sc m) s fun t => SameMem s t ∧ t.me = s.after s.me ∧ (t.crew s.cur.core.crewNo).lines.has (lineNo x.pkg x.pa) = true := by
  have hreach' := hreach.charge
  have hbody : s.charge.prefetch (s.charge.ea m psz.toNat) = .ok (s.charge.fillLine s.charge.cur.core.crewNo x) := by
    rw [State.charge_ea, State.prefetch, if_neg (by rw [hreach.virt]; decide)]
    simp only [hreach'.probe, hreach'.waitsAt, Bool.false_eq_true, if_false, hreach'.arrive]
  by_cases hhas : (s.crew s.cur.core.crewNo).lines.has (lineNo x.pkg x.pa) = true
  · rw [State.fillLine_of_present hreach'.lone (by rwa [State.charge_cur, s.sameStore_charge.crew])] at hbody
    obtain ⟨t, ht, honly, hme⟩ := leaves_of_ok hg (exec_pref ..) hbody rfl
    refine ⟨t, ht, ⟨fun k => ?_, ?_⟩, hme, ?_⟩
    · rw [honly.mem.1, State.charge_mem]
    · rw [honly.mem.2, State.charge_seals]
    · rwa [honly.crews, s.sameStore_charge.crew]
  · rw [Bool.not_eq_true] at hhas
    rw [hreach'.fillLine (by rwa [State.charge_cur, s.sameStore_charge.crew]) (by rwa [State.charge_cur, s.sameStore_charge.crew]),
      State.charge_cur] at hbody
    obtain ⟨t, ht, honly, hme⟩ := leaves_of_ok hg (exec_pref ..) hbody (State.sansStore_modCrew ..)
    refine ⟨t, ht, ⟨fun k => ?_, ?_⟩, hme, ?_⟩
    · rw [honly.mem.1, State.modCrew_mem, State.charge_mem]
    · rw [honly.mem.2, State.modCrew_seals, State.charge_seals]
    · rw [honly.crews, State.crew_modCrew_same]; exact SMap.has_set_same ..
end


/-! ## Instruction lines (R30) -/

section
variable {s : State} {t : StrandId} {pc : Word}

/-- The address of an instruction's line. -/
def lineAddr (pc : Word) : Word := BitVec.ofNat 64 (pc.toNat / 64 * 64)

/-- A line of instructions that its check passes is kept, and one that fails twice machine-checks its core. -/
theorem instructionLineFill_outcomes {w : State} {bs : List Byte}
    (hmiss : (s.core t.core).icache.any (fun l => l.ctx == s.ctxOf t && l.line == pc.toNat / 64) = false)
    (hfree : s.waitsAt t.core (s.ctxOf t) (lineAddr pc) = false)
    (hfetch : s.lineBytes t.core (s.ctxOf t) (t.slot == 0) (lineAddr pc) false = (w, .ok bs)) :
    (parityOk bs = true → (w.core t.core).icache.length < 256 →
        exec (.instructionLineFill t pc) s = .next (w.modCore t.core fun k => { k with icache := ⟨s.ctxOf t, pc.toNat / 64, bs⟩ :: k.icache }))
      ∧ ∀ bs' w', parityOk bs = false → w.lineBytes t.core (s.ctxOf t) (t.slot == 0) (lineAddr pc) true = (w', .ok bs') → parityOk bs' = false →
        exec (.instructionLineFill t pc) s = .next (w'.machineCheck t.core 0xB0) := by
  have hexec : exec (.instructionLineFill t pc) s = execInstructionLineFill t pc s := rfl
  rw [lineAddr] at hfree hfetch
  rw [hexec, execInstructionLineFill]
  simp only [hmiss, hfree, Bool.or_self, Bool.false_eq_true, if_false, hfetch]
  constructor
  · intro hparity hroom
    simp only [hparity, if_true, State.icFill, hroom]
  · intro bs' w' hbad hagain hbad'
    rw [lineAddr] at hagain
    simp only [hbad, Bool.false_eq_true, if_false, hagain, hbad']

theorem State.core_modCore_mcheck (s : State) {c d : CoreId} {f : Core → Core} (hf : ∀ k, (f k).mcheck = k.mcheck) :
    ((s.modCore d f).core c).mcheck = (s.core c).mcheck := by
  by_cases h : c.key = d.key
  · have hsame (u : State) : u.core c = u.core d := by rw [State.core, h, State.core]
    rw [hsame, hsame s, State.core_modCore_same, hf]
  · rw [State.core_modCore_ne s f h]

/-- A core stopped by a machine check, before its lead core gets a report. -/
def State.stopped (s : State) (c : CoreId) (d : Nat) : State :=
  let s := s.modCore c fun k => { k with mcheck := some d }
  let s := if Config.freeOutcome s.freeN then s else s.modPkg c.pkg fun p => { p with dumpWhy := some (17 + 2 ^ 8 * d) }
  s.fresh
/-- The core that gets the report. -/
def State.leadOf (s : State) (c : CoreId) : CoreId := crewCore c.crewNo (s.crew c.crewNo).lead.toNat
/-- The report of a machine check. -/
def checkReport (c : CoreId) (d : Nat) : Report :=
  { slot := 0, cause := 17, detail := d, strand := StrandId.gid ⟨c, 0⟩, info2 := BitVec.ofNat 64 c.key }
theorem State.machineCheck_eq (s : State) (c : CoreId) (d : Nat) : s.machineCheck c d =
    if (s.stopped c d).leadOf c = c then s.stopped c d
    else ((s.stopped c d).modCore ((s.stopped c d).leadOf c) fun k => { k with reports := k.reports ++ [checkReport c d] }).postOnce
      (.trapDelivery ((s.stopped c d).leadOf c)) := rfl

theorem State.mcheck_stopped (s : State) (c : CoreId) (d : Nat) : ((s.stopped c d).core c).mcheck = some d := by
  have hmark : ((s.modCore c fun k => { k with mcheck := some d }).core c).mcheck = some d := by rw [State.core_modCore_same]
  unfold State.stopped
  dsimp only
  split
  · exact hmark
  · exact hmark
theorem State.core_postOnce (s : State) (i : Instr) (c : CoreId) : (s.postOnce i).core c = s.core c := by
  unfold State.postOnce; split <;> rfl
/-- A machine check marks its core, whatever is reported to the lead core. -/
theorem State.mcheck_machineCheck (s : State) (c : CoreId) (d : Nat) : ((s.machineCheck c d).core c).mcheck = some d := by
  rw [State.machineCheck_eq]
  split
  · exact s.mcheck_stopped c d
  · rw [State.core_postOnce]
    refine (State.core_modCore_mcheck _ ?_).trans (s.mcheck_stopped c d)
    exact fun _ => rfl
end

end Sys2Proof.Machine
end

section
/-! SUPPORT. A machine check and an alarm of level 2 leave memory and the crew caches as they are (R349, R350). -/

namespace Sys2Proof.Machine

/-- Two states agree on memory, on what its lines are stored under, and on the lines and combining entries of every crew cache. -/
structure State.SameCache (s t : State) : Prop where
  mem   : t.mem = s.mem
  seals : t.seals = s.seals
  lines : ∀ n, (t.crew n).lines = (s.crew n).lines
  comb  : ∀ n, (t.crew n).comb = (s.crew n).comb

namespace State.SameCache

theorem refl (s : State) : s.SameCache s := ⟨rfl, rfl, fun _ => rfl, fun _ => rfl⟩
theorem trans {s t u : State} (h : s.SameCache t) (h' : t.SameCache u) : s.SameCache u :=
  ⟨h'.mem.trans h.mem, h'.seals.trans h.seals, fun n => (h'.lines n).trans (h.lines n), fun n => (h'.comb n).trans (h.comb n)⟩
/-- Crews that stay. -/
theorem of_crews {s t : State} (hm : t.mem = s.mem) (hs : t.seals = s.seals) (hc : t.crews = s.crews) : s.SameCache t :=
  ⟨hm, hs, fun n => by rw [State.crew, hc, State.crew], fun n => by rw [State.crew, hc, State.crew]⟩
theorem foldl {α : Type} {f : State → α → State} (h : ∀ (s : State) (a : α), s.SameCache (f s a)) (l : List α) (s : State) : s.SameCache (l.foldl f s) := by
  induction l generalizing s with
  | nil => exact refl s
  | cons a l ih => exact (h s a).trans (ih _)

section
variable (s : State)

theorem modCrew (n : Nat) {f : Crew → Crew} (hl : ∀ k, (f k).lines = k.lines) (hc : ∀ k, (f k).comb = k.comb) : s.SameCache (s.modCrew n f) where
  mem := rfl
  seals := rfl
  lines := fun m => by
    by_cases h : m = n
    · subst h; rw [State.crew_modCrew_same, hl]
    · rw [State.crew_modCrew_ne _ _ h]
  comb := fun m => by
    by_cases h : m = n
    · subst h; rw [State.crew_modCrew_same, hc]
    · rw [State.crew_modCrew_ne _ _ h]
theorem modCore (c : CoreId) (f : Core → Core) : s.SameCache (s.modCore c f) := of_crews rfl rfl rfl
theorem modPkg (n : Nat) (f : Pkg → Pkg) : s.SameCache (s.modPkg n f) := of_crews rfl rfl rfl
theorem post (p : Pending) : s.SameCache (s.post p) := of_crews rfl rfl rfl
theorem postOnce (i : Instr) : s.SameCache (s.postOnce i) := by
  unfold State.postOnce
  split
  · exact refl s
  · exact post s _

/-! ## Offer records and their homes -/

theorem modRec (r : RecRef) (f : OfferRec → OfferRec) : s.SameCache (s.modRec r f) := by
  cases r <;> exact of_crews rfl rfl rfl
theorem sendEvt (a b : CoreId) (i : Instr) (chan : Nat) : s.SameCache (s.sendEvt a b i chan) := post s _
theorem notify (r : RecRef) : s.SameCache (s.notify r) := by
  unfold State.notify
  dsimp only
  exact SameCache.trans (foldl (fun s _ => sendEvt s ..) _ s) (modRec ..)
theorem withdraw (r : RecRef) (keep : Option Nat) (commit : Bool) : s.SameCache (s.withdraw r keep commit) := by
  refine foldl (fun s n => ?_) _ s
  split
  · exact refl s
  · exact sendEvt s ..
theorem endRec (r : RecRef) (st : OfSt) : s.SameCache (s.endRec r st) :=
  (((withdraw s r none false).trans (modRec _ r _)).trans (notify _ r)).trans (postOnce _ _)
theorem meetRec (r : RecRef) (st : OfSt) : s.SameCache (s.meetRec r st) := by
  unfold State.meetRec
  dsimp only
  split
  · exact refl s
  · split
    · exact endRec s r st
    · exact endRec s r st
    · exact modRec s r _
    · exact refl s
theorem meetNamed (r : RecRef) (ev : EvId) (st : OfSt) : s.SameCache (s.meetNamed r ev st) := by
  unfold State.meetNamed
  split
  · exact meetRec s r st
  · exact refl s
theorem modEv (home : Nat) (ev : EvId) (f : EvRec → EvRec) : s.SameCache (s.modEv home ev f) := modCrew s home (fun _ => rfl) (fun _ => rfl)
theorem setEv (home : Nat) (r : EvRec) : s.SameCache (s.setEv home r) := modCrew s home (fun _ => rfl) (fun _ => rfl)
theorem reap (home : Nat) (ev : EvId) : s.SameCache (s.reap home ev) := modCrew s home (fun _ => rfl) (fun _ => rfl)
theorem dropHolds (home : Nat) (ev : EvId) (pend onYield : Bool) : s.SameCache (s.dropHolds home ev pend onYield) := by
  unfold State.dropHolds
  split
  · exact refl s
  · exact (foldl (fun s _ => sendEvt s ..) _ s).trans (setEv ..)
theorem cancelEv (home : Nat) (ev : EvId) : s.SameCache (s.cancelEv home ev) := by
  unfold State.cancelEv
  split
  · exact refl s
  · split
    · exact setEv s ..
    · exact (((dropHolds s home ev true false).trans (modEv ..)).trans (foldl (fun s _ => meetNamed s ..) _ _)).trans
        (foldl (fun s _ => meetRec s ..) _ _)
theorem deleteEv (home : Nat) (ev : EvId) : s.SameCache (s.deleteEv home ev) :=
  ((modEv s home ev _).trans (cancelEv ..)).trans (reap ..)
theorem killCtx (c : CoreId) (sc : Scope) (ctx : Nat) : s.SameCache (s.killCtx c sc ctx).1 := by
  unfold State.killCtx
  split
  · exact refl s
  · dsimp only
    refine SameCache.trans (SameCache.trans (foldl (fun s h => ?_) _ s) (foldl (fun s _ => deleteEv s ..) _ _)) (foldl (fun s d => ?_) _ _)
    · exact modCrew s h (fun _ => rfl) (fun _ => rfl)
    · refine SameCache.trans ?_ (foldl (fun s _ => meetRec s ..) _ _)
      split
      · exact foldl (fun s _ => meetRec s ..) _ s
      · exact refl s

/-! ## Alarms and machine checks -/

theorem alarm2 (pkg ctx : Nat) : s.SameCache (s.alarm2 pkg ctx) :=
  ((modPkg s pkg _).trans (killCtx ..)).trans (foldl (fun s _ => post s _) _ _)
theorem stopped (c : CoreId) (d : Nat) : s.SameCache (s.stopped c d) := by
  unfold State.stopped
  dsimp only
  split <;> exact of_crews rfl rfl rfl
theorem machineCheck (c : CoreId) (d : Nat) : s.SameCache (s.machineCheck c d) := by
  rw [State.machineCheck_eq]
  split
  · exact stopped s c d
  · exact ((stopped s c d).trans (modCore ..)).trans (postOnce ..)
end

end State.SameCache

end Sys2Proof.Machine
end

section
/-! SUPPORT. fence (R204, R205): the paths it waits for, the combining entries it flushes, the lines it cleans and drops. -/

namespace Sys2Proof.Machine

/-! ## What cleaning and dropping lines leave unchanged -/

section
variable (s : State) (crew : Nat)

theorem State.sansStore_writeBs (k : Nat) (bs : List Byte) : (s.writeBs k bs).sansStore = s.sansStore := rfl

/-- A state with a line's dirty bytes at its home, or as it is where the home refuses them (R199). -/
def State.putBack (s : State) (crew ln : Nat) (l : CLine) : State :=
  match s.backTo crew ln l with
  | some (k, slot) =>
    if s.refuses (crewPkg crew) k slot then s
    else (s.under slot k 64).writeBs k (mergeLine l.mask l.bytes ((s.under slot k 64).mem.readBytes k 64))
  | none => s
theorem State.sansStore_putBack (ln : Nat) (l : CLine) : (s.putBack crew ln l).sansStore = s.sansStore := by
  unfold State.putBack
  split
  · split
    · rfl
    · rw [State.sansStore_writeBs, State.sansStore_under]
  · rfl
theorem State.writeBack_of_find {s : State} {crew ln ln' : Nat} {l : CLine} (h : (s.crew crew).lines.find? (fun p => p.1 == ln') = some (ln, l)) :
    s.writeBack crew ln' = if s.stuckLine crew (ln, l) then s else if l.dirty then
      (s.putBack crew ln l).modCrew crew fun k => { k with lines := k.lines.set ln { l with mask := 0, writers := [] } } else s := by
  have hln : ln = ln' := by simpa using List.find?_some h
  subst hln
  rw [State.writeBack, h]; rfl
theorem State.sansStore_writeBack (ln : Nat) : (s.writeBack crew ln).sansStore = s.sansStore := by
  cases h : (s.crew crew).lines.find? (fun p => p.1 == ln) with
  | none => rw [State.writeBack, h]
  | some p =>
    rw [State.writeBack_of_find h]
    split
    · rfl
    · split
      · rw [State.sansStore_modCrew, State.sansStore_putBack]
      · rfl
theorem sansStore_foldl {α : Type} {f : State → α → State} (h : ∀ (s : State) (a : α), (f s a).sansStore = s.sansStore) (l : List α) (s : State) :
    (l.foldl f s).sansStore = s.sansStore := by
  induction l generalizing s with
  | nil => rfl
  | cons a l ih => exact (ih _).trans (h s a)
theorem State.sansStore_dropCleaned (ln : Nat) : (s.dropCleaned crew ln).sansStore = s.sansStore := by
  unfold State.dropCleaned
  split
  · rfl
  · exact (s.dropLine_crewOnly crew ln).1
theorem State.sansStore_crewRedirect (ctx va : Nat) (big : Bool) (old : Nat × Nat) (pkg frame : Nat) :
    (s.crewRedirect crew ctx va big old pkg frame).sansStore = s.sansStore := by
  unfold State.crewRedirect
  dsimp only
  rw [State.sansStore_modCrew, State.voidFills, (State.sameMem_voidReqs ..).1]
  exact sansStore_foldl (fun s p => (State.sansStore_dropCleaned ..).trans (State.sansStore_writeBack ..)) _ s
theorem State.sansStore_cleanLine (ln : Nat) : (s.cleanLine crew ln).sansStore = s.sansStore := by
  unfold State.cleanLine
  split
  · split
    · split
      · rw [State.sansStore_crewRedirect, State.sansStore_writeBack]
      · exact s.sansStore_writeBack crew ln
    · exact s.sansStore_writeBack crew ln
  · rfl
theorem State.sansStore_cleanWrittenBy (who : Nat) : (s.cleanWrittenBy crew who).sansStore = s.sansStore :=
  sansStore_foldl (fun s _ => State.sansStore_cleanLine s ..) _ s

/-- The lines that remain when the clean ones have been dropped. -/
def State.keptLines (s : State) (crew : Nat) (l : SMap CLine) : SMap CLine :=
  (l.filter fun p => p.2.dirty).map fun p =>
    match s.backTo crew p.1 p.2 with
    | some (h, slot) => (p.1, { p.2 with bytes := mergeLine p.2.mask p.2.bytes ((s.under slot h 64).mem.readBytes h 64) })
    | none => p
theorem State.dropClean_eq : s.dropClean crew = (s.voidFills crew fun _ => true).modCrew crew fun k =>
    { k with lines := (s.voidFills crew fun _ => true).keptLines crew k.lines } := rfl
theorem State.dropClean_crewOnly : (s.dropClean crew).sansStore = s.sansStore ∧ (s.dropClean crew).mem = s.mem ∧ (s.dropClean crew).seals = s.seals := by
  rw [State.dropClean_eq]; exact s.sameMem_voidReqs crew _
theorem State.comb_voidFills (f : Nat → Bool) : ((s.voidFills crew f).crew crew).comb = (s.crew crew).comb := by
  unfold State.voidFills State.voidReqs
  split
  · rfl
  · rw [State.crew_modCrew_same]
theorem State.lines_voidFills (f : Nat → Bool) : ((s.voidFills crew f).crew crew).lines = (s.crew crew).lines := by
  unfold State.voidFills State.voidReqs
  split
  · rfl
  · rw [State.crew_modCrew_same]
theorem State.comb_dropClean : ((s.dropClean crew).crew crew).comb = (s.crew crew).comb := by
  rw [State.dropClean_eq, State.crew_modCrew_same]; exact s.comb_voidFills crew _
theorem State.lines_dropClean :
    ((s.dropClean crew).crew crew).lines = (s.voidFills crew fun _ => true).keptLines crew (s.crew crew).lines := by
  rw [State.dropClean_eq, State.crew_modCrew_same, ← s.lines_voidFills crew fun _ => true]
/-- Only dirty lines remain. -/
theorem State.dirty_of_mem_keptLines {s : State} {crew : Nat} {l : SMap CLine} {q : Nat × CLine} (h : q ∈ s.keptLines crew l) : q.2.dirty = true := by
  obtain ⟨p, hp, rfl⟩ := List.mem_map.1 h
  have hdirty := (List.mem_filter.1 hp).2
  split
  · exact hdirty
  · exact hdirty
theorem State.cleanWrittenBy_of_nil (who : Nat) (h : (s.crew crew).lines = []) : s.cleanWrittenBy crew who = s := by
  rw [State.cleanWrittenBy, h]; rfl
end

/-! ## The instruction -/

section
variable {g : Guard} {sc : Scope} {mask : BitVec 5} {s : State}

theorem exec_fence (g : Guard) (sc : Scope) (mask : BitVec 5) (s : State) : exec (.fence g sc mask) s = issueU (.fence g sc mask) g (fun s =>
    if s.pathsDone mask && !s.fenceStuck s.cur sc (mask.getLsbD 0) then .ok (s.fenceCache s.cur sc (mask.getLsbD 0)) else s.at_ 0 []) s := rfl

/-- A strand that looks again at its next turn, at a numbered point of its instruction. -/
def Strand.resting (i : Instr) (k : Nat) (xs : List Nat) (x : Strand) : Strand :=
  { x with hold := .phase k xs, issued := some i, stalled := false, checkT := false, atYield := false }
theorem finish_at (i : Instr) (s u : State) (yp : Bool) (k : Nat) (xs : List Nat) :
    finish i s yp (u.at_ k xs) = u.modMe (Strand.resting i k xs) := State.modMe_modMe ..

theorem State.charge_pathsDone (s : State) (mask : BitVec 5) : s.charge.pathsDone mask = s.pathsDone mask := by
  have hseq : s.charge.myCore.seq = s.myCore.seq := (congrArg Core.seq s.charge_myCore_rest :)
  have hvbuf : s.charge.myCore.vbuf = s.myCore.vbuf := (congrArg Core.vbuf s.charge_myCore_rest :)
  have hvcur : s.charge.myCore.vcur = s.myCore.vcur := (congrArg Core.vcur s.charge_myCore_rest :)
  have hmq : s.charge.myCore.mq = s.myCore.mq := (congrArg Core.mq s.charge_myCore_rest :)
  have hmcur : s.charge.myCore.mcur = s.myCore.mcur := (congrArg Core.mcur s.charge_myCore_rest :)
  have hcopies : s.charge.myCore.copies = s.myCore.copies := (congrArg Core.copies s.charge_myCore_rest :)
  simp only [State.pathsDone, State.charge_unacked, State.charge_cur, hseq, hvbuf, hvcur, hmq, hmcur, hcopies]

theorem State.SameStore.stuckCombs {s t : State} (h : s.SameStore t) (crew : Nat) (f : Comb → Bool) : t.stuckCombs crew f = s.stuckCombs crew f := by
  simp only [State.stuckCombs, h.crew, h.awaits]
theorem State.charge_fenceStuck (s : State) (t : StrandId) (sc : Scope) (b : Bool) : s.charge.fenceStuck t sc b = s.fenceStuck t sc b := by
  rw [State.fenceStuck, s.sameStore_charge.stuckCombs, s.sameStore_charge.stuckWrites, State.fenceStuck]

theorem fence_body (hdone : s.pathsDone mask = true) (hflow : s.fenceStuck s.cur sc (mask.getLsbD 0) = false) :
    (if s.charge.pathsDone mask && !s.charge.fenceStuck s.charge.cur sc (mask.getLsbD 0) then
      Res.ok (s.charge.fenceCache s.charge.cur sc (mask.getLsbD 0)) else s.charge.at_ 0 []) = .ok (s.charge.fenceCache s.cur sc (mask.getLsbD 0)) := by
  rw [State.charge_pathsDone, State.charge_fenceStuck, State.charge_cur, hdone, hflow]; rfl

theorem fenceCache_of_nil (t : StrandId) (u : State) (h : (u.crew t.core.crewNo).comb = []) (sc : Scope) (b : Bool) :
    u.fenceCache t sc b = if sc.inCrew then u else (u.cleanWrittenBy t.core.crewNo t.core.local_).dropClean t.core.crewNo := by
  simp only [State.fenceCache, State.fenceCombs, State.flushCombs_of_nil h, ite_self]

theorem State.writeBs_mem (s : State) (k : Nat) (bs : List Byte) : (s.writeBs k bs).mem = s.mem.writeBytes k bs := rfl
theorem State.crews_putBack (s : State) (crew ln : Nat) (l : CLine) : (s.putBack crew ln l).crews = s.crews := by
  unfold State.putBack
  split
  · split
    · rfl
    · rw [State.writeBs_crews, State.under_crews]
  · rfl

/-! ### A single line that its core wrote, without a lease, whose home's package has no wakes -/

section
variable {crew ln : Nat} {l : CLine}

theorem lineKey_div (ln : Nat) : lineKey ln / 2 ^ 40 = ln / 2 ^ 34 := by simp only [lineKey, memKey]; omega

variable (hlease : l.lease = none)
include hlease

theorem State.anew_of_no_lease : s.anew crew (l.loc ln) = some (l.loc ln) := by
  simp [State.anew, CLine.loc, hlease]

variable (hcalm : (s.pkg (ln / 2 ^ 34)).wakes = [])
include hcalm

theorem State.backTo_of_calm : s.backTo crew ln l = some (lineKey ln, l.key) := by
  rw [State.backTo, State.anew_of_no_lease hlease, Option.map_some]
  have hhome : s.homeKey (l.loc ln).pkg ((l.loc ln).pa / 64 * 64) = lineKey ln := by
    rw [State.homeKey_of_calm (p := (l.loc ln).pkg) hcalm, CLine.loc, lineKey, Nat.mul_div_cancel _ (by decide)]
  rw [hhome]; rfl
theorem State.stuckLine_of_calm (hopen : s.blocked (crewPkg crew) (ln / 2 ^ 34) = false) : s.stuckLine crew (ln, l) = false := by
  have hway : (s.way (crewPkg crew) (ln / 2 ^ 34)).any isWait = false := by
    rw [State.way, hopen]
    split <;> decide
  simp only [State.stuckLine, State.awaits, State.anew_of_no_lease hlease]
  rw [State.wayTo_of_calm (p := (l.loc ln).pkg) hcalm]
  exact Bool.and_eq_false_imp.2 fun _ => hway
theorem State.putBack_of_calm : s.putBack crew ln l = if s.severed (crewPkg crew) (ln / 2 ^ 34) || !(s.pkg (ln / 2 ^ 34)).keys.has l.key then s
    else (s.under l.key (lineKey ln) 64).writeBs (lineKey ln) (mergeLine l.mask l.bytes ((s.under l.key (lineKey ln) 64).mem.readBytes (lineKey ln) 64)) := by
  rw [State.putBack, State.backTo_of_calm hlease hcalm]
  simp only [State.refuses, lineKey_div]

variable (hlines : (s.crew crew).lines = [(ln, l)]) (hdirty : l.dirty = true) (hopen : s.blocked (crewPkg crew) (ln / 2 ^ 34) = false)
include hlines hdirty hopen

theorem State.cleanWrittenBy_single {who : Nat} (hwho : l.writers.contains who = true) : s.cleanWrittenBy crew who =
    (s.putBack crew ln l).modCrew crew fun k => { k with lines := k.lines.set ln { l with mask := 0, writers := [] } } := by
  have hfind : (s.crew crew).lines.find? (fun p => p.1 == ln) = some (ln, l) := by rw [hlines, List.find?_cons_of_pos (by simp)]
  have hclean : s.cleanWrittenBy crew who = s.cleanLine crew ln := by
    rw [State.cleanWrittenBy, hlines, List.filter_cons_of_pos (by rw [hdirty, hwho]; rfl)]; rfl
  rw [hclean, State.cleanLine, hfind]
  simp only [hdirty, if_true, State.anew_of_no_lease hlease, Option.bind_some]
  rw [State.wakeAt_of_calm (p := (l.loc ln).pkg) hcalm, Option.map_none]
  dsimp only
  rw [State.writeBack_of_find hfind, if_neg (by rw [State.stuckLine_of_calm hlease hcalm hopen]; decide), if_pos hdirty]
end

variable (hg : s.me.guard g = true)
include hg

theorem fence_waits (hdone : s.pathsDone mask = false) :
    Answers (.fence g sc mask) s fun t => OnlyStrand s.cur s t ∧ t.me.hold = .phase 0 [] ∧ t.me.pc = s.me.pc := by
  have hbody : (if s.charge.pathsDone mask && !s.charge.fenceStuck s.charge.cur sc (mask.getLsbD 0) then
      Res.ok (s.charge.fenceCache s.charge.cur sc (mask.getLsbD 0)) else s.charge.at_ 0 []) = s.charge.at_ 0 [] := by
    rw [State.charge_pathsDone, hdone]; rfl
  have honly := onlyStrand_modMe s.charge (Strand.resting (.fence g sc mask) 0 [])
  rw [State.charge_cur] at honly
  refine ⟨_, (exec_fence ..).trans (issueU_of_guard hg), ?_⟩
  beta_reduce
  rw [hbody, finish_at]
  refine ⟨(onlyStrand_charge s).trans honly, ?_⟩
  rw [State.me_modMe, State.charge_me]
  exact ⟨rfl, rfl⟩

section
variable (hdone : s.pathsDone mask = true) (hcomb : (s.crew s.cur.core.crewNo).comb = [])
include hdone hcomb

theorem fence_inCrew (hsc : sc.inCrew = true) : Completes (.fence g sc mask) s s.me := by
  have hflow : s.fenceStuck s.cur sc (mask.getLsbD 0) = false := by simp [State.fenceStuck, State.stuckCombs, hcomb, hsc]
  refine completes_of_ok hg (exec_fence ..) ((fence_body hdone hflow).trans ?_)
  rw [fenceCache_of_nil _ _ (by rwa [s.sameStore_charge.crew]), if_pos hsc]

/-- What a wide fence leaves of the crew cache. -/
def State.fenced (s : State) : State := (s.charge.cleanWrittenBy s.cur.core.crewNo s.cur.core.local_).dropClean s.cur.core.crewNo
omit hg hdone hcomb in
theorem State.sansStore_fenced (s : State) : s.fenced.sansStore = s.charge.sansStore :=
  (State.dropClean_crewOnly ..).1.trans (State.sansStore_cleanWrittenBy ..)

theorem fence_wide (hsc : sc.inCrew = false) (hstuck : s.stuckWrites s.cur.core = false) : 
    Answers (.fence g sc mask) s fun t => OnlyStrand s.cur s.fenced t ∧ t.me = s.after s.me ∧ t.mem = s.fenced.mem := by
  have hflow : s.fenceStuck s.cur sc (mask.getLsbD 0) = false := by simp [State.fenceStuck, State.stuckCombs, hcomb, hstuck]
  refine answers_of_ok hg (exec_fence ..) ((fence_body hdone hflow).trans ?_) s.sansStore_fenced
  rw [fenceCache_of_nil _ _ (by rwa [s.sameStore_charge.crew]), if_neg (by rw [hsc]; decide), State.fenced]

theorem fence_drops_clean (hsc : sc.inCrew = false) (hstuck : s.stuckWrites s.cur.core = false) :
    Answers (.fence g sc mask) s fun t => t.me = s.after s.me ∧ ∀ q, q ∈ (t.crew s.cur.core.crewNo).lines → q.2.dirty = true := by
  obtain ⟨t, ht, honly, hme, -⟩ := fence_wide hg hdone hcomb hsc hstuck
  refine ⟨t, ht, hme, fun q hq => ?_⟩
  rw [honly.crews, State.fenced, State.lines_dropClean] at hq
  exact State.dirty_of_mem_keptLines hq

theorem fence_cleans {ln : Nat} {l : CLine} (hsc : sc.inCrew = false) (hlines : (s.crew s.cur.core.crewNo).lines = [(ln, l)]) (hdirty : l.dirty = true)
    (hwho : l.writers.contains s.cur.core.local_ = true) (hcalm : (s.pkg (ln / 2 ^ 34)).wakes = []) (hlease : l.lease = none)
    (hopen : s.blocked (crewPkg s.cur.core.crewNo) (ln / 2 ^ 34) = false) :
    Answers (.fence g sc mask) s fun t => t.me = s.after s.me ∧ (t.crew s.cur.core.crewNo).lines = []
      ∧ ((!s.severed (crewPkg s.cur.core.crewNo) (ln / 2 ^ 34)) = true → (s.pkg (ln / 2 ^ 34)).keys.has l.key = true →
          t.seals = (s.under l.key (lineKey ln) 64).seals
            ∧ t.mem = (s.under l.key (lineKey ln) 64).mem.writeBytes (lineKey ln)
                (mergeLine l.mask l.bytes ((s.under l.key (lineKey ln) 64).mem.readBytes (lineKey ln) 64)))
      ∧ ((!s.severed (crewPkg s.cur.core.crewNo) (ln / 2 ^ 34)) = false ∨ (s.pkg (ln / 2 ^ 34)).keys.has l.key = false → SameMem s t) := by
  have hstore := s.sameStore_charge
  have hstuck : s.stuckWrites s.cur.core = false := by
    simp [State.stuckWrites, hlines, State.stuckLine_of_calm hlease hcalm hopen]
  have hcalm' : (s.charge.pkg (ln / 2 ^ 34)).wakes = [] := by rwa [hstore.pkg]
  have hlines' : (s.charge.crew s.cur.core.crewNo).lines = [(ln, l)] := by rwa [hstore.crew]
  have hopen' : s.charge.blocked (crewPkg s.cur.core.crewNo) (ln / 2 ^ 34) = false := by rwa [hstore.blocked]
  have hfenced := State.cleanWrittenBy_single hlease hcalm' hlines' hdirty hopen' hwho
  have hput := State.putBack_of_calm (s := s.charge) (crew := s.cur.core.crewNo) hlease hcalm'
  rw [hstore.severed, hstore.pkg, (hstore.under ..).mem] at hput
  obtain ⟨-, hmem, hseals⟩ := State.dropClean_crewOnly (s.charge.cleanWrittenBy s.cur.core.crewNo s.cur.core.local_) s.cur.core.crewNo
  rw [hfenced, State.modCrew_mem] at hmem
  rw [hfenced, State.modCrew_seals] at hseals
  obtain ⟨t, ht, honly, hme, htmem⟩ := fence_wide hg hdone hcomb hsc hstuck
  have htmem' : t.mem = (s.charge.putBack s.cur.core.crewNo ln l).mem := by rw [htmem, State.fenced, hfenced, hmem]
  have htseals : t.seals = (s.charge.putBack s.cur.core.crewNo ln l).seals := by rw [honly.mem.2, State.fenced, hfenced, hseals]
  refine ⟨t, ht, hme, ?_, fun hway hkey => ?_, fun hrefuses => ?_⟩
  · rw [honly.crews, State.fenced, State.lines_dropClean, hfenced, State.crew_modCrew_same, State.crew, State.crews_putBack]
    show State.keptLines _ _ ((s.charge.crew s.cur.core.crewNo).lines.set ln _) = []
    rw [hlines']
    simp [SMap.set, State.keptLines, CLine.dirty]
  · rw [if_neg (by simp_all)] at hput
    rw [hput] at htmem' htseals
    rw [State.writeBs_seals, (hstore.under ..).seals] at htseals
    rw [State.writeBs_mem, (hstore.under ..).mem] at htmem'
    exact ⟨htseals, htmem'⟩
  · rw [if_pos (by rcases hrefuses with h | h <;> simp_all)] at hput
    rw [hput] at htmem' htseals
    exact ⟨fun a => by rw [htmem', State.charge_mem], htseals.trans s.charge_seals⟩
end
end

end Sys2Proof.Machine
end

section
/-! SUPPORT. The flush of a combining entry by a fence (R204): performed at the home as one operation, or a machine check of its opener. -/

namespace Sys2Proof.Machine

section
variable {s : State} {crew : Nat} {f : Comb} {c : CoreId}

/-- A crew whose only entry is gone. -/
def State.uncombed (s : State) (crew : Nat) (f : Comb) : State := s.modCrew crew fun k => { k with comb := k.comb.filter fun x => x != f }

theorem State.uncombed_sansStore : (s.uncombed crew f).sansStore = s.sansStore := State.sansStore_modCrew ..
theorem State.uncombed_mem : (s.uncombed crew f).mem = s.mem := State.modCrew_mem ..
theorem State.uncombed_seals : (s.uncombed crew f).seals = s.seals := State.modCrew_seals ..
theorem State.uncombed_pkg (n : Nat) : (s.uncombed crew f).pkg n = s.pkg n := rfl
theorem State.uncombed_comb (h : (s.crew crew).comb = [f]) : ((s.uncombed crew f).crew crew).comb = [] := by
  rw [State.uncombed, State.crew_modCrew_same]
  simp [h]
theorem State.uncombed_lines : ((s.uncombed crew f).crew crew).lines = (s.crew crew).lines := by
  rw [State.uncombed, State.crew_modCrew_same]

theorem State.uncombed_stuckAt (hcomb : (s.crew crew).comb = [f]) (hlines : (s.crew crew).lines = []) (x : Xlat) :
    (s.uncombed crew f).stuckAt crew x = false := by
  rw [State.stuckAt, State.uncombed_lines, hlines, State.uncombed_comb hcomb]; rfl

/-- The home of an entry takes its flush. -/
def State.takes (s : State) (own : Nat) (f : Comb) : Prop :=
  (s.pkg f.pkg).keys.has f.key = true ∧ s.fencedFor own f.pkg f.ctx = false ∧ (s.pkg f.pkg).frameReserved (f.pa / 2 ^ 16) = false

/-- A state with an entry's partial performed at its home. -/
def State.performed (s : State) (f : Comb) : State :=
  (s.under f.key (memKey f.pkg f.pa) f.sz.bytes).writeN (memKey f.pkg f.pa) f.sz.bytes
    (atomNew f.op f.sz.bytes ((s.under f.key (memKey f.pkg f.pa) f.sz.bytes).readN (memKey f.pkg f.pa) f.sz.bytes) f.part.toNat 0)

variable (hlease : f.lease = none)
include hlease

theorem State.anew_comb : s.anew crew f.loc = some f.loc := by simp [State.anew, Comb.loc, hlease]

variable (hcalm : (s.pkg f.pkg).wakes = []) (hlines : (s.crew crew).lines = []) (hcomb : (s.crew crew).comb = [f]) (hopener : coreOfKey f.opener = c)
  (hcrew : c.crewNo = crew) (hhome : f.pkg = c.pkg)
include hcalm hlines hcomb hopener hcrew hhome

/-- A refused entry: its opener is machine-checked, and memory and the caches stay. -/
theorem State.flushComb_refused (h : ¬ s.takes c.pkg f) : ∃ z, (s.uncombed crew f).SameCache z ∧ s.flushComb crew f = z.machineCheck c 0xB4 := by
  have harrive := State.arrive_of_calm (s := s.uncombed crew f) (c := c) (ctx := f.ctx) (va := f.va) (x := f.loc) hhome
    (by exact hcalm)
  rw [hcrew, State.uncombed_stuckAt hcomb hlines] at harrive
  have hflush (z : State) (d : Nat) (hd : isWait d = false) (hz : (s.uncombed crew f).arrive c f.ctx f.va f.loc = (z, .error d)) :
      s.flushComb crew f = z.machineCheck c 0xB4 := by
    rw [State.uncombed] at hz
    simp only [State.flushComb, State.anew_comb hlease, hopener, hz, hd, Bool.false_eq_true, if_false]
  by_cases hfenced : (s.uncombed crew f).fencedFor c.pkg f.loc.pkg f.ctx = true
  · rw [if_pos hfenced] at harrive
    exact ⟨_, .refl _, hflush _ _ (by decide) harrive⟩
  · rw [if_neg hfenced, if_neg (by decide)] at harrive
    by_cases hres : ((s.uncombed crew f).pkg f.loc.pkg).frameReserved (f.loc.pa / 2 ^ 16) = true
    · rw [if_pos hres] at harrive
      exact ⟨_, .alarm2 .., hflush _ _ (by decide) harrive⟩
    · rw [if_neg hres] at harrive
      have hkey : ((s.uncombed crew f).pkg f.loc.pkg).keys.has f.loc.key = false := by
        rw [Bool.not_eq_true] at hfenced hres
        by_contra hkey
        rw [Bool.not_eq_false] at hkey
        exact h ⟨hkey, hfenced, hres⟩
      rw [hkey, if_pos (by decide)] at harrive
      exact ⟨_, .refl _, hflush _ _ (by decide) harrive⟩

/-- An entry that its home takes: its partial is performed there as one operation. -/
theorem State.flushComb_taken (hwide : f.scope.inCrew = false) (h : s.takes c.pkg f) :
    (s.flushComb crew f).sansStore = s.sansStore ∧ ((s.flushComb crew f).crew crew).lines = [] ∧ ((s.flushComb crew f).crew crew).comb = []
      ∧ (s.flushComb crew f).seals = (s.under f.key (memKey f.pkg f.pa) f.sz.bytes).seals
      ∧ (s.flushComb crew f).mem = ((s.under f.key (memKey f.pkg f.pa) f.sz.bytes).writeN (memKey f.pkg f.pa) f.sz.bytes
          (atomNew f.op f.sz.bytes ((s.under f.key (memKey f.pkg f.pa) f.sz.bytes).readN (memKey f.pkg f.pa) f.sz.bytes) f.part.toNat 0)).mem := by
  obtain ⟨hkey, hfenced, hres⟩ := h
  have harrive := State.arrive_of_calm (s := s.uncombed crew f) (c := c) (ctx := f.ctx) (va := f.va) (x := f.loc) hhome
    (by exact hcalm)
  rw [hcrew, State.uncombed_stuckAt hcomb hlines] at harrive
  have hfenced' : (s.uncombed crew f).fencedFor c.pkg f.loc.pkg f.ctx = false := hfenced
  have hres' : ((s.uncombed crew f).pkg f.loc.pkg).frameReserved (f.loc.pa / 2 ^ 16) = false := hres
  have hkey' : ((s.uncombed crew f).pkg f.loc.pkg).keys.has f.loc.key = true := hkey
  rw [hfenced', hres', hkey'] at harrive
  simp only [Bool.false_eq_true, if_false, Bool.not_true] at harrive
  have hlone : (s.uncombed crew f).aliases crew f.loc = [] := by rw [State.aliases, State.uncombed_lines, hlines]; rfl
  have hmiss : ((s.uncombed crew f).crew crew).lines.has (lineNo f.pkg f.pa) = false := by rw [State.uncombed_lines, hlines]; rfl
  have hevict : (s.uncombed crew f).evictAt crew f.loc = (s.uncombed crew f).dropLine crew (lineNo f.pkg f.pa) := by
    rw [State.evictAt, State.soleLine_of_nil hlone]
    exact State.evictLine_of_absent hmiss
  obtain ⟨hsans, hmem, hseals⟩ := (s.uncombed crew f).dropLine_crewOnly crew (lineNo f.pkg f.pa)
  have hlines' : (((s.uncombed crew f).dropLine crew (lineNo f.pkg f.pa)).crew crew).lines = [] := by
    rw [State.dropLine, State.crew_modCrew_same]
    show SMap.del (((s.uncombed crew f).voidFills crew _).crew crew).lines _ = []
    rw [State.lines_voidFills, State.uncombed_lines, hlines]; rfl
  have hcomb' : (((s.uncombed crew f).dropLine crew (lineNo f.pkg f.pa)).crew crew).comb = [] := by
    rw [State.dropLine, State.crew_modCrew_same]
    show (((s.uncombed crew f).voidFills crew _).crew crew).comb = []
    rw [State.comb_voidFills, State.uncombed_comb hcomb]
  have hflush : s.flushComb crew f = ((s.uncombed crew f).dropLine crew (lineNo f.pkg f.pa)).performed f := by
    have hcalm' : (((s.uncombed crew f).dropLine crew (lineNo f.pkg f.pa)).pkg f.pkg).wakes = [] := by
      rw [show ((s.uncombed crew f).dropLine crew (lineNo f.pkg f.pa)).pkg f.pkg = (s.uncombed crew f).pkg f.pkg from
        (congrArg (State.pkg · f.pkg) hsans :)]
      exact hcalm
    have hplace : ((s.uncombed crew f).dropLine crew (lineNo f.pkg f.pa)).homeKey f.loc.pkg f.loc.pa = memKey f.pkg f.pa :=
      State.homeKey_of_calm hcalm' f.pa
    rw [State.flushComb, State.anew_comb hlease]
    simp only [hopener]
    rw [← State.uncombed, harrive]
    simp only [hwide, Bool.false_eq_true, if_false, hevict, hplace]
    rfl
  generalize (s.uncombed crew f).dropLine crew (lineNo f.pkg f.pa) = v at hsans hmem hseals hlines' hcomb' hflush
  have hpkgs : v.pkgs = s.pkgs := (congrArg State.pkgs hsans :)
  obtain ⟨humem, huseals⟩ := State.under_of_store (hmem.trans State.uncombed_mem) (hseals.trans State.uncombed_seals) hpkgs f.key (memKey f.pkg f.pa)
    f.sz.bytes
  rw [hflush, State.performed, State.sansStore_writeN, State.sansStore_under, State.writeN_seals, State.writeN_mem, State.writeN_mem, huseals, State.readN,
    humem, State.readN]
  exact ⟨hsans, hlines', hcomb', rfl, rfl⟩
end


section
variable {g : Guard} {sc : Scope} {mask : BitVec 5} {s : State} {f : Comb}

theorem State.flushCombs_single {u : State} {crew : Nat} (h : (u.crew crew).comb = [f]) {p : Comb → Bool} (hp : p f = true) :
    u.flushCombs crew p = u.flushComb crew f := by
  rw [State.flushCombs, h, List.filter_cons_of_pos hp]; rfl

theorem OnlyStrand.core_rest {x : StrandId} {s t : State} (h : OnlyStrand x s t) (c : CoreId) : (t.core c).rest = (s.core c).rest := by
  by_cases hk : c.key = x.core.key
  · have hsame (u : State) : u.core c = u.core x.core := by rw [State.core, hk, State.core]
    rw [hsame, hsame s]; exact h.rest
  · rw [h.cores c hk]

/-- A strand whose instruction has completed. -/
def Strand.advanced (t : Strand) : Strand :=
  { t with pc := nextPc t.pc, issued := none, hold := .none, stalled := false, checkT := false, atYield := false, retry := none }

/-- The strand of a fence has combined into an entry. -/
theorem fenceComb_of_mem {t : StrandId} (hwide : sc.inCrew = false) (h : (t.core.key, t.slot, f.scope) ∈ f.users) : fenceComb t sc f = true :=
  List.any_eq_true.2 ⟨_, h, by simp [hwide]⟩

variable (hg : s.me.guard g = true) (hdone : s.pathsDone mask = true) (hsc : sc.inCrew = false)
  (hcomb : (s.crew s.cur.core.crewNo).comb = [f]) (huser : (s.cur.core.key, s.cur.slot, f.scope) ∈ f.users) (hlease : f.lease = none)
  (hhome : f.pkg = s.cur.core.pkg) (hcrew : crewPkg s.cur.core.crewNo = s.cur.core.pkg) (hcalm : (s.pkg f.pkg).wakes = [])
  (hlines : (s.crew s.cur.core.crewNo).lines = [])
include hg hdone hsc hcomb huser hlease hhome hcrew hcalm hlines

omit hg in
/-- A fence of a strand that combined into a crew's one entry flushes it. -/
theorem fence_flushes (hz : ((s.charge.flushComb s.cur.core.crewNo f).crew s.cur.core.crewNo).lines = []) :
    (if s.charge.pathsDone mask && !s.charge.fenceStuck s.charge.cur sc (mask.getLsbD 0) then
      Res.ok (s.charge.fenceCache s.charge.cur sc (mask.getLsbD 0)) else s.charge.at_ 0 []) =
      .ok ((s.charge.flushComb s.cur.core.crewNo f).dropClean s.cur.core.crewNo) := by
  have hawaits : s.awaits s.cur.core.crewNo f.loc = false := by
    simp only [State.awaits, State.anew_comb hlease]
    rw [State.wayTo_of_calm (p := f.loc.pkg) hcalm, hcrew, ← hhome, show s.way f.pkg f.loc.pkg = none from State.way_self s f.pkg]
    rfl
  have hflow : s.fenceStuck s.cur sc (mask.getLsbD 0) = false := by
    simp [State.fenceStuck, State.stuckCombs, State.stuckWrites, hcomb, hlines, hawaits]
  have hcomb' : (s.charge.crew s.cur.core.crewNo).comb = [f] := by rwa [s.sameStore_charge.crew]
  rw [fence_body hdone hflow]
  simp only [State.fenceCache, hsc, Bool.not_false, Bool.or_true, if_true, Bool.false_eq_true, if_false, State.fenceCombs,
    State.flushCombs_single hcomb' (fenceComb_of_mem hsc huser), State.cleanWrittenBy_of_nil _ _ _ hz]

theorem fence_performs_partial (hopener : coreOfKey f.opener = s.cur.core) (hwide : f.scope.inCrew = false) (htakes : s.takes s.cur.core.pkg f) :
    Answers (.fence g sc mask) s fun t => (t.crew s.cur.core.crewNo).comb = [] ∧ t.me = s.after s.me
      ∧ t.seals = (s.under f.key (memKey f.pkg f.pa) f.sz.bytes).seals ∧ t.mem = (s.performed f).mem := by
  have hstore := s.sameStore_charge
  have htakes' : s.charge.takes s.cur.core.pkg f := by
    obtain ⟨hkey, hfenced, hres⟩ := htakes
    exact ⟨by rwa [hstore.pkg], by rwa [hstore.fencedFor], by rwa [hstore.pkg]⟩
  obtain ⟨hsans, hzlines, hzcomb, hzseals, hzmem⟩ := State.flushComb_taken (s := s.charge) (crew := s.cur.core.crewNo) hlease (by rwa [hstore.pkg])
    (by rwa [hstore.crew]) (by rwa [hstore.crew]) hopener rfl hhome hwide htakes'
  obtain ⟨hdsans, hdmem, hdseals⟩ := (s.charge.flushComb s.cur.core.crewNo f).dropClean_crewOnly s.cur.core.crewNo
  have hbody := fence_flushes hdone hsc hcomb huser hlease hhome hcrew hcalm hlines hzlines
  obtain ⟨t, ht, honly, hme, htmem⟩ := answers_of_ok hg (exec_fence ..) hbody (hdsans.trans hsans)
  refine ⟨t, ht, ?_, hme, ?_, ?_⟩
  · rw [honly.crews, State.comb_dropClean, hzcomb]
  · rw [honly.mem.2, hdseals, hzseals, (hstore.under ..).seals]
  · rw [htmem, hdmem, hzmem, State.charge_under_readN, State.writeN_mem, (hstore.under ..).mem, State.performed, State.writeN_mem]

theorem fence_loses_partial (hopener : coreOfKey f.opener = s.cur.core) (hrefuses : ¬ s.takes s.cur.core.pkg f) :
    Answers (.fence g sc mask) s fun t => (t.crew s.cur.core.crewNo).comb = [] ∧ SameMem s t ∧ (t.core s.cur.core).mcheck = some 0xB4 := by
  have hstore := s.sameStore_charge
  have hrefuses' : ¬ s.charge.takes s.cur.core.pkg f := by
    rintro ⟨hkey, hfenced, hres⟩
    exact hrefuses ⟨by rwa [hstore.pkg] at hkey, by rwa [hstore.fencedFor] at hfenced, by rwa [hstore.pkg] at hres⟩
  have hlines' : (s.charge.crew s.cur.core.crewNo).lines = [] := by rwa [hstore.crew]
  have hcomb' : (s.charge.crew s.cur.core.crewNo).comb = [f] := by rwa [hstore.crew]
  obtain ⟨z, hz, hflush⟩ := State.flushComb_refused (s := s.charge) (crew := s.cur.core.crewNo) hlease (by rwa [hstore.pkg]) hlines' hcomb' hopener rfl
    hhome hrefuses'
  have hcache := hz.trans (State.SameCache.machineCheck z s.cur.core 0xB4)
  have hmark := z.mcheck_machineCheck s.cur.core 0xB4
  rw [← hflush] at hcache hmark
  have hbody := fence_flushes hdone hsc hcomb huser hlease hhome hcrew hcalm hlines (by rw [hcache.lines, State.uncombed_lines, hlines'])
  obtain ⟨hdsans, hdmem, hdseals⟩ := (s.charge.flushComb s.cur.core.crewNo f).dropClean_crewOnly s.cur.core.crewNo
  have hcore : ((s.charge.flushComb s.cur.core.crewNo f).dropClean s.cur.core.crewNo).core s.cur.core =
      (s.charge.flushComb s.cur.core.crewNo f).core s.cur.core := (congrArg (State.core · s.cur.core) hdsans :)
  have hdcomb := (s.charge.flushComb s.cur.core.crewNo f).comb_dropClean s.cur.core.crewNo
  rw [hcache.comb, State.uncombed_comb hcomb'] at hdcomb
  rw [hcache.mem, State.uncombed_mem, State.charge_mem] at hdmem
  rw [hcache.seals, State.uncombed_seals, State.charge_seals] at hdseals
  rw [← hcore] at hmark
  generalize (s.charge.flushComb s.cur.core.crewNo f).dropClean s.cur.core.crewNo = w at hbody hdmem hdseals hdcomb hmark
  have honly := onlyStrand_modMe w (Strand.advanced)
  refine ⟨_, (exec_fence ..).trans (issueU_of_guard hg), ?_⟩
  beta_reduce
  rw [hbody]
  show (w.advance.crew _).comb = [] ∧ SameMem s w.advance ∧ (w.advance.core _).mcheck = _
  rw [show w.advance = w.modMe Strand.advanced from rfl]
  refine ⟨by rw [honly.crews, hdcomb], ⟨fun a => by rw [honly.mem.1, hdmem], honly.mem.2.trans hdseals⟩, ?_⟩
  have hmc : (((w.modMe Strand.advanced).core s.cur.core).rest).mcheck = ((w.core s.cur.core).rest).mcheck := congrArg Core.mcheck (honly.core_rest _)
  exact hmc.trans hmark
end

end Sys2Proof.Machine
end

section
/-! SUPPORT. The obligation of the family 08_memory about atomics and the crew cache. -/

namespace Sys2Proof.Machine

/-- Settles O40: each clause is the lemma of its instruction, reached through what an access does before it is performed (Reaches, OwnSlice). -/
theorem atomicsAndCaches : Obligations.AtomicsAndCaches := by
  unfold Obligations.AtomicsAndCaches
  intro g op sz sc ord rel cb d v b m mask psz disp x s hg hhold
  refine ⟨fun off hown halign hord => atom_own hg hhold hown halign hord, fun off hown halign hrel => red_own hg hhold hown halign hrel,
    fun hsc hmiss => ⟨fun hreach halign hord => ⟨?_, ?_⟩, ?_⟩, ?_, ⟨?_, ?_, ?_⟩, ?_, ?_, fun hdone => fence_waits hg hdone, ?_,
    fun hdone hcomb => ⟨fun hsc => fence_inCrew hg hdone hcomb hsc, fun hsc hstuck => fence_drops_clean hg hdone hcomb hsc hstuck, ?_⟩,
    fun hslice => pref_slice hg hslice, fun hreach _ hroom => pref_fills hg hreach hroom, iflush_drops hg, fun hslice => tlbprobe_slice hg hslice,
    fun hreach => tlbprobe_hit hg hreach,
    fun r hform hvirt herr hr => ⟨tlbprobe_error hg hform hvirt herr hr, pref_error hg hform hvirt herr⟩, ?_⟩
  case refine_1 => rintro rfl; exact atom_home hg hhold hsc hmiss hreach halign hord
  case refine_2 => rintro rfl; exact atom_combines hg hhold hsc hmiss hreach halign hord
  case refine_3 => rintro hreach halign hrel rfl; exact red_home hg hhold hsc hmiss hreach halign hrel
  case refine_4 => rintro hreach halign hord rfl hsc hmiss hroom; exact atom_inCrew hg hhold hreach halign hord hsc hmiss hroom
  case refine_5 =>
    intro t off hother hform hslice halign hnames hmay hidle hord
    exact atom_remote_slice hg hhold hother hform hslice halign hnames hmay hidle hord
  case refine_6 =>
    intro t off hother hform hslice halign hnames hmay hidle hrel
    exact red_remote_slice hg hhold hother hform hslice halign hnames hmay hidle hrel
  case refine_7 =>
    rintro hother hsc rfl hmiss hcomb hok hlone hflow
    exact ⟨fun l hform hvirt halign hord hhit hx hfree =>
        atom_remote_home hg hhold hother hsc hmiss hcomb hok hlone hflow hform hvirt halign hord hhit hx hfree,
      fun l hform hvirt halign hrel hhit hx hfree =>
        red_remote_home hg hhold hother hsc hmiss hcomb hok hlone hflow hform hvirt halign hrel hhit hx hfree⟩
  case refine_8 =>
    intro y w hy hw
    exact ⟨fun _ _ _ _ _ _ _ _ h1 h2 hz hne => atomNew_fadd_fin hy hw h1 h2 hz hne, fun h => atomNew_fadd_nan hy hw h⟩
  case refine_9 =>
    intro o w q ho hw hq
    obtain ⟨hswap, hcas, hadd, hand, hor, hxor⟩ := atomNew_of_lt ho hw hq
    obtain ⟨hmaxn, hminn⟩ := atomNew_unsigned (q := q) ho hw
    exact ⟨hswap, hcas, hadd, hand, hor, hxor, hmaxn, hminn, atomNew_signed ho hw (bytes_pos sz)⟩
  case refine_10 =>
    intro f hcomb huser hwide hlease hhome hcrew hopener hcalm hlines hdone hsc
    by_cases htakes : s.takes s.cur.core.pkg f
    · obtain ⟨t, ht, hempty, hme, hseals, hmem⟩ :=
        fence_performs_partial hg hdone hsc hcomb huser hlease hhome hcrew hcalm hlines hopener hwide htakes
      exact ⟨t, ht, hempty, fun _ => ⟨hme, hseals, hmem⟩, fun h => absurd htakes h⟩
    · obtain ⟨t, ht, hempty, hsame, hmark⟩ := fence_loses_partial hg hdone hsc hcomb huser hlease hhome hcrew hcalm hlines hopener htakes
      exact ⟨t, ht, hempty, fun h => absurd h htakes, fun _ => ⟨hsame, by rw [hopener]; exact hmark⟩⟩
  case refine_11 =>
    intro ln l hsc hlines hdirty hwho hcalm hlease hopen
    exact fence_cleans hg hdone hcomb hsc hlines hdirty hwho hcalm hlease hopen
  case refine_12 =>
    intro t pc bs w line fill hmiss hfree hfetch
    obtain ⟨hkept, htwice⟩ := instructionLineFill_outcomes hmiss hfree hfetch
    exact ⟨hkept, fun bs' w' hbad hagain hbad' => ⟨_, htwice bs' w' hbad hagain hbad', w'.mcheck_machineCheck t.core 0xB0⟩⟩

end Sys2Proof.Machine
end

section
/-! SUPPORT. cp, cpx, putt and gett at issue (R214, R305, R412): their checks, the operand condition, and the queue. -/

namespace Sys2Proof.Machine

/-! ## Issue of an instruction that changes its core and its strand -/

/-- A change of the executing strand and one of its core that has nothing to do with the strand contexts commute. -/
theorem State.modMe_modMyCore (s : State) (h : Strand → Strand) {f : Core → Core} (hf : ∀ k slot, f (k.modStrand slot h) = (f k).modStrand slot h) :
    (s.modMe h).modMyCore f = (s.modMyCore f).modMe h := by
  have hcore : (fun k => f (k.modStrand s.cur.slot h)) = fun k => (f k).modStrand s.cur.slot h := funext fun k => hf k _
  rw [State.modMe_eq, State.modMyCore_eq, State.modMe_eq, State.modMyCore_eq, State.modCore_cur, State.modCore_cur, State.modCore_modCore,
    State.modCore_modCore, hcore]

section
variable {i : Instr} {g : Guard} {s : State} {body : State → Res} (hg : s.me.guard g = true) (he : exec i s = issueU i g body s)
include hg he

/-- An instruction whose effect is a change of its core, as in completesCore_of_body, and one of its strand. -/
theorem completesCore_of_body_modMe {f : Core → Core} {h : Strand → Strand} {x : Strand} (hb : body s.charge = .ok ((s.charge.modMyCore f).modMe h))
    (hs : ∀ k, (f k).strands = k.strands) (hr : ∀ k, (f k).rest = f k.rest)
    (hx : h { s.me with left := s.leftIssued } = { x with left := s.leftIssued }) (hpc : x.pc = s.me.pc) : CompletesCore i s (f s.myCore) x := by
  have hcore : OnlyCoreOf s.cur s.charge (s.charge.modMyCore f) := by
    rw [State.modMyCore_eq, State.charge_cur]; exact onlyCoreOf_modCore s.charge s.cur f hs
  have hone : ((s.charge.modMyCore f).modMe h).advance = (s.charge.modMyCore f).modMe fun t => Strand.advanced (h t) := State.modMe_modMe ..
  have hmod := onlyStrand_modMe (s.charge.modMyCore f) fun t => Strand.advanced (h t)
  rw [State.modMyCore_cur, State.charge_cur] at hmod
  refine ⟨_, he.trans (issueU_of_guard hg), ?_⟩
  rw [hb]
  show OnlyCoreOf s.cur s ((s.charge.modMyCore f).modMe h).advance ∧ _ ∧ ((s.charge.modMyCore f).modMe h).advance.me = _
  rw [finish, hone]
  refine ⟨(onlyStrand_charge s).coreOf.trans (hcore.trans hmod.coreOf), ?_, ?_⟩
  · calc ((s.charge.modMyCore f).modMe fun t => Strand.advanced (h t)).myCore.rest
        = ((s.charge.modMyCore f).core s.cur.core).rest := by
          rw [State.myCore, hmod.cur, State.modMyCore_cur, State.charge_cur]; exact hmod.rest
      _ = (f s.charge.myCore).rest := by rw [State.modMyCore_eq, State.charge_cur, State.core_modCore_same, State.myCore, State.charge_cur]
      _ = (f s.myCore).rest := by rw [hr, hr, State.charge_myCore_rest]
  · rw [State.me_modMe, State.me_modMyCore _ hs, State.charge_me, hx, ← hpc]; rfl
end

/-! ## What a copy command does once issued -/

/-- The effect of a copy command on its tile at issue (R196). -/
def Core.copyTaken (k : Core) (mode : CopyMode) (t : Nat) : Core :=
  match mode with | .inn => k.tileTo t 1 | .out => k.addReader t | .outr => k.tileTo t 3
/-- That effect, and the command queued. -/
def Core.queued (k : Core) (mode : CopyMode) (cmd : CopyCmd) : Core := { k.copyTaken mode cmd.tile with copies := k.copies ++ [cmd] }
/-- A strand without its evput.cp bindings (R264). -/
def Strand.unbindCp (x : Strand) : Strand := { x with binds := x.binds.filter fun b => b.2 != .cp }

theorem Core.queued_strands (k : Core) (mode : CopyMode) (cmd : CopyCmd) : (k.queued mode cmd).strands = k.strands := by cases mode <;> rfl
theorem Core.queued_rest (k : Core) (mode : CopyMode) (cmd : CopyCmd) : (k.queued mode cmd).rest = k.rest.queued mode cmd := by cases mode <;> rfl
theorem Core.queued_modStrand (k : Core) (mode : CopyMode) (cmd : CopyCmd) (slot : Nat) (h : Strand → Strand) :
    (k.modStrand slot h).queued mode cmd = (k.queued mode cmd).modStrand slot h := by cases mode <;> rfl

section
variable (s : State) (i : Instr) (mode : CopyMode) (kind t : Nat) (addr : Word)

/-- The shape record of a tile of the executing core. -/
def State.shapeAt (s : State) (t : Nat) : List Word := s.shapeWords s.cur.core (tileShape (s.myCore.tile t))
/-- The bytes of its data area and of its scale part. -/
def State.sizesAt (s : State) (t : Nat) : Nat × Nat := (tileBytes (s.myCore.tile t) (s.shapeAt t)).getD (0, 0)
/-- Bytes of a tile lie outside program space (R412); for a cpx of packed elements, where its elements lie (log 53). -/
def State.copyOut (s : State) (kind t : Nat) : Bool :=
  (if kind = 1 ∧ isPlane (tileFmt (s.myCore.tile t)) = false ∧ tileFmt (s.myCore.tile t) ≠ 13 then cpxRangeBad (s.myCore.tile t) (s.shapeAt t)
    else decide (0x1E000 < tileBase (s.myCore.tile t) + (s.sizesAt t).1))
  || ((s.sizesAt t).2 != 0 && decide (0x1E000 < tileScales (s.myCore.tile t) + (s.sizesAt t).2))
/-- The command that is queued. -/
def State.copyCmd (s : State) (i : Instr) (kind t : Nat) (addr : Word) : CopyCmd :=
  ⟨i, s.cur.slot, s.cur.gid, s.ctx, s.super, s.me.pc, addr, t, (s.sizesAt t).1, (s.sizesAt t).2, s.shapeAt t,
    if kind = 2 then [] else ((s.me.binds.filter fun y => y.2 == .cp).map Prod.fst).map fun e => s.me.e.get eReset e, false, 0, none, [], none⟩

theorem State.charge_shapeAt : s.charge.shapeAt t = s.shapeAt t := by
  simp only [State.shapeAt, State.charge_cur, State.charge_tile, State.shapeWords, State.sread, State.charge_readN]
theorem State.charge_copies : s.charge.myCore.copies = s.myCore.copies := (congrArg Core.copies s.charge_myCore_rest :)

/-- The checks of R412 in order, the operand condition, and the command's entry into the queue. -/
theorem State.copyIssue_charge : s.charge.copyIssue i mode kind t addr =
    if tileFmt (s.myCore.tile t) = 15 then .fault s.charge (s.fault 0x69)
    else if tileMark (s.myCore.tile t) then .fault s.charge (s.charge.markFault t 0x6C)
    else if s.copyOut kind t then .fault s.charge (s.fault 0x6B)
    else if kind = 0 ∧ addr.getLsbD 63 ∧ 0x20000 < addr.toNat % 2 ^ 17 + (s.sizesAt t).1 + (s.sizesAt t).2 then .fault s.charge (s.faultA 0x64 addr)
    else if 2 ≤ (s.myCore.copies.filter fun y => !y.started).length ∨ tileSt (s.myCore.tile t) ≠ (if mode = .inn then 0 else 2) then .stall
    else .ok ((if kind ≠ 2 then s.charge.modMe Strand.unbindCp else s.charge).modMyCore fun k => k.queued mode (s.copyCmd i kind t addr)) := by
  have hsizes : (tileBytes (s.myCore.tile t) (s.shapeWords s.cur.core (tileShape (s.myCore.tile t)))).getD (0, 0) = s.sizesAt t := rfl
  have hshape : s.charge.shapeWords s.cur.core (tileShape (s.myCore.tile t)) = s.shapeWords s.cur.core (tileShape (s.myCore.tile t)) := by
    simp only [State.shapeWords, State.sread, State.charge_readN]
  have hpacked : (kind = 1 ∧ (!isPlane (tileFmt (s.myCore.tile t)) && tileFmt (s.myCore.tile t) != 13) = true) ↔
      (kind = 1 ∧ isPlane (tileFmt (s.myCore.tile t)) = false ∧ tileFmt (s.myCore.tile t) ≠ 13) := by simp
  unfold State.copyIssue
  have hbits : bitsN addr.toNat 16 0 = addr.toNat % 2 ^ 17 := by simp [bitsN]
  have hfault : s.charge.faultA dMSLICE addr = s.faultA 0x64 addr := by rw [State.faultA, State.charge_fault, State.faultA]; rfl
  have hrange : ((if kind = 1 ∧ (!isPlane (tileFmt (s.myCore.tile t)) && tileFmt (s.myCore.tile t) != 13) = true then
      cpxRangeBad (s.myCore.tile t) (s.shapeWords s.cur.core (tileShape (s.myCore.tile t)))
        else decide (progEnd < tileBase (s.myCore.tile t) + (s.sizesAt t).1))
      || ((s.sizesAt t).2 != 0 && decide (progEnd < tileScales (s.myCore.tile t) + (s.sizesAt t).2))) = s.copyOut kind t := by
    simp only [hpacked]; rfl
  have hcmd : CopyCmd.mk i s.cur.slot s.cur.gid s.ctx s.super s.charge.me.pc addr t (s.sizesAt t).1 (s.sizesAt t).2
      (s.shapeWords s.cur.core (tileShape (s.myCore.tile t)))
      (if kind ≠ 2 then ((s.charge.me.binds.filter fun y => y.2 == .cp).map Prod.fst).map fun e => s.charge.me.e.get eReset e else [])
      false 0 none [] none = s.copyCmd i kind t addr := by
    rw [State.copyCmd, State.charge_me, ite_not]; rfl
  simp only [State.charge_cur, State.charge_tile, hshape, hsizes, State.charge_copies, hrange, State.charge_fault, hbits, hfault, State.charge_ctx,
    State.charge_super]
  rw [← hcmd]
  cases mode <;> rfl
end


/-! ## The outcomes -/

section
variable {i : Instr} {g : Guard} {s : State} {body : State → Res} {mode : CopyMode} {kind t : Nat} {addr : Word}

/-- A copy command has passed the checks of R412. -/
structure State.CopyPasses (s : State) (kind t : Nat) (addr : Word) : Prop where
  fmt   : tileFmt (s.myCore.tile t) ≠ 15
  mark  : tileMark (s.myCore.tile t) = false
  inside : s.copyOut kind t = false
  slice : ¬ (kind = 0 ∧ addr.getLsbD 63 = true ∧ 0x20000 < addr.toNat % 2 ^ 17 + (s.sizesAt t).1 + (s.sizesAt t).2)

theorem State.CopyPasses.copyIssue (h : s.CopyPasses kind t addr) : s.charge.copyIssue i mode kind t addr =
    if 2 ≤ (s.myCore.copies.filter fun y => !y.started).length ∨ tileSt (s.myCore.tile t) ≠ (if mode = .inn then 0 else 2) then .stall
    else .ok ((if kind ≠ 2 then s.charge.modMe Strand.unbindCp else s.charge).modMyCore fun k => k.queued mode (s.copyCmd i kind t addr)) := by
  rw [State.copyIssue_charge, if_neg h.fmt, h.mark, h.inside, if_neg (by decide), if_neg (by decide), if_neg h.slice]

variable (hg : s.me.guard g = true) (he : exec i s = issueU i g body s) (hb : body s.charge = s.charge.copyIssue i mode kind t addr)
include hg he hb

theorem copyIssue_reservedFmt (h : tileFmt (s.myCore.tile t) = 15) : exec i s = .next (s.charge.raiseMe (s.fault 0x69)) :=
  raises_of_fault hg he (hb.trans (by rw [State.copyIssue_charge, if_pos h])) (by decide : 0x69 < 256)
theorem copyIssue_marked (h : tileFmt (s.myCore.tile t) ≠ 15) (hm : tileMark (s.myCore.tile t) = true) :
    exec i s = .next (s.charge.raiseMe (s.charge.markFault t 0x6C)) :=
  raises_of_fault hg he (hb.trans (by rw [State.copyIssue_charge, if_neg h, hm, if_pos rfl])) (s.charge.markFault_detail_lt t (by decide))
theorem copyIssue_outside (h : tileFmt (s.myCore.tile t) ≠ 15) (hm : tileMark (s.myCore.tile t) = false) (ho : s.copyOut kind t = true) :
    exec i s = .next (s.charge.raiseMe (s.fault 0x6B)) :=
  raises_of_fault hg he (hb.trans (by rw [State.copyIssue_charge, if_neg h, hm, ho, if_neg (by decide), if_pos rfl])) (by decide : 0x6B < 256)
theorem copyIssue_past_slice (h : tileFmt (s.myCore.tile t) ≠ 15) (hm : tileMark (s.myCore.tile t) = false) (ho : s.copyOut kind t = false)
    (hp : kind = 0 ∧ addr.getLsbD 63 = true ∧ 0x20000 < addr.toNat % 2 ^ 17 + (s.sizesAt t).1 + (s.sizesAt t).2) :
    exec i s = .next (s.charge.raiseMe (s.faultA 0x64 addr)) :=
  raises_of_fault hg he (hb.trans (by rw [State.copyIssue_charge, if_neg h, hm, ho, if_neg (by decide), if_neg (by decide), if_pos hp]))
    (by decide : 0x64 < 256)
theorem copyIssue_stalls (h : s.CopyPasses kind t addr)
    (hw : 2 ≤ (s.myCore.copies.filter fun y => !y.started).length ∨ tileSt (s.myCore.tile t) ≠ (if mode = .inn then 0 else 2)) : Stalls i s :=
  stalls_of_body hg he (hb.trans (by rw [h.copyIssue, if_pos hw]))
theorem copyIssue_queues (h : s.CopyPasses kind t addr) (hroom : (s.myCore.copies.filter fun y => !y.started).length < 2)
    (hst : tileSt (s.myCore.tile t) = (if mode = .inn then 0 else 2)) :
    CompletesCore i s (s.myCore.queued mode (s.copyCmd i kind t addr)) (if kind = 2 then s.me else s.me.unbindCp) := by
  have hissue := hb.trans h.copyIssue
  rw [if_neg (not_or.2 ⟨Nat.not_le.2 hroom, not_not.2 hst⟩)] at hissue
  by_cases hk : kind = 2
  · rw [if_neg (not_not.2 hk)] at hissue
    rw [if_pos hk]
    exact completesCore_of_body (f := fun k => k.queued mode (s.copyCmd i kind t addr)) hg he hissue (fun _ => Core.queued_strands ..)
      fun _ => Core.queued_rest ..
  · rw [if_pos hk, State.modMe_modMyCore _ _ fun _ _ => Core.queued_modStrand ..] at hissue
    rw [if_neg hk]
    exact completesCore_of_body_modMe (f := fun k => k.queued mode (s.copyCmd i kind t addr)) hg he hissue (fun _ => Core.queued_strands ..)
      (fun _ => Core.queued_rest ..) rfl rfl

/-- What comes of a copy command whose form and alignment are good. -/
theorem copyIssue_outcomes :
    (tileFmt (s.myCore.tile t) = 15 → exec i s = .next (s.charge.raiseMe (s.fault 0x69)))
    ∧ (tileFmt (s.myCore.tile t) ≠ 15 → tileMark (s.myCore.tile t) = true → exec i s = .next (s.charge.raiseMe (s.charge.markFault t 0x6C)))
    ∧ (tileFmt (s.myCore.tile t) ≠ 15 → tileMark (s.myCore.tile t) = false →
      (s.copyOut kind t = true → exec i s = .next (s.charge.raiseMe (s.fault 0x6B)))
      ∧ (s.copyOut kind t = false →
        (kind = 0 → addr.getLsbD 63 = true → 0x20000 < addr.toNat % 2 ^ 17 + (s.sizesAt t).1 + (s.sizesAt t).2 →
          exec i s = .next (s.charge.raiseMe (s.faultA 0x64 addr)))
        ∧ (¬ (kind = 0 ∧ addr.getLsbD 63 = true ∧ 0x20000 < addr.toNat % 2 ^ 17 + (s.sizesAt t).1 + (s.sizesAt t).2) →
          (2 ≤ (s.myCore.copies.filter fun y => !y.started).length ∨ tileSt (s.myCore.tile t) ≠ (if mode = .inn then 0 else 2) → Stalls i s)
          ∧ ((s.myCore.copies.filter fun y => !y.started).length < 2 → tileSt (s.myCore.tile t) = (if mode = .inn then 0 else 2) →
            CompletesCore i s (s.myCore.queued mode (s.copyCmd i kind t addr)) (if kind = 2 then s.me else s.me.unbindCp))))) :=
  ⟨copyIssue_reservedFmt hg he hb, copyIssue_marked hg he hb, fun h hm => ⟨copyIssue_outside hg he hb h hm, fun ho =>
    ⟨fun hk hs hp => copyIssue_past_slice hg he hb h hm ho ⟨hk, hs, hp⟩, fun hp =>
      ⟨copyIssue_stalls hg he hb ⟨h, hm, ho, hp⟩, copyIssue_queues hg he hb ⟨h, hm, ho, hp⟩⟩⟩⟩⟩
end

/-! ## The instructions -/

section
variable {g : Guard} {dir : CpDir} {sc : Scope} {t peer : TReg} {b : Reg} {m : MAddr} {rel : Bool} {s : State}

/-- The mode of a direction. -/
def copyModeOf : CpDir → CopyMode
  | .inn => .inn | .out => .out | .outr => .outr

/-- cp and cpx: the form of the address and its alignment to n bytes, then the checks of the tile. -/
def State.cpBody (s : State) (i : Instr) (mode : CopyMode) (kind t n : Nat) (a : Word) : Res :=
  if !mformOk a then .fault s (s.faultA dMFORM a)
  else if a.toNat % n ≠ 0 then .fault s (s.faultA dMALIGN a)
  else s.copyIssue i mode kind t a
theorem exec_cp (g : Guard) (dir : CpDir) (sc : Scope) (t : TReg) (m : MAddr) (s : State) : exec (.cp g dir sc t m) s =
    issueU (.cp g dir sc t m) g (fun s => s.cpBody (.cp g dir sc t m) (copyModeOf dir) 0 t.toNat 8 (s.cpEa m)) s := by cases dir <;> rfl
theorem exec_cpx (g : Guard) (dir : CpDir) (sc : Scope) (t : TReg) (m : MAddr) (s : State) : exec (.cpx g dir sc t m) s =
    issueU (.cpx g dir sc t m) g (fun s => s.cpBody (.cpx g dir sc t m) (copyModeOf dir) 1 t.toNat 64 (s.cpEa m)) s := by cases dir <;> rfl
theorem exec_putt (g : Guard) (rel : Bool) (t : TReg) (b : Reg) (peer : TReg) (s : State) : exec (.putt g rel t b peer) s =
    issueU (.putt g rel t b peer) g (fun s => s.peerIssue (.putt g rel t b peer) (if rel then .outr else .out) t (s.rg b)) s := rfl
theorem exec_gett (g : Guard) (rel : Bool) (t : TReg) (b : Reg) (peer : TReg) (s : State) : exec (.gett g rel t b peer) s =
    issueU (.gett g rel t b peer) g (fun s => s.peerIssue (.gett g rel t b peer) .inn t (s.rg b)) s := rfl

theorem State.charge_cpEa (s : State) (m : MAddr) : s.charge.cpEa m = s.cpEa m := by simp only [State.cpEa, State.charge_rg]
theorem State.cpEa_eq (s : State) (m : MAddr) : s.cpEa m = s.rg m.base + s.rg m.idx + m.disp.signExtend 64 := by
  rw [State.cpEa, ea48, BitVec.shiftLeft_zero]
theorem State.charge_faultA (s : State) (d : Nat) (a : Word) : s.charge.faultA d a = s.faultA d a := by
  rw [State.faultA, State.charge_fault, State.faultA]

variable {i : Instr} {body : State → Res} {mode : CopyMode} {kind n : Nat} {a : Word} (hg : s.me.guard g = true) (he : exec i s = issueU i g body s)
include hg he

theorem cpBody_unformed (hb : body s.charge = s.charge.cpBody i mode kind t.toNat n a) (h : mformOk a = false) :
    exec i s = .next (s.charge.raiseMe (s.faultA 0x60 a)) :=
  raises_of_fault hg he (hb.trans (by rw [State.cpBody, h, if_pos (by decide), State.charge_faultA]; rfl)) (by decide : 0x60 < 256)
theorem cpBody_unaligned (hb : body s.charge = s.charge.cpBody i mode kind t.toNat n a) (h : mformOk a = true) (ha : a.toNat % n ≠ 0) :
    exec i s = .next (s.charge.raiseMe (s.faultA 0x63 a)) :=
  raises_of_fault hg he (hb.trans (by rw [State.cpBody, h, if_neg (by decide), if_pos ha, State.charge_faultA]; rfl)) (by decide : 0x63 < 256)
omit hg he in
theorem State.cpBody_passed {u : State} (h : mformOk a = true) (ha : a.toNat % n = 0) {x : Nat} : u.cpBody i mode kind x n a = u.copyIssue i mode kind x a := by
  rw [State.cpBody, h, if_neg (by decide), if_neg (not_not.2 ha)]

theorem peerIssue_unformed (hb : body s.charge = s.charge.peerIssue i mode t a) (h : mformOk a = false) :
    exec i s = .next (s.charge.raiseMe (s.faultA 0x60 a)) :=
  raises_of_fault hg he (hb.trans (by rw [State.peerIssue, h, if_pos (by decide), State.charge_faultA]; rfl)) (by decide : 0x60 < 256)
theorem peerIssue_no_slice (hb : body s.charge = s.charge.peerIssue i mode t a) (h : mformOk a = true) (ha : a.getLsbD 63 = false) :
    exec i s = .next (s.charge.raiseMe (s.faultA 0x64 a)) :=
  raises_of_fault hg he (hb.trans (by rw [State.peerIssue, h, ha, if_neg (by decide), if_pos (by decide), State.charge_faultA]; rfl)) (by decide : 0x64 < 256)
omit hg he in
theorem State.peerIssue_passed {u : State} (h : mformOk a = true) (ha : a.getLsbD 63 = true) : u.peerIssue i mode t a = u.copyIssue i mode 2 t.toNat a := by
  rw [State.peerIssue, h, ha, if_neg (by decide), if_neg (by decide)]
end

end Sys2Proof.Machine
end

section
/-! SUPPORT. Tensor headers (R217) and the checks of a cpx against its tile (R218, R219). -/

namespace Sys2Proof.Machine

/-! ## The fields of a header -/

/-- n bits of a header's word from bit lo on. -/
def hdrBits (hw : List Word) (i lo n : Nat) : Nat := ((hw.getD i 0).extractLsb' lo n).toNat
/-- The rank. -/
def hdrRank (hw : List Word) : Nat := hdrBits hw 5 53 3 + 1
/-- The extent of a dimension, 1 beyond the rank. -/
def hdrExt (hw : List Word) (d : Nat) : Nat := if hdrRank hw ≤ d then 1 else hdrBits hw (3 + d / 4) (16 * (d % 4)) 16
/-- The stride of a dimension, 0 beyond the rank. -/
def hdrStr (hw : List Word) (d : Nat) : Nat := if hdrRank hw ≤ d then 0 else if d = 0 then 1 else if d = 7 then hdrBits hw 2 40 24
  else hdrBits hw (5 + (d - 1) / 2) (24 * ((d - 1) % 2)) 24
/-- The header's FMT. -/
def hdrFmt (hw : List Word) : Nat := hdrBits hw 5 48 5
/-- The header that words describe. -/
def hdrOf (hw : List Word) : THdr :=
  ⟨hw.getD 0 0, hdrBits hw 2 0 40, hdrFmt hw, (hw.getD 5 0).getLsbD 56, (List.range 8).map (hdrExt hw), (List.range 8).map (hdrStr hw)⟩
/-- Words that describe none: a reserved field is set, an extent is 0, or a plane tensor has not two dimensions. -/
def hdrBad (hw : List Word) : Prop := hdrBits hw 5 57 7 ≠ 0 ∨ hdrBits hw 6 48 16 ≠ 0 ∨ hdrBits hw 7 48 16 ≠ 0 ∨ (∃ d, d < 8 ∧ hdrExt hw d = 0)
  ∨ (isPlane (hdrFmt hw) = true ∧ hdrRank hw ≠ 2)

theorem bitsN_eq_hdrBits (hw : List Word) (i hi lo n : Nat) (h : n = hi + 1 - lo) : bitsN (hw.getD i 0).toNat hi lo = hdrBits hw i lo n :=
  bitsN_toNat _ h.symm

/-- The extents as thdrOf reads them. -/
def extAt (hw : List Word) (i : Nat) : Nat := if bitsN (hw.getD 5 0).toNat 55 53 + 1 ≤ i then 1
  else if i < 4 then bitsN (hw.getD 3 0).toNat (16 * i + 15) (16 * i) else bitsN (hw.getD 4 0).toNat (16 * i - 49) (16 * i - 64)
/-- The strides as thdrOf reads them. -/
def strAt (hw : List Word) (i : Nat) : Nat := if bitsN (hw.getD 5 0).toNat 55 53 + 1 ≤ i then 0 else match i with
  | 1 => bitsN (hw.getD 5 0).toNat 23 0 | 2 => bitsN (hw.getD 5 0).toNat 47 24 | 3 => bitsN (hw.getD 6 0).toNat 23 0
  | 4 => bitsN (hw.getD 6 0).toNat 47 24 | 5 => bitsN (hw.getD 7 0).toNat 23 0 | 6 => bitsN (hw.getD 7 0).toNat 47 24
  | 7 => bitsN (hw.getD 2 0).toNat 63 40 | _ => 1
theorem thdrOf_def (hw : List Word) : thdrOf hw =
    if bitsN (hw.getD 5 0).toNat 63 57 ≠ 0 ∨ bitsN (hw.getD 6 0).toNat 63 48 ≠ 0 ∨ bitsN (hw.getD 7 0).toNat 63 48 ≠ 0
      ∨ ((List.range 8).map (extAt hw)).any (· == 0) ∨ (isPlane (bitsN (hw.getD 5 0).toNat 52 48) ∧ bitsN (hw.getD 5 0).toNat 55 53 + 1 ≠ 2) then none
    else some ⟨hw.getD 0 0, bitsN (hw.getD 2 0).toNat 39 0, bitsN (hw.getD 5 0).toNat 52 48, bitsN (hw.getD 5 0).toNat 56 56 == 1,
      (List.range 8).map (extAt hw), (List.range 8).map (strAt hw)⟩ := rfl

theorem map_extAt (hw : List Word) : (List.range 8).map (extAt hw) = (List.range 8).map (hdrExt hw) := by
  refine List.map_congr_left fun i hi => ?_
  have hi8 : i < 8 := List.mem_range.1 hi
  rw [extAt, hdrExt, hdrRank, bitsN_eq_hdrBits hw 5 55 53 3 rfl]
  split
  · rfl
  · split
    · next h4 => rw [bitsN_eq_hdrBits hw 3 _ _ 16 (by omega), Nat.div_eq_of_lt h4, Nat.mod_eq_of_lt h4]
    · next h4 =>
      have hdiv : i / 4 = 1 := by omega
      have hmod : 16 * (i % 4) = 16 * i - 64 := by omega
      rw [bitsN_eq_hdrBits hw 4 _ _ 16 (by omega), hdiv, hmod]
theorem map_strAt (hw : List Word) : (List.range 8).map (strAt hw) = (List.range 8).map (hdrStr hw) := by
  refine List.map_congr_left fun i hi => ?_
  have hi8 : i < 8 := List.mem_range.1 hi
  unfold strAt
  rw [hdrStr, hdrRank, bitsN_eq_hdrBits hw 5 55 53 3 rfl]
  split
  · rfl
  · interval_cases i
    · rfl
    all_goals exact bitsN_eq_hdrBits hw _ _ _ _ rfl

/-- The header of eight words, or none. -/
theorem thdrOf_eq (hw : List Word) [Decidable (hdrBad hw)] : thdrOf hw = if hdrBad hw then none else some (hdrOf hw) := by
  have hkd : (bitsN (hw.getD 5 0).toNat 56 56 == 1) = (hw.getD 5 0).getLsbD 56 := by
    rw [BitVec.getLsbD, Nat.testBit_eq_decide_div_mod_eq]; rfl
  have hzero : ((List.range 8).map (hdrExt hw)).any (· == 0) = true ↔ ∃ d, d < 8 ∧ hdrExt hw d = 0 := by simp
  rw [thdrOf_def, map_extAt, map_strAt, hkd]
  simp only [hzero, bitsN_eq_hdrBits hw 2 39 0 40 rfl, bitsN_eq_hdrBits hw 5 52 48 5 rfl,
    bitsN_eq_hdrBits hw 5 63 57 7 rfl, bitsN_eq_hdrBits hw 6 63 48 16 rfl, bitsN_eq_hdrBits hw 7 63 48 16 rfl, bitsN_eq_hdrBits hw 5 55 53 3 rfl]
  exact if_congr Iff.rfl rfl rfl

theorem thdrOf_eq_none_iff (hw : List Word) : thdrOf hw = none ↔ hdrBad hw := by
  classical
  rw [thdrOf_eq]
  split
  · next h => exact ⟨fun _ => h, fun _ => rfl⟩
  · next h => exact ⟨fun h' => (nomatch h'), fun h' => absurd h' h⟩
theorem eq_hdrOf_of_thdrOf {hw : List Word} {h : THdr} (hh : thdrOf hw = some h) : h = hdrOf hw ∧ ¬ hdrBad hw := by
  classical
  rw [thdrOf_eq] at hh
  split at hh
  · cases hh
  · next hb => exact ⟨(Option.some.inj hh).symm, hb⟩

theorem hdrOf_ext (hw : List Word) {d : Nat} (hd : d < 8) : (hdrOf hw).ext.getD d 1 = hdrExt hw d := getD_map_range _ hd _
theorem hdrOf_str (hw : List Word) {d : Nat} (hd : d < 8) : (hdrOf hw).str.getD d 0 = hdrStr hw d := getD_map_range _ hd _
theorem hdrOf_count (hw : List Word) : (hdrOf hw).count = (List.range 8).foldl (fun n d => n * hdrExt hw d) 1 := by
  rw [THdr.count, hdrOf, List.foldl_map]

/-- The offset of the element whose indices are id: the sum of index times stride. -/
theorem foldl_offset (e st id : Nat → Nat) (l : List Nat) (a : Nat) (h : ∀ d, d ∈ l → id d < e d) :
    ((l.map fun d => (e d, st d)).foldl (fun (p : Nat × Nat) es => (p.1 + p.2 % es.1 * es.2, p.2 / es.1)) (a, l.foldr (fun d m => id d + e d * m) 0)).1 =
      l.foldl (fun n d => n + id d * st d) a := by
  induction l generalizing a with
  | nil => rfl
  | cons d l ih =>
    have hd := h d (List.mem_cons_self ..)
    have hpos : 0 < e d := by omega
    rw [List.map_cons, List.foldl_cons, List.foldr_cons, List.foldl_cons]
    dsimp only
    rw [Nat.add_mul_mod_self_left, Nat.mod_eq_of_lt hd, Nat.add_mul_div_left _ _ hpos, Nat.div_eq_of_lt hd, Nat.zero_add]
    exact ih _ fun d hd => h d (List.mem_cons_of_mem _ hd)
theorem hdrOf_off (hw : List Word) {id : Nat → Nat} (h : ∀ d, d < 8 → id d < hdrExt hw d) :
    (hdrOf hw).off ((List.range 8).foldr (fun d m => id d + hdrExt hw d * m) 0) = (List.range 8).foldl (fun n d => n + id d * hdrStr hw d) 0 := by
  rw [THdr.off, hdrOf, List.zip_map']
  exact foldl_offset _ _ id _ 0 fun d hd => h d (List.mem_range.1 hd)

/-- The extents along and across the reduction dimension. -/
theorem hdrOf_k (hw : List Word) : (hdrOf hw).k = hdrExt hw (if (hdrOf hw).kd then 1 else 0) := by
  rw [THdr.k]
  split <;> exact hdrOf_ext hw (by decide)
theorem hdrOf_o (hw : List Word) : (hdrOf hw).o = hdrExt hw (if (hdrOf hw).kd then 0 else 1) := by
  rw [THdr.o]
  split <;> exact hdrOf_ext hw (by decide)

/-! ## The checks of a cpx -/

/-- The pairs of formats that R219 lists. -/
def fmtPair (a b : Nat) : Prop :=
  a = b ∨ ((6 ≤ a ∧ a ≤ 11) ∧ ((6 ≤ b ∧ b ≤ 11) ∨ 16 ≤ b)) ∨ (16 ≤ a ∧ ((6 ≤ b ∧ b ≤ 11) ∨ b ≤ 5)) ∨ (a ≤ 5 ∧ 16 ≤ b)
/-- A tile of an FMT and a shape record has the elements of a header's tensor. -/
def THdr.fits (h : THdr) (f : Nat) (ws : List Word) : Prop := if f = 13 then h.count = 256
  else ∃ sh, shapeOf ws = some sh ∧ if isPlane f = true then sh.rank = 2 ∧ sh.split = false ∧ sh.ext.1 = h.ext.getD 0 1
      ∧ sh.ext.2.1 = h.ext.getD 1 1 ∧ (∀ e, e ∈ h.ext.drop 2 → e = 1) ∧ h.k % 32 = 0
    else sh.count = h.count ∧ (isPlane h.fmt = true → h.k % 32 = 0)

/-- The pair of formats and the elements as cpxCheck looks at them. -/
def fmtPairB (src dst : Nat) : Bool :=
  let pl (f : Nat) : Bool := decide (16 ≤ f)
  let fl (f : Nat) : Bool := decide (6 ≤ f) && decide (f ≤ 11)
  src == dst || (fl src && fl dst) || (fl src && pl dst) || (pl src && fl dst) || (isPInt src && pl dst) || (pl src && isPInt dst)
/-- The elements do not fit, as cpxCheck looks at them. -/
def THdr.unfit (h : THdr) (tf : Nat) (ws : List Word) : Bool :=
  if isPlane tf then
    match shapeOf ws with
    | some sh => !(sh.rank == 2 && !sh.split && sh.ext.1 == h.ext.getD 0 1 && sh.ext.2.1 == h.ext.getD 1 1
        && (h.ext.drop 2).all (· == 1) && h.k % 32 == 0)
    | none => true
  else if tf = 13 then h.count != 256
  else match shapeOf ws with
    | some sh => sh.count != h.count || (isPlane h.fmt && h.k % 32 != 0)
    | none => true
theorem cpxCheck_def (h : THdr) (tf : Nat) (ws : List Word) (inn : Bool) : cpxCheck h tf ws inn =
    if h.fmt = 15 then some 0x69 else if h.unfit tf ws then some 0x6A
    else if !(if inn then fmtPairB h.fmt tf else fmtPairB tf h.fmt) then some 0x69 else none := by cases inn <;> rfl

theorem fmtPairB_iff (a b : Nat) : fmtPairB a b = true ↔ fmtPair a b := by
  simp only [fmtPairB, fmtPair, isPInt, Bool.or_eq_true, Bool.and_eq_true, beq_iff_eq, decide_eq_true_eq]
  tauto
theorem THdr.unfit_iff (h : THdr) (f : Nat) (ws : List Word) : h.unfit f ws = true ↔ ¬ h.fits f ws := by
  have h13 : isPlane 13 = false := rfl
  rw [← Bool.not_eq_false, not_iff_not]
  unfold THdr.unfit THdr.fits
  by_cases hf : f = 13
  · subst hf; simp [h13]
  · rw [if_neg hf, if_neg hf]
    cases shapeOf ws with
    | none => simp
    | some sh =>
      by_cases hp : isPlane f = true
      · simp [hp, and_assoc]
      · simp [hp]

theorem cpxCheck_reserved {h : THdr} (h15 : h.fmt = 15) (f : Nat) (ws : List Word) (inn : Bool) : cpxCheck h f ws inn = some 0x69 := by
  rw [cpxCheck_def, if_pos h15]
theorem cpxCheck_unfit {h : THdr} {f : Nat} {ws : List Word} (h15 : h.fmt ≠ 15) (hf : ¬ h.fits f ws) (inn : Bool) : cpxCheck h f ws inn = some 0x6A := by
  rw [cpxCheck_def, if_neg h15, if_pos ((h.unfit_iff f ws).2 hf)]
theorem cpxCheck_fits {h : THdr} {f : Nat} {ws : List Word} (h15 : h.fmt ≠ 15) (hf : h.fits f ws) (inn : Bool) :
    cpxCheck h f ws inn = if !(if inn then fmtPairB h.fmt f else fmtPairB f h.fmt) then some 0x69 else none := by
  rw [cpxCheck_def, if_neg h15, if_neg fun h' => (h.unfit_iff f ws).1 h' hf]
theorem fmtPairB_ite_iff (h : THdr) (f : Nat) (inn : Bool) : (if inn then fmtPairB h.fmt f else fmtPairB f h.fmt) = true ↔
    if inn then fmtPair h.fmt f else fmtPair f h.fmt := by
  cases inn
  · exact fmtPairB_iff _ _
  · exact fmtPairB_iff _ _

end Sys2Proof.Machine
end

section
/-! SUPPORT. Conversion of a cpx (R219): elements by rounding, blocks of 32 by quantising or wrapping, and back. -/

namespace Sys2Proof.Machine

/-! ## Results with flags -/

/-- Results gathered in order, and their flags. -/
def gathered (l : List (Nat × Nat)) : List Nat × Nat := l.foldr (fun r p => (r.1 :: p.1, p.2 ||| r.2)) ([], 0)

theorem gathered_fst (l : List (Nat × Nat)) : (gathered l).1 = l.map Prod.fst := by
  induction l with
  | nil => rfl
  | cons r l ih => rw [List.map_cons, ← ih]; rfl
theorem testBit_gathered (l : List (Nat × Nat)) (b : Nat) : (gathered l).2.testBit b = l.any fun r => r.2.testBit b := by
  induction l with
  | nil => simp [gathered]
  | cons r l ih =>
    show ((gathered l).2 ||| r.2).testBit b = _
    rw [Nat.testBit_or, ih, List.any_cons, Bool.or_comm]

/-- Flags of n results: a bit stands where one of them raises it. -/
def RaisedBy (fl n : Nat) (g : Nat → Nat) : Prop := ∀ b, fl.testBit b = true ↔ ∃ m, m < n ∧ (g m).testBit b = true

theorem raisedBy_gathered (f : Nat → Nat × Nat) (n : Nat) : RaisedBy (gathered ((List.range n).map f)).2 n fun m => (f m).2 := by
  intro b
  simp [testBit_gathered, List.any_eq_true]

/-! ## Numbers of several planes -/

/-- A number of n digits of k bits. -/
def digitSum (k : Nat) (d : Nat → Nat) (n : Nat) : Nat := (List.range n).foldl (fun x j => x + 2 ^ (k * j) * d j) 0

theorem digitSum_succ (k : Nat) (d : Nat → Nat) (n : Nat) : digitSum k d (n + 1) = digitSum k d n + 2 ^ (k * n) * d n := by
  rw [digitSum, List.range_succ, List.foldl_append]; rfl
theorem digitSum_lt {k : Nat} {d : Nat → Nat} (hd : ∀ j, d j < 2 ^ k) (n : Nat) : digitSum k d n < 2 ^ (k * n) := by
  induction n with
  | zero => exact Nat.one_pos
  | succ n ih =>
    have hdigit : 2 ^ (k * n) * d n ≤ 2 ^ (k * n) * (2 ^ k - 1) := Nat.mul_le_mul_left _ (Nat.le_sub_one_of_lt (hd n))
    have hpos : 2 ^ (k * n) * 1 ≤ 2 ^ (k * n) * 2 ^ k := Nat.mul_le_mul_left _ Nat.one_le_two_pow
    rw [digitSum_succ, Nat.mul_succ, Nat.pow_add]
    rw [Nat.mul_sub] at hdigit
    omega
theorem testBit_digitSum {k : Nat} {d : Nat → Nat} (hd : ∀ j, d j < 2 ^ k) {n j r : Nat} (hj : j < n) (hr : r < k) :
    (digitSum k d n).testBit (k * j + r) = (d j).testBit r := by
  induction n with
  | zero => cases hj
  | succ n ih =>
    rw [digitSum_succ, Nat.add_comm, Nat.testBit_two_pow_mul_add _ (digitSum_lt hd n)]
    rcases Nat.lt_succ_iff_lt_or_eq.1 hj with hlt | rfl
    · have hle : k * (j + 1) ≤ k * n := Nat.mul_le_mul_left k hlt
      rw [Nat.mul_succ] at hle
      rw [if_pos (by omega), ih hlt]
    · rw [if_neg (by omega), Nat.add_sub_cancel_left]

/-! ## Blocks of 32 (R76) -/

/-- The bits of a block of plane words are those of its elements. -/
def PackedAs (p b : Nat) (q : Nat → Int) : Prop := ∀ j r, j < p → r < 32 → b.testBit (32 * j + r) = (BitVec.ofInt p (q r)).getLsbD j

/-- One plane word: bit j of each element. -/
theorem packBlock_eq (p : Nat) (q : List Int) : packBlock p q = digitSum 32 (fun j => bitSum (fun r => wrapN (q.getD r 0) p / 2 ^ j % 2) q.length) p := by
  have hinner (j : Nat) : q.zipIdx.foldl (fun y e => y + wrapN e.1 p / 2 ^ j % 2 * 2 ^ e.2) 0 =
      bitSum (fun r => wrapN (q.getD r 0) p / 2 ^ j % 2) q.length := by
    rw [zipIdx_eq_map_range q 0, List.foldl_map]; rfl
  simp only [packBlock, hinner]
  rfl

theorem packedAs_packBlock {p : Nat} {q : List Int} (hq : q.length = 32) : PackedAs p (packBlock p q) fun r => q.getD r 0 := by
  intro j r hj hr
  have hbit (j r : Nat) : wrapN (q.getD r 0) p / 2 ^ j % 2 < 2 := Nat.mod_lt _ (by decide)
  rw [packBlock_eq, hq, testBit_digitSum (fun j => bitSum_lt (hbit j) 32) hj hr, testBit_bitSum (hbit j) hr, bit_eq_testBit, wrapN_eq_toNat]
  rfl

/-- The bits of an element of a block as a number. -/
def blockBits (p b r : Nat) : Nat := bitSum (fun j => b / 2 ^ (32 * j + r) % 2) p
theorem blockElem_eq (pl : Plane) (b r : Nat) : blockElem pl b r = intVal pl.signed (pl.p1.toNat + 1) (blockBits (pl.p1.toNat + 1) b r) := rfl
theorem testBit_blockBits {p j : Nat} (hj : j < p) (b r : Nat) : (blockBits p b r).testBit j = b.testBit (32 * j + r) := by
  rw [blockBits, testBit_bitSum (fun _ => Nat.mod_lt _ (by decide)) hj, bit_eq_testBit]
theorem blockBits_lt (p b r : Nat) : blockBits p b r < 2 ^ p := bitSum_lt (fun _ => Nat.mod_lt _ (by decide)) p

theorem getLsbD_blockElem {pl : Plane} {j : Nat} (hj : j < pl.p1.toNat + 1) (b r : Nat) :
    (BitVec.ofInt (pl.p1.toNat + 1) (blockElem pl b r)).getLsbD j = b.testBit (32 * j + r) := by
  rw [blockElem_eq, ofInt_intVal _ (by omega), BitVec.getLsbD_ofNat, testBit_blockBits hj]
  simp [hj]
theorem blockElem_mem (pl : Plane) (b r : Nat) : planeLeast pl ≤ blockElem pl b r ∧ blockElem pl b r ≤ planeGreatest pl := by
  rw [planeLeast_eq, planeGreatest_eq, blockElem_eq]
  exact intVal_mem _ (Nat.succ_pos _) _

/-! ## Float formats to float formats (R83) -/

theorem fmtOfCode_lt {n : Nat} {f : FFmt} (h : fmtOfCode n = some f) : 6 ≤ n ∧ n < 16 := by
  unfold fmtOfCode at h
  split at h <;> first | omega | cases h

section
variable {src dst e0 o nb : Nat} {kd : Bool}

theorem convert_floats {f g : FFmt} (hne : src ≠ dst) (hf : fmtOfCode src = some f) (hg : fmtOfCode dst = some g) (xs : List Nat) (ew : Nat) :
    convert src dst e0 kd o nb (.elems xs ew) =
      (.elems (xs.map fun x => (g.ofValue false false (f.value x)).1) ew, (gathered (xs.map fun x => g.ofValue false false (f.value x))).2) := by
  have hlt := (fmtOfCode_lt hg).2
  rw [convert, if_neg hne]
  simp only [if_neg (Nat.not_le.2 hlt), hf, hg]
  refine congrArg (fun y => (Content.elems y ew, _)) ?_
  exact (gathered_fst _).trans List.map_map

theorem raisedBy_gathered_map (F : Nat → Nat × Nat) (xs : List Nat) : RaisedBy (gathered (xs.map F)).2 xs.length fun m => (F (xs.getD m 0)).2 := by
  have hrange : xs.map F = (List.range xs.length).map fun m => F (xs.getD m 0) := by
    apply List.ext_getElem
    · simp
    · intro i h1 h2
      rw [List.length_map] at h1
      simp [h1]
  rw [hrange]
  exact raisedBy_gathered _ _

/-! ## Elements to blocks of planes (R89, R219) -/

/-- Block b of the ascending order. -/
theorem blocksOf_getD {b : Nat} (hb : b < o * nb) : (blocksOf o nb).getD b (0, 0) = (b / nb, b % nb) := by
  have hnb : 0 < nb := Nat.pos_of_mul_pos_left (Nat.zero_lt_of_lt hb)
  have hx : b / nb < o := Nat.div_lt_of_lt_mul (by rwa [Nat.mul_comm])
  have hkb := Nat.mod_lt b hnb
  have h := getD_flatMap_range (f := fun x => (List.range nb).map fun kb => (x, kb)) (m := nb) (fun _ => by simp) hx hkb (0, 0)
  rw [Nat.div_add_mod'] at h
  exact h.trans (getD_map_range _ hkb _)
theorem length_blocksOf : (blocksOf o nb).length = o * nb := length_flatMap_range (fun _ => by simp) o
theorem map_blocksOf {α : Type} (F : Nat × Nat → α) : (blocksOf o nb).map F = (List.range (o * nb)).map fun b => F (b / nb, b % nb) := by
  apply List.ext_getElem
  · simp [length_blocksOf]
  · intro i h1 h2
    have hi : i < o * nb := by simpa using h2
    have hlt : i < (blocksOf o nb).length := by rwa [length_blocksOf]
    have hget := blocksOf_getD hi
    rw [List.getD_eq_getElem _ _ hlt] at hget
    simp [hget]

/-- The element number of element r of block b (R219). -/
def blockOrder (e0 nb : Nat) (kd : Bool) (b r : Nat) : Nat :=
  if kd then (32 * (b % nb) + r) * e0 + b / nb else b / nb * e0 + (32 * (b % nb) + r)
/-- A block of 32 elements of x, converted. -/
def blockOf (src dst e0 : Nat) (kd : Bool) (xs : List Nat) (b : Nat × Nat) : (Nat × Nat) × Nat :=
  let pl := planeOfFmt dst
  let el := (List.range 32).map fun r => let (i1, i0) := idx kd b.1 (32 * b.2 + r); xs.getD (i1 * e0 + i0) 0
  match fmtOfCode src with
  | some f => let (code, q, fl) := quantBlock pl (el.map f.value); ((packBlock (pl.p1.toNat + 1) q, code), fl)
  | none => ((packBlock (pl.p1.toNat + 1) (el.map fun x => intVal (fmtSigned src) (fmtBits src) x), 127), 0)

theorem idx_place (e0 nb : Nat) (kd : Bool) (b r : Nat) :
    (idx kd (b / nb) (32 * (b % nb) + r)).1 * e0 + (idx kd (b / nb) (32 * (b % nb) + r)).2
      = blockOrder e0 nb kd b r := by
  cases kd <;> rfl
theorem blockOf_float {f : FFmt} (h : fmtOfCode src = some f) (xs : List Nat) (b : Nat) :
    blockOf src dst e0 kd xs (b / nb, b % nb) =
      let r := quantBlock (planeOfFmt dst) (block32Of fun k => f.value (xs.getD (blockOrder e0 nb kd b k) 0))
      ((packBlock ((planeOfFmt dst).p1.toNat + 1) r.2.1, r.1), r.2.2) := by
  simp only [blockOf, h, idx_place, List.map_map]
  rfl
theorem blockOf_int (h : fmtOfCode src = none) (xs : List Nat) (b : Nat) :
    blockOf src dst e0 kd xs (b / nb, b % nb) = ((packBlock ((planeOfFmt dst).p1.toNat + 1)
      ((List.range 32).map fun k => intVal (fmtSigned src) (fmtBits src) (xs.getD (blockOrder e0 nb kd b k) 0)), 127), 0) := by
  simp only [blockOf, h, idx_place, List.map_map]
  rfl

/-- The blocks of elements in order, with their flags. -/
def blockRow (src dst e0 : Nat) (kd : Bool) (nb n : Nat) (xs : List Nat) : List ((Nat × Nat) × Nat) :=
  (List.range n).map fun b => blockOf src dst e0 kd xs (b / nb, b % nb)
theorem convert_elems (hne : src ≠ dst) (hdst : 16 ≤ dst) (xs : List Nat) (ew : Nat) : convert src dst e0 kd o nb (.elems xs ew) =
    (.blocks ((blockRow src dst e0 kd nb (o * nb) xs).map Prod.fst), (blockRow src dst e0 kd nb (o * nb) xs).foldl (fun f r => f ||| r.2) 0) := by
  rw [convert, if_neg hne, blockRow, ← map_blocksOf]
  simp only [if_pos hdst]
  rfl

theorem blockRow_getD {n b : Nat} (hb : b < n) (xs : List Nat) :
    ((blockRow src dst e0 kd nb n xs).map Prod.fst).getD b (0, 0) = (blockOf src dst e0 kd xs (b / nb, b % nb)).1 := by
  rw [blockRow, List.map_map, getD_map_range _ hb]; rfl
theorem raisedBy_blockRow (n : Nat) (xs : List Nat) :
    RaisedBy ((blockRow src dst e0 kd nb n xs).foldl (fun f r => f ||| r.2) 0) n fun b => (blockOf src dst e0 kd xs (b / nb, b % nb)).2 := by
  intro b
  rw [testBit_foldl_or]
  simp [blockRow, List.any_eq_true]

/-- Each block of float elements is quantised (R89). -/
theorem blockOf_quantised {f : FFmt} (h : fmtOfCode src = some f) (xs : List Nat) (b : Nat) : ∃ q,
    PackedAs ((planeOfFmt dst).p1.toNat + 1) (blockOf src dst e0 kd xs (b / nb, b % nb)).1.1 q
    ∧ Quantised (planeOfFmt dst) (fun k => f.value (xs.getD (blockOrder e0 nb kd b k) 0)) (blockOf src dst e0 kd xs (b / nb, b % nb)).1.2 q
      (blockOf src dst e0 kd xs (b / nb, b % nb)).2 := by
  rw [blockOf_float h]
  exact ⟨_, packedAs_packBlock ((length_quantBlock _ _).trans (by simp [block32Of])), quantised_quantBlock _ _⟩

theorem packedAs_ints {p : Nat} (v : Nat → Int) : PackedAs p (packBlock p ((List.range 32).map v)) v := fun j r hj hr => by
  rw [packedAs_packBlock (by simp) j r hj hr]
  exact congrArg (fun x => (BitVec.ofInt p x).getLsbD j) (getD_map_range v hr 0)

theorem intVal_packed (h : src ≤ 5) (x : Nat) : intVal (fmtSigned src) (fmtBits src) x =
    if src ≤ 2 then (BitVec.ofNat (fmtBits src) x).toInt else (x % 2 ^ fmtBits src : Nat) := by
  have hpos : 0 < fmtBits src := by interval_cases src <;> decide
  by_cases h2 : src ≤ 2
  · rw [if_pos h2, show fmtSigned src = true from decide_eq_true h2, intVal_eq_toInt x hpos]
  · rw [if_neg h2, show fmtSigned src = false from decide_eq_false h2]; rfl

/-! ## Blocks of planes to elements (R90, R219) -/

/-- The block and the place in it of element m. -/
def blockPlace (e0 nb : Nat) (kd : Bool) (m : Nat) : Nat × Nat :=
  if kd then (m % e0 * nb + m / e0 / 32, m / e0 % 32) else (m / e0 * nb + m % e0 / 32, m % e0 % 32)
/-- Element m of blocks. -/
def elemOf (src e0 nb : Nat) (kd : Bool) (bs : List (Nat × Nat)) (m : Nat) : Int :=
  blockElem (planeOfFmt src) (bs.getD (blockPlace e0 nb kd m).1 (0, 127)).1 (blockPlace e0 nb kd m).2
/-- An element of blocks in a format. -/
def elemIn (src dst e0 nb : Nat) (kd : Bool) (bs : List (Nat × Nat)) (m : Nat) : Nat × Nat :=
  match fmtOfCode dst with
  | some f => dequantElem f (bs.getD (blockPlace e0 nb kd m).1 (0, 127)).2 (elemOf src e0 nb kd bs m)
  | none => intOut false (fmtSigned dst) (fmtBits dst) (elemOf src e0 nb kd bs m)

theorem convert_blocks (hne : src ≠ dst) (bs : List (Nat × Nat)) : convert src dst e0 kd o nb (.blocks bs) =
    (.elems (gathered ((List.range (o * nb * 32)).map (elemIn src dst e0 nb kd bs))).1 0,
      (gathered ((List.range (o * nb * 32)).map (elemIn src dst e0 nb kd bs))).2) := by
  rw [convert, if_neg hne]
  cases kd <;> rfl

end

/-! ## The conversions of a cpx -/

section
variable {src dst : Nat} (e0 : Nat) (kd : Bool) (o nb : Nat)

theorem convert_float_spec {f g : FFmt} (hne : src ≠ dst) (hf : fmtOfCode src = some f) (hg : fmtOfCode dst = some g) (xs : List Nat) (ew : Nat) : ∃ fl,
    convert src dst e0 kd o nb (.elems xs ew) = (.elems (xs.map fun x => (g.ofValue false false (f.value x)).1) ew, fl)
    ∧ RaisedBy fl xs.length fun m => (g.ofValue false false (f.value (xs.getD m 0))).2 :=
  ⟨_, convert_floats hne hf hg xs ew, raisedBy_gathered_map (fun x => g.ofValue false false (f.value x)) xs⟩

theorem convert_elems_spec (hne : src ≠ dst) (xs : List Nat) (ew : Nat) (hdst : 16 ≤ dst) : ∃ bs fl,
    convert src dst e0 kd o nb (.elems xs ew) = (.blocks bs, fl) ∧ bs.length = o * nb
    ∧ (∀ f : FFmt, fmtOfCode src = some f → ∃ e : Nat → Nat, RaisedBy fl (o * nb) e ∧ ∀ b, b < o * nb → ∃ q,
        PackedAs ((planeOfFmt dst).p1.toNat + 1) (bs.getD b (0, 0)).1 q
        ∧ Quantised (planeOfFmt dst) (fun r => f.value (xs.getD (blockOrder e0 nb kd b r) 0)) (bs.getD b (0, 0)).2 q (e b))
    ∧ (src ≤ 5 → fl = 0 ∧ ∀ b, b < o * nb → (bs.getD b (0, 0)).2 = 127
        ∧ PackedAs ((planeOfFmt dst).p1.toNat + 1) (bs.getD b (0, 0)).1 fun r =>
            if src ≤ 2 then (BitVec.ofNat (fmtBits src) (xs.getD (blockOrder e0 nb kd b r) 0)).toInt
            else (xs.getD (blockOrder e0 nb kd b r) 0 % 2 ^ fmtBits src : Nat)) := by
  refine ⟨_, _, convert_elems hne hdst xs ew, by simp [blockRow], fun f hf => ⟨_, raisedBy_blockRow _ xs, fun b hb => ?_⟩, fun h5 => ?_⟩
  · rw [blockRow_getD hb]
    exact blockOf_quantised hf xs b
  · have hnone : fmtOfCode src = none := by interval_cases src <;> rfl
    refine ⟨Nat.eq_of_testBit_eq fun i => ?_, fun b hb => ?_⟩
    · rw [Nat.zero_testBit, ← Bool.not_eq_true, raisedBy_blockRow]
      simp [blockOf_int hnone]
    · rw [blockRow_getD hb, blockOf_int hnone]
      simp only [intVal_packed h5]
      exact ⟨trivial, packedAs_ints _⟩

theorem convert_blocks_spec (hne : src ≠ dst) (bs : List (Nat × Nat)) : ∃ (v : Nat → Int) (ys : List Nat) (fl : Nat),
    convert src dst e0 kd o nb (.blocks bs) = (.elems ys 0, fl) ∧ ys.length = o * nb * 32
    ∧ (∀ m, m < o * nb * 32 → planeLeast (planeOfFmt src) ≤ v m ∧ v m ≤ planeGreatest (planeOfFmt src)
        ∧ ∀ j, j < (planeOfFmt src).p1.toNat + 1 → (BitVec.ofInt ((planeOfFmt src).p1.toNat + 1) (v m)).getLsbD j
          = (bs.getD (blockPlace e0 nb kd m).1 (0, 127)).1.testBit (32 * j + (blockPlace e0 nb kd m).2))
    ∧ (∀ g : FFmt, fmtOfCode dst = some g →
        (∀ m, m < o * nb * 32 → ys.getD m 0 = (dequantElem g (bs.getD (blockPlace e0 nb kd m).1 (0, 127)).2 (v m)).1)
        ∧ RaisedBy fl (o * nb * 32) fun m => (dequantElem g (bs.getD (blockPlace e0 nb kd m).1 (0, 127)).2 (v m)).2)
    ∧ (dst ≤ 5 → fl = 0 ∧ ∀ m, m < o * nb * 32 → ys.getD m 0 = (BitVec.ofInt (fmtBits dst) (v m)).toNat) := by
  have hget {m : Nat} (hm : m < o * nb * 32) : (gathered ((List.range (o * nb * 32)).map (elemIn src dst e0 nb kd bs))).1.getD m 0 =
      (elemIn src dst e0 nb kd bs m).1 := by rw [gathered_fst, List.map_map, getD_map_range _ hm]; rfl
  refine ⟨elemOf src e0 nb kd bs, _, _, convert_blocks hne bs, by simp [gathered_fst], fun m _ => ?_, fun g hg => ?_, fun h5 => ?_⟩
  · obtain ⟨hlo, hhi⟩ := blockElem_mem (planeOfFmt src) (bs.getD (blockPlace e0 nb kd m).1 (0, 127)).1 (blockPlace e0 nb kd m).2
    exact ⟨hlo, hhi, fun j hj => getLsbD_blockElem hj _ _⟩
  · have helem (m : Nat) : elemIn src dst e0 nb kd bs m = dequantElem g (bs.getD (blockPlace e0 nb kd m).1 (0, 127)).2 (elemOf src e0 nb kd bs m) := by
      simp only [elemIn, hg]
    refine ⟨fun m hm => by rw [hget hm, helem], ?_⟩
    simp only [← helem]
    exact raisedBy_gathered _ _
  · have hnone : fmtOfCode dst = none := by interval_cases dst <;> rfl
    have helem (m : Nat) : elemIn src dst e0 nb kd bs m = (wrapN (elemOf src e0 nb kd bs m) (fmtBits dst), 0) := by
      simp only [elemIn, hnone]; rfl
    refine ⟨Nat.eq_of_testBit_eq fun i => ?_, fun m hm => by rw [hget hm, helem, wrapN_eq_toNat]⟩
    rw [Nat.zero_testBit, ← Bool.not_eq_true, raisedBy_gathered]
    simp [helem]

end
end Sys2Proof.Machine
end

section
/-! SUPPORT. Runs of memory that follow one another, the spots of a copy command's memory end, and what runs and half bytes written in turn leave
(R214, R218). -/

namespace Sys2Proof.Machine

/-! ## Bytes and numbers -/

theorem leBytes_leNat (bs : List Byte) : leBytes bs.length (leNat bs) = bs := by
  induction bs with
  | nil => rfl
  | cons b bs ih =>
    have hb := b.isLt
    have hlow : BitVec.ofNat 8 (b.toNat + 256 * leNat bs) = b := by
      apply BitVec.eq_of_toNat_eq
      rw [BitVec.toNat_ofNat]
      omega
    have hhigh : (b.toNat + 256 * leNat bs) / 256 = leNat bs := by omega
    rw [List.length_cons, leNat, leBytes, hlow, hhigh, ih]
theorem leBytes_leNat_of_length {bs : List Byte} {n : Nat} (h : bs.length = n) : leBytes n (leNat bs) = bs := h ▸ leBytes_leNat bs

theorem Memory.readBytes_add (m : Memory) (k a b : Nat) : m.readBytes k (a + b) = m.readBytes k a ++ m.readBytes (k + a) b := by
  rw [← List.take_append_drop a (m.readBytes k (a + b)), Memory.take_readBytes m (Nat.le_add_right a b), Memory.drop_readBytes, Nat.add_sub_cancel_left]
theorem Memory.writeBytes_append (m : Memory) (k : Nat) (a b : List Byte) : m.writeBytes k (a ++ b) = (m.writeBytes k a).writeBytes (k + a.length) b := by
  induction a generalizing m k with
  | nil => rfl
  | cons x a ih => rw [List.cons_append, Memory.writeBytes, ih, List.length_cons, Nat.add_assoc, Nat.add_comm 1]; rfl
theorem Memory.getElem_readBytes (m : Memory) (k n j : Nat) (h : j < (m.readBytes k n).length) : (m.readBytes k n)[j] = m.read (k + j) := by
  induction n generalizing k j with
  | zero => simp [Memory.readBytes] at h
  | succ n ih =>
    cases j with
    | zero => rfl
    | succ j =>
      have := ih (k + 1) j (by simpa [Memory.readBytes] using h)
      simpa [Memory.readBytes, Nat.add_assoc, Nat.add_comm 1 j] using this

/-! ## Runs that follow one another -/

/-- Runs of places, each from where the one before it ends. -/
def Chain : Nat → List (Nat × Nat) → Nat → Prop
  | k, [], e => k = e
  | k, p :: r, e => p.1 = k ∧ Chain (k + p.2) r e

theorem Chain.append {l l' : List (Nat × Nat)} {k e e' : Nat} (h : Chain k l e) (h' : Chain e l' e') : Chain k (l ++ l') e' := by
  induction l generalizing k with
  | nil => cases h; exact h'
  | cons p l ih => exact ⟨h.1, ih h.2⟩
theorem Chain.shift {l : List (Nat × Nat)} {k e : Nat} (b : Nat) (h : Chain k l e) : Chain (b + k) (l.map fun p => (b + p.1, p.2)) (b + e) := by
  induction l generalizing k with
  | nil => cases h; exact rfl
  | cons p l ih => exact ⟨congrArg (b + ·) h.1, by rw [Nat.add_assoc]; exact ih h.2⟩
theorem Chain.total {l : List (Nat × Nat)} {k e : Nat} (h : Chain k l e) : k + (l.map Prod.snd).sum = e := by
  induction l generalizing k with
  | nil => exact h
  | cons p l ih => rw [List.map_cons, List.sum_cons, ← Nat.add_assoc]; exact ih h.2

/-- The bytes of runs in order are those of the whole. -/
theorem Chain.readBytes {l : List (Nat × Nat)} {k e : Nat} (h : Chain k l e) (m : Memory) :
    (l.flatMap fun p => m.readBytes p.1 p.2) = m.readBytes k (e - k) := by
  induction l generalizing k with
  | nil => cases h; rw [Nat.sub_self]; rfl
  | cons p l ih =>
    obtain ⟨hk, hr⟩ := h
    have hsum := hr.total
    rw [List.flatMap_cons, ih hr, hk, show e - k = p.2 + (e - (k + p.2)) by omega, Memory.readBytes_add]

/-! ## Runs cut from bytes -/

theorem cutBytes_flatten (L : List (List Byte)) : cutBytes (L.map List.length) L.flatten = L.map leNat := by
  induction L with
  | nil => rfl
  | cons b L ih => rw [List.map_cons, List.flatten_cons, cutBytes, List.take_left', List.drop_left', ih, List.map_cons] <;> rfl
theorem cutBytes_append (ns ns' : List Nat) {bs : List Byte} (h : bs.length = ns.sum) (bs' : List Byte) :
    cutBytes (ns ++ ns') (bs ++ bs') = cutBytes ns bs ++ cutBytes ns' bs' := by
  induction ns generalizing bs with
  | nil =>
    have hnil : bs = [] := List.eq_nil_of_length_eq_zero h
    rw [hnil]; rfl
  | cons n ns ih =>
    rw [List.sum_cons] at h
    rw [List.cons_append, cutBytes, cutBytes, List.take_append_of_le_length (by omega), List.drop_append_of_le_length (by omega),
      ih (by rw [List.length_drop]; omega), List.cons_append]
theorem length_cutBytes (ns : List Nat) (bs : List Byte) : (cutBytes ns bs).length = ns.length := by
  induction ns generalizing bs with
  | nil => rfl
  | cons n ns ih => rw [cutBytes, List.length_cons, ih, List.length_cons]
theorem spotVals_append (l l' : List Spot) {bs : List Byte} (h : bs.length = (l.map Prod.snd).sum) (bs' : List Byte) :
    spotVals (l ++ l') (bs ++ bs') = spotVals l bs ++ spotVals l' bs' := by
  rw [spotVals, List.map_append, cutBytes_append _ _ h, List.zip_append (by rw [length_cutBytes, List.length_map])]; rfl

/-- The bytes of values that spots read. -/
theorem spotBytes_map (m : Memory) (K : Word → Nat) (l : List Spot) : spotBytes l (l.map fun p => leNat (m.readBytes (K p.1) p.2)) =
    (l.map fun p => (K p.1, p.2)).flatMap fun p => m.readBytes p.1 p.2 := by
  induction l with
  | nil => rfl
  | cons p l ih =>
    rw [List.map_cons, spotBytes, List.zip_cons_cons, List.flatMap_cons]
    dsimp only
    rw [leBytes_leNat_of_length (length_readBytes ..)]
    exact congrArg (m.readBytes (K p.1) p.2 ++ ·) ih

/-! ## Writes in turn -/

/-- Runs of bytes written in turn, each at its key. -/
def Memory.putAll (m : Memory) (l : List (Nat × List Byte)) : Memory := l.foldl (fun m p => m.writeBytes p.1 p.2) m

theorem Memory.putAll_cons (m : Memory) (p : Nat × List Byte) (l : List (Nat × List Byte)) :
    m.putAll (p :: l) = Memory.putAll (m.writeBytes p.1 p.2) l := rfl
theorem Memory.putAll_singleton (m : Memory) (p : Nat × List Byte) : m.putAll [p] = m.writeBytes p.1 p.2 := rfl
theorem Memory.putAll_append (m : Memory) (l l' : List (Nat × List Byte)) : m.putAll (l ++ l') = Memory.putAll (m.putAll l) l' := List.foldl_append ..
theorem Memory.putAll_wf {m : Memory} (hm : m.wf = true) (l : List (Nat × List Byte)) : (m.putAll l).wf = true := by
  induction l generalizing m with
  | nil => exact hm
  | cons p l ih => exact ih (Memory.writeBytes_wf _ _ hm)
theorem Memory.read_putAll_of_outside (m : Memory) {l : List (Nat × List Byte)} {b : Nat}
    (h : ∀ p, p ∈ l → b < p.1 ∨ p.1 + p.2.length ≤ b) : (m.putAll l).read b = m.read b := by
  induction l generalizing m with
  | nil => rfl
  | cons p l ih =>
    rw [Memory.putAll_cons, ih _ fun q hq => h q (List.mem_cons_of_mem _ hq)]
    exact Memory.read_writeBytes_of_outside _ _ _ _ (h p (List.mem_cons_self ..))

/-- A run reads back where no later run meets it. -/
theorem Memory.read_putAll_of_last {m : Memory} (hm : m.wf = true) {l r : List (Nat × List Byte)} {p : Nat × List Byte}
    (h : ∀ q, q ∈ r → q.1 + q.2.length ≤ p.1 ∨ p.1 + p.2.length ≤ q.1) {j : Nat} (hj : j < p.2.length) :
    (m.putAll (l ++ p :: r)).read (p.1 + j) = p.2[j] := by
  rw [Memory.putAll_append, Memory.putAll_cons, Memory.read_putAll_of_outside _ fun q hq => by have := h q hq; omega]
  exact Memory.read_writeBytes_inside _ _ _ (Memory.putAll_wf hm l) hj
/-- A run reads back where no other run meets it, in whatever order they are written. -/
theorem Memory.read_putAll_of_perm {m : Memory} (hm : m.wf = true) {L r : List (Nat × List Byte)} {p : Nat × List Byte} (hL : L.Perm (p :: r))
    (h : ∀ q, q ∈ r → q.1 + q.2.length ≤ p.1 ∨ p.1 + p.2.length ≤ q.1) {j : Nat} (hj : j < p.2.length) :
    (m.putAll L).read (p.1 + j) = p.2[j] := by
  obtain ⟨a, b, rfl⟩ := List.append_of_mem (hL.symm.subset (List.mem_cons_self ..))
  have hrest : (a ++ b).Perm r := List.Perm.cons_inv (List.perm_middle.symm.trans hL)
  exact Memory.read_putAll_of_last hm (fun q hq => h q (hrest.subset (List.mem_append_right a hq))) hj

/-- Numbers written at spots that follow one another are one run. -/
theorem Memory.putAll_spotVals {K : Word → Nat} {l : List Spot} {k e : Nat} (h : Chain k (l.map fun p => (K p.1, p.2)) e) (m : Memory) {bs : List Byte}
    (hlen : k + bs.length = e) : m.putAll ((spotVals l bs).map fun p => (K p.1.1, leBytes p.1.2 p.2)) = m.writeBytes k bs := by
  induction l generalizing k m bs with
  | nil =>
    cases h
    have hnil : bs = [] := List.eq_nil_of_length_eq_zero (by omega)
    rw [hnil]; rfl
  | cons p l ih =>
    obtain ⟨hk, hr⟩ : K p.1 = k ∧ Chain (k + p.2) (l.map fun p : Spot => (K p.1, p.2)) e := h
    have hsum := hr.total
    have htake : (bs.take p.2).length = p.2 := by rw [List.length_take]; omega
    have hstep : (spotVals (p :: l) bs).map (fun q => (K q.1.1, leBytes q.1.2 q.2)) =
        (k, bs.take p.2) :: (spotVals l (bs.drop p.2)).map fun q => (K q.1.1, leBytes q.1.2 q.2) := by
      rw [← hk]
      show (K p.1, leBytes p.2 (leNat (bs.take p.2))) :: _ = _
      rw [leBytes_leNat_of_length htake]; rfl
    rw [hstep, Memory.putAll_cons, ih hr _ (by rw [List.length_drop]; omega)]
    conv_rhs => rw [← List.take_append_drop p.2 bs, Memory.writeBytes_append, htake]

/-! ## The spots of a run (R214) -/

/-- The runs of n bytes from a place on, one for each aligned word that they lie in; r: the first place in its word. -/
def spotRuns (r n : Nat) : List (Nat × Nat) :=
  let h := min n (8 - r)
  (if h = 0 then [] else [(0, h)]) ++ (List.range ((n - h + 7) / 8)).map fun i => (h + 8 * i, min 8 (n - h - 8 * i))

theorem spotsOf_eq (a : Word) (n : Nat) : spotsOf a n = (spotRuns (a.toNat % 8) n).map fun q => (a + BitVec.ofNat 64 q.1, q.2) := by
  rw [spotsOf, spotRuns, List.map_append, List.map_map]
  split_ifs with h
  · rfl
  · rw [List.map_cons, show a + BitVec.ofNat 64 0 = a by simp]; rfl

theorem chain_words (k n : Nat) : Chain k ((List.range ((n + 7) / 8)).map fun i => (k + 8 * i, min 8 (n - 8 * i))) (k + n) := by
  induction n using Nat.strongRecOn generalizing k with
  | ind n ih =>
    rcases Nat.eq_zero_or_pos n with rfl | hpos
    · exact rfl
    · rw [show (n + 7) / 8 = (n - 8 + 7) / 8 + 1 by omega, List.range_succ_eq_map, List.map_cons, List.map_map]
      refine ⟨rfl, ?_⟩
      have hnext := ih (n - 8) (by omega) (k + 8)
      have hrow : (fun i => (k + 8 * i, min 8 (n - 8 * i))) ∘ Nat.succ = fun i => (k + 8 + 8 * i, min 8 (n - 8 - 8 * i)) := by
        funext i
        simp only [Function.comp]
        congr 1 <;> omega
      rw [hrow]
      rcases Nat.lt_or_ge n 8 with hlt | hge
      · rw [show (n - 8 + 7) / 8 = 0 by omega]
        show k + min 8 (n - 8 * 0) = k + n
        omega
      · rw [show k + min 8 (n - 8 * 0) = k + 8 by omega]
        rwa [show k + n = k + 8 + (n - 8) by omega]
theorem chain_spotRuns (r n : Nat) : Chain 0 (spotRuns r n) n := by
  rw [spotRuns]
  have hhead : Chain 0 (if min n (8 - r) = 0 then [] else [(0, min n (8 - r))]) (min n (8 - r)) := by
    split_ifs with h
    · exact h.symm
    · exact ⟨rfl, Nat.zero_add _⟩
  refine hhead.append ?_
  have := chain_words (min n (8 - r)) (n - min n (8 - r))
  rwa [show min n (8 - r) + (n - min n (8 - r)) = n by omega] at this

theorem spotRuns_lt {r n : Nat} {q : Nat × Nat} (h : q ∈ spotRuns r n) : q.1 < n := by
  rw [spotRuns, List.mem_append, List.mem_map] at h
  rcases h with h | ⟨i, hi, rfl⟩
  · split_ifs at h with h0
    · cases h
    · rw [List.mem_singleton.1 h]
      show 0 < n
      omega
  · have := List.mem_range.1 hi
    show min n (8 - r) + 8 * i < n
    omega
/-- A run of words from a word's first byte has its spots at words. -/
theorem spotRuns_aligned {n : Nat} (hn : n % 8 = 0) {q : Nat × Nat} (h : q ∈ spotRuns 0 n) : ∃ i, i < n / 8 ∧ q.1 = 8 * i := by
  have hlt := spotRuns_lt h
  rw [spotRuns, List.mem_append, List.mem_map] at h
  rcases h with h | ⟨i, hi, rfl⟩
  · split_ifs at h with h0
    · cases h
    · rw [List.mem_singleton.1 h] at hlt ⊢
      have hpos : 0 < n := hlt
      exact ⟨0, by omega, rfl⟩
  · have hi' := List.mem_range.1 hi
    refine ⟨i + 1, by omega, ?_⟩
    show min n (8 - 0) + 8 * i = 8 * (i + 1)
    omega
theorem spotsOf_byte (a : Word) : spotsOf a 1 = [(a, 1)] := by
  have hmin : min 1 (8 - a.toNat % 8) = 1 := by omega
  simp [spotsOf, hmin]

/-! ## Half bytes (R74) -/

/-- Half a byte of a byte replaced. -/
def halfPut (b : Byte) (odd v : Nat) : Byte := BitVec.ofNat 8 (if odd = 1 then b.toNat % 16 + 16 * (v % 16) else b.toNat / 16 * 16 + v % 16)
/-- The half of a byte. -/
def halfOf (b : Byte) (odd : Nat) : Nat := b.toNat / 16 ^ odd % 16
/-- Half bytes written in turn, each at its key and half. -/
def Memory.putHalves (m : Memory) (l : List ((Nat × Nat) × Nat)) : Memory := l.foldl (fun m p => m.write p.1.1 (halfPut (m.read p.1.1) p.1.2 p.2)) m

theorem halfOf_halfPut {b : Byte} {odd odd' v : Nat} (h : odd < 2) (h' : odd' < 2) :
    halfOf (halfPut b odd v) odd' = if odd' = odd then v % 16 else halfOf b odd' := by
  have hb := b.isLt
  rw [halfOf, halfPut, halfOf, BitVec.toNat_ofNat]
  interval_cases odd <;> interval_cases odd' <;> simp <;> omega
theorem Memory.read_write {m : Memory} (hm : m.wf = true) (a b : Nat) (v : Byte) : (m.write a v).read b = if b = a then v else m.read b := by
  split_ifs with h
  · rw [h, Memory.read_write_same a v hm]
  · exact Memory.read_write_ne m v h
theorem Memory.putHalves_wf {m : Memory} (hm : m.wf = true) (l : List ((Nat × Nat) × Nat)) : (m.putHalves l).wf = true := by
  induction l generalizing m with
  | nil => exact hm
  | cons p l ih => exact ih (Memory.write_wf _ _ hm)
theorem Memory.halfOf_step {m : Memory} (hm : m.wf = true) {p q : Nat × Nat} (hp : p.2 < 2) (hq : q.2 < 2) (v : Nat) :
    halfOf ((m.write p.1 (halfPut (m.read p.1) p.2 v)).read q.1) q.2 = if q = p then v % 16 else halfOf (m.read q.1) q.2 := by
  rw [Memory.read_write hm]
  by_cases hkey : q.1 = p.1
  · rw [if_pos hkey, halfOf_halfPut hp hq, hkey]
    simp only [Prod.ext_iff, hkey, true_and]
  · rw [if_neg hkey, if_neg fun h => hkey (congrArg Prod.fst h)]
/-- A half that none of the writes names stays. -/
theorem Memory.halfOf_putHalves_of_not_mem {m : Memory} (hm : m.wf = true) {l : List ((Nat × Nat) × Nat)} {q : Nat × Nat} (hq : q.2 < 2)
    (hl : ∀ p, p ∈ l → p.1.2 < 2) (h : ∀ p, p ∈ l → p.1 ≠ q) : halfOf ((m.putHalves l).read q.1) q.2 = halfOf (m.read q.1) q.2 := by
  induction l generalizing m with
  | nil => rfl
  | cons p l ih =>
    refine (ih (Memory.write_wf _ _ hm) (fun x hx => hl x (List.mem_cons_of_mem _ hx)) fun x hx => h x (List.mem_cons_of_mem _ hx)).trans ?_
    rw [Memory.halfOf_step hm (hl p (List.mem_cons_self ..)) hq, if_neg (h p (List.mem_cons_self ..)).symm]
/-- The last write of a half stands. -/
theorem Memory.halfOf_putHalves_of_last {m : Memory} (hm : m.wf = true) {l r : List ((Nat × Nat) × Nat)} {p : (Nat × Nat) × Nat} (hp : p.1.2 < 2)
    (hr : ∀ x, x ∈ r → x.1.2 < 2) (h : ∀ x, x ∈ r → x.1 ≠ p.1) : halfOf ((m.putHalves (l ++ p :: r)).read p.1.1) p.1.2 = p.2 % 16 := by
  rw [Memory.putHalves, List.foldl_append, List.foldl_cons]
  refine (Memory.halfOf_putHalves_of_not_mem (Memory.write_wf _ _ (Memory.putHalves_wf hm l)) hp hr h).trans ?_
  exact (Memory.halfOf_step (Memory.putHalves_wf hm l) hp hp _).trans (if_pos rfl)

end Sys2Proof.Machine
end

section
/-! SUPPORT. A copy command's accesses to a slice: each is performed at once, its address naming the byte of the slice, and only memory changes (R188,
R214, R215). -/

namespace Sys2Proof.Machine

/-! ## A state with other memory -/

/-- A state with other memory. -/
def State.withMem (s : State) (m : Memory) : State := { s with mem := m }

section
variable (s : State) (m : Memory)

theorem State.withMem_same : s.withMem s.mem = s := rfl
theorem State.withMem_withMem (m' : Memory) : (s.withMem m).withMem m' = s.withMem m' := rfl
theorem State.core_withMem (c : CoreId) : (s.withMem m).core c = s.core c := rfl
theorem State.pkg_withMem (p : Nat) : (s.withMem m).pkg p = s.pkg p := rfl
theorem State.sansMem_withMem : (s.withMem m).sansMem = s.sansMem := rfl
theorem State.outDir_withMem (a b : Nat) : (s.withMem m).outDir a b = s.outDir a b := rfl
theorem State.severed_withMem (a b : Nat) : (s.withMem m).severed a b = s.severed a b := by
  have h (n a : Nat) : (s.withMem m).severedBy n a b = s.severedBy n a b := by
    induction n generalizing a with
    | zero => rfl
    | succ n ih => rw [State.severedBy, ih, State.pkg_withMem, State.outDir_withMem, State.severedBy]
  exact h 24 a
theorem State.blocked_withMem (a b : Nat) : (s.withMem m).blocked a b = s.blocked a b := by
  have h (n a : Nat) : (s.withMem m).blockedBy n a b = s.blockedBy n a b := by
    induction n generalizing a with
    | zero => rfl
    | succ n ih => rw [State.blockedBy, ih, State.pkg_withMem, State.outDir_withMem, State.blockedBy]
  rw [State.blocked, State.severed_withMem, h, State.blocked]
end

/-! ## A slice that a core reaches -/

/-- Core c may use the slice of core x in a context and reaches it at once, nothing of its own being outstanding. -/
structure State.Opens (s : State) (c x : CoreId) (ctx : Nat) (super : Bool) : Prop where
  may  : s.sliceAllowed super ctx x = true
  sees : s.sees c x ctx = true
  calm : (s.core c).reqs = []
/-- An address names a byte of the slice of core x. -/
structure State.Names (s : State) (c x : CoreId) (a : Word) : Prop where
  form  : mformOk a = true
  slice : a.getLsbD 63 = true
  names : s.sliceOf c a = some (x, bitsN a.toNat 16 0)
theorem sliceKey_add (x : CoreId) (a b : Nat) : sliceKey x (a + b) = sliceKey x a + b := (Nat.add_assoc ..).symm
/-- The memory key of the byte of a slice that an address names. -/
def addrKey (x : CoreId) (a : Word) : Nat := sliceKey x (bitsN a.toNat 16 0)

theorem State.sliceOf_offset {s : State} {c x : CoreId} {a : Word} {off : Nat} (h : s.sliceOf c a = some (x, off)) : off = bitsN a.toNat 16 0 := by
  unfold State.sliceOf at h
  dsimp only at h
  split at h
  · cases h; rfl
  · split at h <;> cases h
    rfl
theorem State.names_of {s : State} {c x : CoreId} {a : Word} {off : Nat} (hform : mformOk a = true) (hslice : a.getLsbD 63 = true)
    (h : s.sliceOf c a = some (x, off)) : s.Names c x a ∧ addrKey x a = sliceKey x off := by
  have hoff := State.sliceOf_offset h
  exact ⟨⟨hform, hslice, hoff ▸ h⟩, by rw [addrKey, hoff]⟩

theorem State.busyLine_of_calm {k : Core} (h : k.reqs = []) (ln : Nat) : k.busyLine ln = false := by
  simp [Core.busyLine, h]

section
variable {s : State} {c x : CoreId} {ctx : Nat} {super : Bool}

theorem State.Opens.withMem (h : s.Opens c x ctx super) (m : Memory) : (s.withMem m).Opens c x ctx super where
  may := h.may
  sees := by
    have hsees := h.sees
    rw [State.sees] at hsees ⊢
    rw [State.severed_withMem, State.blocked_withMem]
    exact hsees
  calm := h.calm
theorem State.Names.withMem {a : Word} (h : s.Names c x a) (m : Memory) : (s.withMem m).Names c x a := ⟨h.form, h.slice, h.names⟩

theorem State.locFor_opens (h : s.Opens c x ctx super) {a : Word} (ha : s.Names c x a) (mark : Mark) (need : Need) :
    s.locFor ⟨c, mark⟩ ctx super need a = (s, .ok (.slice x (bitsN a.toNat 16 0))) := by
  have hres : s.resolve c ctx super need a = (s, .ok (.slice x (bitsN a.toNat 16 0))) := by
    simp only [State.resolve, ha.slice, if_true, ha.names, h.may]
  have hwait : s.waitsFor c (.slice x (bitsN a.toNat 16 0)) ctx a.toNat = false := by
    rw [State.waitsFor, State.busyLine_of_calm h.calm, Bool.and_false]
  have hsees := h.sees
  rw [State.sees, Bool.or_eq_true, beq_iff_eq] at hsees
  simp only [State.locFor, ha.form, Bool.not_true, Bool.false_eq_true, if_false, hres, hwait, Bool.false_or]
  rcases hsees with rfl | hsees
  · rw [show (Loc.slice x (bitsN a.toNat 16 0)).dst = x from rfl, State.blocked_self]
    simp
  · simp only [Bool.and_eq_true, Bool.not_eq_true'] at hsees
    obtain ⟨⟨⟨⟨hway, hopen⟩, hfence⟩, hlive⟩, -⟩ := hsees
    rw [show (Loc.slice x (bitsN a.toNat 16 0)).dst = x from rfl, hopen, hway, hfence, hlive]
    simp

/-! ## Accesses of a copy command to a slice -/

variable {cmd : CopyCmd} (h : s.Opens c x cmd.ctx cmd.super) (sc : Scope) (m : Memory)
include h

theorem State.copyRead1_opens {a : Word} (ha : s.Names c x a) (n : Nat) :
    (s.withMem m).copyRead1 cmd c sc a n = (s.withMem m, .ok (leNat (m.readBytes (addrKey x a) n))) := by
  rw [State.copyRead1, State.locFor_opens (h.withMem m) (ha.withMem m)]; rfl
theorem State.copyWrite1_opens {a : Word} (ha : s.Names c x a) (n v : Nat) :
    (s.withMem m).copyWrite1 cmd c sc a n v = (s.withMem (m.writeBytes (addrKey x a) (leBytes n v)), .ok ()) := by
  rw [State.copyWrite1, State.locFor_opens (h.withMem m) (ha.withMem m)]; rfl
theorem State.copyRead_opens {l : List Spot} (hl : ∀ p, p ∈ l → s.Names c x p.1) :
    (s.withMem m).copyRead cmd c sc l = (s.withMem m, .ok (l.map fun p => leNat (m.readBytes (addrKey x p.1) p.2))) := by
  induction l with
  | nil => rfl
  | cons p l ih =>
    rw [State.copyRead, State.copyRead1_opens h sc m (hl p (List.mem_cons_self ..))]
    dsimp only
    rw [ih fun q hq => hl q (List.mem_cons_of_mem _ hq)]; rfl
theorem State.copyCheck_opens {l : List Spot} (hl : ∀ p, p ∈ l → s.Names c x p.1) : (s.withMem m).copyCheck cmd c l = (s.withMem m, none) := by
  induction l with
  | nil => rfl
  | cons p l ih =>
    rw [State.copyCheck, State.locFor_opens (h.withMem m) ((hl p (List.mem_cons_self ..)).withMem m)]
    exact ih fun q hq => hl q (List.mem_cons_of_mem _ hq)
theorem State.copyAims_opens {l : List Spot} (hl : ∀ p, p ∈ l → s.Names c x p.1) : (s.withMem m).copyAims cmd c l = (s.withMem m, none) := by
  rw [State.copyAims, State.copyCheck_opens h m hl]
  exact State.copyCheck_opens h m hl
theorem State.copyPut_opens {l : List (Spot × Nat)} (hl : ∀ p, p ∈ l → s.Names c x p.1.1) : (s.withMem m).copyPut cmd c sc l =
    (s.withMem (m.putAll (l.map fun p => (addrKey x p.1.1, leBytes p.1.2 p.2))), .ok ()) := by
  induction l generalizing m with
  | nil => rfl
  | cons p l ih =>
    rw [State.copyPut, State.copyWrite1_opens h sc m (hl p (List.mem_cons_self ..))]
    exact ih _ fun q hq => hl q (List.mem_cons_of_mem _ hq)
theorem State.copyWrite_opens {l : List (Spot × Nat)} (hl : ∀ p, p ∈ l → s.Names c x p.1.1) : (s.withMem m).copyWrite cmd c sc l =
    (s.withMem (m.putAll (l.map fun p => (addrKey x p.1.1, leBytes p.1.2 p.2))), .ok ()) := by
  have hspots : ∀ p, p ∈ l.map Prod.fst → s.Names c x p.1 := fun p hp => by
    obtain ⟨q, hq, rfl⟩ := List.mem_map.1 hp
    exact hl q hq
  rw [State.copyWrite, State.copyAims_opens h m hspots]
  exact State.copyPut_opens h sc m hl
end

/-! ## A run of bytes of a slice -/

/-- n bytes from an address on lie in the slice of core x from an offset: the spots of a copy command there. -/
def State.Spans (s : State) (c x : CoreId) (a : Word) (n off : Nat) : Prop :=
  ∀ q, q ∈ spotRuns (a.toNat % 8) n → s.Names c x (a + BitVec.ofNat 64 q.1) ∧ addrKey x (a + BitVec.ofNat 64 q.1) = sliceKey x (off + q.1)

section
variable {s : State} {c x : CoreId} {a : Word} {n off : Nat}

theorem State.Spans.names (h : s.Spans c x a n off) {p : Spot} (hp : p ∈ spotsOf a n) : s.Names c x p.1 := by
  rw [spotsOf_eq] at hp
  obtain ⟨q, hq, rfl⟩ := List.mem_map.1 hp
  exact (h q hq).1
theorem State.Spans.chain (h : s.Spans c x a n off) :
    Chain (sliceKey x off) ((spotsOf a n).map fun p => (addrKey x p.1, p.2)) (sliceKey x off + n) := by
  have hkeys : (spotsOf a n).map (fun p => (addrKey x p.1, p.2)) = (spotRuns (a.toNat % 8) n).map fun q => (sliceKey x off + q.1, q.2) := by
    rw [spotsOf_eq, List.map_map]
    refine List.map_congr_left fun q hq => ?_
    show (addrKey x (a + BitVec.ofNat 64 q.1), q.2) = _
    rw [(h q hq).2, sliceKey_add]
  rw [hkeys]
  exact (chain_spotRuns _ n).shift (sliceKey x off)
theorem State.spans_of_lies (h : ∀ j, j < n → mformOk (a + BitVec.ofNat 64 j) = true ∧ (a + BitVec.ofNat 64 j).getLsbD 63 = true
    ∧ s.sliceOf c (a + BitVec.ofNat 64 j) = some (x, off + j)) : s.Spans c x a n off := fun q hq => by
  obtain ⟨hform, hslice, hnames⟩ := h q.1 (spotRuns_lt hq)
  exact State.names_of hform hslice hnames
theorem State.spans_of_inSlice {ctx : Nat} {super : Bool} (hn : n % 8 = 0) (ha : a.toNat % 8 = 0) (h : InSlice s c ctx super a (n / 8) x off) :
    s.Spans c x a n off := fun q hq => by
  obtain ⟨-, -, -, hwords⟩ := h
  rw [ha] at hq
  obtain ⟨i, hi, hqi⟩ := spotRuns_aligned hn hq
  obtain ⟨hform, hslice, hnames⟩ := hwords i hi
  rw [hqi]
  exact State.names_of hform hslice hnames

/-- The bytes that a copy command reads at a run. -/
theorem State.Spans.bytes (h : s.Spans c x a n off) (m : Memory) :
    spotBytes (spotsOf a n) ((spotsOf a n).map fun p => leNat (m.readBytes (addrKey x p.1) p.2)) = m.readBytes (sliceKey x off) n := by
  rw [spotBytes_map, h.chain.readBytes, Nat.add_sub_cancel_left]
/-- What a copy command's bytes leave at a run. -/
theorem State.Spans.put (h : s.Spans c x a n off) (m : Memory) {bs : List Byte} (hlen : bs.length = n) :
    m.putAll ((spotVals (spotsOf a n) bs).map fun p => (addrKey x p.1.1, leBytes p.1.2 p.2)) = m.writeBytes (sliceKey x off) bs :=
  Memory.putAll_spotVals h.chain m (by rw [hlen])
theorem mem_spotVals {l : List Spot} {bs : List Byte} {p : Spot × Nat} (h : p ∈ spotVals l bs) : p.1 ∈ l := (List.of_mem_zip h).1
end

end Sys2Proof.Machine
end

section
/-! SUPPORT. The engine's two steps for a copy command: which branch a command takes, and how its end leaves its tile (R196, R215, R216). -/

namespace Sys2Proof.Machine

/-! ## Ends of a command -/

/-- A core whose copy command has completed. -/
def Core.copyGiven (k : Core) (cmd : CopyCmd) (mode : CopyMode) : Core :=
  (match mode with | .inn => k.tileTo cmd.tile tReady | .out => k.dropReader cmd.tile | .outr => k.tileTo cmd.tile tEmpty).dropCopy cmd
/-- How a copy command that has completed leaves its core. -/
def CopyLeft (k k' : Core) (cmd : CopyCmd) (mode : CopyMode) : Prop :=
  k'.copies = k.copies.filter (fun y => y != cmd) ∧ (mode = .inn → tileSt (k'.tile cmd.tile) = 2) ∧ (mode = .outr → tileSt (k'.tile cmd.tile) = 0)
  ∧ (mode = .out → k'.readersOf cmd.tile = k.readersOf cmd.tile - 1)

theorem Core.tileSt_tileTo (k : Core) (t : Nat) {st : Nat} (h : st < 4) : tileSt ((k.tileTo t st).tile t) = st := by
  rw [Core.tile_tileTo, if_pos rfl, tileSt_tileWith _ h]
theorem Core.copyLeft_copyGiven (k : Core) (cmd : CopyCmd) (mode : CopyMode) : CopyLeft k (k.copyGiven cmd mode) cmd mode := by
  cases mode
  · exact ⟨rfl, fun _ => k.tileSt_tileTo cmd.tile (by decide), (nomatch ·), (nomatch ·)⟩
  · exact ⟨rfl, (nomatch ·), (nomatch ·), fun _ => SMap.get_set_same ..⟩
  · exact ⟨rfl, (nomatch ·), fun _ => k.tileSt_tileTo cmd.tile (by decide), (nomatch ·)⟩

/-- A core of the same copy commands, tiles and readers. -/
theorem CopyLeft.congr {k k' k'' : Core} {cmd : CopyCmd} {mode : CopyMode} (h : CopyLeft k' k'' cmd mode) (hcopies : k'.copies = k.copies)
    (hreaders : k'.readers = k.readers) : CopyLeft k k'' cmd mode := by
  obtain ⟨hc, hi, hr, ho⟩ := h
  exact ⟨by rw [hc, hcopies], hi, hr, fun hm => by rw [ho hm, Core.readersOf, hreaders, Core.readersOf]⟩

section
variable {s : State} {c : CoreId} {cmd : CopyCmd} {mode : CopyMode} {i : Instr}

theorem State.copyDone_eq (hoffers : cmd.offers = []) (s : State) : s.copyDone c cmd mode = s.modCore c fun k => k.copyGiven cmd mode := by
  rw [State.copyDone, hoffers]; rfl

/-- A command has completed, memory having become m. -/
theorem answers_copyDone (hoffers : cmd.offers = []) {m : Memory} (he : exec i s = .next ((s.withMem m).copyDone c cmd mode)) :
    Answers i s fun t => OnlyCore c s t ∧ CopyLeft (s.core c) (t.core c) cmd mode ∧ t.mem = m ∧ t.seals = s.seals := by
  rw [State.copyDone_eq hoffers] at he
  refine ⟨_, he, (onlyCore_of_sansMem c (s.sansMem_withMem m)).trans (onlyCore_modCore ..), ?_, rfl, rfl⟩
  rw [State.core_modCore_same, State.core_withMem]
  exact Core.copyLeft_copyGiven ..

theorem State.cmdFlags_eq_or (s : State) (c : CoreId) (slot fl : Nat) :
    s.cmdFlags c slot fl = s ∨ ∃ x, s.cmdFlags c slot fl = s.modCore c fun k => k.setStrand slot x := by
  rw [State.cmdFlags]
  split_ifs
  · exact .inl rfl
  · exact .inr ⟨_, rfl⟩
theorem State.mem_cmdFlags (s : State) (c : CoreId) (slot fl : Nat) : (s.cmdFlags c slot fl).mem = s.mem := by
  rcases s.cmdFlags_eq_or c slot fl with h | ⟨x, h⟩ <;> rw [h]
  rfl
/-- A command has completed, memory having become m, and its flags have gone to its strand. -/
theorem answers_copyDone_flags (hoffers : cmd.offers = []) {m : Memory} {slot fl : Nat}
    (he : exec i s = .next (((s.withMem m).cmdFlags c slot fl).copyDone c cmd mode)) :
    Answers i s fun t => OnlyCore c s t ∧ CopyLeft (s.core c) (t.core c) cmd mode ∧ t.mem = m ∧ t.seals = s.seals := by
  rcases (s.withMem m).cmdFlags_eq_or c slot fl with h | ⟨x, h⟩
  · rw [h] at he
    exact answers_copyDone hoffers he
  · rw [State.copyDone_eq hoffers, h] at he
    refine ⟨_, he, ((onlyCore_of_sansMem c (s.sansMem_withMem m)).trans (onlyCore_modCore ..)).trans (onlyCore_modCore ..), ?_, rfl, rfl⟩
    rw [State.core_modCore_same, State.core_modCore_same, State.core_withMem]
    exact (Core.copyLeft_copyGiven ..).congr rfl rfl

/-- How a copy command that has failed leaves its core: its tile marked with MCOPY (R216). -/
def CopyFails (k k' : Core) (cmd : CopyCmd) (mode : CopyMode) (d : Nat) (a : Word) : Prop :=
  k'.copies = k.copies.filter (fun y => y != cmd) ∧ (∀ d0, k'.deferred.get d0 cmd.tile = ⟨5, 0x6E, d, 0, cmd.fpc, a⟩)
  ∧ tileMark (k'.tile cmd.tile) = true ∧ tileSt (k'.tile cmd.tile) = if mode = .inn then 0 else 2

theorem Core.copyFails_markTile (k : Core) (cmd : CopyCmd) (mode : CopyMode) {st : Nat} (hst : st < 4) (d : Nat) (a : Word)
    (h : st = if mode = .inn then 0 else 2) : CopyFails k ((k.markTile cmd.tile st ⟨5, 0x6E, d, 0, cmd.fpc, a⟩).dropCopy cmd) cmd mode d a := by
  have htile : ((k.markTile cmd.tile st ⟨5, 0x6E, d, 0, cmd.fpc, a⟩).dropCopy cmd).tile cmd.tile = tileWith (k.tile cmd.tile) st true :=
    Core.tile_markTile k cmd.tile st ⟨5, 0x6E, d, 0, cmd.fpc, a⟩
  exact ⟨rfl, fun _ => SMap.get_set_same .., by rw [htile, tileMark_tileWith _ hst], by rw [htile, tileSt_tileWith _ hst, h]⟩

/-- A core whose copy command has failed. -/
def Core.copyFailed (k : Core) (cmd : CopyCmd) (mode : CopyMode) (d : Nat) (a : Word) : Core :=
  (match mode with
    | .inn => k.markTile cmd.tile tEmpty ⟨5, 0x6E, d, 0, cmd.fpc, a⟩
    | .out => (k.dropReader cmd.tile).markTile cmd.tile tReady ⟨5, 0x6E, d, 0, cmd.fpc, a⟩
    | .outr => k.markTile cmd.tile tReady ⟨5, 0x6E, d, 0, cmd.fpc, a⟩).dropCopy cmd
theorem State.copyFail_eq (s : State) (d : Nat) (a : Word) : s.copyFail c cmd mode d a = s.modCore c fun k => k.copyFailed cmd mode d a := rfl

theorem answers_copyFail {d : Nat} {a : Word} (he : exec i s = .next (s.copyFail c cmd mode d a)) :
    Answers i s fun t => SameMem s t ∧ OnlyCore c s t ∧ CopyFails (s.core c) (t.core c) cmd mode d a := by
  rw [State.copyFail_eq] at he
  refine ⟨_, he, sameMem_modCore .., onlyCore_modCore .., ?_⟩
  rw [State.core_modCore_same]
  cases mode
  · exact Core.copyFails_markTile _ cmd _ (by decide) d a rfl
  · exact Core.copyFails_markTile ((s.core c).dropReader cmd.tile) cmd _ (by decide) d a rfl
  · exact Core.copyFails_markTile _ cmd _ (by decide) d a rfl

/-! ## COPY_COMMAND_COMPLETION -/

section
variable {place : Nat} {sc : Scope} (hfind : (s.core c).copies.find? (fun x => x.started && x.place == place) = some cmd)
  (hrun : (s.core c).mcheck = none)
include hfind hrun

theorem exec_copyCommandCompletion {kind : Nat} (hof : copyOf cmd.instr = some (mode, sc, kind)) : exec (.copyCommandCompletion c place) s =
    match kind with
    | 0 => .next (State.copyOutcome s (s.cpMove c cmd mode sc).1 c cmd mode (s.cpMove c cmd mode sc).2)
    | 1 => .next (State.copyOutcome s (s.cpxMove c cmd mode sc).1 c cmd mode (s.cpxMove c cmd mode sc).2)
    | _ => match cmd.answer with | none => .next s | some a => .next (s.peerMove c cmd mode a) := by
  show execCopyCommandCompletion c place s = _
  simp only [execCopyCommandCompletion, hfind, Core.dead, hrun, hof, Option.isSome_none, Bool.false_eq_true, if_false]
  rcases kind with _ | _ | _ <;> rfl
theorem exec_completion_cp {u : State} (hof : copyOf cmd.instr = some (mode, sc, 0)) (hmove : s.cpMove c cmd mode sc = (u, .ok ())) :
    exec (.copyCommandCompletion c place) s = .next (u.copyDone c cmd mode) := by
  rw [exec_copyCommandCompletion hfind hrun hof, hmove]; rfl
theorem exec_completion_cpx {u : State} (hof : copyOf cmd.instr = some (mode, sc, 1)) (hmove : s.cpxMove c cmd mode sc = (u, .ok ())) :
    exec (.copyCommandCompletion c place) s = .next (u.copyDone c cmd mode) := by
  rw [exec_copyCommandCompletion hfind hrun hof, hmove]; rfl
end

/-- The elements of a cpx moved inward. -/
theorem State.cpxMove_inn {h : THdr} {sc : Scope} {u : State} {ct : Content} (hthdr : thdrOf cmd.hdr = some h)
    (hfar : s.cpxFar cmd c ((s.core c).tile cmd.tile) = none) (hload : s.cpxLoad cmd c sc h = (u, .ok ct)) :
    let w := (s.core c).tile cmd.tile
    let r := convert h.fmt (tileFmt w) (h.ext.getD 0 1) h.kd h.o (h.k / 32) ct
    s.cpxMove c cmd .inn sc = ((u.tileStore c w cmd.shape r.1).cmdFlags c cmd.slot r.2, .ok ()) := by
  intro w r
  simp only [State.cpxMove, hthdr, hfar, hload, if_true]
  rfl
theorem State.cpxMove_out {h : THdr} {sc : Scope} {u : State} (hmode : mode ≠ .inn) (hthdr : thdrOf cmd.hdr = some h)
    (hfar : s.cpxFar cmd c ((s.core c).tile cmd.tile) = none) :
    let w := (s.core c).tile cmd.tile
    let r := convert (tileFmt w) h.fmt (h.ext.getD 0 1) h.kd h.o (h.k / 32) (s.tileLoad c w cmd.shape)
    s.cpxStore cmd c sc h r.1 = (u, .ok ()) → s.cpxMove c cmd mode sc = (u.cmdFlags c cmd.slot r.2, .ok ()) := by
  intro w r hstore
  simp only [State.cpxMove, hthdr, hfar, if_neg hmode]
  show (match s.cpxStore cmd c sc h r.1 with
    | (s, .error e) => (s, .error e)
    | (s, .ok _) => (s.cmdFlags c cmd.slot r.2, .ok ()) : State × Except (Nat × Word) Unit) = _
  rw [hstore]

/-! ## COPY_COMMAND_START -/

section
variable {place : Nat} {sc : Scope} {kind : Nat} (hfew : (s.core c).copyBusy < 2) (hfind : (s.core c).copies.find? (fun x => !x.started) = some cmd)
  (hplace : [0, 1].find? (fun p => !((s.core c).copies.any fun x => x.started && x.place == p)) = some place) (hrun : (s.core c).mcheck = none)
  (hof : copyOf cmd.instr = some (mode, sc, kind))

/-- A command that runs at a place. -/
def CopyCmd.begun (cmd : CopyCmd) (place : Nat) : CopyCmd := { cmd with started := true, place := place, retry := none }
/-- What the start of a command of a kind does, its shape record being well formed. -/
def State.copyStart (s : State) (c : CoreId) (cmd : CopyCmd) (place : Nat) (mode : CopyMode) (sc : Scope) : Nat → State
  | 0 => s.modCore c fun k => k.setCopy cmd (cmd.begun place)
  | 1 =>
    match s.cpxHead c cmd mode sc with
    | (s', .ok hw) => s'.modCore c fun k => k.setCopy cmd { cmd.begun place with hdr := hw }
    | (s', .error (d, a)) =>
      if isWait d then s.modCore c fun k => k.setCopy cmd { cmd with retry := markAfter cmd.retry (s.time c.pkg) d } else s'.copyFail c cmd mode d a
  | _ =>
    match s.sliceOf c cmd.addr with
    | none => s.copyFail c cmd mode 0x93 0
    | some (t, _) =>
      let ls := if t = c then [0, 0, 0, 0] else s.tileLines t (peerTile cmd.instr)
      if (s.core c).busyPeer ls then s
      else ((s.modCore c fun k => k.setCopy cmd (cmd.begun place)).request c cmd.slot (.copy place) t 0 ([0, 0, 0, 0, 0, 0, 0, 0] ++ ls)
        fun tag => s.peerPacket c (cmd.begun place) t tag).1

include hfew hfind hplace hrun hof

theorem exec_copyCommandStart : exec (.copyCommandStart c) s =
    .next (if tileFmt ((s.core c).tile cmd.tile) ≠ 13 ∧ (tileBytes ((s.core c).tile cmd.tile) cmd.shape).isNone then s.copyFail c cmd mode 0x6A 0
      else s.copyStart c cmd place mode sc kind) := by
  show execCopyCommandStart c s = _
  simp only [execCopyCommandStart, if_pos hfew, hfind, hplace, Core.dead, hrun, hof, Option.isSome_none, Bool.false_eq_true, if_false]
  split_ifs with hbad
  · rfl
  · rcases kind with _ | _ | n
    · rfl
    · simp only [State.copyStart]
      rcases s.cpxHead c cmd mode sc with ⟨s', ⟨d, a⟩ | hw⟩
      · dsimp only
        split_ifs <;> rfl
      · rfl
    · simp only [State.copyStart]
      rcases s.sliceOf c cmd.addr with _ | ⟨t, off⟩
      · rfl
      · dsimp only
        split_ifs <;> rfl
theorem exec_copyCommandStart_malformed (h : ¬ (tileFmt ((s.core c).tile cmd.tile) = 13 ∨ (tileBytes ((s.core c).tile cmd.tile) cmd.shape).isSome = true)) :
    exec (.copyCommandStart c) s = .next (s.copyFail c cmd mode 0x6A 0) := by
  rw [exec_copyCommandStart hfew hfind hplace hrun hof, if_pos]
  obtain ⟨h13, hnone⟩ := not_or.1 h
  exact ⟨h13, by rwa [Option.isNone_iff_eq_none, ← Option.not_isSome_iff_eq_none]⟩
theorem exec_copyCommandStart_formed (h : tileFmt ((s.core c).tile cmd.tile) = 13 ∨ (tileBytes ((s.core c).tile cmd.tile) cmd.shape).isSome = true) :
    exec (.copyCommandStart c) s = .next (s.copyStart c cmd place mode sc kind) := by
  rw [exec_copyCommandStart hfew hfind hplace hrun hof, if_neg]
  rintro ⟨h13, hnone⟩
  rcases h with h | h
  · exact h13 h
  · rw [Option.isNone_iff_eq_none.1 hnone] at h
    exact nomatch h
end
end

end Sys2Proof.Machine
end

section
/-! SUPPORT. A cp's bytes, the start of a cpx with its header, and a putt or gett with its peer (R214, R218, R305). -/

namespace Sys2Proof.Machine

/-! ## A tile's dense bytes (R77) -/

/-- Byte i of a tile of an FMT as an engine moves it. -/
def cleanByte (f i : Nat) (y : Byte) : Byte := if f ≠ 13 then y else if 2050 ≤ i then 0 else if i < 2048 ∧ i % 8 = 7 then y &&& 3 else y

theorem length_tileClean (f : Nat) (bs : List Byte) : (tileClean f bs).length = bs.length := by
  unfold tileClean
  split_ifs <;> simp
theorem getElem_tileClean (f : Nat) (bs : List Byte) {i : Nat} (h : i < (tileClean f bs).length) :
    (tileClean f bs)[i] = cleanByte f i (bs[i]'(length_tileClean f bs ▸ h)) := by
  by_cases hf : f = 13
  · subst hf
    simp [tileClean, cleanByte]
  · have hid : tileClean f bs = bs := if_neg hf
    simp only [hid, cleanByte, ne_eq, hf, not_false_eq_true, if_true]

/-- Clean bytes of one run written to another. -/
theorem Memory.read_clean_inside {m : Memory} (hm : m.wf = true) (f k k' n : Nat) {i : Nat} (hi : i < n) :
    (m.writeBytes k' (tileClean f (m.readBytes k n))).read (k' + i) = cleanByte f i (m.read (k + i)) := by
  have hlen : i < (tileClean f (m.readBytes k n)).length := by rwa [length_tileClean, length_readBytes]
  rw [Memory.read_writeBytes_inside k' i _ hm hlen, getElem_tileClean, Memory.getElem_readBytes]
theorem Memory.read_clean_outside (m : Memory) (f k k' n : Nat) {b : Nat} (h : b < k' ∨ k' + n ≤ b) :
    (m.writeBytes k' (tileClean f (m.readBytes k n))).read b = m.read b :=
  Memory.read_writeBytes_of_outside _ _ _ _ (by rwa [length_tileClean, length_readBytes])

/-! ## The bytes of a cp -/

section
variable {s : State} {c x : CoreId} {cmd : CopyCmd} {off : Nat} (hopen : s.Opens c x cmd.ctx cmd.super)
  (hspan : s.Spans c x cmd.addr cmd.data off) (hscale : cmd.scale = 0) (sc : Scope)
include hopen hspan hscale

theorem State.cpMove_inn : s.cpMove c cmd .inn sc = (s.withMem (s.mem.writeBytes (sliceKey c (tileBase ((s.core c).tile cmd.tile)))
    (tileClean (tileFmt ((s.core c).tile cmd.tile)) (s.mem.readBytes (sliceKey x off) cmd.data))), .ok ()) := by
  have hread := State.copyRead_opens hopen sc s.mem fun p => hspan.names (p := p)
  rw [State.withMem_same] at hread
  have hlen : (tileClean (tileFmt ((s.core c).tile cmd.tile)) (s.mem.readBytes (sliceKey x off) cmd.data)).length = cmd.data := by
    rw [length_tileClean, length_readBytes]
  simp only [State.cpMove, hscale, Nat.add_zero, hread, hspan.bytes, State.tileIn, if_true]
  rw [List.take_of_length_le hlen.le, List.drop_of_length_le hlen.le]
  rfl
theorem State.cpMove_out {mode : CopyMode} (hmode : mode ≠ .inn) : s.cpMove c cmd mode sc = (s.withMem (s.mem.writeBytes (sliceKey x off)
    (tileClean (tileFmt ((s.core c).tile cmd.tile)) (s.mem.readBytes (sliceKey c (tileBase ((s.core c).tile cmd.tile))) cmd.data))), .ok ()) := by
  have hout : s.tileOut c ((s.core c).tile cmd.tile) cmd.data 0 = tileClean (tileFmt ((s.core c).tile cmd.tile))
      (s.mem.readBytes (sliceKey c (tileBase ((s.core c).tile cmd.tile))) cmd.data) := by
    rw [State.tileOut, show s.mem.readBytes (sliceKey c (tileScales ((s.core c).tile cmd.tile))) 0 = [] from rfl, List.append_nil]
  have hwrite := State.copyWrite_opens hopen sc s.mem (l := spotVals (spotsOf cmd.addr cmd.data) (s.tileOut c ((s.core c).tile cmd.tile) cmd.data 0))
    fun p hp => hspan.names (mem_spotVals hp)
  rw [State.withMem_same, hspan.put s.mem (by rw [hout, length_tileClean, length_readBytes]), hout] at hwrite
  simp only [State.cpMove, if_neg hmode, hscale, Nat.add_zero, hout]
  exact hwrite
end

/-- What a cp moves: byte i of the run at one key to another. -/
def MovesClean (f k k' n : Nat) (s t : State) : Prop := SameMemBut k' n s t ∧ ∀ i, i < n → t.mem.read (k' + i) = cleanByte f i (s.mem.read (k + i))

theorem movesClean_of_mem {s t : State} (hm : s.mem.wf = true) {f k k' n : Nat} (hmem : t.mem = s.mem.writeBytes k' (tileClean f (s.mem.readBytes k n)))
    (hseals : t.seals = s.seals) : MovesClean f k k' n s t := by
  refine ⟨⟨fun b hb => ?_, hseals⟩, fun i hi => ?_⟩
  · rw [hmem]; exact Memory.read_clean_outside _ _ _ _ _ hb
  · rw [hmem]; exact Memory.read_clean_inside hm _ _ _ _ hi

section
variable {s : State} {c : CoreId} {cmd : CopyCmd} {place : Nat} {mode : CopyMode} {sc : Scope}
  (hfind : (s.core c).copies.find? (fun x => x.started && x.place == place) = some cmd) (hrun : (s.core c).mcheck = none)
include hfind hrun

/-- A cp with a slice completes. -/
theorem answers_cp_completion (hoffers : cmd.offers = []) (hof : copyOf cmd.instr = some (mode, sc, 0)) {x : CoreId} {off : Nat}
    (hdata : cmd.data % 8 = 0) (hscale : cmd.scale = 0)
    (haddr : cmd.addr.toNat % 8 = 0) (hcalm : (s.core c).reqs = []) (hin : InSlice s c cmd.ctx cmd.super cmd.addr (cmd.data / 8) x off)
    (hm : s.mem.wf = true) :
    let w := (s.core c).tile cmd.tile
    Answers (.copyCommandCompletion c place) s fun t => OnlyCore c s t ∧ CopyLeft (s.core c) (t.core c) cmd mode
      ∧ (mode = .inn → MovesClean (tileFmt w) (sliceKey x off) (sliceKey c (tileBase w)) cmd.data s t)
      ∧ (mode ≠ .inn → MovesClean (tileFmt w) (sliceKey c (tileBase w)) (sliceKey x off) cmd.data s t) := by
  intro w
  have hspan := State.spans_of_inSlice hdata haddr hin
  obtain ⟨hmay, -, hsees, -⟩ := hin
  have hopen : s.Opens c x cmd.ctx cmd.super := ⟨hmay, hsees, hcalm⟩
  by_cases hmode : mode = .inn
  · subst hmode
    obtain ⟨t, he, honly, hleft, hmem, hseals⟩ :=
      answers_copyDone hoffers (exec_completion_cp hfind hrun hof (State.cpMove_inn hopen hspan hscale sc))
    exact ⟨t, he, honly, hleft, fun _ => movesClean_of_mem hm hmem hseals, fun h => absurd rfl h⟩
  · obtain ⟨t, he, honly, hleft, hmem, hseals⟩ :=
      answers_copyDone hoffers (exec_completion_cp hfind hrun hof (State.cpMove_out hopen hspan hscale sc hmode))
    exact ⟨t, he, honly, hleft, fun h => absurd h hmode, fun _ => movesClean_of_mem hm hmem hseals⟩

/-! ## The end of a putt or gett (R305) -/

theorem exec_completion_peer (hof : copyOf cmd.instr = some (mode, sc, 2)) : exec (.copyCommandCompletion c place) s =
    match cmd.answer with | none => .next s | some a => .next (s.peerMove c cmd mode a) := exec_copyCommandCompletion hfind hrun hof
theorem answers_peer_ack (hoffers : cmd.offers = []) (hof : copyOf cmd.instr = some (mode, sc, 2)) {a : Answer} (ha : cmd.answer = some a) (hack : a.status = .ack) :
    let w := (s.core c).tile cmd.tile
    let bs := tileClean (tileFmt w) (a.data.flatMap fun y => leBytes 8 y.toNat)
    Answers (.copyCommandCompletion c place) s fun t => OnlyCore c s t ∧ CopyLeft (s.core c) (t.core c) cmd mode ∧ (mode ≠ .inn → SameMem s t)
      ∧ (mode = .inn → t.mem = (s.mem.writeBytes (sliceKey c (tileBase w)) (bs.take cmd.data)).writeBytes (sliceKey c (tileScales w))
          ((bs.drop cmd.data).take cmd.scale)) := by
  intro w bs
  have he := exec_completion_peer hfind hrun hof
  rw [ha] at he
  dsimp only at he
  rw [State.peerMove, hack] at he
  dsimp only at he
  by_cases hmode : mode = .inn
  · rw [if_pos hmode] at he
    obtain ⟨t, he, honly, hleft, hmem, -⟩ := answers_copyDone (m := (s.mem.writeBytes (sliceKey c (tileBase w)) (bs.take cmd.data)).writeBytes
      (sliceKey c (tileScales w)) ((bs.drop cmd.data).take cmd.scale)) hoffers he
    exact ⟨t, he, honly, hleft, fun h => absurd hmode h, fun _ => hmem⟩
  · rw [if_neg hmode] at he
    obtain ⟨t, he, honly, hleft, hmem, hseals⟩ := answers_copyDone (m := s.mem) hoffers he
    exact ⟨t, he, honly, hleft, fun _ => ⟨fun b => by rw [hmem], hseals⟩, fun h => absurd h hmode⟩
theorem exec_peer_nack (hof : copyOf cmd.instr = some (mode, sc, 2)) {a : Answer} (ha : cmd.answer = some a) (hnack : a.status = .nack) :
    exec (.copyCommandCompletion c place) s = .next (s.copyFail c cmd mode (if a.cause ≤ 4 then 0x90 else a.cause) 0) := by
  rw [exec_completion_peer hfind hrun hof, ha]
  dsimp only
  rw [State.peerMove, hnack]
theorem exec_peer_lost (hof : copyOf cmd.instr = some (mode, sc, 2)) {a : Answer} (ha : cmd.answer = some a) (hack : a.status ≠ .ack)
    (hnack : a.status ≠ .nack) : exec (.copyCommandCompletion c place) s = .next (s.copyFail c cmd mode 0x91 0) := by
  rw [exec_completion_peer hfind hrun hof, ha]
  dsimp only
  unfold State.peerMove
  split
  · exact absurd ‹_› hack
  · exact absurd ‹_› hnack
  · rfl
end

/-! ## The start of a command -/

section
variable {s : State} {c : CoreId} {cmd : CopyCmd} {place : Nat} {mode : CopyMode} {sc : Scope}

/-- A command has begun at a place with the words of a header. -/
def CopyBegan (c : CoreId) (cmd : CopyCmd) (place : Nat) (hdr : List Word) (s t : State) : Prop :=
  SameMem s t ∧ (t.core c).tiles = (s.core c).tiles
  ∧ (t.core c).copies = (s.core c).copies.map fun y => if y = cmd then { cmd with started := true, place := place, retry := none, hdr := hdr } else y

theorem copyBegan_setCopy (hdr : List Word) : CopyBegan c cmd place hdr s (s.modCore c fun k => k.setCopy cmd { cmd.begun place with hdr := hdr }) := by
  refine ⟨sameMem_modCore .., ?_, ?_⟩ <;> rw [State.core_modCore_same] <;> rfl

/-! ## A cpx's header (R218) -/

theorem spotRuns_header : spotRuns 0 64 = (List.range 8).map fun i => (8 * i, 8) := by decide

/-- The eight words of a header in a slice. -/
theorem State.copyRead_header {x : CoreId} {off : Nat} (hopen : s.Opens c x cmd.ctx cmd.super) (haddr : cmd.addr.toNat % 8 = 0)
    (hspan : s.Spans c x cmd.addr 64 off) :
    ∃ vs, s.copyRead cmd c sc (spotsOf cmd.addr 64) = (s, .ok vs) ∧ vs.map (BitVec.ofNat 64) = (List.range 8).map (s.sliceWord x off) := by
  have hread := State.copyRead_opens hopen sc s.mem fun p => hspan.names (p := p)
  rw [State.withMem_same] at hread
  refine ⟨_, hread, ?_⟩
  have hkey (i : Nat) (hi : i ∈ List.range 8) : addrKey x (cmd.addr + BitVec.ofNat 64 (8 * i)) = sliceKey x (off + 8 * i) :=
    (hspan (8 * i, 8) (by rw [haddr, spotRuns_header]; exact List.mem_map.2 ⟨i, hi, rfl⟩)).2
  rw [spotsOf_eq, haddr, spotRuns_header, List.map_map, List.map_map, List.map_map]
  refine List.map_congr_left fun i hi => ?_
  show BitVec.ofNat 64 (leNat (s.mem.readBytes (addrKey x (cmd.addr + BitVec.ofNat 64 (8 * i))) 8)) = _
  rw [hkey i hi]; rfl

section
variable {vs : List Nat} {hw : List Word} {h : THdr} (hread : s.copyRead cmd c sc (spotsOf cmd.addr 64) = (s, .ok vs))
  (hvs : vs.map (BitVec.ofNat 64) = hw)
include hread hvs

theorem State.cpxHead_malformed (hnone : thdrOf hw = none) : s.cpxHead c cmd mode sc = (s, .error (0x6A, 0)) := by
  simp only [State.cpxHead, hread, hvs, hnone]
theorem State.cpxHead_refused (hsome : thdrOf hw = some h) {d : Nat}
    (hd : cpxCheck h (tileFmt ((s.core c).tile cmd.tile)) cmd.shape (mode == .inn) = some d) : s.cpxHead c cmd mode sc = (s, .error (d, 0)) := by
  simp only [State.cpxHead, hread, hvs, hsome, hd]
theorem State.cpxHead_passed (hsome : thdrOf hw = some h)
    (hgood : cpxCheck h (tileFmt ((s.core c).tile cmd.tile)) cmd.shape (mode == .inn) = none) :
    s.cpxHead c cmd mode sc = if h.leaves then (s, .error (dMSLICE, h.base)) else (s, .ok hw) := by
  simp only [State.cpxHead, hread, hvs, hsome, hgood]
end

/-- A check that ends a command is no wait. -/
theorem cpxCheck_isWait {h : THdr} {f : Nat} {ws : List Word} {inn : Bool} {d : Nat} (hd : cpxCheck h f ws inn = some d) : isWait d = false := by
  have hcode : d = 0x69 ∨ d = 0x6A := by
    unfold cpxCheck at hd
    dsimp only at hd
    split_ifs at hd <;> simp_all
  rcases hcode with rfl | rfl <;> decide

theorem State.copyStart_cpx_fails {d : Nat} {a : Word} (hhead : s.cpxHead c cmd mode sc = (s, .error (d, a))) (hwait : isWait d = false) :
    s.copyStart c cmd place mode sc 1 = s.copyFail c cmd mode d a := by
  simp only [State.copyStart, hhead, hwait, Bool.false_eq_true, if_false]
theorem State.copyStart_cpx_begins {hw : List Word} (hhead : s.cpxHead c cmd mode sc = (s, .ok hw)) :
    s.copyStart c cmd place mode sc 1 = s.modCore c fun k => k.setCopy cmd { cmd.begun place with hdr := hw } := by
  simp only [State.copyStart, hhead]

/-! ## A putt or gett and its peer (R305) -/

theorem State.request_entered (s : State) (c : CoreId) (slot : Nat) (use : ReqUse) (dst : CoreId) (line : Nat) (data : List Nat) (mk : Nat → Instr) :
    ∃ r, (s.request c slot use dst line data mk).1 = (s.modCore c fun k => k.entered r).send c dst (mk (s.core c).nextTag) := ⟨_, rfl⟩
theorem State.core_send (s : State) (src dst c : CoreId) (i : Instr) : (s.send src dst i).core c = s.core c := rfl

/-- A packet that begins a command is on its way under the core's next tag. -/
theorem copyBegan_request {x : CoreId} (line : Nat) (data : List Nat) (mk : Nat → Instr) :
    let t := ((s.modCore c fun k => k.setCopy cmd (cmd.begun place)).request c cmd.slot (.copy place) x line data mk).1
    CopyBegan c cmd place cmd.hdr s t ∧ (t.core c).reqs.has (s.core c).nextTag = true ∧ Sent (mk (s.core c).nextTag) t := by
  intro t
  have hbegun : (s.modCore c fun k => k.setCopy cmd (cmd.begun place)).core c = (s.core c).setCopy cmd (cmd.begun place) := State.core_modCore_same ..
  have htag : ((s.core c).setCopy cmd (cmd.begun place)).nextTag = (s.core c).nextTag := rfl
  obtain ⟨r, hr⟩ := State.request_entered (s.modCore c fun k => k.setCopy cmd (cmd.begun place)) c cmd.slot (.copy place) x line data mk
  rw [hbegun, htag] at hr
  have hcore : t.core c = ((s.core c).setCopy cmd (cmd.begun place)).entered r := by
    rw [show t = _ from hr, State.core_send, State.core_modCore_same, hbegun]
  refine ⟨⟨⟨fun _ => by rw [show t = _ from hr]; rfl, by rw [show t = _ from hr]; rfl⟩, by rw [hcore]; rfl, by rw [hcore]; rfl⟩, ?_, ?_⟩
  · rw [hcore]
    exact SMap.has_set_same ..
  · rw [show t = _ from hr]
    exact State.send_sent ..

/-- A core without outstanding accesses has none at its peer's tile. -/
theorem Core.busyPeer_of_calm {k : Core} (h : k.reqs = []) (ls : List Nat) : k.busyPeer ls = false := by simp [Core.busyPeer, h]

theorem sliceLine_mono (x : CoreId) {a b : Nat} (h : a ≤ b) : sliceLine x a ≤ sliceLine x b := by
  rw [sliceLine, sliceLine, sliceKey, sliceKey]
  omega
/-- An access to one of the lines of a peer's tile is outstanding. -/
theorem State.busyPeer_tileLines {x : CoreId} {i d sb b : Nat} {k : Core} {r : Nat × Req} (hr : r ∈ k.reqs)
    (hbytes : tileBytes ((s.core x).tile i) (s.shapeWords x (tileShape ((s.core x).tile i))) = some (d, sb))
    (hline : (b < d ∧ r.2.line = sliceLine x (tileBase ((s.core x).tile i) + b)) ∨ (b < sb ∧ r.2.line = sliceLine x (tileScales ((s.core x).tile i) + b))) :
    k.busyPeer (s.tileLines x i) = true := by
  have hruns : s.tileLines x i = (if d = 0 then [0, 0] else [sliceLine x (tileBase ((s.core x).tile i)), sliceLine x (tileBase ((s.core x).tile i) + d - 1)])
      ++ if sb = 0 then [0, 0] else [sliceLine x (tileScales ((s.core x).tile i)), sliceLine x (tileScales ((s.core x).tile i) + sb - 1)] := by
    simp only [State.tileLines, hbytes]
  have hpos (a : Nat) : sliceLine x a ≠ 0 := Nat.succ_ne_zero _
  rw [Core.busyPeer, List.any_eq_true]
  refine ⟨r, hr, ?_⟩
  rw [hruns, Bool.and_eq_true, Bool.or_eq_true]
  rcases hline with ⟨hb, hl⟩ | ⟨hb, hl⟩
  · have hd : d ≠ 0 := by omega
    have hlo := sliceLine_mono x (Nat.le_add_right (tileBase ((s.core x).tile i)) b)
    have hhi := sliceLine_mono x (show tileBase ((s.core x).tile i) + b ≤ tileBase ((s.core x).tile i) + d - 1 by omega)
    refine ⟨by simp [hl, hpos], .inl ?_⟩
    rw [if_neg hd, hl]
    simp [hlo, hhi]
  · have hd : sb ≠ 0 := by omega
    have hlo := sliceLine_mono x (Nat.le_add_right (tileScales ((s.core x).tile i)) b)
    have hhi := sliceLine_mono x (show tileScales ((s.core x).tile i) + b ≤ tileScales ((s.core x).tile i) + sb - 1 by omega)
    refine ⟨by simp [hl, hpos], .inl ?_⟩
    rw [if_neg hd, hl]
    split_ifs <;> simp [hlo, hhi]

theorem State.copyStart_peer_nowhere (h : s.sliceOf c cmd.addr = none) : s.copyStart c cmd place mode sc 2 = s.copyFail c cmd mode 0x93 0 := by
  simp only [State.copyStart, h]
theorem State.copyStart_peer_waits {x : CoreId} {off : Nat} (h : s.sliceOf c cmd.addr = some (x, off)) (hx : x ≠ c)
    (hbusy : (s.core c).busyPeer (s.tileLines x (peerTile cmd.instr)) = true) : s.copyStart c cmd place mode sc 2 = s := by
  simp only [State.copyStart, h, if_neg hx, hbusy, if_true]
theorem State.copyStart_peer_asks {x : CoreId} {off : Nat} (h : s.sliceOf c cmd.addr = some (x, off)) (hcalm : (s.core c).reqs = []) : ∃ data,
    s.copyStart c cmd place mode sc 2 = ((s.modCore c fun k => k.setCopy cmd (cmd.begun place)).request c cmd.slot (.copy place) x 0 data
      fun tag => s.peerPacket c (cmd.begun place) x tag).1 := by
  simp only [State.copyStart, h, Core.busyPeer_of_calm hcalm, Bool.false_eq_true, if_false]
  exact ⟨_, rfl⟩

theorem State.copyStart_cp : s.copyStart c cmd place mode sc 0 = s.modCore c fun k => k.setCopy cmd (cmd.begun place) := rfl

/-- A cpx whose header lies in a slice begins or ends with the code of its first check. -/
theorem answers_cpx_start {i : Instr} (hstart : exec i s = .next (s.copyStart c cmd place mode sc 1)) {x : CoreId} {off : Nat} (hcalm : (s.core c).reqs = [])
    (haddr : cmd.addr.toNat % 8 = 0) (hin : InSlice s c cmd.ctx cmd.super cmd.addr 8 x off) :
    let hw := (List.range 8).map (s.sliceWord x off)
    let fails (d : Nat) (a : Word) : Prop := Answers i s fun t => SameMem s t ∧ OnlyCore c s t ∧ CopyFails (s.core c) (t.core c) cmd mode d a
    (thdrOf hw = none → fails 0x6A 0)
    ∧ ∀ h, thdrOf hw = some h →
      let bad := cpxCheck h (tileFmt ((s.core c).tile cmd.tile)) cmd.shape (mode == .inn)
      (∀ d, bad = some d → fails d 0) ∧ (bad = none → h.leaves = true → fails 0x64 h.base)
      ∧ (bad = none → h.leaves = false → Answers i s fun t => OnlyCore c s t ∧ CopyBegan c cmd place hw s t) := by
  intro hw fails
  have hspan := State.spans_of_inSlice (n := 64) rfl haddr hin
  obtain ⟨hmay, -, hsees, -⟩ := hin
  obtain ⟨vs, hread, hvs⟩ := State.copyRead_header (sc := sc) ⟨hmay, hsees, hcalm⟩ haddr hspan
  have hfail {d : Nat} {a : Word} (he : s.cpxHead c cmd mode sc = (s, .error (d, a))) (hwait : isWait d = false) : fails d a :=
    answers_copyFail (hstart.trans (congrArg _ (State.copyStart_cpx_fails he hwait)))
  refine ⟨fun hnone => hfail (State.cpxHead_malformed hread hvs hnone) (by decide), fun h hsome => ⟨fun d hd => ?_, fun hd hleaves => ?_,
    fun hd hleaves => ?_⟩⟩
  · exact hfail (State.cpxHead_refused hread hvs hsome hd) (cpxCheck_isWait hd)
  · exact hfail ((State.cpxHead_passed hread hvs hsome hd).trans (if_pos hleaves)) (by decide)
  · have hok : s.cpxHead c cmd mode sc = (s, .ok hw) :=
      (State.cpxHead_passed hread hvs hsome hd).trans (if_neg (by rw [hleaves]; exact Bool.false_ne_true))
    exact ⟨_, hstart.trans (congrArg _ (State.copyStart_cpx_begins hok)), onlyCore_modCore .., copyBegan_setCopy hw⟩

/-- A putt or gett sends its packet, or waits for an access of its core to its peer's tile. -/
theorem answers_peer_start {i : Instr} (hstart : exec i s = .next (s.copyStart c cmd place mode sc 2)) {x : CoreId} {off : Nat}
    (hslice : s.sliceOf c cmd.addr = some (x, off)) {m : TileMsg} (htile : m.tile = peerTile cmd.instr)
    (hm : s.peerPacket c (cmd.begun place) x (s.core c).nextTag = .tileTransferArrival m) :
    ((s.core c).reqs = [] → Answers i s fun t => CopyBegan c cmd place cmd.hdr s t ∧ (t.core c).reqs.has (s.core c).nextTag = true
        ∧ Sent (.tileTransferArrival m) t)
    ∧ (∀ d sb r b, x ≠ c → tileBytes ((s.core x).tile m.tile) (s.shapeWords x (tileShape ((s.core x).tile m.tile))) = some (d, sb) →
        r ∈ (s.core c).reqs → (b < d ∧ r.2.line = sliceLine x (tileBase ((s.core x).tile m.tile) + b)) ∨ (b < sb ∧ r.2.line = sliceLine x
          (tileScales ((s.core x).tile m.tile) + b)) → Becomes i s s) := by
  refine ⟨fun hcalm => ?_, fun d sb r b hx hbytes hr hline => ?_⟩
  · obtain ⟨data, hasks⟩ := State.copyStart_peer_asks (sc := sc) (place := place) (mode := mode) hslice hcalm
    obtain ⟨hbegan, hreq, hsent⟩ := copyBegan_request (s := s) (c := c) (cmd := cmd) (place := place) (x := x) 0 data
      fun tag => s.peerPacket c (cmd.begun place) x tag
    rw [hm] at hsent
    exact ⟨_, hstart.trans (congrArg _ hasks), hbegan, hreq, hsent⟩
  · have hbusy := State.busyPeer_tileLines hr hbytes hline
    rw [htile] at hbusy
    exact hstart.trans (congrArg _ (State.copyStart_peer_waits hslice hx hbusy))
end

end Sys2Proof.Machine
end

section
/-! SUPPORT. The pieces of a header's tensor read and written in a slice, a tile's elements read and written, and the moves of a cpx between the two in
one format (R125, R217, R218). -/

namespace Sys2Proof.Machine

/-! ## Bits of bytes, and an accumulator's reserved bits (R77) -/

theorem getElem_leBytes (n x j : Nat) (h : j < (leBytes n x).length) : (leBytes n x)[j] = BitVec.ofNat 8 (x / 256 ^ j) := by
  induction n generalizing x j with
  | zero => simp [leBytes] at h
  | succ n ih =>
    cases j with
    | zero => simp [leBytes]
    | succ j =>
      have := ih (x / 256) j (by simpa [leBytes] using h)
      simpa [leBytes, Nat.pow_succ', Nat.div_div_eq_div_mul] using this
theorem getLsbD_leBytes {n x j i : Nat} (h : j < (leBytes n x).length) (hi : i < 8) : ((leBytes n x)[j]).getLsbD i = x.testBit (8 * j + i) := by
  rw [getElem_leBytes, BitVec.getLsbD_ofNat, show 256 = 2 ^ 8 from rfl, ← Nat.pow_mul, ← Nat.shiftRight_eq_div_pow, Nat.testBit_shiftRight]
  simp [hi]
theorem getLsbD_of_leNat {bs : List Byte} {j i : Nat} (h : j < bs.length) (hi : i < 8) : (bs[j]).getLsbD i = (leNat bs).testBit (8 * j + i) := by
  have hlen : j < (leBytes bs.length (leNat bs)).length := by rwa [leBytes_length]
  rw [← getLsbD_leBytes hlen hi]
  simp only [leBytes_leNat]

/-- Byte j of a run as a move of a kind leaves it: 1 an accumulator of an s56 tile, 2 its exponent word. -/
def keptByte (z j : Nat) (y : Byte) : Byte := if z = 1 ∧ j = 7 then y &&& 3 else if z = 2 ∧ 2 ≤ j then 0 else y
/-- The bytes of a run as a move of a kind leaves them. -/
def keptBytes (z : Nat) (bs : List Byte) : List Byte := bs.zipIdx.map fun p => keptByte z p.2 p.1

theorem length_keptBytes (z : Nat) (bs : List Byte) : (keptBytes z bs).length = bs.length := by simp [keptBytes]
theorem getElem_keptBytes (z : Nat) (bs : List Byte) {j : Nat} (h : j < (keptBytes z bs).length) :
    (keptBytes z bs)[j] = keptByte z j (bs[j]'(length_keptBytes z bs ▸ h)) := by simp [keptBytes]
theorem keptBytes_zero (bs : List Byte) : keptBytes 0 bs = bs :=
  List.ext_getElem (length_keptBytes 0 bs) fun j h _ => (getElem_keptBytes 0 bs h).trans (by simp [keptByte])

/-- The low bits of a number of eight bytes are those bytes, cut. -/
theorem leBytes_mod_leNat {bs : List Byte} (hlen : bs.length = 8) {z w : Nat} (hw : z = 1 ∧ w = 58 ∨ z = 2 ∧ w = 16) :
    leBytes 8 (leNat bs % 2 ^ w) = keptBytes z bs := by
  refine List.ext_getElem (by rw [leBytes_length, length_keptBytes, hlen]) fun j h h' => BitVec.eq_of_getLsbD_eq fun i hi => ?_
  have hj : j < bs.length := by rwa [length_keptBytes] at h'
  rw [getLsbD_leBytes h hi, Nat.testBit_mod_two_pow, getElem_keptBytes, ← getLsbD_of_leNat hj hi]
  rw [hlen] at hj
  rcases hw with ⟨rfl, rfl⟩ | ⟨rfl, rfl⟩
  · by_cases h7 : j = 7
    · subst h7
      simp only [keptByte, and_self, if_true, BitVec.getLsbD_and]
      interval_cases i <;> simp
    · simp [keptByte, h7, show 8 * j + i < 58 by omega]
  · by_cases h2 : 2 ≤ j
    · simp [keptByte, h2, show ¬ 8 * j + i < 16 by omega]
    · simp [keptByte, h2, show 8 * j + i < 16 by omega]

/-! ## Pieces of a header's tensor in a slice -/

theorem Spot.sum_sizes {s : State} {c x : CoreId} {a : Word} {n off : Nat} (h : s.Spans c x a n off) : ((spotsOf a n).map Prod.snd).sum = n := by
  have hsum := h.chain.total
  rw [List.map_map] at hsum
  have : ((spotsOf a n).map (Prod.snd ∘ fun p => (addrKey x p.1, p.2))) = (spotsOf a n).map Prod.snd := rfl
  rw [this] at hsum
  omega

section
variable {s : State} {c x : CoreId} {cmd : CopyCmd} {h : THdr} {o : Nat → Nat}

/-- The pieces of a list lie in the slice of core x, each from the offset of its place. -/
def State.SpansAll (s : State) (c x : CoreId) (h : THdr) (o : Nat → Nat) (l : List (Nat × Nat)) : Prop :=
  ∀ p, p ∈ l → s.Spans c x (h.base + BitVec.ofNat 64 p.1) p.2 (o p.1)

theorem State.SpansAll.names {l : List (Nat × Nat)} (hl : s.SpansAll c x h o l) {p : Spot} (hp : p ∈ h.spots l) : s.Names c x p.1 := by
  obtain ⟨q, hq, hpq⟩ := List.mem_flatMap.1 hp
  exact (hl q hq).names hpq
theorem mem_writes {l : List (Nat × Nat)} {vs : List Nat} {p : Spot × Nat} (hp : p ∈ h.writes l vs) : p.1 ∈ h.spots l := mem_spotVals hp

/-- The bytes that a copy command reads at pieces. -/
theorem State.SpansAll.bytes {l : List (Nat × Nat)} (hl : s.SpansAll c x h o l) (m : Memory) :
    spotBytes (h.spots l) ((h.spots l).map fun p => leNat (m.readBytes (addrKey x p.1) p.2)) = (l.map fun p => m.readBytes (sliceKey x (o p.1)) p.2).flatten := by
  induction l with
  | nil => rfl
  | cons p l ih =>
    have hhead := (hl p (List.mem_cons_self ..)).bytes m
    have hrest := ih fun q hq => hl q (List.mem_cons_of_mem _ hq)
    rw [spotBytes_map] at hhead hrest ⊢
    rw [THdr.spots, List.flatMap_cons, List.map_append, List.flatMap_append, hhead, List.map_cons, List.flatten_cons]
    exact congrArg (_ ++ ·) hrest
theorem State.cpxPieces_opens (hopen : s.Opens c x cmd.ctx cmd.super) (sc : Scope) {l : List (Nat × Nat)} (hl : s.SpansAll c x h o l) :
    s.cpxPieces cmd c sc h l = (s, .ok (l.map fun p => leNat (s.mem.readBytes (sliceKey x (o p.1)) p.2))) := by
  have hread := State.copyRead_opens hopen sc s.mem fun p => hl.names (p := p)
  rw [State.withMem_same] at hread
  have hsizes : l.map Prod.snd = (l.map fun p => s.mem.readBytes (sliceKey x (o p.1)) p.2).map List.length := by
    rw [List.map_map]
    exact List.map_congr_left fun p _ => (length_readBytes ..).symm
  rw [State.cpxPieces, hread]
  dsimp only
  rw [hl.bytes, hsizes, cutBytes_flatten, List.map_map]
  rfl

/-- What the values of pieces leave in a slice. -/
theorem State.SpansAll.put {l : List (Nat × Nat)} (hl : s.SpansAll c x h o l) (m : Memory) {vs : List Nat} (hlen : vs.length = l.length) :
    m.putAll ((h.writes l vs).map fun p => (addrKey x p.1.1, leBytes p.1.2 p.2)) =
      m.putAll ((l.zip vs).map fun q => (sliceKey x (o q.1.1), leBytes q.1.2 q.2)) := by
  induction l generalizing m vs with
  | nil => rfl
  | cons p l ih =>
    obtain ⟨v, vs, rfl⟩ := List.exists_cons_of_length_eq_add_one (hlen.trans List.length_cons)
    have hp := hl p (List.mem_cons_self ..)
    have hhead := hp.put m (leBytes_length p.2 v)
    have hrest := ih (fun q hq => hl q (List.mem_cons_of_mem _ hq)) (m.writeBytes (sliceKey x (o p.1)) (leBytes p.2 v)) (Nat.succ.inj hlen)
    have hsplit : h.writes (p :: l) (v :: vs) = spotVals (spotsOf (h.base + BitVec.ofNat 64 p.1) p.2) (leBytes p.2 v) ++ h.writes l vs := by
      rw [THdr.writes, List.zip_cons_cons, List.flatMap_cons]
      exact spotVals_append _ _ (by rw [leBytes_length, Spot.sum_sizes hp]) _
    rw [hsplit, List.map_append, Memory.putAll_append, hhead, hrest, List.zip_cons_cons, List.map_cons, Memory.putAll_cons]

/-- Values of data and scale pieces written to a slice. -/
theorem State.copyWrite_pieces (hopen : s.Opens c x cmd.ctx cmd.super) (sc : Scope) {l l' : List (Nat × Nat)} (hl : s.SpansAll c x h o l)
    (hl' : s.SpansAll c x h o l') {vs vs' : List Nat} (hlen : vs.length = l.length) (hlen' : vs'.length = l'.length) :
    s.copyWrite cmd c sc (h.writes l vs ++ h.writes l' vs') = (s.withMem (s.mem.putAll ((l.zip vs).map (fun q => (sliceKey x (o q.1.1), leBytes q.1.2 q.2))
      ++ (l'.zip vs').map fun q => (sliceKey x (o q.1.1), leBytes q.1.2 q.2))), .ok ()) := by
  have hnames : ∀ p, p ∈ h.writes l vs ++ h.writes l' vs' → s.Names c x p.1.1 := fun p hp =>
    (List.mem_append.1 hp).elim (fun hp => hl.names (mem_writes hp)) fun hp => hl'.names (mem_writes hp)
  have hwrite := State.copyWrite_opens hopen sc s.mem hnames
  rw [State.withMem_same] at hwrite
  rw [hwrite, List.map_append, Memory.putAll_append, hl.put _ hlen, hl'.put _ hlen', Memory.putAll_append]
end

/-! ## Writes of a fold -/

theorem State.foldl_putAll {β : Type} (s : State) (step : State → β → State) (g : β → List (Nat × List Byte))
    (hstep : ∀ m b, step (s.withMem m) b = s.withMem (m.putAll (g b))) (l : List β) (m : Memory) :
    l.foldl step (s.withMem m) = s.withMem (m.putAll (l.flatMap g)) := by
  induction l generalizing m with
  | nil => rfl
  | cons b l ih => rw [List.foldl_cons, hstep, ih, List.flatMap_cons, Memory.putAll_append]
theorem State.foldl_putOne {β : Type} (s : State) (step : State → β → State) (g : β → Nat × List Byte)
    (hstep : ∀ m b, step (s.withMem m) b = s.withMem (m.writeBytes (g b).1 (g b).2)) (l : List β) (m : Memory) :
    l.foldl step (s.withMem m) = s.withMem (m.putAll (l.map g)) := by
  rw [State.foldl_putAll s step (fun b => [g b]) fun m b => hstep m b, List.map_eq_flatMap]
theorem zipIdx_map_range {α : Type} (F : Nat → α) (n : Nat) : ((List.range n).map F).zipIdx = (List.range n).map fun i => (F i, i) := by
  apply List.ext_getElem <;> simp
theorem State.swrite_withMem (s : State) (m : Memory) (c : CoreId) (off n v : Nat) :
    (s.withMem m).swrite c off n v = s.withMem (m.writeBytes (sliceKey c off) (leBytes n v)) := rfl

/-! ## Moves -/

/-- A run moved: its place in the tile, its place from BASE in memory, its bytes, and its kind. -/
abbrev CopyMove := Nat × Nat × Nat × Nat
/-- What a move writes. -/
def Memory.moved (m : Memory) (dst src : CopyMove → Nat) (p : CopyMove) : Nat × List Byte := (dst p, keptBytes p.2.2.2 (m.readBytes (src p) p.2.2.1))

section
variable {m : Memory} (hm : m.wf = true) {dst src : CopyMove → Nat} {moves : List CopyMove} {L : List (Nat × List Byte)}
  (hperm : L.Perm (moves.map (m.moved dst src)))

theorem Memory.length_moved (p : CopyMove) : (m.moved dst src p).2.length = p.2.2.1 := (length_keptBytes ..).trans (length_readBytes ..)
theorem Memory.getElem_moved (p : CopyMove) {j : Nat} (h : j < (m.moved dst src p).2.length) :
    (m.moved dst src p).2[j] = keptByte p.2.2.2 j (m.read (src p + j)) := by
  simp only [Memory.moved, getElem_keptBytes, Memory.getElem_readBytes]

include hm hperm
/-- A byte that a move writes stands where no move that may come later meets its run. -/
theorem Memory.read_moves {l r : List CopyMove} {p : CopyMove} (hmoves : moves = l ++ p :: r) {free : Bool} (hseq : free = false → L = moves.map (m.moved dst src))
    (hr : ∀ q, q ∈ r → dst q + q.2.2.1 ≤ dst p ∨ dst p + p.2.2.1 ≤ dst q)
    (hl : free = true → ∀ q, q ∈ l → dst q + q.2.2.1 ≤ dst p ∨ dst p + p.2.2.1 ≤ dst q) {j : Nat} (hj : j < p.2.2.1) :
    (m.putAll L).read (dst p + j) = keptByte p.2.2.2 j (m.read (src p + j)) := by
  have hlen : j < (m.moved dst src p).2.length := by rwa [Memory.length_moved]
  have hapart {y : List CopyMove} (hy : ∀ q, q ∈ y → dst q + q.2.2.1 ≤ dst p ∨ dst p + p.2.2.1 ≤ dst q) :
      ∀ q, q ∈ y.map (m.moved dst src) → q.1 + q.2.length ≤ (m.moved dst src p).1 ∨ (m.moved dst src p).1 + (m.moved dst src p).2.length ≤ q.1 := by
    intro q hq
    obtain ⟨z, hz, rfl⟩ := List.mem_map.1 hq
    rw [Memory.length_moved, Memory.length_moved]
    exact hy z hz
  rw [← Memory.getElem_moved p hlen]
  rw [hmoves, List.map_append, List.map_cons] at hperm hseq
  cases free with
  | false =>
    rw [hseq rfl]
    exact Memory.read_putAll_of_last hm (hapart hr) hlen
  | true =>
    refine Memory.read_putAll_of_perm (r := (l ++ r).map (m.moved dst src)) hm (hperm.trans ?_) (hapart fun q hq => ?_) hlen
    · rw [List.map_append]
      exact List.perm_middle
    · exact (List.mem_append.1 hq).elim (hl rfl q) (hr q)
omit hm in
/-- A byte that no move writes stays. -/
theorem Memory.read_moves_of_outside {b : Nat} (h : ∀ p, p ∈ moves → b < dst p ∨ dst p + p.2.2.1 ≤ b) : (m.putAll L).read b = m.read b := by
  refine Memory.read_putAll_of_outside m fun q hq => ?_
  obtain ⟨p, hp, rfl⟩ := List.mem_map.1 (hperm.subset hq)
  rw [Memory.length_moved]
  exact h p hp
end

end Sys2Proof.Machine
end

section
/-! SUPPORT. What a cpx in one format moves: blocks of planes, accumulators, and packed elements of whole bytes (R125, R217, R219). -/

namespace Sys2Proof.Machine

/-! ## The moves -/

/-- The number of a block of a header's tensor. -/
def THdr.blockAt (h : THdr) (b : Nat) : Nat := b % (h.k / 32) + b / (h.k / 32) * h.str.getD 1 0
/-- The two moves of a block of planes: its words and its scale code. -/
def THdr.planeMoves (h : THdr) (w : Word) : List CopyMove :=
  (List.range (h.o * (h.k / 32))).flatMap fun b =>
    [(tileBase w + b * blockBytes (tileFmt w), h.blockAt b * blockBytes (tileFmt w), blockBytes (tileFmt w), 0),
      (tileScales w + b, h.soff + h.blockAt b, 1, 0)]
/-- The moves of 256 accumulators and their exponent word. -/
def THdr.accMoves (h : THdr) (w : Word) : List CopyMove :=
  ((List.range 256).map fun m => (tileBase w + 8 * m, 8 * h.off m, 8, 1)) ++ [(tileScales w, h.soff, 8, 2)]
/-- The moves of packed elements. -/
def THdr.elemMoves (h : THdr) (w : Word) (sh : Shape) : List CopyMove :=
  (List.range h.count).map fun m =>
    ((sh.place (tileBase w) m (fmtBits (tileFmt w) / 8)).2, h.off m * (fmtBits (tileFmt w) / 8), fmtBits (tileFmt w) / 8, 0)

/-- Elements of a plane tensor: its extents have rank 2. -/
theorem thdrOf_plane_count {hw : List Word} {h : THdr} (hh : thdrOf hw = some h) (hp : isPlane h.fmt = true) : h.count = h.o * h.k := by
  obtain ⟨rfl, hgood⟩ := eq_hdrOf_of_thdrOf hh
  have hrank : hdrRank hw = 2 := by
    by_contra hne
    exact hgood (.inr (.inr (.inr (.inr ⟨hp, hne⟩))))
  have hone {d : Nat} (hd : 2 ≤ d) : hdrExt hw d = 1 := if_pos (by rwa [hrank])
  rw [hdrOf_count, hdrOf_k, hdrOf_o]
  have hprod : (List.range 8).foldl (fun n d => n * hdrExt hw d) 1 = hdrExt hw 0 * hdrExt hw 1 := by
    simp [List.range_succ, hone]
  rw [hprod]
  cases (hdrOf hw).kd
  · exact Nat.mul_comm ..
  · rfl

/-! ## Pieces -/

section
variable {h : THdr}

theorem THdr.pieces_plane (hp : isPlane h.fmt = true) : h.pieces = (List.range (h.o * (h.k / 32))).map fun b =>
    (h.blockAt b * blockBytes h.fmt, blockBytes h.fmt) := by rw [THdr.pieces, if_pos hp, map_blocksOf]; rfl
theorem THdr.scales_plane (hp : isPlane h.fmt = true) (hs : h.soff ≠ 0) : h.scales = (List.range (h.o * (h.k / 32))).map fun b =>
    (h.soff + h.blockAt b, 1) := by rw [THdr.scales, if_neg hs, if_pos hp, map_blocksOf]; rfl
theorem THdr.pieces_elems (hp : isPlane h.fmt = false) (h11 : h.fmt ≠ 11) : h.pieces = (List.range h.count).map fun m =>
    (h.off m * (fmtBits h.fmt / 8), fmtBits h.fmt / 8) := by rw [THdr.pieces, hp, if_neg Bool.false_ne_true, if_neg h11]
theorem THdr.pieces_acc (h13 : h.fmt = 13) (hcount : h.count = 256) : h.pieces = (List.range 256).map fun m => (8 * h.off m, 8) := by
  have hp : isPlane h.fmt = false := by rw [h13]; rfl
  rw [THdr.pieces_elems hp (by rw [h13]; decide), hcount, h13]
  exact List.map_congr_left fun m _ => by rw [Nat.mul_comm]; rfl
theorem THdr.scales_acc (h13 : h.fmt = 13) (hs : h.soff ≠ 0) : h.scales = [(h.soff, 8)] := by
  rw [THdr.scales, if_neg hs, h13]; rfl
theorem THdr.scales_elems (hp : isPlane h.fmt = false) (h13 : h.fmt ≠ 13) : h.scales = [] := by
  rw [THdr.scales, hp, if_neg Bool.false_ne_true, if_neg h13, ite_self]
end

/-! ## Contents read and written -/

section
variable {s : State} {c x : CoreId} {cmd : CopyCmd} {h : THdr} {o : Nat → Nat} {sc : Scope}

/-- A number of n bytes of a slice. -/
def State.rdAt (s : State) (x : CoreId) (o : Nat → Nat) (p : Nat × Nat) : Nat := leNat (s.mem.readBytes (sliceKey x (o p.1)) p.2)
theorem leBytes_rdAt (s : State) (x : CoreId) (o : Nat → Nat) (p : Nat × Nat) : leBytes p.2 (s.rdAt x o p) = s.mem.readBytes (sliceKey x (o p.1)) p.2 :=
  leBytes_leNat_of_length (length_readBytes ..)
theorem leBytes_sread (s : State) (c : CoreId) (off n : Nat) : leBytes n (s.sread c off n) = s.mem.readBytes (sliceKey c off) n :=
  leBytes_leNat_of_length (length_readBytes ..)

section
variable (hopen : s.Opens c x cmd.ctx cmd.super) (hpieces : s.SpansAll c x h o h.pieces) (hscales : s.SpansAll c x h o h.scales)
include hopen hpieces hscales

theorem State.cpxLoad_plane (hp : isPlane h.fmt = true) (hs : h.soff ≠ 0) : s.cpxLoad cmd c sc h =
    (s, .ok (.blocks ((List.range (h.o * (h.k / 32))).map fun b =>
      (s.rdAt x o (h.blockAt b * blockBytes h.fmt, blockBytes h.fmt), s.rdAt x o (h.soff + h.blockAt b, 1))))) := by
  rw [State.cpxLoad, State.cpxPieces_opens hopen sc hpieces]
  dsimp only
  rw [State.cpxPieces_opens hopen sc hscales]
  simp only [hp, if_true, if_neg hs, THdr.pieces_plane hp, THdr.scales_plane hp hs, List.map_map, zipIdx_map_range]
  refine congrArg (fun l => (s, Except.ok (Content.blocks l))) (List.map_congr_left fun b hb => ?_)
  refine Prod.ext rfl ?_
  exact getD_map_range _ (List.mem_range.1 hb) 0
theorem State.cpxLoad_acc (h13 : h.fmt = 13) (hcount : h.count = 256) (hs : h.soff ≠ 0) : s.cpxLoad cmd c sc h =
    (s, .ok (.elems ((List.range 256).map fun m => s.rdAt x o (8 * h.off m, 8)) (s.rdAt x o (h.soff, 8)))) := by
  rw [State.cpxLoad, State.cpxPieces_opens hopen sc hpieces]
  dsimp only
  rw [State.cpxPieces_opens hopen sc hscales, THdr.pieces_acc h13 hcount, THdr.scales_acc h13 hs, List.map_map, h13]
  rfl
theorem State.cpxLoad_elems (hp : isPlane h.fmt = false) (h11 : h.fmt ≠ 11) (h13 : h.fmt ≠ 13) : s.cpxLoad cmd c sc h =
    (s, .ok (.elems ((List.range h.count).map fun m => s.rdAt x o (h.off m * (fmtBits h.fmt / 8), fmtBits h.fmt / 8)) 0)) := by
  rw [State.cpxLoad, State.cpxPieces_opens hopen sc hpieces]
  dsimp only
  rw [State.cpxPieces_opens hopen sc hscales, THdr.pieces_elems hp h11, THdr.scales_elems hp h13, List.map_map, hp]
  dsimp only
  rw [if_neg Bool.false_ne_true, if_neg h11]
  rfl

theorem State.cpxStore_blocks (hp : isPlane h.fmt = true) (hs : h.soff ≠ 0) (A B : Nat → Nat) :
    s.cpxStore cmd c sc h (.blocks ((List.range (h.o * (h.k / 32))).map fun b => (A b, B b))) =
      (s.withMem (s.mem.putAll (((List.range (h.o * (h.k / 32))).map fun b =>
          (sliceKey x (o (h.blockAt b * blockBytes h.fmt)), leBytes (blockBytes h.fmt) (A b)))
        ++ (List.range (h.o * (h.k / 32))).map fun b => (sliceKey x (o (h.soff + h.blockAt b)), leBytes 1 (B b)))), .ok ()) := by
  have hwrite := State.copyWrite_pieces hopen sc hpieces hscales (vs := (List.range (h.o * (h.k / 32))).map A) (vs' := (List.range (h.o * (h.k / 32))).map B)
    (by simp [THdr.pieces_plane hp]) (by simp [THdr.scales_plane hp hs])
  rw [State.cpxStore, List.map_map, List.map_map]
  refine hwrite.trans ?_
  rw [THdr.pieces_plane hp, THdr.scales_plane hp hs, List.zip_map', List.zip_map', List.map_map, List.map_map]
  rfl
theorem State.cpxStore_acc (h13 : h.fmt = 13) (hcount : h.count = 256) (hs : h.soff ≠ 0) (A : Nat → Nat) (e : Nat) :
    s.cpxStore cmd c sc h (.elems ((List.range 256).map A) e) = (s.withMem (s.mem.putAll
      (((List.range 256).map fun m => (sliceKey x (o (8 * h.off m)), leBytes 8 (A m))) ++ [(sliceKey x (o h.soff), leBytes 8 e)])), .ok ()) := by
  have hwrite := State.copyWrite_pieces hopen sc hpieces hscales (vs := (List.range 256).map A) (vs' := [e])
    (by simp [THdr.pieces_acc h13 hcount]) (by simp [THdr.scales_acc h13 hs])
  rw [State.cpxStore]
  rw [if_neg (by rw [h13]; decide)]
  refine hwrite.trans ?_
  rw [THdr.pieces_acc h13 hcount, THdr.scales_acc h13 hs, List.zip_map', List.map_map]
  rfl
theorem State.cpxStore_elems (hp : isPlane h.fmt = false) (h11 : h.fmt ≠ 11) (h13 : h.fmt ≠ 13) (A : Nat → Nat) (e : Nat) :
    s.cpxStore cmd c sc h (.elems ((List.range h.count).map A) e) = (s.withMem (s.mem.putAll
      ((List.range h.count).map fun m => (sliceKey x (o (h.off m * (fmtBits h.fmt / 8))), leBytes (fmtBits h.fmt / 8) (A m)))), .ok ()) := by
  have hwrite := State.copyWrite_pieces hopen sc hpieces hscales (vs := (List.range h.count).map A) (vs' := [])
    (by simp [THdr.pieces_elems hp h11]) (by simp [THdr.scales_elems hp h13])
  rw [State.cpxStore]
  rw [if_neg h11]
  rw [THdr.scales_elems hp h13] at hwrite ⊢
  refine Eq.trans ?_ (hwrite.trans ?_)
  · rfl
  · rw [THdr.pieces_elems hp h11, List.zip_map', List.map_map]
    simp only [List.zip_nil_left, List.map_nil, List.append_nil]
    rfl
end

/-! ## A tile's contents -/

section
variable {w : Word} {ws : List Word} {sh : Shape}

theorem State.tileLoad_plane (hp : isPlane (tileFmt w) = true) (hsh : shapeOf ws = some sh) : s.tileLoad c w ws =
    .blocks ((List.range (sh.count / 32)).map fun b =>
      (s.sread c (tileBase w + b * blockBytes (tileFmt w)) (blockBytes (tileFmt w)), s.sread c (tileScales w + b) 1)) := by
  simp only [State.tileLoad, hp, if_true, hsh]
theorem State.tileLoad_acc (h13 : tileFmt w = 13) : s.tileLoad c w ws =
    .elems ((List.range 256).map fun m => s.sread c (tileBase w + 8 * m) 8) (s.sread c (tileScales w) 8) := by
  have hp : isPlane (tileFmt w) = false := by rw [h13]; rfl
  simp only [State.tileLoad, hp, Bool.false_eq_true, if_false, if_pos h13]
theorem State.tileLoad_elems (hp : isPlane (tileFmt w) = false) (h11 : tileFmt w ≠ 11) (h13 : tileFmt w ≠ 13) (hsh : shapeOf ws = some sh)
    (hsplit : sh.split = false) : s.tileLoad c w ws = .elems ((List.range sh.count).map fun m =>
      s.sread c (sh.place (tileBase w) m (fmtBits (tileFmt w) / 8)).2 (fmtBits (tileFmt w) / 8)) 0 := by
  have hnear (b m n : Nat) : (sh.place b m n).1 = false := by simp [Shape.place, hsplit]
  simp only [State.tileLoad, hp, Bool.false_eq_true, if_false, if_neg h13, hsh, if_neg h11, hnear]

theorem State.tileStore_blocks (s : State) (c : CoreId) (w : Word) (ws : List Word) (A B : Nat → Nat) (n : Nat) :
    s.tileStore c w ws (.blocks ((List.range n).map fun b => (A b, B b))) = s.withMem (s.mem.putAll ((List.range n).flatMap fun b =>
      [(sliceKey c (tileBase w + b * blockBytes (tileFmt w)), leBytes (blockBytes (tileFmt w)) (A b)), (sliceKey c (tileScales w + b), leBytes 1 (B b))])) := by
  rw [State.tileStore, zipIdx_map_range, List.foldl_map]
  exact State.foldl_putAll s _ (fun b => [(sliceKey c (tileBase w + b * blockBytes (tileFmt w)), leBytes (blockBytes (tileFmt w)) (A b)),
    (sliceKey c (tileScales w + b), leBytes 1 (B b))]) (fun m b => rfl) _ s.mem
theorem State.tileStore_acc (h13 : tileFmt w = 13) (A : Nat → Nat) (e : Nat) : s.tileStore c w ws (.elems ((List.range 256).map A) e) =
    s.withMem (s.mem.putAll (((List.range 256).map fun m => (sliceKey c (tileBase w + 8 * m), leBytes 8 (A m)))
      ++ [(sliceKey c (tileScales w), leBytes 8 e)])) := by
  rw [State.tileStore]
  dsimp only
  rw [if_pos h13, zipIdx_map_range, List.foldl_map]
  have hfold := State.foldl_putOne s (fun u m => u.swrite c (tileBase w + 8 * m) 8 (A m)) (fun m => (sliceKey c (tileBase w + 8 * m), leBytes 8 (A m)))
    (fun m b => rfl) (List.range 256) s.mem
  rw [State.withMem_same] at hfold
  rw [hfold, State.swrite_withMem, Memory.putAll_append, Memory.putAll_singleton]
theorem State.tileStore_elems (h11 : tileFmt w ≠ 11) (h13 : tileFmt w ≠ 13) (hsh : shapeOf ws = some sh)
    (hsplit : sh.split = false) (A : Nat → Nat) (e n : Nat) : s.tileStore c w ws (.elems ((List.range n).map A) e) =
      s.withMem (s.mem.putAll ((List.range n).map fun m =>
        (sliceKey c (sh.place (tileBase w) m (fmtBits (tileFmt w) / 8)).2, leBytes (fmtBits (tileFmt w) / 8) (A m)))) := by
  have hnear (b m n : Nat) : (sh.place b m n).1 = false := by simp [Shape.place, hsplit]
  rw [State.tileStore]
  dsimp only
  rw [if_neg h13, zipIdx_map_range, hsh]
  dsimp only
  simp only [if_neg h11, hnear, Bool.false_eq_true, if_false]
  rw [List.foldl_map]
  exact State.foldl_putOne s (fun u m => u.swrite c (sh.place (tileBase w) m (fmtBits (tileFmt w) / 8)).2 (fmtBits (tileFmt w) / 8) (A m)) _
    (fun m b => rfl) (List.range n) s.mem
end
end

end Sys2Proof.Machine
end

section
/-! SUPPORT. A cpx between a tile and a slice in one format makes its moves, inward in their order and outward the data before the scale codes (R218,
R219). -/

namespace Sys2Proof.Machine

/-- The key that a move writes. -/
def moveDst (c x : CoreId) (o : Nat → Nat) (mode : CopyMode) (p : CopyMove) : Nat := if mode = .inn then sliceKey c p.1 else sliceKey x (o p.2.1)
/-- The key that a move reads. -/
def moveSrc (c x : CoreId) (o : Nat → Nat) (mode : CopyMode) (p : CopyMove) : Nat := if mode = .inn then sliceKey x (o p.2.1) else sliceKey c p.1

theorem convert_same (f e0 : Nat) (kd : Bool) (o nb : Nat) (ct : Content) : convert f f e0 kd o nb ct = (ct.clean f, 0) := if_pos rfl

section
variable {s : State} {c x : CoreId} {cmd : CopyCmd} {h : THdr} {o : Nat → Nat} {sc : Scope} {mode : CopyMode}

/-- A cpx's moves change memory as they say; free: in whatever order. -/
def State.CpxMoves (s : State) (c : CoreId) (cmd : CopyCmd) (mode : CopyMode) (sc : Scope) (dst src : CopyMove → Nat) (moves : List CopyMove)
    (free : Bool) : Prop :=
  ∃ L : List (Nat × List Byte), L.Perm (moves.map (s.mem.moved dst src)) ∧ (free = false → L = moves.map (s.mem.moved dst src))
    ∧ s.cpxMove c cmd mode sc = ((s.withMem (s.mem.putAll L)).cmdFlags c cmd.slot 0, .ok ())

/-- Every move's place in memory lies in the slice of core x. -/
def State.MovesLie (s : State) (c x : CoreId) (h : THdr) (o : Nat → Nat) (moves : List CopyMove) : Prop :=
  ∀ p, p ∈ moves → s.Spans c x (h.base + BitVec.ofNat 64 p.2.1) p.2.2.1 (o p.2.1)

theorem State.MovesLie.spansAll {moves : List CopyMove} (hlie : s.MovesLie c x h o moves) {l : List (Nat × Nat)}
    (hl : ∀ q, q ∈ l → ∃ p, p ∈ moves ∧ (p.2.1, p.2.2.1) = q) : s.SpansAll c x h o l := fun q hq => by
  obtain ⟨p, hp, rfl⟩ := hl q hq
  exact hlie p hp

variable (hthdr : thdrOf cmd.hdr = some h) (hfmt : h.fmt = tileFmt ((s.core c).tile cmd.tile)) (hopen : s.Opens c x cmd.ctx cmd.super)
  (hfar : s.cpxFar cmd c ((s.core c).tile cmd.tile) = none)
include hthdr hfmt hfar

/-- Inward: what is read is put into the tile. -/
theorem State.cpxMove_inn_same {ct : Content} {L : List (Nat × List Byte)} (hload : s.cpxLoad cmd c sc h = (s, .ok ct))
    (hstore : s.tileStore c ((s.core c).tile cmd.tile) cmd.shape (ct.clean (tileFmt ((s.core c).tile cmd.tile))) = s.withMem (s.mem.putAll L)) :
    s.cpxMove c cmd .inn sc = ((s.withMem (s.mem.putAll L)).cmdFlags c cmd.slot 0, .ok ()) := by
  have hmove := State.cpxMove_inn hthdr hfar hload
  dsimp only at hmove
  rw [hfmt, convert_same] at hmove
  rw [hmove, hstore]
/-- Outward: what the tile holds is written. -/
theorem State.cpxMove_out_same {ct : Content} {L : List (Nat × List Byte)} (hmode : mode ≠ .inn)
    (hload : s.tileLoad c ((s.core c).tile cmd.tile) cmd.shape = ct)
    (hstore : s.cpxStore cmd c sc h (ct.clean (tileFmt ((s.core c).tile cmd.tile))) = (s.withMem (s.mem.putAll L), .ok ())) :
    s.cpxMove c cmd mode sc = ((s.withMem (s.mem.putAll L)).cmdFlags c cmd.slot 0, .ok ()) := by
  have hmove := State.cpxMove_out (sc := sc) (u := s.withMem (s.mem.putAll L)) hmode hthdr hfar
  dsimp only at hmove
  rw [hfmt, convert_same, hload] at hmove
  exact hmove hstore

include hopen

/-- Blocks of planes. -/
theorem State.cpxMoves_plane (hp : isPlane (tileFmt ((s.core c).tile cmd.tile)) = true) (hs : h.soff ≠ 0) (hk : h.k % 32 = 0) {sh : Shape}
    (hsh : shapeOf cmd.shape = some sh) (hcount : sh.count = h.count) (hlie : s.MovesLie c x h o (h.planeMoves ((s.core c).tile cmd.tile))) :
    s.CpxMoves c cmd mode sc (moveDst c x o mode) (moveSrc c x o mode) (h.planeMoves ((s.core c).tile cmd.tile)) true := by
  generalize hw : (s.core c).tile cmd.tile = w at *
  have hp' : isPlane h.fmt = true := by rw [hfmt, hp]
  have hpieces : s.SpansAll c x h o h.pieces := hlie.spansAll fun q hq => by
    rw [THdr.pieces_plane hp', List.mem_map] at hq
    obtain ⟨b, hb, rfl⟩ := hq
    exact ⟨_, List.mem_flatMap.2 ⟨b, hb, List.mem_cons_self ..⟩, by rw [hfmt]⟩
  have hscales : s.SpansAll c x h o h.scales := hlie.spansAll fun q hq => by
    rw [THdr.scales_plane hp' hs, List.mem_map] at hq
    obtain ⟨b, hb, rfl⟩ := hq
    exact ⟨_, List.mem_flatMap.2 ⟨b, hb, List.mem_cons_of_mem _ (List.mem_cons_self ..)⟩, rfl⟩
  by_cases hmode : mode = .inn
  · subst hmode
    have hL : (h.planeMoves w).map (s.mem.moved (moveDst c x o .inn) (moveSrc c x o .inn)) = (List.range (h.o * (h.k / 32))).flatMap fun b =>
        [(sliceKey c (tileBase w + b * blockBytes (tileFmt w)), leBytes (blockBytes (tileFmt w))
            (s.rdAt x o (h.blockAt b * blockBytes h.fmt, blockBytes h.fmt))),
          (sliceKey c (tileScales w + b), leBytes 1 (s.rdAt x o (h.soff + h.blockAt b, 1)))] := by
      rw [THdr.planeMoves, List.map_flatMap]
      refine List.flatMap_congr fun b _ => ?_
      rw [hfmt]
      simp only [List.map_cons, List.map_nil, Memory.moved, keptBytes_zero]
      rw [leBytes_rdAt s x o (h.blockAt b * blockBytes (tileFmt w), blockBytes (tileFmt w)), leBytes_rdAt s x o (h.soff + h.blockAt b, 1)]
      simp [moveDst, moveSrc]
    refine ⟨_, List.Perm.refl _, fun _ => rfl, ?_⟩
    subst hw
    rw [hL]
    exact State.cpxMove_inn_same hthdr hfmt hfar (State.cpxLoad_plane hopen hpieces hscales hp' hs) (State.tileStore_blocks ..)
  · have hblocks : sh.count / 32 = h.o * (h.k / 32) := by
      rw [hcount, thdrOf_plane_count hthdr hp', Nat.mul_div_assoc _ (Nat.dvd_of_mod_eq_zero hk)]
    have hstore := State.cpxStore_blocks (sc := sc) hopen hpieces hscales hp' hs
      (fun b => s.sread c (tileBase w + b * blockBytes (tileFmt w)) (blockBytes (tileFmt w))) fun b => s.sread c (tileScales w + b) 1
    have hload := State.tileLoad_plane (s := s) (c := c) hp hsh
    rw [hblocks] at hload
    subst hw
    refine ⟨_, ?_, (nomatch ·), State.cpxMove_out_same hthdr hfmt hfar hmode hload hstore⟩
    rw [THdr.planeMoves, List.map_flatMap, List.map_eq_flatMap, List.map_eq_flatMap]
    refine (List.flatMap_append_perm _ _ _).trans (List.Perm.of_eq (List.flatMap_congr fun b _ => ?_))
    rw [hfmt]
    simp only [List.map_cons, List.map_nil, Memory.moved, keptBytes_zero, leBytes_sread]
    simp [moveDst, moveSrc, hmode]

/-- Accumulators and their exponent word. -/
theorem State.cpxMoves_acc (h13 : tileFmt ((s.core c).tile cmd.tile) = 13) (hcount : h.count = 256) (hs : h.soff ≠ 0)
    (hlie : s.MovesLie c x h o (h.accMoves ((s.core c).tile cmd.tile))) :
    s.CpxMoves c cmd mode sc (moveDst c x o mode) (moveSrc c x o mode) (h.accMoves ((s.core c).tile cmd.tile)) false := by
  generalize hw : (s.core c).tile cmd.tile = w at *
  have h13' : h.fmt = 13 := hfmt.trans h13
  have hpieces : s.SpansAll c x h o h.pieces := hlie.spansAll fun q hq => by
    rw [THdr.pieces_acc h13' hcount, List.mem_map] at hq
    obtain ⟨m, hm, rfl⟩ := hq
    exact ⟨_, List.mem_append_left _ (List.mem_map.2 ⟨m, hm, rfl⟩), rfl⟩
  have hscales : s.SpansAll c x h o h.scales := hlie.spansAll fun q hq => by
    rw [THdr.scales_acc h13' hs, List.mem_singleton] at hq
    exact ⟨_, List.mem_append_right _ (List.mem_singleton_self _), hq.symm⟩
  have hacc (k : Nat) : leBytes 8 (leNat (s.mem.readBytes k 8) % 2 ^ 58) = keptBytes 1 (s.mem.readBytes k 8) :=
    leBytes_mod_leNat (length_readBytes ..) (.inl ⟨rfl, rfl⟩)
  have hexp (k : Nat) : leBytes 8 (leNat (s.mem.readBytes k 8) % 2 ^ 16) = keptBytes 2 (s.mem.readBytes k 8) :=
    leBytes_mod_leNat (length_readBytes ..) (.inr ⟨rfl, rfl⟩)
  have hclean (A : Nat → Nat) (e : Nat) : (Content.elems ((List.range 256).map A) e).clean (tileFmt w) =
      .elems ((List.range 256).map fun m => A m % 2 ^ 58) (e % 2 ^ 16) := by
    rw [Content.clean, if_pos h13, List.map_map]; rfl
  refine ⟨_, List.Perm.refl _, fun _ => rfl, ?_⟩
  by_cases hmode : mode = .inn
  · subst hmode
    have hL : (h.accMoves w).map (s.mem.moved (moveDst c x o .inn) (moveSrc c x o .inn)) =
        ((List.range 256).map fun m => (sliceKey c (tileBase w + 8 * m), leBytes 8 (s.rdAt x o (8 * h.off m, 8) % 2 ^ 58)))
          ++ [(sliceKey c (tileScales w), leBytes 8 (s.rdAt x o (h.soff, 8) % 2 ^ 16))] := by
      rw [THdr.accMoves, List.map_append, List.map_map]
      simp only [State.rdAt, hacc, hexp]
      rfl
    subst hw
    rw [hL]
    exact State.cpxMove_inn_same hthdr hfmt hfar (State.cpxLoad_acc hopen hpieces hscales h13' hcount hs)
      ((congrArg _ (hclean _ _)).trans (State.tileStore_acc h13 _ _))
  · have hL : (h.accMoves w).map (s.mem.moved (moveDst c x o mode) (moveSrc c x o mode)) =
        ((List.range 256).map fun m => (sliceKey x (o (8 * h.off m)), leBytes 8 (s.sread c (tileBase w + 8 * m) 8 % 2 ^ 58)))
          ++ [(sliceKey x (o h.soff), leBytes 8 (s.sread c (tileScales w) 8 % 2 ^ 16))] := by
      rw [THdr.accMoves, List.map_append, List.map_map]
      simp only [State.sread, State.readN, hacc, hexp]
      simp [Memory.moved, moveDst, moveSrc, hmode]
    subst hw
    rw [hL]
    exact State.cpxMove_out_same hthdr hfmt hfar hmode (State.tileLoad_acc h13)
      ((congrArg _ (hclean _ _)).trans (State.cpxStore_acc hopen hpieces hscales h13' hcount hs _ _))

/-- Packed elements of whole bytes. -/
theorem State.cpxMoves_elems (hp : isPlane (tileFmt ((s.core c).tile cmd.tile)) = false) (h11 : tileFmt ((s.core c).tile cmd.tile) ≠ 11)
    (h13 : tileFmt ((s.core c).tile cmd.tile) ≠ 13) {sh : Shape} (hsh : shapeOf cmd.shape = some sh) (hsplit : sh.split = false)
    (hcount : sh.count = h.count) (hlie : s.MovesLie c x h o (h.elemMoves ((s.core c).tile cmd.tile) sh)) :
    s.CpxMoves c cmd mode sc (moveDst c x o mode) (moveSrc c x o mode) (h.elemMoves ((s.core c).tile cmd.tile) sh) false := by
  generalize hw : (s.core c).tile cmd.tile = w at *
  have hp' : isPlane h.fmt = false := by rw [hfmt, hp]
  have h11' : h.fmt ≠ 11 := by rwa [hfmt]
  have h13' : h.fmt ≠ 13 := by rwa [hfmt]
  have hpieces : s.SpansAll c x h o h.pieces := hlie.spansAll fun q hq => by
    rw [THdr.pieces_elems hp' h11', List.mem_map] at hq
    obtain ⟨m, hm, rfl⟩ := hq
    exact ⟨_, List.mem_map.2 ⟨m, hm, rfl⟩, by rw [hfmt]⟩
  have hscales : s.SpansAll c x h o h.scales := by
    rw [THdr.scales_elems hp' h13']
    exact fun q hq => absurd hq (List.not_mem_nil)
  have hclean (xs : List Nat) (e : Nat) : (Content.elems xs e).clean (tileFmt w) = .elems xs e := if_neg h13
  refine ⟨_, List.Perm.refl _, fun _ => rfl, ?_⟩
  by_cases hmode : mode = .inn
  · subst hmode
    have hL : (h.elemMoves w sh).map (s.mem.moved (moveDst c x o .inn) (moveSrc c x o .inn)) = (List.range h.count).map fun m =>
        (sliceKey c (sh.place (tileBase w) m (fmtBits (tileFmt w) / 8)).2, leBytes (fmtBits (tileFmt w) / 8)
          (s.rdAt x o (h.off m * (fmtBits h.fmt / 8), fmtBits h.fmt / 8))) := by
      rw [THdr.elemMoves, List.map_map, hfmt]
      refine List.map_congr_left fun m _ => ?_
      rw [leBytes_rdAt s x o (h.off m * (fmtBits (tileFmt w) / 8), fmtBits (tileFmt w) / 8)]
      simp only [Function.comp, Memory.moved, keptBytes_zero]
      simp [moveDst, moveSrc]
    subst hw
    rw [hL]
    exact State.cpxMove_inn_same hthdr hfmt hfar (State.cpxLoad_elems hopen hpieces hscales hp' h11' h13')
      ((congrArg _ (hclean _ _)).trans (State.tileStore_elems h11 h13 hsh hsplit _ _ _))
  · have hL : (h.elemMoves w sh).map (s.mem.moved (moveDst c x o mode) (moveSrc c x o mode)) = (List.range h.count).map fun m =>
        (sliceKey x (o (h.off m * (fmtBits h.fmt / 8))), leBytes (fmtBits h.fmt / 8)
          (s.sread c (sh.place (tileBase w) m (fmtBits (tileFmt w) / 8)).2 (fmtBits (tileFmt w) / 8))) := by
      rw [THdr.elemMoves, List.map_map, hfmt]
      refine List.map_congr_left fun m _ => ?_
      simp only [Function.comp, Memory.moved, keptBytes_zero, leBytes_sread]
      simp [moveDst, moveSrc, hmode]
    have hload := State.tileLoad_elems (s := s) (c := c) hp h11 h13 hsh hsplit
    rw [hcount] at hload
    subst hw
    rw [hL]
    exact State.cpxMove_out_same hthdr hfmt hfar hmode hload
      ((congrArg _ (hclean _ _)).trans (State.cpxStore_elems hopen hpieces hscales hp' h11' h13' _ _))
end

/-- A tile whose shape record is not split, or an accumulator tile, has no far core. -/
theorem State.cpxFar_of_near {s : State} {c : CoreId} {cmd : CopyCmd} {w : Word} (h : tileFmt w = 13 ∨ ∃ sh, shapeOf cmd.shape = some sh ∧ sh.split = false) :
    s.cpxFar cmd c w = none := by
  unfold State.cpxFar
  rcases h with h13 | ⟨sh, hsh, hsplit⟩
  · rcases shapeOf cmd.shape with _ | sh
    · rfl
    · simp [h13]
  · simp [hsh, hsplit]

/-- The end of a cpx whose moves change memory as they say. -/
theorem answers_cpx_moves {s : State} {c : CoreId} {cmd : CopyCmd} {place : Nat} {mode : CopyMode} {sc : Scope} {dst src : CopyMove → Nat}
    {moves : List CopyMove} {free : Bool} (hfind : (s.core c).copies.find? (fun x => x.started && x.place == place) = some cmd)
    (hrun : (s.core c).mcheck = none) (hof : copyOf cmd.instr = some (mode, sc, 1)) (hoffers : cmd.offers = []) (hm : s.mem.wf = true)
    (hmoves : s.CpxMoves c cmd mode sc dst src moves free) :
    Answers (.copyCommandCompletion c place) s fun t => OnlyCore c s t ∧ CopyLeft (s.core c) (t.core c) cmd mode
      ∧ (∀ l p r, moves = l ++ p :: r → (∀ q, q ∈ r → dst q + q.2.2.1 ≤ dst p ∨ dst p + p.2.2.1 ≤ dst q) →
          (free = true → ∀ q, q ∈ l → dst q + q.2.2.1 ≤ dst p ∨ dst p + p.2.2.1 ≤ dst q) →
          ∀ j, j < p.2.2.1 → t.mem.read (dst p + j) = keptByte p.2.2.2 j (s.mem.read (src p + j)))
      ∧ (∀ b, (∀ p, p ∈ moves → b < dst p ∨ dst p + p.2.2.1 ≤ b) → t.mem.read b = s.mem.read b) := by
  obtain ⟨L, hperm, hseq, hmove⟩ := hmoves
  obtain ⟨t, he, honly, hleft, hmem, -⟩ := answers_copyDone_flags hoffers (exec_completion_cpx hfind hrun hof hmove)
  refine ⟨t, he, honly, hleft, fun l p r hsplit hr hl j hj => ?_, fun b hb => ?_⟩
  · rw [hmem]
    exact Memory.read_moves hm hperm hsplit hseq hr hl hj
  · rw [hmem]
    exact Memory.read_moves_of_outside hperm hb

end Sys2Proof.Machine
end

section
/-! SUPPORT. A cpx of f4 elements between a tile and a slice: each half byte at its place (R74, R125, R218). -/

namespace Sys2Proof.Machine

/-! ## Half bytes written in turn -/

theorem Memory.putHalves_append (m : Memory) (l l' : List ((Nat × Nat) × Nat)) : m.putHalves (l ++ l') = Memory.putHalves (m.putHalves l) l' :=
  List.foldl_append ..

section
variable {m : Memory} (hm : m.wf = true) (G : Nat → (Nat × Nat) × Nat) (hodd : ∀ i, (G i).1.2 < 2)
include hm hodd

theorem Memory.halfOf_putHalves_range {i n : Nat} (hi : i < n) (h : ∀ j, i < j → j < n → (G j).1 ≠ (G i).1) :
    halfOf ((m.putHalves ((List.range n).map G)).read (G i).1.1) (G i).1.2 = (G i).2 % 16 := by
  induction n with
  | zero => cases hi
  | succ n ih =>
    rw [List.range_succ, List.map_append, Memory.putHalves_append]
    refine (Memory.halfOf_step (Memory.putHalves_wf hm _) (hodd n) (hodd i) (G n).2).trans ?_
    rcases Nat.lt_succ_iff_lt_or_eq.1 hi with hlt | rfl
    · rw [if_neg (h n hlt (Nat.lt_succ_self n)).symm]
      exact ih hlt fun j hj hn => h j hj (Nat.lt_succ_of_lt hn)
    · exact if_pos rfl
theorem Memory.halfOf_putHalves_range_of_ne {n : Nat} {q : Nat × Nat} (hq : q.2 < 2) (h : ∀ i, i < n → (G i).1 ≠ q) :
    halfOf ((m.putHalves ((List.range n).map G)).read q.1) q.2 = halfOf (m.read q.1) q.2 := by
  refine Memory.halfOf_putHalves_of_not_mem hm hq (fun p hp => ?_) fun p hp => ?_
  · obtain ⟨i, -, rfl⟩ := List.mem_map.1 hp
    exact hodd i
  · obtain ⟨i, hi, rfl⟩ := List.mem_map.1 hp
    exact h i (List.mem_range.1 hi)
end

theorem leNat_readBytes_one (m : Memory) (k : Nat) : leNat (m.readBytes k 1) = (m.read k).toNat := Nat.add_zero _
theorem Memory.writeBytes_half (m : Memory) (k odd : Nat) {v : Nat} (hv : v < 16) :
    m.writeBytes k (leBytes 1 (if odd = 1 then (m.read k).toNat % 16 + 16 * v else (m.read k).toNat / 16 * 16 + v)) =
      m.write k (halfPut (m.read k) odd v) := by
  rw [halfPut, Nat.mod_eq_of_lt hv]; rfl

theorem State.foldl_putHalves {β : Type} (s : State) (step : State → β → State) (g : β → (Nat × Nat) × Nat) (l : List β)
    (hstep : ∀ m b, b ∈ l → step (s.withMem m) b = s.withMem (m.write (g b).1.1 (halfPut (m.read (g b).1.1) (g b).1.2 (g b).2))) (m : Memory) :
    l.foldl step (s.withMem m) = s.withMem (m.putHalves (l.map g)) := by
  induction l generalizing m with
  | nil => rfl
  | cons b l ih =>
    rw [List.foldl_cons, hstep m b (List.mem_cons_self ..)]
    exact ih (fun m q hq => hstep m q (List.mem_cons_of_mem _ hq)) _

/-! ## f4 elements of a tile and of a slice -/

section
variable {s : State} {c x : CoreId} {cmd : CopyCmd} {h : THdr} {o : Nat → Nat} {sc : Scope} {w : Word} {ws : List Word} {sh : Shape}

/-- The key and half of f4 element m of a tile. -/
def Shape.halfAt (sh : Shape) (c : CoreId) (base m : Nat) : Nat × Nat := (sliceKey c (sh.nibble base m).2.1, (sh.nibble base m).2.2)
/-- The key and half of f4 element m of a header's tensor. -/
def THdr.halfAt (h : THdr) (x : CoreId) (o : Nat → Nat) (m : Nat) : Nat × Nat := (sliceKey x (o (h.off m / 2)), h.off m % 2)
/-- The half byte at a place. -/
def State.half (s : State) (p : Nat × Nat) : Nat := halfOf (s.mem.read p.1) p.2

/-- The byte of each f4 element of a header's tensor lies in the slice of core x. -/
def State.HalvesLie (s : State) (c x : CoreId) (h : THdr) (o : Nat → Nat) : Prop :=
  ∀ m, m < h.count → s.Names c x (h.base + BitVec.ofNat 64 (h.off m / 2))
    ∧ addrKey x (h.base + BitVec.ofNat 64 (h.off m / 2)) = sliceKey x (o (h.off m / 2))

theorem State.half_lt (s : State) (p : Nat × Nat) : s.half p < 16 := Nat.mod_lt _ (by decide)
theorem Shape.halfAt_lt (sh : Shape) (c : CoreId) (base m : Nat) : (sh.halfAt c base m).2 < 2 := Nat.mod_lt _ (by decide)
theorem THdr.halfAt_lt (h : THdr) (x : CoreId) (o : Nat → Nat) (m : Nat) : (h.halfAt x o m).2 < 2 := Nat.mod_lt _ (by decide)
theorem Shape.nibble_near (hsplit : sh.split = false) (base m : Nat) : (sh.nibble base m).1 = false := by simp [Shape.nibble, Shape.place, hsplit]

theorem State.tileLoad_halves (h11 : tileFmt w = 11) (hsh : shapeOf ws = some sh) (hsplit : sh.split = false) :
    s.tileLoad c w ws = .elems ((List.range sh.count).map fun m => s.half (sh.halfAt c (tileBase w) m)) 0 := by
  have hp : isPlane (tileFmt w) = false := by rw [h11]; rfl
  have h13 : tileFmt w ≠ 13 := by rw [h11]; decide
  simp only [State.tileLoad, hp, Bool.false_eq_true, if_false, if_neg h13, hsh, if_pos h11, Shape.nibble_near hsplit, State.sread, State.readN,
    leNat_readBytes_one]
  rfl
theorem State.tileStore_halves (h11 : tileFmt w = 11) (hsh : shapeOf ws = some sh) (hsplit : sh.split = false) (A : Nat → Nat) (hA : ∀ m, A m < 16)
    (e n : Nat) : s.tileStore c w ws (.elems ((List.range n).map A) e) =
      s.withMem (s.mem.putHalves ((List.range n).map fun m => (sh.halfAt c (tileBase w) m, A m))) := by
  have h13 : tileFmt w ≠ 13 := by rw [h11]; decide
  rw [State.tileStore]
  dsimp only
  rw [if_neg h13, zipIdx_map_range, hsh]
  dsimp only
  simp only [if_pos h11, Shape.nibble_near hsplit, Bool.false_eq_true, if_false]
  rw [List.foldl_map]
  refine State.foldl_putHalves s _ _ _ (fun m b _ => ?_) s.mem
  rw [State.sread, State.readN, leNat_readBytes_one, State.swrite_withMem]
  exact congrArg s.withMem (m.writeBytes_half _ _ (hA b))

section
variable (hopen : s.Opens c x cmd.ctx cmd.super) (h11 : h.fmt = 11)
  (hlie : s.HalvesLie c x h o)
include hopen h11 hlie

theorem State.cpxLoad_halves : s.cpxLoad cmd c sc h = (s, .ok (.elems ((List.range h.count).map fun m => s.half (h.halfAt x o m)) 0)) := by
  have hp : isPlane h.fmt = false := by rw [h11]; rfl
  have hpieces : h.pieces = (List.range h.count).map fun m => (h.off m / 2, 1) := by rw [THdr.pieces, hp, if_neg Bool.false_ne_true, if_pos h11]
  have hscales : h.scales = [] := THdr.scales_elems hp (by rw [h11]; decide)
  have hspans : s.SpansAll c x h o h.pieces := fun q hq => by
    rw [hpieces, List.mem_map] at hq
    obtain ⟨m, hm, rfl⟩ := hq
    intro r hr
    have hzero : r.1 = 0 := Nat.lt_one_iff.1 (spotRuns_lt hr)
    rw [hzero]
    simpa using hlie m (List.mem_range.1 hm)
  have hnone : s.SpansAll c x h o h.scales := by
    rw [hscales]
    exact fun q hq => absurd hq List.not_mem_nil
  rw [State.cpxLoad, State.cpxPieces_opens hopen sc hspans]
  dsimp only
  rw [State.cpxPieces_opens hopen sc hnone, hpieces, List.map_map, hp]
  dsimp only
  rw [if_neg Bool.false_ne_true, if_pos h11, zipIdx_map_range, List.map_map]
  simp only [Function.comp, leNat_readBytes_one]
  rfl

omit h11 in
theorem State.cpxNibbles_opens {l : List (Nat × Nat)} (hl : ∀ p, p ∈ l → p.2 < h.count) (m : Memory) : (s.withMem m).cpxNibbles cmd c sc h l =
    (s.withMem (m.putHalves (l.map fun p => (h.halfAt x o p.2, p.1))), .ok ()) := by
  induction l generalizing m with
  | nil => rfl
  | cons p l ih =>
    obtain ⟨hnames, hkey⟩ := hlie p.2 (hl p (List.mem_cons_self ..))
    rw [State.cpxNibbles]
    dsimp only
    rw [State.copyRead1_opens hopen sc m hnames]
    dsimp only
    rw [State.copyWrite1_opens hopen sc m hnames, leNat_readBytes_one, hkey]
    exact ih (fun q hq => hl q (List.mem_cons_of_mem _ hq)) _
theorem State.cpxStore_halves (A : Nat → Nat) (e : Nat) : s.cpxStore cmd c sc h (.elems ((List.range h.count).map A) e) =
    (s.withMem (s.mem.putHalves ((List.range h.count).map fun m => (h.halfAt x o m, A m))), .ok ()) := by
  have hp : isPlane h.fmt = false := by rw [h11]; rfl
  have hpieces : h.pieces = (List.range h.count).map fun m => (h.off m / 2, 1) := by rw [THdr.pieces, hp, if_neg Bool.false_ne_true, if_pos h11]
  have haims := State.copyAims_opens hopen s.mem (l := h.pieces.map fun p => (h.base + BitVec.ofNat 64 p.1, 1)) fun p hp => by
    rw [hpieces, List.map_map, List.mem_map] at hp
    obtain ⟨m, hm, rfl⟩ := hp
    exact (hlie m (List.mem_range.1 hm)).1
  have hput := State.cpxNibbles_opens (sc := sc) hopen hlie (l := ((List.range h.count).map A).zipIdx) (fun p hp => by
    rw [zipIdx_map_range, List.mem_map] at hp
    obtain ⟨m, hm, rfl⟩ := hp
    exact List.mem_range.1 hm) s.mem
  rw [State.withMem_same] at haims hput
  rw [zipIdx_map_range, List.map_map] at hput
  rw [State.cpxStore, if_pos h11, haims, zipIdx_map_range]
  exact hput
end
end

/-! ## The end of a cpx of f4 elements -/

/-- The place that f4 element m of a cpx goes to. -/
def halfDst (c x : CoreId) (o : Nat → Nat) (mode : CopyMode) (h : THdr) (sh : Shape) (base m : Nat) : Nat × Nat :=
  if mode = .inn then sh.halfAt c base m else h.halfAt x o m
/-- The place that f4 element m of a cpx comes from. -/
def halfSrc (c x : CoreId) (o : Nat → Nat) (mode : CopyMode) (h : THdr) (sh : Shape) (base m : Nat) : Nat × Nat :=
  if mode = .inn then h.halfAt x o m else sh.halfAt c base m

section
variable {s : State} {c x : CoreId} {cmd : CopyCmd} {h : THdr} {o : Nat → Nat} {sc : Scope} {mode : CopyMode} {sh : Shape} {place : Nat}

theorem halfDst_lt (base m : Nat) : (halfDst c x o mode h sh base m).2 < 2 := by
  rw [halfDst]
  split_ifs
  · exact Shape.halfAt_lt ..
  · exact THdr.halfAt_lt ..

theorem State.cpxMove_halves (hthdr : thdrOf cmd.hdr = some h) (hfmt : h.fmt = tileFmt ((s.core c).tile cmd.tile)) (hopen : s.Opens c x cmd.ctx cmd.super)
    (h11 : tileFmt ((s.core c).tile cmd.tile) = 11) (hsh : shapeOf cmd.shape = some sh) (hsplit : sh.split = false) (hcount : sh.count = h.count)
    (hlie : s.HalvesLie c x h o) :
    s.cpxMove c cmd mode sc = ((s.withMem (s.mem.putHalves ((List.range h.count).map fun m =>
      (halfDst c x o mode h sh (tileBase ((s.core c).tile cmd.tile)) m, s.half (halfSrc c x o mode h sh (tileBase ((s.core c).tile cmd.tile)) m))))).cmdFlags
        c cmd.slot 0, .ok ()) := by
  have hfar : s.cpxFar cmd c ((s.core c).tile cmd.tile) = none := State.cpxFar_of_near (.inr ⟨sh, hsh, hsplit⟩)
  have h11' : h.fmt = 11 := hfmt.trans h11
  have hclean (xs : List Nat) (e : Nat) : (Content.elems xs e).clean (tileFmt ((s.core c).tile cmd.tile)) = .elems xs e :=
    if_neg (by rw [h11]; decide)
  by_cases hmode : mode = .inn
  · subst hmode
    have hmove := State.cpxMove_inn hthdr hfar (State.cpxLoad_halves (sc := sc) hopen h11' hlie)
    dsimp only at hmove
    rw [hfmt, convert_same, hclean, State.tileStore_halves h11 hsh hsplit _ (fun m => s.half_lt _)] at hmove
    exact hmove
  · have hmove := State.cpxMove_out (sc := sc) hmode hthdr hfar (u := s.withMem (s.mem.putHalves ((List.range h.count).map fun m =>
      (h.halfAt x o m, s.half (sh.halfAt c (tileBase ((s.core c).tile cmd.tile)) m)))))
    dsimp only at hmove
    rw [hfmt, convert_same, State.tileLoad_halves h11 hsh hsplit, hclean, hcount] at hmove
    simp only [halfDst, halfSrc, if_neg hmode]
    exact hmove (State.cpxStore_halves hopen h11' hlie _ _)

/-- A cpx of f4 elements completes: a later element wins where places meet. -/
theorem answers_cpx_halves (hfind : (s.core c).copies.find? (fun x => x.started && x.place == place) = some cmd)
    (hrun : (s.core c).mcheck = none) (hof : copyOf cmd.instr = some (mode, sc, 1)) (hoffers : cmd.offers = []) (hm : s.mem.wf = true)
    (hthdr : thdrOf cmd.hdr = some h) (hfmt : h.fmt = tileFmt ((s.core c).tile cmd.tile)) (hopen : s.Opens c x cmd.ctx cmd.super)
    (h11 : tileFmt ((s.core c).tile cmd.tile) = 11) (hsh : shapeOf cmd.shape = some sh) (hsplit : sh.split = false) (hcount : sh.count = h.count)
    (hlie : s.HalvesLie c x h o) :
    let dst := halfDst c x o mode h sh (tileBase ((s.core c).tile cmd.tile))
    let src := halfSrc c x o mode h sh (tileBase ((s.core c).tile cmd.tile))
    Answers (.copyCommandCompletion c place) s fun t => OnlyCore c s t ∧ CopyLeft (s.core c) (t.core c) cmd mode
      ∧ (∀ m, m < h.count → (∀ n, m < n → n < h.count → dst n ≠ dst m) → t.half (dst m) = s.half (src m))
      ∧ (∀ p : Nat × Nat, p.2 < 2 → (∀ m, m < h.count → dst m ≠ p) → t.half p = s.half p) := by
  intro dst src
  obtain ⟨t, he, honly, hleft, hmem, -⟩ := answers_copyDone_flags hoffers
    (exec_completion_cpx hfind hrun hof (State.cpxMove_halves hthdr hfmt hopen h11 hsh hsplit hcount hlie))
  have hodd : ∀ i, ((fun m => (dst m, s.half (src m))) i).1.2 < 2 := fun i => halfDst_lt _ i
  refine ⟨t, he, honly, hleft, fun m hlt hlast => ?_, fun p hp hne => ?_⟩
  · rw [State.half, hmem]
    exact (Memory.halfOf_putHalves_range hm _ hodd hlt hlast).trans (Nat.mod_eq_of_lt (s.half_lt _))
  · rw [State.half, hmem]
    exact Memory.halfOf_putHalves_range_of_ne hm _ hodd hp hne
end

/-! ## The moves of a cpx in one format -/

/-- n bytes from a place of a header's tensor on lie in the slice of core x. -/
def State.Lies (s : State) (c x : CoreId) (h : THdr) (o : Nat → Nat) (a n : Nat) : Prop :=
  ∀ j, j < n → mformOk (h.base + BitVec.ofNat 64 (a + j)) = true ∧ (h.base + BitVec.ofNat 64 (a + j)).getLsbD 63 = true
    ∧ s.sliceOf c (h.base + BitVec.ofNat 64 (a + j)) = some (x, o a + j)

theorem State.Lies.spans {s : State} {c x : CoreId} {h : THdr} {o : Nat → Nat} {a n : Nat} (hlie : s.Lies c x h o a n) :
    s.Spans c x (h.base + BitVec.ofNat 64 a) n (o a) := State.spans_of_lies fun j hj => by
  rw [BitVec.add_assoc, ← BitVec.ofNat_add]
  exact hlie j hj
theorem State.Lies.names {s : State} {c x : CoreId} {h : THdr} {o : Nat → Nat} {a : Nat} (hlie : s.Lies c x h o a 1) :
    s.Names c x (h.base + BitVec.ofNat 64 a) ∧ addrKey x (h.base + BitVec.ofNat 64 a) = sliceKey x (o a) := by
  obtain ⟨hform, hslice, hnames⟩ := hlie 0 Nat.one_pos
  exact State.names_of hform hslice hnames

/-- The moves of a cpx in one format. -/
def THdr.sameMoves (h : THdr) (w : Word) (sh : Shape) : List CopyMove :=
  if isPlane (tileFmt w) then h.planeMoves w else if tileFmt w = 13 then h.accMoves w else h.elemMoves w sh

theorem State.cpxMoves_same {s : State} {c x : CoreId} {cmd : CopyCmd} {h : THdr} {o : Nat → Nat} {sc : Scope} {mode : CopyMode} {sh : Shape}
    (hthdr : thdrOf cmd.hdr = some h) (hfmt : h.fmt = tileFmt ((s.core c).tile cmd.tile)) (hopen : s.Opens c x cmd.ctx cmd.super)
    (h11 : tileFmt ((s.core c).tile cmd.tile) ≠ 11)
    (hform : tileFmt ((s.core c).tile cmd.tile) = 13 ∧ h.count = 256 ∧ h.soff ≠ 0 ∨ tileFmt ((s.core c).tile cmd.tile) ≠ 13 ∧ shapeOf cmd.shape = some sh
      ∧ sh.split = false ∧ sh.count = h.count ∧ (isPlane (tileFmt ((s.core c).tile cmd.tile)) = true → h.k % 32 = 0 ∧ h.soff ≠ 0))
    (hlie : ∀ p, p ∈ h.sameMoves ((s.core c).tile cmd.tile) sh → s.Lies c x h o p.2.1 p.2.2.1) :
    s.CpxMoves c cmd mode sc (moveDst c x o mode) (moveSrc c x o mode) (h.sameMoves ((s.core c).tile cmd.tile) sh)
      (isPlane (tileFmt ((s.core c).tile cmd.tile))) := by
  have hspans : s.MovesLie c x h o (h.sameMoves ((s.core c).tile cmd.tile) sh) := fun p hp => (hlie p hp).spans
  rcases hform with ⟨h13, hcount, hs⟩ | ⟨h13, hsh, hsplit, hcount, hplane⟩
  · have hp : isPlane (tileFmt ((s.core c).tile cmd.tile)) = false := by rw [h13]; rfl
    have hmoves : h.sameMoves ((s.core c).tile cmd.tile) sh = h.accMoves ((s.core c).tile cmd.tile) := by
      rw [THdr.sameMoves, hp, if_neg Bool.false_ne_true, if_pos h13]
    rw [hmoves] at hspans ⊢
    rw [hp]
    exact State.cpxMoves_acc hthdr hfmt hopen (State.cpxFar_of_near (.inl h13)) h13 hcount hs hspans
  · have hfar : s.cpxFar cmd c ((s.core c).tile cmd.tile) = none := State.cpxFar_of_near (.inr ⟨sh, hsh, hsplit⟩)
    cases hp : isPlane (tileFmt ((s.core c).tile cmd.tile)) with
    | true =>
      have hmoves : h.sameMoves ((s.core c).tile cmd.tile) sh = h.planeMoves ((s.core c).tile cmd.tile) := by rw [THdr.sameMoves, if_pos hp]
      obtain ⟨hk, hs⟩ := hplane hp
      rw [hmoves] at hspans ⊢
      exact State.cpxMoves_plane hthdr hfmt hopen hfar hp hs hk hsh hcount hspans
    | false =>
      have hmoves : h.sameMoves ((s.core c).tile cmd.tile) sh = h.elemMoves ((s.core c).tile cmd.tile) sh := by
        rw [THdr.sameMoves, hp, if_neg Bool.false_ne_true, if_neg h13]
      rw [hmoves] at hspans ⊢
      exact State.cpxMoves_elems hthdr hfmt hopen hfar hp h11 h13 hsh hsplit hcount hspans

end Sys2Proof.Machine
end

section
/-! Copy commands (R214 to R219, R305, R412), settled. -/

namespace Sys2Proof.Machine

/-- Settles O42: each clause is a lemma of the layer before it. An issue is one body of checks; the engine's steps are equations per branch; in a slice a
command's accesses change memory alone, so a cp or a cpx in one format is a list of runs or half bytes written in turn, of which the last at a place stands. -/
theorem copyCommands : Obligations.CopyCommands := by
  unfold Obligations.CopyCommands
  refine ⟨?issue, ?cp, ?engine, ?header, ?converts, ?conversion⟩
  case issue =>
    intro g dir sc t peer b m rel s hg u k a x w ws ds mode memFault enters
    have ha : s.cpEa m = a := s.cpEa_eq m
    have hbody (i : Instr) (kind n : Nat) : s.charge.cpBody i (copyModeOf dir) kind t.toNat n (s.charge.cpEa m) =
        s.charge.cpBody i (copyModeOf dir) kind t.toNat n a := by rw [State.charge_cpEa, ha]
    have hpeer (i : Instr) (mode : CopyMode) : s.charge.peerIssue i mode t (s.charge.rg b) = s.charge.peerIssue i mode t (s.rg b) := by rw [State.charge_rg]
    refine ⟨fun h => ⟨cpBody_unformed hg (exec_cp ..) (hbody ..) h, cpBody_unformed hg (exec_cpx ..) (hbody ..) h⟩,
      fun h => ⟨cpBody_unaligned hg (exec_cp ..) (hbody ..) h, cpBody_unaligned hg (exec_cpx ..) (hbody ..) h, fun h8 => ?_, fun h64 => ?_⟩,
      fun h => ⟨peerIssue_unformed hg (exec_putt ..) (hpeer ..) h, peerIssue_unformed hg (exec_gett ..) (hpeer ..) h⟩,
      fun h => ⟨fun hs => ⟨peerIssue_no_slice hg (exec_putt ..) (hpeer ..) h hs, peerIssue_no_slice hg (exec_gett ..) (hpeer ..) h hs⟩, fun hs => ⟨?_, ?_⟩⟩⟩
    · exact copyIssue_outcomes hg (exec_cp ..) ((hbody ..).trans (State.cpBody_passed h h8))
    · exact copyIssue_outcomes hg (exec_cpx ..) ((hbody ..).trans (State.cpBody_passed h h64))
    · exact copyIssue_outcomes hg (exec_putt ..) ((hpeer ..).trans (State.peerIssue_passed h hs))
    · exact copyIssue_outcomes hg (exec_gett ..) ((hpeer ..).trans (State.peerIssue_passed h hs))
  case header =>
    intro hw h at_ rank ext
    refine ⟨thdrOf_eq_none_iff hw, fun hh => ?_, fun f ws inn => ?_⟩
    · obtain ⟨rfl, -⟩ := eq_hdrOf_of_thdrOf hh
      exact ⟨rfl, rfl, rfl, rfl, fun d hd => ⟨hdrOf_ext hw hd, hdrOf_str hw hd⟩, hdrOf_count hw, hdrOf_k hw, hdrOf_o hw, fun id hid => by
        rw [show (List.range 8).foldr (fun d m => id d + ext d * m) 0 = (List.range 8).foldr (fun d m => id d + hdrExt hw d * m) 0 from rfl, hdrOf_off hw hid]
        refine List.foldl_ext _ _ _ fun n d hd => ?_
        rw [hdrOf_str hw (List.mem_range.1 hd)]⟩
    · exact ⟨fun h15 => cpxCheck_reserved h15 f ws inn, fun h15 hf => cpxCheck_unfit h15 hf inn,
        fun h15 hf hp => (cpxCheck_fits h15 hf inn).trans (if_pos (by rw [Bool.not_eq_true', ← Bool.not_eq_true, fmtPairB_ite_iff]; exact hp)),
        fun h15 hf hp => (cpxCheck_fits h15 hf inn).trans (if_neg (by rw [Bool.not_eq_true', ← Bool.not_eq_true, fmtPairB_ite_iff, not_not]; exact hp))⟩
  case conversion =>
    intro src dst e0 kd O nb hne pl order from_ packed flags
    refine ⟨fun f g xs ew hf hg => convert_float_spec e0 kd O nb hne hf hg xs ew, fun xs ew hdst _ => convert_elems_spec e0 kd O nb hne xs ew hdst,
      fun bs _ _ => ?_⟩
    exact convert_blocks_spec e0 kd O nb hne bs
  case cp =>
    intro c s cmd place mode sc k w hrun hof
    refine ⟨fun hfew hfind hplace hform => ?_, fun x off hfind hdata hscale hoffers haddr hcalm hin hm => ?_⟩
    · obtain ⟨t, he, ⟨hcore, hmem, honly⟩⟩ := answers_modCore
        ((exec_copyCommandStart_formed hfew hfind hplace hrun hof hform).trans (congrArg _ State.copyStart_cp))
      exact ⟨t, he, hmem, honly, by rw [hcore]; rfl, by rw [hcore]; rfl⟩
    · intro moved
      obtain ⟨t, he, honly, ⟨hcopies, hinn, houtr, hout⟩, hin, hback⟩ := answers_cp_completion hfind hrun hoffers hof hdata hscale haddr hcalm hin hm
      exact ⟨t, he, honly, hcopies, fun h => ⟨hinn h, hin h⟩, fun h => ⟨(hback h).1, (hback h).2, houtr, hout⟩⟩
  case converts =>
    intro c s u cmd place mode sc h ct k w f turned hrun hof hfind hoffers hthdr hfar
    refine ⟨fun hmode hload => ?_, fun hmode hstore => ?_⟩
    · subst hmode
      have he := exec_completion_cpx hfind hrun hof (State.cpxMove_inn hthdr hfar hload)
      rw [State.copyDone_eq hoffers] at he
      exact ⟨_, he, State.mem_cmdFlags ..⟩
    · have he := exec_completion_cpx hfind hrun hof (State.cpxMove_out hmode hthdr hfar hstore)
      rw [State.copyDone_eq hoffers] at he
      exact ⟨_, he, State.mem_cmdFlags ..⟩
  case engine =>
    intro c s cmd place mode sc kind k w f began fails done hrun hof
    refine ⟨fun hfew hfind hplace => ⟨fun hbad => answers_copyFail (exec_copyCommandStart_malformed hfew hfind hplace hrun hof hbad), fun hform => ?_⟩,
      fun hfind hoffers => ⟨?_, ?_⟩⟩
    · have hstart := exec_copyCommandStart_formed hfew hfind hplace hrun hof hform
      refine ⟨?_, ?_, ?_⟩
      · rintro x off rfl hcalm haddr hin
        exact answers_cpx_start hstart hcalm haddr hin
      · rintro rfl hnowhere
        exact answers_copyFail (hstart.trans (congrArg _ (State.copyStart_peer_nowhere hnowhere)))
      · rintro x off rfl hslice count bytes hdr asks
        refine ⟨fun g rel t b pt hi => ?_, fun g rel t b pt hi => ?_⟩
        · refine answers_peer_start hstart hslice (m := ⟨hdr, false, rel, pt.toNat, f, count, bytes, place, false⟩) (by rw [hi]; rfl) ?_
          simp only [State.peerPacket, CopyCmd.begun, hi]
          rfl
        · refine answers_peer_start hstart hslice (m := ⟨hdr, true, rel, pt.toNat, f, count, [], place, false⟩) (by rw [hi]; rfl) ?_
          simp only [State.peerPacket, CopyCmd.begun, hi]
          rfl
    · rintro rfl
      refine ⟨fun hnone => ?_, fun a ha => ⟨fun hack => answers_peer_ack hfind hrun hoffers hof ha hack,
        fun hnack => answers_copyFail (exec_peer_nack hfind hrun hof ha hnack), fun hack hnack => answers_copyFail (exec_peer_lost hfind hrun hof ha hack hnack)⟩⟩
      exact (exec_completion_peer hfind hrun hof).trans (by rw [hnone])
    · rintro h sh x o rfl hthdr hfmt hcalm hm hmay hsees hform size unit nb moves lies kept dst src apart
      have hopen : s.Opens c x cmd.ctx cmd.super := ⟨hmay, hsees, hcalm⟩
      refine ⟨fun h11 hlies => ?_, fun h11 hlies => ?_⟩
      · have hmoves := State.cpxMoves_same (mode := mode) (sc := sc) hthdr hfmt hopen h11 hform hlies
        obtain ⟨t, he, honly, hleft, hread, hout⟩ := answers_cpx_moves hfind hrun hof hoffers hm hmoves
        exact ⟨t, he, honly, hleft, hread, hout⟩
      · have hsh : shapeOf cmd.shape = some sh ∧ sh.split = false ∧ sh.count = h.count := by
          rcases hform with ⟨h13, -⟩ | ⟨-, hsh, hsplit, hcount, -⟩
          · rw [h11] at h13
            cases h13
          · exact ⟨hsh, hsplit, hcount⟩
        obtain ⟨hsh, hsplit, hcount⟩ := hsh
        exact answers_cpx_halves (o := o) hfind hrun hof hoffers hm hthdr hfmt hopen h11 hsh hsplit hcount fun m hlt => State.Lies.names (hlies m hlt)

end Sys2Proof.Machine
end
